-- ==== Sys2Proof/Word.lean ====
section
/-!
DEFINITION. The machine's words, and the two shapes of finite map that its state is made of.
-/
namespace Sys2Proof

/-- A 32-bit register lane, uniform register or instruction word. -/
abbrev Word := BitVec 32

/-- A 64-bit mask, register pair, address or time. -/
abbrev Word64 := BitVec 64

/-- A byte of memory. -/
abbrev Byte := BitVec 8

/-- Numbered cells of one width that read 0 where nothing is listed: in canonical form the numbers rise strictly and no cell listed is 0. -/
abbrev Cells (w : Nat) := List (Nat × BitVec w)

/-- Entries under a number; a number that is not listed has no entry. In canonical form the numbers rise strictly. -/
abbrev Table (α : Type) := List (Nat × α)

end Sys2Proof
end

