-- ==== Sys2Proof/Config.lean ====
section
/-!
DEFINITION. What the spec leaves open, as constants without a value: the free values of the machine (R11), and the functions that
published standards define (R460, R466, R469).
-/
namespace Sys2Proof.Config

/-- The free 32-bit value of draw n at index k (a register, lane or byte index): an unspecified result (R11).
Log entry 3 (DESIGN CHOICE). -/
opaque freeWord : Nat → Nat → BitVec 32

/-- The free choice of draw n at index k between two values that the spec allows (R11, R20, R21). Log entry 3. -/
opaque freeBool : Nat → Nat → Bool

/-- The free choice of draw n at index k of one value among the first m numbers (R11). Log entry 3. -/
opaque freeIndex : Nat → Nat → Nat

/-- SHAKE256 (FIPS 202) with a 64-byte output. Log entry 4 (DESIGN CHOICE). -/
opaque shake256 : List (BitVec 8) → List (BitVec 8)

/-- ML-DSA-65 verification (FIPS 204): public key, message, signature. Log entry 4. -/
opaque mldsaValid : List (BitVec 8) → List (BitVec 8) → List (BitVec 8) → Bool

/-- An ML-DSA-65 signature by the fused device key over a message (R469). Log entry 4. -/
opaque mldsaSign : List (BitVec 8) → List (BitVec 8)

/-- The key digest fused into every die's boot ROM (R460). Log entry 4. -/
opaque fusedKeyDigest : List (BitVec 8)

/-- The fused panel serial number (R461). Log entry 4. -/
opaque fusedSerial : Nat

/-- The fused minimum image version (R460). Log entry 4. -/
opaque fusedMinVersion : Nat

/-- The boot-ROM digest of measurement 1 (R469). Log entry 4. -/
opaque romDigest : List (BitVec 8)

/-- The panel number that Mboash sets from the management path (R419). Log entry 4. -/
opaque panelNumber : Nat

/-- The die-local address of the event ring on every site (R451, R467). Log entry 4. -/
opaque eventRing : Nat

/-- The lowest die-local address of the device's reservations (R379, R467). Log entry 4. -/
opaque reserved : Nat

/-- What the flash holds when the package is shipped (R459): a byte at each offset. Log entry 4. -/
opaque flashAtShipping : Nat → BitVec 8

/-- The defective data rows of a core's arrays (R470, R471): array and row index, by draw and core. Log entry 3. -/
opaque freeRows : Nat → Nat → List (Nat × Nat)

/-- The die-local address of the status word that the march test of a core leaves (R470). Log entry 4. -/
opaque statusWord : Nat → Nat

/-- The core of its site, the array and the row that the INDEX of a row's record names (R451, R465). Log entry 4. -/
opaque rowPlace : BitVec 32 → Nat × Nat × Nat

/-- The home slice of a site to which a line is hashed (R450), among 32. Log entry 4. -/
opaque sliceOf : Nat → Nat

/-- How the INDEX of an event record names a module of an edge (R451). Log entry 4. -/
opaque moduleIndex : Nat → Nat → BitVec 32

/-- The die-local address of the name block that Mboash builds (R379, R390, R462). Log entry 4. -/
opaque bootNames : Nat

/-- The records of the event ring that Mboash lays out at boot (R451): how many, and the site address of record 0. Log entry 4. -/
opaque ringSlots : Nat
opaque ringRecords : Nat

end Sys2Proof.Config
end

