-- ==== Sys2Proof/Syntax.lean ====
section
/-!
DEFINITION. The syntax of the machine's steps: one constructor for each row of the opcode table. The first 220 rows are
Sahade instructions and feed words, with the fields of their encodings (R49 to R54, R220) as the codes that R56 to R63 give; the
rest are the indivisible events of the device's engines, with the names of what they act on.
-/
namespace Sys2Proof

/-- The operand fields of a format L instruction whose word 1 is the operand word (R50): guard, destination, sources a, b, c, the
cross-lane modifier of source a (R65) and the ABS and NEG bits (R64). -/
structure LOps where
  g : BitVec 5
  d : BitVec 6
  a : BitVec 7
  b : BitVec 7
  c : BitVec 7
  xmode : BitVec 3
  larg : BitVec 6
  fill : BitVec 2
  absC : Bool
  absB : Bool
  absA : Bool
  negC : Bool
  negB : Bool
  negA : Bool
deriving DecidableEq, Repr

/-- The operand fields of a format ML instruction (R52): guard, DATA, BASE, the signed byte offset and the access modifiers. -/
structure MLOps where
  g : BitVec 5
  d : BitVec 6
  b : BitVec 7
  offset : BitVec 21
  order : BitVec 3
  scope : BitVec 3
  cache : BitVec 2
  nt : Bool
deriving DecidableEq, Repr

/-- The instructions, feed words and events of the opcode table, one constructor each. -/
inductive Instr where
  /-- IADD (R116). -/
  | iadd (g : BitVec 5) (d : BitVec 6) (a : BitVec 7) (b : BitVec 7)
  /-- ISUB (R116). -/
  | isub (g : BitVec 5) (d : BitVec 6) (a : BitVec 7) (b : BitVec 7)
  /-- IMUL (R116). -/
  | imul (g : BitVec 5) (d : BitVec 6) (a : BitVec 7) (b : BitVec 7)
  /-- IMIN (R116). -/
  | imin (g : BitVec 5) (d : BitVec 6) (a : BitVec 7) (b : BitVec 7)
  /-- IMAX (R116). -/
  | imax (g : BitVec 5) (d : BitVec 6) (a : BitVec 7) (b : BitVec 7)
  /-- AND (R118). -/
  | and (g : BitVec 5) (d : BitVec 6) (a : BitVec 7) (b : BitVec 7)
  /-- OR (R118). -/
  | or (g : BitVec 5) (d : BitVec 6) (a : BitVec 7) (b : BitVec 7)
  /-- XOR (R118). -/
  | xor (g : BitVec 5) (d : BitVec 6) (a : BitVec 7) (b : BitVec 7)
  /-- ANDN (R118). -/
  | andn (g : BitVec 5) (d : BitVec 6) (a : BitVec 7) (b : BitVec 7)
  /-- SHL (R118). -/
  | shl (g : BitVec 5) (d : BitVec 6) (a : BitVec 7) (b : BitVec 7)
  /-- SHR (R118). -/
  | shr (g : BitVec 5) (d : BitVec 6) (a : BitVec 7) (b : BitVec 7)
  /-- SAR (R118). -/
  | sar (g : BitVec 5) (d : BitVec 6) (a : BitVec 7) (b : BitVec 7)
  /-- MOV (R122). -/
  | mov (g : BitVec 5) (d : BitVec 6) (a : BitVec 7)
  /-- IABS (R116). -/
  | iabs (g : BitVec 5) (d : BitVec 6) (a : BitVec 7)
  /-- NOT (R118). -/
  | not (g : BitVec 5) (d : BitVec 6) (a : BitVec 7)
  /-- POPC (R118). -/
  | popc (g : BitVec 5) (d : BitVec 6) (a : BitVec 7)
  /-- CLZ (R118). -/
  | clz (g : BitVec 5) (d : BitVec 6) (a : BitVec 7)
  /-- BREV (R118). -/
  | brev (g : BitVec 5) (d : BitVec 6) (a : BitVec 7)
  /-- FADD (R123). -/
  | fadd (g : BitVec 5) (d : BitVec 6) (a : BitVec 7) (b : BitVec 7)
  /-- FSUB (R123). -/
  | fsub (g : BitVec 5) (d : BitVec 6) (a : BitVec 7) (b : BitVec 7)
  /-- FMUL (R123). -/
  | fmul (g : BitVec 5) (d : BitVec 6) (a : BitVec 7) (b : BitVec 7)
  /-- FMIN (R84). -/
  | fmin (g : BitVec 5) (d : BitVec 6) (a : BitVec 7) (b : BitVec 7)
  /-- FMAX (R84). -/
  | fmax (g : BitVec 5) (d : BitVec 6) (a : BitVec 7) (b : BitVec 7)
  /-- FRCP (R96). -/
  | frcp (g : BitVec 5) (d : BitVec 6) (a : BitVec 7)
  /-- FRSQ (R96). -/
  | frsq (g : BitVec 5) (d : BitVec 6) (a : BitVec 7)
  /-- FSQRT (R125). -/
  | fsqrt (g : BitVec 5) (d : BitVec 6) (a : BitVec 7)
  /-- FEXP2 (R96). -/
  | fexp2 (g : BitVec 5) (d : BitVec 6) (a : BitVec 7)
  /-- FLOG2 (R96). -/
  | flog2 (g : BitVec 5) (d : BitVec 6) (a : BitVec 7)
  /-- FSIN (R96). -/
  | fsin (g : BitVec 5) (d : BitVec 6) (a : BitVec 7)
  /-- FCOS (R96). -/
  | fcos (g : BitVec 5) (d : BitVec 6) (a : BitVec 7)
  /-- FCLASS (R125). -/
  | fclass (g : BitVec 5) (d : BitVec 6) (a : BitVec 7)
  /-- HADD2 (R128). -/
  | hadd2 (g : BitVec 5) (d : BitVec 6) (a : BitVec 7) (b : BitVec 7)
  /-- HMUL2 (R128). -/
  | hmul2 (g : BitVec 5) (d : BitVec 6) (a : BitVec 7) (b : BitVec 7)
  /-- UADD (R138). -/
  | uadd (g : BitVec 5) (d : BitVec 6) (a : BitVec 7) (b : BitVec 7)
  /-- USUB (R138). -/
  | usub (g : BitVec 5) (d : BitVec 6) (a : BitVec 7) (b : BitVec 7)
  /-- UAND (R138). -/
  | uand (g : BitVec 5) (d : BitVec 6) (a : BitVec 7) (b : BitVec 7)
  /-- UMOV (R138). -/
  | umov (g : BitVec 5) (d : BitVec 6) (a : BitVec 7)
  /-- EXSET (R136). -/
  | exset (a : BitVec 7)
  /-- EXSET_AND (R136). -/
  | exsetAnd (d : BitVec 6)
  /-- EXSET_ANDN (R136). -/
  | exsetAndn (d : BitVec 6)
  /-- EXGET (R136). -/
  | exget (d : BitVec 6)
  /-- PMOV (R135). -/
  | pmov (d : BitVec 6) (a : BitVec 7)
  /-- MOVSR (R146). -/
  | movsr (g : BitVec 5) (d : BitVec 6) (a : BitVec 7)
  /-- MOVSR_CLR (R146). -/
  | movsrClr (g : BitVec 5) (d : BitVec 6)
  /-- BR (R141). -/
  | br (p : BitVec 5) (c : BitVec 3) (u : Bool) (off : BitVec 16)
  /-- CALL (R142). -/
  | call (l : BitVec 4) (off : BitVec 16)
  /-- LOOP (R143). -/
  | loop (n : BitVec 5) (off : BitVec 16)
  /-- NOP (R145). -/
  | nop (g : BitVec 5)
  /-- RET (R142). -/
  | ret (a : BitVec 7)
  /-- EXIT (R144). -/
  | exit
  /-- JMPX (R142). -/
  | jmpx (a : BitVec 7)
  /-- LD (R158). -/
  | ld (g : BitVec 5) (d : BitVec 6) (b : BitVec 7) (off : BitVec 7)
  /-- ST (R158). -/
  | st (g : BitVec 5) (d : BitVec 6) (b : BitVec 7) (off : BitVec 7)
  /-- LDS (R158). -/
  | lds (g : BitVec 5) (d : BitVec 6) (b : BitVec 7) (off : BitVec 7)
  /-- STS (R158). -/
  | sts (g : BitVec 5) (d : BitVec 6) (b : BitVec 7) (off : BitVec 7)
  /-- LDC (R159). -/
  | ldc (g : BitVec 5) (d : BitVec 6) (b : BitVec 7) (off : BitVec 7)
  /-- FENCE (R183). -/
  | fence (g : BitVec 5) (order : BitVec 3) (scope : BitVec 3) (xp : Bool)
  /-- TXBEGIN (R189). -/
  | txbegin (d : BitVec 6)
  /-- TXEND (R192). -/
  | txend
  /-- TXABORT (R191). -/
  | txabort (code : BitVec 8)
  /-- ACCZ (R213). -/
  | accz (m : BitVec 8)
  /-- SETRT (R214). -/
  | setrt (n : BitVec 2) (a : BitVec 7)
  /-- CMIT (R259). -/
  | cmit
  /-- WAITC (R260). -/
  | waitc (id1 : BitVec 3) (t1 : BitVec 6) (id2 : BitVec 3) (t2 : BitVec 6)
  /-- FSTOP (R219). -/
  | fstop
  /-- BARV (R263). -/
  | barv (d : BitVec 6) (b : BitVec 7) (n : BitVec 7)
  /-- BEXP (R263). -/
  | bexp (b : BitVec 7) (n : BitVec 7)
  /-- BWAIT (R263). -/
  | bwait (d : BitVec 6) (b : BitVec 7) (n : BitVec 7)
  /-- BART (R266). -/
  | bart (id : BitVec 2)
  /-- BARC (R266). -/
  | barc (id : BitVec 2)
  /-- SCHNEXT (R267). -/
  | schnext (d : BitVec 6)
  /-- WAITA (R269). -/
  | waita (d : BitVec 6) (a : BitVec 7) (r : BitVec 7)
  /-- RNG (R239). -/
  | rng (g : BitVec 5) (d : BitVec 6) (k : BitVec 7) (c : BitVec 7)
  /-- RNG_SEQ (R239). -/
  | rngSeq (g : BitVec 5) (d : BitVec 6) (k : BitVec 7) (n : BitVec 2)
  /-- SMARK (R243). -/
  | smark (g : BitVec 5) (slot : BitVec 2) (p : BitVec 7)
  /-- SCLOSE (R243). -/
  | sclose (slot : BitVec 2)
  /-- TRAP (R275). -/
  | trap (g : BitVec 5) (code : BitVec 16)
  /-- TRET (R274). -/
  | tret
  /-- BKPT (R275). -/
  | bkpt (g : BitVec 5) (code : BitVec 16)
  /-- CSRR (R278). -/
  | csrr (d : BitVec 6) (n : BitVec 10)
  /-- CSRW (R278). -/
  | csrw (src : BitVec 7) (n : BitVec 10)
  /-- IADD_LONG (R116). -/
  | iaddLong (t : BitVec 2) (sat : Bool) (o : LOps)
  /-- ISUB_LONG (R116). -/
  | isubLong (t : BitVec 2) (sat : Bool) (o : LOps)
  /-- IMUL_LONG (R116). -/
  | imulLong (t : BitVec 2) (sat : Bool) (o : LOps)
  /-- IMULH (R116). -/
  | imulh (t : BitVec 2) (o : LOps)
  /-- IMIN_LONG (R116). -/
  | iminLong (t : BitVec 2) (o : LOps)
  /-- IMAX_LONG (R116). -/
  | imaxLong (t : BitVec 2) (o : LOps)
  /-- IABS_LONG (R116). -/
  | iabsLong (sat : Bool) (o : LOps)
  /-- IMAD (R116). -/
  | imad (t : BitVec 2) (sat : Bool) (o : LOps)
  /-- AND_LONG (R118). -/
  | andLong (o : LOps)
  /-- OR_LONG (R118). -/
  | orLong (o : LOps)
  /-- XOR_LONG (R118). -/
  | xorLong (o : LOps)
  /-- ANDN_LONG (R118). -/
  | andnLong (o : LOps)
  /-- NOT_LONG (R118). -/
  | notLong (o : LOps)
  /-- SHL_LONG (R118). -/
  | shlLong (o : LOps)
  /-- SHR_LONG (R118). -/
  | shrLong (o : LOps)
  /-- SAR_LONG (R118). -/
  | sarLong (o : LOps)
  /-- ROT (R118). -/
  | rot (o : LOps)
  /-- BFE (R119). -/
  | bfe (sx : Bool) (o : LOps)
  /-- BFI (R119). -/
  | bfi (o : LOps)
  /-- POPC_LONG (R118). -/
  | popcLong (o : LOps)
  /-- CLZ_LONG (R118). -/
  | clzLong (o : LOps)
  /-- BREV_LONG (R118). -/
  | brevLong (o : LOps)
  /-- ICMP (R120). -/
  | icmp (cmp : BitVec 3) (t : BitVec 2) (o : LOps)
  /-- SEL (R121). -/
  | sel (w64 : Bool) (pneg : Bool) (pr : BitVec 4) (o : LOps)
  /-- MOVI (R122). -/
  | movi (g : BitVec 5) (d : BitVec 6) (imm : BitVec 32)
  /-- IADD64 (R116). -/
  | iadd64 (o : LOps)
  /-- ISUB64 (R116). -/
  | isub64 (o : LOps)
  /-- IMUL64 (R116). -/
  | imul64 (o : LOps)
  /-- SHL64 (R116). -/
  | shl64 (o : LOps)
  /-- SHR64 (R116). -/
  | shr64 (sx : Bool) (o : LOps)
  /-- FADD_LONG (R123). -/
  | faddLong (rm : BitVec 3) (o : LOps)
  /-- FSUB_LONG (R123). -/
  | fsubLong (rm : BitVec 3) (o : LOps)
  /-- FMUL_LONG (R123). -/
  | fmulLong (rm : BitVec 3) (o : LOps)
  /-- FFMA (R123). -/
  | ffma (rm : BitVec 3) (o : LOps)
  /-- FMIN_LONG (R123). -/
  | fminLong (o : LOps)
  /-- FMAX_LONG (R123). -/
  | fmaxLong (o : LOps)
  /-- FCMP (R124). -/
  | fcmp (cmp : BitVec 3) (t : BitVec 2) (o : LOps)
  /-- FRCP_LONG (R125). -/
  | frcpLong (rm : BitVec 3) (o : LOps)
  /-- FRSQ_LONG (R125). -/
  | frsqLong (rm : BitVec 3) (o : LOps)
  /-- FSQRT_LONG (R125). -/
  | fsqrtLong (rm : BitVec 3) (o : LOps)
  /-- FEXP2_LONG (R125). -/
  | fexp2Long (rm : BitVec 3) (o : LOps)
  /-- FLOG2_LONG (R125). -/
  | flog2Long (rm : BitVec 3) (o : LOps)
  /-- FSIN_LONG (R125). -/
  | fsinLong (rm : BitVec 3) (o : LOps)
  /-- FCOS_LONG (R125). -/
  | fcosLong (rm : BitVec 3) (o : LOps)
  /-- FRINT (R125). -/
  | frint (rm : BitVec 3) (o : LOps)
  /-- FCLASS_LONG (R125). -/
  | fclassLong (o : LOps)
  /-- FLDEXP (R126). -/
  | fldexp (rm : BitVec 3) (o : LOps)
  /-- CVT (R127). -/
  | cvt (pair : BitVec 4) (rm : BitVec 3) (o : LOps)
  /-- HADD2_LONG (R128). -/
  | hadd2Long (bf : Bool) (rm : BitVec 3) (o : LOps)
  /-- HMUL2_LONG (R128). -/
  | hmul2Long (bf : Bool) (rm : BitVec 3) (o : LOps)
  /-- HFMA2 (R128). -/
  | hfma2 (bf : Bool) (rm : BitVec 3) (o : LOps)
  /-- DOT4 (R129). -/
  | dot4 (t : BitVec 2) (rm : BitVec 3) (sat : Bool) (o : LOps)
  /-- DOT8 (R129). -/
  | dot8 (t : BitVec 2) (rm : BitVec 3) (sat : Bool) (o : LOps)
  /-- XLANE (R130). -/
  | xlane (w64 : Bool) (o : LOps)
  /-- XLANE_IDX (R130). -/
  | xlaneIdx (w64 : Bool) (ifill : BitVec 2) (o : LOps)
  /-- REDX (R131). -/
  | redx (rop : BitVec 3) (t : BitVec 3) (o : LOps)
  /-- SCANX (R131). -/
  | scanx (rop : BitVec 3) (excl : Bool) (t : BitVec 3) (o : LOps)
  /-- BALLOT (R132). -/
  | ballot (o : LOps)
  /-- VOTE (R132). -/
  | vote (vk : BitVec 2) (o : LOps)
  /-- MATCH (R132). -/
  | matchx (w64 : Bool) (o : LOps)
  /-- ELECT (R132). -/
  | elect (o : LOps)
  /-- PLOP (R134). -/
  | plop (d : BitVec 6) (pc : BitVec 4) (pb : BitVec 4) (pa : BitVec 4) (table : BitVec 8)
  /-- UADD_LONG (R138). -/
  | uaddLong (g : BitVec 5) (d : BitVec 6) (a : BitVec 7) (b : BitVec 7)
  /-- USUB_LONG (R138). -/
  | usubLong (g : BitVec 5) (d : BitVec 6) (a : BitVec 7) (b : BitVec 7)
  /-- UMUL (R138). -/
  | umul (g : BitVec 5) (d : BitVec 6) (a : BitVec 7) (b : BitVec 7)
  /-- UAND_LONG (R138). -/
  | uandLong (g : BitVec 5) (d : BitVec 6) (a : BitVec 7) (b : BitVec 7)
  /-- UOR (R138). -/
  | uor (g : BitVec 5) (d : BitVec 6) (a : BitVec 7) (b : BitVec 7)
  /-- UXOR (R138). -/
  | uxor (g : BitVec 5) (d : BitVec 6) (a : BitVec 7) (b : BitVec 7)
  /-- USHL (R138). -/
  | ushl (g : BitVec 5) (d : BitVec 6) (a : BitVec 7) (b : BitVec 7)
  /-- USHR (R138). -/
  | ushr (sx : Bool) (g : BitVec 5) (d : BitVec 6) (a : BitVec 7) (b : BitVec 7)
  /-- UMOV_LONG (R138). -/
  | umovLong (g : BitVec 5) (d : BitVec 6) (a : BitVec 7)
  /-- UADD_IMM (R138). -/
  | uaddImm (g : BitVec 5) (d : BitVec 6) (a : BitVec 7) (imm : BitVec 32)
  /-- USUB_IMM (R138). -/
  | usubImm (g : BitVec 5) (d : BitVec 6) (a : BitVec 7) (imm : BitVec 32)
  /-- UMUL_IMM (R138). -/
  | umulImm (g : BitVec 5) (d : BitVec 6) (a : BitVec 7) (imm : BitVec 32)
  /-- UAND_IMM (R138). -/
  | uandImm (g : BitVec 5) (d : BitVec 6) (a : BitVec 7) (imm : BitVec 32)
  /-- UOR_IMM (R138). -/
  | uorImm (g : BitVec 5) (d : BitVec 6) (a : BitVec 7) (imm : BitVec 32)
  /-- UXOR_IMM (R138). -/
  | uxorImm (g : BitVec 5) (d : BitVec 6) (a : BitVec 7) (imm : BitVec 32)
  /-- USHL_IMM (R138). -/
  | ushlImm (g : BitVec 5) (d : BitVec 6) (a : BitVec 7) (imm : BitVec 32)
  /-- USHR_IMM (R138). -/
  | ushrImm (sx : Bool) (g : BitVec 5) (d : BitVec 6) (a : BitVec 7) (imm : BitVec 32)
  /-- UMOV_IMM (R137). -/
  | umovImm (g : BitVec 5) (d : BitVec 6) (imm : BitVec 32)
  /-- UMOVI (R137). -/
  | umovi (g : BitVec 5) (d : BitVec 6) (imm : BitVec 32)
  /-- UCMP (R139). -/
  | ucmp (cmp : BitVec 3) (t : BitVec 2) (g : BitVec 5) (d : BitVec 6) (a : BitVec 7) (b : BitVec 7)
  /-- USEL (R139). -/
  | usel (w64 : Bool) (pneg : Bool) (pr : BitVec 4) (g : BitVec 5) (d : BitVec 6) (a : BitVec 7) (b : BitVec 7)
  /-- UADD64 (R138). -/
  | uadd64 (g : BitVec 5) (d : BitVec 6) (a : BitVec 7) (b : BitVec 7)
  /-- ULANE (R140). -/
  | ulane (first : Bool) (w64 : Bool) (g : BitVec 5) (d : BitVec 6) (a : BitVec 7) (b : BitVec 7)
  /-- LD_LONG (R158). -/
  | ldLong (t : BitVec 3) (uni : Bool) (m : MLOps)
  /-- ST_LONG (R158). -/
  | stLong (t : BitVec 3) (uni : Bool) (m : MLOps)
  /-- LDS_LONG (R158). -/
  | ldsLong (t : BitVec 3) (uni : Bool) (m : MLOps)
  /-- STS_LONG (R158). -/
  | stsLong (t : BitVec 3) (uni : Bool) (m : MLOps)
  /-- LDC_LONG (R159). -/
  | ldcLong (t : BitVec 3) (uni : Bool) (m : MLOps)
  /-- LDT (R167). -/
  | ldt (g : BitVec 5) (d : BitVec 6) (coord : BitVec 7) (desc : BitVec 7) (t : BitVec 3) (order : BitVec 3) (scope : BitVec 3) (cache : BitVec 2) (nt : Bool) (clip : Bool)
  /-- STT (R167). -/
  | stt (g : BitVec 5) (d : BitVec 6) (coord : BitVec 7) (desc : BitVec 7) (t : BitVec 3) (order : BitVec 3) (scope : BitVec 3) (cache : BitVec 2) (nt : Bool) (clip : Bool)
  /-- PREF (R160). -/
  | pref (lvl : BitVec 2) (g : BitVec 5) (b : BitVec 7) (offset : BitVec 21)
  /-- ATOM (R172). -/
  | atom (aop : BitVec 4) (t : BitVec 3) (m : MLOps)
  /-- RED (R172). -/
  | red (aop : BitVec 4) (t : BitVec 3) (m : MLOps)
  /-- ATOMS (R172). -/
  | atoms (aop : BitVec 4) (t : BitVec 3) (m : MLOps)
  /-- ATOM2_DCAS (R175). -/
  | atom2Dcas (g : BitVec 5) (d : BitVec 6) (b1 : BitVec 7) (b2 : BitVec 7) (w64 : Bool) (order : BitVec 3) (scope : BitVec 3)
  /-- ATOM2_AMOV (R175). -/
  | atom2Amov (g : BitVec 5) (d : BitVec 6) (b1 : BitVec 7) (b2 : BitVec 7) (w64 : Bool) (order : BitVec 3) (scope : BitVec 3)
  /-- STM (R178). -/
  | stm (g : BitVec 5) (d : BitVec 6) (b : BitVec 7) (mask : BitVec 7) (t : BitVec 3) (mdie : Bool) (order : BitVec 3) (scope : BitVec 3) (bar : Bool) (bars : BitVec 7)
  /-- STF (R181). -/
  | stf (g : BitVec 5) (d : BitVec 6) (b : BitVec 7) (flag : BitVec 7) (t : BitVec 3) (order : BitVec 3) (scope : BitVec 3)
  /-- SBIND (R185). -/
  | sbind (slot : BitVec 3) (gaddr : BitVec 7) (soff : BitVec 7) (len : BitVec 7)
  /-- SUNBIND (R187). -/
  | sunbind (slot : BitVec 3)
  /-- SFLUSH (R187). -/
  | sflush (slot : BitVec 3)
  /-- MMA (R204). -/
  | mma (tile : BitVec 3) (areg : BitVec 6) (sreg : BitVec 6) (fmt : BitVec 4) (r : Bool) (ns : Bool) (h : BitVec 2) (bs : BitVec 7)
  /-- MMA_LONG (R204). -/
  | mmaLong (tile : BitVec 3) (aq : BitVec 2) (sq : BitVec 2) (fmt : BitVec 4) (ns : Bool) (h : BitVec 2) (nt : BitVec 2) (bs : BitVec 7) (bstr : BitVec 7) (ks : BitVec 7)
  /-- ACCLD (R213). -/
  | accld (tile : BitVec 3) (t : BitVec 3) (addr : BitVec 7) (str : BitVec 7)
  /-- ACCST (R213). -/
  | accst (tile : BitVec 3) (t : BitVec 3) (addr : BitVec 7) (str : BitVec 7) (rm : BitVec 3)
  /-- ACCEPI (R213). -/
  | accepi (tile : BitVec 3) (t : BitVec 3) (addr : BitVec 7) (str : BitVec 7) (rm : BitVec 3) (act : BitVec 2) (alpha : BitVec 7) (bias : BitVec 7) (biason : Bool)
  /-- ACCEPI_SEND (R214). -/
  | accepiSend (tile : BitVec 3) (t : BitVec 3) (rm : BitVec 3) (act : BitVec 2) (rte : BitVec 2) (alpha : BitVec 7) (bias : BitVec 7) (biason : Bool)
  /-- MXSAVE (R217). -/
  | mxsave (addr : BitVec 7)
  /-- MXRES (R217). -/
  | mxres (addr : BitVec 7)
  /-- HADT (R213). -/
  | hadt (tile : BitVec 3) (src : BitVec 3) (n : BitVec 2) (dir : Bool)
  /-- QBLK (R215). -/
  | qblk (tile : BitVec 3) (fmt : BitVec 3) (rm : BitVec 3) (tr : Bool) (s : BitVec 7)
  /-- DQBLK (R215). -/
  | dqblk (tile : BitVec 3) (fmt : BitVec 3) (tr : Bool) (s : BitVec 7)
  /-- FEED (R219). -/
  | feed (prog : BitVec 7) (args : BitVec 7) (na : BitVec 3) (qmask : BitVec 4)
  /-- CPY (R251). -/
  | cpy (dsta : BitVec 7) (srca : BitVec 7) (shape : BitVec 7) (str : BitVec 7) (bar : BitVec 7) (baron : Bool) (rel : Bool) (res : Bool) (tw : BitVec 3)
  /-- CPYT_LOAD (R253). -/
  | cpytLoad (desc : BitVec 7) (coord : BitVec 7) (buf : BitVec 7) (ext : BitVec 7) (bar : BitVec 7) (baron : Bool) (rel : Bool) (res : Bool) (tr : Bool) (clip : Bool)
  /-- CPYT_STORE (R253). -/
  | cpytStore (desc : BitVec 7) (coord : BitVec 7) (buf : BitVec 7) (ext : BitVec 7) (bar : BitVec 7) (baron : Bool) (rel : Bool) (res : Bool) (tr : Bool) (clip : Bool)
  /-- QPUT (R268). -/
  | qput (d : BitVec 6) (q : BitVec 7) (pkt : BitVec 7) (blk : Bool)
  /-- BINIT (R263). -/
  | binit (b : BitVec 7) (count : BitVec 7) (quota : BitVec 7)
  /-- TEXS (R229). -/
  | texs (g : BitVec 5) (d : BitVec 6) (coord : BitVec 7) (tex : BitVec 7) (key : BitVec 7) (ctr : BitVec 7)
  /-- TEXF (R230). -/
  | texf (g : BitVec 5) (d : BitVec 6) (coord : BitVec 7) (tex : BitVec 7)
  /-- TEXQ (R228). -/
  | texq (g : BitVec 5) (d : BitVec 6) (coord : BitVec 7) (tex : BitVec 7)
  /-- RTBOX (R235). -/
  | rtbox (g : BitVec 5) (d : BitVec 6) (ray : BitVec 7) (addr : BitVec 7)
  /-- RTTRI (R236). -/
  | rttri (g : BitVec 5) (d : BitVec 6) (ray : BitVec 7) (addr : BitVec 7) (minf : Bool) (cull : BitVec 2)
  /-- SOPEN (R243). -/
  | sopen (g : BitVec 5) (slot : BitVec 2) (v : BitVec 7)
  /-- SOPEN_REPLAY (R245). -/
  | sopenReplay (g : BitVec 5) (slot : BitVec 2) (v : BitVec 7)
  /-- SOPEN_FETCH (R243). -/
  | sopenFetch (g : BitVec 5) (slot : BitVec 2) (d : BitVec 7)
  /-- SEMIT (R244). -/
  | semit (g : BitVec 5) (slot : BitVec 2) (cnt : BitVec 3) (p : BitVec 7) (route : BitVec 7) (rel : Bool)
  /-- DIAGRD (R282). -/
  | diagrd (d : BitVec 6) (row : BitVec 7) (arr : BitVec 4) (word : BitVec 5)
  /-- DIAGWR (R282). -/
  | diagwr (row : BitVec 7) (src : BitVec 7) (arr : BitVec 4) (word : BitVec 5)
  /-- FLD (R220). -/
  | fld (q : BitVec 2) (t : BitVec 3) (n : BitVec 3) (m : BitVec 3) (gsh : BitVec 3) (off : BitVec 14)
  /-- FLDS (R220). -/
  | flds (q : BitVec 2) (t : BitVec 3) (n : BitVec 3) (off : BitVec 14)
  /-- FLOOP (R220). -/
  | floop (count : BitVec 24)
  /-- FLOOP_REG (R220). -/
  | floopReg (n : BitVec 3)
  /-- FSTEP (R220). -/
  | fstep (n : BitVec 3) (imm : BitVec 21)
  /-- FSTEP_REG (R220). -/
  | fstepReg (n : BitVec 3) (m : BitVec 3)
  /-- FEND (R220). -/
  | fend
  /-- FSYNC (R220). -/
  | fsync
  /-- CLAUSE_DISPATCH (R291). -/
  | clauseDispatch
  /-- ROTATION_START (R288). -/
  | rotationStart (core : Nat) (part : Nat) (access : Bool)
  /-- SFU_RESULT (R293). -/
  | sfuResult (g : Nat)
  /-- GROUP_WAIT_MET (R292). -/
  | groupWaitMet (g : Nat)
  /-- TRANSLATION_COMPLETE (R298). -/
  | translationComplete (g : Nat)
  /-- FAULT_QUEUE_RETRY (R387). -/
  | faultQueueRetry (f : Nat)
  /-- FAULT_RESPONSE (R389). -/
  | faultResponse (f : Nat)
  /-- OPERATION_RETIRE (R33). -/
  | operationRetire (g : Nat) (c : BitVec 3)
  /-- WRITE_ACKNOWLEDGE (R36). -/
  | writeAcknowledge (g : Nat) (op : Nat)
  /-- WCB_TIMEOUT (R154). -/
  | wcbTimeout (g : Nat) (line : Nat)
  /-- L1_LEASE_EXPIRY (R317). -/
  | l1LeaseExpiry (core : Nat) (line : Nat)
  /-- BIND_FIRST_TOUCH (R186). -/
  | bindFirstTouch (team : Nat) (slot : Nat) (line : Nat)
  /-- BIND_RECALL (R186). -/
  | bindRecall (line : Nat)
  /-- TX_ABORT (R191). -/
  | txAbort (g : Nat) (cause : BitVec 8)
  /-- ORDERED_COMMIT_PHASE (R328). -/
  | orderedCommitPhase (grid : Nat)
  /-- ORDERED_ROUND_START (R328). -/
  | orderedRoundStart (grid : Nat)
  /-- MATRIX_CHECK_END (R200). -/
  | matrixCheckEnd (team : Nat) (quartet : Nat)
  /-- MMA_PASS_END (R204). -/
  | mmaPassEnd (team : Nat) (quartet : Nat) (spareOk : Bool)
  /-- MMA_FEED_TAKE (R207). -/
  | mmaFeedTake (team : Nat) (quartet : Nat)
  /-- FENNEL_SERVE (R221). -/
  | fennelServe (g : Nat)
  /-- FEED_LOAD_RETURN (R300). -/
  | feedLoadReturn (g : Nat) (queue : Nat)
  /-- COPY_PROBE_END (R254). -/
  | copyProbeEnd (g : Nat)
  /-- COPY_ERROR_STOP (R257). -/
  | copyErrorStop (g : Nat) (copy : Nat) (cause : BitVec 8)
  /-- BARRIER_PEND_LOWER (R256). -/
  | barrierPendLower (g : Nat) (copy : Nat) (bytes : Nat)
  /-- STF_FLAG_UPDATE (R181). -/
  | stfFlagUpdate (g : Nat) (op : Nat)
  /-- SEND_FLAG_UPDATE (R214). -/
  | sendFlagUpdate (send : Nat)
  /-- WAITA_WAKE (R269). -/
  | waitaWake (g : Nat)
  /-- WAITA_DEADLINE (R269). -/
  | waitaDeadline (g : Nat)
  /-- QPUT_BLOCK_RETRY (R268). -/
  | qputBlockRetry (g : Nat)
  /-- TEAM_PLACE (R360). -/
  | teamPlace (grid : Nat) (core : Nat)
  /-- GRID_COMPLETE (R362). -/
  | gridComplete (grid : Nat)
  /-- CONTEXT_ERROR_STOP (R363). -/
  | contextErrorStop (ctx : Nat)
  /-- PREEMPT_REQUEST (R364). -/
  | preemptRequest (ctx : Nat)
  /-- PREEMPT_SAVE (R365). -/
  | preemptSave (ctx : Nat)
  /-- RESTORE (R370). -/
  | restore (ctx : Nat)
  /-- NOPAD (R353). -/
  | nopad (queue : Nat)
  /-- LAUNCH (R360). -/
  | launch (queue : Nat)
  /-- COPY (R353). -/
  | copy (queue : Nat)
  /-- WAITMEM (R357). -/
  | waitmem (queue : Nat)
  /-- SIGNAL (R353). -/
  | signal (queue : Nat)
  /-- BIND (R353). -/
  | bind (queue : Nat)
  /-- CKPT (R456). -/
  | ckpt (queue : Nat)
  /-- JCTL_EXPORT (R441). -/
  | jctlExport (queue : Nat)
  /-- JCTL_RESTART (R440). -/
  | jctlRestart (queue : Nat)
  /-- JCTL_FORGET (R440). -/
  | jctlForget (queue : Nat)
  /-- TDSET (R353). -/
  | tdset (queue : Nat)
  /-- TLBINV (R384). -/
  | tlbinv (queue : Nat)
  /-- PACKET_COMPLETE (R355). -/
  | packetComplete (pkt : Nat)
  /-- NAME_CACHE_MISS (R392). -/
  | nameCacheMiss (tray : Nat) (name : BitVec 6)
  /-- MSC_WRITEBACK (R383). -/
  | mscWriteback (line : Nat)
  /-- RINSE_DRAIN (R456). -/
  | rinseDrain (block : Nat)
  /-- PATROL_SCRUB (R447). -/
  | patrolScrub (line : Nat) (corrected : Bool)
  /-- FLIT_CRC_REPLAY (R446). -/
  | flitCrcReplay (site : Nat) (edge : Nat) (module : Nat) (failed : Bool)
  /-- OSCILLATOR_LOCK_LOSS (R450). -/
  | oscillatorLockLoss (site : Nat) (osc : Nat)
  /-- HEARTBEAT_SEND (R452). -/
  | heartbeatSend (site : Nat)
  /-- SITE_LOST_TIMEOUT (R452). -/
  | siteLostTimeout (site : Nat)
  /-- SITE_LOST_DECLARED (R452). -/
  | siteLostDeclared (site : Nat)
  /-- FABRIC_REQUEST_ARRIVE (R419). -/
  | fabricRequestArrive (panel : Nat) (asid : Nat) (fa : Nat) (seq : Nat) (kind : BitVec 8) (data : List (BitVec 8))
  /-- FABRIC_ACK (R422). -/
  | fabricAck (req : Nat) (rtt : Nat) (data : List (BitVec 8)) (refused : Bool)
  /-- FABRIC_TIMEOUT (R419). -/
  | fabricTimeout (req : Nat)
  /-- ROTOR_MATCHING (R420). -/
  | rotorMatching
  /-- HOST_ACCESS (R424). -/
  | hostAccess (kind : BitVec 3) (off : Nat) (data : List (BitVec 8))
  /-- HOST_WRITE_PERFORM (R334). -/
  | hostWritePerform (req : Nat)
  /-- BIRSP_ARRIVE (R334). -/
  | birspArrive (line : Nat) (dirty : List (BitVec 8))
  /-- TIER2_TIMEOUT (R425). -/
  | tier2Timeout (g : Nat) (op : Nat)
  /-- COLLECTIVE_CONTRIBUTION (R414). -/
  | collectiveContribution (contrib : Nat) (site : Nat) (retried : Bool) (agrees : Bool)
  /-- CHUNK_RESULT_ACK (R415). -/
  | chunkResultAck (chunk : Nat)
  /-- RASTER_PACKET_ARRIVE (R403). -/
  | rasterPacketArrive (em : Nat)
  /-- RASTER_WATERMARK_ARRIVE (R402). -/
  | rasterWatermarkArrive (wm : Nat)
  /-- RASTERISE_PACKET (R407). -/
  | rasterisePacket (sink : Nat)
  /-- FRAME_COMPLETE (R409). -/
  | frameComplete (sink : Nat)
  /-- CONTACT_LOG_RECORD_ARRIVE (R433). -/
  | contactLogRecordArrive (site : Nat) (rec : Nat)
  /-- JOURNAL_RECORD_ACK (R244). -/
  | journalRecordAck (site : Nat) (rec : Nat)
  /-- SINK_EMISSION_ARRIVE (R439). -/
  | sinkEmissionArrive (em : Nat)
  /-- RING_SINK_DELIVER (R438). -/
  | ringSinkDeliver (em : Nat)
  /-- FORCED_RECORD_FETCH (R245). -/
  | forcedRecordFetch (g : Nat) (slot : Nat) (lane : Nat)
  /-- PARTNER_LOST (R436). -/
  | partnerLost (site : Nat)
  /-- PARTNER_RESEND_DONE (R436). -/
  | partnerResendDone (site : Nat)
  /-- POWER_ON (R462). -/
  | powerOn
  /-- SAFELIGHT_CANDIDATE_WRITE (R468). -/
  | safelightCandidateWrite (isMap : Bool) (bytes : List (BitVec 8))
  /-- SPDM_NEGOTIATE_ALGORITHMS (R469). -/
  | spdmNegotiateAlgorithms (port : Nat) (asym : List (BitVec 32)) (hash : List (BitVec 32))
  /-- SPDM_GET_MEASUREMENTS (R469). -/
  | spdmGetMeasurements (port : Nat) (index : Nat)
  /-- WAITMEM_MONITOR_WAKE (R357). -/
  | waitmemMonitorWake (pkt : Nat)
  /-- POWER_LOSS (R466). -/
  | powerLoss
  /-- HOST_PORT_TRAINING (R424). -/
  | hostPortTraining (port : Nat) (up : Bool)
deriving DecidableEq, Repr

end Sys2Proof
end

