-- ==== Sys2Proof/Machine/Legal.lean ====
section
/-!
DEFINITION. Which field values of an encoding are legal (R48, R55 to R66, R71 and the chapters of each class): the checks that need
nothing but the instruction itself. What needs its place in the clause or the group's state is checked where it issues.
-/
namespace Sys2Proof.Legal

/-- `n` is even and at most `hi`. -/
def evenUpTo (n hi : Nat) : Bool := n % 2 == 0 && n ≤ hi

/-- A guard code (R56): a predicate, its complement, or always. -/
def guard (g : BitVec 5) : Bool := g.toNat < 12 || g.toNat == 15 || (16 ≤ g.toNat && g.toNat < 28)

/-- An even uniform pair 64 to 94. -/
def upair (c : BitVec 7) : Bool := 64 ≤ c.toNat && evenUpTo c.toNat 94

/-- An even vector pair 0 to 46. -/
def vpair (c : BitVec 7) : Bool := evenUpTo c.toNat 46

/-- The BASE codes of R51: a vector pair, a uniform pair, or 104 for 0. -/
def base (c : BitVec 7) : Bool := vpair c || upair c || c.toNat == 104

/-- A 32-bit source read as an integer or as bits: the inline constants 120 to 127 are illegal (R59). -/
def srcInt (c : BitVec 7) : Bool := c.toNat ≤ 119

/-- A 64-bit source (R61): even pairs (R19, R25), not q15 (R23), not 111, no fractional constant. -/
def src64 (c : BitVec 7) : Bool :=
  vpair c || (48 ≤ c.toNat && c.toNat ≤ 62) || upair c || (96 ≤ c.toNat && c.toNat ≤ 110) ||
    (112 ≤ c.toNat && c.toNat ≤ 119)

/-- A uniform source read as an integer, count or address (R60). -/
def usrc (c : BitVec 7) : Bool :=
  c.toNat ≤ 15 || (64 ≤ c.toNat && c.toNat ≤ 95) || c.toNat == 104 || (106 ≤ c.toNat && c.toNat ≤ 119)

/-- A uniform source read as a floating-point value: every inline constant is legal (R60). -/
def usrcFloat (c : BitVec 7) : Bool := usrc c || 120 ≤ c.toNat

/-- A 64-bit uniform source of a comparison: an even s pair, a special operand but 105 and 111, or an integer constant.
Log entry 7 (DEDUCED). -/
def usrc64 (c : BitVec 7) : Bool :=
  upair c || c.toNat == 104 || (106 ≤ c.toNat && c.toNat ≤ 110) || (112 ≤ c.toNat && c.toNat ≤ 119)

/-- A 32-bit vector destination of an ALU instruction (R62). -/
def dst (d : BitVec 6) : Bool := d.toNat ≤ 60 || d.toNat == 63

/-- A 64-bit vector destination of an ALU instruction (R62). -/
def dst64 (d : BitVec 6) : Bool := evenUpTo d.toNat 46 || d.toNat == 60 || d.toNat == 63

/-- A predicate destination. -/
def pdst (d : BitVec 6) : Bool := 48 ≤ d.toNat && d.toNat ≤ 59

/-- A uniform destination (R63). -/
def udst (d : BitVec 6) : Bool := d.toNat ≤ 47

/-- A 64-bit uniform destination (R63). -/
def udst64 (d : BitVec 6) : Bool := evenUpTo d.toNat 30

/-- A rounding mode (R90). -/
def rm (r : BitVec 3) : Bool := r.toNat ≤ 4

/-- How an instruction reads one of its three vector sources. -/
inductive SrcKind where
  | unused | int | float | k4 | int64
deriving DecidableEq, Repr

/-- A source code is legal for the way the source is read (R59, R61); an unused source is 0 (R48). K4 cannot hold 5 or 7 (R59). -/
def srcOf : SrcKind → BitVec 7 → Bool
  | .unused, c => c == 0
  | .int, c => srcInt c
  | .float, _ => true
  | .k4, c => c.toNat != 117 && c.toNat != 119
  | .int64, c => src64 c

/-- ABS and NEG bits are legal only on a floating-point source that is read (R64). Log entry 10 (DEDUCED). -/
def modsOf (k : SrcKind) (abs neg : Bool) : Bool := k == .float || k == .k4 || (!abs && !neg)

/-- The cross-lane fields (R50, R66): no lane argument or fill with XMODE 0; with another, source a is a register or queue entry. -/
def xmodeOf (k : SrcKind) (o : LOps) : Bool :=
  if o.xmode == 0 then o.larg == 0 && o.fill == 0
  else k != .unused && o.xmode.toNat ≤ 4 && o.fill.toNat ≤ 2 && o.a.toNat ≤ 63

/-- The operand fields of an O-format instruction that reads its sources as ka, kb and kc. -/
def lops (o : LOps) (ka kb kc : SrcKind) : Bool :=
  guard o.g && srcOf ka o.a && srcOf kb o.b && srcOf kc o.c && modsOf ka o.absA o.negA && modsOf kb o.absB o.negB &&
    modsOf kc o.absC o.negC && xmodeOf ka o

/-- A two-source short instruction in an integer or bit type. -/
def shortInt (g : BitVec 5) (d : BitVec 6) (a b : BitVec 7) : Bool := guard g && dst d && srcInt a && srcInt b

/-- A one-source short instruction in an integer or bit type. -/
def shortInt1 (g : BitVec 5) (d : BitVec 6) (a : BitVec 7) : Bool := guard g && dst d && srcInt a

/-- A two-source short floating-point instruction: every source code is legal. -/
def shortFloat (g : BitVec 5) (d : BitVec 6) : Bool := guard g && dst d

/-- A two-source uniform instruction (R137). -/
def uniform2 (g : BitVec 5) (d : BitVec 6) (a b : BitVec 7) : Bool := guard g && udst d && usrc a && usrc b

/-- A uniform instruction with an immediate source b (R137). -/
def uniformImm (g : BitVec 5) (d : BitVec 6) (a : BitVec 7) : Bool := guard g && udst d && usrc a

/-- The selectors of R38 that are 64 bits wide. -/
def wideSelector (a : BitVec 7) : Bool := a == 10 || a == 11 || a == 12 || a == 13 || a == 16 || a == 20

/-- MOVSR (R146): LANEID has a vector destination, every other selector a uniform one of its width. -/
def movsr (d : BitVec 6) (a : BitVec 7) : Bool :=
  if a == 0 then dst d else if wideSelector a then udst64 d else a.toNat ≤ 20 && udst d

/-- The mask sources of PMOV and EXSET that are not predicates (R135). -/
def maskSrc (a : BitVec 7) : Bool := upair a || a == 104 || a == 106 || a == 110

/-- BR (R53): ALWAYS takes the predicate code 0b01111 and no uniformity assertion. -/
def br (p : BitVec 5) (c : BitVec 3) (u : Bool) : Bool := guard p && c.toNat ≤ 3 && (c != 0 || (p == 15 && !u))

/-- The data register of a load or store by access width: 0 for up to 32 bits, 1 for 64, 2 for 128 (R151); queue entries hold store
data of up to 64 bits (R152). -/
def data (width : Nat) (uni store : Bool) (d : BitVec 6) : Bool :=
  match width, uni with
  | 0, false => d.toNat ≤ 47 || store
  | 0, true => udst d
  | 1, false => evenUpTo d.toNat 46 || (store && 48 ≤ d.toNat && d.toNat ≤ 62)
  | 1, true => udst64 d
  | _, false => d.toNat % 4 == 0 && d.toNat ≤ 44
  | _, true => d.toNat % 4 == 0 && d.toNat ≤ 28

/-- The width class of the type codes of R157. -/
def widthOf (t : BitVec 3) : Nat := if t == 1 then 1 else if t == 2 then 2 else 0

/-- A relaxed access has scope 0; another one a scope up to `top` (R52, R153). -/
def scopeOf (order scope : BitVec 3) (top : Nat) : Bool := if order == 0 then scope == 0 else scope.toNat ≤ top

/-- The orders that R153 gives loads: .rlx, .acq, .sc. -/
def orderLoad (o : BitVec 3) : Bool := o == 0 || o == 1 || o == 4

/-- The orders that R153 gives stores: .rlx, .rel, .sc. -/
def orderStore (o : BitVec 3) : Bool := o == 0 || o == 2 || o == 4

/-- The modifiers of LD and LDT (R153): a cache hint other than .ca, or .nt, only with .rlx. -/
def modsLoad (order scope : BitVec 3) (cache : BitVec 2) (nt : Bool) : Bool :=
  orderLoad order && scopeOf order scope 5 && cache.toNat ≤ 2 && (order == 0 || (cache == 0 && !nt))

/-- The modifiers of ST and STT (R153). -/
def modsStore (order scope : BitVec 3) (cache : BitVec 2) (nt : Bool) : Bool :=
  orderStore order && scopeOf order scope 5 && cache.toNat ≤ 1 && (order == 0 || (cache == 0 && !nt))

/-- BASE with uniform data is a uniform pair or 104 (R152). -/
def baseUni (uni : Bool) (b : BitVec 7) : Bool := if uni then upair b || b == 104 else base b

/-- The fields common to the long loads and stores. -/
def mlops (t : BitVec 3) (uni store : Bool) (m : MLOps) : Bool :=
  guard m.g && t.toNat ≤ 6 && !(store && (t == 4 || t == 6)) && data (widthOf t) uni store m.d && baseUni uni m.b

/-- No CACHE or NT field (R153). -/
def noHint (m : MLOps) : Bool := m.cache == 0 && !m.nt

/-- The types that each atomic operation takes (R170). -/
def atomType (op : BitVec 4) (t : BitVec 3) : Bool :=
  if op.toNat ≤ 2 then t.toNat ≤ 6
  else if op.toNat ≤ 7 then t == 1 || t == 3
  else op.toNat ≤ 9 && t == 1

/-- The data register of an atomic (R171): pairs for 64 bits, two adjacent operands for .cas, a queue entry only for RED. -/
def atomData (op : BitVec 4) (t : BitVec 3) (red : Bool) (d : BitVec 6) : Bool :=
  let wide := t == 2 || t == 3
  if op == 7 then (if wide then d.toNat % 4 == 0 && d.toNat ≤ 44 else evenUpTo d.toNat 46)
  else data (if wide then 1 else 0) false red d

/-- The width class of the type codes of STM and STF: 0 .b32, 1 .b64, 2 .b128. -/
def dataT (t : BitVec 3) (d : BitVec 6) : Bool := t.toNat ≤ 2 && data t.toNat false true d

/-- The orders of STM and STF. -/
def orderRel (o s : BitVec 3) : Bool := (o == 0 || o == 2) && scopeOf o s 5

/-- The operands of LDT and STT (R166). -/
def tensor (g : BitVec 5) (d : BitVec 6) (coord desc : BitVec 7) (t : BitVec 3) (store : Bool) : Bool :=
  guard g && t.toNat ≤ 4 && data (if t == 1 then 1 else if t == 2 then 2 else 0) false store d &&
    (coord.toNat ≤ 47 || (64 ≤ coord.toNat && coord.toNat ≤ 95)) && usrc desc

/-- The operands of ATOM2 (R174). -/
def atom2 (dcas w64 : Bool) (g : BitVec 5) (d : BitVec 6) (b1 b2 : BitVec 7) (order scope : BitVec 3) : Bool :=
  guard g && (vpair b1 || upair b1) && (vpair b2 || upair b2) && order.toNat ≤ 4 && scopeOf order scope 5 &&
    (match dcas, w64 with
    | true, false => d.toNat % 4 == 0 && d.toNat ≤ 44
    | true, true => d.toNat % 8 == 0 && d.toNat ≤ 40
    | false, false => d.toNat ≤ 47
    | false, true => evenUpTo d.toNat 46)

/-- The control-register numbers of R279. -/
def csrNum (n : BitVec 10) : Bool :=
  [0x000, 0x001, 0x002, 0x010, 0x011, 0x012, 0x020, 0x021, 0x022, 0x030].contains n.toNat

/-- The control registers that are 64 bits wide. -/
def csrWide (n : BitVec 10) : Bool := [0x000, 0x020, 0x021, 0x022].contains n.toNat

/-- An MMA's format, scale and Hadamard fields (R203). -/
def mmaFmt (fmt : BitVec 4) (ns : Bool) (h : BitVec 2) : Bool := fmt.toNat ≤ 7 && (fmt.toNat < 6 || !ns) && (h == 0 || 6 ≤ fmt.toNat)

/-- Whether an MMA of a format reads A and B scales (R202). -/
def mmaScaled (fmt : BitVec 4) (ns : Bool) : Bool := fmt.toNat < 6 && !ns

/-- A barrier operand that is 0 when it is not named. -/
def optBar (on : Bool) (bar : BitVec 7) : Bool := if on then usrc bar else bar == 0

/-- The operands of CPYT (R252). -/
def cpyt (desc coord buf ext bar : BitVec 7) (baron : Bool) : Bool :=
  usrc desc && 64 ≤ coord.toNat && coord.toNat ≤ 95 && upair buf && upair ext && optBar baron bar

/-- The operands of TEXS, TEXF and TEXQ that they share (R228). -/
def tex (g : BitVec 5) (d : BitVec 6) (t : BitVec 7) : Bool := guard g && d.toNat % 4 == 0 && d.toNat ≤ 44 && upair t

/-- A feed load type (R220). -/
def feedType (t : BitVec 3) : Bool := t.toNat ≤ 6

/-- Every field of the instruction holds a legal value. An event has no encoding and nothing to check. -/
def instr : Instr → Bool
  | .iadd g d a b | .isub g d a b | .imul g d a b | .imin g d a b | .imax g d a b => shortInt g d a b
  | .and g d a b | .or g d a b | .xor g d a b | .andn g d a b | .shl g d a b | .shr g d a b | .sar g d a b => shortInt g d a b
  | .mov g d a | .iabs g d a | .not g d a | .popc g d a | .clz g d a | .brev g d a => shortInt1 g d a
  | .fadd g d _ _ | .fsub g d _ _ | .fmul g d _ _ | .fmin g d _ _ | .fmax g d _ _ => shortFloat g d
  | .frcp g d _ | .frsq g d _ | .fsqrt g d _ | .fexp2 g d _ | .flog2 g d _ | .fsin g d _ | .fcos g d _ | .fclass g d _ => shortFloat g d
  | .hadd2 g d _ _ | .hmul2 g d _ _ => shortFloat g d
  | .uadd g d a b | .usub g d a b | .uand g d a b => uniform2 g d a b
  | .umov g d a => uniformImm g d a
  | .exset a => maskSrc a
  | .exsetAnd d | .exsetAndn d => pdst d
  | .exget d => udst64 d || pdst d
  | .pmov d a => (a.toNat < 12 || maskSrc a) && (udst64 d || pdst d) && !(upair a && udst64 d)
  | .movsr g d a => guard g && movsr d a
  | .movsrClr g d => guard g && udst d
  | .br p c u _ => br p c u
  | .call _ _ | .loop _ _ => true
  | .nop g => guard g
  | .ret a | .jmpx a => upair a
  | .exit => true
  | .ld g d b _ | .lds g d b _ | .ldc g d b _ => guard g && data 0 false false d && base b
  | .st g d b _ | .sts g d b _ => guard g && data 0 false true d && base b
  | .fence g order scope _ => guard g && 1 ≤ order.toNat && order.toNat ≤ 4 && scope.toNat ≤ 5
  | .txbegin d => d.toNat ≤ 31
  | .txend | .txabort _ => true
  | .accz m => m != 0
  | .setrt _ a => upair a || a == 104
  | .cmit => true
  | .waitc id1 t1 id2 t2 => (id1 != 0 || t1 == 0) && (id2 != 0 || t2 == 0)
  | .fstop => true
  | .barv d b n | .bwait d b n => udst d && usrc b && usrc n
  | .bexp b n => usrc b && usrc n
  | .bart _ | .barc _ => true
  | .schnext d => udst d
  | .waita d a r => udst64 d && upair a && upair r && r.toNat ≤ 90
  | .rng g d k c => guard g && (d.toNat ≤ 47 || d == 63) && upair k && (vpair c || upair c)
  | .rngSeq g d k _ => guard g && (d.toNat ≤ 47 || d == 63) && upair k
  | .smark g _ p => guard g && (vpair p || upair p)
  | .sclose _ => true
  | .trap g _ | .bkpt g _ => guard g
  | .tret => true
  | .csrr d n => csrNum n && (if csrWide n then udst64 d else udst d)
  | .csrw src n => csrNum n && (if csrWide n then upair src else usrc src)
  | .iaddLong t _ o | .isubLong t _ o | .imulLong t _ o => t.toNat ≤ 1 && lops o .int .int .unused && dst o.d
  | .imulh t o | .iminLong t o | .imaxLong t o => t.toNat ≤ 1 && lops o .int .int .unused && dst o.d
  | .iabsLong _ o => lops o .int .unused .unused && dst o.d
  | .imad t _ o => t.toNat ≤ 1 && lops o .int .int .int && dst o.d
  | .andLong o | .orLong o | .xorLong o | .andnLong o | .shlLong o | .shrLong o | .sarLong o | .rot o => lops o .int .int .unused && dst o.d
  | .notLong o | .popcLong o | .clzLong o | .brevLong o => lops o .int .unused .unused && dst o.d
  | .bfe _ o => lops o .int .int .unused && dst o.d
  | .bfi o => lops o .int .int .int && dst o.d
  | .icmp cmp t o =>
    cmp.toNat ≤ 5 && (if t.toNat ≤ 1 then lops o .int .int .unused else lops o .int64 .int64 .unused) && pdst o.d
  | .sel w64 _ pr o =>
    pr.toNat < 12 && (if w64 then lops o .int64 .int64 .unused && dst64 o.d else lops o .int .int .unused && dst o.d)
  | .movi g d _ => guard g && dst d
  | .iadd64 o | .isub64 o | .imul64 o => lops o .int64 .int64 .unused && dst64 o.d
  | .shl64 o | .shr64 _ o => lops o .int64 .int .unused && dst64 o.d
  | .faddLong r o | .fsubLong r o | .fmulLong r o => rm r && lops o .float .float .unused && dst o.d
  | .ffma r o => rm r && lops o .float .float .float && dst o.d
  | .fminLong o | .fmaxLong o => lops o .float .float .unused && dst o.d
  | .fcmp _ t o => t.toNat ≤ 2 && lops o .float .float .unused && pdst o.d
  | .frcpLong r o | .frsqLong r o | .fsqrtLong r o | .fexp2Long r o | .flog2Long r o | .fsinLong r o | .fcosLong r o | .frint r o =>
    rm r && lops o .float .unused .unused && dst o.d
  | .fclassLong o => lops o .float .unused .unused && dst o.d
  | .fldexp r o => rm r && lops o .float .int .unused && dst o.d
  | .cvt pair r o =>
    rm r && dst o.d &&
      lops o (if pair == 13 then .k4 else if pair == 4 || pair == 5 || pair == 14 || pair == 15 then .int else .float) .unused .unused
  | .hadd2Long _ r o | .hmul2Long _ r o => rm r && lops o .float .float .unused && dst o.d
  | .hfma2 _ r o => rm r && lops o .float .float .float && dst o.d
  | .dot4 t r sat o =>
    dst o.d && (if t == 0 then rm r && !sat && lops o .float .float .float else t == 1 && r == 0 && lops o .int .int .int)
  | .dot8 t r sat o =>
    dst o.d && (if t == 0 then rm r && !sat && lops o .k4 .k4 .float else t == 1 && r == 0 && lops o .int .int .int)
  | .xlane w64 o => if w64 then lops o .int64 .unused .unused && dst64 o.d else lops o .int .unused .unused && dst o.d
  | .xlaneIdx w64 ifill o =>
    ifill.toNat ≤ 2 && o.xmode == 0 &&
      (if w64 then lops o .int64 .int .unused && dst64 o.d else lops o .int .int .unused && dst o.d)
  | .redx rop t o | .scanx rop _ t o =>
    rop.toNat ≤ 5 && t.toNat ≤ 4 && (t != 0 || rop.toNat ≤ 2) &&
      (if t == 0 then lops o .float .unused .unused && dst o.d
       else if t.toNat ≤ 2 then lops o .int .unused .unused && dst o.d
       else lops o .int64 .unused .unused && dst64 o.d)
  | .ballot o => lops o .int .unused .unused && pdst o.d
  | .vote vk o => vk.toNat ≤ 2 && lops o .int .unused .unused && pdst o.d
  | .matchx w64 o => lops o (if w64 then .int64 else .int) .unused .unused && (evenUpTo o.d.toNat 46 || o.d == 63)
  | .elect o => lops o .unused .unused .unused && pdst o.d
  | .plop d pc pb pa _ => pdst d && pc.toNat ≤ 14 && pb.toNat ≤ 14 && pa.toNat ≤ 14
  | .uaddLong g d a b | .usubLong g d a b | .umul g d a b | .uandLong g d a b | .uor g d a b | .uxor g d a b | .ushl g d a b => uniform2 g d a b
  | .ushr _ g d a b => uniform2 g d a b
  | .umovLong g d a => uniformImm g d a
  | .uaddImm g d a _ | .usubImm g d a _ | .umulImm g d a _ | .uandImm g d a _ | .uorImm g d a _ | .uxorImm g d a _ | .ushlImm g d a _ =>
    uniformImm g d a
  | .ushrImm _ g d a _ => uniformImm g d a
  | .umovImm g d _ | .umovi g d _ => guard g && udst d
  | .ucmp cmp t g d a b =>
    guard g && cmp.toNat ≤ 5 && (pdst d || udst d) && (if t.toNat ≤ 1 then usrc a && usrc b else usrc64 a && usrc64 b)
  | .usel w64 _ pr g d a b =>
    guard g && pr.toNat < 12 && (if w64 then udst64 d && upair a && upair b else udst d && usrc a && usrc b)
  | .uadd64 g d a b => guard g && udst64 d && upair a && upair b
  | .ulane first w64 g d a b =>
    guard g && (if w64 then udst64 d && (vpair a || (48 ≤ a.toNat && a.toNat ≤ 62)) else udst d && a.toNat ≤ 63) &&
      (if first then b == 0 else usrc b)
  | .ldLong t uni m => mlops t uni false m && modsLoad m.order m.scope m.cache m.nt
  | .stLong t uni m => mlops t uni true m && modsStore m.order m.scope m.cache m.nt
  | .ldsLong t uni m => mlops t uni false m && m.order.toNat ≤ 1 && scopeOf m.order m.scope 2 && noHint m
  | .stsLong t uni m => mlops t uni true m && (m.order == 0 || m.order == 2) && scopeOf m.order m.scope 2 && noHint m
  | .ldcLong t uni m => mlops t uni false m && m.order == 0 && m.scope == 0 && noHint m
  | .ldt g d coord desc t order scope cache nt _ => tensor g d coord desc t false && modsLoad order scope cache nt
  | .stt g d coord desc t order scope cache nt _ => tensor g d coord desc t true && modsStore order scope cache nt
  | .pref lvl g b _ => lvl.toNat ≤ 2 && guard g && base b
  | .atom aop t m =>
    guard m.g && base m.b && atomType aop t && atomData aop t false m.d && m.order.toNat ≤ 4 && scopeOf m.order m.scope 5 && noHint m
  | .red aop t m =>
    guard m.g && base m.b && atomType aop t && aop != 6 && aop != 7 && atomData aop t true m.d && orderStore m.order &&
      scopeOf m.order m.scope 5 && noHint m
  | .atoms aop t m =>
    guard m.g && base m.b && atomType aop t && atomData aop t false m.d && m.order.toNat ≤ 3 && scopeOf m.order m.scope 2 && noHint m
  | .atom2Dcas g d b1 b2 w64 order scope => atom2 true w64 g d b1 b2 order scope
  | .atom2Amov g d b1 b2 w64 order scope => atom2 false w64 g d b1 b2 order scope
  | .stm g d b mask t mdie order scope bar bars =>
    guard g && dataT t d && base b && upair mask && orderRel order scope && !(mdie && bar) && optBar bar bars
  | .stf g d b flag t order scope => guard g && dataT t d && base b && upair flag && orderRel order scope
  | .sbind _ gaddr soff len => upair gaddr && usrc soff && usrc len
  | .sunbind _ | .sflush _ => true
  | .mma _ areg sreg fmt _ ns h bs =>
    evenUpTo areg.toNat 46 && mmaFmt fmt ns h && (if mmaScaled fmt ns then sreg.toNat ≤ 47 else sreg == 0) && usrc bs
  | .mmaLong tile aq sq fmt ns h nt bs bstr ks =>
    mmaFmt fmt ns h && nt.toNat ≤ 2 && tile.toNat % 2 ^ nt.toNat == 0 && (if mmaScaled fmt ns then aq != sq else sq == 0) &&
      usrc bs && usrc bstr && usrc ks
  | .accld _ t addr str => t.toNat ≤ 2 && upair addr && usrc str
  | .accst _ t addr str r => t.toNat ≤ 2 && upair addr && usrc str && rm r
  | .accepi _ t addr str r _ alpha bias biason =>
    t.toNat ≤ 4 && upair addr && usrc str && rm r && usrcFloat alpha && optBar biason bias
  | .accepiSend _ t r _ _ alpha bias biason => t.toNat ≤ 4 && rm r && usrcFloat alpha && optBar biason bias
  | .mxsave addr | .mxres addr => upair addr
  | .hadt _ _ n _ => n != 0
  | .qblk _ fmt r _ s => fmt.toNat ≤ 4 && rm r && usrc s
  | .dqblk _ fmt _ s => fmt.toNat ≤ 4 && usrc s
  | .feed prog args na qmask =>
    upair prog && (if args == 104 then na == 0 else upair args && args.toNat + 2 * na.toNat ≤ 94) && qmask != 0
  | .cpy dsta srca shape str bar baron _ _ tw =>
    upair dsta && upair srca && upair shape && (upair str || str == 104) && optBar baron bar && tw.toNat ≤ 4
  | .cpytLoad desc coord buf ext bar baron _ _ _ _ | .cpytStore desc coord buf ext bar baron _ _ _ _ => cpyt desc coord buf ext bar baron
  | .qput d q pkt _ => udst64 d && upair q && usrc pkt
  | .binit b count quota => usrc b && usrc count && usrc quota
  | .texs g d coord t key ctr => tex g d t && coord.toNat ≤ 44 && upair key && (vpair ctr || upair ctr)
  | .texf g d coord t => tex g d t && coord.toNat ≤ 44
  | .texq g d coord t => tex g d t && usrc coord
  | .rtbox g d ray addr => guard g && d.toNat ≤ 43 && ray.toNat ≤ 40 && (vpair addr || upair addr)
  | .rttri g d ray addr _ cull => guard g && d.toNat ≤ 44 && ray.toNat ≤ 40 && (vpair addr || upair addr) && cull.toNat ≤ 2
  | .sopen g _ v | .sopenReplay g _ v => guard g && evenUpTo v.toNat 42
  | .sopenFetch g _ d => guard g && d.toNat ≤ 47
  | .semit g _ cnt p route _ => guard g && p.toNat + cnt.toNat ≤ 47 && (route.toNat ≤ 47 || usrc route)
  | .diagrd d row arr word => d.toNat ≤ 31 && usrc row && arr.toNat ≤ 2 && (arr != 2 || word == 0)
  | .diagwr row src arr word => usrc row && usrc src && arr.toNat ≤ 2 && (arr != 2 || word == 0)
  | .fld _ t _ _ gsh _ => feedType t && gsh.toNat ≤ 6
  | .flds _ t _ _ => feedType t
  | .floop count => count != 0
  | .floopReg _ | .fstep _ _ | .fstepReg _ _ | .fend | .fsync => true
  | .clauseDispatch | .rotationStart _ _ _ | .sfuResult _ | .groupWaitMet _ | .translationComplete _ | .faultQueueRetry _
  | .faultResponse _ | .operationRetire _ _ | .writeAcknowledge _ _ | .wcbTimeout _ _ | .l1LeaseExpiry _ _
  | .bindFirstTouch _ _ _ | .bindRecall _ | .txAbort _ _ | .orderedCommitPhase _ | .orderedRoundStart _ | .matrixCheckEnd _ _
  | .mmaPassEnd _ _ _ | .mmaFeedTake _ _ | .fennelServe _ | .feedLoadReturn _ _ | .copyProbeEnd _ | .copyErrorStop _ _ _
  | .barrierPendLower _ _ _ | .stfFlagUpdate _ _ | .sendFlagUpdate _ | .waitaWake _ | .waitaDeadline _ | .qputBlockRetry _
  | .teamPlace _ _ | .gridComplete _ | .contextErrorStop _ | .preemptRequest _ | .preemptSave _ | .restore _ | .nopad _
  | .launch _ | .copy _ | .waitmem _ | .signal _ | .bind _ | .ckpt _ | .jctlExport _ | .jctlRestart _ | .jctlForget _
  | .tdset _ | .tlbinv _ | .packetComplete _ | .nameCacheMiss _ _ | .mscWriteback _ | .rinseDrain _ | .patrolScrub _ _
  | .flitCrcReplay _ _ _ _ | .oscillatorLockLoss _ _ | .heartbeatSend _ | .siteLostTimeout _ | .siteLostDeclared _
  | .fabricRequestArrive _ _ _ _ _ _ | .fabricAck _ _ _ _ | .fabricTimeout _ | .rotorMatching | .hostAccess _ _ _
  | .hostWritePerform _ | .birspArrive _ _ | .tier2Timeout _ _ | .collectiveContribution _ _ _ _ | .chunkResultAck _
  | .rasterPacketArrive _ | .rasterWatermarkArrive _ | .rasterisePacket _ | .frameComplete _ | .contactLogRecordArrive _ _
  | .journalRecordAck _ _ | .sinkEmissionArrive _ | .ringSinkDeliver _ | .forcedRecordFetch _ _ _ | .partnerLost _
  | .partnerResendDone _ | .powerOn | .safelightCandidateWrite _ _ | .spdmNegotiateAlgorithms _ _ _ | .spdmGetMeasurements _ _
  | .waitmemMonitorWake _ | .powerLoss | .hostPortTraining _ _ => true

end Sys2Proof.Legal
end

