-- ==== Sys2Proof/WellFormed.lean ====
section
/-!
DEFINITION. Well-formed instructions: those whose every field holds a value that the encodings allow.
-/
namespace Sys2Proof

/-- Every field of the instruction is legal (Legal.instr). -/
abbrev Instr.WellFormed (i : Instr) : Prop := Legal.instr i = true

end Sys2Proof
end

