-- ==== Sys2Proof/Decode.lean ====
section
/-!
DEFINITION. From bytes to instructions and back. The decoder pulls every field out once (R48 to R54, R67 to R69, and the tables of
each class's chapter), rejects by name what R71 makes illegal, and is total on any bytes. The encoder follows, written from the same
tables.
-/
namespace Sys2Proof

/-- The n bits of w from bit lo up, as a number. -/
def num (w lo n : Nat) : Nat := w / 2 ^ lo % 2 ^ n

/-- The n bits of w from bit lo up. -/
def fld (w lo n : Nat) : BitVec n := BitVec.ofNat n (w / 2 ^ lo)

/-- Bit lo of w. -/
def bit (w lo : Nat) : Bool := w / 2 ^ lo % 2 == 1

/-- The operand fields of format L with the operand word (R49, R50). -/
def lOps (w0 w1 : Nat) : LOps where
  g := fld w0 20 5
  d := fld w0 14 6
  a := fld w0 7 7
  b := fld w1 25 7
  c := fld w1 18 7
  xmode := fld w1 15 3
  larg := fld w1 9 6
  fill := fld w1 7 2
  absC := bit w1 5
  absB := bit w1 4
  absA := bit w1 3
  negC := bit w1 2
  negB := bit w1 1
  negA := bit w1 0

/-- The operand fields of format ML (R51, R52). -/
def mlOps (w0 w1 : Nat) : MLOps where
  g := fld w0 20 5
  d := fld w0 14 6
  b := fld w0 7 7
  offset := fld w1 11 21
  order := fld w1 8 3
  scope := fld w1 5 3
  cache := fld w1 3 2
  nt := bit w1 2

/-- The instructions of opcode 0x00 (R67 to R69, and the chapter of the class). -/
def decodeOp00 (w0 : Nat) : Option Instr :=
  some (.iadd (fld w0 20 5) (fld w0 14 6) (fld w0 7 7) (fld w0 0 7))

/-- The instructions of opcode 0x01 (R67 to R69, and the chapter of the class). -/
def decodeOp01 (w0 : Nat) : Option Instr :=
  some (.isub (fld w0 20 5) (fld w0 14 6) (fld w0 7 7) (fld w0 0 7))

/-- The instructions of opcode 0x02 (R67 to R69, and the chapter of the class). -/
def decodeOp02 (w0 : Nat) : Option Instr :=
  some (.imul (fld w0 20 5) (fld w0 14 6) (fld w0 7 7) (fld w0 0 7))

/-- The instructions of opcode 0x03 (R67 to R69, and the chapter of the class). -/
def decodeOp03 (w0 : Nat) : Option Instr :=
  some (.imin (fld w0 20 5) (fld w0 14 6) (fld w0 7 7) (fld w0 0 7))

/-- The instructions of opcode 0x04 (R67 to R69, and the chapter of the class). -/
def decodeOp04 (w0 : Nat) : Option Instr :=
  some (.imax (fld w0 20 5) (fld w0 14 6) (fld w0 7 7) (fld w0 0 7))

/-- The instructions of opcode 0x05 (R67 to R69, and the chapter of the class). -/
def decodeOp05 (w0 : Nat) : Option Instr :=
  some (.and (fld w0 20 5) (fld w0 14 6) (fld w0 7 7) (fld w0 0 7))

/-- The instructions of opcode 0x06 (R67 to R69, and the chapter of the class). -/
def decodeOp06 (w0 : Nat) : Option Instr :=
  some (.or (fld w0 20 5) (fld w0 14 6) (fld w0 7 7) (fld w0 0 7))

/-- The instructions of opcode 0x07 (R67 to R69, and the chapter of the class). -/
def decodeOp07 (w0 : Nat) : Option Instr :=
  some (.xor (fld w0 20 5) (fld w0 14 6) (fld w0 7 7) (fld w0 0 7))

/-- The instructions of opcode 0x08 (R67 to R69, and the chapter of the class). -/
def decodeOp08 (w0 : Nat) : Option Instr :=
  some (.andn (fld w0 20 5) (fld w0 14 6) (fld w0 7 7) (fld w0 0 7))

/-- The instructions of opcode 0x09 (R67 to R69, and the chapter of the class). -/
def decodeOp09 (w0 : Nat) : Option Instr :=
  some (.shl (fld w0 20 5) (fld w0 14 6) (fld w0 7 7) (fld w0 0 7))

/-- The instructions of opcode 0x0A (R67 to R69, and the chapter of the class). -/
def decodeOp0A (w0 : Nat) : Option Instr :=
  some (.shr (fld w0 20 5) (fld w0 14 6) (fld w0 7 7) (fld w0 0 7))

/-- The instructions of opcode 0x0B (R67 to R69, and the chapter of the class). -/
def decodeOp0B (w0 : Nat) : Option Instr :=
  some (.sar (fld w0 20 5) (fld w0 14 6) (fld w0 7 7) (fld w0 0 7))

/-- The instructions of opcode 0x0C (R67 to R69, and the chapter of the class). -/
def decodeOp0C (w0 : Nat) : Option Instr :=
  if num w0 0 7 = 0 then some (.mov (fld w0 20 5) (fld w0 14 6) (fld w0 7 7)) else
  none

/-- The instructions of opcode 0x0D (R67 to R69, and the chapter of the class). -/
def decodeOp0D (w0 : Nat) : Option Instr :=
  if num w0 0 7 = 0 then some (.iabs (fld w0 20 5) (fld w0 14 6) (fld w0 7 7)) else
  if num w0 0 7 = 1 then some (.not (fld w0 20 5) (fld w0 14 6) (fld w0 7 7)) else
  if num w0 0 7 = 2 then some (.popc (fld w0 20 5) (fld w0 14 6) (fld w0 7 7)) else
  if num w0 0 7 = 3 then some (.clz (fld w0 20 5) (fld w0 14 6) (fld w0 7 7)) else
  if num w0 0 7 = 4 then some (.brev (fld w0 20 5) (fld w0 14 6) (fld w0 7 7)) else
  none

/-- The instructions of opcode 0x0E (R67 to R69, and the chapter of the class). -/
def decodeOp0E (w0 : Nat) : Option Instr :=
  some (.fadd (fld w0 20 5) (fld w0 14 6) (fld w0 7 7) (fld w0 0 7))

/-- The instructions of opcode 0x0F (R67 to R69, and the chapter of the class). -/
def decodeOp0F (w0 : Nat) : Option Instr :=
  some (.fsub (fld w0 20 5) (fld w0 14 6) (fld w0 7 7) (fld w0 0 7))

/-- The instructions of opcode 0x10 (R67 to R69, and the chapter of the class). -/
def decodeOp10 (w0 : Nat) : Option Instr :=
  some (.fmul (fld w0 20 5) (fld w0 14 6) (fld w0 7 7) (fld w0 0 7))

/-- The instructions of opcode 0x11 (R67 to R69, and the chapter of the class). -/
def decodeOp11 (w0 : Nat) : Option Instr :=
  some (.fmin (fld w0 20 5) (fld w0 14 6) (fld w0 7 7) (fld w0 0 7))

/-- The instructions of opcode 0x12 (R67 to R69, and the chapter of the class). -/
def decodeOp12 (w0 : Nat) : Option Instr :=
  some (.fmax (fld w0 20 5) (fld w0 14 6) (fld w0 7 7) (fld w0 0 7))

/-- The instructions of opcode 0x13 (R67 to R69, and the chapter of the class). -/
def decodeOp13 (w0 : Nat) : Option Instr :=
  if num w0 0 7 = 0 then some (.frcp (fld w0 20 5) (fld w0 14 6) (fld w0 7 7)) else
  if num w0 0 7 = 1 then some (.frsq (fld w0 20 5) (fld w0 14 6) (fld w0 7 7)) else
  if num w0 0 7 = 2 then some (.fsqrt (fld w0 20 5) (fld w0 14 6) (fld w0 7 7)) else
  if num w0 0 7 = 3 then some (.fexp2 (fld w0 20 5) (fld w0 14 6) (fld w0 7 7)) else
  if num w0 0 7 = 4 then some (.flog2 (fld w0 20 5) (fld w0 14 6) (fld w0 7 7)) else
  if num w0 0 7 = 5 then some (.fsin (fld w0 20 5) (fld w0 14 6) (fld w0 7 7)) else
  if num w0 0 7 = 6 then some (.fcos (fld w0 20 5) (fld w0 14 6) (fld w0 7 7)) else
  if num w0 0 7 = 7 then some (.fclass (fld w0 20 5) (fld w0 14 6) (fld w0 7 7)) else
  none

/-- The instructions of opcode 0x14 (R67 to R69, and the chapter of the class). -/
def decodeOp14 (w0 : Nat) : Option Instr :=
  some (.hadd2 (fld w0 20 5) (fld w0 14 6) (fld w0 7 7) (fld w0 0 7))

/-- The instructions of opcode 0x15 (R67 to R69, and the chapter of the class). -/
def decodeOp15 (w0 : Nat) : Option Instr :=
  some (.hmul2 (fld w0 20 5) (fld w0 14 6) (fld w0 7 7) (fld w0 0 7))

/-- The instructions of opcode 0x16 (R67 to R69, and the chapter of the class). -/
def decodeOp16 (w0 : Nat) : Option Instr :=
  some (.uadd (fld w0 20 5) (fld w0 14 6) (fld w0 7 7) (fld w0 0 7))

/-- The instructions of opcode 0x17 (R67 to R69, and the chapter of the class). -/
def decodeOp17 (w0 : Nat) : Option Instr :=
  some (.usub (fld w0 20 5) (fld w0 14 6) (fld w0 7 7) (fld w0 0 7))

/-- The instructions of opcode 0x18 (R67 to R69, and the chapter of the class). -/
def decodeOp18 (w0 : Nat) : Option Instr :=
  some (.uand (fld w0 20 5) (fld w0 14 6) (fld w0 7 7) (fld w0 0 7))

/-- The instructions of opcode 0x19 (R67 to R69, and the chapter of the class). -/
def decodeOp19 (w0 : Nat) : Option Instr :=
  if num w0 0 7 = 0 then some (.umov (fld w0 20 5) (fld w0 14 6) (fld w0 7 7)) else
  none

/-- The instructions of opcode 0x1A (R67 to R69, and the chapter of the class). -/
def decodeOp1A (w0 : Nat) : Option Instr :=
  if num w0 20 5 = 15 ∧ num w0 14 6 = 63 ∧ num w0 0 7 = 0 then some (.exset (fld w0 7 7)) else
  if num w0 20 5 = 15 ∧ num w0 7 7 = 0 ∧ num w0 0 7 = 0 then some (.exsetAnd (fld w0 14 6)) else
  if num w0 20 5 = 15 ∧ num w0 7 7 = 1 ∧ num w0 0 7 = 0 then some (.exsetAndn (fld w0 14 6)) else
  if num w0 20 5 = 15 ∧ num w0 7 7 = 0 ∧ num w0 0 7 = 1 then some (.exget (fld w0 14 6)) else
  if num w0 20 5 = 15 ∧ num w0 0 7 = 2 then some (.pmov (fld w0 14 6) (fld w0 7 7)) else
  none

/-- The instructions of opcode 0x1B (R67 to R69, and the chapter of the class). -/
def decodeOp1B (w0 : Nat) : Option Instr :=
  if num w0 0 7 = 0 then some (.movsr (fld w0 20 5) (fld w0 14 6) (fld w0 7 7)) else
  if num w0 7 7 = 14 ∧ num w0 0 7 = 1 then some (.movsrClr (fld w0 20 5) (fld w0 14 6)) else
  none

/-- The instructions of opcode 0x1C (R67 to R69, and the chapter of the class). -/
def decodeOp1C (w0 : Nat) : Option Instr :=
  some (.br (fld w0 20 5) (fld w0 17 3) (bit w0 16) (fld w0 0 16))

/-- The instructions of opcode 0x1D (R67 to R69, and the chapter of the class). -/
def decodeOp1D (w0 : Nat) : Option Instr :=
  if num w0 24 1 = 0 ∧ num w0 16 4 = 0 then some (.call (fld w0 20 4) (fld w0 0 16)) else
  none

/-- The instructions of opcode 0x1E (R67 to R69, and the chapter of the class). -/
def decodeOp1E (w0 : Nat) : Option Instr :=
  if num w0 16 4 = 0 then some (.loop (fld w0 20 5) (fld w0 0 16)) else
  none

/-- The instructions of opcode 0x1F (R67 to R69, and the chapter of the class). -/
def decodeOp1F (w0 : Nat) : Option Instr :=
  if num w0 0 20 = 0 then some (.nop (fld w0 20 5)) else
  if num w0 20 5 = 15 ∧ num w0 14 6 = 0 ∧ num w0 0 7 = 1 then some (.ret (fld w0 7 7)) else
  if num w0 20 5 = 15 ∧ num w0 0 20 = 2 then some (.exit) else
  if num w0 20 5 = 15 ∧ num w0 14 6 = 0 ∧ num w0 0 7 = 3 then some (.jmpx (fld w0 7 7)) else
  none

/-- The instructions of opcode 0x20 (R67 to R69, and the chapter of the class). -/
def decodeOp20 (w0 : Nat) : Option Instr :=
  some (.ld (fld w0 20 5) (fld w0 14 6) (fld w0 7 7) (fld w0 0 7))

/-- The instructions of opcode 0x21 (R67 to R69, and the chapter of the class). -/
def decodeOp21 (w0 : Nat) : Option Instr :=
  some (.st (fld w0 20 5) (fld w0 14 6) (fld w0 7 7) (fld w0 0 7))

/-- The instructions of opcode 0x22 (R67 to R69, and the chapter of the class). -/
def decodeOp22 (w0 : Nat) : Option Instr :=
  some (.lds (fld w0 20 5) (fld w0 14 6) (fld w0 7 7) (fld w0 0 7))

/-- The instructions of opcode 0x23 (R67 to R69, and the chapter of the class). -/
def decodeOp23 (w0 : Nat) : Option Instr :=
  some (.sts (fld w0 20 5) (fld w0 14 6) (fld w0 7 7) (fld w0 0 7))

/-- The instructions of opcode 0x24 (R67 to R69, and the chapter of the class). -/
def decodeOp24 (w0 : Nat) : Option Instr :=
  some (.ldc (fld w0 20 5) (fld w0 14 6) (fld w0 7 7) (fld w0 0 7))

/-- The instructions of opcode 0x25 (R67 to R69, and the chapter of the class). -/
def decodeOp25 (w0 : Nat) : Option Instr :=
  if num w0 0 13 = 0 then some (.fence (fld w0 20 5) (fld w0 17 3) (fld w0 14 3) (bit w0 13)) else
  none

/-- The instructions of opcode 0x26 (R67 to R69, and the chapter of the class). -/
def decodeOp26 (w0 : Nat) : Option Instr :=
  if num w0 20 5 = 15 ∧ num w0 18 2 = 0 ∧ num w0 0 12 = 0 then some (.txbegin (fld w0 12 6)) else
  if num w0 20 5 = 15 ∧ num w0 18 2 = 1 ∧ num w0 0 18 = 0 then some (.txend) else
  if num w0 20 5 = 15 ∧ num w0 18 2 = 2 ∧ num w0 12 6 = 0 ∧ num w0 0 4 = 0 then some (.txabort (fld w0 4 8)) else
  none

/-- The instructions of opcode 0x28 (R67 to R69, and the chapter of the class). -/
def decodeOp28 (w0 : Nat) : Option Instr :=
  if num w0 20 5 = 15 ∧ num w0 0 12 = 0 then some (.accz (fld w0 12 8)) else
  none

/-- The instructions of opcode 0x29 (R67 to R69, and the chapter of the class). -/
def decodeOp29 (w0 : Nat) : Option Instr :=
  if num w0 20 5 = 15 ∧ num w0 14 4 = 0 ∧ num w0 0 7 = 0 then some (.setrt (fld w0 18 2) (fld w0 7 7)) else
  none

/-- The instructions of opcode 0x2A (R67 to R69, and the chapter of the class). -/
def decodeOp2A (w0 : Nat) : Option Instr :=
  if num w0 20 5 = 15 ∧ num w0 0 20 = 0 then some (.cmit) else
  none

/-- The instructions of opcode 0x2B (R67 to R69, and the chapter of the class). -/
def decodeOp2B (w0 : Nat) : Option Instr :=
  if num w0 20 5 = 15 ∧ num w0 0 2 = 0 then some (.waitc (fld w0 17 3) (fld w0 11 6) (fld w0 8 3) (fld w0 2 6)) else
  none

/-- The instructions of opcode 0x2C (R67 to R69, and the chapter of the class). -/
def decodeOp2C (w0 : Nat) : Option Instr :=
  if num w0 20 5 = 15 ∧ num w0 0 20 = 0 then some (.fstop) else
  none

/-- The instructions of opcode 0x2D (R67 to R69, and the chapter of the class). -/
def decodeOp2D (w0 : Nat) : Option Instr :=
  if num w0 20 5 = 15 then some (.barv (fld w0 14 6) (fld w0 7 7) (fld w0 0 7)) else
  none

/-- The instructions of opcode 0x2E (R67 to R69, and the chapter of the class). -/
def decodeOp2E (w0 : Nat) : Option Instr :=
  if num w0 20 5 = 15 ∧ num w0 14 6 = 0 then some (.bexp (fld w0 7 7) (fld w0 0 7)) else
  none

/-- The instructions of opcode 0x2F (R67 to R69, and the chapter of the class). -/
def decodeOp2F (w0 : Nat) : Option Instr :=
  if num w0 20 5 = 15 then some (.bwait (fld w0 14 6) (fld w0 7 7) (fld w0 0 7)) else
  none

/-- The instructions of opcode 0x30 (R67 to R69, and the chapter of the class). -/
def decodeOp30 (w0 : Nat) : Option Instr :=
  if num w0 20 5 = 15 ∧ num w0 0 18 = 0 then some (.bart (fld w0 18 2)) else
  none

/-- The instructions of opcode 0x31 (R67 to R69, and the chapter of the class). -/
def decodeOp31 (w0 : Nat) : Option Instr :=
  if num w0 20 5 = 15 ∧ num w0 0 18 = 0 then some (.barc (fld w0 18 2)) else
  none

/-- The instructions of opcode 0x32 (R67 to R69, and the chapter of the class). -/
def decodeOp32 (w0 : Nat) : Option Instr :=
  if num w0 20 5 = 15 ∧ num w0 0 14 = 0 then some (.schnext (fld w0 14 6)) else
  none

/-- The instructions of opcode 0x33 (R67 to R69, and the chapter of the class). -/
def decodeOp33 (w0 : Nat) : Option Instr :=
  if num w0 20 5 = 15 then some (.waita (fld w0 14 6) (fld w0 7 7) (fld w0 0 7)) else
  none

/-- The instructions of opcode 0x34 (R67 to R69, and the chapter of the class). -/
def decodeOp34 (w0 : Nat) : Option Instr :=
  if num w0 2 5 = 28 then some (.rngSeq (fld w0 20 5) (fld w0 14 6) (fld w0 7 7) (fld w0 0 2)) else
  some (.rng (fld w0 20 5) (fld w0 14 6) (fld w0 7 7) (fld w0 0 7))

/-- The instructions of opcode 0x35 (R67 to R69, and the chapter of the class). -/
def decodeOp35 (w0 : Nat) : Option Instr :=
  if num w0 0 11 = 0 then some (.smark (fld w0 20 5) (fld w0 18 2) (fld w0 11 7)) else
  none

/-- The instructions of opcode 0x36 (R67 to R69, and the chapter of the class). -/
def decodeOp36 (w0 : Nat) : Option Instr :=
  if num w0 20 5 = 15 ∧ num w0 0 18 = 0 then some (.sclose (fld w0 18 2)) else
  none

/-- The instructions of opcode 0x38 (R67 to R69, and the chapter of the class). -/
def decodeOp38 (w0 : Nat) : Option Instr :=
  if num w0 16 4 = 0 then some (.trap (fld w0 20 5) (fld w0 0 16)) else
  none

/-- The instructions of opcode 0x39 (R67 to R69, and the chapter of the class). -/
def decodeOp39 (w0 : Nat) : Option Instr :=
  if num w0 20 5 = 15 ∧ num w0 0 20 = 0 then some (.tret) else
  none

/-- The instructions of opcode 0x3A (R67 to R69, and the chapter of the class). -/
def decodeOp3A (w0 : Nat) : Option Instr :=
  if num w0 16 4 = 0 then some (.bkpt (fld w0 20 5) (fld w0 0 16)) else
  none

/-- The instructions of opcode 0x3B (R67 to R69, and the chapter of the class). -/
def decodeOp3B (w0 : Nat) : Option Instr :=
  if num w0 20 5 = 15 ∧ num w0 0 4 = 0 then some (.csrr (fld w0 14 6) (fld w0 4 10)) else
  none

/-- The instructions of opcode 0x3C (R67 to R69, and the chapter of the class). -/
def decodeOp3C (w0 : Nat) : Option Instr :=
  if num w0 20 5 = 15 ∧ num w0 0 3 = 0 then some (.csrw (fld w0 13 7) (fld w0 3 10)) else
  none

/-- The instructions of opcode 0x40 (R67 to R69, and the chapter of the class). -/
def decodeOp40 (w0 w1 : Nat) : Option Instr :=
  if num w0 4 3 = 0 ∧ num w0 0 1 = 0 ∧ num w1 6 1 = 0 then some (.iaddLong (fld w0 2 2) (bit w0 1) (lOps w0 w1)) else
  if num w0 4 3 = 1 ∧ num w0 0 1 = 0 ∧ num w1 6 1 = 0 then some (.isubLong (fld w0 2 2) (bit w0 1) (lOps w0 w1)) else
  if num w0 4 3 = 2 ∧ num w0 0 1 = 0 ∧ num w1 6 1 = 0 then some (.imulLong (fld w0 2 2) (bit w0 1) (lOps w0 w1)) else
  if num w0 4 3 = 3 ∧ num w0 0 2 = 0 ∧ num w1 6 1 = 0 then some (.imulh (fld w0 2 2) (lOps w0 w1)) else
  if num w0 4 3 = 4 ∧ num w0 0 2 = 0 ∧ num w1 6 1 = 0 then some (.iminLong (fld w0 2 2) (lOps w0 w1)) else
  if num w0 4 3 = 5 ∧ num w0 0 2 = 0 ∧ num w1 6 1 = 0 then some (.imaxLong (fld w0 2 2) (lOps w0 w1)) else
  if num w0 4 3 = 6 ∧ num w0 2 2 = 0 ∧ num w0 0 1 = 0 ∧ num w1 6 1 = 0 then some (.iabsLong (bit w0 1) (lOps w0 w1)) else
  if num w0 4 3 = 7 ∧ num w0 0 1 = 0 ∧ num w1 6 1 = 0 then some (.imad (fld w0 2 2) (bit w0 1) (lOps w0 w1)) else
  none

/-- The instructions of opcode 0x41 (R67 to R69, and the chapter of the class). -/
def decodeOp41 (w0 w1 : Nat) : Option Instr :=
  if num w0 3 4 = 0 ∧ num w0 0 3 = 0 ∧ num w1 6 1 = 0 then some (.andLong (lOps w0 w1)) else
  if num w0 3 4 = 1 ∧ num w0 0 3 = 0 ∧ num w1 6 1 = 0 then some (.orLong (lOps w0 w1)) else
  if num w0 3 4 = 2 ∧ num w0 0 3 = 0 ∧ num w1 6 1 = 0 then some (.xorLong (lOps w0 w1)) else
  if num w0 3 4 = 3 ∧ num w0 0 3 = 0 ∧ num w1 6 1 = 0 then some (.andnLong (lOps w0 w1)) else
  if num w0 3 4 = 4 ∧ num w0 0 3 = 0 ∧ num w1 6 1 = 0 then some (.notLong (lOps w0 w1)) else
  if num w0 3 4 = 5 ∧ num w0 0 3 = 0 ∧ num w1 6 1 = 0 then some (.shlLong (lOps w0 w1)) else
  if num w0 3 4 = 6 ∧ num w0 0 3 = 0 ∧ num w1 6 1 = 0 then some (.shrLong (lOps w0 w1)) else
  if num w0 3 4 = 7 ∧ num w0 0 3 = 0 ∧ num w1 6 1 = 0 then some (.sarLong (lOps w0 w1)) else
  if num w0 3 4 = 8 ∧ num w0 0 3 = 0 ∧ num w1 6 1 = 0 then some (.rot (lOps w0 w1)) else
  none

/-- The instructions of opcode 0x42 (R67 to R69, and the chapter of the class). -/
def decodeOp42 (w0 w1 : Nat) : Option Instr :=
  if num w0 4 3 = 0 ∧ num w0 0 3 = 0 ∧ num w1 6 1 = 0 then some (.bfe (bit w0 3) (lOps w0 w1)) else
  if num w0 4 3 = 1 ∧ num w0 0 4 = 0 ∧ num w1 6 1 = 0 then some (.bfi (lOps w0 w1)) else
  if num w0 4 3 = 2 ∧ num w0 0 4 = 0 ∧ num w1 6 1 = 0 then some (.popcLong (lOps w0 w1)) else
  if num w0 4 3 = 3 ∧ num w0 0 4 = 0 ∧ num w1 6 1 = 0 then some (.clzLong (lOps w0 w1)) else
  if num w0 4 3 = 4 ∧ num w0 0 4 = 0 ∧ num w1 6 1 = 0 then some (.brevLong (lOps w0 w1)) else
  none

/-- The instructions of opcode 0x43 (R67 to R69, and the chapter of the class). -/
def decodeOp43 (w0 w1 : Nat) : Option Instr :=
  if num w0 0 2 = 0 ∧ num w1 6 1 = 0 then some (.icmp (fld w0 4 3) (fld w0 2 2) (lOps w0 w1)) else
  none

/-- The instructions of opcode 0x44 (R67 to R69, and the chapter of the class). -/
def decodeOp44 (w0 w1 : Nat) : Option Instr :=
  if num w0 6 1 = 0 ∧ num w1 6 1 = 0 then some (.sel (bit w0 5) (bit w0 4) (fld w0 0 4) (lOps w0 w1)) else
  none

/-- The instructions of opcode 0x45 (R67 to R69, and the chapter of the class). -/
def decodeOp45 (w0 w1 : Nat) : Option Instr :=
  if num w0 0 14 = 0 then some (.movi (fld w0 20 5) (fld w0 14 6) (fld w1 0 32)) else
  none

/-- The instructions of opcode 0x46 (R67 to R69, and the chapter of the class). -/
def decodeOp46 (w0 w1 : Nat) : Option Instr :=
  if num w0 4 3 = 0 ∧ num w0 0 4 = 0 ∧ num w1 6 1 = 0 then some (.iadd64 (lOps w0 w1)) else
  if num w0 4 3 = 1 ∧ num w0 0 4 = 0 ∧ num w1 6 1 = 0 then some (.isub64 (lOps w0 w1)) else
  if num w0 4 3 = 2 ∧ num w0 0 4 = 0 ∧ num w1 6 1 = 0 then some (.imul64 (lOps w0 w1)) else
  if num w0 4 3 = 3 ∧ num w0 0 4 = 0 ∧ num w1 6 1 = 0 then some (.shl64 (lOps w0 w1)) else
  if num w0 4 3 = 4 ∧ num w0 0 3 = 0 ∧ num w1 6 1 = 0 then some (.shr64 (bit w0 3) (lOps w0 w1)) else
  none

/-- The instructions of opcode 0x47 (R67 to R69, and the chapter of the class). -/
def decodeOp47 (w0 w1 : Nat) : Option Instr :=
  if num w0 4 3 = 0 ∧ num w0 0 1 = 0 ∧ num w1 6 1 = 0 then some (.faddLong (fld w0 1 3) (lOps w0 w1)) else
  if num w0 4 3 = 1 ∧ num w0 0 1 = 0 ∧ num w1 6 1 = 0 then some (.fsubLong (fld w0 1 3) (lOps w0 w1)) else
  if num w0 4 3 = 2 ∧ num w0 0 1 = 0 ∧ num w1 6 1 = 0 then some (.fmulLong (fld w0 1 3) (lOps w0 w1)) else
  if num w0 4 3 = 3 ∧ num w0 0 1 = 0 ∧ num w1 6 1 = 0 then some (.ffma (fld w0 1 3) (lOps w0 w1)) else
  if num w0 4 3 = 4 ∧ num w0 0 4 = 0 ∧ num w1 6 1 = 0 then some (.fminLong (lOps w0 w1)) else
  if num w0 4 3 = 5 ∧ num w0 0 4 = 0 ∧ num w1 6 1 = 0 then some (.fmaxLong (lOps w0 w1)) else
  none

/-- The instructions of opcode 0x48 (R67 to R69, and the chapter of the class). -/
def decodeOp48 (w0 w1 : Nat) : Option Instr :=
  if num w0 0 2 = 0 ∧ num w1 6 1 = 0 then some (.fcmp (fld w0 4 3) (fld w0 2 2) (lOps w0 w1)) else
  none

/-- The instructions of opcode 0x49 (R67 to R69, and the chapter of the class). -/
def decodeOp49 (w0 w1 : Nat) : Option Instr :=
  if num w0 3 4 = 0 ∧ num w1 6 1 = 0 then some (.frcpLong (fld w0 0 3) (lOps w0 w1)) else
  if num w0 3 4 = 1 ∧ num w1 6 1 = 0 then some (.frsqLong (fld w0 0 3) (lOps w0 w1)) else
  if num w0 3 4 = 2 ∧ num w1 6 1 = 0 then some (.fsqrtLong (fld w0 0 3) (lOps w0 w1)) else
  if num w0 3 4 = 3 ∧ num w1 6 1 = 0 then some (.fexp2Long (fld w0 0 3) (lOps w0 w1)) else
  if num w0 3 4 = 4 ∧ num w1 6 1 = 0 then some (.flog2Long (fld w0 0 3) (lOps w0 w1)) else
  if num w0 3 4 = 5 ∧ num w1 6 1 = 0 then some (.fsinLong (fld w0 0 3) (lOps w0 w1)) else
  if num w0 3 4 = 6 ∧ num w1 6 1 = 0 then some (.fcosLong (fld w0 0 3) (lOps w0 w1)) else
  if num w0 3 4 = 7 ∧ num w1 6 1 = 0 then some (.frint (fld w0 0 3) (lOps w0 w1)) else
  if num w0 3 4 = 8 ∧ num w0 0 3 = 0 ∧ num w1 6 1 = 0 then some (.fclassLong (lOps w0 w1)) else
  none

/-- The instructions of opcode 0x4A (R67 to R69, and the chapter of the class). -/
def decodeOp4A (w0 w1 : Nat) : Option Instr :=
  if num w0 4 3 = 0 ∧ num w0 0 1 = 0 ∧ num w1 6 1 = 0 then some (.fldexp (fld w0 1 3) (lOps w0 w1)) else
  none

/-- The instructions of opcode 0x4B (R67 to R69, and the chapter of the class). -/
def decodeOp4B (w0 w1 : Nat) : Option Instr :=
  if num w1 6 1 = 0 then some (.cvt (fld w0 3 4) (fld w0 0 3) (lOps w0 w1)) else
  none

/-- The instructions of opcode 0x4C (R67 to R69, and the chapter of the class). -/
def decodeOp4C (w0 w1 : Nat) : Option Instr :=
  if num w0 5 2 = 0 ∧ num w0 0 1 = 0 ∧ num w1 6 1 = 0 then some (.hadd2Long (bit w0 4) (fld w0 1 3) (lOps w0 w1)) else
  if num w0 5 2 = 1 ∧ num w0 0 1 = 0 ∧ num w1 6 1 = 0 then some (.hmul2Long (bit w0 4) (fld w0 1 3) (lOps w0 w1)) else
  if num w0 5 2 = 2 ∧ num w0 0 1 = 0 ∧ num w1 6 1 = 0 then some (.hfma2 (bit w0 4) (fld w0 1 3) (lOps w0 w1)) else
  none

/-- The instructions of opcode 0x4D (R67 to R69, and the chapter of the class). -/
def decodeOp4D (w0 w1 : Nat) : Option Instr :=
  if num w0 6 1 = 0 ∧ num w1 6 1 = 0 then some (.dot4 (fld w0 4 2) (fld w0 1 3) (bit w0 0) (lOps w0 w1)) else
  if num w0 6 1 = 1 ∧ num w1 6 1 = 0 then some (.dot8 (fld w0 4 2) (fld w0 1 3) (bit w0 0) (lOps w0 w1)) else
  none

/-- The instructions of opcode 0x4E (R67 to R69, and the chapter of the class). -/
def decodeOp4E (w0 w1 : Nat) : Option Instr :=
  if num w0 5 2 = 0 ∧ num w0 0 4 = 0 ∧ num w1 6 1 = 0 then some (.xlane (bit w0 4) (lOps w0 w1)) else
  if num w0 5 2 = 1 ∧ num w0 0 2 = 0 ∧ num w1 6 1 = 0 then some (.xlaneIdx (bit w0 4) (fld w0 2 2) (lOps w0 w1)) else
  none

/-- The instructions of opcode 0x4F (R67 to R69, and the chapter of the class). -/
def decodeOp4F (w0 w1 : Nat) : Option Instr :=
  if num w0 3 1 = 0 ∧ num w1 6 1 = 0 then some (.redx (fld w0 4 3) (fld w0 0 3) (lOps w0 w1)) else
  none

/-- The instructions of opcode 0x50 (R67 to R69, and the chapter of the class). -/
def decodeOp50 (w0 w1 : Nat) : Option Instr :=
  if num w1 6 1 = 0 then some (.scanx (fld w0 4 3) (bit w0 3) (fld w0 0 3) (lOps w0 w1)) else
  none

/-- The instructions of opcode 0x51 (R67 to R69, and the chapter of the class). -/
def decodeOp51 (w0 w1 : Nat) : Option Instr :=
  if num w0 0 7 = 0 ∧ num w1 6 1 = 0 then some (.ballot (lOps w0 w1)) else
  if num w0 5 2 = 1 ∧ num w0 0 3 = 0 ∧ num w1 6 1 = 0 then some (.vote (fld w0 3 2) (lOps w0 w1)) else
  if num w0 3 4 = 8 ∧ num w0 0 2 = 0 ∧ num w1 6 1 = 0 then some (.matchx (bit w0 2) (lOps w0 w1)) else
  if num w0 0 7 = 96 ∧ num w1 6 1 = 0 then some (.elect (lOps w0 w1)) else
  none

/-- The instructions of opcode 0x52 (R67 to R69, and the chapter of the class). -/
def decodeOp52 (w0 w1 : Nat) : Option Instr :=
  if num w0 20 5 = 15 ∧ num w0 0 14 = 0 ∧ num w1 20 12 = 0 then some (.plop (fld w0 14 6) (fld w1 16 4) (fld w1 12 4) (fld w1 8 4) (fld w1 0 8)) else
  none

/-- The instructions of opcode 0x53 (R67 to R69, and the chapter of the class). -/
def decodeOp53 (w0 w1 : Nat) : Option Instr :=
  if num w0 3 4 = 0 ∧ num w0 0 3 = 0 ∧ num w1 0 25 = 0 then some (.uaddLong (fld w0 20 5) (fld w0 14 6) (fld w0 7 7) (fld w1 25 7)) else
  if num w0 3 4 = 1 ∧ num w0 0 3 = 0 ∧ num w1 0 25 = 0 then some (.usubLong (fld w0 20 5) (fld w0 14 6) (fld w0 7 7) (fld w1 25 7)) else
  if num w0 3 4 = 2 ∧ num w0 0 3 = 0 ∧ num w1 0 25 = 0 then some (.umul (fld w0 20 5) (fld w0 14 6) (fld w0 7 7) (fld w1 25 7)) else
  if num w0 3 4 = 3 ∧ num w0 0 3 = 0 ∧ num w1 0 25 = 0 then some (.uandLong (fld w0 20 5) (fld w0 14 6) (fld w0 7 7) (fld w1 25 7)) else
  if num w0 3 4 = 4 ∧ num w0 0 3 = 0 ∧ num w1 0 25 = 0 then some (.uor (fld w0 20 5) (fld w0 14 6) (fld w0 7 7) (fld w1 25 7)) else
  if num w0 3 4 = 5 ∧ num w0 0 3 = 0 ∧ num w1 0 25 = 0 then some (.uxor (fld w0 20 5) (fld w0 14 6) (fld w0 7 7) (fld w1 25 7)) else
  if num w0 3 4 = 6 ∧ num w0 0 3 = 0 ∧ num w1 0 25 = 0 then some (.ushl (fld w0 20 5) (fld w0 14 6) (fld w0 7 7) (fld w1 25 7)) else
  if num w0 3 4 = 7 ∧ num w0 1 2 = 0 ∧ num w1 0 25 = 0 then some (.ushr (bit w0 0) (fld w0 20 5) (fld w0 14 6) (fld w0 7 7) (fld w1 25 7)) else
  if num w0 0 7 = 64 ∧ num w1 0 32 = 0 then some (.umovLong (fld w0 20 5) (fld w0 14 6) (fld w0 7 7)) else
  none

/-- The instructions of opcode 0x54 (R67 to R69, and the chapter of the class). -/
def decodeOp54 (w0 w1 : Nat) : Option Instr :=
  if num w0 3 4 = 0 ∧ num w0 0 3 = 0 then some (.uaddImm (fld w0 20 5) (fld w0 14 6) (fld w0 7 7) (fld w1 0 32)) else
  if num w0 3 4 = 1 ∧ num w0 0 3 = 0 then some (.usubImm (fld w0 20 5) (fld w0 14 6) (fld w0 7 7) (fld w1 0 32)) else
  if num w0 3 4 = 2 ∧ num w0 0 3 = 0 then some (.umulImm (fld w0 20 5) (fld w0 14 6) (fld w0 7 7) (fld w1 0 32)) else
  if num w0 3 4 = 3 ∧ num w0 0 3 = 0 then some (.uandImm (fld w0 20 5) (fld w0 14 6) (fld w0 7 7) (fld w1 0 32)) else
  if num w0 3 4 = 4 ∧ num w0 0 3 = 0 then some (.uorImm (fld w0 20 5) (fld w0 14 6) (fld w0 7 7) (fld w1 0 32)) else
  if num w0 3 4 = 5 ∧ num w0 0 3 = 0 then some (.uxorImm (fld w0 20 5) (fld w0 14 6) (fld w0 7 7) (fld w1 0 32)) else
  if num w0 3 4 = 6 ∧ num w0 0 3 = 0 then some (.ushlImm (fld w0 20 5) (fld w0 14 6) (fld w0 7 7) (fld w1 0 32)) else
  if num w0 3 4 = 7 ∧ num w0 1 2 = 0 then some (.ushrImm (bit w0 0) (fld w0 20 5) (fld w0 14 6) (fld w0 7 7) (fld w1 0 32)) else
  if num w0 0 14 = 64 then some (.umovImm (fld w0 20 5) (fld w0 14 6) (fld w1 0 32)) else
  if num w0 0 14 = 72 then some (.umovi (fld w0 20 5) (fld w0 14 6) (fld w1 0 32)) else
  none

/-- The instructions of opcode 0x55 (R67 to R69, and the chapter of the class). -/
def decodeOp55 (w0 w1 : Nat) : Option Instr :=
  if num w0 0 2 = 0 ∧ num w1 0 25 = 0 then some (.ucmp (fld w0 4 3) (fld w0 2 2) (fld w0 20 5) (fld w0 14 6) (fld w0 7 7) (fld w1 25 7)) else
  none

/-- The instructions of opcode 0x56 (R67 to R69, and the chapter of the class). -/
def decodeOp56 (w0 w1 : Nat) : Option Instr :=
  if num w0 6 1 = 0 ∧ num w1 0 25 = 0 then some (.usel (bit w0 5) (bit w0 4) (fld w0 0 4) (fld w0 20 5) (fld w0 14 6) (fld w0 7 7) (fld w1 25 7)) else
  none

/-- The instructions of opcode 0x57 (R67 to R69, and the chapter of the class). -/
def decodeOp57 (w0 w1 : Nat) : Option Instr :=
  if num w0 0 7 = 0 ∧ num w1 0 25 = 0 then some (.uadd64 (fld w0 20 5) (fld w0 14 6) (fld w0 7 7) (fld w1 25 7)) else
  none

/-- The instructions of opcode 0x58 (R67 to R69, and the chapter of the class). -/
def decodeOp58 (w0 w1 : Nat) : Option Instr :=
  if num w0 2 5 = 0 ∧ num w1 0 25 = 0 then some (.ulane (bit w0 1) (bit w0 0) (fld w0 20 5) (fld w0 14 6) (fld w0 7 7) (fld w1 25 7)) else
  none

/-- The instructions of opcode 0x5A (R67 to R69, and the chapter of the class). -/
def decodeOp5A (w0 w1 : Nat) : Option Instr :=
  if num w0 0 3 = 0 ∧ num w1 0 2 = 0 then some (.ldLong (fld w0 4 3) (bit w0 3) (mlOps w0 w1)) else
  none

/-- The instructions of opcode 0x5B (R67 to R69, and the chapter of the class). -/
def decodeOp5B (w0 w1 : Nat) : Option Instr :=
  if num w0 0 3 = 0 ∧ num w1 0 2 = 0 then some (.stLong (fld w0 4 3) (bit w0 3) (mlOps w0 w1)) else
  none

/-- The instructions of opcode 0x5C (R67 to R69, and the chapter of the class). -/
def decodeOp5C (w0 w1 : Nat) : Option Instr :=
  if num w0 0 3 = 0 ∧ num w1 0 2 = 0 then some (.ldsLong (fld w0 4 3) (bit w0 3) (mlOps w0 w1)) else
  none

/-- The instructions of opcode 0x5D (R67 to R69, and the chapter of the class). -/
def decodeOp5D (w0 w1 : Nat) : Option Instr :=
  if num w0 0 3 = 0 ∧ num w1 0 2 = 0 then some (.stsLong (fld w0 4 3) (bit w0 3) (mlOps w0 w1)) else
  none

/-- The instructions of opcode 0x5E (R67 to R69, and the chapter of the class). -/
def decodeOp5E (w0 w1 : Nat) : Option Instr :=
  if num w0 0 3 = 0 ∧ num w1 0 2 = 0 then some (.ldcLong (fld w0 4 3) (bit w0 3) (mlOps w0 w1)) else
  none

/-- The instructions of opcode 0x5F (R67 to R69, and the chapter of the class). -/
def decodeOp5F (w0 w1 : Nat) : Option Instr :=
  if num w1 0 19 = 0 then some (.ldt (fld w0 20 5) (fld w0 14 6) (fld w0 7 7) (fld w0 0 7) (fld w1 29 3) (fld w1 26 3) (fld w1 23 3) (fld w1 21 2) (bit w1 20) (bit w1 19)) else
  none

/-- The instructions of opcode 0x60 (R67 to R69, and the chapter of the class). -/
def decodeOp60 (w0 w1 : Nat) : Option Instr :=
  if num w1 0 19 = 0 then some (.stt (fld w0 20 5) (fld w0 14 6) (fld w0 7 7) (fld w0 0 7) (fld w1 29 3) (fld w1 26 3) (fld w1 23 3) (fld w1 21 2) (bit w1 20) (bit w1 19)) else
  none

/-- The instructions of opcode 0x61 (R67 to R69, and the chapter of the class). -/
def decodeOp61 (w0 w1 : Nat) : Option Instr :=
  if num w0 14 6 = 0 ∧ num w0 0 5 = 0 ∧ num w1 0 11 = 0 then some (.pref (fld w0 5 2) (fld w0 20 5) (fld w0 7 7) (fld w1 11 21)) else
  none

/-- The instructions of opcode 0x62 (R67 to R69, and the chapter of the class). -/
def decodeOp62 (w0 w1 : Nat) : Option Instr :=
  if num w1 0 2 = 0 then some (.atom (fld w0 3 4) (fld w0 0 3) (mlOps w0 w1)) else
  none

/-- The instructions of opcode 0x63 (R67 to R69, and the chapter of the class). -/
def decodeOp63 (w0 w1 : Nat) : Option Instr :=
  if num w1 0 2 = 0 then some (.red (fld w0 3 4) (fld w0 0 3) (mlOps w0 w1)) else
  none

/-- The instructions of opcode 0x64 (R67 to R69, and the chapter of the class). -/
def decodeOp64 (w0 w1 : Nat) : Option Instr :=
  if num w1 0 2 = 0 then some (.atoms (fld w0 3 4) (fld w0 0 3) (mlOps w0 w1)) else
  none

/-- The instructions of opcode 0x65 (R67 to R69, and the chapter of the class). -/
def decodeOp65 (w0 w1 : Nat) : Option Instr :=
  if num w1 31 1 = 0 ∧ num w1 0 24 = 0 then some (.atom2Dcas (fld w0 20 5) (fld w0 14 6) (fld w0 7 7) (fld w0 0 7) (bit w1 30) (fld w1 27 3) (fld w1 24 3)) else
  if num w1 31 1 = 1 ∧ num w1 0 24 = 0 then some (.atom2Amov (fld w0 20 5) (fld w0 14 6) (fld w0 7 7) (fld w0 0 7) (bit w1 30) (fld w1 27 3) (fld w1 24 3)) else
  none

/-- The instructions of opcode 0x66 (R67 to R69, and the chapter of the class). -/
def decodeOp66 (w0 w1 : Nat) : Option Instr :=
  if num w1 0 14 = 0 then some (.stm (fld w0 20 5) (fld w0 14 6) (fld w0 7 7) (fld w0 0 7) (fld w1 29 3) (bit w1 28) (fld w1 25 3) (fld w1 22 3) (bit w1 21) (fld w1 14 7)) else
  none

/-- The instructions of opcode 0x67 (R67 to R69, and the chapter of the class). -/
def decodeOp67 (w0 w1 : Nat) : Option Instr :=
  if num w1 0 23 = 0 then some (.stf (fld w0 20 5) (fld w0 14 6) (fld w0 7 7) (fld w0 0 7) (fld w1 29 3) (fld w1 26 3) (fld w1 23 3)) else
  none

/-- The instructions of opcode 0x68 (R67 to R69, and the chapter of the class). -/
def decodeOp68 (w0 w1 : Nat) : Option Instr :=
  if num w0 20 5 = 15 ∧ num w0 18 2 = 0 ∧ num w0 14 1 = 0 ∧ num w1 0 25 = 0 then some (.sbind (fld w0 15 3) (fld w0 7 7) (fld w0 0 7) (fld w1 25 7)) else
  if num w0 20 5 = 15 ∧ num w0 18 2 = 1 ∧ num w0 0 15 = 0 ∧ num w1 0 32 = 0 then some (.sunbind (fld w0 15 3)) else
  if num w0 20 5 = 15 ∧ num w0 18 2 = 2 ∧ num w0 0 15 = 0 ∧ num w1 0 32 = 0 then some (.sflush (fld w0 15 3)) else
  none

/-- The instructions of opcode 0x6A (R67 to R69, and the chapter of the class). -/
def decodeOp6A (w0 w1 : Nat) : Option Instr :=
  if num w0 20 5 = 15 ∧ num w0 0 5 = 0 ∧ num w1 21 3 = 0 ∧ num w1 0 14 = 0 then some (.mma (fld w0 17 3) (fld w0 11 6) (fld w0 5 6) (fld w1 28 4) (bit w1 27) (bit w1 26) (fld w1 24 2) (fld w1 14 7)) else
  if num w0 20 5 = 15 ∧ num w0 13 4 = 0 ∧ num w0 7 4 = 0 ∧ num w0 0 5 = 0 ∧ num w1 27 1 = 0 ∧ num w1 23 1 = 1 then some (.mmaLong (fld w0 17 3) (fld w0 11 2) (fld w0 5 2) (fld w1 28 4) (bit w1 26) (fld w1 24 2) (fld w1 21 2) (fld w1 14 7) (fld w1 7 7) (fld w1 0 7)) else
  none

/-- The instructions of opcode 0x6B (R67 to R69, and the chapter of the class). -/
def decodeOp6B (w0 w1 : Nat) : Option Instr :=
  if num w0 20 5 = 15 ∧ num w1 0 32 = 0 then some (.accld (fld w0 17 3) (fld w0 14 3) (fld w0 7 7) (fld w0 0 7)) else
  none

/-- The instructions of opcode 0x6C (R67 to R69, and the chapter of the class). -/
def decodeOp6C (w0 w1 : Nat) : Option Instr :=
  if num w0 20 5 = 15 ∧ num w1 0 29 = 0 then some (.accst (fld w0 17 3) (fld w0 14 3) (fld w0 7 7) (fld w0 0 7) (fld w1 29 3)) else
  none

/-- The instructions of opcode 0x6D (R67 to R69, and the chapter of the class). -/
def decodeOp6D (w0 w1 : Nat) : Option Instr :=
  if num w0 20 5 = 15 ∧ num w1 24 3 = 0 ∧ num w1 0 9 = 0 then some (.accepi (fld w0 17 3) (fld w0 14 3) (fld w0 7 7) (fld w0 0 7) (fld w1 29 3) (fld w1 27 2) (fld w1 17 7) (fld w1 10 7) (bit w1 9)) else
  if num w0 20 5 = 15 ∧ num w0 0 14 = 0 ∧ num w1 26 1 = 1 ∧ num w1 0 9 = 0 then some (.accepiSend (fld w0 17 3) (fld w0 14 3) (fld w1 29 3) (fld w1 27 2) (fld w1 24 2) (fld w1 17 7) (fld w1 10 7) (bit w1 9)) else
  none

/-- The instructions of opcode 0x6E (R67 to R69, and the chapter of the class). -/
def decodeOp6E (w0 w1 : Nat) : Option Instr :=
  if num w0 20 5 = 15 ∧ num w0 0 13 = 0 ∧ num w1 0 32 = 0 then some (.mxsave (fld w0 13 7)) else
  none

/-- The instructions of opcode 0x6F (R67 to R69, and the chapter of the class). -/
def decodeOp6F (w0 w1 : Nat) : Option Instr :=
  if num w0 20 5 = 15 ∧ num w0 0 13 = 0 ∧ num w1 0 32 = 0 then some (.mxres (fld w0 13 7)) else
  none

/-- The instructions of opcode 0x70 (R67 to R69, and the chapter of the class). -/
def decodeOp70 (w0 w1 : Nat) : Option Instr :=
  if num w0 20 5 = 15 ∧ num w0 0 11 = 0 ∧ num w1 0 32 = 0 then some (.hadt (fld w0 17 3) (fld w0 14 3) (fld w0 12 2) (bit w0 11)) else
  none

/-- The instructions of opcode 0x71 (R67 to R69, and the chapter of the class). -/
def decodeOp71 (w0 w1 : Nat) : Option Instr :=
  if num w0 20 5 = 15 ∧ num w0 16 1 = 0 ∧ num w0 7 2 = 0 ∧ num w1 0 32 = 0 then some (.qblk (fld w0 17 3) (fld w0 13 3) (fld w0 10 3) (bit w0 9) (fld w0 0 7)) else
  if num w0 20 5 = 15 ∧ num w0 16 1 = 1 ∧ num w0 10 3 = 0 ∧ num w0 7 2 = 0 ∧ num w1 0 32 = 0 then some (.dqblk (fld w0 17 3) (fld w0 13 3) (bit w0 9) (fld w0 0 7)) else
  none

/-- The instructions of opcode 0x72 (R67 to R69, and the chapter of the class). -/
def decodeOp72 (w0 w1 : Nat) : Option Instr :=
  if num w0 20 5 = 15 ∧ num w0 0 3 = 0 ∧ num w1 4 28 = 0 then some (.feed (fld w0 13 7) (fld w0 6 7) (fld w0 3 3) (fld w1 0 4)) else
  none

/-- The instructions of opcode 0x73 (R67 to R69, and the chapter of the class). -/
def decodeOp73 (w0 w1 : Nat) : Option Instr :=
  if num w0 20 5 = 15 ∧ num w0 0 6 = 0 ∧ num w1 0 5 = 0 then some (.cpy (fld w0 13 7) (fld w0 6 7) (fld w1 25 7) (fld w1 18 7) (fld w1 11 7) (bit w1 10) (bit w1 9) (bit w1 8) (fld w1 5 3)) else
  none

/-- The instructions of opcode 0x74 (R67 to R69, and the chapter of the class). -/
def decodeOp74 (w0 w1 : Nat) : Option Instr :=
  if num w0 20 5 = 15 ∧ num w0 0 6 = 0 ∧ num w1 24 1 = 0 ∧ num w1 0 5 = 0 then some (.cpytLoad (fld w0 13 7) (fld w0 6 7) (fld w1 25 7) (fld w1 17 7) (fld w1 10 7) (bit w1 9) (bit w1 8) (bit w1 7) (bit w1 6) (bit w1 5)) else
  if num w0 20 5 = 15 ∧ num w0 0 6 = 0 ∧ num w1 24 1 = 1 ∧ num w1 0 5 = 0 then some (.cpytStore (fld w0 13 7) (fld w0 6 7) (fld w1 25 7) (fld w1 17 7) (fld w1 10 7) (bit w1 9) (bit w1 8) (bit w1 7) (bit w1 6) (bit w1 5)) else
  none

/-- The instructions of opcode 0x75 (R67 to R69, and the chapter of the class). -/
def decodeOp75 (w0 w1 : Nat) : Option Instr :=
  if num w0 20 5 = 15 ∧ num w1 0 31 = 0 then some (.qput (fld w0 14 6) (fld w0 7 7) (fld w0 0 7) (bit w1 31)) else
  none

/-- The instructions of opcode 0x76 (R67 to R69, and the chapter of the class). -/
def decodeOp76 (w0 w1 : Nat) : Option Instr :=
  if num w0 20 5 = 15 ∧ num w0 0 6 = 0 ∧ num w1 0 25 = 0 then some (.binit (fld w0 13 7) (fld w0 6 7) (fld w1 25 7)) else
  none

/-- The instructions of opcode 0x77 (R67 to R69, and the chapter of the class). -/
def decodeOp77 (w0 w1 : Nat) : Option Instr :=
  if num w1 0 18 = 0 then some (.texs (fld w0 20 5) (fld w0 14 6) (fld w0 7 7) (fld w0 0 7) (fld w1 25 7) (fld w1 18 7)) else
  none

/-- The instructions of opcode 0x78 (R67 to R69, and the chapter of the class). -/
def decodeOp78 (w0 w1 : Nat) : Option Instr :=
  if num w1 0 32 = 0 then some (.texf (fld w0 20 5) (fld w0 14 6) (fld w0 7 7) (fld w0 0 7)) else
  none

/-- The instructions of opcode 0x79 (R67 to R69, and the chapter of the class). -/
def decodeOp79 (w0 w1 : Nat) : Option Instr :=
  if num w1 0 32 = 0 then some (.texq (fld w0 20 5) (fld w0 14 6) (fld w0 7 7) (fld w0 0 7)) else
  none

/-- The instructions of opcode 0x7A (R67 to R69, and the chapter of the class). -/
def decodeOp7A (w0 w1 : Nat) : Option Instr :=
  if num w1 0 32 = 0 then some (.rtbox (fld w0 20 5) (fld w0 14 6) (fld w0 7 7) (fld w0 0 7)) else
  none

/-- The instructions of opcode 0x7B (R67 to R69, and the chapter of the class). -/
def decodeOp7B (w0 w1 : Nat) : Option Instr :=
  if num w1 3 29 = 0 then some (.rttri (fld w0 20 5) (fld w0 14 6) (fld w0 7 7) (fld w0 0 7) (bit w1 2) (fld w1 0 2)) else
  none

/-- The instructions of opcode 0x7C (R67 to R69, and the chapter of the class). -/
def decodeOp7C (w0 w1 : Nat) : Option Instr :=
  if num w0 14 4 = 0 ∧ num w0 0 7 = 0 ∧ num w1 0 32 = 0 then some (.sopen (fld w0 20 5) (fld w0 18 2) (fld w0 7 7)) else
  if num w0 14 4 = 0 ∧ num w0 0 7 = 0 ∧ num w1 30 2 = 1 ∧ num w1 0 30 = 0 then some (.sopenReplay (fld w0 20 5) (fld w0 18 2) (fld w0 7 7)) else
  if num w0 14 4 = 0 ∧ num w0 0 7 = 0 ∧ num w1 30 2 = 2 ∧ num w1 0 30 = 0 then some (.sopenFetch (fld w0 20 5) (fld w0 18 2) (fld w0 7 7)) else
  none

/-- The instructions of opcode 0x7D (R67 to R69, and the chapter of the class). -/
def decodeOp7D (w0 w1 : Nat) : Option Instr :=
  if num w0 17 1 = 0 ∧ num w1 0 31 = 0 then some (.semit (fld w0 20 5) (fld w0 18 2) (fld w0 14 3) (fld w0 7 7) (fld w0 0 7) (bit w1 31)) else
  none

/-- The instructions of opcode 0x7E (R67 to R69, and the chapter of the class). -/
def decodeOp7E (w0 w1 : Nat) : Option Instr :=
  if num w0 20 5 = 15 ∧ num w0 0 7 = 0 ∧ num w1 0 23 = 0 then some (.diagrd (fld w0 14 6) (fld w0 7 7) (fld w1 28 4) (fld w1 23 5)) else
  none

/-- The instructions of opcode 0x7F (R67 to R69, and the chapter of the class). -/
def decodeOp7F (w0 w1 : Nat) : Option Instr :=
  if num w0 20 5 = 15 ∧ num w0 14 6 = 0 ∧ num w1 0 23 = 0 then some (.diagwr (fld w0 7 7) (fld w0 0 7) (fld w1 28 4) (fld w1 23 5)) else
  none

/-- The instruction of a first word w0 and, for a long opcode, a second word w1: `none` where no row of the opcode map matches. -/
def decodeFields (w0 w1 : Nat) : Option Instr :=
  match num w0 25 7 with
  | 0 => decodeOp00 w0
  | 1 => decodeOp01 w0
  | 2 => decodeOp02 w0
  | 3 => decodeOp03 w0
  | 4 => decodeOp04 w0
  | 5 => decodeOp05 w0
  | 6 => decodeOp06 w0
  | 7 => decodeOp07 w0
  | 8 => decodeOp08 w0
  | 9 => decodeOp09 w0
  | 10 => decodeOp0A w0
  | 11 => decodeOp0B w0
  | 12 => decodeOp0C w0
  | 13 => decodeOp0D w0
  | 14 => decodeOp0E w0
  | 15 => decodeOp0F w0
  | 16 => decodeOp10 w0
  | 17 => decodeOp11 w0
  | 18 => decodeOp12 w0
  | 19 => decodeOp13 w0
  | 20 => decodeOp14 w0
  | 21 => decodeOp15 w0
  | 22 => decodeOp16 w0
  | 23 => decodeOp17 w0
  | 24 => decodeOp18 w0
  | 25 => decodeOp19 w0
  | 26 => decodeOp1A w0
  | 27 => decodeOp1B w0
  | 28 => decodeOp1C w0
  | 29 => decodeOp1D w0
  | 30 => decodeOp1E w0
  | 31 => decodeOp1F w0
  | 32 => decodeOp20 w0
  | 33 => decodeOp21 w0
  | 34 => decodeOp22 w0
  | 35 => decodeOp23 w0
  | 36 => decodeOp24 w0
  | 37 => decodeOp25 w0
  | 38 => decodeOp26 w0
  | 40 => decodeOp28 w0
  | 41 => decodeOp29 w0
  | 42 => decodeOp2A w0
  | 43 => decodeOp2B w0
  | 44 => decodeOp2C w0
  | 45 => decodeOp2D w0
  | 46 => decodeOp2E w0
  | 47 => decodeOp2F w0
  | 48 => decodeOp30 w0
  | 49 => decodeOp31 w0
  | 50 => decodeOp32 w0
  | 51 => decodeOp33 w0
  | 52 => decodeOp34 w0
  | 53 => decodeOp35 w0
  | 54 => decodeOp36 w0
  | 56 => decodeOp38 w0
  | 57 => decodeOp39 w0
  | 58 => decodeOp3A w0
  | 59 => decodeOp3B w0
  | 60 => decodeOp3C w0
  | 64 => decodeOp40 w0 w1
  | 65 => decodeOp41 w0 w1
  | 66 => decodeOp42 w0 w1
  | 67 => decodeOp43 w0 w1
  | 68 => decodeOp44 w0 w1
  | 69 => decodeOp45 w0 w1
  | 70 => decodeOp46 w0 w1
  | 71 => decodeOp47 w0 w1
  | 72 => decodeOp48 w0 w1
  | 73 => decodeOp49 w0 w1
  | 74 => decodeOp4A w0 w1
  | 75 => decodeOp4B w0 w1
  | 76 => decodeOp4C w0 w1
  | 77 => decodeOp4D w0 w1
  | 78 => decodeOp4E w0 w1
  | 79 => decodeOp4F w0 w1
  | 80 => decodeOp50 w0 w1
  | 81 => decodeOp51 w0 w1
  | 82 => decodeOp52 w0 w1
  | 83 => decodeOp53 w0 w1
  | 84 => decodeOp54 w0 w1
  | 85 => decodeOp55 w0 w1
  | 86 => decodeOp56 w0 w1
  | 87 => decodeOp57 w0 w1
  | 88 => decodeOp58 w0 w1
  | 90 => decodeOp5A w0 w1
  | 91 => decodeOp5B w0 w1
  | 92 => decodeOp5C w0 w1
  | 93 => decodeOp5D w0 w1
  | 94 => decodeOp5E w0 w1
  | 95 => decodeOp5F w0 w1
  | 96 => decodeOp60 w0 w1
  | 97 => decodeOp61 w0 w1
  | 98 => decodeOp62 w0 w1
  | 99 => decodeOp63 w0 w1
  | 100 => decodeOp64 w0 w1
  | 101 => decodeOp65 w0 w1
  | 102 => decodeOp66 w0 w1
  | 103 => decodeOp67 w0 w1
  | 104 => decodeOp68 w0 w1
  | 106 => decodeOp6A w0 w1
  | 107 => decodeOp6B w0 w1
  | 108 => decodeOp6C w0 w1
  | 109 => decodeOp6D w0 w1
  | 110 => decodeOp6E w0 w1
  | 111 => decodeOp6F w0 w1
  | 112 => decodeOp70 w0 w1
  | 113 => decodeOp71 w0 w1
  | 114 => decodeOp72 w0 w1
  | 115 => decodeOp73 w0 w1
  | 116 => decodeOp74 w0 w1
  | 117 => decodeOp75 w0 w1
  | 118 => decodeOp76 w0 w1
  | 119 => decodeOp77 w0 w1
  | 120 => decodeOp78 w0 w1
  | 121 => decodeOp79 w0 w1
  | 122 => decodeOp7A w0 w1
  | 123 => decodeOp7B w0 w1
  | 124 => decodeOp7C w0 w1
  | 125 => decodeOp7D w0 w1
  | 126 => decodeOp7E w0 w1
  | 127 => decodeOp7F w0 w1
  | _ => none

/-- A feed word (R220) as its fields, without the limits of R220. -/
def decodeFeedFields (w0 : Nat) : Option Instr :=
  if num w0 28 4 = 0 then some (.fld (fld w0 26 2) (fld w0 23 3) (fld w0 20 3) (fld w0 17 3) (fld w0 14 3) (fld w0 0 14)) else
  if num w0 28 4 = 1 ∧ num w0 14 6 = 0 then some (.flds (fld w0 26 2) (fld w0 23 3) (fld w0 20 3) (fld w0 0 14)) else
  if num w0 24 8 = 32 then some (.floop (fld w0 0 24)) else
  if num w0 27 5 = 5 ∧ num w0 0 24 = 0 then some (.floopReg (fld w0 24 3)) else
  if num w0 27 5 = 6 ∧ num w0 21 3 = 0 then some (.fstep (fld w0 24 3) (fld w0 0 21)) else
  if num w0 27 5 = 7 ∧ num w0 0 21 = 0 then some (.fstepReg (fld w0 24 3) (fld w0 21 3)) else
  if num w0 0 32 = 1073741824 then some (.fend) else
  if num w0 0 32 = 1342177280 then some (.fsync) else
  none

/-- Why bytes are no instruction. -/
inductive Reject where
  /-- fewer bytes than the instruction's length -/
  | truncated
  /-- an opcode that the map leaves unassigned (R67, R68) -/
  | unassignedOpcode
  /-- an assigned opcode with a sub-operation that is unassigned, or a field that must be 0 and is not (R48, R69, R71) -/
  | unassignedSub
  /-- a row of the map with a guard, source, destination or other field value that is illegal there (R71) -/
  | illegalField
deriving DecidableEq, Repr

/-- The opcodes that the map leaves unassigned (R71). -/
def unassignedOpcode (op : Nat) : Bool := [0x27, 0x37, 0x3D, 0x3E, 0x3F, 0x59, 0x69].contains op

/-- An instruction from its words, every field checked. -/
def decodeWords (w0 w1 : Nat) : Except Reject Instr :=
  match decodeFields w0 w1 with
  | some i => if Legal.instr i then .ok i else .error .illegalField
  | none => .error (if unassignedOpcode (num w0 25 7) then .unassignedOpcode else .unassignedSub)

/-- A feed word, every field checked but the limits that need the program around it (R220). -/
def decodeFeed (w : Nat) : Except Reject Instr :=
  match decodeFeedFields w with
  | some i => if Legal.instr i then .ok i else .error .illegalField
  | none => .error .unassignedSub

/-- The little-endian number of some bytes (R5). -/
def leNat : List Byte → Nat
  | [] => 0
  | b :: bs => b.toNat + 256 * leNat bs

/-- The n little-endian bytes of a number (R5). -/
def leBytes : Nat → Nat → List Byte
  | 0, _ => []
  | n + 1, v => BitVec.ofNat 8 v :: leBytes n (v / 256)

/-- Opcode bit [6], word bit [31], gives the length (R48). -/
def isLong (w0 : Nat) : Bool := bit w0 31

/-- The instruction at the head of some bytes, and the bytes after it (R5, R48). -/
def decodeBytes (bs : List Byte) : Except Reject (Instr × List Byte) :=
  if bs.length < 4 then .error .truncated
  else
    let w0 := leNat (bs.take 4)
    if isLong w0 then
      if bs.length < 8 then .error .truncated
      else (decodeWords w0 (leNat ((bs.drop 4).take 4))).map fun i => (i, bs.drop 8)
    else (decodeWords w0 0).map fun i => (i, bs.drop 4)

/-- The instruction whose bits are w, numbered as spec/opcode_table.json numbers them: laid out in memory order and decoded. A word
that is no clause instruction may be a feed word, whose encoding space is its own (R70). Log entry 83 (DEDUCED). -/
def decodeTableWord (nbits w : Nat) : Option Instr :=
  let bits := w % 2 ^ nbits
  match decodeBytes (leBytes 8 bits) with
  | .ok (i, _) => some i
  | .error _ =>
    match decodeFeed (leNat (leBytes 4 bits)) with
    | .ok i => some i
    | .error _ => none

/-- The classes of clauses (R42). -/
inductive Class where
  | alu | mem | mtx | mov | gfx | sys
deriving DecidableEq, Repr

/-- The class of an opcode, from the class columns of R67 and R68. -/
def classOf (op : Nat) : Class :=
  if op ≤ 0x1F then .alu
  else if op ≤ 0x27 then .mem
  else if op ≤ 0x29 then .mtx
  else if op ≤ 0x33 then .mov
  else if op ≤ 0x37 then .gfx
  else if op ≤ 0x3F then .sys
  else if op ≤ 0x59 then .alu
  else if op ≤ 0x69 then .mem
  else if op ≤ 0x71 then .mtx
  else if op ≤ 0x76 then .mov
  else if op ≤ 0x7D then .gfx
  else .sys

/-- The class of a header's CLASS code; 6 and 7 are illegal (R42). -/
def classOfCode : Nat → Option Class
  | 0 => some .alu
  | 1 => some .mem
  | 2 => some .mtx
  | 3 => some .mov
  | 4 => some .gfx
  | 5 => some .sys
  | _ => none

/-- The CLASS code of a class (R42). -/
def Class.code : Class → Nat
  | .alu => 0
  | .mem => 1
  | .mtx => 2
  | .mov => 3
  | .gfx => 4
  | .sys => 5

/-- A clause header (R42): the class, the number of words, and the wait conditions as (counter, threshold), those with counter 0 left out. -/
structure Header where
  cls : Class
  count : Nat
  waits : List (Nat × Nat)
deriving DecidableEq, Repr

/-- The wait condition in one byte (R43); none for the byte 0. -/
def waitOf (b : Nat) : List (Nat × Nat) := if num b 0 3 = 0 then [] else [(num b 0 3, num b 3 5)]

/-- A wait condition with identifier 0 has threshold 0 (R43). -/
def waitOk (b : Nat) : Bool := num b 0 3 != 0 || num b 3 5 == 0

/-- A legal header (R42 to R44), or none. -/
def decodeHeader (w : Nat) : Option Header :=
  match classOfCode (num w 4 3) with
  | none => none
  | some cls =>
    if num w 0 4 ≠ 0 ∧ bit w 7 = false ∧ waitOk (num w 8 8) ∧ waitOk (num w 16 8) ∧ waitOk (num w 24 8) then
      some { cls, count := num w 0 4, waits := waitOf (num w 8 8) ++ waitOf (num w 16 8) ++ waitOf (num w 24 8) }
    else none

/-- Word 0 of format L without opcode and SUB (R49). -/
def lWord0 (o : LOps) : Nat := o.g.toNat * 2 ^ 20 + o.d.toNat * 2 ^ 14 + o.a.toNat * 2 ^ 7

/-- The operand word (R50). -/
def lWord1 (o : LOps) : Nat :=
  o.b.toNat * 2 ^ 25 + o.c.toNat * 2 ^ 18 + o.xmode.toNat * 2 ^ 15 + o.larg.toNat * 2 ^ 9 + o.fill.toNat * 2 ^ 7 +
    o.absC.toNat * 2 ^ 5 + o.absB.toNat * 2 ^ 4 + o.absA.toNat * 2 ^ 3 + o.negC.toNat * 2 ^ 2 + o.negB.toNat * 2 + o.negA.toNat

/-- Word 0 of format ML without opcode and SUB (R51). -/
def mlWord0 (m : MLOps) : Nat := m.g.toNat * 2 ^ 20 + m.d.toNat * 2 ^ 14 + m.b.toNat * 2 ^ 7

/-- The offset word (R52). -/
def mlWord1 (m : MLOps) : Nat :=
  m.offset.toNat * 2 ^ 11 + m.order.toNat * 2 ^ 8 + m.scope.toNat * 2 ^ 5 + m.cache.toNat * 2 ^ 3 + m.nt.toNat * 2 ^ 2

/-- The words of an instruction: one for a short opcode or a feed word, two for a long one, none for an event. -/
def encode : Instr → List Nat
  | .iadd g d a b => [g.toNat * 1048576 + d.toNat * 16384 + a.toNat * 128 + b.toNat]
  | .isub g d a b => [33554432 + g.toNat * 1048576 + d.toNat * 16384 + a.toNat * 128 + b.toNat]
  | .imul g d a b => [67108864 + g.toNat * 1048576 + d.toNat * 16384 + a.toNat * 128 + b.toNat]
  | .imin g d a b => [100663296 + g.toNat * 1048576 + d.toNat * 16384 + a.toNat * 128 + b.toNat]
  | .imax g d a b => [134217728 + g.toNat * 1048576 + d.toNat * 16384 + a.toNat * 128 + b.toNat]
  | .and g d a b => [167772160 + g.toNat * 1048576 + d.toNat * 16384 + a.toNat * 128 + b.toNat]
  | .or g d a b => [201326592 + g.toNat * 1048576 + d.toNat * 16384 + a.toNat * 128 + b.toNat]
  | .xor g d a b => [234881024 + g.toNat * 1048576 + d.toNat * 16384 + a.toNat * 128 + b.toNat]
  | .andn g d a b => [268435456 + g.toNat * 1048576 + d.toNat * 16384 + a.toNat * 128 + b.toNat]
  | .shl g d a b => [301989888 + g.toNat * 1048576 + d.toNat * 16384 + a.toNat * 128 + b.toNat]
  | .shr g d a b => [335544320 + g.toNat * 1048576 + d.toNat * 16384 + a.toNat * 128 + b.toNat]
  | .sar g d a b => [369098752 + g.toNat * 1048576 + d.toNat * 16384 + a.toNat * 128 + b.toNat]
  | .mov g d a => [402653184 + g.toNat * 1048576 + d.toNat * 16384 + a.toNat * 128]
  | .iabs g d a => [436207616 + g.toNat * 1048576 + d.toNat * 16384 + a.toNat * 128]
  | .not g d a => [436207617 + g.toNat * 1048576 + d.toNat * 16384 + a.toNat * 128]
  | .popc g d a => [436207618 + g.toNat * 1048576 + d.toNat * 16384 + a.toNat * 128]
  | .clz g d a => [436207619 + g.toNat * 1048576 + d.toNat * 16384 + a.toNat * 128]
  | .brev g d a => [436207620 + g.toNat * 1048576 + d.toNat * 16384 + a.toNat * 128]
  | .fadd g d a b => [469762048 + g.toNat * 1048576 + d.toNat * 16384 + a.toNat * 128 + b.toNat]
  | .fsub g d a b => [503316480 + g.toNat * 1048576 + d.toNat * 16384 + a.toNat * 128 + b.toNat]
  | .fmul g d a b => [536870912 + g.toNat * 1048576 + d.toNat * 16384 + a.toNat * 128 + b.toNat]
  | .fmin g d a b => [570425344 + g.toNat * 1048576 + d.toNat * 16384 + a.toNat * 128 + b.toNat]
  | .fmax g d a b => [603979776 + g.toNat * 1048576 + d.toNat * 16384 + a.toNat * 128 + b.toNat]
  | .frcp g d a => [637534208 + g.toNat * 1048576 + d.toNat * 16384 + a.toNat * 128]
  | .frsq g d a => [637534209 + g.toNat * 1048576 + d.toNat * 16384 + a.toNat * 128]
  | .fsqrt g d a => [637534210 + g.toNat * 1048576 + d.toNat * 16384 + a.toNat * 128]
  | .fexp2 g d a => [637534211 + g.toNat * 1048576 + d.toNat * 16384 + a.toNat * 128]
  | .flog2 g d a => [637534212 + g.toNat * 1048576 + d.toNat * 16384 + a.toNat * 128]
  | .fsin g d a => [637534213 + g.toNat * 1048576 + d.toNat * 16384 + a.toNat * 128]
  | .fcos g d a => [637534214 + g.toNat * 1048576 + d.toNat * 16384 + a.toNat * 128]
  | .fclass g d a => [637534215 + g.toNat * 1048576 + d.toNat * 16384 + a.toNat * 128]
  | .hadd2 g d a b => [671088640 + g.toNat * 1048576 + d.toNat * 16384 + a.toNat * 128 + b.toNat]
  | .hmul2 g d a b => [704643072 + g.toNat * 1048576 + d.toNat * 16384 + a.toNat * 128 + b.toNat]
  | .uadd g d a b => [738197504 + g.toNat * 1048576 + d.toNat * 16384 + a.toNat * 128 + b.toNat]
  | .usub g d a b => [771751936 + g.toNat * 1048576 + d.toNat * 16384 + a.toNat * 128 + b.toNat]
  | .uand g d a b => [805306368 + g.toNat * 1048576 + d.toNat * 16384 + a.toNat * 128 + b.toNat]
  | .umov g d a => [838860800 + g.toNat * 1048576 + d.toNat * 16384 + a.toNat * 128]
  | .exset a => [889176064 + a.toNat * 128]
  | .exsetAnd d => [888143872 + d.toNat * 16384]
  | .exsetAndn d => [888144000 + d.toNat * 16384]
  | .exget d => [888143873 + d.toNat * 16384]
  | .pmov d a => [888143874 + d.toNat * 16384 + a.toNat * 128]
  | .movsr g d a => [905969664 + g.toNat * 1048576 + d.toNat * 16384 + a.toNat * 128]
  | .movsrClr g d => [905971457 + g.toNat * 1048576 + d.toNat * 16384]
  | .br p c u off => [939524096 + p.toNat * 1048576 + c.toNat * 131072 + u.toNat * 65536 + off.toNat]
  | .call l off => [973078528 + l.toNat * 1048576 + off.toNat]
  | .loop n off => [1006632960 + n.toNat * 1048576 + off.toNat]
  | .nop g => [1040187392 + g.toNat * 1048576]
  | .ret a => [1055916033 + a.toNat * 128]
  | .exit => [1055916034]
  | .jmpx a => [1055916035 + a.toNat * 128]
  | .ld g d b off => [1073741824 + g.toNat * 1048576 + d.toNat * 16384 + b.toNat * 128 + off.toNat]
  | .st g d b off => [1107296256 + g.toNat * 1048576 + d.toNat * 16384 + b.toNat * 128 + off.toNat]
  | .lds g d b off => [1140850688 + g.toNat * 1048576 + d.toNat * 16384 + b.toNat * 128 + off.toNat]
  | .sts g d b off => [1174405120 + g.toNat * 1048576 + d.toNat * 16384 + b.toNat * 128 + off.toNat]
  | .ldc g d b off => [1207959552 + g.toNat * 1048576 + d.toNat * 16384 + b.toNat * 128 + off.toNat]
  | .fence g order scope xp => [1241513984 + g.toNat * 1048576 + order.toNat * 131072 + scope.toNat * 16384 + xp.toNat * 8192]
  | .txbegin d => [1290797056 + d.toNat * 4096]
  | .txend => [1291059200]
  | .txabort code => [1291321344 + code.toNat * 16]
  | .accz m => [1357905920 + m.toNat * 4096]
  | .setrt n a => [1391460352 + n.toNat * 262144 + a.toNat * 128]
  | .cmit => [1425014784]
  | .waitc id1 t1 id2 t2 => [1458569216 + id1.toNat * 131072 + t1.toNat * 2048 + id2.toNat * 256 + t2.toNat * 4]
  | .fstop => [1492123648]
  | .barv d b n => [1525678080 + d.toNat * 16384 + b.toNat * 128 + n.toNat]
  | .bexp b n => [1559232512 + b.toNat * 128 + n.toNat]
  | .bwait d b n => [1592786944 + d.toNat * 16384 + b.toNat * 128 + n.toNat]
  | .bart id => [1626341376 + id.toNat * 262144]
  | .barc id => [1659895808 + id.toNat * 262144]
  | .schnext d => [1693450240 + d.toNat * 16384]
  | .waita d a r => [1727004672 + d.toNat * 16384 + a.toNat * 128 + r.toNat]
  | .rng g d k c => [1744830464 + g.toNat * 1048576 + d.toNat * 16384 + k.toNat * 128 + c.toNat]
  | .rngSeq g d k n => [1744830576 + g.toNat * 1048576 + d.toNat * 16384 + k.toNat * 128 + n.toNat]
  | .smark g slot p => [1778384896 + g.toNat * 1048576 + slot.toNat * 262144 + p.toNat * 2048]
  | .sclose slot => [1827667968 + slot.toNat * 262144]
  | .trap g code => [1879048192 + g.toNat * 1048576 + code.toNat]
  | .tret => [1928331264]
  | .bkpt g code => [1946157056 + g.toNat * 1048576 + code.toNat]
  | .csrr d n => [1995440128 + d.toNat * 16384 + n.toNat * 16]
  | .csrw src n => [2028994560 + src.toNat * 8192 + n.toNat * 8]
  | .iaddLong t sat o => [2147483648 + t.toNat * 4 + sat.toNat * 2 + lWord0 o, lWord1 o]
  | .isubLong t sat o => [2147483664 + t.toNat * 4 + sat.toNat * 2 + lWord0 o, lWord1 o]
  | .imulLong t sat o => [2147483680 + t.toNat * 4 + sat.toNat * 2 + lWord0 o, lWord1 o]
  | .imulh t o => [2147483696 + t.toNat * 4 + lWord0 o, lWord1 o]
  | .iminLong t o => [2147483712 + t.toNat * 4 + lWord0 o, lWord1 o]
  | .imaxLong t o => [2147483728 + t.toNat * 4 + lWord0 o, lWord1 o]
  | .iabsLong sat o => [2147483744 + sat.toNat * 2 + lWord0 o, lWord1 o]
  | .imad t sat o => [2147483760 + t.toNat * 4 + sat.toNat * 2 + lWord0 o, lWord1 o]
  | .andLong o => [2181038080 + lWord0 o, lWord1 o]
  | .orLong o => [2181038088 + lWord0 o, lWord1 o]
  | .xorLong o => [2181038096 + lWord0 o, lWord1 o]
  | .andnLong o => [2181038104 + lWord0 o, lWord1 o]
  | .notLong o => [2181038112 + lWord0 o, lWord1 o]
  | .shlLong o => [2181038120 + lWord0 o, lWord1 o]
  | .shrLong o => [2181038128 + lWord0 o, lWord1 o]
  | .sarLong o => [2181038136 + lWord0 o, lWord1 o]
  | .rot o => [2181038144 + lWord0 o, lWord1 o]
  | .bfe sx o => [2214592512 + sx.toNat * 8 + lWord0 o, lWord1 o]
  | .bfi o => [2214592528 + lWord0 o, lWord1 o]
  | .popcLong o => [2214592544 + lWord0 o, lWord1 o]
  | .clzLong o => [2214592560 + lWord0 o, lWord1 o]
  | .brevLong o => [2214592576 + lWord0 o, lWord1 o]
  | .icmp cmp t o => [2248146944 + cmp.toNat * 16 + t.toNat * 4 + lWord0 o, lWord1 o]
  | .sel w64 pneg pr o => [2281701376 + w64.toNat * 32 + pneg.toNat * 16 + pr.toNat + lWord0 o, lWord1 o]
  | .movi g d imm => [2315255808 + g.toNat * 1048576 + d.toNat * 16384, imm.toNat]
  | .iadd64 o => [2348810240 + lWord0 o, lWord1 o]
  | .isub64 o => [2348810256 + lWord0 o, lWord1 o]
  | .imul64 o => [2348810272 + lWord0 o, lWord1 o]
  | .shl64 o => [2348810288 + lWord0 o, lWord1 o]
  | .shr64 sx o => [2348810304 + sx.toNat * 8 + lWord0 o, lWord1 o]
  | .faddLong rm o => [2382364672 + rm.toNat * 2 + lWord0 o, lWord1 o]
  | .fsubLong rm o => [2382364688 + rm.toNat * 2 + lWord0 o, lWord1 o]
  | .fmulLong rm o => [2382364704 + rm.toNat * 2 + lWord0 o, lWord1 o]
  | .ffma rm o => [2382364720 + rm.toNat * 2 + lWord0 o, lWord1 o]
  | .fminLong o => [2382364736 + lWord0 o, lWord1 o]
  | .fmaxLong o => [2382364752 + lWord0 o, lWord1 o]
  | .fcmp cmp t o => [2415919104 + cmp.toNat * 16 + t.toNat * 4 + lWord0 o, lWord1 o]
  | .frcpLong rm o => [2449473536 + rm.toNat + lWord0 o, lWord1 o]
  | .frsqLong rm o => [2449473544 + rm.toNat + lWord0 o, lWord1 o]
  | .fsqrtLong rm o => [2449473552 + rm.toNat + lWord0 o, lWord1 o]
  | .fexp2Long rm o => [2449473560 + rm.toNat + lWord0 o, lWord1 o]
  | .flog2Long rm o => [2449473568 + rm.toNat + lWord0 o, lWord1 o]
  | .fsinLong rm o => [2449473576 + rm.toNat + lWord0 o, lWord1 o]
  | .fcosLong rm o => [2449473584 + rm.toNat + lWord0 o, lWord1 o]
  | .frint rm o => [2449473592 + rm.toNat + lWord0 o, lWord1 o]
  | .fclassLong o => [2449473600 + lWord0 o, lWord1 o]
  | .fldexp rm o => [2483027968 + rm.toNat * 2 + lWord0 o, lWord1 o]
  | .cvt pair rm o => [2516582400 + pair.toNat * 8 + rm.toNat + lWord0 o, lWord1 o]
  | .hadd2Long bf rm o => [2550136832 + bf.toNat * 16 + rm.toNat * 2 + lWord0 o, lWord1 o]
  | .hmul2Long bf rm o => [2550136864 + bf.toNat * 16 + rm.toNat * 2 + lWord0 o, lWord1 o]
  | .hfma2 bf rm o => [2550136896 + bf.toNat * 16 + rm.toNat * 2 + lWord0 o, lWord1 o]
  | .dot4 t rm sat o => [2583691264 + t.toNat * 16 + rm.toNat * 2 + sat.toNat + lWord0 o, lWord1 o]
  | .dot8 t rm sat o => [2583691328 + t.toNat * 16 + rm.toNat * 2 + sat.toNat + lWord0 o, lWord1 o]
  | .xlane w64 o => [2617245696 + w64.toNat * 16 + lWord0 o, lWord1 o]
  | .xlaneIdx w64 ifill o => [2617245728 + w64.toNat * 16 + ifill.toNat * 4 + lWord0 o, lWord1 o]
  | .redx rop t o => [2650800128 + rop.toNat * 16 + t.toNat + lWord0 o, lWord1 o]
  | .scanx rop excl t o => [2684354560 + rop.toNat * 16 + excl.toNat * 8 + t.toNat + lWord0 o, lWord1 o]
  | .ballot o => [2717908992 + lWord0 o, lWord1 o]
  | .vote vk o => [2717909024 + vk.toNat * 8 + lWord0 o, lWord1 o]
  | .matchx w64 o => [2717909056 + w64.toNat * 4 + lWord0 o, lWord1 o]
  | .elect o => [2717909088 + lWord0 o, lWord1 o]
  | .plop d pc pb pa table => [2767192064 + d.toNat * 16384, pc.toNat * 65536 + pb.toNat * 4096 + pa.toNat * 256 + table.toNat]
  | .uaddLong g d a b => [2785017856 + g.toNat * 1048576 + d.toNat * 16384 + a.toNat * 128, b.toNat * 33554432]
  | .usubLong g d a b => [2785017864 + g.toNat * 1048576 + d.toNat * 16384 + a.toNat * 128, b.toNat * 33554432]
  | .umul g d a b => [2785017872 + g.toNat * 1048576 + d.toNat * 16384 + a.toNat * 128, b.toNat * 33554432]
  | .uandLong g d a b => [2785017880 + g.toNat * 1048576 + d.toNat * 16384 + a.toNat * 128, b.toNat * 33554432]
  | .uor g d a b => [2785017888 + g.toNat * 1048576 + d.toNat * 16384 + a.toNat * 128, b.toNat * 33554432]
  | .uxor g d a b => [2785017896 + g.toNat * 1048576 + d.toNat * 16384 + a.toNat * 128, b.toNat * 33554432]
  | .ushl g d a b => [2785017904 + g.toNat * 1048576 + d.toNat * 16384 + a.toNat * 128, b.toNat * 33554432]
  | .ushr sx g d a b => [2785017912 + sx.toNat + g.toNat * 1048576 + d.toNat * 16384 + a.toNat * 128, b.toNat * 33554432]
  | .umovLong g d a => [2785017920 + g.toNat * 1048576 + d.toNat * 16384 + a.toNat * 128, 0]
  | .uaddImm g d a imm => [2818572288 + g.toNat * 1048576 + d.toNat * 16384 + a.toNat * 128, imm.toNat]
  | .usubImm g d a imm => [2818572296 + g.toNat * 1048576 + d.toNat * 16384 + a.toNat * 128, imm.toNat]
  | .umulImm g d a imm => [2818572304 + g.toNat * 1048576 + d.toNat * 16384 + a.toNat * 128, imm.toNat]
  | .uandImm g d a imm => [2818572312 + g.toNat * 1048576 + d.toNat * 16384 + a.toNat * 128, imm.toNat]
  | .uorImm g d a imm => [2818572320 + g.toNat * 1048576 + d.toNat * 16384 + a.toNat * 128, imm.toNat]
  | .uxorImm g d a imm => [2818572328 + g.toNat * 1048576 + d.toNat * 16384 + a.toNat * 128, imm.toNat]
  | .ushlImm g d a imm => [2818572336 + g.toNat * 1048576 + d.toNat * 16384 + a.toNat * 128, imm.toNat]
  | .ushrImm sx g d a imm => [2818572344 + sx.toNat + g.toNat * 1048576 + d.toNat * 16384 + a.toNat * 128, imm.toNat]
  | .umovImm g d imm => [2818572352 + g.toNat * 1048576 + d.toNat * 16384, imm.toNat]
  | .umovi g d imm => [2818572360 + g.toNat * 1048576 + d.toNat * 16384, imm.toNat]
  | .ucmp cmp t g d a b => [2852126720 + cmp.toNat * 16 + t.toNat * 4 + g.toNat * 1048576 + d.toNat * 16384 + a.toNat * 128, b.toNat * 33554432]
  | .usel w64 pneg pr g d a b => [2885681152 + w64.toNat * 32 + pneg.toNat * 16 + pr.toNat + g.toNat * 1048576 + d.toNat * 16384 + a.toNat * 128, b.toNat * 33554432]
  | .uadd64 g d a b => [2919235584 + g.toNat * 1048576 + d.toNat * 16384 + a.toNat * 128, b.toNat * 33554432]
  | .ulane first w64 g d a b => [2952790016 + first.toNat * 2 + w64.toNat + g.toNat * 1048576 + d.toNat * 16384 + a.toNat * 128, b.toNat * 33554432]
  | .ldLong t uni m => [3019898880 + t.toNat * 16 + uni.toNat * 8 + mlWord0 m, mlWord1 m]
  | .stLong t uni m => [3053453312 + t.toNat * 16 + uni.toNat * 8 + mlWord0 m, mlWord1 m]
  | .ldsLong t uni m => [3087007744 + t.toNat * 16 + uni.toNat * 8 + mlWord0 m, mlWord1 m]
  | .stsLong t uni m => [3120562176 + t.toNat * 16 + uni.toNat * 8 + mlWord0 m, mlWord1 m]
  | .ldcLong t uni m => [3154116608 + t.toNat * 16 + uni.toNat * 8 + mlWord0 m, mlWord1 m]
  | .ldt g d coord desc t order scope cache nt clip => [3187671040 + g.toNat * 1048576 + d.toNat * 16384 + coord.toNat * 128 + desc.toNat, t.toNat * 536870912 + order.toNat * 67108864 + scope.toNat * 8388608 + cache.toNat * 2097152 + nt.toNat * 1048576 + clip.toNat * 524288]
  | .stt g d coord desc t order scope cache nt clip => [3221225472 + g.toNat * 1048576 + d.toNat * 16384 + coord.toNat * 128 + desc.toNat, t.toNat * 536870912 + order.toNat * 67108864 + scope.toNat * 8388608 + cache.toNat * 2097152 + nt.toNat * 1048576 + clip.toNat * 524288]
  | .pref lvl g b offset => [3254779904 + lvl.toNat * 32 + g.toNat * 1048576 + b.toNat * 128, offset.toNat * 2048]
  | .atom aop t m => [3288334336 + aop.toNat * 8 + t.toNat + mlWord0 m, mlWord1 m]
  | .red aop t m => [3321888768 + aop.toNat * 8 + t.toNat + mlWord0 m, mlWord1 m]
  | .atoms aop t m => [3355443200 + aop.toNat * 8 + t.toNat + mlWord0 m, mlWord1 m]
  | .atom2Dcas g d b1 b2 w64 order scope => [3388997632 + g.toNat * 1048576 + d.toNat * 16384 + b1.toNat * 128 + b2.toNat, w64.toNat * 1073741824 + order.toNat * 134217728 + scope.toNat * 16777216]
  | .atom2Amov g d b1 b2 w64 order scope => [3388997632 + g.toNat * 1048576 + d.toNat * 16384 + b1.toNat * 128 + b2.toNat, 2147483648 + w64.toNat * 1073741824 + order.toNat * 134217728 + scope.toNat * 16777216]
  | .stm g d b mask t mdie order scope bar bars => [3422552064 + g.toNat * 1048576 + d.toNat * 16384 + b.toNat * 128 + mask.toNat, t.toNat * 536870912 + mdie.toNat * 268435456 + order.toNat * 33554432 + scope.toNat * 4194304 + bar.toNat * 2097152 + bars.toNat * 16384]
  | .stf g d b flag t order scope => [3456106496 + g.toNat * 1048576 + d.toNat * 16384 + b.toNat * 128 + flag.toNat, t.toNat * 536870912 + order.toNat * 67108864 + scope.toNat * 8388608]
  | .sbind slot gaddr soff len => [3505389568 + slot.toNat * 32768 + gaddr.toNat * 128 + soff.toNat, len.toNat * 33554432]
  | .sunbind slot => [3505651712 + slot.toNat * 32768, 0]
  | .sflush slot => [3505913856 + slot.toNat * 32768, 0]
  | .mma tile areg sreg fmt r ns h bs => [3572498432 + tile.toNat * 131072 + areg.toNat * 2048 + sreg.toNat * 32, fmt.toNat * 268435456 + r.toNat * 134217728 + ns.toNat * 67108864 + h.toNat * 16777216 + bs.toNat * 16384]
  | .mmaLong tile aq sq fmt ns h nt bs bstr ks => [3572498432 + tile.toNat * 131072 + aq.toNat * 2048 + sq.toNat * 32, 8388608 + fmt.toNat * 268435456 + ns.toNat * 67108864 + h.toNat * 16777216 + nt.toNat * 2097152 + bs.toNat * 16384 + bstr.toNat * 128 + ks.toNat]
  | .accld tile t addr str => [3606052864 + tile.toNat * 131072 + t.toNat * 16384 + addr.toNat * 128 + str.toNat, 0]
  | .accst tile t addr str rm => [3639607296 + tile.toNat * 131072 + t.toNat * 16384 + addr.toNat * 128 + str.toNat, rm.toNat * 536870912]
  | .accepi tile t addr str rm act alpha bias biason => [3673161728 + tile.toNat * 131072 + t.toNat * 16384 + addr.toNat * 128 + str.toNat, rm.toNat * 536870912 + act.toNat * 134217728 + alpha.toNat * 131072 + bias.toNat * 1024 + biason.toNat * 512]
  | .accepiSend tile t rm act rte alpha bias biason => [3673161728 + tile.toNat * 131072 + t.toNat * 16384, 67108864 + rm.toNat * 536870912 + act.toNat * 134217728 + rte.toNat * 16777216 + alpha.toNat * 131072 + bias.toNat * 1024 + biason.toNat * 512]
  | .mxsave addr => [3706716160 + addr.toNat * 8192, 0]
  | .mxres addr => [3740270592 + addr.toNat * 8192, 0]
  | .hadt tile src n dir => [3773825024 + tile.toNat * 131072 + src.toNat * 16384 + n.toNat * 4096 + dir.toNat * 2048, 0]
  | .qblk tile fmt rm tr s => [3807379456 + tile.toNat * 131072 + fmt.toNat * 8192 + rm.toNat * 1024 + tr.toNat * 512 + s.toNat, 0]
  | .dqblk tile fmt tr s => [3807444992 + tile.toNat * 131072 + fmt.toNat * 8192 + tr.toNat * 512 + s.toNat, 0]
  | .feed prog args na qmask => [3840933888 + prog.toNat * 8192 + args.toNat * 64 + na.toNat * 8, qmask.toNat]
  | .cpy dsta srca shape str bar baron rel res tw => [3874488320 + dsta.toNat * 8192 + srca.toNat * 64, shape.toNat * 33554432 + str.toNat * 262144 + bar.toNat * 2048 + baron.toNat * 1024 + rel.toNat * 512 + res.toNat * 256 + tw.toNat * 32]
  | .cpytLoad desc coord buf ext bar baron rel res tr clip => [3908042752 + desc.toNat * 8192 + coord.toNat * 64, buf.toNat * 33554432 + ext.toNat * 131072 + bar.toNat * 1024 + baron.toNat * 512 + rel.toNat * 256 + res.toNat * 128 + tr.toNat * 64 + clip.toNat * 32]
  | .cpytStore desc coord buf ext bar baron rel res tr clip => [3908042752 + desc.toNat * 8192 + coord.toNat * 64, 16777216 + buf.toNat * 33554432 + ext.toNat * 131072 + bar.toNat * 1024 + baron.toNat * 512 + rel.toNat * 256 + res.toNat * 128 + tr.toNat * 64 + clip.toNat * 32]
  | .qput d q pkt blk => [3941597184 + d.toNat * 16384 + q.toNat * 128 + pkt.toNat, blk.toNat * 2147483648]
  | .binit b count quota => [3975151616 + b.toNat * 8192 + count.toNat * 64, quota.toNat * 33554432]
  | .texs g d coord tex key ctr => [3992977408 + g.toNat * 1048576 + d.toNat * 16384 + coord.toNat * 128 + tex.toNat, key.toNat * 33554432 + ctr.toNat * 262144]
  | .texf g d coord tex => [4026531840 + g.toNat * 1048576 + d.toNat * 16384 + coord.toNat * 128 + tex.toNat, 0]
  | .texq g d coord tex => [4060086272 + g.toNat * 1048576 + d.toNat * 16384 + coord.toNat * 128 + tex.toNat, 0]
  | .rtbox g d ray addr => [4093640704 + g.toNat * 1048576 + d.toNat * 16384 + ray.toNat * 128 + addr.toNat, 0]
  | .rttri g d ray addr minf cull => [4127195136 + g.toNat * 1048576 + d.toNat * 16384 + ray.toNat * 128 + addr.toNat, minf.toNat * 4 + cull.toNat]
  | .sopen g slot v => [4160749568 + g.toNat * 1048576 + slot.toNat * 262144 + v.toNat * 128, 0]
  | .sopenReplay g slot v => [4160749568 + g.toNat * 1048576 + slot.toNat * 262144 + v.toNat * 128, 1073741824]
  | .sopenFetch g slot d => [4160749568 + g.toNat * 1048576 + slot.toNat * 262144 + d.toNat * 128, 2147483648]
  | .semit g slot cnt p route rel => [4194304000 + g.toNat * 1048576 + slot.toNat * 262144 + cnt.toNat * 16384 + p.toNat * 128 + route.toNat, rel.toNat * 2147483648]
  | .diagrd d row arr word => [4243587072 + d.toNat * 16384 + row.toNat * 128, arr.toNat * 268435456 + word.toNat * 8388608]
  | .diagwr row src arr word => [4277141504 + row.toNat * 128 + src.toNat, arr.toNat * 268435456 + word.toNat * 8388608]
  | .fld q t n m gsh off => [q.toNat * 67108864 + t.toNat * 8388608 + n.toNat * 1048576 + m.toNat * 131072 + gsh.toNat * 16384 + off.toNat]
  | .flds q t n off => [268435456 + q.toNat * 67108864 + t.toNat * 8388608 + n.toNat * 1048576 + off.toNat]
  | .floop count => [536870912 + count.toNat]
  | .floopReg n => [671088640 + n.toNat * 16777216]
  | .fstep n imm => [805306368 + n.toNat * 16777216 + imm.toNat]
  | .fstepReg n m => [939524096 + n.toNat * 16777216 + m.toNat * 2097152]
  | .fend => [1073741824]
  | .fsync => [1342177280]
  | .clauseDispatch => []
  | .rotationStart _ _ _ => []
  | .sfuResult _ => []
  | .groupWaitMet _ => []
  | .translationComplete _ => []
  | .faultQueueRetry _ => []
  | .faultResponse _ => []
  | .operationRetire _ _ => []
  | .writeAcknowledge _ _ => []
  | .wcbTimeout _ _ => []
  | .l1LeaseExpiry _ _ => []
  | .bindFirstTouch _ _ _ => []
  | .bindRecall _ => []
  | .txAbort _ _ => []
  | .orderedCommitPhase _ => []
  | .orderedRoundStart _ => []
  | .matrixCheckEnd _ _ => []
  | .mmaPassEnd _ _ _ => []
  | .mmaFeedTake _ _ => []
  | .fennelServe _ => []
  | .feedLoadReturn _ _ => []
  | .copyProbeEnd _ => []
  | .copyErrorStop _ _ _ => []
  | .barrierPendLower _ _ _ => []
  | .stfFlagUpdate _ _ => []
  | .sendFlagUpdate _ => []
  | .waitaWake _ => []
  | .waitaDeadline _ => []
  | .qputBlockRetry _ => []
  | .teamPlace _ _ => []
  | .gridComplete _ => []
  | .contextErrorStop _ => []
  | .preemptRequest _ => []
  | .preemptSave _ => []
  | .restore _ => []
  | .nopad _ => []
  | .launch _ => []
  | .copy _ => []
  | .waitmem _ => []
  | .signal _ => []
  | .bind _ => []
  | .ckpt _ => []
  | .jctlExport _ => []
  | .jctlRestart _ => []
  | .jctlForget _ => []
  | .tdset _ => []
  | .tlbinv _ => []
  | .packetComplete _ => []
  | .nameCacheMiss _ _ => []
  | .mscWriteback _ => []
  | .rinseDrain _ => []
  | .patrolScrub _ _ => []
  | .flitCrcReplay _ _ _ _ => []
  | .oscillatorLockLoss _ _ => []
  | .heartbeatSend _ => []
  | .siteLostTimeout _ => []
  | .siteLostDeclared _ => []
  | .fabricRequestArrive _ _ _ _ _ _ => []
  | .fabricAck _ _ _ _ => []
  | .fabricTimeout _ => []
  | .rotorMatching => []
  | .hostAccess _ _ _ => []
  | .hostWritePerform _ => []
  | .birspArrive _ _ => []
  | .tier2Timeout _ _ => []
  | .collectiveContribution _ _ _ _ => []
  | .chunkResultAck _ => []
  | .rasterPacketArrive _ => []
  | .rasterWatermarkArrive _ => []
  | .rasterisePacket _ => []
  | .frameComplete _ => []
  | .contactLogRecordArrive _ _ => []
  | .journalRecordAck _ _ => []
  | .sinkEmissionArrive _ => []
  | .ringSinkDeliver _ => []
  | .forcedRecordFetch _ _ _ => []
  | .partnerLost _ => []
  | .partnerResendDone _ => []
  | .powerOn => []
  | .safelightCandidateWrite _ _ => []
  | .spdmNegotiateAlgorithms _ _ _ => []
  | .spdmGetMeasurements _ _ => []
  | .waitmemMonitorWake _ => []
  | .powerLoss => []
  | .hostPortTraining _ _ => []

/-- The bytes of an instruction as they stand in memory (R5). -/
def encodeBytes (i : Instr) : List Byte := (encode i).flatMap (leBytes 4)

end Sys2Proof
end

