-- ==== Sys2Proof/Machine/State.lean ====
section
/-!
DEFINITION. The state of the machine as plain data: every piece of state that the spec gives the package, what is under way in its
engines, and the few fields of the model's own that say which agent moves next. INVENTORY.md lists each with its rule.
-/
namespace Sys2Proof.Machine

/-- Why the machine stops with no next state. -/
inductive Fault where
  /-- An instruction is executed while no group is selected: nothing issues it. Raised by the meanings of instructions; `step` never
  reaches it. Safe: the machine has no group there to go on with. -/
  | noGroup
  /-- A feed word is executed while the selected group has no running feed program. Raised by the meanings of the feed words; Fennel
  serves only running programs (R221), so `step` never reaches it. Safe. -/
  | noFeedProgram
deriving DecidableEq, Repr

/-- Why an instruction has no meaning here. -/
inductive Refusal where
  /-- The instruction has no meaning in this model yet, by its mnemonic. Raised by `exec` alone. Safe. -/
  | notModelled (mnemonic : String)
deriving DecidableEq, Repr

/-- The seven counters of a group (R32). -/
inductive Counter where
  | ld | st | tx | mx | cp | cl | sq
deriving DecidableEq, Repr

/-- The ordering of an access or fence (R52). -/
inductive Order where
  | rlx | acq | rel | ar | sc
deriving DecidableEq, Repr

/-- The scopes (R306), narrow to wide. -/
inductive Scope where
  | grp | team | clu | die | dev | sys
deriving DecidableEq, Repr

/-- A register that an asynchronous operation writes: a lane of a vector register, a uniform, a team-shared
or a handler register. -/
inductive Reg where
  | v (reg lane : Nat)
  | s (reg : Nat)
  | h (reg : Nat)
  | k (reg : Nat)
deriving DecidableEq, Repr

/-- A trap or reported error: its cause code (R271) and TRAPINFO (R272). -/
structure Cause where
  code : Nat
  info : Word64
deriving DecidableEq, Repr

/-- One lane's part of a memory operation, with the operands captured at issue (R147): its address, the die name that a tensor
descriptor gave (R167), the bytes it stores, a second address (ATOM2) and which of its bytes a clipped tensor access skips (R168). -/
structure LaneAcc where
  lane : Nat
  addr : Word64
  die : Option Nat := none
  data : List Byte := []
  addr2 : Word64 := 0
  clipped : List Nat := []
  /-- for a load from a peer panel in ordered mode: the bytes that the group's own buffer held, by offset (R329) -/
  own : List (Nat × Byte) := []
deriving DecidableEq, Repr

/-- A line in a core's L1 (R317, R381): its tag, its physical line, its bytes, its lease expiry and the completion time of the write
it holds (R318). -/
structure L1Line where
  asid : Nat
  va : Nat
  pa : Nat
  bytes : Cells 8
  expiry : Nat
  ctime : Nat
  /-- the page through which it was filled takes stores -/
  writable : Bool
deriving DecidableEq, Repr

/-- Where an access goes: a location of device, tier-2 or host memory, or a peer panel's aperture. -/
inductive Target where
  | mem (loc : Nat)
  | fabric (peer fa : Nat)
deriving DecidableEq, Repr

/-- A translated access: the page's attribute and its target. -/
structure Phys where
  attr : Nat
  target : Target
  /-- for a REPLICATE page: its ASID and the 4 KiB block of the virtual address (R380) -/
  asid : Nat := 0
  vblock : Nat := 0
  /-- the page takes stores (R376, R377) -/
  writable : Bool := false
deriving DecidableEq, Repr

/-- Where an access performs once it has passed translation: a stash, the L1 line or constant line that serves it, a translated place,
or nowhere (a team of the cluster that has left). -/
inductive Spot where
  | stash (team off : Nat)
  | l1 (line : L1Line)
  | const (bytes : Cells 8)
  | phys (p : Phys)
  | gone
deriving DecidableEq, Repr

/-- A lane's access that has passed translation: its places, one or for ATOM2 two. -/
structure Passed where
  acc : LaneAcc
  spot : Spot
  spot2 : Spot := .gone
deriving DecidableEq, Repr

/-- What a memory, texture or ray operation does in each lane once it is translated. -/
inductive MemKind where
  /-- a load of `size` bytes, sign-extended or not, into vector or uniform registers from `dst` on (R151, R158) -/
  | load (size : Nat) (signed uni : Bool) (dst : Nat)
  /-- a load through the constant cache (R159) -/
  | const (size : Nat) (signed uni : Bool) (dst : Nat)
  /-- a store of the captured bytes (R158) -/
  | store (size : Nat)
  /-- an aggregated atomic, returning old values into `dst` or not (R170 to R172) -/
  | atomic (op ty : Nat) (dst : Option Nat)
  /-- ATOM2.dcas and ATOM2.amov (R175) -/
  | dcas (w64 : Bool) (dst : Nat)
  | amov (w64 : Bool) (dst : Nat)
  /-- STM: the members, the byte step of .mclu, and the barrier at each member (R177, R178) -/
  | multicast (mdie : Bool) (size : Nat) (mask : Word64) (bar : Option Nat)
  /-- STF: the flag's address (R181) -/
  | flagged (size : Nat) (flag : Word64)
  /-- TEXS, TEXF, TEXQ with their captured coordinates in `data` of the lanes (R228 to R230) -/
  | texs (dst : Nat) (desc key : Word64)
  | texf (dst : Nat) (desc : Word64)
  | texq (dst : Nat) (desc : Word64) (level : Word)
  /-- RTBOX and RTTRI with the captured ray in `data` of the lanes (R235 to R237) -/
  | rtbox (dst : Nat)
  | rttri (dst : Nat) (minf : Bool) (cull : Nat)
deriving DecidableEq, Repr

/-- The stages of a counted operation (R33, R161). -/
inductive Stage where
  /-- issued; some lanes have not passed translation -/
  | issued
  /-- every lane has passed translation; lanes may still be in flight, and its writes are not yet acknowledged -/
  | performed
  /-- complete: it retires once every older operation on its counter has -/
  | complete
deriving DecidableEq, Repr

/-- A counted operation of a group that is outstanding (R33). -/
structure Op where
  uid : Nat
  ctr : Counter
  /-- the instruction's words and their number -/
  words : Word64 := 0
  len : Nat := 2
  stage : Stage := .issued
  kind : Option MemKind := none
  order : Order := .rlx
  scope : Scope := .grp
  cache : Nat := 0
  nt : Bool := false
  /-- the lanes that have not performed, with their captured operands -/
  lanes : List LaneAcc := []
  /-- the lanes that have passed translation and have not performed: they perform one by one, in any order that local order allows
  (R308, R312) -/
  flight : List Passed := []
  /-- the lanes whose request a peer panel has not answered (R419) -/
  remote : List LaneAcc := []
  /-- what peer panels have returned to a texture or ray read, by `2^60 + peer · 2^42 + address` -/
  fabData : List (Nat × List Byte) := []
  /-- the registers it writes asynchronously (R20), and the values once they are known -/
  dests : List Reg := []
  writes : List (Reg × Word) := []
  /-- flags that it ORs into FPFLAGS when it retires (R37, R170) -/
  flags : Word := 0
  /-- the members of a multicast that failed (R179), and where an STF's places lie so far: 0 in memory, k + 1 at peer k (R181) -/
  failed : Word64 := 0
  place : Option Nat := none
  /-- the error found after translation (R164) -/
  err : Option Cause := none
  /-- the completion time that its acknowledgement returns (R36) -/
  ctime : Nat := 0
  /-- the latest completion time reported by its reads (R318), and of its writes by an engine (R320) -/
  readC : Nat := 0
  engC : Nat := 0
  /-- acknowledgements, records, tokens or bytes still to come before it is complete -/
  need : Nat := 0
  /-- the physical lines it wrote, whose acknowledgements it waits for -/
  lines : List Nat := []
  /-- the copies of a closed copy group (R259), the sequence slot of an SQ operation -/
  copies : List Nat := []
  slot : Nat := 0
  /-- the tick at which it made a request to an expander (R425) -/
  since : Option Nat := none
deriving DecidableEq, Repr

/-- What a group that issues nothing waits for (R292). -/
inductive Wait where
  | none
  /-- a memory instruction has lanes that have not passed translation (R162) -/
  | translate (uid : Nat)
  /-- parked at a page fault of the memory instruction `uid` (R163) -/
  | parked (uid : Nat) (rec : Nat)
  /-- parked at a page fault of an instruction or fetch that acts for the whole group (R163, R200, R219, R254, R267 to R269, R476) -/
  | parkedWhole (rec : Nat)
  /-- a release holds the access of operation `uid` (R319) -/
  | release (uid : Nat)
  /-- an acquire or .sc access holds the later instructions until operation `uid` completes (R320) -/
  | acquire (uid : Nat)
  /-- in FENCE (R183) -/
  | fence (order : Order) (scope : Scope) (xp : Bool)
  /-- in TXEND, waiting for the transaction's loads (R192) -/
  | txend
  /-- arrived at a team or cluster barrier (R266) -/
  | bart (id : Nat)
  | barc (id : Nat)
  /-- a barrier instruction whose release is not met yet: BART, BARC and BARV before their arrival (R263, R266) -/
  | barArrive (cluster : Bool) (id : Nat)
  | barv (dst : Nat) (addr bytes : Word)
  | bwait (dst : Nat) (addr gen : Word)
  /-- an acquire that leaves a barrier or BWAIT: raises nothing but holds until earlier loads have returned (R320) -/
  | leave (scope : Scope) (xp : Bool)
  | waitc (conds : List (Nat × Nat))
  /-- WAITA, with the completion time that its last read reported -/
  | waita (dst : Nat) (addr cmp : Word64) (deadline last : Nat)
  /-- QPUT: retrying a full queue, or holding its release before the valid bit (R268) -/
  | qputFull (dst : Nat) (hdr : Word64) (pkt : Nat)
  | qputValid (dst : Nat) (slot : Word64) (w : Nat) (hdr0 : Word)
  /-- its word waits in the rendezvous latch of its quartet (R196) -/
  | rendezvous
  /-- the engine's checks of its quartet's operation are under way (R200) -/
  | matrixCheck
  /-- the mover's probe of its copy is under way (R254) -/
  | probe (copy : Nat)
  /-- its quantum of an ordered launch has ended, before an instruction or after Q clauses (R328) -/
  | quantum (before : Bool)
deriving DecidableEq, Repr

/-- A line of a store buffer: its line address, and the bytes stored by offset (R154, R189, R328). -/
structure BufLine where
  line : Word64
  bytes : Cells 9
  last : Nat
deriving DecidableEq, Repr

/-- The transaction of a group (R189). Lines are physical line addresses; `bytes` are the buffered bytes by physical address. -/
structure Tx where
  dst : Nat
  savedExec : Word64
  resume : Word64
  lines : List Nat
  written : List Nat
  site : Option Nat
  bytes : List (Nat × Byte)
  stores : List Nat
deriving DecidableEq, Repr

/-- A group's turn in a commit phase (R328): none, granted to the instruction that ended its quantum, or that instruction has issued. -/
inductive Turn where
  | idle | granted | used
deriving DecidableEq, Repr

/-- A copy given to the mover (R248 to R258), with the descriptor and the shard entries that its probe read (R253). -/
structure Copy where
  uid : Nat
  words : Word64
  /-- 0 CPY, 1 CPYT.load, 2 CPYT.store -/
  kind : Nat
  da : Nat := 0
  sa : Nat := 0
  rowb : Nat := 0
  nrow : Nat := 0
  sstr : Nat := 0
  dstr : Nat := 0
  tw : Nat := 0
  buf : Nat := 0
  e0 : Nat := 0
  e1 : Nat := 0
  coords : List Nat := []
  desc : Nat := 0
  descBytes : List Byte := []
  /-- shard numbers with their die names and bases -/
  shards : List (Nat × Nat × Nat) := []
  transpose : Bool := false
  clip : Bool := false
  bar : Option Nat := none
  /-- its probe has passed (R254), or waits at this fault record -/
  probed : Bool := false
  parked : Option Nat := none
  /-- the stores that a copy with .rel waits for (R255) -/
  relOps : List Nat := []
  /-- the pages that its probe translated, read and written, by number, each with the site that translated it and the place of its first
  byte: they stay translated while the copy runs (R254) -/
  readPages : List (Nat × Nat × Phys) := []
  writePages : List (Nat × Nat × Phys) := []
  /-- a bind conflict that its accesses met (R186) -/
  clash : Option Nat := none
  /-- where it began, the copy offset (R257), and the bytes attributed to its barrier so far (R256) -/
  start : Nat := 0
  offset : Nat := 0
  lowered : Nat := 0
  done : Bool := false
  err : Option Cause := none
  ctime : Nat := 0
deriving DecidableEq, Repr

/-- The place of a feed program (R222): a0 to a7, the loop levels (word of the FLOOP, iterations done, count), and the next word. -/
structure FeedPos where
  a : List Word64
  loops : List (Nat × Nat × Nat)
  pos : Nat
  /-- entries produced so far in each queue -/
  produced : List Nat
deriving DecidableEq, Repr

/-- An entry of a feed queue: its values by lane once its load has returned, the word that pushed it, and the place before that word. -/
structure FeedEntry where
  lanes : Cells 32
  present : Bool
  word : Nat
  at_ : FeedPos
deriving DecidableEq, Repr

/-- A feed program and the group's four queues (R218 to R222). -/
structure Feed where
  prog : Word64
  words : List Word
  qmask : Nat
  place : FeedPos
  running : Bool
  /-- the word at which a failing load ended the program (R221) -/
  failed : Option Nat
  /-- entries to drop after a restore (R222) -/
  skip : List Nat
  queues : List (List FeedEntry)
  /-- uids of the stores that FSYNC waits for (R220), captured when its last entry was popped -/
  syncStores : Option (List Nat)
  parked : Bool
  /-- the first clock in which Fennel serves it: the one after FEED issued (R300) -/
  since : Nat
deriving DecidableEq, Repr

/-- A reported error pending on a counter and the count of further ones (R164). -/
structure RepErr where
  cause : Option Cause
  more : Nat
deriving DecidableEq, Repr

/-- An instruction that pre-emption cancelled at a page fault (R34, R365): its words, its unfinished lanes with their captured operands,
and a value of the whole instruction beside them (the flag of STF, the level or key of a texture read). -/
structure Park where
  words : Word64
  lanes : List LaneAcc
  extra : Word64
deriving DecidableEq, Repr

/-- A group (R15, R38, R41). Vector registers, queues and predicates are cells: register r of lane ℓ is cell 64 r + ℓ. -/
structure Group where
  team : Nat
  grpid : Nat
  width : Nat
  exec : Word64
  p : Cells 64
  v : Cells 32
  q : Cells 32
  hq : Cells 32
  s : Cells 32
  k : Cells 32
  feed : Option Feed
  chz : Nat
  /-- the latest completion time of engine writes retired for the group (R320) -/
  engChz : Nat
  /-- the latest completion time that its reads reported (R318) -/
  readC : Nat
  fpflags : Word
  trapcause : Word
  trapinfo : Word64
  cpoff : Word64
  /-- the number of the youngest copy that an error or a pre-emption has stopped: CPOFF is its offset (R258) -/
  cpofUid : Nat
  handler : Bool
  /-- the address of the current clause's header, its header once dispatched, and the index of the next word (R41, R43) -/
  pc : Word64
  hdr : Option Header
  idx : Nat
  /-- the clause's wait conditions have been met since its dispatch or resumption (R43, R274) -/
  entered : Bool
  wait : Wait
  /-- the values that each h register has held since the clause was dispatched, other than the present one (R28) -/
  hSeen : Table (List Word)
  /-- the same for the clause that a trap interrupted, while its handler runs -/
  hHeld : Table (List Word)
  ops : List Op
  /-- operations and registers that another write has touched since they issued: what the register ends with is unspecified (R21) -/
  contested : List (Nat × Reg)
  /-- LD, ST, TX, MX, CP, CL, SQ (R35) -/
  ctr : List Nat
  repErr : Table RepErr
  wcb : List BufLine
  tx : Option Tx
  /-- ordered mode (R328): the store buffer, the clauses of this quantum, and the group's turn -/
  sbuf : List BufLine
  clauses : Nat
  turn : Turn
  copies : List Copy
  openCopies : List Nat
  brCount : Nat
  brActive : Nat
  sfuUntil : Nat
  ended : Bool
  /-- the operand values of an instruction that parked whole at a page fault: it performs again with these (R163) -/
  captured : Option (List Word64)
  /-- the words of the instruction that the group issued last (R365) -/
  words : Word64
  /-- stopped for a pre-emption or a context error (R363, R364), with the instruction cancelled then -/
  stopped : Bool
  park : Option Park
deriving DecidableEq, Repr

/-- A binding slot of a team (R184 to R187). -/
structure BindSlot where
  gaddr : Word64
  soff : Nat
  len : Nat
  /-- the physical lines of the global range, as translated when the slot was bound -/
  lines : List Nat
deriving DecidableEq, Repr

/-- The owner of a bound line (R186): the team, its slot, the stash offset of the line, and whether it was written since its fill. -/
structure Owner where
  team : Nat
  slot : Nat
  off : Nat
  dirty : Bool
deriving DecidableEq, Repr

/-- A lane's sequence in a slot (R240), with the forced record of its next token once fetched (R245). -/
structure SeqLane where
  member : Bool
  seqid : Word64
  next : Word64
  gen : Word64
  gen0 : Word64
  replay : Bool
  /-- the lane's forced record is being looked up, for the SOPEN.replay of this number or, with 0, after a SEMIT -/
  pending : Bool
  opener : Nat
  forcedRoute : Word
  forcedDigest : Word
  /-- the lane was restored (R370): the lookup of its record leaves GEN and GEN0 as they were saved -/
  keep : Bool
deriving DecidableEq, Repr

/-- A sequence slot of a team (R240). -/
structure SeqSlot where
  isOpen : Bool
  owner : Nat
  lanes : Table SeqLane
deriving DecidableEq, Repr

/-- The A operand of a step, by byte of the matrix record from byte 128 (R202, R216), with the FMT and NS and the words of its MMA. -/
structure AOperand where
  bytes : Cells 8
  fmt : Nat
  ns : Bool
  words : Word64
deriving DecidableEq, Repr

/-- A matrix operation under check or accepted by the engine (R198, R204, R213). -/
structure MxOp where
  uid : Nat
  instr : Instr
  /-- the uniform operands read at issue, from member 0 (R196) -/
  vals : List Word64
  a : Option AOperand
  /-- the next pass of an MMA: step, tile, pass (R204) -/
  step : Nat := 0
  tile : Nat := 0
  pass : Nat := 0
  /-- the B image of the tile step under way (R204) -/
  b : Option (Cells 8) := none
deriving DecidableEq, Repr

/-- A quartet (R194 to R209, R214). -/
structure Quartet where
  /-- the rendezvous latch: the words placed by the members that wait (R196) -/
  latch : Table Word64
  lost : List Nat
  aLatch : Option AOperand
  rte : Cells 64
  /-- the operation whose checks are under way, with the fault record it is parked at (R200) -/
  checking : Option MxOp
  checkRec : Option Nat
  ops : List MxOp
  /-- its long MMA is stopped for a pre-emption (R209) -/
  halted : Bool
  mxrow : Nat
  mxcol : Nat
  mxdep : Nat
deriving DecidableEq, Repr

/-- A write to an h register in a clock that has not ended: the value, and the rank by which the winner of the clock is chosen (R27). -/
structure HWrite where
  value : Word
  rank : Nat
  /-- the groups that wrote in the clock -/
  groups : List Nat
deriving DecidableEq, Repr

/-- A team (R286, R360). -/
structure Team where
  grid : Nat
  ctx : Nat
  teamid : Nat
  site : Nat
  core : Nat
  diename : Nat
  slots : List Nat
  hist : Bool
  width : Nat
  groups : List Nat
  h : Cells 32
  /-- the writes to h registers whose clock has not ended, by 16 · clock + register: they stand from the next clock on (R27, R28, R301) -/
  hNew : Table HWrite
  tiles : Bool
  acc : Cells 32
  accErr : List Nat
  stash : Nat
  binds : Table BindSlot
  bart : Table (List Nat)
  barc : Table (List Nat)
  seqs : Table SeqSlot
  quartets : Table Quartet
  /-- the quartet whose tile step the matrix engine took last (R198) -/
  mxLast : Nat
  /-- the open collective contributions that its end fires have been sent (R414) -/
  ended : Bool
deriving DecidableEq, Repr

/-- A barrel's rotation (R288): its start clock, its length and the positions it visits, each a slot with the team that held it as the
rotation began. -/
structure Rotation where
  start : Nat
  length : Nat
  slots : List (Nat × Nat)
deriving DecidableEq, Repr

/-- A line of a core's constant cache (R159): the launch that filled it, its tag, its physical line and its bytes. -/
structure ConstLine where
  grid : Nat
  asid : Nat
  va : Nat
  pa : Nat
  bytes : Cells 8
deriving DecidableEq, Repr

/-- A core. -/
structure Core where
  l1 : List L1Line
  constLines : List ConstLine
  spareCol : Nat
  test : Bool
  repair : Cells 32
  /-- words of the register-file and stash arrays that DIAGWR has written, by physical row and word (R282) -/
  rf : Table Word
  stashRaw : Table Word
  retired : Bool
  /-- rotations by partition: compute and access (R288) -/
  compute : Table Rotation
  access : Table Rotation
  /-- the group that the access barrel served last, by partition and slot (R295), and the group whose feed program Fennel served last, by
  partition, with the clock in which it did (R221) -/
  served : Table Nat
  fed : Table (Nat × Nat)
deriving DecidableEq, Repr

/-- A translation in a TLB (R381): ASID, the level of its leaf, the page number at that level, and the leaf. -/
structure TlbEntry where
  asid : Nat
  level : Nat
  vpn : Nat
  pte : Word64
deriving DecidableEq, Repr

/-- A tray: its TLB (R381) and its network interface's name cache (R392), youngest last. -/
structure Tray where
  tlb : List TlbEntry
  names : Table Word64
deriving DecidableEq, Repr

/-- A journal record (R241) with the tags it is stored under (R433). -/
structure Record where
  seqid : Word64
  kind : Nat
  token : Nat
  gen : Word64
  route : Word
  digest : Word
  site : Nat
  asid : Nat
deriving DecidableEq, Repr

/-- A record in a Fixer's shadow: the operation it belongs to, and whether the current partner holds it (R434, R436). -/
structure ShadowRec where
  record : Record
  group : Nat
  op : Nat
  arrived : Bool
  acked : Bool
deriving DecidableEq, Repr

/-- The Fixer of a die (R432 to R436). -/
structure Fixer where
  partner : Option Nat
  resending : Bool
  shadow : Table ShadowRec
deriving DecidableEq, Repr

/-- An emission under way (R244): where it goes, its record, the payload, and how far it has got. -/
structure Emission where
  site : Nat
  group : Nat
  op : Nat
  slot : Nat
  ctx : Nat
  rnum : Nat
  record : Record
  payload : List Word
  /-- the stores and the CHZ value that SEMIT.rel holds it for (R244) -/
  relOps : List Nat
  relChz : Option Nat
  recordAcked : Bool
  sent : Bool
  /-- its ring slot is written, and its write index will follow (R438) -/
  written : Bool
  /-- taken by its sink and not yet in its ring or its raster stream (R438, R403) -/
  atSink : Bool
deriving DecidableEq, Repr

/-- The dedup entry of a SEQID at a sink (R439). -/
structure Dedup where
  seqid : Word64
  last : Nat
  digests : List (Nat × Word)
deriving DecidableEq, Repr

/-- A packet of a raster sink (R401): its sequence index, token and payload. -/
structure Prim where
  u : Nat
  token : Nat
  words : List Word
deriving DecidableEq, Repr

/-- A raster sink's frame state (R403, R404). -/
structure Raster where
  cur : Option Nat
  drawing : Bool
  /-- the descriptor and the region map of the current frame, as read when it began -/
  desc : List Byte
  map : List Byte
  c : Nat
  reorder : List Prim
  /-- the sequence indexes whose watermark has arrived -/
  marks : List Nat
  /-- packets passed on in submission order and not yet rasterised -/
  pass : List Prim
  /-- emissions and watermarks of other frames, held unaccepted in order of arrival -/
  held : List (Bool × Nat)
  ctime : Nat
deriving DecidableEq, Repr

/-- A sink configured for a context on a die (R437). -/
structure Sink where
  die : Nat
  ctx : Nat
  number : Nat
  raster : Bool
  slots : Nat
  base : Word64
  dcap : Nat
  dedup : List Dedup
  frame : Raster
deriving DecidableEq, Repr

/-- A watermark under way to a raster sink (R402), with the SCLOSE that sent it. -/
structure Watermark where
  die : Nat
  ctx : Nat
  sink : Nat
  seqid : Word64
  group : Nat
  op : Nat
deriving DecidableEq, Repr

/-- What a context's control register held before its last write: other dies may still use it for 600 ticks (R280). -/
structure CtxWas where
  old : Word64
  tick : Nat
  site : Nat
deriving DecidableEq, Repr

/-- A frame of a replica pool (R380): the page through which it was filled, the master's block, and its bytes. -/
structure Replica where
  asid : Nat
  vblock : Nat
  block : Nat
  bytes : Cells 8
  /-- the completion time of each line's write (R318) -/
  ctimes : List Nat
deriving DecidableEq, Repr

/-- A die: its control registers (R279), caches, tables and engines. -/
structure Die where
  leaselen : Nat
  commthr : Nat
  agewait : Nat
  qtable : Word64
  nametbl : Word64
  dirtytbl : Word64
  dtlb : List TlbEntry
  /-- cached descriptors: (table address, index) and bytes, with their shard entries (R396) -/
  descs : List (Nat × Nat × Cells 8)
  shards : List (Nat × Word64)
  hist : Cells 32
  /-- the lost-site mask (R452), and when each neighbour was last heard -/
  lost : Word64
  heard : Table Nat
  fixer : Fixer
  log : List Record
  /-- where each open sequence of the die has emitted (R402): context, SEQID, die name and sink number -/
  emitted : List (Nat × Word64 × Nat × Nat)
  /-- the replica pool (R380) -/
  replicas : List Replica
  /-- the interleave entries in use on the die, by ASID and 4 KiB page (R379) -/
  ileave : List (Nat × Nat × Word)
  /-- queue numbers last served, and last placed for, at each priority (R356) -/
  lastQueue : Table Nat
  lastPlace : Table Nat
deriving DecidableEq, Repr

/-- A collective binding of a launch (R412). -/
structure Coll where
  kind : Nat
  fmt : Nat
  op : Nat
  rsel : Nat
  csel : Nat
  stream : Bool
  cdesc : Word64
  /-- the collective descriptor as read when the LAUNCH began (R413) -/
  names : List Nat
  src : Word64
  dst : Word64
  rstr : Nat
  chbytes : Nat
  nchunk : Nat
  done : Word64
deriving DecidableEq, Repr

/-- A launch record's fields (R358). -/
structure Launch where
  entry : Word64
  gx : Nat
  gy : Nat
  gz : Nat
  csize : Nat
  groups : Nat
  width : Nat
  tiles : Bool
  ordered : Bool
  quant : Nat
  stash : Nat
  dieset : Word64
  sched : Word64
  schlen : Nat
  setsz : Nat
  desc : Word64
  ndesc : Nat
  save : Word64
  cpycap : Nat
  seqlog : Word64
  sinks : Word64
  colls : Table Coll
  sargs : List Word
deriving DecidableEq, Repr

/-- An active grid (R360 to R362), with its ordered rounds (R328). -/
structure Grid where
  queue : Nat
  pkt : Nat
  ctx : Nat
  launch : Launch
  /-- the live names of DIESET as the LAUNCH began (R360), and the next team to place -/
  names : List Nat
  next : Nat
  /-- teams that have ended, teams whose save is present with their GWIDTH, and the clauses that the groups of those, by global group
  index, have issued in their quantum (R328, R330) -/
  endedTeams : List Nat
  saved : Table Nat
  quanta : Table Nat
  /-- the same groups' place in the round that the save left under way (R330): 1 and 2 a quantum that has ended after Q clauses or before an
  instruction, 3 the instruction of its turn is under way -/
  stood : Table Nat
  /-- the BR instructions that the same groups have issued, and the lanes of EXEC summed over them (R297) -/
  branches : Table (Nat × Nat)
  cursors : Table Nat
  setCore : Table Nat
  round : Nat
  commitTime : Nat
  committing : Bool
  /-- the global indexes of the groups whose turn of this commit phase is over -/
  turns : List Nat
  /-- contributions fired or streamed and not yet taken, chunks not yet written everywhere -/
  openChunks : Nat
  chz : Nat
deriving DecidableEq, Repr

/-- A packet begun and not complete (R351 to R357). -/
structure Packet where
  site : Nat
  queue : Nat
  num : Nat
  kind : Nat
  ctx : Nat
  caddr : Word64
  body : List Byte
  /-- its effect is done: it completes when PACKET_COMPLETE is performed -/
  finished : Bool
  /-- the time that LEASECLK passes before it completes -/
  ctime : Nat
deriving DecidableEq, Repr

/-- A fault record that the device has written and watches (R387 to R389): where it stands, and who is parked at it. -/
structure FaultRec where
  group : Nat
  /-- 0 memory instruction, 1 whole-group instruction or fetch, 2 feed program, 3 copy probe, 4 matrix probe -/
  party : Nat
  va : Word64
  write : Bool
  cause : Nat
  level : Nat
  /-- the die name on which the walk ran, and the site whose name block holds the queue -/
  die : Nat
  site : Nat
  pte : Word64
  /-- TRAPINFO of the trap that a refusal raises (R271) -/
  mask : Word64
  /-- the location of the record once it is claimed and written (R387) -/
  slot : Option Nat
deriving DecidableEq, Repr

/-- A contribution of a rank's chunk (R414). -/
structure Contrib where
  grid : Nat
  team : Nat
  binding : Nat
  rank : Nat
  chunk : Nat
  /-- a streamed contribution carries its tile's bytes and the operation that retires when it is taken -/
  bytes : Option (List Byte)
  quartet : Option (Nat × Nat × Nat)
deriving DecidableEq, Repr

/-- A chunk of a collective (R415): the ranks' inputs taken so far, and whether its results have been written. -/
structure Chunk where
  grid : Nat
  binding : Nat
  chunk : Nat
  inputs : Table (List Byte)
  /-- the teams, quartets and operations of its streamed contributions -/
  ops : List (Nat × Nat × Nat)
  written : Bool
  failed : Bool
  acked : Bool
  ctime : Nat
deriving DecidableEq, Repr

/-- A tile on its way to a die (R214): its bytes, where it goes and which operation it retires. -/
structure Send where
  team : Nat
  quartet : Nat
  op : Nat
  name : Nat
  addr : Word64
  bytes : List Byte
  written : Bool
deriving DecidableEq, Repr

/-- A fabric request outstanding at this panel (R419 to R423). -/
structure FabReq where
  group : Nat
  op : Nat
  lane : Nat
  peer : Nat
  fa : Nat
  asid : Nat
  /-- 0 read, 1 write, 2 add, 3 exchange, 4 compare and swap, 5 flag increment -/
  kind : Nat
  size : Nat
  data : List Byte
  seq : Nat
  sent : Bool
  tick : Nat
  /-- an engine waits for its answer, which is kept for it -/
  keep : Bool
deriving DecidableEq, Repr

/-- A peer panel's answer to a request of an engine: the request's owner, place, kind and size, and the data, none where it was refused. -/
structure FabGot where
  owner : Nat
  peer : Nat
  fa : Nat
  kind : Nat
  size : Nat
  data : Option (List Byte)
  /-- the step under way has used it -/
  used : Bool
deriving DecidableEq, Repr

/-- What a step lacks before it can be taken: a line that the host must give up first (R334), or a peer panel's answer to an engine
(R321, R333, R419). -/
inductive Need where
  | line (line : Nat)
  | peer (owner asid peer fa kind size : Nat) (data : List Byte)
deriving DecidableEq, Repr

/-- A visit of a barrel to a group in the clock under way (R289, R295). -/
structure Visit where
  core : Nat
  part : Nat
  slot : Nat
  access : Bool
  group : Nat
  /-- the group waited as the clock began -/
  waits : Bool
  /-- what the group has done at this visit: nothing, looked at its wait, or dispatched its clause -/
  stage : Nat
deriving DecidableEq, Repr

/-- The flow state kept for a peer (R423). -/
structure Peer where
  cap : Nat
  out : Nat
  base : Nat
  acked : Nat
deriving DecidableEq, Repr

/-- An early arrival of a fabric stream (R421). -/
structure FabIn where
  panel : Nat
  asid : Nat
  fa : Nat
  seq : Nat
  kind : Nat
  data : List Byte
deriving DecidableEq, Repr

/-- What leaves the package to the outside: replies to the host, to a peer panel and to an SPDM requester. -/
inductive Output where
  | hostData (bytes : List Byte)
  | hostDone
  | hostUnsupported
  | fabricAck (panel seq : Nat) (data : List Byte)
  | fabricRefused (panel seq : Nat)
  | spdmAlgorithms (asym hash : Word)
  | spdmUnsupported
  | spdmMeasurement (index : Nat) (value signature : List Byte)
  | candidateRefused
  | candidateWritten
  | snoop (line : Nat)
deriving DecidableEq, Repr

/-- A host write or atomic that waits for LEASECLK to pass the line's lease (R334): 1 a write, 2 an add, 3 an exchange, 4 a compare and
swap. -/
structure HostWrite where
  addr : Nat
  bytes : List Byte
  kind : Nat
deriving DecidableEq, Repr

/-- How the host may hold a line (R334). -/
inductive HostHold where
  | shared | exclusive
deriving DecidableEq, Repr

/-- A block held for Rinse (R456): the packet, the region's entry, the offset in the region, where it goes. -/
structure Held where
  pkt : Nat
  entry : Word64
  offset : Nat
  dst : Word64
  ctx : Nat
deriving DecidableEq, Repr

/-- A CKPT packet whose blocks are draining (R456). -/
structure Drain where
  daddr : Word64
  ctx : Nat
  site : Nat
  /-- the completion time of its blocks' writes -/
  ctime : Nat
deriving DecidableEq, Repr

/-- Whether the package has booted (R462, R468). -/
inductive Phase where
  | unbooted | running | safelight
deriving DecidableEq, Repr

/-- What the scheduler is told to do next: make the k-th visit that is left of this clock, or with none left begin the next clock; let a
group's feed program run a word; let an event happen; let the lanes of a group's accesses take time from now on, or not; let one of its
lanes in flight perform. -/
inductive Action where
  | visit (k : Nat)
  | feed (g : Nat)
  | event (i : Instr)
  | late (g : Nat) (on : Bool)
  | lane (g op lane : Nat)
deriving DecidableEq, Repr

/-- The state of the package. -/
structure State where
  phase : Phase
  /-- arithmetic clocks since LEASECLK began (R8, R462) -/
  clock : Nat
  /-- all bytes of memory by location (Ops: site, tier-2, host and stash locations) -/
  mem : Cells 8
  /-- the lines dirty in the memory-side cache, with the bytes that HBM still holds (R383) -/
  hbmOld : Table (Cells 8)
  /-- the 64-byte units that hold an uncorrectable error (R448) -/
  ueUnits : List Nat
  /-- per line: the latest lease expiry granted, the completion time of its latest write (R317, R318) -/
  leases : Table Nat
  lineC : Table Nat
  owners : Table Owner
  hostHolds : Table HostHold
  /-- the lines for which the home has asked the host, and waits for BIRsp (R334) -/
  snoops : List Nat
  hostWrites : Table HostWrite
  groups : Table Group
  teams : Table Team
  cores : Table Core
  trays : Table Tray
  dies : Table Die
  /-- per context: TRAPVEC, TRAPCTL (R279, R280), and what the device holds of its pre-emption and errors (R363, R364) -/
  trapvec : Cells 64
  trapctl : Cells 32
  vecWas : Table CtxWas
  ctlWas : Table CtxWas
  stopping : List Nat
  discarding : List Nat
  restoring : List Nat
  grids : Table Grid
  packets : Table Packet
  /-- the tick at which each queue's next packet was first able to begin (R356) -/
  ableSince : Table Nat
  faults : Table FaultRec
  emissions : Table Emission
  sinks : Table Sink
  watermarks : Table Watermark
  contribs : Table Contrib
  chunks : Table Chunk
  sends : Table Send
  fabOut : Table FabReq
  fabSeq : Table Nat
  fabIn : List FabIn
  fabNext : Table Nat
  fabGot : List FabGot
  /-- acknowledgements to peer panels, each with the completion time that LEASECLK must have passed (R422) -/
  fabAcks : List (Nat × Output)
  peers : Table Peer
  matching : Nat
  ports : List Nat
  spdmClosed : List Nat
  outputs : List Output
  held : Table Held
  drains : Table Drain
  /-- times of the events that each unit counts (R450), and the units retired or recorded -/
  windows : Table (List Nat)
  retiredUnits : List Nat
  oscFused : List Nat
  siteLost : List Nat
  /-- the bytes of the flash written since shipping, and the append to the retirement log (R466): the bodies to append, the steps of the
  first that are written, and where it goes: its page and slot, its SEQ and the CH of the record before it -/
  flash : Table Byte
  appends : List (List Byte)
  appendStage : Nat
  logPage : Nat
  logSlot : Nat
  logSeq : Nat
  logCh : List Byte
  /-- the boot report as Mboash wrote it (R467) -/
  report : List Byte
  /-- the model's own: the selected group, the actions chosen from outside, the next free number, the draws of free values -/
  cur : Nat
  agenda : List Action
  /-- the model's own: the visits left in this clock; the groups whose accesses take time; what the step under way lacks -/
  visits : List Visit
  late : List Nat
  needs : List Need
  fresh : Nat
  draws : Nat
deriving DecidableEq, Repr

/-- The machine right after reset: unbooted, every memory and table empty (R462), the host ports trained and the fabric at its first
matching. The flash holds what it held before: Log entry 5 (DESIGN CHOICE). -/
def State.reset : State where
  phase := .unbooted
  clock := 0
  mem := []
  hbmOld := []
  ueUnits := []
  leases := []
  lineC := []
  owners := []
  hostHolds := []
  snoops := []
  hostWrites := []
  groups := []
  teams := []
  cores := []
  trays := []
  dies := []
  trapvec := []
  trapctl := []
  vecWas := []
  ctlWas := []
  stopping := []
  discarding := []
  restoring := []
  grids := []
  packets := []
  ableSince := []
  faults := []
  emissions := []
  sinks := []
  watermarks := []
  contribs := []
  chunks := []
  sends := []
  fabOut := []
  fabSeq := []
  fabIn := []
  fabNext := []
  fabGot := []
  fabAcks := []
  peers := []
  matching := 0
  ports := [0, 2]
  spdmClosed := []
  outputs := []
  held := []
  drains := []
  windows := []
  retiredUnits := []
  oscFused := []
  siteLost := []
  flash := []
  appends := []
  appendStage := 0
  logPage := 0
  logSlot := 0
  logSeq := 0
  logCh := []
  report := []
  cur := 0
  agenda := []
  visits := []
  late := []
  needs := []
  fresh := 1
  draws := 0

end Sys2Proof.Machine
end

