-- ==== Sys2Proof/Machine/Ops.lean ====
section
/-!
DEFINITION. The named operations over the machine's finite maps, memory, registers and queues; the end of a group; taking a trap and
returning from one.
-/
namespace Sys2Proof.Machine

/-! ### Finite maps -/

/-- The entry of number k. -/
def tblGet {α : Type} : Table α → Nat → Option α
  | [], _ => none
  | (j, x) :: t, k => if j = k then some x else tblGet t k

/-- The table with the entry v for number k. -/
def tblSet {α : Type} : Table α → Nat → α → Table α
  | [], k, v => [(k, v)]
  | (j, x) :: t, k, v => if k < j then (k, v) :: (j, x) :: t else if k = j then (k, v) :: t else (j, x) :: tblSet t k v

/-- The table without an entry for number k. -/
def tblErase {α : Type} : Table α → Nat → Table α
  | [], _ => []
  | (j, x) :: t, k => if j = k then tblErase t k else (j, x) :: tblErase t k

/-- The table with the entry of k, if it has one, changed by f. -/
def tblUp {α : Type} (t : Table α) (k : Nat) (f : α → α) : Table α :=
  match tblGet t k with
  | some x => tblSet t k (f x)
  | none => t

/-- The numbers that have an entry. -/
def tblKeys {α : Type} (t : Table α) : List Nat := t.map (·.1)

/-- The entries for which f holds of the number and the value. -/
def tblFind {α : Type} (t : Table α) (f : Nat → α → Bool) : Option (Nat × α) := t.find? fun e => f e.1 e.2

/-- The value of cell k: 0 where nothing is listed. -/
def cellGet {w : Nat} (c : Cells w) (k : Nat) : BitVec w := (tblGet c k).getD 0

/-- The cells with cell k at v; a cell at 0 is not listed. -/
def cellSet {w : Nat} (c : Cells w) (k : Nat) (v : BitVec w) : Cells w := if v = 0 then tblErase c k else tblSet c k v

/-- The numbers rise strictly, from above `lo`, and no listed cell is 0. -/
def cellsFrom {w : Nat} : Nat → Cells w → Bool
  | _, [] => true
  | lo, (k, v) :: t => lo ≤ k && v != 0 && cellsFrom (k + 1) t

/-- The canonical form of cells. -/
def cellsWf {w : Nat} (c : Cells w) : Bool := cellsFrom 0 c

/-- The canonical form of memory: locations rise strictly and no listed byte is 0, what an unlisted byte reads as.
Log entry 1 (DESIGN CHOICE). -/
def Memory.wf (m : Cells 8) : Bool := cellsWf m

/-! ### Bytes -/

/-- The byte at a location. -/
def readByte (m : Cells 8) (a : Nat) : Byte := cellGet m a

/-- The n bytes from location a up. -/
def readBytes (m : Cells 8) (a n : Nat) : List Byte := (List.range n).map fun i => readByte m (a + i)

/-- Memory with some bytes written from location a up. -/
def writeBytes : Cells 8 → Nat → List Byte → Cells 8
  | m, _, [] => m
  | m, a, b :: bs => writeBytes (cellSet m a b) (a + 1) bs

/-- The little-endian number of n bytes from location a up (R5). -/
def readNum (m : Cells 8) (a n : Nat) : Nat := leNat (readBytes m a n)

/-- Memory with the n little-endian bytes of v written from location a up (R5). -/
def writeNum (m : Cells 8) (a n v : Nat) : Cells 8 := writeBytes m a (leBytes n v)

/-- A field of some bytes as a number. -/
def bytesNum (bs : List Byte) (off n : Nat) : Nat := leNat ((bs.drop off).take n)

/-! ### Locations (R280, R305)

A byte of a site's HBM has the number of its device address; tier-2, host and stash bytes stand above them. -/

def siteLoc (site addr : Nat) : Nat := site * 2 ^ 50 + addr
def tier2Loc (addr : Nat) : Nat := 2 ^ 56 + addr
def hostLoc (addr : Nat) : Nat := 2 ^ 57 + addr
def stashLoc (team off : Nat) : Nat := 2 ^ 58 + team * 2 ^ 24 + off

/-- A location is a byte of a site's HBM; its site and its site address. -/
def isHbm (loc : Nat) : Bool := loc < 2 ^ 56
def locSite (loc : Nat) : Nat := loc / 2 ^ 50
def locAddr (loc : Nat) : Nat := loc % 2 ^ 50

/-- The 128-byte line of a location. -/
def lineOf (loc : Nat) : Nat := loc / 128

/-- The location that a device address names, none where its use fails (R280). -/
def deviceLoc (s : State) (a : Word64) : Option Nat :=
  let n := a.toNat
  if n / 2 ^ 56 = 0 ∧ n / 2 ^ 36 % 2 ^ 14 = 0 ∧ n / 2 ^ 50 < 48 ∧ (tblGet s.dies (n / 2 ^ 50)).isSome ∧
      s.siteLost.contains (n / 2 ^ 50) = false then some n
  else none

/-! ### Time -/

/-- LEASECLK (R3, R8). Log entry 23 (DESIGN CHOICE). -/
def ticks (s : State) : Nat := s.clock / 4

/-- LEASECLK passes t (R318). -/
def passes (s : State) (t : Nat) : Bool := t + 2 ≤ ticks s

/-! ### Pieces of the state -/

def State.putGroup (s : State) (n : Nat) (g : Group) : State := { s with groups := tblSet s.groups n g }
def State.upGroup (s : State) (n : Nat) (f : Group → Group) : State := { s with groups := tblUp s.groups n f }
def State.upTeam (s : State) (n : Nat) (f : Team → Team) : State := { s with teams := tblUp s.teams n f }
def State.upCore (s : State) (n : Nat) (f : Core → Core) : State := { s with cores := tblUp s.cores n f }
def State.upDie (s : State) (n : Nat) (f : Die → Die) : State := { s with dies := tblUp s.dies n f }
def State.setMem (s : State) (m : Cells 8) : State := { s with mem := m }

/-- A core of a site has this number: 48 cores to a die (R3). -/
def coreNum (site core : Nat) : Nat := site * 48 + core

/-- A tray of a site has this number: three trays of 16 cores (R3). -/
def trayNum (site core : Nat) : Nat := site * 3 + core / 16

def teamOf (s : State) (g : Group) : Option Team := tblGet s.teams g.team

/-- The site of a group's team. -/
def siteOf (s : State) (g : Group) : Nat := ((teamOf s g).map (·.site)).getD 0

/-- The context-table index of a group. -/
def ctxOf (s : State) (g : Group) : Nat := ((teamOf s g).map (·.ctx)).getD 0

/-- The grid of a group's team. -/
def gridOf (s : State) (g : Group) : Option Grid := (teamOf s g).bind fun t => tblGet s.grids t.grid

/-- A group keeps its barrel slot and its registers until it has ended and every counter is 0 (R144). -/
def keepsSlot (s : State) (n : Nat) : Bool := ((tblGet s.groups n).map fun g => !g.ended || g.ops != []).getD false

/-- The slots of a partition that a team uses (R286). -/
def slotsInUse (s : State) (t : Team) (part : Nat) : List Nat :=
  (List.range t.groups.length).filterMap fun i => if i % 4 = part ∧ keepsSlot s (t.groups.getD i 0) then t.slots[i]? else none

/-- The occupied slots of a partition of a core, ascending, each with its team (R288). -/
def occupiedSlots (s : State) (core part : Nat) : List (Nat × Nat) :=
  let used := s.teams.flatMap fun e =>
    if coreNum e.2.site e.2.core = core then (slotsInUse s e.2 part).map fun k => (k, e.1) else []
  (List.range 16).filterMap fun k => used.find? fun x => x.1 == k

/-- The length R of the compute rotation in force in a partition of a core (R288). -/
def rotationLength (s : State) (core part : Nat) : Nat :=
  match (tblGet s.cores core).bind fun c => tblGet c.compute part with
  | some r => r.length
  | none => max 4 (occupiedSlots s core part).length

/-- The selected group makes its move: no group selected is a fault of the model's own. Log entry 82 (DESIGN CHOICE). -/
def onGroup (s : State) (f : Group → State) : Host.Outcome State Fault Refusal :=
  match tblGet s.groups s.cur with
  | some g => .next (f g)
  | none => .fault .noGroup

/-- The word of the selected group cannot issue (R292): where its context is being pre-empted or is in error, this is its stop point (R363,
R364). -/
def stall (s : State) : State :=
  match tblGet s.groups s.cur with
  | none => s
  | some g =>
    if s.stopping.contains (ctxOf s g) || s.discarding.contains (ctxOf s g) then s.putGroup s.cur { g with stopped := true } else s

/-! ### Words and lanes -/

/-- The bits of a pair, the low half first (R19, R25). -/
def pair (lo hi : Word) : Word64 := hi ++ lo

/-- The low and high halves of 64 bits. -/
def lo32 (x : Word64) : Word := x.truncate 32
def hi32 (x : Word64) : Word := (x >>> 32).truncate 32

/-- Ones below GWIDTH (R17). -/
def onesBelow (w : Nat) : Word64 := BitVec.ofNat 64 (2 ^ w - 1)

/-- The lanes of a group that a mask holds, ascending (R12). -/
def lanesOf (w : Nat) (m : Word64) : List Nat := (List.range w).filter fun l => m.getLsbD l

/-- The mask of the lanes below w for which f holds. -/
def maskOf (w : Nat) (f : Nat → Bool) : Word64 :=
  BitVec.ofNat 64 ((List.range w).foldl (fun a l => if f l then a + 2 ^ l else a) 0)

/-- The lowest lane of a mask below w. -/
def lowestLane (w : Nat) (m : Word64) : Option Nat := (lanesOf w m).head?

/-- The number of set bits below w. -/
def countLanes (w : Nat) (m : Word64) : Nat := (lanesOf w m).length

/-- The value of a guard code (R56): a predicate, its complement, or all ones. -/
def guardMask (g : Group) (c : BitVec 5) : Word64 :=
  if c = 15 then BitVec.allOnes 64
  else
    let p := cellGet g.p (c.toNat % 16)
    if c.getLsbD 4 then ~~~p else p

/-- ACTIVE (R16). -/
def active (g : Group) (c : BitVec 5) : Word64 := g.exec &&& guardMask g c

/-- The bits at or above GWIDTH read 0 (R17). -/
def clip (g : Group) (m : Word64) : Word64 := m &&& onesBelow g.width

/-! ### Registers -/

/-- The cell of a register's lane. -/
def laneCell (reg lane : Nat) : Nat := 64 * reg + lane

/-- The free choice of a read of a pending register (R20): the value before, or what an outstanding access that has been performed will
write there. -/
def pendingRead (draws : Nat) (ops : List Op) (r : Reg) (idx : Nat) (old : Word) : Word :=
  let written := ops.filterMap fun o => (o.writes.find? fun w => w.1 == r).map (·.2)
  if written = [] then old else (old :: written).getD (Config.freeIndex draws idx % (written.length + 1)) old

/-- The index of free values for source position `pos` of an instruction, at cell k. -/
def readIdx (pos k : Nat) : Nat := 16384 * pos + k

/-- Lane ℓ of vr as an instruction reads it at source position pos (R15, R20). -/
def readV (draws pos : Nat) (g : Group) (r l : Nat) : Word :=
  pendingRead draws g.ops (.v r l) (readIdx pos (laneCell r l)) (cellGet g.v (laneCell r l))

/-- The number of the cell of sr: in handler mode s0 to s7 address k0 to k7 (R39). -/
def readSRaw (g : Group) (r : Nat) : Word := if g.handler && r < 8 then cellGet g.k r else cellGet g.s r

/-- The register that sr names: in handler mode kr for s0 to s7 (R39). -/
def sReg (g : Group) (r : Nat) : Reg := if g.handler && r < 8 then .k r else .s r

/-- sr as an instruction reads it (R20, R39). -/
def readS (draws pos : Nat) (g : Group) (r : Nat) : Word :=
  pendingRead draws g.ops (sReg g r) (readIdx pos (8192 + r)) (readSRaw g r)

/-- A lane of the result queue's entry i: in handler mode the handler queue (R22, R39). -/
def readQ (g : Group) (i l : Nat) : Word := cellGet (if g.handler then g.hq else g.q) (laneCell i l)

/-- hr as a group reads it: the value that it holds when the clock begins, or in a clause under way any value held since the clause's first
instruction issued (R28). -/
def readH (s : State) (pos : Nat) (g : Group) (r : Nat) : Word :=
  let now := cellGet (((teamOf s g).map (·.h)).getD []) r
  let seen := (tblGet g.hSeen r).getD []
  pendingRead s.draws g.ops (.h r) (readIdx pos (8256 + r))
    (if seen = [] then now else (now :: seen).getD (Config.freeIndex s.draws (readIdx pos (8320 + r)) % (seen.length + 1)) now)

/-- The cells with register r at f in the lanes of a mask. -/
def setLanes (c : Cells 32) (r w : Nat) (m : Word64) (f : Nat → Word) : Cells 32 :=
  (lanesOf w m).foldl (fun c l => cellSet c (laneCell r l) (f l)) c

/-- The registers among some that outstanding operations will write as well, with those operations (R21). -/
def contestedBy (g : Group) (rs : List Reg) : List (Nat × Reg) :=
  g.ops.flatMap fun o => (rs.filter fun r => o.dests.contains r).map fun r => (o.uid, r)

/-- vr := f in the lanes of a mask (R16, R21). -/
def writeV (g : Group) (r : Nat) (m : Word64) (f : Nat → Word) : Group :=
  { g with v := setLanes g.v r g.width m f, contested := g.contested ++ contestedBy g ((lanesOf g.width m).map (.v r)) }

/-- sr := x (R21, R25, R39). -/
def writeS (g : Group) (r : Nat) (x : Word) : Group :=
  let g1 := { g with contested := g.contested ++ contestedBy g [sReg g r] }
  if g.handler && r < 8 then { g1 with k := cellSet g.k r x } else { g1 with s := cellSet g.s r x }

/-- A 64-bit value in an even pair of uniform registers, low half first (R25). -/
def writeS64 (g : Group) (r : Nat) (x : Word64) : Group := writeS (writeS g r (lo32 x)) (r + 1) (hi32 x)

/-- A predicate := m, its bits at or above GWIDTH dropped (R17, R18). -/
def writeP (g : Group) (p : Nat) (m : Word64) : Group := { g with p := cellSet g.p p (clip g m) }

/-- EXEC := m, its bits at or above GWIDTH dropped (R17). -/
def writeExec (g : Group) (m : Word64) : Group := { g with exec := clip g m }

/-- A write comes from the compute barrel: the instruction that issues stands in an ALU clause (R45). -/
def fromCompute (g : Group) (landing : Bool) : Bool := !landing && ((g.hdr.map fun h => h.cls == .alu).getD false)

/-- The rank of a write to an h register among those of one clock (R27): an issuing instruction above a landing, then the partition, then
the compute barrel above the access barrel, then the group index. -/
def hRank (g : Group) (landing : Bool) : Nat :=
  (if landing then 0 else 512) + 128 * (g.grpid % 4) +
    (if fromCompute g landing then 64 else 0) + g.grpid % 64

/-- A write to an h register joins those of its clock: the higher rank stands (R27), and of one group the later. -/
def hJoin (now : Option HWrite) (n rank : Nat) (x : Word) : HWrite :=
  match now with
  | none => { value := x, rank := rank, groups := [n] }
  | some w => { value := if w.rank ≤ rank then x else w.value, rank := max w.rank rank, groups := n :: w.groups }

/-- The clock in which a write to an h register stands: for an instruction of the compute barrel the clock after its issue, else the clock
under way (R293, R301). -/
def hDue (s : State) (g : Group) (landing : Bool) : Nat := if fromCompute g landing then s.clock + 1 else s.clock

/-- The number of the entry of hr among the writes that stand in clock c. -/
def hKey (c r : Nat) : Nat := 16 * c + r % 16

/-- hr := x by group n, once the clock of the write has ended (R26 to R28, R301). -/
def writeHAs (s : State) (n : Nat) (landing : Bool) (r : Nat) (x : Word) : State :=
  match tblGet s.groups n with
  | none => s
  | some g =>
    let k := hKey (hDue s g landing) r
    s.upTeam g.team fun t => { t with hNew := tblSet t.hNew k (hJoin (tblGet t.hNew k) n (hRank g landing) x) }

/-- hr := x by an instruction of group n that issues: what outstanding operations of the team write there is in doubt (R21). -/
def writeH (s : State) (n : Nat) (r : Nat) (x : Word) : State :=
  match tblGet s.groups n with
  | none => s
  | some g =>
    writeHAs { s with groups := s.groups.map fun e =>
      if e.2.team = g.team then (e.1, { e.2 with contested := e.2.contested ++ contestedBy e.2 [.h r] }) else e } n false r x

/-- The values before that a group may still read of h registers (R28), when the writes ws of a clock stand. -/
def hNote (n : Nat) (old : Nat → Word) (ws : Table HWrite) (seen : Table (List Word)) : Table (List Word) :=
  ws.foldl (fun t e =>
    let r := e.1 % 16
    if e.2.groups.contains n then tblErase t r else tblSet t r (old r :: (tblGet t r).getD [])) seen

/-- The clock ends: its writes stand in the h registers of team n, those of its winners (R27). The groups that wrote read them next; for
the others the values before remain possible in their clauses under way (R28). -/
def settleH (s : State) (n : Nat) (t : Team) : State :=
  let due := t.hNew.filter fun e => e.1 / 16 ≤ s.clock
  if due = [] then s
  else
    let old (r : Nat) : Word := cellGet t.h r
    { (s.upTeam n fun t =>
        { t with
          h := due.foldl (fun h e => cellSet h (e.1 % 16) e.2.value) t.h
          hNew := t.hNew.filter fun e => !decide (e.1 / 16 ≤ s.clock) }) with
      groups := s.groups.map fun e =>
        if e.2.team ≠ n then e
        else (e.1, { e.2 with hSeen := hNote e.1 old due e.2.hSeen, hHeld := hNote e.1 old due e.2.hHeld }) }

/-- A uniform destination code 0 to 47 := x (R63). -/
def writeU (s : State) (n : Nat) (d : Nat) (x : Word) : State :=
  if d < 32 then s.upGroup n fun g => writeS g d x else writeH s n (d - 32) x

/-- A push (R22): the entry becomes q0, the others age by one, q15 is discarded. -/
def pushed (q : Cells 32) (w : Nat) (f : Nat → Word) : Cells 32 :=
  ((List.range (min w 64)).filterMap fun l => if f l = 0 then none else some (l, f l)) ++
    (q.filterMap fun e => if e.1 + 64 < 1024 then some (e.1 + 64, e.2) else none)

/-- A push onto the group's result queue, or in handler mode onto the handler queue (R22, R39). -/
def push (g : Group) (f : Nat → Word) : Group :=
  if g.handler then { g with hq := pushed g.hq g.width f } else { g with q := pushed g.q g.width f }

/-! ### Feed queues -/

/-- The entries of feed queue i. -/
def feedQueue (g : Group) (i : Nat) : List FeedEntry := ((g.feed.map (·.queues)).getD []).getD i []

/-- The group with n entries removed from feed queue i (R29). -/
def popFeed (g : Group) (i n : Nat) : Group :=
  { g with feed := g.feed.map fun f => { f with queues := f.queues.set i ((f.queues.getD i []).drop n) } }

/-! ### Counters -/

def Counter.ident : Counter → Nat
  | .ld => 1 | .st => 2 | .tx => 3 | .mx => 4 | .cp => 5 | .cl => 6 | .sq => 7

/-- The counter of an identifier of R32. -/
def counterOf : Nat → Option Counter
  | 1 => some .ld | 2 => some .st | 3 => some .tx | 4 => some .mx | 5 => some .cp | 6 => some .cl | 7 => some .sq
  | _ => none

/-- The value of the counter with identifier i: the operations issued and not yet retired (R33). -/
def counter (g : Group) (i : Nat) : Nat := g.ctr.getD (i - 1) 0

/-- A counter at 63 cannot be raised (R33). -/
def counterFull (g : Group) (c : Counter) : Bool := 63 ≤ counter g c.ident

/-- The counter with identifier i set to v. -/
def setCounter (g : Group) (i v : Nat) : Group := { g with ctr := g.ctr.set (i - 1) v }

/-- CTR (R35). -/
def ctrWord (g : Group) : Word64 :=
  BitVec.ofNat 64 ((List.range 7).foldl (fun a i => a + counter g (i + 1) * 2 ^ (6 * i)) 0)

/-- A counted instruction raises its counter, its operation the youngest (R33). -/
def issueOp (g : Group) (o : Op) : Group :=
  { setCounter g o.ctr.ident (counter g o.ctr.ident + 1) with ops := g.ops ++ [o] }

/-- The operation with number uid. -/
def findOp (g : Group) (uid : Nat) : Option Op := g.ops.find? (·.uid == uid)

/-- The group with operation uid changed by f. -/
def upOp (g : Group) (uid : Nat) (f : Op → Op) : Group :=
  { g with ops := g.ops.map fun o => if o.uid = uid then f o else o }

/-- A reported error found on a counter: the first pends, further ones are counted (R164). -/
def reportErr (g : Group) (c : Counter) (e : Cause) : Group :=
  let r := (tblGet g.repErr c.ident).getD { cause := none, more := 0 }
  let r1 : RepErr := match r.cause with
    | none => { cause := some e, more := 0 }
    | some _ => { r with more := r.more + 1 }
  { g with repErr := tblSet g.repErr c.ident r1 }

/-- A fresh number for an operation, record or request. -/
def State.bump (s : State) : State := { s with fresh := s.fresh + 1 }

/-! ### The group's place in its code -/

/-- The group goes to the clause whose header stands at a (R41). -/
def goto (g : Group) (a : Word64) : Group := { g with pc := a, hdr := none, idx := 0, entered := false, captured := none }

/-- The number of words of the current clause. -/
def clauseCount (g : Group) : Nat := (g.hdr.map (·.count)).getD 0

/-- The address of word i of the current clause (R41). -/
def wordAddr (g : Group) (i : Nat) : Word64 := g.pc + 4 + BitVec.ofNat 64 (4 * i)

/-- The header after the current clause (R41). -/
def nextHeader (g : Group) : Word64 := wordAddr g (clauseCount g)

/-- The instruction of n words has issued: the next word of the clause, or at its end the next header (R41, R47). An instruction that a
restore performs again ends before its clause is dispatched (R370). -/
def advance (n : Nat) (g : Group) : Group :=
  if g.hdr.isNone then { g with idx := g.idx + n, captured := none }
  else if clauseCount g ≤ g.idx + n then { goto g (nextHeader g) with clauses := g.clauses + 1 }
  else { g with idx := g.idx + n, entered := true, captured := none }

/-- The operands of an instruction that acts for the whole group: those that it captured when it parked at a page fault, else as it reads
them now (R163). -/
def operands (g : Group) (now : List Word64) : List Word64 := g.captured.getD now

/-- A control transfer, the last word of its clause, to the header at a (R47). -/
def transfer (a : Word64) (g : Group) : Group := { goto g a with clauses := g.clauses + 1 }

/-! ### The context's error (R345, R363) -/

/-- The location of entry c of the context table, through QTABLE of a site (R344). -/
def ctxEntry (s : State) (site c : Nat) : Option Nat :=
  ((tblGet s.dies site).bind fun d => deviceLoc s d.qtable).map fun b => b + 64 * c

/-- ERR and ERRCAUSE of a context: the first cause is kept (R363). Every team of the context then stops and is discarded. -/
def contextError (s : State) (site c kind code running : Nat) : State :=
  let s1 := { s with discarding := if s.discarding.contains c then s.discarding else c :: s.discarding }
  match ctxEntry s site c with
  | none => s1
  | some e =>
    let flags := readNum s.mem (e + 10) 1
    if flags / 16 % 2 = 1 then s1
    else
      { s1 with mem := writeNum (writeNum s.mem (e + 10) 1 (flags + 16)) (e + 12) 4 (running * 65536 + kind * 256 + code) }

/-! ### The end of a group (R144) -/

/-- The members of the group's team that have not ended. -/
def liveMembers (s : State) (team : Nat) : List Nat :=
  (((tblGet s.teams team).map (·.groups)).getD []).filter fun n => ((tblGet s.groups n).map (fun g => !g.ended)).getD false

/-- The group's transaction discards its buffer; its stores write nothing and are complete, and the access that it was performing goes no
further (R191). -/
def dropTx (g : Group) : Group :=
  match g.tx with
  | none => g
  | some t =>
    { g with
      tx := none
      ops := g.ops.map fun o =>
        if t.stores.contains o.uid || (o.stage == .issued && o.kind.isSome) then { o with stage := .complete, lanes := [] } else o }

/-- The reported errors that pend when a group ends are logged against its context (R164). -/
def logPending (s : State) (n : Nat) : State :=
  match tblGet s.groups n with
  | none => s
  | some g =>
    match (List.range 8).findSome? fun c => (tblGet g.repErr c).bind (·.cause) with
    | some e => contextError (s.putGroup n { g with repErr := [] }) (siteOf s g) (ctxOf s g) 2 e.code 0
    | none => s

/-- The divergence history entry of a kernel: its index and tag (R297). -/
def histIndex (entry : Word64) : Nat := entry.toNat / 2 ^ 7 % 256
def histTag (entry : Word64) : Nat := entry.toNat / 2 ^ 15 % 2 ^ 15

/-- A group of a hist team ends: FRAC moves an eighth of the way towards its mean active fraction (R297). -/
def histUpdate (s : State) (g : Group) : State :=
  match teamOf s g, gridOf s g with
  | some t, some gr =>
    let i := histIndex gr.launch.entry
    let e := (cellGet (((tblGet s.dies t.site).map (·.hist)).getD []) i).toNat
    if !t.hist || g.brCount = 0 || e / 2 ^ 16 % 2 ^ 15 ≠ histTag gr.launch.entry then s
    else
      let f := e % 256
      let m := min 255 (256 * g.brActive / (g.brCount * g.width))
      s.upDie t.site fun d => { d with hist := cellSet d.hist i (BitVec.ofNat 32 (e - f + (f - f / 8 + m / 8) % 256)) }
  | _, _ => s

/-- The operations of a group that ends: the lookups of its SOPEN.replay end with its slots (R243). -/
def endOps (g : Group) : List Op :=
  g.ops.map fun o => if o.ctr = .sq ∧ o.slot ≠ 0 then { o with stage := .complete, need := 0 } else o

/-- A group ends: it issues no further instruction, an open transaction is discarded, an open copy group is closed (R144, R191, R259),
its feed program ends, its sequence slots are released (R243), its pending errors are logged, and its team's divergence history is updated.
Quartet members that wait for it learn of it at their latch (R196). -/
def endGroup (s : State) (n : Nat) : State :=
  match tblGet s.groups n with
  | none => s
  | some g =>
    let g1 := dropTx g
    let s1 := histUpdate (s.putGroup n { g1 with ended := true, wait := .none, handler := false, feed := none, ops := endOps g1 }) g
    logPending (s1.upTeam g.team fun t =>
      { t with
        quartets := tblUp t.quartets (g.grpid / 4) fun q => { q with lost := g.grpid % 4 :: q.lost }
        seqs := t.seqs.filter fun e => e.2.owner != n }) n

/-! ### Transactions abort (R190, R191) -/

/-- The abort code (R190). Log entry 11 (DEDUCED). -/
def abortCode (t : Tx) (cause detail : Nat) : Word := BitVec.ofNat 32 (cause + 256 * detail + 65536 * t.lines.length)

/-- The transaction of group g aborts: the buffer is discarded, EXEC restored, the code written, and the group resumes at the header
after the TXBEGIN's clause. -/
def abortTx (cause detail : Nat) (g : Group) : Group :=
  match g.tx with
  | none => g
  | some t =>
    let g1 := { dropTx g with exec := t.savedExec, wait := .none }
    goto (writeS g1 t.dst (abortCode t cause detail)) t.resume

/-! ### Traps (R270 to R277) -/

/-- The SMALL layout of TRAPINFO (R272). -/
def small (n : Nat) : Word64 := BitVec.ofNat 64 (n % 2 ^ 32)

/-- The LADDR layout: the lowest offending lane and its address (R272). -/
def laddr (lane : Nat) (a : Word64) : Word64 := BitVec.ofNat 64 (lane * 2 ^ 58 + a.toNat % 2 ^ 56)

/-- The WORD layout (R272). -/
def wordInfo (w0 w1 : Nat) : Word64 := BitVec.ofNat 64 (w0 % 2 ^ 32 + 2 ^ 32 * (w1 % 2 ^ 32))

/-- TRAPVEC names a handler: nonzero, a multiple of 4, in the global window (R276). -/
def vecOk (v : Word64) : Bool := v != 0 && v.toNat % 4 == 0 && decide (v.toNat < 0xFC * 2 ^ 48)

/-- The group enters handler mode at the clause at vec, to resume at word idx of its clause (R273). `word` is TRAPCAUSE. -/
def enterHandler (vec : Word64) (word : Word) (info : Word64) (idx : Nat) (g : Group) : Group :=
  let k0 := cellSet (cellSet g.k 0 (lo32 g.pc)) 1 (hi32 g.pc)
  let k2 := cellSet (cellSet k0 2 (BitVec.ofNat 32 idx)) 3 word
  let k4 := cellSet (cellSet k2 4 (lo32 g.exec)) 5 (hi32 g.exec)
  goto { g with
    trapcause := word
    trapinfo := info
    hq := []
    k := k4
    exec := onesBelow g.width
    handler := true
    wait := .none
    hHeld := g.hSeen } vec

/-- A double fault: the group is killed as if by EXIT and its context is marked in error (R276, R363). -/
def doubleFault (s : State) (n : Nat) (code : Nat) : State :=
  match tblGet s.groups n with
  | none => s
  | some g =>
    endGroup (contextError s (siteOf s g) (ctxOf s g) 1 code (if g.handler then (cellGet g.k 3).toNat % 256 else 0)) n

/-- A context's register as a die uses it: elsewhere than on the writing die, either value for 600 ticks after a write (R280).
Log entry 28 (DEDUCED). -/
def ctxReg (s : State) (now : Word64) (was : Option CtxWas) (site idx : Nat) : Word64 :=
  match was with
  | some w => if w.site ≠ site ∧ ticks s ≤ w.tick + 600 ∧ Config.freeBool s.draws (readIdx 11 idx) = true then w.old else now
  | none => now

/-- TRAPVEC of a context on a die. -/
def trapVec (s : State) (site c : Nat) : Word64 := ctxReg s (cellGet s.trapvec c) (tblGet s.vecWas c) site 0

/-- TRAPCTL.BKEN of a context on a die. -/
def bkEnabled (s : State) (site c : Nat) : Bool :=
  (ctxReg s ((cellGet s.trapctl c).setWidth 64) (tblGet s.ctlWas c) site 1).getLsbD 0

/-- Group n takes the trap with TRAPCAUSE `word`, to resume at word idx of its clause (R273). In a transaction the abort takes its
place (R190). -/
def trapWord (s : State) (n : Nat) (word : Word) (info : Word64) (idx : Nat) : State :=
  match tblGet s.groups n with
  | none => s
  | some g =>
    if g.tx.isSome then s.putGroup n (abortTx 3 0 g)
    else
      let vec := trapVec s (siteOf s g) (ctxOf s g)
      if g.handler || !vecOk vec then doubleFault s n (word.toNat % 256)
      else s.putGroup n (enterHandler vec word info idx g)

/-- Group n takes a trap that resumes at the trapping word (R271). -/
def trapAt (s : State) (n code : Nat) (info : Word64) : State :=
  trapWord s n (BitVec.ofNat 32 code) info (((tblGet s.groups n).map (·.idx)).getD 0)

/-- Group n takes a trap that resumes after the trapping word (R271). -/
def trapAfter (s : State) (n code : Nat) (info : Word64) : State :=
  trapWord s n (BitVec.ofNat 32 code) info (((tblGet s.groups n).map (·.idx)).getD 0 + 1)

/-- Group n takes a reported error that pended on the counter with identifier c, at the word that waits (R164, R270).
Log entry 88 (DEDUCED). -/
def raiseReported (s : State) (n c : Nat) : State :=
  match tblGet s.groups n with
  | none => s
  | some g =>
    match tblGet g.repErr c with
    | some { cause := some e, more } =>
      let s1 := s.putGroup n { g with repErr := tblErase g.repErr c }
      trapWord s1 n (BitVec.ofNat 32 (e.code + 256 + (if more = 0 then 0 else 512))) e.info g.idx
    | _ => s

/-- The reported error with the lowest counter identifier among those named (R277). -/
def pendingErr (g : Group) (ids : List Nat) : Option Nat :=
  (List.range 8).find? fun c => ids.contains c && ((tblGet g.repErr c).bind (·.cause)).isSome

/-- Return from a handler (R274): handler mode is left, EXEC := k4:k5, and the group resumes at word k2 of the clause whose header
`h` stands at k0:k1, or with k2 equal to COUNT at the next header. Log entry 27 (DEDUCED). -/
def returnFrom (h : Header) (g : Group) : Group :=
  let pc := pair (cellGet g.k 0) (cellGet g.k 1)
  let idx := (cellGet g.k 2).toNat
  let g1 := { g with handler := false, exec := clip g (pair (cellGet g.k 4) (cellGet g.k 5)), hSeen := g.hHeld, hHeld := [] }
  if idx = h.count then goto g1 (pc + 4 + BitVec.ofNat 64 (4 * h.count))
  else { g1 with pc := pc, hdr := some h, idx := idx, entered := false }

/-- k2 lies beyond the clause, or k0:k1 is not aligned: a trap inside the handler (R274). -/
def returnBad (h : Header) (g : Group) : Bool :=
  decide (h.count < (cellGet g.k 2).toNat) || (cellGet g.k 0).toNat % 4 != 0

end Sys2Proof.Machine
end

