-- ==== Sys2Proof/Machine/Barrel.lean ====
section
/-!
DEFINITION. The barrels (R286 to R295): the rotations of a partition over its occupied slots, and the visits that a clock makes.
-/
namespace Sys2Proof.Machine

/-- A rotation over some slots (R288). -/
def rotationAt (start : Nat) (slots : List (Nat × Nat)) : Rotation := { start := start, length := max 4 slots.length, slots := slots }

/-- The rotation, if there is one, has ended before clock t. -/
def rotationOver (r : Option Rotation) (t : Nat) : Bool := (r.map fun x => decide (x.start + x.length ≤ t)).getD true

/-- A compute rotation begins at clock t: the rotations follow one another without a gap, those over no slot having 4 positions (R288). -/
def computeDue (r : Option Rotation) (t : Nat) : Bool :=
  match r with
  | some x => decide (x.start + x.length ≤ t) && (t - (x.start + x.length)) % 4 == 0
  | none => t % 4 == 0

/-- An access rotation begins at clock t: half a compute rotation after it began, if the access rotation before has ended (R288, R289). -/
def accessDue (c : Core) (part t : Nat) : Bool :=
  match tblGet c.compute part with
  | some r => r.start + r.length / 2 == t && rotationOver (tblGet c.access part) t
  | none => false

/-- A barrel of a partition begins the rotation that is due in the clock under way (R288, R289). -/
def startRotation (core part : Nat) (access : Bool) (s : State) : State :=
  match tblGet s.cores core with
  | none => s
  | some c =>
    if access then
      (if accessDue c part s.clock then
        s.upCore core fun c =>
          { c with access := ((tblGet c.compute part).map fun r => tblSet c.access part { r with start := s.clock }).getD c.access }
      else s)
    else if computeDue (tblGet c.compute part) s.clock then
      s.upCore core fun c => { c with compute := tblSet c.compute part (rotationAt s.clock (occupiedSlots s core part)) }
    else s

/-- ROTATION_START (R288, R289). Log entry 81 (DESIGN CHOICE). -/
def execRotationStart (core : Nat) (part : Nat) (access : Bool) (s : State) : Host.Outcome State Fault Refusal :=
  .next (startRotation core part access s)

/-! ### The visits of a clock (R289, R290, R295) -/

/-- The slot that a rotation visits in a clock, with its team. -/
def visited (r : Rotation) (clock : Nat) : Option (Nat × Nat) := if r.start ≤ clock then r.slots[clock - r.start]? else none

/-- The groups of a team in a slot of a partition, ascending, that have not ended (R286). -/
def groupsAt (s : State) (team part slot : Nat) : List Nat :=
  match tblGet s.teams team with
  | none => []
  | some t =>
    (List.range t.groups.length).filterMap fun i =>
      let n := t.groups.getD i 0
      if i % 4 = part ∧ t.slots[i]? = some slot ∧ ((tblGet s.groups n).map fun g => !g.ended).getD false then some n else none

/-- The groups of a slot in the order in which an access visit looks at them: round from the one after the last that it served (R295). -/
def servedOrder (last : Option Nat) (ns : List Nat) : List Nat :=
  match last with
  | some m => ns.filter (fun n => decide (m < n)) ++ ns.filter fun n => !decide (m < n)
  | none => ns

/-- The number of a slot of a partition among those of its core. -/
def slotKey (part slot : Nat) : Nat := part * 16 + slot

/-- The visits of a barrel of a partition in the clock under way. -/
def barrelVisits (s : State) (core part : Nat) (access : Bool) (c : Core) : List Visit :=
  match (tblGet (if access then c.access else c.compute) part).bind fun r => visited r s.clock with
  | none => []
  | some (slot, team) =>
    let ns := groupsAt s team part slot
    (if access then servedOrder (tblGet c.served (slotKey part slot)) ns else ns).map fun n =>
      { core, part, slot, access, group := n, waits := ((tblGet s.groups n).map fun g => g.wait != .none).getD false, stage := 0 }

/-- The visits of the clock under way on a core: partition by partition, the compute barrel's before the access barrel's. -/
def coreVisits (s : State) (core : Nat) : List Visit :=
  match tblGet s.cores core with
  | some c => (List.range 4).flatMap fun p => barrelVisits s core p false c ++ barrelVisits s core p true c
  | none => []

/-- The cores that hold a team. -/
def busyCores (s : State) : List Nat := (s.teams.map fun e => coreNum e.2.site e.2.core).eraseDups

/-- The barrels of a core begin the rotations that are due. -/
def turnBarrels (s : State) (core : Nat) : State :=
  (List.range 4).foldl (fun s p => startRotation core p true (startRotation core p false s)) s

/-- The barrels go on to the clock under way, and its visits are listed. -/
def beginVisits (s : State) : State :=
  let ks := busyCores s
  let s1 := ks.foldl turnBarrels s
  { s1 with visits := ks.flatMap (coreVisits s1) }

/-- A clause of a class runs on the access barrel (R45). -/
def onAccess (c : Class) : Bool := !(c == .alu || c == .mtx)

/-- The visits that are left once group n has issued at visit v: an access visit serves one group (R295). -/
def restVisits (v : Visit) (vs : List Visit) : List Visit :=
  if v.access then vs.filter fun x => !(x.access && x.core == v.core && x.part == v.part && x.slot == v.slot) else vs

/-- Group n has issued at visit v: the slot's access barrel has served it. -/
def noteServed (v : Visit) (s : State) : State :=
  if v.access then
    { s.upCore v.core (fun c => { c with served := tblSet c.served (slotKey v.part v.slot) v.group }) with visits := restVisits v s.visits }
  else s

end Sys2Proof.Machine
end

