-- ==== Sys2Proof/Machine/Fp.lean ====
section
/-!
DEFINITION. Number formats and exact arithmetic (R82 to R107): the value of a code, one conversion with its flags, and the operations
and sum orders built on it. Everything is computed exactly over fractions of naturals and rounded once.
-/
namespace Sys2Proof.Machine.Fp

/-- A floating-point format: exponent and fraction widths, bias, and whether its top exponent holds infinities and NaNs (R82, R85). -/
structure Fmt where
  exp : Nat
  frac : Nat
  bias : Nat
  ieee : Bool
deriving DecidableEq, Repr

def f32 : Fmt := ⟨8, 23, 127, true⟩
def f16 : Fmt := ⟨5, 10, 15, true⟩
def bf16 : Fmt := ⟨8, 7, 127, true⟩
def k8 : Fmt := ⟨4, 3, 8, false⟩
def k8w : Fmt := ⟨5, 2, 16, false⟩
def k4 : Fmt := ⟨2, 1, 1, false⟩

/-- The width of a format in bits. -/
def Fmt.width (f : Fmt) : Nat := 1 + f.exp + f.frac

/-- The largest finite magnitude code of a format. -/
def Fmt.maxMag (f : Fmt) : Nat := if f.ieee then (2 ^ f.exp - 1) * 2 ^ f.frac - 1 else 2 ^ (f.exp + f.frac) - 1

/-- The canonical NaN (R83). -/
def Fmt.canon (f : Fmt) : Nat := (2 ^ f.exp - 1) * 2 ^ f.frac + 2 ^ (f.frac - 1)

/-- An exact value: a NaN, an infinity, or the signed magnitude num / den, den not 0. -/
inductive Val where
  | nan (signalling : Bool)
  | inf (neg : Bool)
  | fin (neg : Bool) (num den : Nat)
deriving DecidableEq, Repr

/-- The flags of FPFLAGS (R37) that an operation raises. -/
abbrev Flags := Nat
def NV : Flags := 1
def DZ : Flags := 2
def OF : Flags := 4
def UF : Flags := 8
def NX : Flags := 16
def SAT : Flags := 32
def NB : Flags := 64

/-- Both sets of flags. -/
def both (a b : Flags) : Flags := a ||| b

/-- num · 2^e as a fraction. -/
def scaled (neg : Bool) (num den : Nat) (e : Int) : Val :=
  if 0 ≤ e then .fin neg (num * 2 ^ e.toNat) den else .fin neg num (den * 2 ^ (-e).toNat)

/-- value(code, fmt) (R82, R85). -/
def value (f : Fmt) (code : Nat) : Val :=
  let m := code % 2 ^ f.frac
  let e := code / 2 ^ f.frac % 2 ^ f.exp
  let s := code / 2 ^ (f.frac + f.exp) % 2 == 1
  if f.ieee && e == 2 ^ f.exp - 1 then
    if m = 0 then .inf s else .nan (m / 2 ^ (f.frac - 1) == 0)
  else if e = 0 then scaled s m 1 (1 - (f.bias : Int) - f.frac)
  else scaled s (2 ^ f.frac + m) 1 ((e : Int) - f.bias - f.frac)

/-- An integer as an exact value. -/
def ofInt (i : Int) : Val := .fin (decide (i < 0)) i.natAbs 1

/-! ### Rounding (R90, R91) -/

/-- Whether |x| = k + rem/den, between k and k + 1, takes k + 1 in a rounding mode. -/
def roundsUp (rm : Nat) (neg : Bool) (k rem den r : Nat) : Bool :=
  rem != 0 &&
    match rm with
    | 0 => den < 2 * rem || (2 * rem == den && k % 2 == 1)
    | 1 => false
    | 2 => neg
    | 3 => !neg
    | _ => r < rem * 2 ^ 32 / den

/-- |x| in units of 2^q: the integer below, and the remainder over the divisor. -/
def inUnits (num den : Nat) (q : Int) : Nat × Nat × Nat :=
  let n := if 0 ≤ q then num else num * 2 ^ (-q).toNat
  let d := if 0 ≤ q then den * 2 ^ q.toNat else den
  (n / d, n % d, d)

/-- The number of whole units of 2^q that |x| rounds to, and whether that is exact. -/
def roundUnits (rm : Nat) (neg : Bool) (num den : Nat) (q : Int) (r : Nat) : Nat × Bool :=
  let (k, rem, d) := inUnits num den q
  (if roundsUp rm neg k rem d r then k + 1 else k, rem == 0)

/-- floor(log2 (num / den)) of a positive fraction. -/
def exponent (num den : Nat) : Int :=
  let e : Int := (num.log2 : Int) - den.log2
  let below := if 0 ≤ e then decide (num < den * 2 ^ e.toNat) else decide (num * 2 ^ (-e).toNat < den)
  if below then e - 1 else e

/-- A sign bit before a magnitude code. -/
def withSign (f : Fmt) (neg : Bool) (mag : Nat) : Nat := if neg then 2 ^ (f.exp + f.frac) + mag else mag

/-- What a result above the largest value becomes in an IEEE format (R93): the infinity, or the largest value. -/
def overflowMag (f : Fmt) (rm : Nat) (neg : Bool) : Nat :=
  let keeps := rm == 1 || (rm == 2 && !neg) || (rm == 3 && neg)
  if keeps then f.maxMag else f.maxMag + 1

/-- cvt(x, fmt, mode, r) into a floating-point format: the code and the flags (R93, R95). Log entry 96 (DEDUCED). -/
def cvt (f : Fmt) (x : Val) (rm : Nat) (r : Nat := 0) : Nat × Flags :=
  match x with
  | .nan s => if f.ieee then (f.canon, if s then NV else 0) else (0, NV)
  | .inf n => if f.ieee then (withSign f n (f.maxMag + 1), 0) else (withSign f n f.maxMag, SAT ||| NX)
  | .fin n num den =>
    if num = 0 then (withSign f n 0, 0)
    else
      let emin : Int := 1 - (f.bias : Int)
      let e := exponent num den
      let eb := max e emin
      let (k, exact) := roundUnits rm n num den (eb - f.frac) r
      let mag := (eb + f.bias - 1).toNat * 2 ^ f.frac + k
      if f.maxMag < mag then
        if f.ieee then (withSign f n (overflowMag f rm n), OF ||| NX) else (withSign f n f.maxMag, SAT ||| NX)
      else
        -- tininess after rounding, with the exponent range extended below
        let k' := (roundUnits rm n num den (e - f.frac) r).1
        let tiny := e < emin && !(k' == 2 ^ (f.frac + 1) && e + 1 == emin)
        (withSign f n mag, if exact then 0 else if tiny then UF ||| NX else NX)

/-- cvt into the integers from lo to hi (R93). -/
def cvtInt (lo hi : Int) (x : Val) (rm : Nat) (r : Nat := 0) : Int × Flags :=
  match x with
  | .nan _ => (0, NV)
  | .inf n => (if n then lo else hi, NV)
  | .fin n num den =>
    let (k, exact) := roundUnits rm n num den 0 r
    let v : Int := if n then -(k : Int) else k
    if v < lo then (lo, NV) else if hi < v then (hi, NV) else (v, if exact then 0 else NX)

/-! ### Exact operations -/

def isNan : Val → Bool
  | .nan _ => true
  | _ => false

def isSig : Val → Bool
  | .nan s => s
  | _ => false

/-- NV for a signalling operand (R83). -/
def sigNV (xs : List Val) : Flags := if xs.any isSig then NV else 0

def negate : Val → Val
  | .nan s => .nan s
  | .inf n => .inf (!n)
  | .fin n a b => .fin (!n) a b

def absolute : Val → Val
  | .nan s => .nan s
  | .inf _ => .inf false
  | .fin _ a b => .fin false a b

/-- The exact sum of two finite values; the sign of an exact zero follows R84 (rm 2 is RD). -/
def addFin (rm : Nat) (n1 : Bool) (a1 b1 : Nat) (n2 : Bool) (a2 b2 : Nat) : Val :=
  let x := a1 * b2
  let y := a2 * b1
  if n1 = n2 then .fin n1 (x + y) (b1 * b2)
  else if x = y then .fin (rm == 2) 0 1
  else if y < x then .fin n1 (x - y) (b1 * b2)
  else .fin n2 (y - x) (b1 * b2)

/-- The exact sum, with NV for ∞ − ∞ (R84, R95). Signalling operands are judged by the caller. -/
def addV (rm : Nat) (x y : Val) : Val × Flags :=
  match x, y with
  | .nan _, _ => (.nan false, 0)
  | _, .nan _ => (.nan false, 0)
  | .inf m, .inf n => if m = n then (.inf m, 0) else (.nan false, NV)
  | .inf m, _ => (.inf m, 0)
  | _, .inf n => (.inf n, 0)
  | .fin n1 a1 b1, .fin n2 a2 b2 => (addFin rm n1 a1 b1 n2 a2 b2, 0)

/-- The exact product, with NV for 0 × ∞. -/
def mulV (x y : Val) : Val × Flags :=
  match x, y with
  | .nan _, _ => (.nan false, 0)
  | _, .nan _ => (.nan false, 0)
  | .inf m, .inf n => (.inf (m != n), 0)
  | .inf m, .fin n a _ => if a = 0 then (.nan false, NV) else (.inf (m != n), 0)
  | .fin m a _, .inf n => if a = 0 then (.nan false, NV) else (.inf (m != n), 0)
  | .fin n1 a1 b1, .fin n2 a2 b2 => (.fin (n1 != n2) (a1 * a2) (b1 * b2), 0)

/-- A result code with flags of the operation and of the conversion together. -/
def finish (f : Fmt) (rm r : Nat) (x : Val × Flags) (fl : Flags) : Nat × Flags :=
  let c := cvt f x.1 rm r
  (c.1, c.2 ||| x.2 ||| fl)

/-- a + b, a × b and a × b + c in a format, rounded once (R94). -/
def add (f : Fmt) (rm r a b : Nat) : Nat × Flags :=
  finish f rm r (addV rm (value f a) (value f b)) (sigNV [value f a, value f b])

def sub (f : Fmt) (rm r a b : Nat) : Nat × Flags :=
  finish f rm r (addV rm (value f a) (negate (value f b))) (sigNV [value f a, value f b])

def mul (f : Fmt) (rm r a b : Nat) : Nat × Flags :=
  finish f rm r (mulV (value f a) (value f b)) (sigNV [value f a, value f b])

def fma (f : Fmt) (rm r a b c : Nat) : Nat × Flags :=
  let p := mulV (value f a) (value f b)
  let s := addV rm p.1 (value f c)
  finish f rm r (s.1, s.2 ||| p.2) (sigNV [value f a, value f b, value f c])

/-- x < y for exact values that are no NaN, with −0 equal to +0 (R84). -/
def ltV : Val → Val → Bool
  | .inf m, .inf n => m && !n
  | .inf m, .fin _ _ _ => m
  | .fin _ _ _, .inf n => !n
  | .fin n1 a1 b1, .fin n2 a2 b2 =>
    let x := a1 * b2
    let y := a2 * b1
    if n1 then (if n2 then decide (y < x) else x != 0 || y != 0) else !n2 && decide (x < y)
  | _, _ => false

/-- x = y for exact values that are no NaN, with −0 equal to +0. -/
def eqV (x y : Val) : Bool := !isNan x && !isNan y && !ltV x y && !ltV y x

def isNeg : Val → Bool
  | .inf n => n
  | .fin n _ _ => n
  | .nan _ => false

/-- minimumNumber and maximumNumber (R84): a single NaN yields the other operand; −0 is below +0. -/
def minmax (f : Fmt) (isMax : Bool) (a b : Nat) : Nat × Flags :=
  let x := value f a
  let y := value f b
  let fl := sigNV [x, y]
  if isNan x then (if isNan y then f.canon else b, fl)
  else if isNan y then (a, fl)
  else
    let less := ltV x y || (eqV x y && isNeg x && !isNeg y)
    (if less != isMax then a else b, fl)

/-- The eight comparisons of FCMP: eq ne lt le gt ge ord uno (R124). -/
def compare (f : Fmt) (cmp a b : Nat) : Bool × Flags :=
  let x := value f a
  let y := value f b
  let un := isNan x || isNan y
  let ordered := 2 ≤ cmp && cmp ≤ 5
  let fl := if ordered then (if un then NV else 0) else sigNV [x, y]
  if un then (cmp == 1 || cmp == 7, fl)
  else
    (match cmp with
     | 0 => eqV x y
     | 1 => !eqV x y
     | 2 => ltV x y
     | 3 => !ltV y x
     | 4 => ltV y x
     | 5 => !ltV x y
     | 6 => true
     | _ => false, fl)

/-- The class of an F32 code, one bit (R125). -/
def fclass (a : Nat) : Nat :=
  let m := a % 2 ^ 23
  let e := a / 2 ^ 23 % 256
  let s := a / 2 ^ 31 % 2 == 1
  2 ^ (if e = 255 then (if m = 0 then (if s then 0 else 7) else if m / 2 ^ 22 = 0 then 8 else 9)
       else if e = 0 then (if m = 0 then (if s then 3 else 4) else if s then 2 else 5)
       else if s then 1 else 6)

/-- FRINT (R125): an integral F32 value in a rounding mode, the sign kept. -/
def frint (rm r a : Nat) : Nat × Flags :=
  match value f32 a with
  | .nan s => (f32.canon, if s then NV else 0)
  | .inf _ => (a, 0)
  | .fin n num den =>
    let (k, exact) := roundUnits rm n num den 0 r
    ((cvt f32 (.fin n k 1) 0).1, if exact then 0 else NX)

/-- FLDEXP (R126): a × 2^b. An exponent beyond 1000 in magnitude decides the result as 1000 does. -/
def fldexp (rm r a : Nat) (b : Int) : Nat × Flags :=
  let e : Int := max (-1000) (min 1000 b)
  match value f32 a with
  | .fin n num den => if num = 0 then (a, 0) else cvt f32 (scaled n num den e) rm r
  | x => cvt f32 x rm r

/-! ### Square roots -/

/-- The integer square root by binary digits, from bit i down. -/
def isqrtFrom (n : Nat) : Nat → Nat → Nat
  | 0, r => if (r + 1) * (r + 1) ≤ n then r + 1 else r
  | i + 1, r => isqrtFrom n i (if (r + 2 ^ (i + 1)) * (r + 2 ^ (i + 1)) ≤ n then r + 2 ^ (i + 1) else r)

def isqrt (n : Nat) : Nat := isqrtFrom n (n.log2 / 2 + 1) 0

/-- The square root of num / den to about 80 significant bits: exact, or the middle of the unit that holds it. -/
def sqrtV (num den : Nat) : Val :=
  let e := exponent num den
  let k : Nat := (160 - e).toNat / 2 + 1
  let n := num * 2 ^ (2 * k)
  let q := n / den
  let s := isqrt q
  if s * s * den = n then .fin false s (2 ^ k) else .fin false (2 * s + 1) (2 ^ (k + 1))

/-- FSQRT (R96, R97). -/
def fsqrt (rm r a : Nat) : Nat × Flags :=
  match value f32 a with
  | .nan s => (f32.canon, if s then NV else 0)
  | .inf n => if n then (f32.canon, NV) else (a, 0)
  | .fin n num den => if num = 0 then (a, 0) else if n then (f32.canon, NV) else cvt f32 (sqrtV num den) rm r

/-- FRCP (R96, R97). -/
def frcp (a : Nat) : Nat × Flags :=
  match value f32 a with
  | .nan s => (f32.canon, if s then NV else 0)
  | .inf n => (withSign f32 n 0, 0)
  | .fin n num den => if num = 0 then (withSign f32 n (f32.maxMag + 1), DZ) else cvt f32 (.fin n den num) 0

/-- FRSQ (R96, R97). -/
def frsq (a : Nat) : Nat × Flags :=
  match value f32 a with
  | .nan s => (f32.canon, if s then NV else 0)
  | .inf n => if n then (f32.canon, NV) else (0, 0)
  | .fin n num den =>
    if num = 0 then (withSign f32 n (f32.maxMag + 1), DZ)
    else if n then (f32.canon, NV)
    else cvt f32 (sqrtV den num) 0

/-! ### The counter-based generator (R98) -/

def rotl32 (x : Word) (n : Nat) : Word := (x <<< n) ||| (x >>> (32 - n))

/-- The rounds of rng32 still to run, from round i. -/
def rngRounds (k0 k1 : Word) : Nat → Nat → Word × Word × Word × Word → Word × Word × Word × Word
  | 0, _, st => st
  | n + 1, i, (a, b, c, d) =>
    let a := a + b
    let d := rotl32 (d ^^^ a) 13
    let c := c + d
    let b := rotl32 (b ^^^ c) 9
    let a := a + b
    let d := rotl32 (d ^^^ a) 17
    let c := c + d
    let b := rotl32 (b ^^^ c) 5
    rngRounds k0 k1 n (i + 1) (a + k1 + BitVec.ofNat 32 i, b, c + k0, d)

def rng32 (key ctr : Word64) : Word :=
  let k0 : Word := key.truncate 32
  let k1 : Word := (key >>> 32).truncate 32
  let st := rngRounds k0 k1 10 0
    (ctr.truncate 32, (ctr >>> 32).truncate 32, k0 ^^^ 0x4E31A7C5#32, k1 ^^^ 0xB2D86F13#32)
  st.1 ^^^ st.2.2.1

/-- rs_draw(key, base, e, ℓ) (R92). -/
def rsDraw (key base : Word64) (e l : Nat) : Word := rng32 key (base + BitVec.ofNat 64 (64 * e + l))

/-! ### Sum orders (R99 to R106) -/

/-- The element types of reductions and atomics. -/
inductive Elem where
  | flt (f : Fmt)
  | sint (w : Nat)
  | uint (w : Nat)
deriving DecidableEq, Repr

/-- Two's complement reading of the low w bits. -/
def toInt (w n : Nat) : Int := if n % 2 ^ w < 2 ^ (w - 1) then (n % 2 ^ w : Nat) else (n % 2 ^ w : Nat) - (2 ^ w : Nat)

/-- The low w bits of an integer. -/
def ofIntMod (w : Nat) (i : Int) : Nat := (i % (2 ^ w : Nat)).toNat

/-- Operation codes of reductions: 0 add, 1 min, 2 max, 3 and, 4 or, 5 xor, 6 exch (R99, R131, R170, R172). -/
def node (op : Nat) (t : Elem) (x y : Nat) : Nat × Flags :=
  match op, t with
  | 0, .flt f => add f 0 0 x y
  | 1, .flt f => minmax f false x y
  | 2, .flt f => minmax f true x y
  | 0, .sint w | 0, .uint w => ((x + y) % 2 ^ w, 0)
  | 1, .sint w => (if toInt w y < toInt w x then y else x, 0)
  | 2, .sint w => (if toInt w x < toInt w y then y else x, 0)
  | 1, .uint _ => (if y < x then y else x, 0)
  | 2, .uint _ => (if x < y then y else x, 0)
  | 3, _ => (x &&& y, 0)
  | 4, _ => (x ||| y, 0)
  | 5, _ => (x ^^^ y, 0)
  | _, _ => (y, 0)

/-- The identity of an operation (R99). -/
def identity (op : Nat) (t : Elem) : Nat :=
  match op, t with
  | 0, .flt f => 2 ^ (f.exp + f.frac)
  | 1, .flt f => withSign f false (f.maxMag + 1)
  | 2, .flt f => withSign f true (f.maxMag + 1)
  | 1, .sint w => 2 ^ (w - 1) - 1
  | 2, .sint w => 2 ^ (w - 1)
  | 1, .uint w => 2 ^ w - 1
  | 3, .sint w | 3, .uint w => 2 ^ w - 1
  | _, _ => 0

/-- One level of the pairwise tree: neighbours combined (R101, R103). -/
def pairUp (op : Nat) (t : Elem) : List Nat → List Nat × Flags
  | x :: y :: rest =>
    let n := node op t x y
    let r := pairUp op t rest
    (n.1 :: r.1, n.2 ||| r.2)
  | xs => (xs, 0)

/-- N(i, 2^j) over a list of 2^j values, j levels of pairs (R103). -/
def tree (op : Nat) (t : Elem) : Nat → List Nat → List Nat × Flags
  | 0, xs => (xs, 0)
  | j + 1, xs =>
    let p := pairUp op t xs
    let r := tree op t j p.1
    (r.1, p.2 ||| r.2)

/-- N(0, 2^j) of the first 2^j of some values. -/
def treeRoot (op : Nat) (t : Elem) (j : Nat) (xs : List Nat) : Nat × Flags :=
  let r := tree op t j (xs.take (2 ^ j))
  (r.1.headD 0, r.2)

/-- The aligned blocks from left to right that cover n values, from level j down (R103). -/
def scanFrom (op : Nat) (t : Elem) : Nat → Nat → List Nat → Option Nat → Option Nat × Flags
  | 0, n, xs, acc =>
    if n % 2 = 1 then
      match acc with
      | none => (some (xs.headD 0), 0)
      | some a => let r := node op t a (xs.headD 0); (some r.1, r.2)
    else (acc, 0)
  | j + 1, n, xs, acc =>
    if n / 2 ^ (j + 1) % 2 = 1 then
      let b := treeRoot op t (j + 1) xs
      match acc with
      | none =>
        let r := scanFrom op t j n (xs.drop (2 ^ (j + 1))) (some b.1)
        (r.1, b.2 ||| r.2)
      | some a =>
        let c := node op t a b.1
        let r := scanFrom op t j n (xs.drop (2 ^ (j + 1))) (some c.1)
        (r.1, b.2 ||| c.2 ||| r.2)
    else scanFrom op t j n xs acc

/-- scan_incl(ℓ) over the values, whose number is 2^j (R103). -/
def scanIncl (op : Nat) (t : Elem) (j l : Nat) (xs : List Nat) : Nat × Flags :=
  let r := scanFrom op t j (l + 1) xs none
  (r.1.getD 0, r.2)

/-- agg (R104): the value left in memory, each lane's returned value, and the flags of every node. -/
def aggFrom (nd : Nat → Nat → Nat × Flags) (old : Nat) : Nat → List Nat → Flags → Nat × List Nat × Flags
  | s, [], fl => let n := nd old s; (n.1, [], fl ||| n.2)
  | s, v :: vs, fl =>
    let ret := nd old s
    let s1 := nd s v
    let r := aggFrom nd old s1.1 vs (fl ||| ret.2 ||| s1.2)
    (r.1, ret.1 :: r.2.1, r.2.2)

def agg (nd : Nat → Nat → Nat × Flags) (old : Nat) : List Nat → Nat × List Nat × Flags
  | [] => (old, [], 0)
  | v :: vs =>
    let r := aggFrom nd old v vs 0
    (r.1, old :: r.2.1, r.2.2)

/-- ring_reduce over values in ascending die order (R105). -/
def ringReduce (op : Nat) (t : Elem) : List Nat → Nat
  | [] => identity op t
  | x :: xs => xs.foldl (fun a y => (node op t a y).1) x

/-- One butterfly stage of span h over blocks of 2h values (R106). -/
def butterfly (h : Nat) : Nat → List Nat → List Nat × Flags
  | 0, xs => (xs, 0)
  | n + 1, xs =>
    let us := xs.take h
    let ws := (xs.drop h).take h
    let su := us.zipWith (fun u w => add f32 0 0 u w) ws
    let sd := us.zipWith (fun u w => sub f32 0 0 u w) ws
    let r := butterfly h n (xs.drop (2 * h))
    (su.map (·.1) ++ sd.map (·.1) ++ r.1, (su ++ sd).foldl (fun a x => a ||| x.2) r.2)

/-- The stages s .. of a transform of 2^m points. -/
def stages (m : Nat) : Nat → Nat → List Nat → List Nat × Flags
  | 0, _, xs => (xs, 0)
  | k + 1, s, xs =>
    let b := butterfly (2 ^ s) (2 ^ m / 2 ^ (s + 1)) xs
    let r := stages m k (s + 1) b.1
    (r.1, b.2 ||| r.2)

/-- hadamard(x, 2^m) with its flags (R106). -/
def hadamard (m : Nat) (xs : List Nat) : List Nat × Flags :=
  let r := stages m m 0 xs
  let ys := r.1.map fun x =>
    match value f32 x with
    | .fin n a b => cvt f32 (scaled n a b (-((m / 2 : Nat) : Int))) 0
    | v => cvt f32 v 0
  (ys.map (·.1), ys.foldl (fun a y => a ||| y.2) r.2)

end Sys2Proof.Machine.Fp
end

