-- ==== Sys2Proof/Machine/Operands.lean ====
section
/-!
DEFINITION. How the operand codes of R56 to R66 are read and written: inline constants in the type of their source, vector and
uniform sources of 32 and 64 bits, the ABS and NEG bits, the cross-lane modifiers, feed queues, destinations, and the readiness that
feed queues ask for.
-/
namespace Sys2Proof.Machine

/-! ### Inline constants (R59) -/

/-- The type in which a source is read: `n` elements of `w` bits, floating point in `fmt`, or integers and bits. -/
structure SrcType where
  fmt : Option Fp.Fmt
  w : Nat
  n : Nat
deriving DecidableEq, Repr

def tInt : SrcType := ⟨none, 32, 1⟩
def tF32 : SrcType := ⟨some Fp.f32, 32, 1⟩
def tF16 : SrcType := ⟨some Fp.f16, 16, 1⟩
def tBF16 : SrcType := ⟨some Fp.bf16, 16, 1⟩
def tF16x2 : SrcType := ⟨some Fp.f16, 16, 2⟩
def tBF16x2 : SrcType := ⟨some Fp.bf16, 16, 2⟩
def tK8 : SrcType := ⟨some Fp.k8, 8, 1⟩
def tK8w : SrcType := ⟨some Fp.k8w, 8, 1⟩
def tK4 : SrcType := ⟨some Fp.k4, 4, 1⟩
def tK8x4 : SrcType := ⟨some Fp.k8, 8, 4⟩
def tK4x8 : SrcType := ⟨some Fp.k4, 4, 8⟩
def tI8x4 : SrcType := ⟨none, 8, 4⟩
def tI4x8 : SrcType := ⟨none, 4, 8⟩

/-- The exact value of the inline constant with code 112 to 127. -/
def constVal (c : Nat) : Fp.Val :=
  if c < 120 then .fin false (c - 112) 1
  else
    let n := c % 2 == 1
    match c / 2 with
    | 60 => .fin n 1 2
    | 61 => .fin n 1 1
    | 62 => .fin n 2 1
    | _ => .fin n 4 1

/-- One element of an inline constant in a type. -/
def constElem (t : SrcType) (c : Nat) : Nat :=
  match t.fmt with
  | some f => (Fp.cvt f (constVal c) 0).1
  | none => c - 112

/-- An inline constant fills every element of a packed type. -/
def constWord (t : SrcType) (c : Nat) : Word :=
  BitVec.ofNat 32 ((List.range t.n).foldl (fun a i => a + constElem t c % 2 ^ t.w * 2 ^ (t.w * i)) 0)

/-- The sign bits of a type's elements. -/
def signBits (t : SrcType) : Word :=
  BitVec.ofNat 32 ((List.range t.n).foldl (fun a i => a + 2 ^ (t.w * i + t.w - 1)) 0)

/-- ABS clears the sign bits, then NEG inverts them (R64). -/
def modify (t : SrcType) (abs neg : Bool) (x : Word) : Word :=
  let y := if abs then x &&& ~~~(signBits t) else x
  if neg then y ^^^ signBits t else y

/-! ### Feed queues (R29, R30) -/

/-- A source field: its code and whether it is read as 64 bits. -/
abbrev SrcCode := BitVec 7 × Bool

/-- The entries that a source field takes from its queue, or looks at. -/
def entriesOf (c : SrcCode) : Nat := if c.2 then 2 else 1

/-- The entries of queue q removed by source fields. -/
def popsOf (cs : List SrcCode) (q : Nat) : Nat :=
  cs.foldl (fun a c => if c.1.toNat = 96 + q then a + entriesOf c else a) 0

/-- The entries of queue q that source fields need, read in order: pops take successive entries, a peek the head after earlier pops. -/
def needOf (cs : List SrcCode) (q : Nat) : Nat :=
  (cs.foldl (fun (a : Nat × Nat) c =>
    if c.1.toNat = 96 + q then (a.1 + entriesOf c, max a.2 (a.1 + entriesOf c))
    else if c.1.toNat = 100 + q then (a.1, max a.2 (a.1 + entriesOf c))
    else a) (0, 0)).2

/-- A word of a feed program pushes into queue q (R220). -/
def feedsInto (q : Nat) (w : Word) : Bool := w.toNat / 2 ^ 28 ≤ 1 && w.toNat / 2 ^ 26 % 4 == q

/-- The queue cannot receive another entry (R30). -/
def cannotReceive (g : Group) (q : Nat) : Bool :=
  match g.feed with
  | none => true
  | some f => !f.running || f.qmask / 2 ^ q % 2 == 0 || !(f.words.any (feedsInto q))

/-- The first n entries of queue q are present. -/
def entriesPresent (g : Group) (q n : Nat) : Bool :=
  let es := feedQueue g q
  n ≤ es.length && (es.take n).all (·.present)

/-- The first word that the program would have run again or next at the load that failed it: that word, or the outermost open loop. -/
def failedFrom (f : Feed) (w : Nat) : Nat := (f.place.loops.getLast?.map (·.1)).getD w

/-- The word at which the group's feed program failed, where an entry missing from queue q comes from that word or after it (R221). -/
def feedFailed (g : Group) (q : Nat) : Option Nat :=
  g.feed.bind fun f => f.failed.bind fun w =>
    if f.qmask / 2 ^ q % 2 = 1 ∧ (f.words.drop (failedFrom f w)).any (feedsInto q) = true then some w else none

/-- The group is ready, must wait, or takes a trap: the feed underrun or the feed fault of queue q (R30, R221). -/
inductive FeedGate where
  | ready
  | wait
  | trap (c : Cause)
deriving DecidableEq, Repr

/-- The trap of an entry that queue q will never hold: its info is SMALL (R271). -/
def missingEntry (g : Group) (q : Nat) : Cause :=
  match feedFailed g q with
  | some w => { code := 0x07, info := BitVec.ofNat 64 (q + 256 * w) }
  | none => { code := 0x05, info := BitVec.ofNat 64 q }

/-- Whether the feed queues hold what n entries of each queue ask for (R30). -/
def feedGateOf (g : Group) (need : Nat → Nat) : FeedGate :=
  match (List.range 4).find? fun q => decide ((feedQueue g q).length < need q) && cannotReceive g q with
  | some q => .trap (missingEntry g q)
  | none => if (List.range 4).all fun q => entriesPresent g q (need q) then .ready else .wait

/-- The gate of an instruction with these source fields. -/
def feedGate (g : Group) (cs : List SrcCode) : FeedGate := feedGateOf g (needOf cs)

/-- A long MMA of the group's quartet will still take entries of queue q (R207). -/
def mmaTakes (s : State) (g : Group) (q : Nat) : Bool :=
  let ops := (((teamOf s g).bind fun t => tblGet t.quartets (g.grpid / 4)).map (·.ops)).getD []
  ops.any fun o =>
    match o.instr with
    | .mmaLong _ aq sq fmt ns _ _ _ _ _ =>
      (aq.toNat == q || (!ns && decide (fmt.toNat < 6) && sq.toNat == q)) &&
        (o.a.isNone || decide (o.step + 1 < (o.vals.getD 2 0).toNat))
    | _ => false

/-- Every pop of an instruction removes its entry, whatever ACTIVE holds (R29). -/
def popAll (cs : List SrcCode) (g : Group) : Group :=
  (List.range 4).foldl (fun g q => if popsOf cs q = 0 then g else popFeed g q (popsOf cs q)) g

/-- Lane l of entry i of queue q. -/
def feedLane (g : Group) (q i l : Nat) : Word := (((feedQueue g q)[i]?).map fun e => cellGet e.lanes l).getD 0

/-- An instruction with these source fields issues as `k`, waits, or takes the feed-underrun trap (R30). -/
def withFeeds (s : State) (g : Group) (cs : List SrcCode) (k : State) : State :=
  if (List.range 4).any fun q => needOf cs q != 0 && mmaTakes s g q then stall s
  else
    match feedGate g cs with
    | .ready => k
    | .wait => stall s
    | .trap c => trapAt s s.cur c.code c.info

/-! ### Vector sources (R57 to R61) -/

/-- CLURANK of a group (R38). -/
def clurankOf (s : State) (g : Group) : Nat :=
  match teamOf s g with
  | some t => t.teamid % (((tblGet s.grids t.grid).map (·.launch.csize)).getD 1)
  | none => 0

/-- A special operand of R58 as 64 bits; the 32-bit value is its low half, but for 111. -/
def special (s : State) (g : Group) (c l : Nat) : Word64 :=
  match c with
  | 105 => BitVec.ofNat 64 l
  | 106 => BitVec.allOnes 64
  | 107 => BitVec.ofNat 64 g.grpid
  | 108 => BitVec.ofNat 64 g.width
  | 109 => BitVec.ofNat 64 (clurankOf s g)
  | 110 => g.exec
  | 111 => g.exec >>> 32
  | _ => 0

/-- Source field number pos of an instruction whose earlier source fields are `before`, in lane l, as 32 bits read in type t. -/
def src32 (s : State) (g : Group) (t : SrcType) (before : List SrcCode) (c : BitVec 7) (l : Nat) : Word :=
  let n := c.toNat
  if n < 48 then readV s.draws before.length g n l
  else if n < 64 then readQ g (n - 48) l
  else if n < 96 then readS s.draws before.length g (n - 64)
  else if n < 104 then feedLane g (n % 4) (popsOf before (n % 4)) l
  else if n < 112 then lo32 (special s g n l)
  else constWord t n

/-- The same as 64 bits, integer or bits (R19, R23, R25, R58, R61). -/
def src64 (s : State) (g : Group) (before : List SrcCode) (c : BitVec 7) (l : Nat) : Word64 :=
  let n := c.toNat
  let pos := before.length
  if n < 48 then Machine.pair (readV s.draws pos g n l) (readV s.draws pos g (n + 1) l)
  else if n < 64 then Machine.pair (readQ g (n - 47) l) (readQ g (n - 48) l)
  else if n < 96 then Machine.pair (readS s.draws pos g (n - 64)) (readS s.draws pos g (n - 63))
  else if n < 104 then
    Machine.pair (feedLane g (n % 4) (popsOf before (n % 4)) l) (feedLane g (n % 4) (popsOf before (n % 4) + 1) l)
  else if n < 112 then special s g n l
  else BitVec.ofNat 64 (n - 112)

/-- The lane that lane l reads source a from (R65). -/
def laneFor (o : LOps) (w l : Nat) : Option Nat :=
  let k := o.larg.toNat
  let j : Int := match o.xmode.toNat with
    | 1 => k
    | 2 => (l ^^^ k : Nat)
    | 3 => (l : Int) - k
    | 4 => (l : Int) + k
    | _ => l
  if 0 ≤ j ∧ j < w then some j.toNat
  else match o.fill.toNat with
    | 0 => none
    | 1 => some l
    | _ => some (j % (w : Int)).toNat

/-- Source a of an O-format instruction in type t, with the modifiers of R64 and R65. -/
def opA (s : State) (g : Group) (t : SrcType) (o : LOps) (l : Nat) : Word :=
  match laneFor o g.width l with
  | some j => modify t o.absA o.negA (src32 s g t [] o.a j)
  | none => 0

/-- Source b, after a source a of `wideA` 64 bits. -/
def opB (s : State) (g : Group) (t : SrcType) (wideA : Bool) (o : LOps) (l : Nat) : Word :=
  modify t o.absB o.negB (src32 s g t [(o.a, wideA)] o.b l)

/-- Source c. -/
def opC (s : State) (g : Group) (t : SrcType) (o : LOps) (l : Nat) : Word :=
  modify t o.absC o.negC (src32 s g t [(o.a, false), (o.b, false)] o.c l)

/-- Source a as 64 bits with the cross-lane modifiers. -/
def opA64 (s : State) (g : Group) (o : LOps) (l : Nat) : Word64 :=
  match laneFor o g.width l with
  | some j => src64 s g [] o.a j
  | none => 0

/-- Source b as 64 bits after a 64-bit source a. -/
def opB64 (s : State) (g : Group) (o : LOps) (l : Nat) : Word64 := src64 s g [(o.a, true)] o.b l

/-! ### Uniform sources (R60) -/

/-- A uniform source as 32 bits; an inline constant is delivered in type t. -/
def usrc (s : State) (g : Group) (t : SrcType) (pos : Nat) (c : BitVec 7) : Word :=
  let n := c.toNat
  if n < 16 then readH s pos g n
  else if 64 ≤ n ∧ n < 96 then readS s.draws pos g (n - 64)
  else if n < 112 then lo32 (special s g n 0)
  else constWord t n

/-- A uniform source as 64 bits: an even s pair, a special operand or a constant. -/
def usrc64 (s : State) (g : Group) (pos : Nat) (c : BitVec 7) : Word64 :=
  let n := c.toNat
  if 64 ≤ n ∧ n < 96 then Machine.pair (readS s.draws pos g (n - 64)) (readS s.draws pos g (n - 63))
  else if n < 112 then special s g n 0
  else BitVec.ofNat 64 (n - 112)

/-- A mask source of PMOV and EXSET: a uniform pair, zero, ones below GWIDTH, or EXEC (R135). -/
def maskSrc (s : State) (g : Group) (c : BitVec 7) : Word64 :=
  if c.toNat = 106 then onesBelow g.width else usrc64 s g 0 c

/-- A BASE code in lane l (R51). -/
def baseOf (s : State) (g : Group) (pos : Nat) (c : BitVec 7) (l : Nat) : Word64 :=
  let n := c.toNat
  if n < 48 then Machine.pair (readV s.draws pos g n l) (readV s.draws pos g (n + 1) l)
  else if 64 ≤ n ∧ n < 96 then usrc64 s g pos c
  else 0

/-! ### Destinations (R18, R22 to R24, R62) -/

/-- A predicate's bits in the lanes of a mask take the values of f (R18). -/
def writePLanes (g : Group) (p : Nat) (m : Word64) (f : Nat → Bool) : Group :=
  writeP g p ((cellGet g.p p &&& ~~~m) ||| (m &&& maskOf g.width f))

/-- The 32-bit results f in the lanes of ACTIVE m, to vector destination d: a register with its push, a predicate, a push alone, or
nothing. In a lane outside ACTIVE whose register is pending the push holds the value before. Log entry 95 (DEDUCED). -/
def write32 (d : BitVec 6) (m : Word64) (f : Nat → Word) (g : Group) : Group :=
  let n := d.toNat
  if n < 48 then
    let g1 := writeV g n m f
    push g1 fun l => cellGet g1.v (laneCell n l)
  else if n < 60 then writePLanes g (n - 48) m fun l => f l != 0
  else if n = 60 then push g fun l => if m.getLsbD l then f l else 0
  else g

/-- The 64-bit results f, pushed low half first (R23). -/
def write64 (d : BitVec 6) (m : Word64) (f : Nat → Word64) (g : Group) : Group :=
  let n := d.toNat
  if n < 48 then
    let g1 := writeV (writeV g n m fun l => lo32 (f l)) (n + 1) m fun l => hi32 (f l)
    push (push g1 fun l => cellGet g1.v (laneCell n l)) fun l => cellGet g1.v (laneCell (n + 1) l)
  else if n = 60 then
    push (push g fun l => if m.getLsbD l then lo32 (f l) else 0) fun l => if m.getLsbD l then hi32 (f l) else 0
  else g

end Sys2Proof.Machine
end

