-- ==== Sys2Proof/Machine/Flags.lean ====
section
/-!
DEFINITION. The floating-point flags (R37, R95): collected over the lanes of ACTIVE into FPFLAGS, and never cleared but by MOVSR.clr.
-/
namespace Sys2Proof.Machine

/-- The flags raised in any lane of a mask. -/
def laneFlags (w : Nat) (m : Word64) (f : Nat → Fp.Flags) : Fp.Flags := (lanesOf w m).foldl (fun a l => a ||| f l) 0

/-- FPFLAGS with some flags set (R37). -/
def orFlags (fl : Fp.Flags) (g : Group) : Group := { g with fpflags := g.fpflags ||| BitVec.ofNat 32 (fl % 128) }

/-- The group's counters hold an operation that is complete and the oldest of its counter (R33). -/
def oldestOp (g : Group) (c : Counter) : Option Op := g.ops.find? fun o => o.ctr == c

end Sys2Proof.Machine
end

