-- ==== Sys2Proof/Machine/Mem.lean ====
section
/-!
DEFINITION. The memory system below the instructions: die names (R390 to R392), the walk (R372 to R376), TLBs (R381), homes with bound
lines, leases and completion times (R186, R312, R317, R318), the L1 (R154, R313, R382), errors (R448), and the accesses that groups and
engines make through them.
-/
namespace Sys2Proof.Machine

/-- Who makes an access: the site and context it translates for, the core and tray that serve it, and its group. -/
structure Who where
  site : Nat
  ctx : Nat
  core : Option Nat := none
  tray : Option Nat := none
  group : Option Nat := none
  /-- the group and the operation or copy that an engine's access belongs to; for a packet group 0 and the packet -/
  op : Option (Nat × Nat) := none
deriving DecidableEq, Repr

/-- A group's own accesses. -/
def groupWho (s : State) (n : Nat) (g : Group) : Who :=
  match teamOf s g with
  | some t => { site := t.site, ctx := t.ctx, core := some (coreNum t.site t.core), tray := some (trayNum t.site t.core), group := some n }
  | none => { site := 0, ctx := 0, group := some n }

/-- An engine's accesses for a context on a die. -/
def engineWho (site ctx : Nat) (n : Option Nat := none) : Who := { site, ctx, group := n }

/-! ### Bits of 64-bit entries -/

/-- The bits hi down to lo of a number. -/
def bits (x hi lo : Nat) : Nat := x / 2 ^ lo % 2 ^ (hi + 1 - lo)

/-! ### Errors in storage (R448) -/

/-- The 64-byte units that n bytes from loc touch. -/
def unitsOf (loc n : Nat) : List Nat := (List.range ((loc % 64 + n + 63) / 64)).map fun i => loc / 64 + i

/-- A read of these bytes meets an uncorrectable error, or a site that is lost. -/
def badRead (s : State) (loc n : Nat) : Bool :=
  (unitsOf loc n).any (fun u => s.ueUnits.contains u) || (isHbm loc && s.siteLost.contains (locSite loc))

/-- The errors that a write of n bytes from loc ends: those of the units it covers whole. -/
def clearUnits (s : State) (loc n : Nat) : State :=
  { s with ueUnits := s.ueUnits.filter fun u => !(decide (loc ≤ 64 * u) && decide (64 * u + 64 ≤ loc + n)) }

/-! ### Bound lines (R184 to R187) -/

/-- The stash line of line k of a binding slot. -/
def slotStash (team : Nat) (b : BindSlot) (k : Nat) : Nat := stashLoc team (b.soff + 128 * k)

/-! ### What a step lacks (R334)

An access to a line that the host may hold notes the line as lacking and is made all the same; the step that made it is then not taken:
the state before it stands, with the host asked for the line, and the step is tried again once the host has given the line up. -/

/-- The step lacks x. -/
def lack (s : State) (x : Need) : State := { s with needs := if s.needs.contains x then s.needs else s.needs ++ [x] }

/-- A device write to a line needs that the host does not hold it; a read, that the host does not hold it alone (R334).
Log entry 17 (DEDUCED). -/
def needLine (s : State) (line : Nat) (isWrite : Bool) : State :=
  match tblGet s.hostHolds line with
  | some .exclusive => lack s (.line line)
  | some .shared => if isWrite then lack s (.line line) else s
  | none => s

/-- The first access to line k of a slot fills it from global memory and makes the stash its owner; a line that another stash owns stays
there (R186). -/
def fillBound (s : State) (team slot : Nat) (b : BindSlot) (k : Nat) : State :=
  match b.lines[k]? with
  | none => s
  | some gl =>
    if (tblGet s.owners gl).isSome then s
    else
      let s1 := needLine s gl false
      { s1 with
        mem := writeBytes s1.mem (slotStash team b k) (readBytes s1.mem (128 * gl) 128)
        owners := tblSet s1.owners gl { team := team, slot := slot, off := b.soff + 128 * k, dirty := false } }

/-- A binding that covers a global line: team, slot and line number. -/
def bindingOf (s : State) (gl : Nat) : Option (Nat × Nat × BindSlot × Nat) :=
  s.teams.findSome? fun t => t.2.binds.findSome? fun b =>
    match b.2.lines.findIdx? (· == gl) with
    | some k => some (t.1, b.1, b.2, k)
    | none => none

/-- An access through the global address fills an unfilled bound line. -/
def touchGlobal (s : State) (loc : Nat) : State :=
  if (tblGet s.owners (lineOf loc)).isSome then s
  else match bindingOf s (lineOf loc) with
    | some (t, i, b, k) => fillBound s t i b k
    | none => s

/-- The place of a byte: the owning stash of a filled bound line, else its home (R186, R312). Log entry 24 (DEDUCED). -/
def locate (s : State) (loc : Nat) : Nat :=
  match tblGet s.owners (lineOf loc) with
  | some o => stashLoc o.team (o.off + loc % 128)
  | none => loc

/-- The binding slot of a team that covers a stash offset, and the line. -/
def stashBinding (s : State) (team off : Nat) : Option (Nat × BindSlot × Nat) :=
  ((tblGet s.teams team).map (·.binds)).bind fun bs =>
    (tblFind bs fun _ b => decide (b.soff ≤ off) && decide (off < b.soff + b.len)).map fun e =>
      (e.1, e.2, (off - e.2.soff) / 128)

/-- A stash access: the fill of a bound line, the place of the byte, and the slot of a bind conflict (R186). -/
def touchStash (s : State) (team off : Nat) : State × Nat × Option Nat :=
  match stashBinding s team off with
  | none => (s, stashLoc team off, none)
  | some (i, b, k) =>
    let s1 := fillBound s team i b k
    match b.lines[k]? with
    | none => (s1, stashLoc team off, none)
    | some gl =>
      match tblGet s1.owners gl with
      | some o => (s1, stashLoc o.team (o.off + off % 128), if o.team = team ∧ o.slot = i then none else some i)
      | none => (s1, stashLoc team off, none)

/-- The line is written since its fill. -/
def dirtyOwner (s : State) (loc : Nat) : State :=
  { s with owners := tblUp s.owners (lineOf loc) fun o => { o with dirty := true } }

/-! ### Transactions of other groups (R190) -/

/-- The transactions of groups but `who` that hold a line abort with a conflict: on a read only those that wrote it. -/
def conflict (s : State) (who : Option Nat) (line : Nat) (isWrite : Bool) : State :=
  { s with groups := s.groups.map fun e =>
      match e.2.tx with
      | none => e
      | some t =>
        if some e.1 ≠ who ∧ (if isWrite then t.lines.contains line else t.written.contains line) then (e.1, abortTx 1 0 e.2) else e }

/-! ### Home performance (R312) -/

/-- LEASELEN of a die; a value below 16 acts as 16 (R279). Log entry 18 (DEDUCED). -/
def leaseLen (s : State) (site : Nat) : Nat := max 16 (((tblGet s.dies site).map (·.leaselen)).getD 256)

/-- The bytes of one line piece written at the place that holds them, with the completion time max(p, E(line)) (R318). -/
def writeHere (s : State) (loc : Nat) (bs : List Byte) : State × Nat :=
  let line := lineOf loc
  let at_ := locate s loc
  let c := max (ticks s) ((tblGet s.leases line).getD 0)
  let s1 := clearUnits (if at_ = loc then s else dirtyOwner s loc) at_ bs.length
  ({ s1 with mem := writeBytes s1.mem at_ bs, lineC := tblSet s1.lineC line c }, c)

/-- The location of the byte of a site's dirty side table that holds the bit of a block, and the bit's number (R383). -/
def dirtyBit (s : State) (block : Nat) : Option (Nat × Nat) :=
  let a := locAddr (4096 * block)
  ((tblGet s.dies (locSite (4096 * block))).bind fun d => deviceLoc s d.dirtytbl).map fun b =>
    (b + 64 * (a / 2 ^ 21) + a / 4096 % 512 / 8, a / 4096 % 8)

/-- A location lies in the dirty side table of some die: writes there are not tracked. -/
def inDirtyTable (s : State) (loc : Nat) : Bool :=
  s.dies.any fun e =>
    match deviceLoc s e.2.dirtytbl with
    | some b => decide (b ≤ loc) && decide (loc < b + 2 ^ 21)
    | none => false

/-- The block's dirty bit, and the bit set or cleared at the bitmap's home, by one atomic update. -/
def dirtyOf (s : State) (block : Nat) : Bool :=
  match dirtyBit s block with
  | some (l, k) => (readByte s.mem (locate s l)).getLsbD k
  | none => false

def setDirty (s : State) (block : Nat) (v : Bool) : State :=
  match dirtyBit s block with
  | some (l, k) =>
    let b := readByte s.mem (locate s l)
    (writeHere (needLine s (lineOf l) true) l [if v then b ||| BitVec.ofNat 8 (2 ^ k) else b &&& ~~~(BitVec.ofNat 8 (2 ^ k))]).1
  | none => s

/-- The memory-side cache writes a dirty line back to HBM and sets its dirty bit; the write-back of a line of a held block waits (R383,
R457). -/
def writeBack (s : State) (line : Nat) : State :=
  if (tblGet s.hbmOld line).isNone || (tblGet s.held (line / 32)).isSome then s
  else
    let s1 := { s with hbmOld := tblErase s.hbmOld line }
    if inDirtyTable s (128 * line) then s1 else setDirty s1 (line / 32) true

/-- The home slice of a line: its site, and one of the site's 32 slices of 4 MiB (R3). -/
def sliceOf (line : Nat) : Nat × Nat := (locSite (128 * line), Config.sliceOf line % 32)

/-- The dirty line that a full slice writes back to make room: the lowest that no held block keeps. Log entry 89 (DESIGN CHOICE). -/
def victimOf (s : State) (line : Nat) : Option Nat :=
  if s.hbmOld.length < 32768 then none
  else
    let ls := s.hbmOld.filter fun e => sliceOf e.1 == sliceOf line
    if ls.length < 32768 then none else (ls.find? fun e => (tblGet s.held (e.1 / 32)).isNone).map (·.1)

/-- What HBM holds of a line that becomes dirty in the memory-side cache (R383): a full slice writes a line back first. -/
def keepHbm (s : State) (line : Nat) : State :=
  if (tblGet s.hbmOld line).isSome || !isHbm (128 * line) then s
  else
    let s1 := match victimOf s line with
      | some v => writeBack s v
      | none => s
    let old : Cells 8 := (List.range 128).filterMap fun i =>
      let b := readByte s1.mem (128 * line + i)
      if b = 0 then none else some (i, b)
    { s1 with hbmOld := tblSet s1.hbmOld line old }

/-- The same for any line of memory, which becomes dirty in the memory-side cache where no stash owns it. -/
def performWrite (s : State) (loc : Nat) (bs : List Byte) : State × Nat :=
  writeHere (if locate s loc = loc then keepHbm s (lineOf loc) else s) loc bs

/-- A device write of a piece within one line, for which the host gives up the line (R334); transactions that hold the line abort. -/
def storePiece (s : State) (who : Option Nat) (loc : Nat) (bs : List Byte) : State × Nat :=
  let line := lineOf loc
  performWrite (conflict (touchGlobal (needLine s line true) loc) who line true) loc bs

/-- Bytes cut at line boundaries: the pieces with their locations. -/
def piecesFrom : Nat → Nat → List Byte → List (Nat × List Byte)
  | 0, _, _ => []
  | n + 1, loc, bs =>
    if bs = [] then []
    else
      let k := 128 - loc % 128
      (loc, bs.take k) :: piecesFrom n (loc + k) (bs.drop k)

def pieces (loc : Nat) (bs : List Byte) : List (Nat × List Byte) := piecesFrom (bs.length / 128 + 2) loc bs

/-- A write at homes, and the latest completion time. -/
def storeAt (s : State) (who : Option Nat) (loc : Nat) (bs : List Byte) : State × Nat :=
  (pieces loc bs).foldl (fun r p => let w := storePiece r.1 who p.1 p.2; (w.1, max r.2 w.2)) (s, 0)

/-- A store of a number's little-endian bytes. -/
def storeNum (s : State) (who : Option Nat) (loc n v : Nat) : State := (storeAt s who loc (leBytes n v)).1

/-- What a home-performed read of a piece gives: its bytes, the completion time of the write it returns (R318), and whether it met an
uncorrectable error. -/
structure Got where
  bytes : List Byte
  ctime : Nat
  bad : Bool
deriving DecidableEq, Repr

/-- A home-performed read of n bytes within a line. Log entry 17 (DEDUCED). -/
def loadAt (s : State) (who : Option Nat) (loc n : Nat) : State × Got :=
  let s1 := conflict (touchGlobal (needLine s (lineOf loc) false) loc) who (lineOf loc) false
  (s1, { bytes := (List.range n).map (fun i => readByte s1.mem (locate s1 (loc + i)))
         ctime := (tblGet s1.lineC (lineOf loc)).getD 0
         bad := badRead s1 (locate s1 loc) n || badRead s1 loc n })

/-- The number that a home-performed read of n bytes within a line gives. -/
def loadNum (s : State) (loc n : Nat) : State × Nat :=
  let r := loadAt s none loc n
  (r.1, leNat r.2.bytes)

/-- The number that n bytes at homes hold, without an effect on any line. -/
def peekNum (s : State) (loc n : Nat) : Nat := leNat ((List.range n).map fun i => readByte s.mem (locate s (loc + i)))

/-- The bytes at homes, without an effect on any line. -/
def peekBytes (s : State) (loc n : Nat) : List Byte := (List.range n).map fun i => readByte s.mem (locate s (loc + i))

/-! ### Contexts (R345, R346) -/

/-- A field of a context's table entry through a site's QTABLE. -/
def ctxField (s : State) (site c off n : Nat) : Nat :=
  match ctxEntry s site c with
  | some e => peekNum s (e + off) n
  | none => 0

def ptroot (s : State) (site c : Nat) : Nat := ctxField s site c 0 8
def asidOf (s : State) (site c : Nat) : Nat := ctxField s site c 8 2
def ctxPriv (s : State) (site c : Nat) : Bool := ctxField s site c 10 1 / 2 % 2 == 1

/-! ### Die names (R390 to R392) -/

/-- The name block of a site (R390). -/
def nameBlock (s : State) (site : Nat) : Option Nat := (tblGet s.dies site).bind fun d => deviceLoc s d.nametbl

/-- The name-table entry as it stands at its home; 0, unmapped, where the block cannot be used. -/
def nameHome (s : State) (site n : Nat) : Word64 :=
  match nameBlock s site with
  | some b => BitVec.ofNat 64 (peekNum s (b + 8 * n) 8)
  | none => 0

/-- The entry as a device read at its home returns it. -/
def nameRead (s : State) (site n : Nat) : State × Word64 :=
  match nameBlock s site with
  | some b => let r := loadNum s (b + 8 * n) 8; (r.1, BitVec.ofNat 64 r.2)
  | none => (s, 0)

/-- A tray's name cache takes an entry: 32 entries, the oldest leaves (R392). -/
def cacheName (s : State) (tray n : Nat) (e : Word64) : State :=
  { s with trays := tblUp s.trays tray fun t =>
      let kept := t.names.filter fun x => x.1 != n
      { t with names := kept.drop (kept.length + 1 - 32) ++ [(n, e)] } }

/-- The entry that a send uses: from the tray's cache, or on a miss from its home, which the cache then holds. -/
def nameEntry (s : State) (w : Who) (n : Nat) : State × Word64 :=
  match w.tray with
  | none => nameRead s w.site n
  | some t =>
    match (tblGet s.trays t).bind fun x => x.names.find? fun e => e.1 == n with
    | some e => (s, e.2)
    | none => let r := nameRead s w.site n; (cacheName r.1 t n r.2, r.2)

/-- A name's binding. -/
structure NameBind where
  name : Nat
  site : Nat
  lbase : Nat
  ibase : Nat
deriving DecidableEq, Repr

/-- The lost-site mask of a die names a site (R452). -/
def lostMask (s : State) (die site : Nat) : Bool :=
  match tblGet s.dies die with
  | some d => d.lost.getLsbD site
  | none => false

/-- Resolving a name-table entry where a die is required (R391). -/
def bindOf (s : State) (die n : Nat) (e : Nat) : Except Cause NameBind :=
  if bits e 63 63 = 0 ∨ bits e 61 61 = 1 ∨ 48 ≤ bits e 60 55 then .error { code := 0x18, info := small n }
  else if bits e 62 62 = 1 ∨ lostMask s die (bits e 60 55) then .error { code := 0x19, info := small n }
  else .ok { name := n, site := bits e 60 55, lbase := bits e 54 31 * 4096, ibase := bits e 30 7 * 4096 }

def resolveName (s : State) (w : Who) (n : Nat) : State × Except Cause NameBind :=
  let r := nameEntry s w n
  (r.1, bindOf r.1 w.site n r.2.toNat)

/-- The location of a die-local address on a name (R391). -/
def nameLoc (b : NameBind) (a : Nat) : Except Cause Nat :=
  if 2 ^ 36 ≤ b.lbase + a then .error { code := 0x18, info := small b.name } else .ok (siteLoc b.site (b.lbase + a))

/-- Both steps. -/
def resolveLoc (s : State) (w : Who) (n a : Nat) : State × Except Cause Nat :=
  let r := resolveName s w n
  (r.1, r.2.bind fun b => nameLoc b a)

/-! ### Page tables (R372 to R376) -/

/-- Why a translation fails: a replayable page fault with its cause, level and entry, or a trap. -/
inductive XFault where
  | page (cause level : Nat) (pte : Nat)
  | trap (c : Cause)
deriving DecidableEq, Repr

/-- The non-leaf form (R373, R374). -/
def nonLeafOk (x : Nat) : Bool :=
  bits x 62 59 == 0 && bits x 56 56 == 0 && bits x 49 36 == 0 && decide (bits x 55 50 < 48)

/-- A leaf of a level is well formed (R373, R374). -/
def leafOk (lvl x : Nat) : Bool :=
  let aligned := decide (bits x 49 12 % 512 ^ lvl = 0)
  decide (lvl ≤ 2) && bits x 59 59 == 1 && bits x 56 56 == 0 &&
    match bits x 62 60 with
    | 0 | 2 => bits x 49 36 == 0 && decide (bits x 55 50 < 48) && aligned
    | 1 | 3 => bits x 55 50 == 0 && aligned
    | 4 => bits x 55 43 == 0 && aligned
    | 5 => decide (bits x 41 12 % 512 ^ lvl = 0)
    | _ => false

/-- The index of va at a level (R372). -/
def vaIndex (va lvl : Nat) : Nat := if lvl = 4 then bits va 55 48 else va / 2 ^ (12 + 9 * lvl) % 512

/-- A leaf that the walk found: its entry, its level, where it stands, and the entry that names its node. -/
structure Leaf where
  pte : Nat
  level : Nat
  at_ : Nat
  node : Nat
deriving DecidableEq, Repr

/-- The walk from the node that e names down the given levels (R375). -/
def walkFrom (s : State) (w : Who) (va : Nat) : List Nat → Nat → State × Except XFault Leaf
  | [], e => (s, .error (.page 3 0 e))
  | lvl :: rest, e =>
    match resolveLoc s w (bits e 55 50) (bits e 35 12 * 4096 + 8 * vaIndex va lvl) with
    | (s1, .error c) => (s1, .error (.trap c))
    | (s0, .ok loc) =>
      let r := loadNum s0 loc 8
      let s1 := r.1
      let x := r.2
      if bits x 63 63 = 0 then (s1, .error (.page 1 lvl x))
      else if bits x 59 59 = 1 then
        if leafOk lvl x then (s1, .ok { pte := x, level := lvl, at_ := loc, node := e }) else (s1, .error (.page 3 lvl x))
      else if lvl = 0 ∨ nonLeafOk x = false then (s1, .error (.page 3 lvl x))
      else walkFrom s1 w va rest x

def walk (s : State) (w : Who) (va : Nat) : State × Except XFault Leaf :=
  let e := ptroot s w.site w.ctx
  if bits e 63 63 = 0 then (s, .error (.page 1 5 e))
  else if nonLeafOk e = false then (s, .error (.page 3 5 e))
  else walkFrom s w va [4, 3, 2, 1, 0] e

/-! ### TLBs (R381) -/

/-- The bytes a leaf of a level maps. -/
def pageSize (lvl : Nat) : Nat := 4096 * 512 ^ lvl

/-- The level under which a die TLB keeps the L0 node of a 2 MiB region. Log entry 84 (DESIGN CHOICE). -/
def nodeLevel : Nat := 10

/-- A leaf's entry in a TLB. -/
def tlbHit (tlb : List TlbEntry) (asid va : Nat) : Option TlbEntry :=
  tlb.find? fun e => e.asid == asid && decide (e.level ≤ 2) && e.vpn == va / pageSize e.level

/-- The L0 node of va's region in a die TLB. -/
def nodeHit (tlb : List TlbEntry) (asid va : Nat) : Option TlbEntry :=
  tlb.find? fun e => e.asid == asid && e.level == nodeLevel && e.vpn == va / pageSize 1

/-- A die TLB's entries in their two pools: 131 072 for regions of 2 MiB, and apart from them 1024 for leaves of 1 GiB (R381). The
youngest stay. Log entry 84 (DESIGN CHOICE). -/
def diePools (es : List TlbEntry) : List TlbEntry := (es.filter fun e => e.level != 2).take 131072 ++ (es.filter fun e => e.level == 2).take 1024

/-- The TLBs that serve `w` take a leaf: the tray's 4096 entries, and the die's two pools. -/
def tlbFill (s : State) (w : Who) (asid va : Nat) (l : Leaf) : State :=
  let e : TlbEntry := { asid, level := l.level, vpn := va / pageSize l.level, pte := BitVec.ofNat 64 l.pte }
  let d : TlbEntry :=
    if l.level = 0 then { asid, level := nodeLevel, vpn := va / pageSize 1, pte := BitVec.ofNat 64 l.node } else e
  let s1 := s.upDie w.site fun x => { x with dtlb := diePools (d :: x.dtlb.filter (· != d)) }
  match w.tray with
  | some t => { s1 with trays := tblUp s1.trays t fun x => { x with tlb := (e :: x.tlb.filter (· != e)).take 4096 } }
  | none => s1

/-- Before the first use of a leaf whose A is 0, the walker sets A by one atomic update at the entry's home (R381). -/
def setAccessed (s : State) (l : Leaf) : State :=
  if bits l.pte 58 58 = 1 then s
  else
    let r := loadNum s (l.at_ + 7) 1
    (storeAt r.1 none (l.at_ + 7) [BitVec.ofNat 8 r.2 ||| 4]).1

/-- The leaf for va: from the tray TLB, the die TLB, or the walk (R381). -/
def leafOf (s : State) (w : Who) (va : Nat) : State × Except XFault (Nat × Nat) :=
  let asid := asidOf s w.site w.ctx
  let tray := ((w.tray.bind (tblGet s.trays)).map (·.tlb)).getD []
  let die := ((tblGet s.dies w.site).map (·.dtlb)).getD []
  match tlbHit tray asid va with
  | some e => (s, .ok (e.pte.toNat, e.level))
  | none =>
    match tlbHit die asid va with
    | some e => (tlbFill s w asid va { pte := e.pte.toNat, level := e.level, at_ := 0, node := 0 }, .ok (e.pte.toNat, e.level))
    | none =>
      let r := match nodeHit die asid va with
        | some e => walkFrom s w va [0] e.pte.toNat
        | none => walk s w va
      match r with
      | (s1, .error f) => (s1, .error f)
      | (s1, .ok l) => (tlbFill (setAccessed s1 l) w asid va l, .ok (l.pte, l.level))

/-! ### Where a page lives (R374, R376 to R380) -/

/-- The interleave table's entry for a block (R378), as the page of va uses it: once an access has used an entry, a rewrite takes effect
only after a shootdown of the page (R379). -/
def interleaveEntry (s : State) (w : Who) (va b : Nat) : State × Nat :=
  let asid := asidOf s w.site w.ctx
  match ((tblGet s.dies w.site).map (·.ileave)).bind fun es => es.find? fun e => e.1 == asid && e.2.1 == va / 4096 with
  | some e => (s, e.2.2.toNat)
  | none =>
    match nameBlock s w.site with
    | some nb =>
      let r := loadNum s (nb + 512 + 4 * (b % 4096)) 4
      (if bits r.2 31 31 = 1 then r.1.upDie w.site fun d => { d with ileave := (asid, va / 4096, BitVec.ofNat 32 r.2) :: d.ileave } else r.1, r.2)
    | none => (s, 0)

/-- The target of va through a leaf. -/
def leafTarget (s : State) (w : Who) (pte lvl va : Nat) : State × Except XFault Phys :=
  let off := va % pageSize lvl
  let writable := bits pte 57 57 == 1
  match bits pte 62 60 with
  | 1 =>
    let b := bits pte 49 12 + off / 4096
    let r := interleaveEntry s w va b
    let e := r.2
    if bits e 31 31 = 0 then (r.1, .error (.page 3 0 e))
    else
      match resolveName r.1 w (bits e 30 25) with
      | (s1, .error c) => (s1, .error (.trap c))
      | (s1, .ok nb) =>
        match nameLoc nb (nb.ibase + (b / 4096 * bits e 24 12 + bits e 11 0) * 4096 + off % 4096) with
        | .error c => (s1, .error (.trap c))
        | .ok loc => (s1, .ok { attr := 1, target := .mem loc, writable })
  | 3 => (s, .ok { attr := 3, target := .mem (hostLoc (bits pte 49 12 * 4096 + off)), writable })
  | 4 => (s, .ok { attr := 4, target := .mem (tier2Loc (bits pte 42 12 * 4096 + off)), writable })
  | 5 => (s, .ok { attr := 5, target := .fabric (bits pte 55 42) (bits pte 41 12 * 4096 + off), writable })
  | a =>
    match resolveLoc s w (bits pte 55 50) (bits pte 35 12 * 4096 + off) with
    | (s1, .error c) => (s1, .error (.trap c))
    | (s1, .ok loc) => (s1, .ok { attr := a, target := .mem loc, asid := asidOf s w.site w.ctx, vblock := va / 4096, writable := writable && a != 2 })

/-- The global window (R148). -/
def inGlobal (a : Nat) : Bool := decide (a < 0xFC * 2 ^ 48)

/-- A translation for a read or a write of va (R375, R376, R381). The replica-write trap names its lane later. -/
def translate (s : State) (w : Who) (va : Nat) (isWrite : Bool) : State × Except XFault Phys :=
  match leafOf s w va with
  | (s1, .error f) => (s1, .error f)
  | (s1, .ok (pte, lvl)) =>
    if isWrite && bits pte 62 60 == 2 then (s1, .error (.trap { code := 0x16, info := BitVec.ofNat 64 va }))
    else if isWrite && bits pte 57 57 == 0 then (s1, .error (.page 2 lvl pte))
    else leafTarget s1 w pte lvl va

/-! ### Replicas (R380) -/

/-- The block of a replicated page as die `site` serves it: its replica, filled on the first read while the pool has room.
Log entry 62 (DESIGN CHOICE). -/
def replicaRead (s : State) (who : Option Nat) (site : Nat) (p : Phys) (loc n : Nat) : State × Got :=
  let blk := loc / 4096
  match ((tblGet s.dies site).map (·.replicas)).bind fun r => r.find? fun e => e.asid == p.asid && e.vblock == p.vblock && e.block == blk with
  | some e =>
    (s, { bytes := (List.range n).map fun i => cellGet e.bytes (loc % 4096 + i), ctime := e.ctimes.getD (loc % 4096 / 128) 0, bad := false })
  | none =>
    let r := loadAt s who loc n
    let frame : Cells 8 := (List.range 4096).filterMap fun i =>
      let b := readByte r.1.mem (locate r.1 (4096 * blk + i))
      if b = 0 then none else some (i, b)
    let times := (List.range 32).map fun k => (tblGet r.1.lineC (32 * blk + k)).getD 0
    (r.1.upDie site fun d =>
      { d with replicas := d.replicas ++ [{ asid := p.asid, vblock := p.vblock, block := blk, bytes := frame, ctimes := times }] }, r.2)

/-! ### The L1 (R154, R313, R317, R382) -/

/-- The L1 line of a core that serves va now. -/
def l1Hit (s : State) (core asid va : Nat) : Option L1Line :=
  ((tblGet s.cores core).map (·.l1)).bind fun ls =>
    ls.find? fun l => l.asid == asid && l.va == va / 128 && decide (ticks s < l.expiry)

/-- A line leaves the core's L1. -/
def l1Drop (s : State) (core pa : Nat) : State := s.upCore core fun c => { c with l1 := c.l1.filter fun l => l.pa != pa }

/-- A physical line is held in a tray under one tag only: copies under another tag leave (R382). -/
def trayDrop (s : State) (core asid va pa : Nat) : State :=
  { s with cores := s.cores.map fun e =>
      if e.1 / 16 = core / 16 then
        (e.1, { e.2 with l1 := e.2.l1.filter fun l => !(l.pa == pa && !(l.asid == asid && l.va == va / 128)) })
      else e }

/-- A fill of a core's L1 with a lease from the line's home (R317). Of 2049 lines the oldest leaves. Log entry 90 (DESIGN CHOICE). -/
def l1Fill (s : State) (site core asid va loc : Nat) (writable : Bool) (bytes : List Byte) (ctime : Nat) : State :=
  let home := if isHbm loc then locSite loc else site
  let e := ticks s + leaseLen s home
  let pa := lineOf loc
  let s1 := trayDrop s core asid va pa
  let cells : Cells 8 := (List.range 128).filterMap fun i => let b := bytes.getD i 0; if b = 0 then none else some (i, b)
  let s2 := s1.upCore core fun c =>
    { c with l1 := ({ asid, va := va / 128, pa, bytes := cells, expiry := e, ctime, writable } :: c.l1.filter fun l => l.pa != pa).take 2048 }
  { s2 with leases := tblSet s2.leases pa (max e ((tblGet s2.leases pa).getD 0)) }

/-- A store of the core to a line its L1 holds: the copy is updated, or removed by .cm; copies in the tray under another tag leave. -/
def l1Store (s : State) (core asid va loc : Nat) (bs : List Byte) (update : Bool) (c : Nat) : State :=
  let pa := lineOf loc
  let s1 := trayDrop s core asid va pa
  if update then
    s1.upCore core fun x => { x with l1 := x.l1.map fun l =>
      if l.pa = pa then { l with bytes := writeBytes l.bytes (loc % 128) bs, ctime := c } else l }
  else l1Drop s1 core pa

/-- Whether pages of an attribute are held in an L1 (R377). -/
def l1Cached (attr : Nat) : Bool := attr == 0 || attr == 1 || attr == 2 || attr == 4

/-- A load of n bytes at va through the L1 of a group's core: a hit needs no translation; a miss fills (R313, R381). -/
def l1Load (s : State) (w : Who) (core asid va n : Nat) (p : Phys) : State × Got :=
  match p.target with
  | .fabric _ _ => (s, { bytes := [], ctime := 0, bad := false })
  | .mem loc =>
    let base := loc - loc % 128
    let r := if p.attr = 2 then replicaRead s w.group w.site p base 128 else loadAt s w.group base 128
    let got : Got := { r.2 with bytes := (r.2.bytes.drop (loc % 128)).take n, bad := badRead r.1 (locate r.1 loc) n || badRead r.1 loc n }
    if l1Cached p.attr && !r.2.bad then (l1Fill r.1 w.site core asid va loc p.writable r.2.bytes r.2.ctime, got) else (r.1, got)

/-! ### Requests to peer panels (R419 to R423) -/

/-- The flow state of a peer (R423). -/
def peerOf (s : State) (p : Nat) : Peer := (tblGet s.peers p).getD { cap := 65536, out := 0, base := 65536, acked := 0 }

/-- The request is sent if the peer's outstanding bytes allow it. -/
def trySend (s : State) (r : Nat) : State :=
  match tblGet s.fabOut r with
  | none => s
  | some q =>
    let p := peerOf s q.peer
    if q.sent || decide (p.cap < p.out + q.size) then s
    else
      { s with
        fabOut := tblSet s.fabOut r { q with sent := true, tick := ticks s }
        peers := tblSet s.peers q.peer { p with out := p.out + q.size } }

/-- The stream of a peer and an ASID (R421). -/
def streamKey (peer asid : Nat) : Nat := peer * 65536 + asid

/-- A request of operation or owner uid of group n to a peer panel, under an ASID (R419). One with RLX 0 takes the next number of its
stream (R421). -/
def fabSend (s : State) (asid n uid lane peer fa kind size : Nat) (data : List Byte) (keep : Bool) : State :=
  let rlx := fa / 2 ^ 41 % 2 == 1
  let k := streamKey peer asid
  let seq := if rlx then 0 else (tblGet s.fabSeq k).getD 0
  let r : FabReq := { group := n, op := uid, lane, peer, fa, asid, kind, size, data, seq, sent := false, tick := ticks s, keep }
  let s1 := { s with
    fabOut := tblSet s.fabOut s.fresh r
    fabSeq := if rlx then s.fabSeq else tblSet s.fabSeq k (seq + 1)
    fresh := s.fresh + 1 }
  trySend s1 s.fresh

/-- The ASID under which group n's accesses run. -/
def groupAsid (s : State) (n : Nat) : Nat := ((tblGet s.groups n).map fun g => asidOf s (siteOf s g) (ctxOf s g)).getD 0

/-- Operation uid of group n makes a request for a lane. -/
def laneSend (s : State) (n uid lane peer fa kind size : Nat) (data : List Byte) : State :=
  fabSend s (groupAsid s n) n uid lane peer fa kind size data false

/-- Whose request an engine's access makes: its operation's, its packet's, or its group's. -/
def ownerOf (w : Who) : Nat :=
  match w.op with
  | some o => o.2
  | none => 2 ^ 48 + w.group.getD (2 ^ 32)

/-- A peer panel's answer to an engine's request, once it has come: the step lacks it before (R321, R333). A write or an atomic is not
asked for while the step lacks what may decide its data. Log entry 44 (DEDUCED). -/
def peerAsk (s : State) (w : Who) (peer fa kind size : Nat) (data : List Byte) : State × Got :=
  match s.fabGot.find? fun x => x.owner == ownerOf w && x.peer == peer && x.fa == fa && x.kind == kind && x.size == size with
  | some x =>
    let bs := x.data.getD []
    ({ s with fabGot := s.fabGot.map fun y => if y = x then { y with used := true } else y },
      { bytes := bs ++ List.replicate (size - bs.length) 0, ctime := 0, bad := x.data.isNone || (kind != 1 && decide (bs.length < size)) })
  | none =>
    (if kind = 0 ∨ s.needs = [] then lack s (.peer (ownerOf w) (asidOf s w.site w.ctx) peer fa kind size data) else s,
      { bytes := List.replicate size 0, ctime := 0, bad := false })

/-- What a step lacks is asked for: the host is snooped for the line (R334), the request is sent to the peer. -/
def askFor (s : State) (x : Need) : State :=
  match x with
  | .line l => if s.snoops.contains l then s else { s with snoops := s.snoops ++ [l], outputs := s.outputs ++ [.snoop l] }
  | .peer owner asid peer fa kind size data =>
    if s.fabOut.any fun q => q.2.keep && q.2.op == owner && q.2.peer == peer && q.2.fa == fa && q.2.kind == kind && q.2.size == size then s
    else fabSend s asid 0 owner 64 peer fa kind size data true

/-- The state after a step from s that comes to t: t where the step lacks nothing; else the step is not taken, and what it lacks is asked
for. -/
def atOnce (s t : State) : State :=
  if t.needs = [] then { t with fabGot := t.fabGot.filter fun x => !x.used } else t.needs.foldl askFor s

/-- Nothing is done after an attempt that came to t: what it lacked is asked for. -/
def notYet (s t : State) : State := { s with needs := t.needs }

/-- A home-performed load at a translated place. -/
def homeLoad (s : State) (w : Who) (n : Nat) (p : Phys) : State × Got :=
  match p.target with
  | .fabric peer fa => peerAsk s w peer fa 0 n []
  | .mem loc => if p.attr = 2 then replicaRead s w.group w.site p loc n else loadAt s w.group loc n

/-! ### Accesses of engines (R304, R321) -/

/-- What an engine's access meets. -/
inductive EngFault where
  | page (va cause level pte : Nat)
  | trap (c : Cause)
  | err
deriving DecidableEq, Repr

/-- A virtual range cut at line boundaries. -/
def vaPieces : Nat → Nat → Nat → List (Nat × Nat)
  | 0, _, _ => []
  | k + 1, va, n =>
    if n = 0 then []
    else
      let m := min n (128 - va % 128)
      (va, m) :: vaPieces k (va + m) (n - m)

def rangePieces (va n : Nat) : List (Nat × Nat) := vaPieces (n / 128 + 2) va n

/-- A translation for an engine, with the address of a fault. -/
def engTranslate (s : State) (w : Who) (va : Nat) (isWrite : Bool) : State × Except EngFault Phys :=
  if inGlobal va then
    match translate s w va isWrite with
    | (s1, .error (.page c l p)) => (s1, .error (.page va c l p))
    | (s1, .error (.trap c)) => (s1, .error (.trap c))
    | (s1, .ok p) => (s1, .ok p)
  else (s, .error (.trap { code := 0x10, info := laddr 0 (BitVec.ofNat 64 va) }))

/-- A probe of every page of a range: the lowest fault (R200, R254). -/
def probeRange (s : State) (w : Who) (va n : Nat) (isWrite : Bool) : State × Option EngFault :=
  (rangePieces va n).foldl (fun r p =>
    match r.2 with
    | some f => (r.1, some f)
    | none =>
      match engTranslate r.1 w p.1 isWrite with
      | (s1, .error f) => (s1, some f)
      | (s1, .ok _) => (s1, none)) (s, none)

/-- A relaxed home-performed read of n bytes at va by an engine (R321). -/
def engRead (s : State) (w : Who) (va n : Nat) : State × Except EngFault (List Byte) :=
  (rangePieces va n).foldl (fun r p =>
    match r.2 with
    | .error f => (r.1, .error f)
    | .ok bs =>
      match engTranslate r.1 w p.1 false with
      | (s1, .error f) => (s1, .error f)
      | (s1, .ok ph) =>
        let g := homeLoad s1 w p.2 ph
        if g.2.bad then (g.1, .error .err) else (g.1, .ok (bs ++ g.2.bytes))) (s, .ok [])

/-- A relaxed home-performed write of bytes at va by an engine, and the latest completion time. -/
def engWrite (s : State) (w : Who) (va : Nat) (bs : List Byte) : State × Except EngFault Nat :=
  (rangePieces va bs.length).foldl (fun r p =>
    match r.2 with
    | .error f => (r.1, .error f)
    | .ok c =>
      match engTranslate r.1 w p.1 true with
      | (s1, .error f) => (s1, .error f)
      | (s1, .ok ph) =>
        match ph.target with
        | .fabric peer fa =>
          let g := peerAsk s1 w peer fa 1 p.2 ((bs.drop (p.1 - va)).take p.2)
          (g.1, if g.2.bad then .error .err else .ok c)
        | .mem loc =>
          let x := storeAt s1 w.group loc ((bs.drop (p.1 - va)).take p.2)
          (x.1, .ok (max c x.2))) (s, .ok 0)

/-- A number read or written by an engine. -/
def engReadNum (s : State) (w : Who) (va n : Nat) : State × Except EngFault Nat :=
  let r := engRead s w va n
  (r.1, r.2.map leNat)

def engWriteNum (s : State) (w : Who) (va n v : Nat) : State × Except EngFault Nat := engWrite s w va (leBytes n v)

/-- The atomic add of an engine to a 64-bit word: the old value, and the completion time of the new one. -/
def engAdd (s : State) (w : Who) (va k : Nat) : State × Except EngFault (Nat × Nat) :=
  match engTranslate s w va true with
  | (s1, .error f) => (s1, .error f)
  | (s1, .ok ph) =>
    match ph.target with
    | .fabric peer fa =>
      let g := peerAsk s1 w peer fa 2 8 (leBytes 8 k)
      (g.1, if g.2.bad then .error .err else .ok (leNat g.2.bytes, ticks s1))
    | .mem loc =>
      let g := loadAt s1 w.group loc 8
      if g.2.bad then (g.1, .error .err)
      else
        let x := storeAt g.1 w.group loc (leBytes 8 ((leNat g.2.bytes + k) % 2 ^ 64))
        (x.1, .ok (leNat g.2.bytes, x.2))

/-- The global line that a stash offset is bound to. -/
def boundLine (s : State) (team off : Nat) : Option Nat := (stashBinding s team off).bind fun b => b.2.1.lines[b.2.2]?

/-- A stash access to the bytes of one line by `who`: the fill of a bound line, and the transactions of others that hold it (R186, R190). -/
def enterStash (s : State) (who : Option Nat) (team off : Nat) (isWrite : Bool) : State :=
  match boundLine s team off with
  | some gl => conflict (touchStash (needLine s gl isWrite) team off).1 who gl isWrite
  | none => s

/-- Stash bytes of a team from offset off, through its bindings; a bound line reports the completion time of its latest write, and the
errors of its home (R161, R186, R318). -/
def stashRead (s : State) (who : Option Nat) (team off n : Nat) : State × Got :=
  let ps := rangePieces off n
  let s1 := ps.foldl (fun s p => enterStash s who team p.1 false) s
  (s1, { bytes := (List.range n).map (fun i => readByte s1.mem (touchStash s1 team (off + i)).2.1)
         ctime := (ps.map fun p => ((boundLine s1 team p.1).bind (tblGet s1.lineC)).getD 0).foldl max 0
         bad := ps.any fun p => badRead s1 (touchStash s1 team p.1).2.1 p.2 ||
           ((boundLine s1 team p.1).map fun gl => badRead s1 (128 * gl + p.1 % 128) p.2).getD false })

/-- Stash bytes written by `who`, and the latest completion time: a bound line is written where its owner holds it (R186, R318). -/
def stashWrite (s : State) (who : Option Nat) (team off : Nat) (bs : List Byte) : State × Nat :=
  (pieces off bs).foldl (fun r p =>
    let s0 := enterStash r.1 who team p.1 true
    let at_ := (touchStash s0 team p.1).2.1
    match boundLine s0 team p.1 with
    | some gl =>
      let c := max (ticks s0) ((tblGet s0.leases gl).getD 0)
      let s1 := clearUnits (dirtyOwner s0 (128 * gl)) at_ p.2.length
      ({ s1 with mem := writeBytes s1.mem at_ p.2, lineC := tblSet s1.lineC gl c }, max r.2 c)
    | none =>
      let s1 := clearUnits s0 at_ p.2.length
      ({ s1 with mem := writeBytes s1.mem at_ p.2 }, max r.2 (ticks s1))) (s, 0)

/-- A stash access to some bytes meets an error at the home of a bound line that it fills (R161). -/
def fillBad (s : State) (team off n : Nat) : Bool :=
  (rangePieces off n).any fun p =>
    match boundLine s team p.1 with
    | some gl => (tblGet s.owners gl).isNone && badRead s (128 * gl) 128
    | none => false

/-- The slot of the bind conflict that a stash access to some bytes meets (R186). -/
def clashSlot (s : State) (team off n : Nat) : Option Nat := (rangePieces off n).findSome? fun p => (touchStash s team p.1).2.2

/-- The size of a team's stash. -/
def stashSize (s : State) (team : Nat) : Nat := ((tblGet s.teams team).map (·.stash)).getD 0

/-- The team of rank r of a team's cluster, while its teams are resident. -/
def clusterTeam (s : State) (team r : Nat) : Option Nat :=
  match tblGet s.teams team with
  | none => none
  | some t =>
    let c := ((tblGet s.grids t.grid).map (·.launch.csize)).getD 1
    if c ≤ r then none
    else (tblFind s.teams fun _ x => x.grid == t.grid && x.teamid == t.teamid / c * c + r).map (·.1)

/-- The number of teams in a team's cluster. -/
def clusterSize (s : State) (team : Nat) : Nat :=
  match tblGet s.teams team with
  | some t => ((tblGet s.grids t.grid).map (·.launch.csize)).getD 1
  | none => 1

/-- An engine address: the global window, or the team's own stash through window 0xFE (R201, R249, R253). -/
def inOwnStash (a : Nat) : Bool := a / 2 ^ 48 == 0xFE && a / 2 ^ 24 % 2 ^ 24 == 0

/-- The copy with number uid. -/
def findCopy (g : Group) (uid : Nat) : Option Copy := g.copies.find? fun c => c.uid == uid

/-- Copy uid changes. -/
def upCopy (uid : Nat) (f : Copy → Copy) (g : Group) : Group := { g with copies := g.copies.map fun c => if c.uid = uid then f c else c }

/-- A bind conflict that an engine's access meets is a reported error of the operation or the copy that it belongs to (R186).
Log entry 91 (DEDUCED). -/
def noteClash (s : State) (w : Who) (slot : Option Nat) : State :=
  match slot, w.op with
  | some i, some (n, uid) =>
    s.upGroup n fun g =>
      upCopy uid (fun c => { c with clash := some (c.clash.getD i) })
        (upOp g uid fun o => { o with err := some (o.err.getD { code := 0x1C, info := small i }) })
  | _, _ => s

/-- A read by an engine for a team of a generic address in the global window or window 0xFE. -/
def genRead (s : State) (w : Who) (team a n : Nat) : State × Except EngFault (List Byte) :=
  if inOwnStash a then
    let r := stashRead (noteClash s w (clashSlot s team (a % 2 ^ 24) n)) w.group team (a % 2 ^ 24) n
    (r.1, if r.2.bad then .error .err else .ok r.2.bytes)
  else engRead s w a n

/-- A write by an engine for a team of a generic address in the global window or window 0xFE, and its completion time. -/
def genWrite (s : State) (w : Who) (team a : Nat) (bs : List Byte) : State × Except EngFault Nat :=
  if inOwnStash a then
    let bad := fillBad s team (a % 2 ^ 24) bs.length
    let r := stashWrite (noteClash s w (clashSlot s team (a % 2 ^ 24) bs.length)) w.group team (a % 2 ^ 24) bs
    (r.1, if bad then .error .err else .ok r.2)
  else engWrite s w a bs

/-- CHZ rises to a completion time (R36). -/
def raiseChz (c : Nat) (g : Group) : Group := { g with chz := max g.chz c }

/-- Every memory access of the group older than uid is done: loads have returned, stores are acknowledged. -/
def opsDone (g : Group) (uid : Nat) : Bool :=
  g.ops.all fun o => decide (uid ≤ o.uid) || o.kind.isNone || o.stage == .complete

/-- The operation loads: its registers take what it reads. -/
def loads : MemKind → Bool
  | .store _ | .multicast .. | .flagged .. => false
  | .atomic _ _ dst => dst.isSome
  | _ => true

/-- The loads older than uid have returned, and its stores have entered the core's write path: none of their lanes is in flight (R319). -/
def opsPerformed (g : Group) (uid : Nat) : Bool :=
  g.ops.all fun o => decide (uid ≤ o.uid) || (match o.kind with
    | none => true
    | some k => o.stage != .issued && o.flight == [] && (!loads k || o.remote == []))

/-- An access of the group is in flight: what touches its bytes waits (R308). -/
def flying (g : Group) : Bool := g.ops.any fun o => o.flight != []

/-- A device-scope or wider scope. -/
def wideScope : Scope → Bool
  | .grp => false
  | .team => false
  | _ => true

/-- The condition of a release of the group before operation uid (R319). -/
def releaseMet (s : State) (g : Group) (sc : Scope) (uid : Nat) : Bool :=
  if wideScope sc then opsDone g uid && g.wcb == [] && passes s g.chz
  else opsPerformed g uid && g.wcb == []

end Sys2Proof.Machine
end

