-- ==== Sys2Proof/Machine/Faults.lean ====
section
/-!
DEFINITION. Replayable faults (R163, R387 to R389): the fault queue of the name block, the records that the device writes, and the
groups and engines that park at them. RING and NOTIFY are read as device addresses: log entry 21.
-/
namespace Sys2Proof.Machine

/-- Where the fault queue header of a site's name block stands (R387). -/
def faultHeader (s : State) (site : Nat) : Option Nat := (nameBlock s site).map (· + 16896)

/-- A location named by a device address held in memory (R280). Log entry 21 (DEDUCED). -/
def deviceNum (s : State) (a : Nat) : Option Nat := deviceLoc s (BitVec.ofNat 64 a)

/-- The 64 bytes of a record but SEQ and RESP, which stand at 32 to 39 (R388). -/
def faultBytes (s : State) (r : FaultRec) : List Byte :=
  let g := tblGet s.groups r.group
  let t := g.bind (teamOf s)
  let core := (t.map (·.core)).getD 0
  let grp := (g.map (·.grpid)).getD 0
  let slot := (t.bind fun t => t.slots[grp]?).getD 0
  let asid := match t with
    | some t => asidOf s t.site t.ctx
    | none => 0
  leBytes 8 r.va.toNat ++ leBytes 2 asid ++ leBytes 1 ((if r.write then 1 else 0) + (if 2 ≤ r.party then 2 else 0)) ++
    leBytes 1 r.cause ++ leBytes 1 r.level ++ leBytes 1 r.die ++ leBytes 2 0 ++ leBytes 8 r.pte.toNat ++
    leBytes 8 (core + grp % 4 * 64 + slot * 256 + grp * 4096)

/-- A claim of a record of the queue at header h: the record's number and place, where the queue has room (R387). -/
def claimSlot (s : State) (h : Nat) : Option (Nat × Nat) :=
  let w := peekNum s h 8
  if w - peekNum s (h + 8) 8 < peekNum s (h + 16) 4 then
    (deviceNum s (peekNum s (h + 24) 8)).map fun ring => (w, ring + 64 * (w % peekNum s (h + 16) 4))
  else none

/-- The claim and the write of fault record f, each one atomic update: SEQ last, then NOTIFY; on a full queue nothing happens and the claim
is tried again (R387). -/
def claimFault (s : State) (f : Nat) : State :=
  match tblGet s.faults f with
  | none => s
  | some r =>
    if r.slot.isSome then s
    else
      match faultHeader s r.site with
      | none => s
      | some h =>
        let s0 := needLine s (lineOf h) false
        match claimSlot s0 h with
        | none => s0
        | some (w, loc) =>
          let s1 := storeNum s0 none h 8 (w + 1)
          let s2 := (storeAt s1 none loc (faultBytes s r ++ leBytes 4 0 ++ leBytes 4 (w + 1) ++ leBytes 24 0)).1
          let s3 := match deviceNum s2 (peekNum s2 (h + 32) 8) with
            | some n => if peekNum s2 (h + 32) 8 = 0 then s2 else storeNum s2 none n 8 (peekNum s2 n 8 + 1)
            | none => s2
          { s3 with faults := tblSet s3.faults f { r with slot := some loc } }

/-- A party parks at a fault: its record, and the first try of its claim. The record's number is the fresh number. -/
def parkAt (s : State) (r : FaultRec) : State :=
  claimFault { s with faults := tblSet s.faults s.fresh r, fresh := s.fresh + 1 } s.fresh

/-- A record of a fault of group n. -/
def faultRec (s : State) (n party va : Nat) (isWrite : Bool) (cause level pte : Nat) (mask : Word64) : FaultRec :=
  let g := tblGet s.groups n
  let t := g.bind (teamOf s)
  { group := n, party := party, va := BitVec.ofNat 64 va, write := isWrite, cause := cause, level := level,
    die := (t.map (·.diename)).getD 0, site := (t.map (·.site)).getD 0, pte := BitVec.ofNat 64 pte, mask := mask, slot := none }

/-- Group n parks whole at its instruction or fetch, with the operands that its instruction captured (R163, R200, R267 to R269, R476).
Log entry 15 (DEDUCED). -/
def parkWhole (s : State) (n va : Nat) (isWrite : Bool) (cause level pte : Nat) (mask : Word64) (vals : Option (List Word64) := none) : State :=
  if ((tblGet s.groups n).bind (·.tx)).isSome then s.upGroup n (abortTx 3 0)
  else
    let f := s.fresh
    (parkAt s (faultRec s n 1 va isWrite cause level pte mask)).upGroup n fun g =>
      { g with wait := .parkedWhole f, captured := vals.or g.captured }

/-- What a fault of an access for the whole group does to group n: it parks at a page fault, takes a trap, or for an uncorrectable error
the memory-error trap with counter identifier 0 (R219, R267, R268, R476). -/
def wholeFault (s : State) (n : Nat) (isWrite : Bool) (mask : Word64) (f : EngFault) (vals : Option (List Word64) := none) : State :=
  match f with
  | .page va c l p => parkWhole s n va isWrite c l p mask vals
  | .trap c => trapAt s n c.code c.info
  | .err => trapAt s n 0x1A (small 0)

/-- The fetch of the word of code at address a (R476). -/
def fetchWord (s : State) (n : Nat) (g : Group) (a : Nat) : State × Option Nat :=
  if inGlobal a then
    match engReadNum s (groupWho s n g) a 4 with
    | (s1, .ok w) => (s1, some w)
    | (s1, .error f) => (wholeFault s1 n false (onesBelow g.width) f, none)
  else (trapAt s n 0x04 (BitVec.ofNat 64 a), none)

end Sys2Proof.Machine
end

