-- ==== Sys2Proof/Machine/Access.lean ====
section
/-!
DEFINITION. Memory instructions before they perform: address windows (R147 to R150), data and destination registers (R151, R152), the
checks at issue (R161, R277), tensor descriptors (R166 to R168, R393 to R396), and the operation that an instruction of the class
starts, whose fields come from its encoding.
-/
namespace Sys2Proof.Machine

/-! ### Fields (R52, R157, R166, R177, R180) -/

def orderOf (o : BitVec 3) : Order :=
  match o.toNat with
  | 0 => .rlx | 1 => .acq | 2 => .rel | 3 => .ar | _ => .sc

def scopeOf (x : BitVec 3) : Scope :=
  match x.toNat with
  | 0 => .grp | 1 => .team | 2 => .clu | 3 => .die | 4 => .dev | _ => .sys

/-- The order has a release component (R308). -/
def releases : Order → Bool
  | .rel | .ar | .sc => true
  | _ => false

/-- The order has an acquire component (R308). -/
def acquires : Order → Bool
  | .acq | .ar | .sc => true
  | _ => false

/-- The bytes of an access by the type code of R157. -/
def sizeOfType (t : BitVec 3) : Nat := [4, 8, 16, 1, 1, 2, 2].getD t.toNat 4

/-- The type sign-extends (R151). -/
def signedType (t : BitVec 3) : Bool := t == 4 || t == 6

/-- The bytes of a tensor access (R166). -/
def sizeOfTensor (t : BitVec 3) : Nat := [4, 8, 16, 1, 2].getD t.toNat 4

/-! ### Windows (R148) -/

/-- Where an address leads: global virtual memory, or a stash: the team's own, or a cluster member's by rank. -/
inductive Window where
  | global (va : Nat)
  | stash (rank : Option Nat) (off : Nat)
deriving DecidableEq, Repr

/-- The window of a generic address. -/
def genericWindow (a : Word64) : Option Window :=
  let n := a.toNat
  if n < 0xFC * 2 ^ 48 then some (.global n)
  else if n / 2 ^ 48 = 0xFE ∧ n / 2 ^ 24 % 2 ^ 24 = 0 then some (.stash none (n % 2 ^ 24))
  else if n / 2 ^ 48 = 0xFD ∧ n / 2 ^ 28 % 2 ^ 20 = 0 then some (.stash (some (n / 2 ^ 24 % 16)) (n % 2 ^ 24))
  else none

/-- The window of a stash address. -/
def stashWindow (a : Word) : Option Window :=
  let n := a.toNat
  if n / 2 ^ 29 ≠ 0 then none
  else if n / 2 ^ 28 = 1 then some (.stash (some (n / 2 ^ 24 % 16)) (n % 2 ^ 24))
  else if n / 2 ^ 24 = 0 then some (.stash none (n % 2 ^ 24))
  else none

/-- The generic address of a window. -/
def windowAddr : Window → Word64
  | .global va => BitVec.ofNat 64 va
  | .stash none off => BitVec.ofNat 64 (0xFE * 2 ^ 48 + off)
  | .stash (some r) off => BitVec.ofNat 64 (0xFD * 2 ^ 48 + r * 2 ^ 24 + off)

/-- A cluster stash is addressed (R153). -/
def isCluster (a : Word64) : Bool := a.toNat / 2 ^ 48 == 0xFD

/-- A generic address in the base register's lane, plus a byte offset (R147). -/
def genericAddr (s : State) (g : Group) (pos : Nat) (b : BitVec 7) (off : Word64) (l : Nat) : Word64 := baseOf s g pos b l + off

/-- A stash address: the even register of the base pair, plus the offset modulo 2^32 (R147). Log entry 19 (DEDUCED). -/
def stashAddr (s : State) (g : Group) (pos : Nat) (b : BitVec 7) (off : Word64) (l : Nat) : Word := lo32 (baseOf s g pos b l) + lo32 off

/-- The byte offset of format M (R51). -/
def shortOff (o : BitVec 7) : Word64 := o.signExtend 64 <<< 2

/-! ### Checks at issue (R148 to R150, R272, R277) -/

/-- A cause found in a lane, with the lane and its address. -/
structure LaneFault where
  code : Nat
  lane : Nat
  addr : Word64
deriving DecidableEq, Repr

/-- The window and the limits of one access of n bytes: the cause with the lowest code. `raw` is the address that TRAPINFO shows. -/
def checkWindow (s : State) (g : Group) (n l : Nat) (raw : Word64) (w : Option Window) (glob stash : Bool) : List LaneFault :=
  match w with
  | none => [{ code := 0x10, lane := l, addr := raw }]
  | some (.global va) =>
    if !glob then [{ code := 0x10, lane := l, addr := raw }]
    else if va % n ≠ 0 then [{ code := 0x12, lane := l, addr := raw }] else []
  | some (.stash r off) =>
    if !stash then [{ code := 0x10, lane := l, addr := raw }]
    else if stashSize s g.team < off + n || (match r with
        | some k => decide (clusterSize s g.team ≤ k)
        | none => false) then
      [{ code := 0x11, lane := l, addr := raw }]
    else if off % n ≠ 0 then [{ code := 0x12, lane := l, addr := raw }] else []

/-- The cause that an instruction raises among those of its lanes: the lowest code, and its lowest lane. Log entry 85 (DEDUCED). -/
def lowestFault (fs : List LaneFault) : Option Cause :=
  fs.foldl (fun (m : Option LaneFault) f =>
    match m with
    | none => some f
    | some x => if f.code < x.code ∨ (f.code = x.code ∧ f.lane < x.lane) then some f else m) none |>.map fun f =>
      { code := f.code, info := laddr f.lane f.addr }

/-! ### Data (R151, R152, R171) -/

/-- The 32-bit registers that n bytes take. -/
def regsFor (n : Nat) : Nat := (n + 3) / 4

/-- Register k of a data destination: lane l of a vector register, or a uniform register. -/
def dataReg (g : Group) (uni : Bool) (d k l : Nat) : Reg :=
  if uni then (if d < 32 then sReg g (d + k) else .h (d - 32 + k)) else .v (d + k) l

/-- The words of store data of n bytes in lane l, read at source position pos. -/
def dataWords (s : State) (g : Group) (pos : Nat) (uni : Bool) (d n l : Nat) : List Word :=
  (List.range (regsFor n)).map fun k =>
    if uni then (if d < 32 then readS s.draws pos g (d + k) else readH s pos g (d - 32 + k))
    else if d < 48 then readV s.draws pos g (d + k) l
    else readQ g (d - 48 + (regsFor n - 1 - k)) l

/-- The bytes of some words. -/
def wordsBytes (ws : List Word) : List Byte := ws.flatMap fun w => leBytes 4 w.toNat

/-- The words of some bytes, padded with 0. -/
def bytesWords (bs : List Byte) : List Word := (List.range (regsFor bs.length)).map fun k => BitVec.ofNat 32 (bytesNum bs (4 * k) 4)

/-- The store data of n bytes: the low bytes of its register. -/
def storeBytes (s : State) (g : Group) (pos : Nat) (uni : Bool) (d n l : Nat) : List Byte :=
  (wordsBytes (dataWords s g pos uni d n l)).take n

/-- Loaded bytes as register values, extended to 32 bits (R151). -/
def loadWords (signed : Bool) (bs : List Byte) : List Word :=
  if signed && bs.length == 1 then [(BitVec.ofNat 8 (leNat bs)).signExtend 32]
  else if signed && bs.length == 2 then [(BitVec.ofNat 16 (leNat bs)).signExtend 32]
  else bytesWords bs

/-- The registers that a load of n bytes writes in some lanes. -/
def loadDests (g : Group) (uni : Bool) (d n : Nat) (ls : List Nat) : List Reg :=
  ls.flatMap fun l => (List.range (regsFor n)).map fun k => dataReg g uni d k l

/-! ### The operation of an instruction (R32, R153, R157, R169, R174, R177, R180) -/

/-- An operation as its instruction's fields give it. -/
def opFor (len : Nat) (ctr : Counter) (kind : MemKind) (order scope : BitVec 3) (cache : BitVec 2) (nt : Bool) : Op :=
  { uid := 0, ctr := ctr, len := len, kind := some kind, order := orderOf order, scope := scopeOf scope, cache := cache.toNat, nt := nt }

def shortOp (ctr : Counter) (kind : MemKind) : Op := opFor 1 ctr kind 0 0 0 false
def longOp (ctr : Counter) (kind : MemKind) (m : MLOps) : Op := opFor 2 ctr kind m.order m.scope m.cache m.nt

/-- The operation that a memory instruction starts: none for the other instructions. -/
def opOf : Instr → Option Op
  | .ld _ d _ _ | .lds _ d _ _ => some (shortOp .ld (.load 4 false false d.toNat))
  | .ldc _ d _ _ => some (shortOp .ld (.const 4 false false d.toNat))
  | .st .. | .sts .. => some (shortOp .st (.store 4))
  | .ldLong t uni m | .ldsLong t uni m => some (longOp .ld (.load (sizeOfType t) (signedType t) uni m.d.toNat) m)
  | .ldcLong t uni m => some (longOp .ld (.const (sizeOfType t) (signedType t) uni m.d.toNat) m)
  | .stLong t _ m | .stsLong t _ m => some (longOp .st (.store (sizeOfType t)) m)
  | .ldt _ d _ _ t order scope cache nt _ => some (opFor 2 .ld (.load (sizeOfTensor t) false false d.toNat) order scope cache nt)
  | .stt _ _ _ _ t order scope cache nt _ => some (opFor 2 .st (.store (sizeOfTensor t)) order scope cache nt)
  | .atom aop t m | .atoms aop t m => some (longOp .ld (.atomic aop.toNat t.toNat (some m.d.toNat)) m)
  | .red aop t m => some (longOp .st (.atomic aop.toNat t.toNat none) m)
  | .atom2Dcas _ d _ _ w64 order scope => some (opFor 2 .ld (.dcas w64 d.toNat) order scope 0 false)
  | .atom2Amov _ d _ _ w64 order scope => some (opFor 2 .ld (.amov w64 d.toNat) order scope 0 false)
  | .stf _ _ _ _ t order scope => some (opFor 2 .st (.flagged (sizeOfType t) 0) order scope 0 false)
  | _ => none

/-- The instruction's words as 64 bits. -/
def wordsOf (i : Instr) : Word64 := BitVec.ofNat 64 (leNat (encodeBytes i) % 2 ^ 64)

/-! ### Tensor descriptors (R393 to R396) -/

/-- A tensor descriptor. -/
structure Desc where
  rank : Nat
  ew : Nat
  ext : List Nat
  sblk : List Nat
  stab : Nat
  lstr : List Nat
deriving DecidableEq, Repr

/-- Ceiling division. -/
def ceilDiv (a b : Nat) : Nat := (a + b - 1) / b

/-- The shards along each dimension, and their number. -/
def Desc.shards (d : Desc) : List Nat := (List.range 4).map fun k => ceilDiv (d.ext.getD k 1) (d.sblk.getD k 1)
def Desc.shardCount (d : Desc) : Nat := (d.shards).foldl (· * ·) 1

/-- The 64 bytes of a descriptor, or none where it is invalid (R394). -/
def readDesc (bs : List Byte) : Option Desc :=
  let ctl := bytesNum bs 0 4
  let rank := bits ctl 27 26 + 1
  let field (o k : Nat) : Nat := bytesNum bs (o + 4 * k) 4
  let d : Desc :=
    { rank := rank, ew := 4 * 2 ^ bits ctl 25 23, ext := (List.range 4).map (field 8), sblk := (List.range 4).map (field 24),
      stab := bytesNum bs 40 8, lstr := (List.range 3).map (field 48) }
  let used := (List.range rank).all fun k => d.ext.getD k 0 != 0 && d.sblk.getD k 0 != 0 && d.sblk.getD k 0 ≤ d.ext.getD k 0
  let unused := (List.range 4).all fun k =>
    k < rank || (d.ext.getD k 0 == 1 && d.sblk.getD k 0 == 1 && (k == 0 || d.lstr.getD (k - 1) 0 == 0))
  let strides := (rank < 2 || decide (ceilDiv (d.sblk.getD 0 0 * d.ew) 8 ≤ d.lstr.getD 0 0)) &&
    (List.range 4).all fun k => k < 2 || rank ≤ k || decide (d.sblk.getD (k - 1) 0 * d.lstr.getD (k - 2) 0 ≤ d.lstr.getD (k - 1) 0)
  if bits ctl 31 31 = 1 && bits ctl 30 28 = 0 && bits ctl 22 0 = 0 && bits ctl 25 23 ≤ 4 && bytesNum bs 4 4 = 0 &&
      bytesNum bs 60 4 = 0 && d.stab % 8 = 0 && used && unused && strides && d.shardCount ≤ 65536 then some d
  else none

/-- What resolving coordinates meets: a fault of an access, or the descriptor trap. -/
inductive DescFault where
  | eng (f : EngFault)
  | desc
deriving DecidableEq, Repr

/-- The key of a context's address in the descriptor cache. -/
def descKey (s : State) (w : Who) (va : Nat) : Nat := asidOf s w.site w.ctx * 2 ^ 64 + va

/-- Descriptor i of a table through the die's descriptor cache (R396). Log entry 31 (DEDUCED). -/
def fetchDesc (s : State) (w : Who) (table ndesc i : Nat) : State × Except DescFault Desc :=
  if ndesc ≤ i then (s, .error .desc)
  else
    let toDesc (bs : List Byte) : Except DescFault Desc := match readDesc bs with
      | some d => .ok d
      | none => .error .desc
    let key := descKey s w table
    match ((tblGet s.dies w.site).map (·.descs)).bind fun ds => ds.find? fun e => e.1 == key && e.2.1 == i with
    | some e => (s, toDesc (readBytes e.2.2 0 64))
    | none =>
      match engRead s w (table + 64 * i) 64 with
      | (s1, .error f) => (s1, .error (.eng f))
      | (s1, .ok bs) =>
        (s1.upDie w.site fun x => { x with descs := (key, i, writeBytes [] 0 bs) :: x.descs }, toDesc bs)

/-- Shard-table entry k through the cache, its name and base (R394, R396). -/
def fetchShard (s : State) (w : Who) (stab k : Nat) : State × Except DescFault (Nat × Nat) :=
  let toShard (x : Nat) : Except DescFault (Nat × Nat) :=
    if bits x 57 57 = 1 && bits x 56 56 = 0 then .ok (bits x 63 58, bits x 55 0) else .error .desc
  let key := descKey s w (stab + 8 * k)
  match ((tblGet s.dies w.site).map (·.shards)).bind fun ds => ds.find? fun e => e.1 == key with
  | some e => (s, toShard e.2.toNat)
  | none =>
    match engReadNum s w (stab + 8 * k) 8 with
    | (s1, .error f) => (s1, .error (.eng f))
    | (s1, .ok x) => (s1.upDie w.site fun d => { d with shards := (key, BitVec.ofNat 64 x) :: d.shards }, toShard x)

/-- The coordinate is in extent (R395). -/
def inExtent (d : Desc) (c : List Nat) : Bool := (List.range 4).all fun k => decide (c.getD k 0 < d.ext.getD k 1)

/-- The shard number of a coordinate, and its place within the shard (R395). -/
def shardOf (d : Desc) (c : List Nat) : Nat :=
  let j (k : Nat) : Nat := c.getD k 0 / d.sblk.getD k 1
  let n := d.shards
  j 0 + n.getD 0 1 * (j 1 + n.getD 1 1 * (j 2 + n.getD 2 1 * j 3))

/-- The byte offset of a coordinate within its shard. -/
def shardOffset (d : Desc) (c : List Nat) : Nat :=
  let i (k : Nat) : Nat := c.getD k 0 % d.sblk.getD k 1
  i 0 * d.ew / 8 + i 1 * d.lstr.getD 0 0 + i 2 * d.lstr.getD 1 0 + i 3 * d.lstr.getD 2 0

/-- The first bit of the element is not at the start of a byte (R395). -/
def midByte (d : Desc) (c : List Nat) : Bool := c.getD 0 0 % d.sblk.getD 0 1 * d.ew % 8 != 0

/-- resolve (R395): die name and address. -/
def resolveCoord (s : State) (w : Who) (d : Desc) (c : List Nat) : State × Except DescFault (Nat × Nat) :=
  match fetchShard s w d.stab (shardOf d c) with
  | (s1, .error f) => (s1, .error f)
  | (s1, .ok (n, base)) => (s1, .ok (n, (base + shardOffset d c) % 2 ^ 64))

/-- The half bytes of an access of n bytes at coordinate c that lie outside the extent or past the shard (R168).
Log entry 30 (DEDUCED). -/
def clippedNibbles (d : Desc) (n : Nat) (c : List Nat) : List Nat :=
  (List.range (2 * n)).filter fun h =>
    let k := 4 * h / d.ew
    !inExtent d ((c.getD 0 0 + k) :: c.drop 1) || decide (d.sblk.getD 0 1 ≤ c.getD 0 0 % d.sblk.getD 0 1 + k)

end Sys2Proof.Machine
end

