-- ==== Sys2Proof/Machine/Perform.lean ====
section
/-!
DEFINITION. How a memory operation performs (R154, R158, R161 to R164, R172, R175, R181): store buffers, requests to peer panels, the
translation of a lane, the effect of each kind of operation in its lanes, and its completion.
-/
namespace Sys2Proof.Machine

/-! ### Store buffers (R154, R193) -/

/-- The byte that a buffer holds for a location. -/
def bufByte (b : List BufLine) (loc : Nat) : Option Byte :=
  (b.find? fun x => x.line.toNat == loc / 128).bind fun x =>
    if (cellGet x.bytes (loc % 128)).getLsbD 8 then some ((cellGet x.bytes (loc % 128)).truncate 8) else none

/-- Bytes as a buffer overlays them. -/
def overlay (b : List BufLine) (loc : Nat) (bs : List Byte) : List Byte :=
  (List.range bs.length).map fun i => (bufByte b (loc + i)).getD (bs.getD i 0)

/-- The bytes of one line put into its cells. -/
def bufCells (c : Cells 9) (off : Nat) (bs : List Byte) : Cells 9 :=
  (List.range bs.length).foldl (fun c i => cellSet c (off + i) ((bs.getD i 0).setWidth 9 ||| 256)) c

/-- A buffer with the bytes of an access within one line. -/
def bufPut (b : List BufLine) (now loc : Nat) (bs : List Byte) : List BufLine :=
  if b.any fun x => x.line.toNat == loc / 128 then
    b.map fun x =>
      if x.line.toNat = loc / 128 then { x with bytes := bufCells x.bytes (loc % 128) bs, last := now } else x
  else b ++ [{ line := BitVec.ofNat 64 (loc / 128), bytes := bufCells [] (loc % 128) bs, last := now }]

/-- The runs of bytes that a buffered line holds. -/
def runsFrom (c : Cells 9) : Nat → Nat → List (Nat × List Byte)
  | 0, _ => []
  | k + 1, i =>
    let rest := runsFrom c k (i + 1)
    let v := cellGet c i
    if v.getLsbD 8 then
      match rest with
      | (j, bs) :: t => if j = i + 1 then (i, v.truncate 8 :: bs) :: t else (i, [v.truncate 8]) :: rest
      | [] => [(i, [v.truncate 8])]
    else rest

/-- A place in one number, under which a store buffer keeps it: a location, for a bound stash line its global one (R305), for another stash
byte a number above 2^58 by its team's TEAMID, which a save keeps, or a peer and fabric address above 2^60. -/
def stashKey (s : State) (team off : Nat) : Nat :=
  match boundLine s team off with
  | some gl => 128 * gl + off % 128
  | none => stashLoc (((tblGet s.teams team).map (·.teamid)).getD 0) off

/-- The team of group n's grid with a TEAMID. -/
def gridTeam (s : State) (n teamid : Nat) : Option Nat :=
  ((tblGet s.groups n).bind (teamOf s)).bind fun t => (tblFind s.teams fun _ x => x.grid == t.grid && x.teamid == teamid).map (·.1)

def peerKey (peer fa : Nat) : Nat := 2 ^ 60 + peer * 2 ^ 42 + fa

/-- Bytes of a buffer of group n are stored at the place that a key names; the completion time. -/
def storeKey (s : State) (n key : Nat) (bs : List Byte) : State × Nat :=
  if 2 ^ 60 ≤ key then
    (laneSend s n 0 64 ((key - 2 ^ 60) / 2 ^ 42) (key % 2 ^ 42) 1 bs.length bs, 0)
  else if 2 ^ 58 ≤ key then
    match gridTeam s n ((key - 2 ^ 58) / 2 ^ 24) with
    | some t => stashWrite s (some n) t (key % 2 ^ 24) bs
    | none => (s, 0)
  else storeAt s (some n) key bs

/-- A buffered line of group n is written at its home; the latest completion time. -/
def sendLine (s : State) (n : Nat) (x : BufLine) : State × Nat :=
  (runsFrom x.bytes 128 0).foldl (fun r p =>
    let w := storeKey r.1 n (128 * x.line.toNat + p.1) p.2
    (w.1, max r.2 w.2)) (s, 0)

/-- The completion time of a write of a line reaches the operations of group n that wrote it. -/
def raiseLine (s : State) (n line c : Nat) : State :=
  s.upGroup n fun g => { g with ops := g.ops.map fun o => if o.lines.contains line then { o with ctime := max o.ctime c } else o }

/-- One line of the write-combining buffer goes to its home (R154); the core's L1 copy leaves. -/
def sendWcb (s : State) (n line : Nat) : State :=
  match tblGet s.groups n with
  | none => s
  | some g =>
    match g.wcb.find? fun x => x.line.toNat == line with
    | none => s
    | some x =>
      let s1 := s.putGroup n { g with wcb := g.wcb.filter fun y => y.line.toNat != line }
      let r := sendLine s1 n x
      let s2 := raiseLine r.1 n line r.2
      match (groupWho s n g).core with
      | some c => l1Drop s2 c line
      | none => s2

/-- The whole write-combining buffer goes to its homes. -/
def drainWcb (s : State) (n : Nat) : State :=
  match tblGet s.groups n with
  | none => s
  | some g => g.wcb.foldl (fun s x => sendWcb s n x.line.toNat) s

/-! ### Where a lane's access performs -/

/-- An acquire of this kind is performed at the home (R155). -/
def atHome (o : Op) : Bool := (acquires o.order && wideScope o.scope) || o.cache == 1

/-- The core's L1 line under the tag of va, whether or not its lease has expired. -/
def l1Held (s : State) (core asid va : Nat) : Option L1Line :=
  ((tblGet s.cores core).map (·.l1)).bind fun ls => ls.find? fun l => l.asid == asid && l.va == va / 128

/-- The launch of a group. -/
def gridNum (s : State) (g : Group) : Nat := ((teamOf s g).map (·.grid)).getD 0

/-- The constant-cache line that serves va for a group's launch: its bytes as filled, or freely as the line stands now: after a store to it
a read returns either (R159). -/
def constHit (s : State) (g : Group) (core asid va lane : Nat) : Option (Cells 8) :=
  (((tblGet s.cores core).map (·.constLines)).bind fun ls =>
    ls.find? fun x => x.grid == gridNum s g && x.asid == asid && x.va == va / 128).map fun x =>
      if Config.freeBool s.draws (readIdx 12 lane) then writeBytes [] 0 (peekBytes s (128 * x.pa) 128) else x.bytes

/-- The place of an access that needs no translation (R162, R381): a stash, an L1 hit, a store to a line that the L1 holds, a
constant-cache hit. -/
def freeSpot (s : State) (n : Nat) (g : Group) (o : Op) (lane : Nat) (a : Word64) : Option Spot :=
  match genericWindow a with
  | some (.stash none off) => some (.stash g.team off)
  | some (.stash (some r) off) =>
    some (match clusterTeam s g.team r with
      | some t => .stash t off
      | none => .gone)
  | some (.global va) =>
    let w := groupWho s n g
    let asid := asidOf s w.site w.ctx
    match o.kind, w.core with
    | some (.load ..), some c => if g.tx.isSome || atHome o then none else (l1Hit s c asid va).map .l1
    | some (.store _), some c =>
      ((l1Held s c asid va).filter (·.writable)).map fun x => .phys { attr := 0, target := .mem (128 * x.pa + va % 128), writable := true }
    | some (.const ..), some c => (constHit s g c asid va lane).map .const
    | _, _ => none
  | none => some .gone

/-- The operation writes where its lanes point. -/
def writesAt : MemKind → Bool
  | .store _ | .atomic .. | .dcas .. | .flagged .. => true
  | _ => false

/-- The site whose TLB translates a lane: the group's own, or the owner of a tensor shard (R167, R395). -/
def laneWho (s : State) (n : Nat) (g : Group) (l : LaneAcc) : State × Except Cause Who :=
  let w := groupWho s n g
  match l.die with
  | none => (s, .ok w)
  | some nm =>
    match resolveName s w nm with
    | (s1, .error c) => (s1, .error c)
    | (s1, .ok b) => (s1, .ok (if b.site = w.site then w else { w with site := b.site, tray := none }))

/-- Whether a page of an attribute takes the operation (R173, R176, R181): the trap where it does not. -/
def pageTakes (k : MemKind) (attr : Nat) (a : Word64) (lane : Nat) : Option Cause :=
  match k with
  | .atomic op ty _ =>
    let ok := (op = 0 && ty ≤ 3) || op = 6 || op = 7
    if (attr = 3 || attr = 5) && !ok then some { code := 0x17, info := laddr lane a } else none
  | .dcas .. | .amov .. => if attr ≤ 1 then none else some { code := 0x17, info := laddr lane a }
  | .flagged .. => if attr = 3 then some { code := 0x10, info := laddr lane a } else none
  | _ => none

/-- A translation trap as it names its lane: the address of R272 in place of the engine's. -/
def laneCause (k : MemKind) (lane : Nat) (a : Word64) (c : Cause) : Cause :=
  if c.code = 0x16 then
    match k with
    | .dcas .. | .amov .. => { code := 0x17, info := laddr lane a }
    | _ => { code := 0x16, info := laddr lane a }
  else c

/-- One address of a lane passes translation or fails (R161 to R163). -/
def passAddr (s : State) (n : Nat) (g : Group) (o : Op) (k : MemKind) (l : LaneAcc) (a : Word64) (isWrite : Bool) :
    State × Except XFault Spot :=
  match freeSpot s n g o l.lane a with
  | some p => (s, .ok p)
  | none =>
    match laneWho s n g l with
    | (s1, .error c) => (s1, .error (.trap c))
    | (s1, .ok w) =>
      match translate s1 w a.toNat isWrite with
      | (s2, .error (.trap c)) => (s2, .error (.trap (laneCause k l.lane a c)))
      | (s2, .error f) => (s2, .error f)
      | (s2, .ok p) =>
        match pageTakes k p.attr a l.lane with
        | some c => (s2, .error (.trap c))
        | none => (s2, .ok (.phys p))

/-- A lane that fails translation: the address at which it fails, whether it would write there, and why. -/
structure LaneStop where
  acc : LaneAcc
  va : Nat
  write : Bool
  f : XFault
deriving DecidableEq, Repr

/-- A lane passes translation: with both its words for ATOM2. The flag of an STF must be aligned (R181); its trap names lane 0.
Log entry 92 (DESIGN CHOICE). -/
def passLane (s : State) (n : Nat) (g : Group) (o : Op) (k : MemKind) (l : LaneAcc) : State × Except LaneStop Passed :=
  let stop (a : Word64) (w : Bool) (f : XFault) : LaneStop := { acc := l, va := a.toNat, write := w, f := f }
  match k with
  | .dcas .. | .amov .. =>
    let w1 := match k with
      | .dcas .. => true
      | _ => false
    match passAddr s n g o k l l.addr w1 with
    | (s1, .error f) => (s1, .error (stop l.addr w1 f))
    | (s1, .ok p) =>
      match passAddr s1 n g o k l l.addr2 true with
      | (s2, .error f) => (s2, .error (stop l.addr2 true f))
      | (s2, .ok q) => (s2, .ok { acc := l, spot := p, spot2 := q })
  | _ =>
    if l.lane = 64 && l.addr.toNat % 8 != 0 then (s, .error (stop l.addr true (.trap { code := 0x10, info := laddr 0 l.addr })))
    else
      match passAddr s n g o k l l.addr (writesAt k) with
      | (s1, .error f) => (s1, .error (stop l.addr (writesAt k) f))
      | (s1, .ok p) => (s1, .ok { acc := l, spot := p })

/-! ### The operation changes -/

/-- Operation uid of group n changes. -/
def State.upOperation (s : State) (n uid : Nat) (f : Op → Op) : State := s.upGroup n fun g => upOp g uid f

/-- The access is still being performed: its group's transaction has not aborted. -/
def performing (s : State) (n uid : Nat) : Bool :=
  match (tblGet s.groups n).bind fun g => findOp g uid with
  | some o => o.stage != .complete
  | none => false

/-- The reported error of a read that met an uncorrectable error (R161, R164). -/
def memError (o : Op) : Cause := { code := 0x1A, info := small o.ctr.ident }

/-- An unspecified word: loaded data that met an error (R164). -/
def lostWord (s : State) (l k : Nat) : Word := Config.freeWord s.draws (readIdx 8 (laneCell k l))

/-- A read of lane l returns: its words go to their registers when the operation retires. -/
def landRead (s : State) (n uid : Nat) (regs : List Reg) (l : Nat) (ws : List Word) (got : Got) : State :=
  let vals := if got.bad then (List.range ws.length).map (lostWord s l) else ws
  s.upGroup n fun g =>
    let g1 := upOp g uid fun o =>
      { o with
        writes := o.writes ++ regs.zip vals
        readC := max o.readC got.ctime
        err := if got.bad then some (o.err.getD (memError o)) else o.err }
    { g1 with readC := max g1.readC got.ctime }

/-- A write of lane l at a line's home. -/
def landWrite (s : State) (n uid line c : Nat) : State :=
  s.upOperation n uid fun o => { o with lines := line :: o.lines.filter (· != line), ctime := max o.ctime c }

/-- The touching group of an access to a bound stash line that another stash owns takes the bind-conflict trap as a reported error
(R186). -/
def bindConflict (s : State) (n uid team off : Nat) : State :=
  match clashSlot s team off 1 with
  | some i => s.upOperation n uid fun o => { o with err := some (o.err.getD { code := 0x1C, info := small i }) }
  | none => s

/-- An access to an expander notes when it was made (R425). -/
def noteTier2 (s : State) (n uid : Nat) (loc : Nat) : State :=
  if 2 ^ 56 ≤ loc && loc < 2 ^ 57 then s.upOperation n uid fun o => { o with since := some (o.since.getD (ticks s)) } else s

/-! ### Transactions (R189, R190) -/

/-- A line joins the transaction of group n, or the transaction aborts: at the 65th line, or on another die. -/
def txJoin (s : State) (n loc : Nat) (isWrite : Bool) : State :=
  s.upGroup n fun g =>
    match g.tx with
    | none => g
    | some t =>
      let line := lineOf loc
      if !isHbm loc || t.site.getD (locSite loc) != locSite loc || (!t.lines.contains line && decide (64 ≤ t.lines.length)) then abortTx 2 0 g
      else
        { g with tx := some { t with
            site := some (locSite loc)
            lines := if t.lines.contains line then t.lines else line :: t.lines
            written := if isWrite && !t.written.contains line then line :: t.written else t.written } }

/-- The byte that a transaction's buffer holds for a location. -/
def txByte (t : Tx) (loc : Nat) : Option Byte := (t.bytes.find? fun e => e.1 == loc).map (·.2)

/-- The transaction of group n buffers bytes. -/
def txPut (s : State) (n uid loc : Nat) (bs : List Byte) : State :=
  s.upGroup n fun g =>
    { g with tx := g.tx.map fun t =>
        { t with
          bytes := ((List.range bs.length).map fun i => (loc + i, bs.getD i 0)) ++
            t.bytes.filter fun e => !(decide (loc ≤ e.1) && decide (e.1 < loc + bs.length))
          stores := if t.stores.contains uid then t.stores else uid :: t.stores } }

/-! ### Loads (R158, R159, R168) -/

/-- Bytes in which the clipped half bytes read 0 (R168). -/
def clipRead (l : LaneAcc) (bs : List Byte) : List Byte :=
  (List.range bs.length).map fun i =>
    let b := bs.getD i 0
    let b1 := if l.clipped.contains (2 * i) then b &&& 0xF0 else b
    if l.clipped.contains (2 * i + 1) then b1 &&& 0x0F else b1

/-- Bytes to store over old ones, the clipped half bytes kept (R168). -/
def clipWrite (l : LaneAcc) (old bs : List Byte) : List Byte :=
  (List.range bs.length).map fun i =>
    let b := bs.getD i 0
    let o := old.getD i 0
    let b1 := if l.clipped.contains (2 * i) then (b &&& 0xF0) ||| (o &&& 0x0F) else b
    if l.clipped.contains (2 * i + 1) then (b1 &&& 0x0F) ||| (o &&& 0xF0) else b1

/-- A read of group n at a translated place of global memory: through its transaction, its ordered buffer, the L1, or the home. -/
def readGlobal (s : State) (n : Nat) (g : Group) (o : Op) (l : LaneAcc) (size : Nat) (p : Phys) : State × Got :=
  match p.target with
  | .fabric _ _ => (s, { bytes := [], ctime := 0, bad := false })
  | .mem loc =>
    let s0 := sendWcb s n (lineOf loc)
    let w := groupWho s n g
    match g.tx with
    | some t =>
      let r := homeLoad s0 w size p
      let bs := overlay g.sbuf loc r.2.bytes
      (r.1, { r.2 with bytes := (List.range size).map fun i => (txByte t (loc + i)).getD (bs.getD i 0) })
    | none =>
      let r := if atHome o || w.core.isNone then homeLoad s0 w size p
        else l1Load s0 w (w.core.getD 0) (asidOf s w.site w.ctx) l.addr.toNat size p
      (r.1, { r.2 with bytes := overlay g.sbuf loc r.2.bytes })

/-- A load of `size` bytes performs in one lane. -/
def loadLane (s : State) (n uid size : Nat) (signed uni : Bool) (dst : Nat) (p : Passed) : State :=
  match tblGet s.groups n with
  | none => s
  | some g =>
    match findOp g uid with
    | none => s
    | some o =>
      let l := p.acc
      let regs := (List.range (regsFor size)).map fun k => dataReg g uni dst k l.lane
      let land (s : State) (r : Got) : State := landRead s n uid regs l.lane (loadWords signed (clipRead l r.bytes)) r
      match p.spot with
      | .stash t off =>
        let r := stashRead (bindConflict s n uid t off) (some n) t off size
        land r.1 { r.2 with bytes := overlay g.sbuf (stashKey r.1 t off) r.2.bytes }
      | .gone => land s { bytes := List.replicate size 0, ctime := 0, bad := l.clipped.length < 2 * size }
      | .l1 x =>
        let loc := 128 * x.pa + l.addr.toNat % 128
        let s0 := sendWcb s n x.pa
        match l1Hit s0 ((groupWho s n g).core.getD 0) x.asid l.addr.toNat with
        | some y =>
          land s0 { bytes := overlay g.sbuf loc (readBytes y.bytes (l.addr.toNat % 128) size), ctime := y.ctime, bad := false }
        | none =>
          let r := loadAt s0 (some n) loc size
          land r.1 { r.2 with bytes := overlay g.sbuf loc r.2.bytes }
      | .const c => land s { bytes := readBytes c (l.addr.toNat % 128) size, ctime := 0, bad := false }
      | .phys ph =>
        match ph.target with
        | .fabric peer fa =>
          if g.tx.isSome then s.upGroup n (abortTx 2 0)
          else
            let own := (List.range size).filterMap fun i => (bufByte g.sbuf (peerKey peer fa + i)).map fun b => (i, b)
            laneSend (s.upOperation n uid fun o => { o with remote := o.remote ++ [{ l with own := own }] }) n uid l.lane peer fa 0 size []
        | .mem loc =>
          let s1 := txJoin s n loc false
          if performing s1 n uid then
            match tblGet s1.groups n with
            | some g1 =>
              let r := readGlobal s1 n g1 o l size ph
              land (noteTier2 r.1 n uid loc) r.2
            | none => s1
          else s1

/-- A load through the constant cache performs in one lane: a miss fills its line (R159). -/
def constLane (s : State) (n uid size : Nat) (signed uni : Bool) (dst : Nat) (p : Passed) : State :=
  match tblGet s.groups n with
  | none => s
  | some g =>
    let w := groupWho s n g
    match p.spot with
    | .phys { target := .mem loc, attr, asid, vblock, writable } =>
      let r := homeLoad s w 128 { attr, target := .mem (loc - loc % 128), asid, vblock, writable }
      let line : ConstLine :=
        { grid := gridNum s g, asid := asidOf s w.site w.ctx, va := p.acc.addr.toNat / 128, pa := lineOf loc, bytes := writeBytes [] 0 r.2.bytes }
      let s1 := if r.2.bad then r.1 else r.1.upCore (w.core.getD 0) fun c => { c with constLines := line :: c.constLines }
      let got : Got := { r.2 with bytes := (r.2.bytes.drop (loc % 128)).take size }
      landRead s1 n uid ((List.range (regsFor size)).map fun k => dataReg g uni dst k p.acc.lane) p.acc.lane
        (loadWords signed got.bytes) got
    | _ => loadLane s n uid size signed uni dst p

/-! ### Stores (R154, R158, R168) -/

/-- The pieces that a lane's store writes, by offset: all its bytes, or each byte that is not clipped whole (R168). -/
def storeRuns (l : LaneAcc) (bs : List Byte) : List (Nat × List Byte) :=
  if l.clipped = [] then [(0, bs)]
  else (List.range bs.length).filterMap fun i =>
    if l.clipped.contains (2 * i) && l.clipped.contains (2 * i + 1) then none else some (i, [bs.getD i 0])

/-- A store of bytes by group n at a translated place of memory, outside a transaction and ordered mode. A copy that the core's L1 holds is
updated whatever the order of the store, ST.sc at .clu or wider too (R154, where R155 differs). Log entry 93 (DEDUCED). -/
def storeGlobal (s : State) (n uid : Nat) (g : Group) (o : Op) (va loc : Nat) (bs : List Byte) : State :=
  let w := groupWho s n g
  let asid := asidOf s w.site w.ctx
  if o.nt then
    let s1 := match w.core with
      | some c => l1Store s c asid va loc bs false 0
      | none => s
    let s2 := s1.upGroup n fun g => { g with wcb := bufPut g.wcb s.clock loc bs }
    let s3 := landWrite s2 n uid (lineOf loc) 0
    let held : Option BufLine := (tblGet s3.groups n).bind fun g => g.wcb.find? fun x => x.line.toNat == lineOf loc
    if (held.map fun x => x.bytes.length) = some 128 then sendWcb s3 n (lineOf loc) else s3
  else
    let r := storeAt (sendWcb s n (lineOf loc)) (some n) loc bs
    let s1 := match w.core with
      | some c => l1Store r.1 c asid va loc bs (o.cache != 1) r.2
      | none => r.1
    landWrite s1 n uid (lineOf loc) r.2

/-- A store of group n's operation in a stash; on a bound line its acknowledgement returns the line's completion time, and the errors of
the home that it fills from are reported (R36, R161, R186). -/
def storeStash (s : State) (n uid team off : Nat) (bs : List Byte) : State :=
  let bad := fillBad s team off bs.length
  let r := stashWrite (bindConflict s n uid team off) (some n) team off bs
  let s1 := if bad then r.1.upOperation n uid fun o => { o with err := some (o.err.getD (memError o)) } else r.1
  match boundLine s1 team off with
  | some gl => landWrite s1 n uid gl r.2
  | none => s1

/-- The bytes that group n sees at a location, without an effect: its buffers over what the place holds. -/
def seenBytes (s : State) (g : Group) (loc n : Nat) : List Byte :=
  let bs := overlay g.wcb loc (overlay g.sbuf loc (peekBytes s loc n))
  match g.tx with
  | some t => (List.range n).map fun i => (txByte t (loc + i)).getD (bs.getD i 0)
  | none => bs

/-- The bytes of a lane's store, the clipped half bytes as the group sees them. -/
def mergedBytes (s : State) (g : Group) (l : LaneAcc) (loc : Nat) : List Byte :=
  if l.clipped = [] then l.data else clipWrite l (seenBytes s g loc l.data.length) l.data

/-- The launch of the group runs in ordered mode (R328). Log entry 57 (DEDUCED). -/
def orderedMode (s : State) (g : Group) : Bool := ((gridOf s g).map (·.launch.ordered)).getD false

/-- A store of the group enters its ordered launch's buffer: not in a transaction, and not the instruction that ended its quantum, which
performs at its turn (R193, R328). -/
def buffers (s : State) (g : Group) : Bool := orderedMode s g && g.tx.isNone && g.turn == .idle

/-- Bytes enter the ordered buffer of group n under a key. -/
def bufferBytes (s : State) (n key : Nat) (bs : List Byte) : State :=
  s.upGroup n fun g => { g with sbuf := bufPut g.sbuf s.clock key bs }

/-- A store that enters a buffer drops the copies of its line that the tray holds under another tag (R382). -/
def dropOthers (s : State) (n : Nat) (g : Group) (va loc : Nat) : State :=
  let w := groupWho s n g
  match w.core with
  | some c => trayDrop s c (asidOf s w.site w.ctx) va (lineOf loc)
  | none => s

/-- A store of group n at a location of memory: in the transaction's or the ordered launch's buffer, or at its home. -/
def storeMem (s : State) (n uid : Nat) (g : Group) (o : Op) (l : LaneAcc) (loc : Nat) : State :=
  (storeRuns l (mergedBytes s g l loc)).foldl (fun s r =>
    if g.tx.isSome then txPut (dropOthers s n g (l.addr.toNat + r.1) (loc + r.1)) n uid (loc + r.1) r.2
    else if buffers s g then bufferBytes (dropOthers s n g (l.addr.toNat + r.1) (loc + r.1)) n (loc + r.1) r.2
    else storeGlobal s n uid g o (l.addr.toNat + r.1) (loc + r.1) r.2) s

/-- A store performs in one lane: in a stash, in a buffer of its group, at a peer, or at its home. -/
def storeLane (s : State) (n uid : Nat) (p : Passed) : State :=
  match tblGet s.groups n with
  | none => s
  | some g =>
    match findOp g uid with
    | none => s
    | some o =>
      let l := p.acc
      match p.spot with
      | .stash t off => if buffers s g then bufferBytes s n (stashKey s t off) l.data else storeStash s n uid t off l.data
      | .phys { target := .fabric peer fa, .. } =>
        if g.tx.isSome then s.upGroup n (abortTx 2 0)
        else
          (storeRuns l l.data).foldl (fun s r =>
            if buffers s g then bufferBytes s n (peerKey peer (fa + r.1)) r.2
            else laneSend s n uid l.lane peer (fa + r.1) 1 r.2.length r.2) s
      | .phys { target := .mem loc, .. } =>
        let s1 := noteTier2 (txJoin s n loc true) n uid loc
        if performing s1 n uid then storeMem s1 n uid g o l loc else s1
      | _ => s

end Sys2Proof.Machine
end

