-- ==== Sys2Proof/Machine/Atomic.lean ====
section
/-!
DEFINITION. Atomics (R169 to R173), double-word atomics (R175, R176), multicast stores (R177 to R179) and flagged stores (R181) as they
perform; the update of a landing barrier (R261 to R265).
-/
namespace Sys2Proof.Machine

/-! ### Aggregated atomics -/

/-- The bytes of an atomic's word by its type code (R169). -/
def atomBytes (ty : Nat) : Nat := if ty = 2 ∨ ty = 3 then 8 else 4

/-- The elements of an atomic's word: their type and number (R169). -/
def atomElem (ty : Nat) : Fp.Elem × Nat :=
  match ty with
  | 0 => (.sint 32, 1)
  | 1 => (.uint 32, 1)
  | 2 => (.sint 64, 1)
  | 3 => (.uint 64, 1)
  | 4 => (.flt Fp.f32, 1)
  | 5 => (.flt Fp.f16, 2)
  | _ => (.flt Fp.bf16, 2)

/-- node of an atomic's word, element by element (R170). -/
def atomNode (op ty x y : Nat) : Nat × Fp.Flags :=
  let e := atomElem ty
  if e.2 = 1 then Fp.node op e.1 x y
  else
    let lo := Fp.node op e.1 (x % 65536) (y % 65536)
    let hi := Fp.node op e.1 (x / 65536) (y / 65536)
    (lo.1 + 65536 * hi.1, lo.2 ||| hi.2)

/-- One step of .cas, .inc or .dec: the new value of old value m for an operand (R170). -/
def atomStep (op m v v2 : Nat) : Nat :=
  match op with
  | 7 => if m = v then v2 else m
  | 8 => if v ≤ m then 0 else m + 1
  | _ => if m = 0 ∨ v < m then v else m - 1

/-- The lanes of one address: the new value, each lane's returned value, and the flags (R104, R172). -/
def atomLanes (op ty m : Nat) (vs : List (Nat × Nat)) : Nat × List Nat × Fp.Flags :=
  if op ≤ 6 then Fp.agg (atomNode op ty) m (vs.map (·.1))
  else
    let r := vs.foldl (fun (a : Nat × List Nat) v => (atomStep op a.1 v.1 v.2, a.2 ++ [a.1])) (m, [])
    (r.1, r.2, 0)

/-- The operands of a lane: v, or v1 and v2 (R171). -/
def atomOperands (ty : Nat) (l : LaneAcc) : Nat × Nat := (bytesNum l.data 0 (atomBytes ty), bytesNum l.data (atomBytes ty) (atomBytes ty))

/-- The group's L1 copy of a line that its atomic updates leaves (R154). -/
def dropOwnLine (s : State) (n : Nat) (loc : Nat) : State :=
  match (tblGet s.groups n).bind fun g => (groupWho s n g).core with
  | some c => l1Drop s c (lineOf loc)
  | none => s

/-- Values returned to lanes of an atomic: written at retirement, with the flags and the completion time of the value read. -/
def landAtomic (s : State) (n uid : Nat) (dst : Option Nat) (size : Nat) (rets : List (LaneAcc × Nat)) (fl : Fp.Flags) (got : Got) : State :=
  let s1 := match dst with
    | none => s
    | some d => rets.foldl (fun (s : State) (r : LaneAcc × Nat) =>
        landRead s n uid ((List.range (regsFor size)).map fun k => .v (d + k) r.1.lane) r.1.lane (bytesWords (leBytes size r.2)) got) s
  s1.upGroup n fun g =>
    let g1 := upOp g uid fun o =>
      { o with
        flags := o.flags ||| BitVec.ofNat 32 fl
        readC := max o.readC got.ctime
        err := if got.bad then some (o.err.getD (memError o)) else o.err }
    { g1 with readC := max g1.readC got.ctime }

/-- The lanes of one address update its word at the place that holds it. -/
def atomPlace (s : State) (n uid op ty : Nat) (dst : Option Nat) (ps : List Passed) : State :=
  match ps with
  | [] => s
  | p :: _ =>
    let size := atomBytes ty
    let ls := ps.map (·.acc)
    match p.spot with
    | .stash t off =>
      let r := stashRead (bindConflict s n uid t off) (some n) t off size
      let u := atomLanes op ty (leNat r.2.bytes) (ls.map (atomOperands ty))
      landAtomic (if r.2.bad then r.1 else storeStash r.1 n uid t off (leBytes size u.1)) n uid dst size (ls.zip u.2.1) u.2.2 r.2
    | .phys { target := .mem loc, .. } =>
      let r := loadAt (dropOwnLine (sendWcb s n (lineOf loc)) n loc) (some n) loc size
      let u := atomLanes op ty (leNat r.2.bytes) (ls.map (atomOperands ty))
      let s1 := noteTier2 (landAtomic r.1 n uid dst size (ls.zip u.2.1) u.2.2 r.2) n uid loc
      if r.2.bad then s1
      else
        let w := storeAt s1 (some n) loc (leBytes size u.1)
        landWrite w.1 n uid (lineOf loc) w.2
    | .phys { target := .fabric peer fa, .. } =>
      let s1 := s.upOperation n uid fun o => { o with remote := o.remote ++ ls }
      match ls with
      | [] => s1
      | l :: _ =>
        if op = 7 then laneSend s1 n uid l.lane peer fa 4 size l.data
        else
          let v := (ls.drop 1).foldl (fun a x => (atomNode op ty a (atomOperands ty x).1).1) (atomOperands ty l).1
          laneSend s1 n uid l.lane peer fa (if op = 6 then 3 else 2) size (leBytes size v)
    | _ => s

/-- The lanes of an atomic, address by address in the order of their lowest lanes (R172). -/
def atomPerform (s : State) (n uid op ty : Nat) (dst : Option Nat) (ps : List Passed) : State :=
  ((ps.map fun p => p.acc.addr).dedup).foldl (fun s a => atomPlace s n uid op ty dst (ps.filter fun p => p.acc.addr == a)) s

/-! ### ATOM2 (R175) -/

/-- The location of a place in memory. -/
def spotLoc : Spot → Option Nat
  | .phys { target := .mem loc, .. } => some loc
  | _ => none

/-- A write of a number by group n's operation at a home. -/
def updateWord (s : State) (n uid loc size v : Nat) : State :=
  let w := storeAt s (some n) loc (leBytes size v)
  landWrite w.1 n uid (lineOf loc) w.2

/-- One lane of ATOM2: both words are read and written in one step. -/
def atom2Lane (s : State) (n uid : Nat) (dcas w64 : Bool) (dst : Nat) (p : Passed) : State :=
  match spotLoc p.spot, spotLoc p.spot2 with
  | some a1, some a2 =>
    let size := if w64 then 8 else 4
    let regs (k : Nat) : List Reg := (List.range (regsFor size)).map fun j => .v (dst + regsFor size * k + j) p.acc.lane
    let s0 := dropOwnLine (dropOwnLine (sendWcb (sendWcb s n (lineOf a1)) n (lineOf a2)) n a1) n a2
    let r1 := loadAt s0 (some n) a1 size
    let r2 := loadAt r1.1 (some n) a2 size
    let o1 := leNat r1.2.bytes
    let o2 := leNat r2.2.bytes
    let bad := r1.2.bad || r2.2.bad
    let field (k : Nat) : Nat := bytesNum p.acc.data (size * k) size
    let land (s : State) (k v : Nat) (got : Got) : State :=
      landRead s n uid (regs k) p.acc.lane (bytesWords (leBytes size v)) { got with bad := bad }
    if dcas then
      let ok := o1 == field 0 && o2 == field 1
      let s1 := land (land (land r2.1 0 o1 r1.2) 1 o2 r2.2) 2 (if ok then 1 else 0) { r1.2 with ctime := 0 }
      if ok && !bad then updateWord (updateWord s1 n uid a1 size (field 2)) n uid a2 size (field 3) else s1
    else
      let s1 := land r2.1 0 o1 r1.2
      if bad then s1 else updateWord s1 n uid a2 size o1
  | _, _ => s

/-! ### Landing barriers (R261 to R265) -/

/-- A landing barrier as its 32 bytes hold it. -/
structure Barrier where
  quota : Nat
  pend : Nat
  count : Nat
  left : Nat
  gen : Nat
  cerr : Bool
  err : Bool
deriving DecidableEq, Repr

def Barrier.ofBytes (bs : List Byte) : Barrier where
  quota := bytesNum bs 24 8
  pend := bytesNum bs 16 8
  count := bytesNum bs 14 2
  left := bytesNum bs 12 2
  gen := bytesNum bs 8 4
  cerr := bytesNum bs 0 1 / 2 % 2 == 1
  err := bytesNum bs 0 1 % 2 == 1

def Barrier.toBytes (b : Barrier) : List Byte :=
  leBytes 8 ((if b.err then 1 else 0) + (if b.cerr then 2 else 0)) ++ leBytes 4 b.gen ++ leBytes 2 b.left ++ leBytes 2 b.count ++
    leBytes 8 b.pend ++ leBytes 8 b.quota

/-- A phase with LEFT and PEND both 0 closes, and the next opens (R264). -/
def Barrier.settle (b : Barrier) : Barrier :=
  if b.left = 0 ∧ b.pend = 0 then
    { b with gen := (b.gen + 1) % 2 ^ 32, left := b.count, pend := b.quota, cerr := b.err, err := false }
  else b

/-- The barrier at a stash offset, as group `who` or an engine reads it, and the completion time of what it holds. -/
def readBarrier (s : State) (who : Option Nat) (team off : Nat) : State × Barrier × Nat :=
  let r := stashRead s who team off 32
  (r.1, Barrier.ofBytes r.2.bytes, r.2.ctime)

def writeBarrier (s : State) (who : Option Nat) (team off : Nat) (b : Barrier) : State := (stashWrite s who team off b.toBytes).1

/-- Delivered bytes lower PEND; bytes released with an error set ERR (R256, R179, R264). -/
def lowerPend (s : State) (team off n : Nat) (err : Bool) : State :=
  let r := readBarrier s none team off
  let b := r.2.1
  writeBarrier r.1 none team off
    (Barrier.settle { b with pend := (b.pend + 2 ^ 64 - n % 2 ^ 64) % 2 ^ 64, err := b.err || err })

/-! ### STM (R177 to R179) -/

/-- The members that a mask names. -/
def membersOf (m : Word64) (top : Nat) : List Nat := (List.range top).filter fun k => m.getLsbD k

/-- A mask of numbers. -/
def maskBits (ks : List Nat) : Word64 := BitVec.ofNat 64 (ks.dedup.foldl (fun a k => a + 2 ^ k) 0)

/-- Members of a multicast fail: its reported error names all of them (R179). -/
def multicastError (s : State) (n uid : Nat) (failed : List Nat) : State :=
  if failed = [] then s
  else s.upOperation n uid fun o =>
    let m := o.failed ||| maskBits failed
    { o with failed := m, err := some { code := 0x1B, info := m } }

/-- One member's stores of a .mclu multicast, every lane at its own stash offset; a member whose team has left, or whose bound lines meet
an error at their home, fails and is left unchanged (R178, R179). -/
def mcluMember (s : State) (n uid team rstep : Nat) (ls : List LaneAcc) (k : Nat) : State :=
  match clusterTeam s team k with
  | none => multicastError s n uid [k]
  | some t =>
    if ls.any fun l => fillBad s t (l.addr.toNat + k * rstep) l.data.length then multicastError s n uid [k]
    else ls.foldl (fun s l => storeStash s n uid t (l.addr.toNat + k * rstep) l.data) s

/-- A member of a .mdie multicast: it translates every lane for the group's context before any is written; a fault leaves the member
unchanged (R178, R179). The LOCAL page of the lane's address gives the die-local address, which is written on the named die.
Log entry 13 (DEDUCED). -/
def mdieLane (s : State) (n : Nat) (g : Group) (k : Nat) (l : LaneAcc) : State × Option Nat :=
  match resolveName s (groupWho s n g) k with
  | (s0, .error _) => (s0, none)
  | (s0, .ok b) =>
    let w : Who := engineWho b.site (ctxOf s g) (some n)
    match translate s0 w l.addr.toNat true with
    | (s1, .ok { attr := 0, .. }) =>
      match leafOf s1 w l.addr.toNat with
      | (s2, .ok (pte, lvl)) => (s2, (nameLoc b (bits pte 35 12 * 4096 + l.addr.toNat % pageSize lvl)).toOption)
      | (s2, .error _) => (s2, none)
    | (s1, _) => (s1, none)

def mdieLanes (s : State) (n : Nat) (g : Group) (k : Nat) : List LaneAcc → State × Option (List (Nat × List Byte))
  | [] => (s, some [])
  | l :: ls =>
    match mdieLane s n g k l with
    | (s1, none) => (s1, none)
    | (s1, some loc) =>
      match mdieLanes s1 n g k ls with
      | (s2, some r) => (s2, some ((loc, l.data) :: r))
      | (s2, none) => (s2, none)

/-- The members of a .mdie multicast in ascending order: the members that failed. -/
def mdiePerform (s : State) (n uid : Nat) (ls : List LaneAcc) : List Nat → State × List Nat
  | [] => (s, [])
  | k :: ks =>
    match tblGet s.groups n with
    | none => (s, [])
    | some g =>
      match mdieLanes s n g k ls with
      | (s1, none) => let r := mdiePerform s1 n uid ls ks; (r.1, k :: r.2)
      | (s1, some ws) =>
        mdiePerform (ws.foldl (fun s w =>
          let r := storeAt (dropOwnLine (sendWcb s n (lineOf w.1)) n w.1) (some n) w.1 w.2
          landWrite r.1 n uid (lineOf w.1) r.2) s1) n uid ls ks

/-! ### STF (R181) -/

/-- Where a flag lies, in one number: a location, or a peer and fabric address above 2^60. -/
def flagKey : Spot → Nat
  | .phys { target := .mem loc, .. } => loc
  | .phys { target := .fabric peer fa, .. } => peerKey peer fa
  | _ => 0

/-- Where a place of an STF lies, in one number: 0 in memory, k + 1 on peer panel k. -/
def placeOf : Spot → Nat
  | .phys { target := .fabric peer _, .. } => peer + 1
  | _ => 0

/-- The places of an STF agree with one another and with those that its lanes have used before: all in memory, or all on one peer panel
(R181). -/
def onePeer (o : Op) (ps : List Passed) : Bool :=
  match o.place.or (ps.head?.map fun p => placeOf p.spot) with
  | none => true
  | some k => ps.all fun p => placeOf p.spot == k

/-- The flag's pseudo-lane notes where the flag lies; a data lane stores. -/
def flaggedLane (s : State) (n uid : Nat) (p : Passed) : State :=
  if p.acc.lane = 64 then s.upOperation n uid fun o => { o with slot := flagKey p.spot, need := 1 } else storeLane s n uid p

end Sys2Proof.Machine
end

