-- ==== Sys2Proof/Machine/Texture.lean ====
section
/-!
DEFINITION. What the texture and ray instructions read and compute (R225 to R237).
-/
namespace Sys2Proof.Machine

/-! ### Reads of the texture unit (R224) -/

/-- A read of the texture unit: its bytes, a fault of translation at an address, or nothing yet: the answer of a peer panel is
still to come. -/
inductive TexRead where
  | got (g : Got)
  | fault (va : Nat) (f : XFault)
  | wait
deriving DecidableEq, Repr

/-- A read of n bytes, within a line, by group n's texture operation. -/
def texPiece (s : State) (n uid : Nat) (g : Group) (va size : Nat) : State × TexRead :=
  let w := groupWho s n g
  let core := w.core.getD 0
  let asid := asidOf s w.site w.ctx
  if !inGlobal va then (s, .fault va (.trap { code := 0x10, info := laddr 0 (BitVec.ofNat 64 va) }))
  else
    match l1Hit s core asid va with
    | some x =>
      let s0 := sendWcb s n x.pa
      (s0, .got { bytes := overlay g.sbuf (128 * x.pa + va % 128) (readBytes x.bytes (va % 128) size), ctime := x.ctime, bad := false })
    | none =>
      match translate s w va false with
      | (s1, .error f) => (s1, .fault va f)
      | (s1, .ok p) =>
        match p.target with
        | .mem loc =>
          let r := l1Load (noteTier2 (sendWcb s1 n (lineOf loc)) n uid loc) w core asid va size p
          (r.1, .got { r.2 with bytes := overlay g.sbuf loc r.2.bytes })
        | .fabric peer fa =>
          let key := peerKey peer fa
          match ((findOp g uid).map (·.fabData)).bind fun ds => ds.find? fun d => d.1 == key with
          | some d => (s1, .got { bytes := d.2, ctime := 0, bad := decide (d.2.length < size) })
          | none =>
            if s1.fabOut.any fun q => q.2.group == n && q.2.op == uid && q.2.peer == peer && q.2.fa == fa then (s1, .wait)
            else (laneSend s1 n uid 0 peer fa 0 size [], .wait)

/-- A read of n bytes at va, line by line, once no older access of the group is in flight (R308). -/
def texRead (s : State) (n uid : Nat) (va size : Nat) : State × TexRead :=
  match tblGet s.groups n with
  | none => (s, .wait)
  | some g =>
    if flying g then (s, .wait)
    else (rangePieces va size).foldl (fun r p =>
      match r.2 with
      | .got a =>
        match texPiece r.1 n uid g p.1 p.2 with
        | (s1, .got b) => (s1, .got { bytes := a.bytes ++ b.bytes, ctime := max a.ctime b.ctime, bad := a.bad || b.bad })
        | (s1, x) => (s1, x)
      | x => (r.1, x)) (s, .got { bytes := [], ctime := 0, bad := false })

/-! ### Texture descriptors (R225 to R227) -/

structure Tex where
  base : Nat
  w : Nat
  h : Nat
  layers : Nat
  levels : Nat
  fmt : Nat
  filt : Nat
  wrap : Nat
deriving DecidableEq, Repr

/-- The descriptor in 32 bytes, or none where it is illegal (R231). -/
def readTex (bs : List Byte) : Option Tex :=
  let t : Tex :=
    { base := bytesNum bs 0 8, w := bytesNum bs 8 2 + 1, h := bytesNum bs 10 2 + 1, layers := bytesNum bs 12 2 + 1,
      levels := bytesNum bs 14 1, fmt := bytesNum bs 15 1, filt := bytesNum bs 16 1, wrap := bytesNum bs 17 1 }
  if t.fmt ≤ 5 ∧ 1 ≤ t.levels ∧ t.levels ≤ 17 ∧ t.filt < 4 ∧ t.wrap < 4 ∧ bytesNum bs 18 14 = 0 ∧ t.base % 64 = 0 then some t else none

def texelBytes (fmt : Nat) : Nat := [1, 4, 2, 8, 4, 16].getD fmt 1
def levelWidth (t : Tex) (l : Nat) : Nat := max 1 (t.w / 2 ^ l)
def levelHeight (t : Tex) (l : Nat) : Nat := max 1 (t.h / 2 ^ l)
def levelPitch (t : Tex) (l : Nat) : Nat := 64 * ceilDiv (levelWidth t l * texelBytes t.fmt) 64
def layerBytes (t : Tex) (l : Nat) : Nat := levelPitch t l * levelHeight t l
def levelStart (t : Tex) (l : Nat) : Nat := (List.range l).foldl (fun a k => a + layerBytes t k * t.layers) t.base

/-- The address of texel (i, j) of layer z at level l (R227). -/
def texelAddr (t : Tex) (l z j i : Nat) : Nat := levelStart t l + z * layerBytes t l + j * levelPitch t l + i * texelBytes t.fmt

/-- rne(c / 255) as F32. -/
def unorm (c : Nat) : Word := BitVec.ofNat 32 (Fp.cvt Fp.f32 (.fin false c 255) 0).1

/-- An F16 code as F32. -/
def halfChannel (c : Nat) : Word := BitVec.ofNat 32 (Fp.cvt Fp.f32 (Fp.value Fp.f16 c) 0).1

/-- The four channels of a texel's bytes (R226). -/
def channels (fmt : Nat) (bs : List Byte) : List Word :=
  let one : Word := 0x3F800000
  match fmt with
  | 0 => [unorm (bytesNum bs 0 1), 0, 0, one]
  | 1 => (List.range 4).map fun k => unorm (bytesNum bs k 1)
  | 2 => [halfChannel (bytesNum bs 0 2), 0, 0, one]
  | 3 => (List.range 4).map fun k => halfChannel (bytesNum bs (2 * k) 2)
  | 4 => [BitVec.ofNat 32 (bytesNum bs 0 4), 0, 0, one]
  | _ => (List.range 4).map fun k => BitVec.ofNat 32 (bytesNum bs (4 * k) 4)

/-! ### Sampling (R229, R230) -/

/-- An F32 coordinate as a fraction; 0 where it is not finite. -/
def finiteOr0 (w : Word) : Int × Nat :=
  match Fp.value Fp.f32 w.toNat with
  | .fin n a b => (if n then -(a : Int) else a, b)
  | _ => (0, 1)

/-- pick (R229). -/
def pickTexel (point : Bool) (x : Int × Nat) (w bits : Nat) : Int :=
  if point then x.1 * w / x.2
  else
    let num := 2 * x.1 * w - x.2
    let den : Int := 2 * x.2
    let i := num / den
    i + if (num - i * den) * 65536 / den > bits then 1 else 0

/-- Clamp or repeat. -/
def wrapTexel (rep : Bool) (i : Int) (w : Nat) : Nat := if rep then (i % (w : Int)).toNat else (max 0 (min i (w - 1 : Nat))).toNat

/-- λ: lod clamped to 0 .. LEVELS − 1. -/
def clampLod (t : Tex) (x : Int × Nat) : Int × Nat :=
  if x.1 < 0 then (0, 1) else if ((t.levels - 1 : Nat) : Int) * x.2 < x.1 then ((t.levels - 1 : Nat), 1) else x

/-- The level that TEXS reads. -/
def pickLevel (t : Tex) (lod : Int × Nat) (r2 : Word) : Nat :=
  let x := clampLod t lod
  if t.filt / 2 = 0 then ((2 * x.1 + x.2) / (2 * (x.2 : Int))).toNat
  else
    let l := (x.1 / (x.2 : Int)).toNat
    if ((x.1 - l * (x.2 : Int)) * 65536 / (x.2 : Int)).toNat > r2.toNat % 65536 then l + 1 else l

/-- The texel address that TEXS chooses for coordinates u, v, layer, lod, and counter ctr. -/
def texsAddr (t : Tex) (key ctr : Word64) (u v layer lod : Word) : Nat :=
  let r1 := Fp.rng32 key ctr
  let r2 := Fp.rng32 key (ctr ^^^ 0x8000000000000000)
  let l := pickLevel t (finiteOr0 lod) r2
  let point := t.filt % 2 == 0
  let i := wrapTexel (t.wrap % 2 == 1) (pickTexel point (finiteOr0 u) (levelWidth t l) (r1.toNat % 65536)) (levelWidth t l)
  let j := wrapTexel (t.wrap / 2 == 1) (pickTexel point (finiteOr0 v) (levelHeight t l) (r1.toNat / 65536)) (levelHeight t l)
  texelAddr t l (wrapTexel false layer.toInt t.layers) j i

/-- The texel address that TEXF names, none out of range. -/
def texfAddr (t : Tex) (x y layer level : Word) : Option Nat :=
  if 0 ≤ level.toInt ∧ level.toInt < t.levels then
    let l := level.toInt.toNat
    if 0 ≤ x.toInt ∧ x.toInt < levelWidth t l ∧ 0 ≤ y.toInt ∧ y.toInt < levelHeight t l ∧ 0 ≤ layer.toInt ∧ layer.toInt < t.layers then
      some (texelAddr t l layer.toInt.toNat y.toInt.toNat x.toInt.toNat)
    else none
  else none

/-- The results of TEXQ. -/
def texqWords (t : Tex) (level : Word) : List Word :=
  if level.toNat < t.levels then
    [BitVec.ofNat 32 (levelWidth t level.toNat), BitVec.ofNat 32 (levelHeight t level.toNat), BitVec.ofNat 32 t.layers, BitVec.ofNat 32 t.levels]
  else [0, 0, 0, 0]

/-! ### Rays (R233 to R237) -/

/-- An F32 word's exact value. -/
def fval (w : Word) : Fp.Val := Fp.value Fp.f32 w.toNat

/-- The quotient of R235: none without a value, the whole line, or a value. -/
inductive Quot where
  | none
  | line
  | val (v : Fp.Val)
deriving DecidableEq, Repr

/-- (b − o) / d, exactly (R235). -/
def slab (b o d : Word) : Quot :=
  let num : Option Fp.Val := match fval b, fval o with
    | .inf m, .inf n => if m = n then Option.none else some (.inf m)
    | .inf m, _ => some (.inf m)
    | _, .inf n => some (.inf !n)
    | .fin n1 a1 b1, .fin n2 a2 b2 => some (Fp.addFin 0 n1 a1 b1 (!n2) a2 b2)
    | _, _ => Option.none
  match num with
  | Option.none => .none
  | some v =>
    match v, fval d with
    | .inf _, .inf _ => .none
    | .inf m, .fin n _ _ => .val (.inf (m != n))
    | .fin m a b, .fin n c e =>
      if c = 0 then (if a = 0 then .line else .val (.inf (m != n))) else .val (.fin (m != n) (a * e) (b * c))
    | .fin _ _ _, .inf _ => .val (.fin false 0 1)
    | _, _ => .none

/-- The lower and upper ends of a quotient. -/
def quotLo : Quot → Fp.Val
  | .val v => v
  | _ => .inf true
def quotHi : Quot → Fp.Val
  | .val v => v
  | _ => .inf false

/-- tn and tf of one axis of a box, none where a quotient has no value. -/
def boxAxis (lo hi o d : Word) : Option (Word × Word) :=
  let p := slab lo o d
  let q := slab hi o d
  if p = .none ∨ q = .none then none
  else
    let a := if Fp.ltV (quotLo q) (quotLo p) then quotLo q else quotLo p
    let b := if Fp.ltV (quotHi p) (quotHi q) then quotHi q else quotHi p
    some (BitVec.ofNat 32 (Fp.cvt Fp.f32 a 2).1, BitVec.ofNat 32 (Fp.cvt Fp.f32 b 3).1)

def fmax32 (a b : Word) : Word := BitVec.ofNat 32 (Fp.minmax Fp.f32 true a.toNat b.toNat).1
def fmin32 (a b : Word) : Word := BitVec.ofNat 32 (Fp.minmax Fp.f32 false a.toNat b.toNat).1
def isNan32 (a : Word) : Bool := Fp.isNan (fval a)

/-- tn of a child that is hit (R235). -/
def boxChild (ray : List Word) (node : List Byte) (c : Nat) : Option Word :=
  let f (k : Nat) : Word := BitVec.ofNat 32 (bytesNum node (24 * c + 4 * k) 4)
  let r (k : Nat) : Word := ray.getD k 0
  let kind := bytesNum node (96 + 4 * c) 4 / 2 ^ 30
  if kind = 0 ∨ kind = 3 ∨ (List.range 6).any (fun k => isNan32 (f k)) ∨ (List.range 8).any (fun k => isNan32 (r k)) ∨
      (List.range 3).any (fun k => Fp.ltV (fval (f (k + 3))) (fval (f k))) then none
  else
    match boxAxis (f 0) (f 3) (r 0) (r 3), boxAxis (f 1) (f 4) (r 1) (r 4), boxAxis (f 2) (f 5) (r 2) (r 5) with
    | some x, some y, some z =>
      let tn := fmax32 (fmax32 (fmax32 (r 6) x.1) y.1) z.1
      let tf := fmin32 (fmin32 (fmin32 (r 7) x.2) y.2) z.2
      if Fp.ltV (fval tf) (fval tn) then none else some tn
    | _, _, _ => none

/-- The child a comes before b: by ascending tn, ties by index, misses last (R235). -/
def childBefore (ts : List (Option Word)) (a b : Nat) : Bool :=
  match ts.getD a none, ts.getD b none with
  | some x, some y => Fp.ltV (fval x) (fval y) || (!Fp.ltV (fval y) (fval x) && decide (a < b))
  | some _, none => true
  | none, some _ => false
  | none, none => decide (a < b)

/-- The five result words of RTBOX. -/
def boxWords (ray : List Word) (node : List Byte) : List Word :=
  let ts := (List.range 4).map (boxChild ray node)
  let hit := (List.range 4).foldl (fun a c => if (ts.getD c none).isSome then a + 2 ^ c else a) 0
  let place (c : Nat) : Nat := ((List.range 4).filter fun b => childBefore ts b c).length
  let order := (List.range 4).foldl (fun a c => a + c * 4 ^ place c) 0
  BitVec.ofNat 32 (hit + 16 * order) :: ts.map fun t => t.getD 0x7F800000

/-- An exact signed fraction. -/
abbrev Frac := Int × Nat

def fracOf (w : Word) : Frac := finiteOr0 w
def fracMul (x y : Frac) : Frac := (x.1 * y.1, x.2 * y.2)
def fracAdd (x y : Frac) : Frac := (x.1 * y.2 + y.1 * x.2, x.2 * y.2)
def fracNeg (x : Frac) : Frac := (-x.1, x.2)
def crossF (a b c d : Frac) : Frac := fracAdd (fracMul a b) (fracNeg (fracMul c d))

/-- cvt(x / y, f32, RNE) of exact values, y not 0. -/
def fracDiv (x y : Frac) : Word :=
  BitVec.ofNat 32 (Fp.cvt Fp.f32 (.fin (decide (x.1 * y.1 < 0)) (x.1.natAbs * y.2) (x.2 * y.1.natAbs)) 0).1

def fsub32 (a b : Word) : Word := BitVec.ofNat 32 (Fp.sub Fp.f32 0 0 a.toNat b.toNat).1
def fmul32 (a b : Word) : Word := BitVec.ofNat 32 (Fp.mul Fp.f32 0 0 a.toNat b.toNat).1

/-- rne(a / b) of F32 values, b not 0: a NaN where both are infinite. -/
def fdiv32 (a b : Word) : Word :=
  match fval a, fval b with
  | .fin m x y, .fin n z t => BitVec.ofNat 32 (Fp.cvt Fp.f32 (.fin (m != n) (x * t) (y * z)) 0).1
  | .inf m, .fin n _ _ => BitVec.ofNat 32 (Fp.cvt Fp.f32 (.inf (m != n)) 0).1
  | .fin m _ _, .inf n => BitVec.ofNat 32 (Fp.cvt Fp.f32 (.fin (m != n) 0 1) 0).1
  | _, _ => BitVec.ofNat 32 Fp.f32.canon

def abs32 (a : Word) : Word := a &&& 0x7FFFFFFF
def finite32 (a : Word) : Bool :=
  match fval a with
  | .fin _ _ _ => true
  | _ => false

/-- The hit of RTTRI on a triangle: t, b1, b2, or none for a miss (R236). Log entry 32 (DEDUCED). -/
def triHit (ray : List Word) (tri : List Byte) (cull : Nat) : Option (Word × Word × Word) :=
  let r (k : Nat) : Word := ray.getD k 0
  let v (p k : Nat) : Word := BitVec.ofNat 32 (bytesNum tri (12 * p + 4 * k) 4)
  let mag (k : Nat) : Fp.Val := fval (abs32 (r (3 + k)))
  if (List.range 8).any (fun k => isNan32 (r k)) ∨ (List.range 9).any (fun k => isNan32 (v (k / 3) (k % 3))) ∨
      Fp.ltV (fval (r 7)) (fval (r 6)) then none
  else
    let k01 := if Fp.ltV (mag 0) (mag 1) then 1 else 0
    let kz := if Fp.ltV (mag k01) (mag 2) then 2 else k01
    let dz := r (3 + kz)
    if abs32 dz = 0 then none
    else
      let neg := dz.getLsbD 31
      let kx := if neg then (kz + 2) % 3 else (kz + 1) % 3
      let ky := if neg then (kz + 1) % 3 else (kz + 2) % 3
      let sx := fdiv32 (r (3 + kx)) dz
      let sy := fdiv32 (r (3 + ky)) dz
      let sz := fdiv32 0x3F800000 dz
      let p (q k : Nat) : Word := fsub32 (v q k) (r k)
      let px (q : Nat) : Word := fsub32 (p q kx) (fmul32 sx (p q kz))
      let py (q : Nat) : Word := fsub32 (p q ky) (fmul32 sy (p q kz))
      let pz (q : Nat) : Word := fmul32 sz (p q kz)
      if !(finite32 sx && finite32 sy && finite32 sz &&
          (List.range 3).all fun q =>
            (List.range 3).all (fun k => finite32 (p q k)) && finite32 (px q) && finite32 (py q) && finite32 (pz q)) then none
      else
        let fx (q : Nat) : Frac := fracOf (px q)
        let fy (q : Nat) : Frac := fracOf (py q)
        let fz (q : Nat) : Frac := fracOf (pz q)
        let u := crossF (fx 2) (fy 1) (fy 2) (fx 1)
        let vv := crossF (fx 0) (fy 2) (fy 0) (fx 2)
        let w := crossF (fx 1) (fy 0) (fy 1) (fx 0)
        let det := fracAdd (fracAdd u vv) w
        if !((0 ≤ u.1 && 0 ≤ vv.1 && 0 ≤ w.1) || (u.1 ≤ 0 && vv.1 ≤ 0 && w.1 ≤ 0)) then none
        else if det.1 = 0 then none
        else if (cull = 1 ∧ 0 < det.1) ∨ (cull = 2 ∧ det.1 < 0) then none
        else
          let tt := fracAdd (fracAdd (fracMul u (fz 0)) (fracMul vv (fz 1))) (fracMul w (fz 2))
          let t : Word := if tt.1 = 0 then 0 else fracDiv tt det
          if Fp.ltV (fval t) (fval (r 6)) ∨ Fp.ltV (fval (r 7)) (fval t) then none
          else some (t, fracDiv vv det, fracDiv w det)

/-- The result words of RTTRI; with .min the better of the hit and the best so far (R237). -/
def triWords (ray best : List Word) (tri : List Byte) (minf : Bool) (cull : Nat) : List Word :=
  let prim : Word := BitVec.ofNat 32 (bytesNum tri 36 4)
  match triHit ray tri cull with
  | none => if minf then best else [0x7F800000, 0, 0, 0xFFFFFFFF]
  | some (t, b1, b2) =>
    let tb := best.getD 0 0
    let better := isNan32 tb || Fp.ltV (fval t) (fval tb) || (!Fp.ltV (fval tb) (fval t) && decide (prim.toNat < (best.getD 3 0).toNat))
    if minf && !better then best else [t, b1, b2, prim]

/-! ### The operations -/

/-- A lane's results go to consecutive registers when the operation retires. -/
def landWords (s : State) (n uid dst lane : Nat) (ws : List Word) (got : Got) : State :=
  landRead s n uid ((List.range ws.length).map fun k => .v (dst + k) lane) lane ws got

/-- What one lane's access comes to: done, a fault at an address, or not yet. -/
inductive LaneDone where
  | done
  | fault (va : Nat) (f : XFault)
  | wait
deriving DecidableEq, Repr

/-- The four words that a lane captured. -/
def laneWords (l : LaneAcc) : List Word := bytesWords l.data

/-- A texel read into lane l. -/
def texelLane (s : State) (n uid dst : Nat) (t : Tex) (l : LaneAcc) (a : Nat) : State × LaneDone :=
  match texRead s n uid a (texelBytes t.fmt) with
  | (s1, .got r) => (landWords s1 n uid dst l.lane (channels t.fmt r.bytes) r, .done)
  | (s1, .fault va f) => (s1, .fault va f)
  | (s1, .wait) => (s1, .wait)

/-- One lane of a texture or ray operation. -/
def gfxLane (s : State) (n uid : Nat) (k : MemKind) (l : LaneAcc) : State × LaneDone :=
  let c := laneWords l
  let okGot : Got := { bytes := [], ctime := 0, bad := false }
  let withTex (desc : Word64) (f : State → Tex → Got → State × LaneDone) : State × LaneDone :=
    match texRead s n uid desc.toNat 32 with
    | (s1, .fault va x) => (s1, .fault va x)
    | (s1, .wait) => (s1, .wait)
    | (s1, .got r) =>
      if r.bad then (landWords s1 n uid (match k with | .texs d .. => d | .texf d .. => d | .texq d .. => d | _ => 0) l.lane [0, 0, 0, 0] r, .done)
      else
        match readTex r.bytes with
        | some t => if desc.toNat % 32 = 0 then f s1 t r else (s1, .fault desc.toNat (.trap { code := 0x28, info := laddr l.lane desc }))
        | none => (s1, .fault desc.toNat (.trap { code := 0x28, info := laddr l.lane desc }))
  match k with
  | .texs dst desc key => withTex desc fun s1 t _ =>
      texelLane s1 n uid dst t l (texsAddr t key l.addr2 (c.getD 0 0) (c.getD 1 0) (c.getD 2 0) (c.getD 3 0))
  | .texf dst desc => withTex desc fun s1 t _ =>
      match texfAddr t (c.getD 0 0) (c.getD 1 0) (c.getD 2 0) (c.getD 3 0) with
      | some a => texelLane s1 n uid dst t l a
      | none => (landWords s1 n uid dst l.lane [0, 0, 0, 0] okGot, .done)
  | .texq dst desc level => withTex desc fun s1 t r => (landWords s1 n uid dst l.lane (texqWords t level) r, .done)
  | .rtbox dst =>
    match texRead s n uid l.addr.toNat 112 with
    | (s1, .got r) => (landWords s1 n uid dst l.lane (boxWords c r.bytes) r, .done)
    | (s1, .fault va f) => (s1, .fault va f)
    | (s1, .wait) => (s1, .wait)
  | .rttri dst minf cull =>
    match texRead s n uid l.addr.toNat 40 with
    | (s1, .got r) => (landWords s1 n uid dst l.lane (triWords (c.take 8) (c.drop 8) r.bytes minf cull) r, .done)
    | (s1, .fault va f) => (s1, .fault va f)
    | (s1, .wait) => (s1, .wait)
  | _ => (s, .done)

/-- The texture and ray operations. -/
def isGfx : MemKind → Bool
  | .texs .. | .texf .. | .texq .. | .rtbox _ | .rttri .. => true
  | _ => false

end Sys2Proof.Machine
end

