-- ==== Sys2Proof/Machine/Complete.lean ====
section
/-!
DEFINITION. The course of a memory operation: its start (R147, R153, R161, R319), translation and parking (R162, R163), its completion
(R36, R320), retirement (R20, R21, R33, R164) and the landing of its writes.
-/
namespace Sys2Proof.Machine

/-! ### Translation and performance (R162, R163) -/

/-- What the lanes of an operation come to when they are translated: those that passed, and those that stop. -/
structure Pass where
  ok : List Passed := []
  stops : List LaneStop := []

/-- The lanes of an operation are translated in ascending order. -/
def passAll (s : State) (n : Nat) (g : Group) (o : Op) (k : MemKind) : List LaneAcc → State × Pass
  | [] => (s, {})
  | l :: ls =>
    match passLane s n g o k l with
    | (s1, .error x) =>
      let r := passAll s1 n g o k ls
      (r.1, { r.2 with stops := x :: r.2.stops })
    | (s1, .ok p) =>
      let r := passAll s1 n g o k ls
      (r.1, { r.2 with ok := p :: r.2.ok })

/-- One lane's step, if the operation is still being performed. -/
def ifPerforming (n uid : Nat) (f : State → Passed → State) (s : State) (p : Passed) : State :=
  if performing s n uid then f s p else s

/-- The lanes that have passed perform, each in its kind. -/
def performKind (s : State) (n uid : Nat) (k : MemKind) (ps : List Passed) : State :=
  match k with
  | .load size sg uni dst => ps.foldl (ifPerforming n uid fun s p => loadLane s n uid size sg uni dst p) s
  | .const size sg uni dst => ps.foldl (ifPerforming n uid fun s p => constLane s n uid size sg uni dst p) s
  | .store _ => ps.foldl (ifPerforming n uid fun s p => storeLane s n uid p) s
  | .atomic op ty dst => atomPerform s n uid op ty dst ps
  | .dcas w64 dst => ps.foldl (ifPerforming n uid fun s p => atom2Lane s n uid true w64 dst p) s
  | .amov w64 dst => ps.foldl (ifPerforming n uid fun s p => atom2Lane s n uid false w64 dst p) s
  | .flagged .. => ps.foldl (ifPerforming n uid fun s p => flaggedLane s n uid p) s
  | _ => s

/-! ### Lanes in flight (R308, R312, R339)

A lane that has passed translation performs at once, or where the group's accesses take time it is in flight until a step of its own
performs it. Lanes in flight perform in any order but one: accesses of the group that touch a common byte perform in program order, and
those of one instruction in lane order. -/

/-- The bytes of an access by its kind. -/
def accBytes (k : MemKind) (l : LaneAcc) : Nat :=
  match k with
  | .load size .. | .const size .. => size
  | .atomic _ ty _ => atomBytes ty
  | .dcas w64 _ | .amov w64 _ => if w64 then 8 else 4
  | _ => l.data.length

/-- The key of the first byte of a place (R305), none for LDC, which R308 leaves out, and for a place that has left. -/
def spotKey (s : State) (l : LaneAcc) : Spot → Option Nat
  | .stash t off => some (stashKey s t off)
  | .l1 x => some (128 * x.pa + l.addr.toNat % 128)
  | .phys { target := .mem loc, .. } => some loc
  | .phys { target := .fabric peer fa, .. } => some (peerKey peer fa)
  | _ => none

/-- The bytes that a lane touches: first key and number. -/
def touches (s : State) (k : MemKind) (p : Passed) : List (Nat × Nat) :=
  match k with
  | .const .. => []
  | _ => ([p.spot, p.spot2].filterMap (spotKey s p.acc)).map fun a => (a, accBytes k p.acc)

/-- Two accesses touch a common byte. -/
def meets (xs ys : List (Nat × Nat)) : Bool := xs.any fun x => ys.any fun y => decide (x.1 < y.1 + y.2) && decide (y.1 < x.1 + x.2)

/-- The bytes of the accesses in flight that come before a lane of operation uid in local order. -/
def before (s : State) (g : Group) (uid lane : Nat) : List (Nat × Nat) :=
  g.ops.flatMap fun o =>
    match o.kind with
    | none => []
    | some k => (o.flight.filter fun p => decide (o.uid < uid) || (o.uid == uid && decide (p.acc.lane < lane))).flatMap (touches s k)

/-- An access in flight that must perform first holds the lane up. -/
def heldUp (s : State) (g : Group) (uid : Nat) (k : MemKind) (p : Passed) : Bool := meets (touches s k p) (before s g uid p.acc.lane)

/-- The accesses of group n take time: it is listed so, and neither in a transaction nor in ordered mode. Log entry 94 (DESIGN CHOICE). -/
def takesTime (s : State) (n : Nat) (g : Group) : Bool := s.late.contains n && g.tx.isNone && !orderedMode s g

/-- A lane that has passed flies: its group's accesses take time, or one in flight must perform first. A request to a peer panel leaves at
once (R421), and the flag of an STF only notes its place. -/
def flies (s : State) (n : Nat) (g : Group) (uid : Nat) (k : MemKind) (p : Passed) : Bool :=
  p.acc.lane != 64 && ((takesTime s n g && placeOf p.spot == 0) || heldUp s g uid k p)

/-- The lanes of an operation that fly: with one, the later ones that touch its bytes (R150). -/
def flyers (s : State) (n : Nat) (g : Group) (uid : Nat) (k : MemKind) (ps : List Passed) : List Passed :=
  ps.foldl (fun fs p => if flies s n g uid k p || meets (touches s k p) (fs.flatMap (touches s k)) then fs ++ [p] else fs) []

/-- The lanes take flight. An atomic removes the core's own copy of its line as it issues (R154). -/
def takeOff (s : State) (n uid : Nat) (k : MemKind) (ps : List Passed) : State :=
  let s1 := s.upOperation n uid fun o => { o with flight := o.flight ++ ps }
  match k with
  | .atomic .. | .dcas .. | .amov .. => ps.foldl (fun s p => ([p.spot, p.spot2].filterMap spotLoc).foldl (fun s a => dropOwnLine s n a) s) s1
  | _ => s1

/-- A lane of operation uid in flight performs, with the other lanes of its address where it is an atomic's (R172): the model's own event.
Log entry 94 (DESIGN CHOICE). -/
def laneLands (s : State) (n uid lane : Nat) : State :=
  match tblGet s.groups n with
  | none => s
  | some g =>
    match findOp g uid with
    | none => s
    | some o =>
      match o.kind, o.flight.find? fun p => p.acc.lane == lane with
      | some k, some p =>
        if heldUp s g uid k p then s
        else
          let ps := match k with
            | .atomic .. => o.flight.filter fun q => q.acc.addr == p.acc.addr && placeOf q.spot == placeOf p.spot
            | _ => [p]
          performKind (s.upOperation n uid fun o => { o with flight := o.flight.filter fun q => !ps.contains q }) n uid k ps
      | _, _ => s

/-- The lanes of a texture or ray operation, in ascending order: the lanes left and the stops. -/
def gfxLanes (s : State) (n uid : Nat) (k : MemKind) : List LaneAcc → State × List LaneAcc × List LaneStop
  | [] => (s, [], [])
  | l :: ls =>
    match gfxLane s n uid k l with
    | (s1, .done) => gfxLanes s1 n uid k ls
    | (s1, .wait) => let r := gfxLanes s1 n uid k ls; (r.1, l :: r.2.1, r.2.2)
    | (s1, .fault va f) =>
      let r := gfxLanes s1 n uid k ls
      (r.1, l :: r.2.1, { acc := l, va := va, write := false, f := f } :: r.2.2)

/-- A stop that is a trap, as a fault of its lane. -/
def stopTrap (x : LaneStop) : Option (Nat × Nat × Cause) :=
  match x.f with
  | .trap c => some (c.code, x.acc.lane, c)
  | _ => none

/-- The trap with the lowest code among the stops, and among equals of the lowest lane. -/
def lowestTrap (xs : List LaneStop) : Option Cause :=
  ((xs.filterMap stopTrap).foldl (fun (m : Option (Nat × Nat × Cause)) x =>
    match m with
    | none => some x
    | some y => if x.1 < y.1 ∨ (x.1 = y.1 ∧ x.2.1 < y.2.1) then some x else m) none).map (·.2.2)

/-- A .mclu multicast performs at its members (R178); with a barrier, its bytes are released to the barriers next (R256). -/
def mcluPerform (s : State) (n uid : Nat) (mask : Word64) (bar : Option Nat) (ls : List LaneAcc) : State :=
  match tblGet s.groups n with
  | none => s
  | some g =>
    let ks := membersOf mask 16
    let s1 := ks.foldl (mcluMember · n uid g.team (mask.toNat / 2 ^ 16 % 2 ^ 24) ls ·) s
    s1.upOperation n uid fun o =>
      { o with
        copies := if bar.isSome && ls != [] then ks else []
        need := if bar.isSome && ls != [] && ks != [] then ls.length * (o.lanes.head?.map (·.data.length)).getD 0 else 0 }

/-- The lanes of operation uid of group n that have not performed are translated and performed as far as they pass; the stops.
Log entry 20 (DEDUCED). -/
def runLanes (s : State) (n uid : Nat) : State × List LaneStop :=
  match tblGet s.groups n with
  | none => (s, [])
  | some g =>
    match findOp g uid with
    | none => (s, [])
    | some o =>
      match o.kind with
      | none => (s, [])
      | some (.multicast mdie _ mask bar) =>
        if flying g then (s, [])
        else if mdie then
          let r := mdiePerform s n uid o.lanes (if o.lanes = [] then [] else membersOf mask 48)
          ((multicastError r.1 n uid r.2).upOperation n uid fun o => { o with lanes := [] }, [])
        else ((mcluPerform s n uid mask bar o.lanes).upOperation n uid fun o => { o with lanes := [] }, [])
      | some k =>
        if isGfx k then
          let r := gfxLanes s n uid k o.lanes
          (r.1.upOperation n uid fun o => { o with lanes := r.2.1 }, r.2.2)
        else
          let r := passAll s n g o k o.lanes
          match k, onePeer o r.2.ok with
          | .flagged .., false =>
            (r.1, [{ acc := { lane := 0, addr := 0 }, va := 0, write := true,
                     f := .trap { code := 0x10, info := laddr ((o.lanes.head?.map (·.lane)).getD 0) ((o.lanes.head?.map (·.addr)).getD 0) } }])
          | _, _ =>
            let ready := if g.tx.isSome then r.2.ok.filter fun p => !heldUp r.1 g uid k p else r.2.ok
            let fly := if g.tx.isSome then [] else flyers r.1 n g uid k ready
            let left := o.lanes.filter fun l => !(ready.any fun p => p.acc == l)
            let s1 := r.1.upOperation n uid fun o =>
              { o with lanes := left, place := o.place.or (r.2.ok.head?.map fun p => placeOf p.spot) }
            (performKind (takeOff s1 n uid k fly) n uid k (ready.filter fun p => !fly.contains p), r.2.stops)

/-! ### Completion (R36, R319, R320) -/

/-- A request of the operation to a peer panel is outstanding. -/
def fabricOpen (s : State) (uid : Nat) : Bool := s.fabOut.any fun q => q.2.op == uid

/-- The lines that an operation wrote are all acknowledged: none is still in the write-combining buffer. -/
def linesAcked (g : Group) (o : Op) : Bool := o.lines.all fun l => !(g.wcb.any fun x => x.line.toNat == l)

/-- The operation is among the stores that its group's transaction has buffered. -/
def inTx (g : Group) (uid : Nat) : Bool := (g.tx.map fun t => t.stores.contains uid).getD false

/-- Nothing of a performed operation is still to come. -/
def quiet (s : State) (g : Group) (o : Op) : Bool :=
  o.lanes == [] && o.flight == [] && o.remote == [] && o.need == 0 && !inTx g o.uid && !fabricOpen s o.uid && linesAcked g o

/-- Operation uid of group n is complete: its writes' completion time, and for an acquire at .clu or wider that of its reads, raise CHZ
(R36, R318). -/
def completeOp (s : State) (n uid : Nat) : State :=
  s.upGroup n fun g =>
    match findOp g uid with
    | none => g
    | some o =>
      let c := max o.ctime (if acquires o.order && wideScope o.scope then o.readC else 0)
      raiseChz c (upOp g uid fun o => { o with stage := .complete })

/-- Every lane has passed: the group goes on after the instruction; an acquire or .sc access holds it until the access is complete
(R320). -/
def finishAccess (s : State) (n uid : Nat) : State :=
  match tblGet s.groups n with
  | none => s
  | some g =>
    match findOp g uid with
    | none => s
    | some o =>
      if o.lines = [] && quiet s g o then
        (completeOp s n uid).upGroup n fun g => { advance o.len g with wait := .none }
      else
        s.upGroup n fun g =>
          { advance o.len (upOp g uid fun o => { o with stage := .performed }) with
            wait := if acquires o.order then .acquire uid else .none }

/-- The mask of an operation's unfinished lanes. -/
def unfinished (g : Group) (o : Op) : Word64 := maskOf g.width fun l => o.lanes.any fun x => x.lane == l

/-- The operation goes no further: its unfinished lanes never perform (R163). -/
def abandonOp (s : State) (n uid : Nat) : State :=
  match tblGet s.groups n with
  | none => s
  | some g =>
    match findOp g uid with
    | none => s
    | some o =>
      let o1 := { o with lanes := [], need := 0 }
      if o1.lines = [] && quiet s g o1 then completeOp (s.upOperation n uid fun o => { o with lanes := [], need := 0 }) n uid
      else s.upOperation n uid fun o => { o with lanes := [], need := 0, stage := .performed }

/-- A group parks at the page fault of a memory operation: one record, with the address of the lowest unfinished lane (R163, R387). -/
def parkMemory (s : State) (n uid : Nat) (x : LaneStop) (cause level pte : Nat) : State :=
  match tblGet s.groups n with
  | none => s
  | some g =>
    if g.tx.isSome then s.putGroup n (abortTx 3 0 g)
    else
      match findOp g uid with
      | none => s
      | some o =>
        let r := faultRec s n 0 x.va x.write cause level pte (unfinished g o)
        let f := s.fresh
        (parkAt s { r with die := x.acc.die.getD r.die }).upGroup n fun g => { g with wait := .parked uid f }

/-- What follows the run of an operation's lanes: a trap at once, a page fault, more lanes to wait for, or completion (R163). -/
def afterRun (s : State) (n uid : Nat) (stops : List LaneStop) : State :=
  if !performing s n uid then s
  else
    match lowestTrap stops with
    | some c => trapAt (abandonOp s n uid) n c.code c.info
    | none =>
      match stops with
      | x :: _ =>
        match x.f with
        | .page c l p => parkMemory s n uid x c l p
        | .trap _ => s
      | [] =>
        if ((tblGet s.groups n).bind fun g => findOp g uid).any fun o => o.lanes == [] then finishAccess s n uid
        else s.upGroup n fun g => { g with wait := .translate uid }

/-- An operation is taken back before any of it performs. -/
def unissueOp (g : Group) (uid : Nat) : Group :=
  match findOp g uid with
  | none => g
  | some o =>
    { setCounter g o.ctr.ident (counter g o.ctr.ident - 1) with ops := g.ops.filter fun o => o.uid != uid }

/-- The lines that an ordered launch's buffer would hold after a store's lanes, as far as they pass (R328). -/
def linesAfter (s : State) (n : Nat) (g : Group) (o : Op) : Nat :=
  let r := passAll s n g o (.store 4) o.lanes
  ((g.sbuf.map fun x => x.line.toNat) ++ r.2.ok.filterMap fun p => (spotKey s p.acc p.spot).map lineOf).dedup.length

/-- The lanes of operation uid are run. A store that would bring an ordered launch's buffer above 64 lines ends the quantum instead
(R328). -/
def runOp (s : State) (n uid : Nat) : State :=
  match tblGet s.groups n with
  | none => s
  | some g =>
    match findOp g uid with
    | none => s
    | some o =>
      let isStore := match o.kind with
        | some (.store _) => true
        | _ => false
      if isStore && buffers s g && decide (64 < linesAfter s n g o) then
        s.putGroup n { unissueOp g uid with wait := .quantum true }
      else
        let r := runLanes s n uid
        afterRun r.1 n uid r.2

/-! ### Issue -/

/-- Every lane of an operation needs no translation (R162). -/
def allFree (s : State) (n : Nat) (g : Group) (o : Op) : Bool :=
  match o.kind with
  | some (.multicast mdie ..) => !mdie || o.lanes == []
  | some k => !isGfx k && !(match k with | .dcas .. | .amov .. | .flagged .. => true | _ => false) &&
      o.lanes.all fun l => (freeSpot s n g o l.lane l.addr).isSome
  | none => true

/-- The access of operation uid begins: at once where no lane needs a translation, else its translations are under way. -/
def beginAccess (s : State) (n uid : Nat) : State :=
  match tblGet s.groups n with
  | none => s
  | some g =>
    match findOp g uid with
    | none => s
    | some o => if o.lanes = [] || allFree s n g o then runOp s n uid else s.putGroup n { g with wait := .translate uid }

/-- A release drains the write-combining buffer and holds the access until its condition is met (R154, R319). -/
def beginOp (s : State) (n uid : Nat) : State :=
  match (tblGet s.groups n).bind fun g => findOp g uid with
  | none => s
  | some o =>
    if releases o.order then
      let s1 := drainWcb s n
      match tblGet s1.groups n with
      | some g1 => if releaseMet s1 g1 o.scope uid then beginAccess s1 n uid else s1.putGroup n { g1 with wait := .release uid }
      | none => s1
    else beginAccess s n uid

/-- The counter of an operation: CL where a lane addresses a cluster stash (R153). -/
def counterFor (o : Op) (lanes : List LaneAcc) : Counter :=
  match o.kind with
  | some (.load ..) | some (.store _) | some (.atomic ..) => if lanes.any fun l => isCluster l.addr then .cl else o.ctr
  | _ => o.ctr

/-- The registers of a new operation uid that operations on other counters write as well, in doubt for both (R21). -/
def contestedDests (g : Group) (c : Counter) (uid : Nat) (rs : List Reg) : List (Nat × Reg) :=
  g.ops.flatMap fun o => if o.ctr = c then [] else (rs.filter fun r => o.dests.contains r).flatMap fun r => [(o.uid, r), (uid, r)]

/-- A memory instruction with the causes found in its lanes issues: it waits while its counter is full (R33), raises the lowest cause
(R161, R277), or starts its operation; in a transaction a relaxed one (R332). -/
def startMem (s : State) (g : Group) (i : Instr) (o : Op) (trap : Option Cause) (lanes : List LaneAcc) (dests : List Reg) : State :=
  let c := counterFor o lanes
  if counterFull g c then stall s
  else
    match trap with
    | some x => trapAt s s.cur x.code x.info
    | none =>
      let order := if g.tx.isSome then .rlx else o.order
      let o1 := { o with uid := s.fresh, ctr := c, words := wordsOf i, lanes := lanes, dests := dests, order := order }
      let g1 := { issueOp g o1 with contested := g.contested ++ contestedDests g c s.fresh dests }
      beginOp (s.bump.putGroup s.cur g1) s.cur s.fresh

/-! ### Retirement (R20, R21, R33, R37, R164) -/

/-- The register's cell, as an index of free values. -/
def regIdx : Reg → Nat
  | .v r l => readIdx 9 (laneCell r l)
  | .s r => readIdx 9 (8192 + r)
  | .h r => readIdx 9 (8256 + r)
  | .k r => readIdx 9 (8320 + r)

/-- One register takes the value of an asynchronous write. -/
def landReg (s : State) (n : Nat) (r : Reg) (w : Word) : State :=
  match r with
  | .v a l => s.upGroup n fun g => { g with v := cellSet g.v (laneCell a l) w }
  | .s a => s.upGroup n fun g => { g with s := cellSet g.s a w }
  | .k a => s.upGroup n fun g => { g with k := cellSet g.k a w }
  | .h a => writeHAs s n true a w

/-- The write of a retiring operation lands (R21). Where it is in doubt, a younger operation on its counter leaves nothing of it; of the
operations on other counters the last to retire, or a write that has been made since, leaves either value. -/
def landOne (s : State) (n : Nat) (o : Op) (r : Reg) (w : Word) : State :=
  match tblGet s.groups n with
  | none => s
  | some g =>
    let rest := g.ops.filter fun x => x.dests.contains r
    if !g.contested.contains (o.uid, r) then landReg s n r w
    else if rest.any fun x => x.ctr == o.ctr then s
    else if rest != [] then landReg s n r w
    else if Config.freeBool s.draws (regIdx r) then landReg s n r w
    else s

/-- An operation may retire: it is complete (R33). -/
def retireReady (o : Op) : Bool := o.stage == .complete

/-- The oldest operation on a counter of group n retires. A reported error pends on the counter, or is logged where the group has ended
(R164). -/
def retireOp (s : State) (n : Nat) (o : Op) : State :=
  let s1 := s.upGroup n fun g =>
    orFlags o.flags.toNat
      { setCounter g o.ctr.ident (counter g o.ctr.ident - 1) with
        ops := g.ops.filter fun x => x.uid != o.uid
        engChz := max g.engChz o.engC }
  let s2 := (o.writes.foldl (fun s w => landOne s n o w.1 w.2) s1).upGroup n fun g =>
    { g with contested := g.contested.filter fun c => c.1 != o.uid }
  match o.err, tblGet s2.groups n with
  | some e, some g =>
    if g.ended then contextError s2 (siteOf s2 g) (ctxOf s2 g) 2 e.code 0 else s2.putGroup n (reportErr g o.ctr e)
  | _, _ => s2

end Sys2Proof.Machine
end

