-- ==== Sys2Proof/Machine/Memory.lean ====
section
/-!
DEFINITION. The loads, stores, prefetches, tensor accesses, atomics, multicast and flagged stores (R157 to R181).
-/
namespace Sys2Proof.Machine

/-- The outcome of an instruction. -/
abbrev MRes := Host.Outcome State Fault Refusal

/-- The lanes that an access makes: those of ACTIVE, or one for uniform data (R152). -/
def accessLanes (g : Group) (gd : BitVec 5) (uni : Bool) : List Nat :=
  if uni then (lanesOf g.width (active g gd)).take 1 else lanesOf g.width (active g gd)

/-- A load or store of `size` bytes through addresses and windows given by lane. -/
def accessAt (s : State) (g : Group) (i : Instr) (o : Op) (ls : List Nat) (size : Nat) (glob stash : Bool) (raw : Nat → Word64)
    (win : Nat → Option Window) (data : Nat → List Byte) (dests : List Reg) : State :=
  let faults := ls.flatMap fun l => checkWindow s g size l (raw l) (win l) glob stash
  let lanes := ls.map fun l => { lane := l, addr := ((win l).map windowAddr).getD (raw l), data := data l }
  startMem s g i o (lowestFault faults) lanes dests

/-- LD, ST and LDC: generic addresses (R158, R159). -/
def genericAccess (s : State) (i : Instr) (o : Op) (gd : BitVec 5) (d : BitVec 6) (b : BitVec 7) (off : Word64) (uni store stash : Bool)
    (size : Nat) : MRes :=
  onGroup s fun g =>
    let ls := accessLanes g gd uni
    accessAt s g i o ls size true stash (genericAddr s g 0 b off) (fun l => genericWindow (genericAddr s g 0 b off l))
      (fun l => if store then storeBytes s g 1 uni d.toNat size l else []) (if store then [] else loadDests g uni d.toNat size ls)

/-- LDS and STS: stash addresses (R158). -/
def stashAccess (s : State) (i : Instr) (o : Op) (gd : BitVec 5) (d : BitVec 6) (b : BitVec 7) (off : Word64) (uni store : Bool)
    (size : Nat) : MRes :=
  onGroup s fun g =>
    let ls := accessLanes g gd uni
    accessAt s g i o ls size false true (fun l => (stashAddr s g 0 b off l).setWidth 64) (fun l => stashWindow (stashAddr s g 0 b off l))
      (fun l => if store then storeBytes s g 1 uni d.toNat size l else []) (if store then [] else loadDests g uni d.toNat size ls)

/-- The operation of a memory instruction (never absent for those of this file). -/
def opFields (i : Instr) : Op := (opOf i).getD (shortOp .ld (.load 4 false false 0))

/-- LD, short form (R157, R158). -/
def execLd (g : BitVec 5) (d : BitVec 6) (b : BitVec 7) (off : BitVec 7) (s : State) : MRes :=
  genericAccess s (.ld g d b off) (opFields (.ld g d b off)) g d b (shortOff off) false false true 4

/-- ST, short form (R157, R158). -/
def execSt (g : BitVec 5) (d : BitVec 6) (b : BitVec 7) (off : BitVec 7) (s : State) : MRes :=
  genericAccess s (.st g d b off) (opFields (.st g d b off)) g d b (shortOff off) false true true 4

/-- LDS, short form (R157, R158). -/
def execLds (g : BitVec 5) (d : BitVec 6) (b : BitVec 7) (off : BitVec 7) (s : State) : MRes :=
  stashAccess s (.lds g d b off) (opFields (.lds g d b off)) g d b (shortOff off) false false 4

/-- STS, short form (R157, R158). -/
def execSts (g : BitVec 5) (d : BitVec 6) (b : BitVec 7) (off : BitVec 7) (s : State) : MRes :=
  stashAccess s (.sts g d b off) (opFields (.sts g d b off)) g d b (shortOff off) false true 4

/-- LDC, short form (R159). -/
def execLdc (g : BitVec 5) (d : BitVec 6) (b : BitVec 7) (off : BitVec 7) (s : State) : MRes :=
  genericAccess s (.ldc g d b off) (opFields (.ldc g d b off)) g d b (shortOff off) false false false 4

/-- LD (R157, R158). -/
def execLdLong (t : BitVec 3) (uni : Bool) (m : MLOps) (s : State) : MRes :=
  genericAccess s (.ldLong t uni m) (opFields (.ldLong t uni m)) m.g m.d m.b (m.offset.signExtend 64) uni false true (sizeOfType t)

/-- ST (R157, R158). -/
def execStLong (t : BitVec 3) (uni : Bool) (m : MLOps) (s : State) : MRes :=
  genericAccess s (.stLong t uni m) (opFields (.stLong t uni m)) m.g m.d m.b (m.offset.signExtend 64) uni true true (sizeOfType t)

/-- LDS (R157, R158). -/
def execLdsLong (t : BitVec 3) (uni : Bool) (m : MLOps) (s : State) : MRes :=
  stashAccess s (.ldsLong t uni m) (opFields (.ldsLong t uni m)) m.g m.d m.b (m.offset.signExtend 64) uni false (sizeOfType t)

/-- STS (R157, R158). -/
def execStsLong (t : BitVec 3) (uni : Bool) (m : MLOps) (s : State) : MRes :=
  stashAccess s (.stsLong t uni m) (opFields (.stsLong t uni m)) m.g m.d m.b (m.offset.signExtend 64) uni true (sizeOfType t)

/-- LDC (R159). -/
def execLdcLong (t : BitVec 3) (uni : Bool) (m : MLOps) (s : State) : MRes :=
  genericAccess s (.ldcLong t uni m) (opFields (.ldcLong t uni m)) m.g m.d m.b (m.offset.signExtend 64) uni false false (sizeOfType t)

/-! ### Prefetch (R160) -/

/-- One lane of PREF: a translation, and at level 0 a fill of the core's L1; a fault drops the lane. -/
def prefLane (s : State) (n : Nat) (g : Group) (lvl : BitVec 2) (a : Word64) : State :=
  let w := groupWho s n g
  if !inGlobal a.toNat then s
  else
    match translate s w a.toNat false with
    | (s1, .ok p) =>
      match p.target, w.core with
      | .mem loc, some c =>
        if lvl = 0 && tblGet s1.hostHolds (lineOf loc) != some .exclusive && (l1Hit s1 c (asidOf s1 w.site w.ctx) a.toNat).isNone && !(g.wcb.any fun x => x.line.toNat == lineOf loc)
        then (l1Load s1 w c (asidOf s1 w.site w.ctx) a.toNat 1 p).1
        else s1
      | _, _ => s1
    | (s1, .error _) => s1

/-- PREF (R160): no register, no counter, no trap. -/
def execPref (lvl : BitVec 2) (g : BitVec 5) (b : BitVec 7) (offset : BitVec 21) (s : State) : MRes :=
  onGroup s fun gr =>
    ((lanesOf gr.width (active gr g)).foldl (fun s1 l =>
      prefLane s1 s.cur gr lvl (genericAddr s gr 0 b (offset.signExtend 64) l)) s).upGroup s.cur (advance 2)

/-! ### Tensor accesses (R166 to R168, R393 to R396) -/

/-- The coordinates of lane l: n registers of one class, or none where they leave it (R166, R168). -/
def coordsOf (s : State) (g : Group) (coord : BitVec 7) (rank l : Nat) : Option (List Nat) :=
  let c := coord.toNat
  if c < 48 then
    if c + rank ≤ 48 then some ((List.range rank).map fun k => (readV s.draws 0 g (c + k) l).toNat) else none
  else if c + rank ≤ 96 then some ((List.range rank).map fun k => (readS s.draws 0 g (c - 64 + k)).toNat)
  else none

/-- What one lane of a tensor access comes to at issue: an access, nothing to access, or a cause. -/
structure TensorLane where
  acc : Option LaneAcc := none
  clipped : Bool := false
  fault : Option LaneFault := none
  desc : Bool := false
  eng : Option EngFault := none

/-- One lane of a tensor access resolves (R168, R394, R395). -/
def tensorLane (s : State) (w : Who) (d : Desc) (size : Nat) (clipping : Bool) (l : Nat) (c : List Nat) (data : List Byte) : State × TensorLane :=
  let nib := clippedNibbles d size c
  if nib != [] && !clipping then (s, { desc := true })
  else if !inExtent d c then (s, { clipped := true })
  else
    match resolveCoord s w d c with
    | (s1, .error .desc) => (s1, { desc := true })
    | (s1, .error (.eng f)) => (s1, { eng := some f })
    | (s1, .ok (nm, a)) =>
      let raw := BitVec.ofNat 64 a
      if 0xFC * 2 ^ 48 ≤ a then (s1, { fault := some { code := 0x10, lane := l, addr := raw } })
      else if midByte d c || a % size != 0 then (s1, { fault := some { code := 0x12, lane := l, addr := raw } })
      else (s1, { acc := some { lane := l, addr := raw, die := some nm, data := data, clipped := nib } })

/-- The lanes of a tensor access in ascending order. -/
def tensorLanes (s : State) (g : Group) (w : Who) (d : Desc) (coord : BitVec 7) (size : Nat) (clipping : Bool) (data : Nat → List Byte) :
    List Nat → State × List (Nat × TensorLane)
  | [] => (s, [])
  | l :: ls =>
    match coordsOf s g coord d.rank l with
    | none => let r := tensorLanes s g w d coord size clipping data ls; (r.1, (l, { desc := true }) :: r.2)
    | some c =>
      let x := tensorLane s w d size clipping l c (data l)
      let r := tensorLanes x.1 g w d coord size clipping data ls
      (r.1, (l, x.2) :: r.2)

/-- The trap of a tensor access at issue: the lowest code among its lanes; the descriptor trap names every lane concerned (R168, R277). -/
def tensorTrap (w : Nat) (xs : List (Nat × TensorLane)) : Option Cause :=
  match lowestFault (xs.filterMap fun x => x.2.fault) with
  | some c => some c
  | none =>
    if xs.any fun x => x.2.desc then
      some { code := 0x13, info := maskOf w fun l => xs.any fun x => x.1 == l && x.2.desc }
    else none

/-- LDT and STT: the access of each lane at the die-local address on the owning die. -/
def tensorAccess (s : State) (i : Instr) (gd : BitVec 5) (d : BitVec 6) (coord desc : BitVec 7) (t : BitVec 3) (clipping store : Bool) : MRes :=
  onGroup s fun g =>
    let m := clip g (active g gd)
    let size := sizeOfTensor t
    let o := opFields i
    let ls := lanesOf g.width m
    let dests := if store then [] else loadDests g false d.toNat size ls
    let w := groupWho s s.cur g
    let launch := (gridOf s g).map (·.launch)
    if counterFull g o.ctr then stall s
    else if m = 0 then startMem s g i o none [] []
    else
      match fetchDesc s w ((launch.map (·.desc.toNat)).getD 0) ((launch.map (·.ndesc)).getD 0) (usrc s g tInt 4 desc).toNat with
      | (s1, .error .desc) => trapAt s1 s1.cur 0x13 m
      | (s1, .error (.eng f)) => wholeFault s1 s1.cur false m f
      | (s1, .ok de) =>
        if 8 * size % de.ew ≠ 0 then trapAt s1 s1.cur 0x13 m
        else
          let data (l : Nat) : List Byte := if store then storeBytes s g 5 false d.toNat size l else []
          let r := tensorLanes s1 g w de coord size clipping data ls
          match r.2.findSome? fun x => x.2.eng with
          | some f => wholeFault r.1 s1.cur false m f
          | none =>
            match tensorTrap g.width r.2, tblGet r.1.groups r.1.cur with
            | some c, _ => trapAt r.1 r.1.cur c.code c.info
            | none, some g1 =>
              let zeros : List (Reg × Word) := if store then [] else
                (r.2.filter fun x => x.2.clipped).flatMap fun x =>
                  (loadDests g false d.toNat size [x.1]).map fun reg => (reg, (0 : Word))
              startMem r.1 g1 i { o with writes := zeros } none (r.2.filterMap fun x => x.2.acc) dests
            | none, none => r.1

/-- LDT (R166 to R168). -/
def execLdt (g : BitVec 5) (d : BitVec 6) (coord : BitVec 7) (desc : BitVec 7) (t : BitVec 3) (order : BitVec 3) (scope : BitVec 3)
    (cache : BitVec 2) (nt : Bool) (clip : Bool) (s : State) : MRes :=
  tensorAccess s (.ldt g d coord desc t order scope cache nt clip) g d coord desc t clip false

/-- STT (R166 to R168). -/
def execStt (g : BitVec 5) (d : BitVec 6) (coord : BitVec 7) (desc : BitVec 7) (t : BitVec 3) (order : BitVec 3) (scope : BitVec 3)
    (cache : BitVec 2) (nt : Bool) (clip : Bool) (s : State) : MRes :=
  tensorAccess s (.stt g d coord desc t order scope cache nt clip) g d coord desc t clip true

/-! ### Atomics (R169 to R173) -/

/-- The operand bytes that an atomic captures: one word, or two for .cas (R171). -/
def atomData (s : State) (g : Group) (aop : BitVec 4) (t : BitVec 3) (d l : Nat) : List Byte :=
  let size := atomBytes t.toNat
  wordsBytes (dataWords s g 1 false d (if aop = 7 then 2 * size else size) l)

/-- ATOM (R169 to R173). -/
def execAtom (aop : BitVec 4) (t : BitVec 3) (m : MLOps) (s : State) : MRes :=
  onGroup s fun g =>
    let ls := accessLanes g m.g false
    let a := genericAddr s g 0 m.b (m.offset.signExtend 64)
    accessAt s g (.atom aop t m) (opFields (.atom aop t m)) ls (atomBytes t.toNat) true true a (fun l => genericWindow (a l))
      (atomData s g aop t m.d.toNat) (loadDests g false m.d.toNat (atomBytes t.toNat) ls)

/-- RED (R169 to R173). -/
def execRed (aop : BitVec 4) (t : BitVec 3) (m : MLOps) (s : State) : MRes :=
  onGroup s fun g =>
    let ls := accessLanes g m.g false
    let a := genericAddr s g 0 m.b (m.offset.signExtend 64)
    accessAt s g (.red aop t m) (opFields (.red aop t m)) ls (atomBytes t.toNat) true true a (fun l => genericWindow (a l))
      (atomData s g aop t m.d.toNat) []

/-- ATOMS (R169 to R172). -/
def execAtoms (aop : BitVec 4) (t : BitVec 3) (m : MLOps) (s : State) : MRes :=
  onGroup s fun g =>
    let ls := accessLanes g m.g false
    let a := stashAddr s g 0 m.b (m.offset.signExtend 64)
    accessAt s g (.atoms aop t m) (opFields (.atoms aop t m)) ls (atomBytes t.toNat) false true (fun l => (a l).setWidth 64)
      (fun l => stashWindow (a l)) (atomData s g aop t m.d.toNat) (loadDests g false m.d.toNat (atomBytes t.toNat) ls)

/-! ### ATOM2 (R174 to R176) -/

/-- One address of ATOM2 at issue: a stash window takes the unsupported-atomic trap (R176). Log entry 87 (DEDUCED). -/
def checkAtom2 (size l : Nat) (a : Word64) : List LaneFault :=
  match genericWindow a with
  | none => [{ code := 0x10, lane := l, addr := a }]
  | some (.stash _ _) => [{ code := 0x17, lane := l, addr := a }]
  | some (.global va) => if va % size ≠ 0 then [{ code := 0x12, lane := l, addr := a }] else []

/-- Two words of one lane that overlap (R176). -/
def overlapAtom2 (size l : Nat) (a b : Word64) : List LaneFault :=
  if a.toNat < b.toNat + size ∧ b.toNat < a.toNat + size then [{ code := 0x17, lane := l, addr := a }] else []

/-- ATOM2: `count` operands of a word each in consecutive registers, and `results` results. -/
def atom2 (s : State) (i : Instr) (gd : BitVec 5) (d : BitVec 6) (b1 b2 : BitVec 7) (w64 : Bool) (count results : Nat) : MRes :=
  onGroup s fun g =>
    let size := if w64 then 8 else 4
    let ls := accessLanes g gd false
    let a (l : Nat) : Word64 := baseOf s g 0 b1 l
    let b (l : Nat) : Word64 := baseOf s g 2 b2 l
    let faults := ls.flatMap fun l => checkAtom2 size l (a l) ++ checkAtom2 size l (b l) ++ overlapAtom2 size l (a l) (b l)
    let lanes : List LaneAcc := ls.map fun l =>
      { lane := l, addr := a l, addr2 := b l, data := wordsBytes (dataWords s g 1 false d.toNat (size * count) l) }
    startMem s g i (opFields i) (lowestFault faults) lanes (loadDests g false d.toNat (size * results) ls)

/-- ATOM2.dcas (R175). -/
def execAtom2Dcas (g : BitVec 5) (d : BitVec 6) (b1 : BitVec 7) (b2 : BitVec 7) (w64 : Bool) (order : BitVec 3) (scope : BitVec 3)
    (s : State) : MRes := atom2 s (.atom2Dcas g d b1 b2 w64 order scope) g d b1 b2 w64 4 3

/-- ATOM2.amov (R175). -/
def execAtom2Amov (g : BitVec 5) (d : BitVec 6) (b1 : BitVec 7) (b2 : BitVec 7) (w64 : Bool) (order : BitVec 3) (scope : BitVec 3)
    (s : State) : MRes := atom2 s (.atom2Amov g d b1 b2 w64 order scope) g d b1 b2 w64 0 1

/-! ### Multicast (R177 to R179) -/

/-- A .mclu member's stash offset for a lane: its limits (R149, R150). -/
def checkMember (s : State) (team size l : Nat) (a : Word64) (off : Nat) : List LaneFault :=
  if stashSize s team < off + size then [{ code := 0x11, lane := l, addr := a }]
  else if off % size ≠ 0 then [{ code := 0x12, lane := l, addr := a }] else []

/-- The causes of STM.mclu at issue (R177): the mask, and each member's offsets; the barrier's place. Log entry 14 (DEDUCED). -/
def mcluFaults (s : State) (g : Group) (size : Nat) (mask : Word64) (bar : Option Word) (ls : List Nat) (a : Nat → Word64) : List LaneFault :=
  let rstep := mask.toNat / 2 ^ 16 % 2 ^ 24
  let ks := membersOf mask 16
  ls.flatMap fun l =>
    (if (a l).toNat / 2 ^ 24 ≠ 0 then [{ code := 0x10, lane := l, addr := a l }] else []) ++
    (if ks.any (fun k => clusterSize s g.team ≤ k) || rstep % 4 != 0 then [{ code := 0x11, lane := l, addr := a l }] else []) ++
    (ks.flatMap fun k => checkMember s g.team size l (a l) ((a l).toNat + k * rstep)) ++
    (match bar with
    | some b => if b.toNat / 2 ^ 24 ≠ 0 then [{ code := 0x10, lane := l, addr := b.setWidth 64 }] else
        checkMember s g.team 32 l (b.setWidth 64) b.toNat
    | none => [])

/-- The causes of STM.mdie at issue (R177): the addresses, then the names above 47. -/
def mdieTrap (s : State) (g : Group) (size : Nat) (mask : Word64) (ls : List Nat) (a : Nat → Word64) : Option Cause :=
  match lowestFault (ls.flatMap fun l => checkWindow s g size l (a l) (genericWindow (a l)) true false) with
  | some c => some c
  | none =>
    if ls = [] then none
    else ((List.range 16).find? fun k => mask.getLsbD (48 + k)).map fun k => { code := 0x18, info := small (48 + k) }

/-- STM (R177 to R179). -/
def execStm (g : BitVec 5) (d : BitVec 6) (b : BitVec 7) (mask : BitVec 7) (t : BitVec 3) (mdie : Bool) (order : BitVec 3) (scope : BitVec 3)
    (bar : Bool) (bars : BitVec 7) (s : State) : MRes :=
  onGroup s fun gr =>
    let size := sizeOfType t
    let ls := accessLanes gr g false
    let a (l : Nat) : Word64 := baseOf s gr 0 b l
    let mk := usrc64 s gr 2 mask
    let bv := usrc s gr tInt 4 bars
    let o := opFor 2 (if mdie then .st else .cl) (.multicast mdie size mk (if bar then some bv.toNat else none)) order scope 0 false
    let trap := if mdie then mdieTrap s gr size mk ls a
      else lowestFault (mcluFaults s gr size mk (if bar then some bv else none) ls a)
    startMem s gr (.stm g d b mask t mdie order scope bar bars) o trap
      (ls.map fun l => { lane := l, addr := a l, data := storeBytes s gr 1 false d.toNat size l }) []

/-! ### Flagged stores (R180, R181) -/

/-- STF: every lane's store, then the flag, which travels as lane 64. -/
def execStf (g : BitVec 5) (d : BitVec 6) (b : BitVec 7) (flag : BitVec 7) (t : BitVec 3) (order : BitVec 3) (scope : BitVec 3)
    (s : State) : MRes :=
  onGroup s fun gr =>
    let size := sizeOfType t
    let ls := accessLanes gr g false
    let a (l : Nat) : Word64 := baseOf s gr 0 b l
    let f := usrc64 s gr 2 flag
    let i : Instr := .stf g d b flag t order scope
    let faults := (ls.flatMap fun l => checkWindow s gr size l (a l) (genericWindow (a l)) true false) ++
      (match ls.head?, genericWindow f with
      | some _, some (.global _) => []
      | some l, _ => [{ code := 0x10, lane := l, addr := f }]
      | none, _ => [])
    let lanes : List LaneAcc := ls.map fun l => { lane := l, addr := a l, data := storeBytes s gr 1 false d.toNat size l }
    startMem s gr i { opFields i with kind := some (.flagged size f) } (lowestFault faults)
      (if ls = [] then [] else lanes ++ [{ lane := 64, addr := f }]) []

end Sys2Proof.Machine
end

