-- ==== Sys2Proof/Machine/Order.lean ====
section
/-!
DEFINITION. Fences (R182, R183, R319, R320), transactions (R188 to R192) and stash binding (R184 to R187).
-/
namespace Sys2Proof.Machine

/-! ### Fences -/

/-- The reads of the group have returned (R320). -/
def readsDone (g : Group) : Bool := g.ops.all fun o => o.stage == .complete || !((o.kind.map loads).getD false)

/-- What a fence waits for (R183, R319, R320, R322): with XP, a release holds until every earlier access is done at its home, and an acquire
until LEASECLK passes the engine writes retired for the group. -/
def fenceMet (s : State) (g : Group) (order : Order) (scope : Scope) (xp : Bool) : Bool :=
  (!releases order || (releaseMet s g scope s.fresh && (!xp || opsDone g s.fresh))) &&
    (!acquires order || (readsDone g && (!xp || passes s g.engChz)))

/-- A fence with an acquire component at .clu or wider raises CHZ to the latest completion time of every earlier read (R318). -/
def afterFence (order : Order) (scope : Scope) (g : Group) : Group :=
  if acquires order && wideScope scope then raiseChz g.readC g else g

/-- Group n goes on after its fence of one word once the fence's ordering holds. -/
def tryFence (s : State) (n : Nat) (order : Order) (scope : Scope) (xp : Bool) : State :=
  match tblGet s.groups n with
  | none => s
  | some g =>
    if fenceMet s g order scope xp then s.putGroup n { advance 1 (afterFence order scope g) with wait := .none }
    else s.putGroup n { g with wait := .fence order scope xp }

/-- FENCE (R183): a release drains the write-combining buffer at every scope. -/
def execFence (_g : BitVec 5) (order : BitVec 3) (scope : BitVec 3) (xp : Bool) (s : State) : MRes :=
  onGroup s fun _ =>
    tryFence (if releases (orderOf order) then drainWcb s s.cur else s) s.cur (orderOf order) (scopeOf scope) xp

/-! ### Transactions -/

/-- TXBEGIN (R188, R189): it stands last in its clause, and the next header is the point of resumption. -/
def execTxbegin (d : BitVec 6) (s : State) : MRes :=
  onGroup s fun g =>
    let g1 := transfer (nextHeader g) (writeS g d.toNat 0)
    s.putGroup s.cur { g1 with
      tx := some { dst := d.toNat, savedExec := g.exec, resume := nextHeader g, lines := [], written := [], site := none, bytes := [], stores := [] } }

/-- The transaction's loads are complete. -/
def txLoadsDone (g : Group) (t : Tx) : Bool := g.ops.all fun o => o.kind.isNone || o.stage == .complete || t.stores.contains o.uid

/-- The buffered bytes by line. -/
def txLines (t : Tx) : List BufLine := t.bytes.foldl (fun b e => bufPut b 0 e.1 [e.2]) []

/-- A transaction commits: every buffered store at once, its stores complete (R192, R332). -/
def commitTx (s : State) (n : Nat) (g : Group) (t : Tx) : State :=
  let s1 := s.putGroup n { g with tx := none }
  let r := (txLines t).foldl (fun (r : State × Nat) x => let w := sendLine r.1 n x; (w.1, max r.2 w.2)) (s1, 0)
  let s2 := t.written.foldl (fun s line => dropOwnLine s n (128 * line)) r.1
  s2.upGroup n fun g =>
    raiseChz r.2 { g with ops := g.ops.map fun o => if t.stores.contains o.uid then { o with stage := .complete } else o }

/-- TXEND commits once the transaction's loads are complete (R192), in ordered mode at the group's turn (R330). -/
def tryTxend (s : State) (n : Nat) : State :=
  match tblGet s.groups n with
  | none => s
  | some g =>
    match g.tx with
    | none => s.putGroup n { advance 1 g with wait := .none }
    | some t =>
      if orderedMode s g && g.turn == .idle then s.putGroup n { g with wait := .quantum true }
      else if !txLoadsDone g t then s.putGroup n { g with wait := .txend }
      else (commitTx s n g t).upGroup n fun g => { advance 1 g with wait := .none }

/-- TXEND (R189, R192): no effect outside a transaction. -/
def execTxend (s : State) : MRes := onGroup s fun _ => tryTxend s s.cur

/-- TXABORT (R189, R191): no effect outside a transaction. -/
def execTxabort (code : BitVec 8) (s : State) : MRes :=
  onGroup s fun g => s.putGroup s.cur (if g.tx.isSome then abortTx 5 code.toNat g else advance 1 g)

/-! ### Stash binding -/

/-- A bound line that a stash owns goes back to its home: written since its fill, it is written there (R186, R187). -/
def recallLine (s : State) (line : Nat) : State × Nat :=
  match tblGet s.owners line with
  | none => (s, 0)
  | some o =>
    let bs := readBytes s.mem (stashLoc o.team o.off) 128
    let s1 := { s with owners := tblErase s.owners line }
    if o.dirty then
      performWrite (needLine s1 line true) (128 * line) bs
    else (s1, 0)

/-- The same, with the stash still owning the line. -/
def flushLine (s : State) (line : Nat) : State × Nat :=
  match tblGet s.owners line with
  | none => (s, 0)
  | some o =>
    let r := recallLine s line
    ({ r.1 with owners := tblSet r.1.owners line { o with dirty := false } }, r.2)

/-- The lines of a slot that its own stash owns. -/
def slotLines (s : State) (team slot : Nat) : List Nat :=
  match (tblGet s.teams team).bind fun t => tblGet t.binds slot with
  | none => []
  | some b => b.lines.filter fun l => ((tblGet s.owners l).map fun o => o.team == team && o.slot == slot).getD false

/-- Every line of a slot is written back; with `release` the binding ends (R187). The latest completion time. -/
def writeBackSlot (s : State) (team slot : Nat) (release : Bool) : State × Nat :=
  let r := (slotLines s team slot).foldl (fun (r : State × Nat) l =>
    let w := if release then recallLine r.1 l else flushLine r.1 l
    (w.1, max r.2 w.2)) (s, 0)
  (if release then r.1.upTeam team fun t => { t with binds := tblErase t.binds slot } else r.1, r.2)

/-- Every slot of a team is unbound (R187). -/
def unbindAll (s : State) (team : Nat) : State × Nat :=
  (List.range 8).foldl (fun (r : State × Nat) i => let w := writeBackSlot r.1 team i true; (w.1, max r.2 w.2)) (s, 0)

/-- Two ranges overlap. -/
def overlaps (a n b m : Nat) : Bool := decide (a < b + m) && decide (b < a + n)

/-- SBIND at issue (R185): its operands, then the overlap with another bound slot of the team. Log entry 25 (DEDUCED). -/
def sbindTrap (s : State) (g : Group) (slot gaddr soff len : Nat) : Option Cause :=
  let lane := (lowestLane g.width g.exec).getD 0
  let bs := (((tblGet s.teams g.team).map (·.binds)).getD []).filter fun e => e.1 != slot
  if soff % 128 ≠ 0 ∨ gaddr % 128 ≠ 0 ∨ len % 128 ≠ 0 ∨ len = 0 ∨ stashSize s g.team < soff + len ∨ 0xFC * 2 ^ 48 < gaddr + len then
    some { code := 0x10, info := laddr lane (BitVec.ofNat 64 gaddr) }
  else if bs.any fun e => overlaps soff len e.2.soff e.2.len || overlaps gaddr len e.2.gaddr.toNat e.2.len then
    some { code := 0x14, info := small slot }
  else none

/-- The physical lines of a global range on LOCAL or INTERLEAVE pages, or what its translation meets (R185). -/
def bindLines (s : State) (w : Who) (lane gaddr : Nat) : Nat → State × Except EngFault (List Nat)
  | 0 => (s, .ok [])
  | k + 1 =>
    match bindLines s w lane gaddr k with
    | (s1, .error f) => (s1, .error f)
    | (s1, .ok ls) =>
      let va := gaddr + 128 * k
      match translate s1 w va true with
      | (s2, .error (.page c l p)) => (s2, .error (.page va c l p))
      | (s2, .error (.trap c)) => (s2, .error (.trap (if c.code = 0x16 then { c with info := laddr lane (BitVec.ofNat 64 va) } else c)))
      | (s2, .ok p) =>
        match p.target with
        | .mem loc =>
          if p.attr ≤ 1 then (s2, .ok (ls ++ [lineOf loc]))
          else (s2, .error (.trap { code := 0x10, info := laddr lane (BitVec.ofNat 64 va) }))
        | .fabric _ _ => (s2, .error (.trap { code := 0x10, info := laddr lane (BitVec.ofNat 64 va) }))

/-- The group goes on after a write-back of two words, whose acknowledgements update CHZ (R187). -/
def afterWriteBack (s : State) (n c : Nat) : State := s.upGroup n fun g => { advance 2 (raiseChz c g) with wait := .none }

/-- SBIND (R185, R186): parked at a page fault, it performs again with the operands that it captured (R163). -/
def execSbind (slot : BitVec 3) (gaddr : BitVec 7) (soff : BitVec 7) (len : BitVec 7) (s : State) : MRes :=
  onGroup s fun g =>
    let vals := operands g [usrc64 s g 0 gaddr, (usrc s g tInt 2 soff).setWidth 64, (usrc s g tInt 3 len).setWidth 64]
    let ga := (vals.getD 0 0).toNat
    let so := (vals.getD 1 0).toNat
    let ln := (vals.getD 2 0).toNat
    match sbindTrap s g slot.toNat ga so ln with
    | some c => trapAt s s.cur c.code c.info
    | none =>
      if flying g then stall s
      else match bindLines s (groupWho s s.cur g) ((lowestLane g.width g.exec).getD 0) ga (ln / 128) with
      | (s1, .error f) => wholeFault s1 s1.cur true (onesBelow g.width) f (some vals)
      | (s1, .ok ls) =>
        let r := writeBackSlot s1 g.team slot.toNat true
        let s2 := r.1.upTeam g.team fun t =>
          { t with binds := tblSet t.binds slot.toNat { gaddr := BitVec.ofNat 64 ga, soff := so, len := ln, lines := ls } }
        afterWriteBack s2 s.cur r.2

/-- SUNBIND (R187). -/
def execSunbind (slot : BitVec 3) (s : State) : MRes :=
  onGroup s fun g =>
    if flying g then stall s
    else
      let r := writeBackSlot s g.team slot.toNat true
      afterWriteBack r.1 s.cur r.2

/-- SFLUSH (R187). -/
def execSflush (slot : BitVec 3) (s : State) : MRes :=
  onGroup s fun g =>
    if flying g then stall s
    else
      let r := writeBackSlot s g.team slot.toNat false
      afterWriteBack r.1 s.cur r.2

/-- BIND_FIRST_TOUCH (R186): the first access to a bound line fills it; a line that another stash owns stays there. -/
def execBindFirstTouch (team slot line : Nat) (s : State) : MRes :=
  match (tblGet s.teams team).bind fun t => tblGet t.binds slot with
  | some b => .next (fillBound s team slot b line)
  | none => .next s

/-- BIND_RECALL (R186): the home writes a filled line back; it is unfilled again, and no value changes. -/
def execBindRecall (line : Nat) (s : State) : MRes := .next (recallLine s line).1

/-- TX_ABORT (R190, R191): a conflict, a line beyond the set, or an interrupt aborts the transaction of group g. -/
def execTxAbort (g : Nat) (cause : BitVec 8) (s : State) : MRes :=
  match tblGet s.groups g with
  | some gr =>
    if gr.tx.isSome && 1 ≤ cause.toNat && cause.toNat ≤ 5 then .next (s.putGroup g (abortTx cause.toNat 0 gr)) else .next s
  | none => .next s

end Sys2Proof.Machine
end

