-- ==== Sys2Proof/Machine/Team.lean ====
section
/-!
DEFINITION. The end of a group and of a team (R144, R164, R297, R362), and the exit-fired contributions of a team (R414).
-/
namespace Sys2Proof.Machine

/-! ### The end of a team -/

/-- A grid coordinate of a team: 0 GRIDX, 1 GRIDY, 2 GRIDZ (R360). -/
def gridCoord (l : Launch) (t sel : Nat) : Nat :=
  match sel with
  | 0 => t % l.gx
  | 1 => t / l.gx % l.gy
  | _ => t / (l.gx * l.gy)

/-- The rank and chunk that a team contributes to a binding, none outside it (R414). -/
def contribution (l : Launch) (c : Coll) (teamid : Nat) : Option (Nat × Nat) :=
  let r := gridCoord l teamid c.rsel
  let k := gridCoord l teamid c.csel
  if r < c.names.length ∧ k < c.nchunk then some (r, k) else none

/-- The exit-fired contributions of a team: one for each binding with STREAM 0 (R414). -/
def fireContributions (s : State) (n : Nat) (t : Team) : State :=
  match tblGet s.grids t.grid with
  | none => s
  | some g =>
    g.launch.colls.foldl (fun s e =>
      if e.2.stream then s
      else
        match contribution g.launch e.2 t.teamid with
        | none => s
        | some (r, k) =>
          let c : Contrib := { grid := t.grid, team := n, binding := e.1, rank := r, chunk := k, bytes := none, quartet := none }
          { s with contribs := tblSet s.contribs s.fresh c, fresh := s.fresh + 1 }) s

/-- The latest CHZ of a team's groups. -/
def teamChz (s : State) (t : Team) : Nat := t.groups.foldl (fun a n => max a (((tblGet s.groups n).map (·.chz)).getD 0)) 0

/-- A request of an ordered launch's commit is outstanding for group n: it belongs to no operation, and has number 0. -/
def commitsFor (s : State) (n : Nat) : Bool := s.fabOut.any fun q => q.2.op == 0 && !q.2.keep && q.2.group == n

/-- No group of the team has an operation, a copy or a buffered store outstanding. Log entry 86 (DEDUCED). -/
def teamQuiet (s : State) (t : Team) : Bool :=
  t.groups.all fun n => match tblGet s.groups n with
    | some g => g.ops == [] && g.copies == [] && g.wcb == [] && g.sbuf == [] && !commitsFor s n
    | none => true

/-- A team that has ended and is quiet frees its slots: it and its groups leave. -/
def freeTeam (s : State) (n : Nat) (t : Team) : State :=
  { s with
    teams := tblErase s.teams n
    groups := t.groups.foldl tblErase s.groups
    mem := s.mem.filter fun c => !(decide (stashLoc n 0 ≤ c.1) && decide (c.1 < stashLoc (n + 1) 0)) }

/-- The end of a team whose last group has ended (R362): its slots are unbound, its sequence slots released, its contributions fired;
it leaves once every counter of its groups is 0 (R144). -/
def settleTeam (s : State) (n : Nat) : State :=
  match tblGet s.teams n with
  | none => s
  | some t =>
    if liveMembers s n != [] then s
    else
      let s1 :=
        if t.ended then s
        else
          let u := unbindAll s n
          let s2 := fireContributions (u.1.upTeam n fun t => { t with ended := true, seqs := [] }) n t
          { s2 with grids := tblUp s2.grids t.grid fun g =>
              { g with
                endedTeams := if g.endedTeams.contains t.teamid then g.endedTeams else t.teamid :: g.endedTeams
                chz := max g.chz u.2 } }
      if teamQuiet s1 t then
        freeTeam { s1 with grids := tblUp s1.grids t.grid fun g => { g with chz := max g.chz (teamChz s1 t) } } n t
      else s1

/-- The team of group n. -/
def teamNum (s : State) (n : Nat) : Nat := ((tblGet s.groups n).map (·.team)).getD 0

/-- Group n ends as at EXIT: its write-combining buffer drains (R154), its errors are logged, and its team may end. -/
def exitGroup (s : State) (n : Nat) : State :=
  match tblGet s.groups n with
  | none => s
  | some g => settleTeam (endGroup (drainWcb s n) n) g.team

/-- EXIT (R144): an open transaction is discarded with the group (R191). -/
def execExit (s : State) : MRes := onGroup s fun _ => exitGroup s s.cur

end Sys2Proof.Machine
end

