-- ==== Sys2Proof/Machine/Barrier.lean ====
section
/-!
DEFINITION. Landing barriers (R261 to R265), team and cluster barriers (R266), and WAITC (R260).
-/
namespace Sys2Proof.Machine

/-- The lane that TRAPINFO names for an instruction that acts once for the group: the lowest of EXEC. Log entry 53 (DEDUCED). -/
def uniLane (g : Group) : Nat := (lowestLane g.width g.exec).getD 0

/-! ### The place of a barrier (R262, R265) -/

/-- The causes of a barrier address: its window, the stash bounds, its alignment. With `own` it may not name a cluster member's stash. -/
def barrierFaults (s : State) (g : Group) (b : Word) (own : Bool) : List LaneFault :=
  match own, stashWindow b with
  | true, some (.stash (some _) _) => [{ code := 0x10, lane := uniLane g, addr := b.setWidth 64 }]
  | _, w => checkWindow s g 32 (uniLane g) (b.setWidth 64) w false true

/-- The team and stash offset of a barrier; none where its team has left the cluster. -/
def barrierPlace (s : State) (g : Group) (b : Word) : Option (Nat × Nat) :=
  match stashWindow b with
  | some (.stash none off) => some (g.team, off)
  | some (.stash (some r) off) => (clusterTeam s g.team r).map fun t => (t, off)
  | _ => none

/-- The barrier-state trap (R265). Log entry 54 (DEDUCED). -/
def barrierState (s : State) (n : Nat) (b : Word) : State := trapAt s n 0x31 (small b.toNat)

/-! ### BINIT, BEXP (R263) -/

/-- A barrier as BINIT writes it. -/
def Barrier.init (count quota : Nat) : Barrier :=
  { quota := quota, pend := quota, count := count, left := count, gen := 0, cerr := false, err := false }

/-- BINIT (R263, R265). -/
def execBinit (b : BitVec 7) (count : BitVec 7) (quota : BitVec 7) (s : State) : MRes :=
  onGroup s fun g =>
    let a := usrc s g tInt 0 b
    let c := (usrc s g tInt 1 count).toNat
    let q := (usrc s g tInt 2 quota).toNat
    match lowestFault (barrierFaults s g a true) with
    | some x => trapAt s s.cur x.code x.info
    | none =>
      if flying g then stall s
      else if c = 0 ∨ 65535 < c then barrierState s s.cur a
      else
        match barrierPlace s g a with
        | some (t, off) => (writeBarrier s (some s.cur) t off (Barrier.init c q)).upGroup s.cur (advance 2)
        | none => s.upGroup s.cur (advance 2)

/-- PEND + bytes, in one update (R263, R264). -/
def Barrier.expect (b : Barrier) (n : Nat) : Barrier := Barrier.settle { b with pend := (b.pend + n) % 2 ^ 64 }

/-- BEXP (R263). -/
def execBexp (b : BitVec 7) (n : BitVec 7) (s : State) : MRes :=
  onGroup s fun g =>
    let a := usrc s g tInt 0 b
    let k := (usrc s g tInt 1 n).toNat
    match lowestFault (barrierFaults s g a false) with
    | some x => trapAt s s.cur x.code x.info
    | none =>
      if flying g then stall s
      else match barrierPlace s g a with
      | some (t, off) =>
        let r := readBarrier s (some s.cur) t off
        (writeBarrier r.1 (some s.cur) t off (r.2.1.expect k)).upGroup s.cur (advance 1)
      | none => s.upGroup s.cur (advance 1)

/-! ### BARV (R263, R265) -/

/-- The arrival of BARV: PEND + bytes and LEFT − 1. -/
def Barrier.arrive (b : Barrier) (n : Nat) : Barrier :=
  Barrier.settle { b with pend := (b.pend + n) % 2 ^ 64, left := b.left - 1 }

/-- BARV's update by group n once its release holds. -/
def arriveBarv (s : State) (n d : Nat) (a bytes : Word) : State :=
  match tblGet s.groups n with
  | none => s
  | some g =>
    match barrierPlace s g a with
    | none => (writeU s n d (Config.freeWord s.draws 0)).upGroup n fun g => { advance 1 g with wait := .none }
    | some (t, off) =>
      let r := readBarrier s (some n) t off
      let b := r.2.1
      if b.left = 0 then barrierState (s.upGroup n fun g => { g with wait := .none }) n a
      else
        (writeU (writeBarrier r.1 (some n) t off (b.arrive bytes.toNat)) n d (BitVec.ofNat 32 b.gen)).upGroup n fun g => { advance 1 g with wait := .none }

/-- BARV by group n: the effect of FENCE.rel.clu, then the update. -/
def tryBarv (s : State) (n d : Nat) (a bytes : Word) : State :=
  match tblGet s.groups n with
  | none => s
  | some g =>
    if releaseMet s g .clu s.fresh then arriveBarv s n d a bytes else s.putGroup n { g with wait := .barv d a bytes }

/-- BARV (R263). -/
def execBarv (d : BitVec 6) (b : BitVec 7) (n : BitVec 7) (s : State) : MRes :=
  onGroup s fun g =>
    let a := usrc s g tInt 0 b
    let k := usrc s g tInt 1 n
    match lowestFault (barrierFaults s g a false) with
    | some x => trapAt s s.cur x.code x.info
    | none => tryBarv (drainWcb s s.cur) s.cur d.toNat a k

/-! ### BWAIT (R263) -/

/-- The acquire with which group n leaves a wait: earlier loads have returned, and with xp LEASECLK has passed its engine writes
(R320). -/
def leaveWait (s : State) (n : Nat) (scope : Scope) (xp : Bool) : State :=
  s.upGroup n fun g =>
    if readsDone g && (!xp || passes s g.engChz) then { advance 1 (afterFence .acq scope g) with wait := .none }
    else { g with wait := .leave scope xp }

/-- The phases closed since phase `gen` (R263). -/
def Barrier.phases (b : Barrier) (gen : Word) : Nat := (b.gen + 2 ^ 32 - gen.toNat) % 2 ^ 32

/-- BWAIT by group n: it ends once the phase after `gen` has closed. -/
def tryBwait (s : State) (n d : Nat) (a gen : Word) : State :=
  match tblGet s.groups n with
  | none => s
  | some g =>
    match barrierPlace s g a with
    | none => s
    | some (t, off) =>
      let r := readBarrier s (some n) t off
      let b := r.2.1
      let k := b.phases gen
      if 1 ≤ k ∧ k < 2 ^ 31 then
        leaveWait (writeU (r.1.upGroup n fun g => { g with readC := max g.readC r.2.2 }) n d (BitVec.ofNat 32 ((if b.cerr then 1 else 0) + (if 1 < k then 2 else 0)))) n .clu true
      else s.putGroup n { g with wait := .bwait d a gen }

/-- BWAIT (R263). -/
def execBwait (d : BitVec 6) (b : BitVec 7) (n : BitVec 7) (s : State) : MRes :=
  onGroup s fun g =>
    let a := usrc s g tInt 0 b
    let k := usrc s g tInt 1 n
    match lowestFault (barrierFaults s g a true) with
    | some x => trapAt s s.cur x.code x.info
    | none => if flying g then stall s else tryBwait s s.cur d.toNat a k

/-! ### Team and cluster barriers (R266) -/

/-- The teams whose groups take part in a barrier of a team: the team, or every team of its cluster that is resident. -/
def barrierTeams (s : State) (team : Nat) (cluster : Bool) : List Nat :=
  if cluster then (List.range (clusterSize s team)).filterMap fun r => clusterTeam s team r else [team]

/-- The groups that have arrived at barrier id of a team. -/
def arrivedAt (s : State) (cluster : Bool) (id team : Nat) : List Nat :=
  match tblGet s.teams team with
  | some t => (tblGet (if cluster then t.barc else t.bart) id).getD []
  | none => []

/-- The barrier's arrivals of a team become ns. -/
def setArrived (s : State) (cluster : Bool) (id : Nat) (ns : List Nat) (team : Nat) : State :=
  s.upTeam team fun t =>
    if cluster then { t with barc := tblSet t.barc id ns } else { t with bart := tblSet t.bart id ns }

/-- The group waits at this barrier. -/
def waitsAt (cluster : Bool) (id : Nat) (g : Group) : Bool := g.wait == (if cluster then .barc id else .bart id)

/-- Once every member has arrived, all arrived members leave together and the barrier is cleared. -/
def openBarrier (s : State) (team : Nat) (cluster : Bool) (id : Nat) : State :=
  let ts := barrierTeams s team cluster
  if ts.all fun t => (liveMembers s t).all fun n => (arrivedAt s cluster id t).contains n then
    let ns := ts.flatMap (arrivedAt s cluster id)
    let s1 := ts.foldl (fun s t => setArrived s cluster id [] t) s
    ns.foldl (fun s n =>
      if ((tblGet s.groups n).map (waitsAt cluster id)).getD false then leaveWait s n (if cluster then .clu else .team) false else s) s1
  else s

/-- Group n arrives once its release holds. -/
def arriveBar (s : State) (n : Nat) (cluster : Bool) (id : Nat) : State :=
  match tblGet s.groups n with
  | none => s
  | some g =>
    if releaseMet s g (if cluster then .clu else .team) s.fresh then
      let s1 := s.putGroup n { g with wait := if cluster then .barc id else .bart id }
      let s2 := setArrived s1 cluster id (n :: (arrivedAt s1 cluster id g.team).filter (· != n)) g.team
      openBarrier s2 g.team cluster id
    else s.putGroup n { g with wait := .barArrive cluster id }

/-- BART (R266). -/
def execBart (id : BitVec 2) (s : State) : MRes := onGroup s fun _ => arriveBar (drainWcb s s.cur) s.cur false id.toNat

/-- BARC (R266). -/
def execBarc (id : BitVec 2) (s : State) : MRes := onGroup s fun _ => arriveBar (drainWcb s s.cur) s.cur true id.toNat

/-! ### WAITC (R260) -/

/-- The conditions hold: every named counter is at or below its threshold. -/
def condsMet (g : Group) (cs : List (Nat × Nat)) : Bool := cs.all fun c => decide (counter g c.1 ≤ c.2)

/-- WAITC by group n: it waits, raises a reported error pending on a named counter (R164), or goes on. -/
def tryWaitc (s : State) (n : Nat) (cs : List (Nat × Nat)) : State :=
  match tblGet s.groups n with
  | none => s
  | some g =>
    if condsMet g cs then
      match pendingErr g (cs.map (·.1)) with
      | some c => raiseReported s n c
      | none => s.putGroup n { advance 1 g with wait := .none }
    else s.putGroup n { g with wait := .waitc cs }

/-- WAITC (R260). -/
def execWaitc (id1 : BitVec 3) (t1 : BitVec 6) (id2 : BitVec 3) (t2 : BitVec 6) (s : State) : MRes :=
  onGroup s fun _ =>
    tryWaitc s s.cur ([(id1.toNat, t1.toNat), (id2.toNat, t2.toNat)].filter fun c => c.1 != 0)

end Sys2Proof.Machine
end

