-- ==== Sys2Proof/Machine/Errors.lean ====
section
/-!
DEFINITION. Errors across hours: event records and the event ring (R451), the retirement log's appends (R466), windows (R450), and the
loss of a site (R452, R453).
-/
namespace Sys2Proof.Machine

/-! ### The event ring and the retirement log (R451, R466) -/

/-- The sites that are live: they have a die, and it is not lost. -/
def liveSites (s : State) : List Nat := (tblKeys s.dies).filter fun k => !s.siteLost.contains k

/-- The lowest live site. -/
def lowestSite (s : State) : Nat := (liveSites s).headD 0

/-- An event as its record names it: KIND, UNIT, SITE, INDEX, ADDR, ASID. -/
structure Event where
  kind : Nat
  unit : Nat
  site : Nat
  index : Nat := 0
  addr : Nat := 0
  asid : Nat := 0
deriving DecidableEq, Repr

/-- The 64 bytes of an event record. -/
def eventBytes (s : State) (e : Event) (seq : Nat) : List Byte :=
  leBytes 8 (ticks s) ++ leBytes 1 e.kind ++ leBytes 1 e.unit ++ leBytes 1 e.site ++ leBytes 1 0 ++ leBytes 4 e.index ++
    leBytes 8 e.addr ++ leBytes 2 e.asid ++ leBytes 10 0 ++ leBytes 4 seq ++ leBytes 24 0

/-- An event goes to the ring of the lowest live site; where no record can be claimed, DROPPED counts it (R451).
Log entry 46 (DEDUCED). -/
def recordEvent (s : State) (e : Event) : State :=
  let h := siteLoc (lowestSite s) Config.eventRing
  let s0 := needLine s (lineOf h) false
  match claimSlot s0 h with
  | some (w, loc) =>
    let s1 := storeNum s0 none h 8 (w + 1)
    (storeAt s1 none loc (eventBytes s1 e ((w + 1) % 2 ^ 32))).1
  | none => storeNum s0 none (h + 32) 8 (peekNum s0 (h + 32) 8 + 1)

/-- The number of pages of the retirement log (R459). -/
def logPages : Nat := 8176

/-- A crossing is recorded: in the ring, and in the retirement log while a page is left (R450, R466). -/
def recordCrossing (s : State) (e : Event) : State :=
  let s1 := recordEvent s e
  if s.logPage < logPages then { s1 with appends := s1.appends ++ [eventBytes s e 0] } else s1

/-! ### Windows (R450) -/

/-- The kinds of unit that count events, as numbers of windows. -/
inductive UnitKind where
  | sramRow | parityRow | hbmRow | slice | core | adder | module | oscillator
deriving DecidableEq, Repr

/-- The number of a unit's window. -/
def unitKey (k : UnitKind) (n : Nat) : Nat :=
  (match k with
    | .sramRow => 0 | .parityRow => 1 | .hbmRow => 2 | .slice => 3 | .core => 4 | .adder => 5 | .module => 6 | .oscillator => 7) +
    8 * n

/-- T and W of a unit. -/
def unitLimit : UnitKind → Nat × Nat
  | .sramRow | .parityRow | .hbmRow => (2, 155520000000000)
  | .module => (4096, 2160000000000)
  | _ => (2, 51840000000000)

/-- An event of a unit is counted: whether it brings the events of the window to T. -/
def countEvent (s : State) (k : UnitKind) (n : Nat) : State × Bool :=
  let lim := unitLimit k
  let times := ticks s :: ((tblGet s.windows (unitKey k n)).getD []).filter fun t => decide (ticks s < t + lim.2)
  ({ s with windows := tblSet s.windows (unitKey k n) times }, times.length == lim.1)

/-- An event whose crossing is recorded as a lasting fault (R450, R451). -/
def unitEvent (s : State) (k : UnitKind) (n : Nat) (e : Event) : State :=
  let r := countEvent s k n
  if r.2 then recordCrossing r.1 e else r.1

/-- A shadow-column mismatch of a core: at the crossing the core is retired (R210, R450). -/
def shadowEvent (s : State) (core : Nat) : State :=
  let r := countEvent s .core core
  if r.2 then
    recordCrossing (r.1.upCore core fun c => { c with retired := true })
      { kind := 4, unit := 4, site := core / 48, index := core % 48 }
  else r.1

/-- A retried node of a router's adders: at the crossing the pair is retired and the die's engine computes its nodes (R417, R450). -/
def adderEvent (s : State) (site : Nat) : State :=
  let r := countEvent s .adder site
  if s.retiredUnits.contains (unitKey .adder site) then s
  else if r.2 then
    recordCrossing { r.1 with retiredUnits := unitKey .adder site :: r.1.retiredUnits } { kind := 1, unit := 5, site := site }
  else r.1

/-! ### PATROL_SCRUB, FLIT_CRC_REPLAY, OSCILLATOR_LOCK_LOSS (R446, R447, R450) -/

/-- A scrub read of a line that found an error: corrected, it counts against the line's row of 1 KiB; uncorrectable, the line's units
hold it, it is an error with no consumer, the frame of 2 MiB is recorded, and the home slice counts it (R447 to R451). -/
def scrubLine (s : State) (line : Nat) (corrected : Bool) : State :=
  let loc := 128 * line
  let site := locSite loc
  if !isHbm loc || !(liveSites s).contains site then s
  else if corrected then unitEvent s .hbmRow (loc / 1024) { kind := 1, unit := 1, site := site, addr := locAddr loc / 1024 * 1024 }
  else
    let s1 := { s with ueUnits := (unitsOf loc 128).foldl (fun l u => if l.contains u then l else u :: l) s.ueUnits }
    let s2 := recordEvent s1 { kind := 2, unit := 2, site := site, addr := locAddr loc }
    let s3 := recordCrossing s2 { kind := 1, unit := 2, site := site, addr := locAddr loc / 2 ^ 21 * 2 ^ 21 }
    unitEvent s3 .slice (32 * site + Config.sliceOf line % 32)
      { kind := 1, unit := 3, site := site, index := Config.sliceOf line % 32 }

/-- The number of a module of an edge of a site. -/
def moduleNum (site edge m : Nat) : Nat := site * 64 + edge % 4 * 8 + m % 8

/-- The number under which a link that is down is kept. -/
def linkDown (site edge : Nat) : Nat := 2 ^ 40 + site * 4 + edge % 4

/-- A flit is replayed on a module of an edge; after 16 failed replays the link is down (R446). -/
def flitReplay (s : State) (site edge m : Nat) (failed : Bool) : State :=
  let r := countEvent s .module (moduleNum site edge m)
  let s1 :=
    if r.2 then
      recordCrossing { r.1 with retiredUnits := unitKey .module (moduleNum site edge m) :: r.1.retiredUnits }
        { kind := 1, unit := 6, site := site, index := (Config.moduleIndex edge m).toNat }
    else r.1
  if failed then { s1 with retiredUnits := linkDown site edge :: s1.retiredUnits } else s1

/-! ### The loss of a site (R452, R453) -/

/-- The mesh neighbours of a site in the grid of 6 rows of 8, by edge: north, east, south, west. -/
def neighbours (site : Nat) : List (Nat × Nat) :=
  (if 8 ≤ site then [(0, site - 8)] else []) ++ (if site % 8 < 7 then [(1, site + 1)] else []) ++
    (if site + 8 < 48 then [(2, site + 8)] else []) ++ (if 0 < site % 8 then [(3, site - 1)] else [])

/-- The link between a site and its neighbour over an edge is up. -/
def linkUp (s : State) (site edge other : Nat) : Bool :=
  !s.retiredUnits.contains (linkDown site edge) && !s.retiredUnits.contains (linkDown other ((edge + 2) % 4))

/-- The live neighbours of a site that its flits reach. -/
def liveNeighbours (s : State) (site : Nat) : List Nat :=
  ((neighbours site).filter fun e => (liveSites s).contains e.2 && linkUp s site e.1 e.2).map (·.2)

/-- A site's heartbeat reaches its neighbours. -/
def heartbeat (s : State) (site : Nat) : State :=
  (liveNeighbours s site).foldl (fun s n => s.upDie n fun d => { d with heard := tblSet d.heard site (ticks s) }) s

/-- No live neighbour has heard the site for 600 ticks. -/
def silent (s : State) (site : Nat) : Bool :=
  let ns := ((neighbours site).map (·.2)).filter fun n => (liveSites s).contains n
  ns.all fun n => decide (((tblGet s.dies n).bind fun d => tblGet d.heard site).getD 0 + 600 ≤ ticks s)

/-- The lowest name that a name block binds to a site. -/
def nameOfSite (s : State) (at_ site : Nat) : Nat :=
  ((List.range 48).find? fun n =>
    let e := (nameHome s at_ n).toNat
    bits e 63 63 == 1 && bits e 61 61 == 0 && bits e 60 55 == site).getD 0

/-- The names that a name block binds to a site, as a mask. -/
def namesOfSite (s : State) (at_ site : Nat) : Word64 :=
  maskOf 48 fun n =>
    let e := (nameHome s at_ n).toNat
    bits e 63 63 == 1 && bits e 61 61 == 0 && bits e 60 55 == site

/-- A place lies on a site. -/
def onSite (site : Nat) : Spot → Bool
  | .phys { target := .mem loc, .. } => isHbm loc && locSite loc == site
  | .l1 x => isHbm (128 * x.pa) && locSite (128 * x.pa) == site
  | _ => false

/-- The error of an operation that a lost site leaves undone: of a multicast the failed members (R179), else the die lost (R453). -/
def lostError (s : State) (site at_ : Nat) (o : Op) : Op :=
  match o.kind with
  | some (.multicast true _ mask _) =>
    let m := o.failed ||| (mask &&& namesOfSite s at_ site)
    { o with failed := m, err := some { code := 0x1B, info := m } }
  | _ => { o with err := some (o.err.getD { code := 0x19, info := small (nameOfSite s at_ site) }) }

/-- The register belongs to one of some lanes; a uniform or team register to all. -/
def regOf (ls : List Nat) : Reg → Bool
  | .v _ l => ls.contains l
  | _ => true

/-- An operation that waits for a line of the lost site, or has lanes in flight to it, goes on without them and reports the error (R453); what
those lanes load is unspecified (R164). -/
def lostOp (s : State) (site at_ : Nat) (o : Op) : Op :=
  let bad := o.lines.filter fun l => isHbm (128 * l) && locSite (128 * l) == site
  let gone := (o.flight.filter fun p => onSite site p.spot || onSite site p.spot2).map (·.acc.lane)
  if o.stage == .complete || (bad == [] && gone == []) then o
  else
    let regs := (if gone = [] then [] else o.dests).filter fun r => regOf gone r && !(o.writes.any fun w => w.1 == r)
    lostError s site at_
      { o with
        lines := o.lines.filter fun l => !bad.contains l
        flight := o.flight.filter fun p => !gone.contains p.acc.lane
        writes := o.writes ++ (List.range regs.length).filterMap fun k => (regs[k]?).map fun r => (r, Config.freeWord s.draws (readIdx 13 (4096 * o.uid + k))) }

/-- The teams resident on a site. -/
def teamsOn (s : State) (site : Nat) : List (Nat × Team) := s.teams.filter fun e => e.2.site == site

/-- The die's mask of lost sites takes a site in. -/
def maskSite (site : Nat) (d : Die) : Die := { d with lost := d.lost ||| BitVec.ofNat 64 (2 ^ site) }

/-- The lines that stashes on a site own: their homes answer with an uncorrectable error (R453). -/
def ownedUnits (s : State) (site : Nat) : List Nat :=
  s.owners.flatMap fun e =>
    if ((tblGet s.teams e.2.team).map (·.site)) = some site then unitsOf (128 * e.1) 128 else []

/-- The teams on the site are gone, their lines and contexts as R453 says. -/
def dropSite (s : State) (site : Nat) : State :=
  let gone := teamsOn s site
  let ctxs := (gone.map (·.2.ctx)).dedup
  let s1 :=
    { s with
      ueUnits := ownedUnits s site ++ s.ueUnits
      owners := s.owners.filter fun e => !(gone.any fun t => t.1 == e.2.team)
      emissions := s.emissions.filter fun e => e.2.site != site || e.2.sent
      groups := s.groups.filter fun e => !(gone.any fun t => t.1 == e.2.team)
      teams := s.teams.filter fun e => e.2.site != site }
  ctxs.foldl (fun s c => contextError s (lowestSite s) c 2 0x19 0) s1

/-- Outstanding accesses of the other groups to the site report die-lost errors. -/
def failOps (s : State) (site : Nat) : State :=
  let fail (e : Nat × Group) : Nat × Group := (e.1, { e.2 with ops := e.2.ops.map (lostOp s site (siteOf s e.2)) })
  { s with groups := s.groups.map fail }

/-- Sets 3 in STATUS of a region of a checkpoint (R455, R456). -/
def regionStatus (s : State) (entry : Word64) (ctx site st block : Nat) : State :=
  let w := engineWho site ctx
  match engReadNum s w (entry.toNat + 24) 4 with
  | (s1, .ok 0) => (engWrite s1 w (entry.toNat + 24) (leBytes 4 st ++ leBytes 4 block)).1
  | (s1, .ok _) =>
    match engReadNum s1 w (entry.toNat + 28) 4 with
    | (s2, .ok b) => if block < b then (engWriteNum s2 w (entry.toNat + 28) 4 block).1 else s2
    | (s2, _) => s2
  | (s1, _) => s1

/-- The blocks of a lost site that are held for Rinse are released with STATUS 3. -/
def failHeld (s : State) (site : Nat) : State :=
  let lost := s.held.filter fun e => isHbm (4096 * e.1) && locSite (4096 * e.1) == site
  lost.foldl (fun s e => regionStatus s e.2.entry e.2.ctx (lowestSite s) 3 (e.2.offset / 4096))
    { s with held := s.held.filter fun e => !(isHbm (4096 * e.1) && locSite (4096 * e.1) == site) }

/-- A site is lost: every live die holds it in its mask, the lowest live site writes a KIND 3 event, and what was there is gone (R452,
R453). -/
def loseSite (s : State) (site : Nat) : State :=
  if !(liveSites s).contains site then s
  else
    let s1 := { s with siteLost := site :: s.siteLost }
    let s2 := { s1 with dies := s1.dies.map fun e => (e.1, maskSite site e.2) }
    let s3 := dropSite (failOps s2 site) site
    recordEvent (failHeld s3 site) { kind := 3, unit := 7, site := site }

/-! ### The events -/

abbrev EvRes := Host.Outcome State Fault Refusal

/-- PATROL_SCRUB: a read of a line by the scrubber, which found an error that it corrected or could not correct. -/
def execPatrolScrub (line : Nat) (corrected : Bool) (s : State) : EvRes := .next (scrubLine s line corrected)

/-- FLIT_CRC_REPLAY: a flit is replayed on a module of an edge of a live site. -/
def execFlitCrcReplay (site edge module : Nat) (failed : Bool) (s : State) : EvRes :=
  .next (if (liveSites s).contains site then flitReplay s site edge module failed else s)

/-- OSCILLATOR_LOCK_LOSS: an oscillator of a live site loses its phase lock. -/
def execOscillatorLockLoss (site osc : Nat) (s : State) : EvRes :=
  .next (if (liveSites s).contains site && decide (osc < 4) then
    unitEvent s .oscillator (4 * site + osc) { kind := 1, unit := 8, site := site, index := osc } else s)

/-- HEARTBEAT_SEND: the routers of a live site send a flit to every neighbour, every 64 ticks. -/
def execHeartbeatSend (site : Nat) (s : State) : EvRes := .next (if (liveSites s).contains site then heartbeat s site else s)

end Sys2Proof.Machine
end

