-- ==== Sys2Proof/Machine/Frame.lean ====
section
/-!
DEFINITION. The frame descriptors of raster sinks and their region maps (R399, R400), the sinks of a context (R437), and the watermarks that
SCLOSE sends (R402).
-/
namespace Sys2Proof.Machine

/-- The number of the sink of a context on a die name. -/
def findSink (s : State) (name ctx number : Nat) : Option (Nat × Sink) :=
  tblFind s.sinks fun _ x => x.die == name && x.ctx == ctx && x.number == number

/-- A frame descriptor. -/
structure Frame where
  frame : Nat
  nseq : Nat
  wpix : Nat
  hpix : Nat
  smp : Nat
  qp : Nat
  idp : Nat
  dep : Nat
  rmap : Nat
  clrz : Nat
  bincap : Nat
  bins : Nat
  done : Nat
deriving DecidableEq, Repr

def readFrame (bs : List Byte) : Frame where
  frame := bytesNum bs 0 4
  nseq := bytesNum bs 4 4
  wpix := bytesNum bs 8 2
  hpix := bytesNum bs 10 2
  smp := bytesNum bs 12 1
  qp := bytesNum bs 14 2
  idp := bytesNum bs 16 8
  dep := bytesNum bs 24 8
  rmap := bytesNum bs 32 8
  clrz := bytesNum bs 40 4
  bincap := bytesNum bs 44 4
  bins := bytesNum bs 48 8
  done := bytesNum bs 56 8

/-- The limits of R399. -/
def frameOk (bs : List Byte) (f : Nat) : Bool :=
  let d := readFrame bs
  let inRange (x lo hi : Nat) : Bool := decide (lo ≤ x) && decide (x ≤ hi)
  d.frame == f && inRange d.nseq 1 1048576 && inRange d.wpix 1 4096 && inRange d.hpix 1 4096 && [1, 2, 4, 8].contains d.smp &&
    bytesNum bs 13 1 == 0 && d.qp % 64 == 0 && decide (d.wpix ≤ d.qp) && d.idp % 128 == 0 && d.dep % 128 == 0 && d.rmap % 64 == 0 &&
    decide (d.bincap ≤ 65535) && d.bins % 64 == 0 && (d.bincap != 0 || d.bins == 0) && d.done % 8 == 0 && bytesNum bs 64 64 == 0

/-- The regions across, and their number (R400). -/
def Frame.across (d : Frame) : Nat := (d.wpix + 63) / 64
def Frame.regions (d : Frame) : Nat := d.across * ((d.hpix + 63) / 64)

/-- Every byte of the region map names a die or no die. -/
def mapOk (m : List Byte) : Bool := m.all fun b => decide (b.toNat < 48) || b == 0xFF

/-- The descriptor and the region map of frame f in the ring at `base`, none where they break R399 or R400. -/
def loadFrame (s : State) (w : Who) (base f : Nat) : State × Option (List Byte × List Byte) :=
  match engRead s w (base + 128 * (f % 4)) 128 with
  | (s1, .error _) => (s1, none)
  | (s1, .ok bs) =>
    if !frameOk bs f then (s1, none)
    else
      match engRead s1 w (readFrame bs).rmap (readFrame bs).regions with
      | (s2, .error _) => (s2, none)
      | (s2, .ok m) => (s2, if mapOk m then some (bs, m) else none)

/-- The owner dies of a frame: the distinct names in its map. -/
def owners (m : List Byte) : List Nat := (List.range 48).filter fun n => m.contains (BitVec.ofNat 8 n)

/-- FRAME and U of a SEQID (R398). -/
def frameOfSeq (x : Word64) : Nat := x.toNat / 2 ^ 32
def indexOfSeq (x : Word64) : Nat := x.toNat % 2 ^ 32

/-- The die remembers where a sequence has emitted, for its watermarks. -/
def noteEmitted (s : State) (site ctx : Nat) (seqid : Word64) (route : Word) : State :=
  let x := (ctx, seqid, route.toNat % 64, route.toNat / 64 % 1024)
  s.upDie site fun d => { d with emitted := if d.emitted.contains x then d.emitted else x :: d.emitted }

/-- The raster sinks that a sequence has emitted to, one for each sink number. -/
def rasterSinks (s : State) (site ctx : Nat) (seqid : Word64) : List (Nat × Nat) :=
  (((tblGet s.dies site).map (·.emitted)).getD []).foldl (fun a e =>
    if e.1 = ctx ∧ e.2.1 = seqid then
      match findSink s e.2.2.1 ctx e.2.2.2 with
      | some (_, x) => if x.raster && !(a.any fun y => y.1 == e.2.2.2) then a ++ [(e.2.2.2, x.base.toNat)] else a
      | none => a
    else a) []

/-- A closed sequence's watermarks to one sink number: one to every owner die of its frame. -/
def sendMarks (site ctx : Nat) (seqid : Word64) (n uid : Nat) (s : State) (sink : Nat × Nat) : State :=
  match loadFrame s (engineWho site ctx) sink.2 (frameOfSeq seqid) with
  | (s1, none) => s1
  | (s1, some x) => (owners x.2).foldl (fun s d =>
      let m : Watermark := { die := d, ctx := ctx, sink := sink.1, seqid := seqid, group := n, op := uid }
      { s with watermarks := tblSet s.watermarks s.fresh m, fresh := s.fresh + 1 }) s1

/-- The sequence is closed: its watermarks are sent, and where it emitted is forgotten (R402). -/
def closeMarks (s : State) (site ctx : Nat) (seqid : Word64) (n uid : Nat) : State :=
  ((rasterSinks s site ctx seqid).foldl (sendMarks site ctx seqid n uid) s).upDie site fun d =>
    { d with emitted := d.emitted.filter fun e => !(e.1 == ctx && e.2.1 == seqid) }

end Sys2Proof.Machine
end

