-- ==== Sys2Proof/Machine/Graphics.lean ====
section
/-!
DEFINITION. The texture and ray instructions (R224, R228 to R238) and the generator of counters held in registers (R239).
-/
namespace Sys2Proof.Machine

abbrev GRes := Host.Outcome State Fault Refusal

/-- The registers that k results per lane write. -/
def gfxDests (d k : Nat) (ls : List Nat) : List Reg := ls.flatMap fun l => (List.range k).map fun j => .v (d + j) l

/-- Registers r to r + n − 1 of a lane as captured bytes. -/
def captured (s : State) (g : Group) (pos r n l : Nat) : List Byte :=
  (List.range n).flatMap fun k => leBytes 4 (readV s.draws pos g (r + k) l).toNat

/-- The operation of a texture or ray instruction: counted on TX, relaxed (R224). Log entry 26 (DEDUCED). -/
def gfxOp (k : MemKind) : Op := { uid := 0, ctr := .tx, len := 2, kind := some k }

/-- A texture instruction of k results: the descriptor lies in the global window. -/
def texture (s : State) (i : Instr) (gd : BitVec 5) (d : BitVec 6) (tex : BitVec 7) (kind : Group → Word64 → MemKind)
    (data : Group → Nat → List Byte) (ctr : Group → Nat → Word64) : GRes :=
  onGroup s fun g =>
    let ls := lanesOf g.width (active g gd)
    let desc := usrc64 s g 1 tex
    let faults := ls.flatMap fun l => checkWindow s g 1 l desc (genericWindow desc) true false
    let lanes := ls.map fun l => { lane := l, addr := desc, data := data g l, addr2 := ctr g l }
    startMem s g i (gfxOp (kind g desc)) (lowestFault faults) lanes (gfxDests d.toNat 4 ls)

/-- A counter source: a vector pair per lane, or a uniform pair plus the lane (R228, R239). -/
def counterSrc (s : State) (g : Group) (pos : Nat) (c : BitVec 7) (l : Nat) : Word64 :=
  if c.toNat < 48 then baseOf s g pos c l else usrc64 s g pos c + BitVec.ofNat 64 l

/-- TEXS (R228, R229). -/
def execTexs (g : BitVec 5) (d : BitVec 6) (coord tex key ctr : BitVec 7) (s : State) : GRes :=
  texture s (.texs g d coord tex key ctr) g d tex (fun gr desc => .texs d.toNat desc (usrc64 s gr 2 key))
    (fun gr l => captured s gr 0 coord.toNat 4 l) (fun gr l => counterSrc s gr 3 ctr l)

/-- TEXF (R228, R230). -/
def execTexf (g : BitVec 5) (d : BitVec 6) (coord tex : BitVec 7) (s : State) : GRes :=
  texture s (.texf g d coord tex) g d tex (fun _ desc => .texf d.toNat desc) (fun gr l => captured s gr 0 coord.toNat 4 l) fun _ _ => 0

/-- TEXQ (R228). -/
def execTexq (g : BitVec 5) (d : BitVec 6) (coord tex : BitVec 7) (s : State) : GRes :=
  texture s (.texq g d coord tex) g d tex (fun gr desc => .texq d.toNat desc (usrc s gr tInt 0 coord)) (fun _ _ => []) fun _ _ => 0

/-- A ray instruction: addresses by lane, in the global window and aligned (R238). -/
def rayTest (s : State) (i : Instr) (gd : BitVec 5) (d : BitVec 6) (addr : BitVec 7) (align k : Nat) (kind : MemKind)
    (data : Group → Nat → List Byte) : GRes :=
  onGroup s fun g =>
    let ls := lanesOf g.width (active g gd)
    let faults := ls.flatMap fun l =>
      let a := baseOf s g 1 addr l
      checkWindow s g align l a (genericWindow a) true false
    let lanes := ls.map fun l => { lane := l, addr := baseOf s g 1 addr l, data := data g l }
    startMem s g i (gfxOp kind) (lowestFault faults) lanes (gfxDests d.toNat k ls)

/-- RTBOX (R233 to R235). -/
def execRtbox (g : BitVec 5) (d : BitVec 6) (ray addr : BitVec 7) (s : State) : GRes :=
  rayTest s (.rtbox g d ray addr) g d addr 128 5 (.rtbox d.toNat) fun gr l => captured s gr 0 ray.toNat 8 l

/-- RTTRI (R233, R234, R236, R237): the ray, and with .min the best so far, are read at issue. -/
def execRttri (g : BitVec 5) (d : BitVec 6) (ray addr : BitVec 7) (minf : Bool) (cull : BitVec 2) (s : State) : GRes :=
  rayTest s (.rttri g d ray addr minf cull) g d addr 16 4 (.rttri d.toNat minf cull.toNat) fun gr l =>
    captured s gr 0 ray.toNat 8 l ++ (if minf then captured s gr 2 d.toNat 4 l else [])

/-- A generator's results in some lanes: written at issue, with no push (R224, R239). -/
def writeNoPush (g : Group) (d : BitVec 6) (m : Word64) (f : Nat → Word) : Group := if d.toNat < 48 then writeV g d.toNat m f else g

/-- RNG (R239). -/
def execRng (g : BitVec 5) (d : BitVec 6) (k c : BitVec 7) (s : State) : GRes :=
  onGroup s fun gr =>
    let key := usrc64 s gr 0 k
    s.putGroup s.cur (advance 1 (writeNoPush gr d (active gr g) fun l => Fp.rng32 key (counterSrc s gr 1 c l)))

end Sys2Proof.Machine
end

