-- ==== Sys2Proof/Machine/Sequence.lean ====
section
/-!
DEFINITION. Sequences (R239 to R246, R442): slots, the records that Fixer is given, and emissions.
-/
namespace Sys2Proof.Machine

/-! ### Records (R241) -/

def digestFrom : Word → List Word → Word
  | h, [] => h
  | h, w :: ws =>
    let h1 := Fp.rotl32 (h ^^^ w) 11 + 0x9E3779B9
    digestFrom (h1 ^^^ (h1 >>> 15)) ws

/-- digest32 of a payload. -/
def digest32 (ws : List Word) : Word := digestFrom (0x5A17C3E1 ^^^ BitVec.ofNat 32 ws.length) ws

/-- A record's 32 bytes. -/
def recordWords (r : Record) : List Byte :=
  leBytes 8 r.seqid.toNat ++ leBytes 8 (r.kind * 2 ^ 60 + r.token) ++ leBytes 8 r.gen.toNat ++ leBytes 4 r.route.toNat ++
    leBytes 4 r.digest.toNat

/-- Fixer of a die takes a record into its shadow, to go to the partner's contact log: the operation that waits for its acknowledgement,
or 0 (R434). -/
def journal (s : State) (site n op : Nat) (r : Record) : State :=
  { s.upDie site fun d =>
      { d with fixer := { d.fixer with shadow := tblSet d.fixer.shadow s.fresh { record := r, group := n, op := op, arrived := false, acked := false } } } with
    fresh := s.fresh + 1 }

/-! ### Slots (R240) -/

/-- Slot k of the group's team. -/
def seqSlot (s : State) (g : Group) (k : Nat) : Option SeqSlot := (teamOf s g).bind fun t => tblGet t.seqs k

/-- Slot k is open and the group's own. -/
def ownSlot (s : State) (g : Group) (k : Nat) : Option SeqSlot :=
  match seqSlot s g k with
  | some x => if x.isOpen && x.owner == s.cur then some x else none
  | none => none

/-- The slot of a team changes. -/
def State.upSlot (s : State) (team k : Nat) (f : SeqSlot → SeqSlot) : State := s.upTeam team fun t => { t with seqs := tblUp t.seqs k f }

/-- A lane of a slot changes. -/
def upLane (l : Nat) (f : SeqLane → SeqLane) (x : SeqSlot) : SeqSlot := { x with lanes := tblUp x.lanes l f }

/-- The sequence-state trap (R246). -/
def seqTrap (s : State) (k : Nat) : State := trapAt s s.cur 0x29 (small k)

/-- Every lane of a list is a member of the slot. -/
def allMembers (x : SeqSlot) (ls : List Nat) : Bool := ls.all fun l => (tblGet x.lanes l).isSome

/-- A lane's forced record has not arrived. -/
def recordPending (x : SeqSlot) (ls : List Nat) : Bool := ls.any fun l => ((tblGet x.lanes l).map (·.pending)).getD false

/-- An SQ operation of the selected group: what is still to come before it is complete, and the sequence slot of an SOPEN.replay plus 1. -/
def seqOp (s : State) (g : Group) (i : Instr) (len need slot : Nat) : State :=
  s.bump.putGroup s.cur (advance len (issueOp g
    { uid := s.fresh, ctr := .sq, words := wordsOf i, len := len, stage := if need = 0 then .complete else .performed, need := need, slot := slot }))

/-- The SQ operation uid of group n has one thing less to wait for. -/
def lowerSeq (s : State) (n uid : Nat) : State :=
  s.upOperation n uid fun o => { o with need := o.need - 1, stage := if o.need ≤ 1 then .complete else o.stage }

/-! ### SOPEN (R243, R245) -/

/-- A SEQID is open in a slot of some team of a site. -/
def seqidOpen (s : State) (site : Nat) (x : Word64) : Bool :=
  s.teams.any fun t => t.2.site == site && t.2.seqs.any fun e => e.2.isOpen && e.2.lanes.any fun l => l.2.seqid == x

/-- The slot that SOPEN opens, with its member lanes. A TOK of 2^60 or more stands in NEXT whole: a SEMIT then finds NEXT beyond its range.
Log entry 49 (DEDUCED). -/
def opened (s : State) (g : Group) (v : Nat) (ls : List Nat) (replay : Bool) : SeqSlot :=
  let rd (k l : Nat) : Word64 := pair (readV s.draws 0 g (v + k) l) (readV s.draws 0 g (v + k + 1) l)
  { isOpen := true, owner := s.cur,
    lanes := ls.map fun l =>
      (l, { member := true, seqid := rd 0 l, next := rd 2 l, gen := rd 4 l, gen0 := rd 4 l, replay := false, pending := replay,
            opener := if replay then s.fresh else 0,
            forcedRoute := 0, forcedDigest := 0, keep := false }) }

/-- SOPEN in its live and its replay form. Log entry 49 (DEDUCED). -/
def openSlot (s : State) (g : Group) (i : Instr) (gd : BitVec 5) (k v : Nat) (replay : Bool) : State :=
  let ls := lanesOf g.width (active g gd)
  let x := opened s g v ls replay
  let ids := x.lanes.map (·.2.seqid)
  let site := siteOf s g
  if counterFull g .sq then stall s
  else if ls = [] && (((seqSlot s g k).map (·.isOpen)).getD false) then seqOp s g i 2 0 0
  else if ls != [] && ((((seqSlot s g k).map (·.isOpen)).getD false) || ids.dedup.length != ids.length || ids.any (seqidOpen s site)) then
    seqTrap s k
  else
    let uid := s.fresh
    let s1 := (seqOp s g i 2 ls.length (if replay then k + 1 else 0)).upTeam g.team fun t => { t with seqs := tblSet t.seqs k x }
    if replay then s1
    else
      x.lanes.foldl (fun s e =>
        journal s site s.cur uid
          { seqid := e.2.seqid, kind := 0, token := e.2.next.toNat % 2 ^ 60, gen := e.2.gen, route := 0, digest := 0, site := site,
            asid := asidOf s site (ctxOf s g) }) s1

/-- SOPEN (R243). -/
def execSopen (g : BitVec 5) (slot : BitVec 2) (v : BitVec 7) (s : State) : GRes :=
  onGroup s fun gr => openSlot s gr (.sopen g slot v) g slot.toNat v.toNat false

/-- SOPEN.replay (R243, R245). -/
def execSopenReplay (g : BitVec 5) (slot : BitVec 2) (v : BitVec 7) (s : State) : GRes :=
  onGroup s fun gr => openSlot s gr (.sopenReplay g slot v) g slot.toNat v.toNat true

/-- What an instruction on an open slot needs: with ACTIVE empty no fault is raised (R224, R246). -/
inductive SlotUse where
  | empty
  | bad
  | ok (x : SeqSlot)
deriving DecidableEq, Repr

def slotUse (s : State) (g : Group) (k : Nat) (ls : List Nat) : SlotUse :=
  if ls = [] then .empty
  else
    match ownSlot s g k with
    | some x => if allMembers x ls then .ok x else .bad
    | none => .bad

/-- SOPEN.fetch: the forced route of each member lane's next token, or all ones (R243). -/
def execSopenFetch (g : BitVec 5) (slot : BitVec 2) (d : BitVec 7) (s : State) : GRes :=
  onGroup s fun gr =>
    let ls := lanesOf gr.width (active gr g)
    let i : Instr := .sopenFetch g slot d
    if counterFull gr .sq then stall s
    else
      match slotUse s gr slot.toNat ls with
      | .empty => seqOp s gr i 2 0 0
      | .bad => seqTrap s slot.toNat
      | .ok x =>
        if recordPending x ls then stall s
        else
          let val (l : Nat) : Word := match tblGet x.lanes l with
            | some e => if e.replay then e.forcedRoute else 0xFFFFFFFF
            | none => 0xFFFFFFFF
          let regs := ls.map fun l => Reg.v d.toNat l
          let g1 := { gr with contested := gr.contested ++ contestedDests gr .sq s.fresh regs }
          (seqOp s g1 i 2 0 0).upOperation s.cur s.fresh fun o => { o with dests := regs, writes := ls.map fun l => (Reg.v d.toNat l, val l) }

/-- RNG.seq: each lane's GEN in the slot is its counter, and goes up by one (R239). -/
def execRngSeq (g : BitVec 5) (d : BitVec 6) (k : BitVec 7) (n : BitVec 2) (s : State) : GRes :=
  onGroup s fun gr =>
    let ls := lanesOf gr.width (active gr g)
    match slotUse s gr n.toNat ls with
    | .empty => s.putGroup s.cur (advance 1 gr)
    | .bad => seqTrap s n.toNat
    | .ok x =>
      if recordPending x ls then stall s
      else
        let key := usrc64 s gr 0 k
        let gen (l : Nat) : Word64 := ((tblGet x.lanes l).map (·.gen)).getD 0
        let s1 := s.putGroup s.cur (advance 1 (writeNoPush gr d (active gr g) fun l => Fp.rng32 key (gen l)))
        s1.upSlot gr.team n.toNat fun x => ls.foldl (fun x l => upLane l (fun e => { e with gen := e.gen + 1 }) x) x

/-! ### SEMIT (R243 to R246, R442) -/

/-- The route of a lane: forced, or the operand. Log entry 9 (DEDUCED). -/
def laneRoute (s : State) (g : Group) (x : SeqSlot) (route : BitVec 7) (l : Nat) : Word :=
  match tblGet x.lanes l with
  | some e =>
    if e.replay then e.forcedRoute
    else if route.toNat < 48 then readV s.draws 1 g route.toNat l else usrc s g tInt 1 route
  | none => 0

/-- The payload of a lane. -/
def lanePayload (s : State) (g : Group) (p n l : Nat) : List Word := (List.range n).map fun k => readV s.draws 0 g (p + k) l

/-- The first lane that diverges from its forced record (R442). -/
def diverging (s : State) (g : Group) (x : SeqSlot) (p n : Nat) (ls : List Nat) : Option Nat :=
  ls.find? fun l => match tblGet x.lanes l with
    | some e => e.replay && digest32 (lanePayload s g p n l) != e.forcedDigest
    | none => false

/-- The routes are translated: the fault of the lowest lane whose die name fails (R246). -/
def routeFault (s : State) (w : Who) : List Word → State × Option Cause
  | [] => (s, none)
  | r :: rest =>
    let nm := r.toNat % 64
    if 48 ≤ nm then (s, some { code := 0x18, info := small nm })
    else
      match resolveName s w nm with
      | (s1, .error c) => (s1, some c)
      | (s1, .ok _) => routeFault s1 w rest

/-- The operation writes memory, and its writes are acknowledged (R32, R36). -/
def writesMemory : MemKind → Bool
  | .store _ | .atomic .. | .dcas .. | .amov .. | .flagged .. | .multicast .. => true
  | _ => false

/-- The stores of a group that are not acknowledged. -/
def unacked (g : Group) : List Nat := (g.ops.filter fun o => (o.kind.map writesMemory).getD false && o.stage != .complete).map (·.uid)

/-- One lane emits: its record is journalled and its emission handed to Fixer; NEXT and GEN0 move on, and in replay the next forced record
is looked up. -/
def emitLane (n uid k : Nat) (rel : Bool) (g : Group) (route : Word) (payload : List Word) (l : Nat) (s : State) : State :=
  match (tblGet s.groups n).bind fun g => seqSlot s g k with
  | none => s
  | some x =>
    match tblGet x.lanes l with
    | none => s
    | some e =>
      let site := siteOf s g
      let ctx := ctxOf s g
      let r : Record := { seqid := e.seqid, kind := 1, token := e.next.toNat, gen := e.gen0, route := route, digest := digest32 payload,
                          site := site, asid := asidOf s site ctx }
      let rnum := s.fresh
      let s1 := noteEmitted (journal s site n 0 r) site ctx e.seqid route
      let em : Emission :=
        { site := site, group := n, op := uid, slot := k, ctx := ctx, rnum := rnum, record := r, payload := payload,
          relOps := if rel then unacked g else [], relChz := if rel then some g.chz else none, recordAcked := false, sent := false,
          written := false, atSink := false }
      let s2 := { s1 with emissions := tblSet s1.emissions s1.fresh em, fresh := s1.fresh + 1 }
      s2.upSlot g.team k (upLane l fun e => { e with next := e.next + 1, gen0 := e.gen, pending := e.replay, opener := 0 })

/-- SEMIT. -/
def execSemit (g : BitVec 5) (slot : BitVec 2) (cnt : BitVec 3) (p route : BitVec 7) (rel : Bool) (s : State) : GRes :=
  onGroup s fun gr =>
    let ls := lanesOf gr.width (active gr g)
    let n := cnt.toNat + 1
    let i : Instr := .semit g slot cnt p route rel
    if counterFull gr .sq then stall s
    else
      match slotUse s gr slot.toNat ls with
      | .empty => seqOp s gr i 2 0 0
      | .bad => seqTrap s slot.toNat
      | .ok x =>
        if ls.any fun l => ((tblGet x.lanes l).map fun e => decide (2 ^ 60 ≤ e.next.toNat)).getD false then seqTrap s slot.toNat
        else if recordPending x ls then stall s
        else
          match diverging s gr x p.toNat n ls with
          | some l => trapAt s s.cur 0x2B (small (slot.toNat + 256 * l))
          | none =>
            match routeFault s (groupWho s s.cur gr) (ls.map (laneRoute s gr x route)) with
            | (s1, some c) => trapAt s1 s1.cur c.code c.info
            | (s1, none) =>
              ls.foldl (fun s2 l => emitLane s.cur s1.fresh slot.toNat rel gr (laneRoute s gr x route l) (lanePayload s gr p.toNat n l) l s2)
                (seqOp s1 gr i 2 ls.length 0)

/-! ### SMARK and SCLOSE (R243) -/

/-- The mark's bound in a lane. -/
def markBound (s : State) (g : Group) (p : BitVec 7) (l : Nat) : Word64 := baseOf s g 0 p l

/-- SMARK. -/
def execSmark (g : BitVec 5) (slot : BitVec 2) (p : BitVec 7) (s : State) : GRes :=
  onGroup s fun gr =>
    let ls := lanesOf gr.width (active gr g)
    let i : Instr := .smark g slot p
    let site := siteOf s gr
    if counterFull gr .sq then stall s
    else
      match slotUse s gr slot.toNat ls with
      | .empty => seqOp s gr i 1 0 0
      | .bad => seqTrap s slot.toNat
      | .ok x =>
        let next (l : Nat) : Nat := ((tblGet x.lanes l).map (·.next.toNat)).getD 0
        if ls.any fun l => decide (next l ≤ (markBound s gr p l).toNat) then seqTrap s slot.toNat
        else
          ls.foldl (fun s2 l =>
            journal s2 site s.cur s.fresh
              { seqid := ((tblGet x.lanes l).map (·.seqid)).getD 0, kind := 2, token := (markBound s gr p l).toNat, gen := 0, route := 0,
                digest := 0, site := site, asid := asidOf s site (ctxOf s gr) }) (seqOp s gr i 1 ls.length 0)

/-- The lookups of the SOPEN.replay of a slot that is closed end with it. Log entry 49 (DEDUCED). -/
def endLookups (n : Nat) (x : SeqSlot) (s : State) : State :=
  x.lanes.foldl (fun s e => if e.2.pending && e.2.opener != 0 then lowerSeq s n e.2.opener else s) s

/-- SCLOSE: a close record for every member, and the slot is closed; the raster sinks that a sequence emitted to get its watermarks
(R402). A lane of EXEC that is no member traps (R246). -/
def execSclose (slot : BitVec 2) (s : State) : GRes :=
  onGroup s fun gr =>
    let site := siteOf s gr
    if counterFull gr .sq then stall s
    else
      match ownSlot s gr slot.toNat with
      | none => seqTrap s slot.toNat
      | some x =>
        if !allMembers x (lanesOf gr.width gr.exec) then seqTrap s slot.toNat
        else
          let s1 := (endLookups s.cur x (seqOp s gr (.sclose slot) 1 x.lanes.length 0)).upTeam gr.team fun t => { t with seqs := tblErase t.seqs slot.toNat }
          x.lanes.foldl (fun s2 e =>
            journal (closeMarks s2 site (ctxOf s gr) e.2.seqid s.cur s.fresh) site s.cur s.fresh
              { seqid := e.2.seqid, kind := 3, token := e.2.next.toNat % 2 ^ 60, gen := 0, route := 0, digest := 0, site := site,
                asid := asidOf s site (ctxOf s gr) }) s1

end Sys2Proof.Machine
end

