-- ==== Sys2Proof/Machine/Journal.lean ====
section
/-!
DEFINITION. The emission journal (R432 to R439, R441, R442): partners, contact logs, shadows, the sinks' dedup entries, ring sinks, and the
lookups of replay.
-/
namespace Sys2Proof.Machine

/-! ### Partners (R432, R436) -/

/-- The partner that a site takes: the first other live site above it, wrapping round. Log entry 50 (DEDUCED). -/
def partnerFor (s : State) (site : Nat) : Option Nat :=
  let others := (liveSites s).filter fun k => k != site
  (others.find? fun k => decide (site < k)).or others.head?

/-- A Fixer takes a partner and sends it every record of its shadow; emissions not yet sent wait again for their records. -/
def takePartner (s : State) (site : Nat) : State :=
  let hold (e : Nat × Emission) : Nat × Emission := if e.2.site = site ∧ e.2.sent = false then (e.1, { e.2 with recordAcked := false }) else e
  { s.upDie site fun d =>
      { d with fixer :=
        { d.fixer with
          partner := partnerFor s site
          resending := d.fixer.shadow != []
          shadow := d.fixer.shadow.map fun e => (e.1, { e.2 with arrived := false, acked := false }) } } with
    emissions := s.emissions.map hold }

/-- PARTNER_LOST: the partner of a live site's Fixer is lost, and the Fixer takes the next. -/
def execPartnerLost (site : Nat) (s : State) : GRes :=
  .next (match tblGet s.dies site with
    | some d =>
      match d.fixer.partner with
      | some p => if d.lost.getLsbD p && (liveSites s).contains site then takePartner s site else s
      | none => s
    | none => s)

/-- PARTNER_RESEND_DONE: the new partner has acknowledged every record that was resent. -/
def execPartnerResendDone (site : Nat) (s : State) : GRes :=
  .next (match tblGet s.dies site with
    | some d =>
      if d.fixer.resending && d.fixer.shadow.all fun e => e.2.acked then s.upDie site fun d => { d with fixer := { d.fixer with resending := false } }
      else s
    | none => s)

/-! ### Contact logs (R433 to R435) -/

/-- The records that a shadow holds, and those that a contact log holds. -/
def shadowSize : Nat := 65536
def contactLogSize : Nat := 2097152

/-- A record that opens or emits waits for a free shadow entry (R434). -/
def inShadow (shadow : Table ShadowRec) (k : Nat) (r : ShadowRec) : Bool :=
  decide (2 ≤ r.record.kind) || decide ((shadow.filter fun e => decide (e.1 < k)).length < shadowSize)

/-- Every record older than k satisfies f. -/
def olderAll (shadow : Table ShadowRec) (k : Nat) (f : ShadowRec → Bool) : Bool := shadow.all fun e => decide (k ≤ e.1) || f e.2

/-- CONTACT_LOG_RECORD_ARRIVE: a record of a site's Fixer is performed in its partner's contact log, where that has room. -/
def execContactLogRecordArrive (site rec : Nat) (s : State) : GRes :=
  .next (match tblGet s.dies site with
    | none => s
    | some d =>
      match d.fixer.partner, tblGet d.fixer.shadow rec with
      | some p, some r =>
        let room := match tblGet s.dies p with
          | some q => decide (q.log.length < contactLogSize) && (liveSites s).contains p
          | none => false
        if r.arrived || !room || !inShadow d.fixer.shadow rec r || (d.fixer.resending && !olderAll d.fixer.shadow rec (·.arrived)) then s
        else
          let s1 := s.upDie p fun q => { q with log := q.log ++ [r.record] }
          s1.upDie site fun d => { d with fixer := { d.fixer with shadow := tblUp d.fixer.shadow rec fun r => { r with arrived := true } } }
      | _, _ => s)

/-- The record frees another of the same ASID, source site and SEQID (R435). -/
def frees (r x : Record) : Bool :=
  r.asid == x.asid && r.site == x.site && r.seqid == x.seqid &&
    match r.kind with
    | 2 => (x.kind == 1 && decide (x.token ≤ r.token)) || (x.kind == 2 && x != r)
    | 3 => true
    | _ => false

/-- A mark whose bound lies below an earlier mark's frees nothing (R243). -/
def lateMark (shadow : Table ShadowRec) (k : Nat) (r : Record) : Bool :=
  r.kind == 2 && shadow.any fun e =>
    decide (e.1 < k) && e.2.record.kind == 2 && e.2.record.seqid == r.seqid && e.2.record.asid == r.asid && decide (r.token < e.2.record.token)

/-- The acknowledged record's freeing, at the partner and in the shadow. A record newer than it stays. -/
def freeRecords (s : State) (site p k : Nat) (r : Record) : State :=
  let s1 := s.upDie p fun q => { q with log := q.log.filter fun x => !frees r x }
  s1.upDie site fun d => { d with fixer := { d.fixer with shadow := d.fixer.shadow.filter fun e => decide (k < e.1) || !frees r e.2.record } }

/-- JOURNAL_RECORD_ACK: the partner's acknowledgement of a record returns. -/
def execJournalRecordAck (site rec : Nat) (s : State) : GRes :=
  .next (match tblGet s.dies site with
    | none => s
    | some d =>
      match d.fixer.partner, tblGet d.fixer.shadow rec with
      | some p, some r =>
        if !r.arrived || r.acked || (decide (2 ≤ r.record.kind) && !olderAll d.fixer.shadow rec (·.acked)) then s
        else
          let s1 := if r.op = 0 then s else lowerSeq s r.group r.op
          let s2 := s1.upDie site fun d =>
            { d with fixer := { d.fixer with shadow := tblUp d.fixer.shadow rec fun r => { r with acked := true, op := 0 } } }
          let ack (e : Nat × Emission) : Nat × Emission := if e.2.rnum = rec ∧ e.2.site = site then (e.1, { e.2 with recordAcked := true }) else e
          let s3 := { s2 with emissions := s2.emissions.map ack }
          if decide (r.record.kind < 2) || lateMark d.fixer.shadow rec r.record then s3 else freeRecords s3 site p rec r.record
      | _, _ => s)

/-! ### Sinks (R437 to R439) -/

/-- The cases of an arriving token (R439). -/
inductive Arrival where
  | accept
  | drop
  | diverge
  | refuse
deriving DecidableEq, Repr

/-- The dedup entries after a token arrives, and its case. -/
def dedupToken (x : Sink) (r : Record) : List Dedup × Arrival :=
  match x.dedup.find? fun d => d.seqid == r.seqid with
  | none => if x.dedup.length < x.dcap then ({ seqid := r.seqid, last := r.token, digests := [(r.token, r.digest)] } :: x.dedup, .accept) else (x.dedup, .refuse)
  | some d =>
    if d.last < r.token then
      (x.dedup.map fun e => if e.seqid = r.seqid then { e with last := r.token, digests := ((r.token, r.digest) :: e.digests).take 16 } else e, .accept)
    else
      match d.digests.find? fun y => y.1 == r.token with
      | some y => (x.dedup, if y.2 = r.digest then .drop else .diverge)
      | none => (x.dedup, .drop)

/-- An emission has ended for its operation: accepted, dropped, or with an error (R244, R246). -/
def endEmission (s : State) (em : Nat) (e : Emission) (err : Option Cause) : State :=
  let s1 := { s with emissions := tblErase s.emissions em }
  lowerSeq (s1.upOperation e.group e.op fun o => { o with err := o.err.or err }) e.group e.op

/-- The destination die name and the sink number of an emission. -/
def emName (e : Emission) : Nat := e.record.route.toNat % 64
def emSink (e : Emission) : Nat := e.record.route.toNat / 64 % 1024

/-- Fixer may send the emission (R244, R436): its record is acknowledged, what it is held for is done, and earlier emissions of the group to
the sink are sent. -/
def maySend (s : State) (em : Nat) (e : Emission) : Bool :=
  let resending := ((tblGet s.dies e.site).map fun d => d.fixer.resending).getD false
  let open_ := ((tblGet s.groups e.group).map unacked).getD []
  !e.sent && e.recordAcked && !resending && (e.relOps.all fun u => !open_.contains u) &&
    (match e.relChz with
      | some c => passes s c
      | none => true) &&
    s.emissions.all fun x => decide (em ≤ x.1) || x.2.group != e.group || emName x.2 != emName e || emSink x.2 != emSink e || x.2.sent

/-- An emission that a sink takes goes behind those that came before it. -/
def requeue (s : State) (em : Nat) (e : Emission) : State :=
  { s with emissions := tblSet (tblErase s.emissions em) s.fresh e, fresh := s.fresh + 1 }

/-- The sink's dedup entry for an arriving emission: it is taken, dropped, or refused (R439). -/
def dedupArrive (s : State) (em : Nat) (e : Emission) (k : Nat) (x : Sink) : State :=
  let r := dedupToken x e.record
  let s1 := { s with sinks := tblSet s.sinks k { x with dedup := r.1 } }
  match r.2 with
  | .accept => requeue s1 em { e with sent := true, atSink := true }
  | .drop => endEmission s1 em e none
  | .diverge => endEmission s1 em e (some { code := 0x2B, info := small e.slot })
  | .refuse => endEmission s1 em e (some { code := 0x2A, info := small (emName e) })

/-- SINK_EMISSION_ARRIVE: an emission is sent and arrives at its sink. A raster sink accepts it under R403. -/
def execSinkEmissionArrive (em : Nat) (s : State) : GRes :=
  .next (match tblGet s.emissions em with
    | none => s
    | some e =>
      if !maySend s em e then s
      else
        match resolveName s (engineWho e.site e.ctx) (emName e) with
        | (s1, .error c) => endEmission s1 em e (some c)
        | (s1, .ok _) =>
          match findSink s1 (emName e) e.ctx (emSink e) with
          | none => endEmission s1 em e (some { code := 0x2A, info := small (emName e) })
          | some (k, x) => if x.raster then requeue s1 em { e with sent := true } else dedupArrive s1 em e k x)

/-- The bytes of a ring slot. -/
def slotBytes (e : Emission) : List Byte :=
  recordWords e.record ++ ((List.range 8).flatMap fun k => leBytes 4 (e.payload.getD k 0).toNat)

/-- RING_SINK_DELIVER: an emission that its ring sink has accepted is written to its slot when there is room; once the write is visible
the write index follows as a release, and the emission is accepted (R438). Log entry 51 (DEDUCED). -/
def execRingSinkDeliver (em : Nat) (s : State) : GRes :=
  .next (match tblGet s.emissions em with
    | none => s
    | some e =>
      match findSink s (emName e) e.ctx (emSink e) with
      | none => s
      | some (_, x) =>
        let first := s.emissions.all fun y =>
          decide (em ≤ y.1) || !(y.2.atSink && emName y.2 == emName e && emSink y.2 == emSink e && y.2.ctx == e.ctx)
        if x.raster || !e.atSink || !first then s
        else
          match resolveName s (engineWho e.site e.ctx) (emName e) with
          | (s1, .error c) => endEmission s1 em e (some c)
          | (s1, .ok b) =>
            let w := engineWho b.site e.ctx
            let ring := x.base.toNat + emName e * (128 + 64 * x.slots)
            match engReadNum s1 w ring 8 with
            | (s2, .error _) => s2
            | (s2, .ok wi) =>
              if e.written then
                (if passes s2 ((e.relChz).getD 0) then endEmission (engWriteNum s2 w ring 8 (wi + 1)).1 em e none else s2)
              else
                match engReadNum s2 w (ring + 64) 8 with
                | (s3, .error _) => s3
                | (s3, .ok ri) =>
                  if x.slots ≤ wi - ri then s3
                  else
                    match engWrite s3 w (ring + 128 + 64 * (wi % x.slots)) (slotBytes e) with
                    | (s4, .error _) => s4
                    | (s4, .ok c) => { s4 with emissions := tblSet s4.emissions em { e with written := true, relChz := some c } })

/-! ### Replay lookups (R245, R441) -/

/-- The emit record of (SEQID, NEXT) among the n records of an image from record i on. -/
def lookupFrom (w : Who) (image : Nat) (seqid : Word64) (token : Nat) : Nat → Nat → State → State × Option (List Byte)
  | 0, _, s => (s, none)
  | n + 1, i, s =>
    match engRead s w (image + 64 + 32 * i) 32 with
    | (s1, .error _) => (s1, none)
    | (s1, .ok bs) =>
      if bytesNum bs 0 8 = seqid.toNat ∧ bytesNum bs 8 8 = 2 ^ 60 + token then (s1, some bs) else lookupFrom w image seqid token n (i + 1) s1

/-- The lookup in the image that SEQLOG names; with SEQLOG 0 nothing is found. Log entry 48 (DEDUCED). -/
def lookupRecord (s : State) (w : Who) (image : Nat) (seqid : Word64) (token : Nat) : State × Option (List Byte) :=
  if image = 0 then (s, none)
  else
    match engRead s w image 16 with
    | (s1, .error _) => (s1, none)
    | (s1, .ok h) => lookupFrom w image seqid token (min (bytesNum h 0 8) (bytesNum h 8 8)) 0 s1

/-- A lane with the record that was found, or live from now on. -/
def forceLane (r : Option (List Byte)) (e : SeqLane) : SeqLane :=
  match r with
  | some bs =>
    { e with
      pending := false
      opener := 0
      replay := true
      keep := false
      gen := if e.keep then e.gen else BitVec.ofNat 64 (bytesNum bs 16 8)
      gen0 := if e.keep then e.gen0 else BitVec.ofNat 64 (bytesNum bs 16 8)
      forcedRoute := BitVec.ofNat 32 (bytesNum bs 24 4)
      forcedDigest := BitVec.ofNat 32 (bytesNum bs 28 4) }
  | none => { e with pending := false, opener := 0, replay := false, keep := false }

/-- FORCED_RECORD_FETCH: the lookup of a lane's next forced record ends. -/
def execForcedRecordFetch (g : Nat) (slot : Nat) (lane : Nat) (s : State) : GRes :=
  .next (match tblGet s.groups g with
    | none => s
    | some gr =>
      match (seqSlot s gr slot).bind fun x => tblGet x.lanes lane with
      | none => s
      | some e =>
        if !e.pending then s
        else
          let image := ((gridOf s gr).map (·.launch.seqlog.toNat)).getD 0
          let r := lookupRecord s (engineWho (siteOf s gr) (ctxOf s gr)) image e.seqid e.next.toNat
          let s1 := r.1.upSlot gr.team slot (upLane lane (forceLane r.2))
          if e.opener = 0 then s1 else lowerSeq s1 g e.opener)

end Sys2Proof.Machine
end

