-- ==== Sys2Proof/Machine/Issue.lean ====
section
/-!
DEFINITION. The steps between instructions (R41 to R47, R71, R72, R290 to R294, R476): the dispatch of a clause, and the fetch and the
checks of the word that a group would issue.
-/
namespace Sys2Proof.Machine

/-- Every wait condition of a header is met (R43). -/
def waitsMet (g : Group) (h : Header) : Bool := h.waits.all fun w => decide (counter g w.1 ≤ w.2)

/-- A reported error pends on a counter that the header names, and its conditions hold: it is raised (R164, R277, R302). -/
def raiseAtHeader (s : State) (n : Nat) (g : Group) (h : Header) : Option State :=
  if waitsMet g h then (pendingErr g (h.waits.map (·.1))).map fun c => raiseReported s n c else none

/-- The header that TRAPVEC names cannot be fetched or is illegal as the handler begins: a double fault with the cause of the trap
itself, no handler running (R276, R345). -/
def handlerUnusable (s : State) (n : Nat) (g : Group) : State :=
  endGroup (contextError s (siteOf s g) (ctxOf s g) 1 ((cellGet g.k 3).toNat % 256) 0) n

/-- The group stands at the header of its handler. -/
def atHandler (s : State) (g : Group) : Bool := g.handler && g.pc == trapVec s (siteOf s g) (ctxOf s g)

/-- The fetch of the header at the group's place: a failure there is a trap, or at TRAPVEC the end of the group (R44, R276, R476). -/
def fetchHeader (s : State) (n : Nat) (g : Group) : State × Option Header :=
  if atHandler s g then
    match (if inGlobal g.pc.toNat then engReadNum s (groupWho s n g) g.pc.toNat 4 else (s, .error .err)) with
    | (s1, .ok w) => match decodeHeader w with
      | some h => (s1, some h)
      | none => (handlerUnusable s1 n g, none)
    | (s1, .error (.page va c l p)) => (parkWhole s1 n va false c l p (onesBelow g.width), none)
    | (s1, .error _) => (handlerUnusable s1 n g, none)
  else
    match fetchWord s n g g.pc.toNat with
    | (s1, none) => (s1, none)
    | (s1, some w) => match decodeHeader w with
      | some h => (s1, some h)
      | none => (trapAt s1 n 0x01 0, none)

/-- The clause with header h is dispatched at the group's place: at its first word, or after a restore at the word at which it resumes,
which may be the next header (R370). -/
def beginClause (h : Header) (g : Group) : Group :=
  let g1 := { g with hdr := some h, entered := false }
  if g.idx ≠ 0 ∧ h.count ≤ g.idx then transfer (nextHeader g1) g1 else g1

/-- CLAUSE_DISPATCH: the selected group fetches the header at its program counter and dispatches the clause. An illegal header raises the
illegal-clause trap before any word issues (R44); in ordered mode a quantum of Q clauses is over (R328), but not within a transaction
(R330). Log entry 57 (DEDUCED). -/
def execClauseDispatch (s : State) : Host.Outcome State Fault Refusal :=
  onGroup s fun g =>
    if g.ended || g.stopped || g.hdr.isSome || g.wait != .none then s
    else if orderedMode s g && g.tx.isNone && g.idx == 0 && decide ((((gridOf s g).map (·.launch.quant)).getD 0) ≤ g.clauses) then
      s.putGroup s.cur { g with wait := .quantum false }
    else
      match fetchHeader s s.cur g with
      | (s1, none) => s1
      | (s1, some h) => s1.upGroup s1.cur (beginClause h)

/-- The instructions that must be the last word of their clause: the control transfers (R47), TXBEGIN (R188) and TRET (R274). -/
def mustBeLast : Instr → Bool
  | .br _ _ _ _ | .call _ _ | .loop _ _ | .ret _ | .exit | .jmpx _ | .txbegin _ | .tret => true
  | _ => false

/-- The instructions that a transaction allows (R190). -/
def txAllows (i : Instr) (cls : Class) : Bool :=
  match i with
  | .ld .. | .ldLong .. | .st .. | .stLong .. | .ldt .. | .stt .. | .lds .. | .ldsLong .. | .sts .. | .stsLong .. | .txend | .txabort _ => true
  | _ => cls == .alu

/-- The instructions before which a quantum of an ordered launch ends (R193, R328). -/
def endsQuantum : Instr → Bool
  | .fence .. | .atom .. | .red .. | .atoms .. | .atom2Dcas .. | .atom2Amov .. | .stm .. | .stf .. | .sbind .. | .sunbind _ | .sflush _ => true
  | .txbegin _ => true
  | .barv .. | .bart _ | .barc _ | .bwait .. | .waita .. | .waitc .. | .schnext _ | .qput .. | .cpy .. | .cpytLoad .. | .cpytStore .. => true
  | .cmit | .feed .. | .sopen .. | .sopenReplay .. | .sopenFetch .. | .semit .. | .smark .. | .sclose _ | .exit => true
  | .ldLong _ _ m | .stLong _ _ m | .ldsLong _ _ m | .stsLong _ _ m => m.order != 0
  | .ldt _ _ _ _ _ o _ _ _ _ | .stt _ _ _ _ _ o _ _ _ _ => o != 0
  | _ => false

/-- The words of an instruction whose first word is w0, as the group finds them at its place: the length of R48, and none where a long
instruction begins at the clause's last word (R46). -/
def wordsHere (g : Group) (w0 : Nat) : Option Nat :=
  if isLong w0 then (if g.idx + 2 ≤ clauseCount g then some 2 else none) else some 1

/-- The checks of a decoded instruction at its place: its class (R45), and that a control transfer stands last (R47). -/
def placeOk (g : Group) (h : Header) (w0 len : Nat) (i : Instr) : Bool :=
  classOf (num w0 25 7) == h.cls && (!mustBeLast i || g.idx + len == h.count)

/-- The global group index (R328). -/
def globalIndex (s : State) (g : Group) : Nat := ((teamOf s g).map (·.teamid)).getD 0 * 32 + g.grpid

/-- The turn of group n is over: it holds until the next round (R328). -/
def endTurn (s : State) (n : Nat) : State :=
  match tblGet s.groups n with
  | none => s
  | some g =>
    let i := globalIndex s g
    let grid := ((teamOf s g).map (·.grid)).getD 0
    { s with grids := tblUp s.grids grid fun r => { r with turns := if r.turns.contains i then r.turns else i :: r.turns } }.upGroup n
      fun g => { g with turn := .idle, clauses := 0 }

/-- The waits in which a group ends its quantum: they end only by what others do (R329). -/
def longWait : Wait → Bool
  | .bart _ | .barc _ | .bwait .. | .waita .. | .qputFull .. | .rendezvous => true
  | _ => false

/-- The commit phase of its grid holds the group: it has not the turn (R328). -/
def heldByPhase (s : State) (g : Group) : Bool :=
  orderedMode s g && g.turn == .idle && ((gridOf s g).map (·.committing)).getD false

/-- The group waits for what others do, and looks at its wait only at its turn (R329). -/
def looksAtTurn (s : State) (g : Group) : Bool := orderedMode s g && g.turn == .idle && longWait g.wait

/-! ### Stop points (R363, R364) -/

/-- The group's wait ends of itself before a stop point: the instruction has issued or is under way. A matrix check and a probe stand still
at a page fault. -/
def goesOn (s : State) (g : Group) : Bool :=
  match g.wait with
  | .translate _ | .release _ | .acquire _ | .leave .. | .qputValid .. => true
  | .matrixCheck => (((teamOf s g).bind fun t => tblGet t.quartets (g.grpid / 4)).bind (·.checkRec)).isNone
  | .probe u => !(g.copies.any fun c => c.uid == u && c.parked.isSome)
  | _ => false

/-- The group is parked at a page fault. -/
def parks : Wait → Bool
  | .parked .. | .parkedWhole _ => true
  | _ => false

/-- The group stands at a stop point: between clauses, or at a word that cannot issue. In a commit phase it does not stop within its turn,
unless it is parked. -/
def stopsAt (s : State) (g : Group) : Bool :=
  !goesOn s g && (g.turn == .idle || parks g.wait) && (g.wait != .none || g.hdr.isNone || !g.entered)

/-- The group is stopped, and what it waited for when it stopped is not under way. -/
def halted (s : State) (g : Group) : Bool := g.stopped && !goesOn s g

/-- The group's context is being pre-empted or is in error. -/
def stopping (s : State) (g : Group) : Bool := s.stopping.contains (ctxOf s g) || s.discarding.contains (ctxOf s g)

/-- A quantum ends before the instruction: it is one that R193 lists, a barrier or an engine instruction (R328, R330).
Log entry 57 (DEDUCED). -/
def quantumEnds (i : Instr) (cls : Class) : Bool := endsQuantum i || cls == .mtx

/-- The group's first instruction of its clause issues: the values that h registers held before are past (R28). -/
def enter (i : Instr) (g : Group) : Group :=
  { g with
    entered := true
    words := wordsOf i
    hSeen := if !g.entered && g.idx == 0 then [] else g.hSeen
    turn := if g.turn = .granted then .used else g.turn }

/-- What a group does with a legal instruction that stands at its place: it issues it, or a transaction or an ordered quantum stops it
(R190, R328). Log entry 57 (DEDUCED). -/
def letIssue (s : State) (n : Nat) (g : Group) (i : Instr) (cls : Class) : State × Option Instr :=
  if g.tx.isSome && !txAllows i cls then
    (s.putGroup n (abortTx 3 (match i with | .txbegin _ => 2 | _ => 1) g), none)
  else if orderedMode s g && g.tx.isNone && quantumEnds i cls && g.turn == .idle then
    (s.putGroup n { g with wait := .quantum true }, none)
  else if g.turn == .granted && g.tx.isNone && !quantumEnds i cls then (endTurn s n, none)
  else (s.putGroup n (enter i g), some i)

/-- The second word of the instruction at the group's place. -/
def fetchSecond (s : State) (n : Nat) (g : Group) (len : Nat) : State × Option Nat :=
  if len = 2 then fetchWord s n g (wordAddr g (g.idx + 1)).toNat else (s, some 0)

/-- The group issues the word at its place: the fetch, the decoding, the illegal-instruction trap (R71, R72), and the instruction. -/
def issueWord (s : State) (n : Nat) (g : Group) (h : Header) : State × Option Instr :=
  match fetchWord s n g (wordAddr g g.idx).toNat with
  | (s1, none) => (s1, none)
  | (s1, some w0) =>
    match wordsHere g w0 with
    | none => (trapAt s1 n 0x02 (wordInfo w0 0), none)
    | some len =>
      match fetchSecond s1 n g len with
      | (s2, none) => (s2, none)
      | (s2, some w1) =>
        match decodeWords w0 w1 with
        | .error _ => (trapAt s2 n 0x02 (wordInfo w0 w1), none)
        | .ok i =>
          if placeOk g h w0 len i then letIssue s2 n g i h.cls else (trapAt s2 n 0x02 (wordInfo w0 w1), none)

/-! ### A visit (R290 to R295, R302) -/

/-- What a visit makes of the state, the instruction or event that is executed in it, and the stage at which the visit goes on. -/
structure Look where
  state : State
  instr : Option Instr := none
  again : Option Nat := none

/-- The visited group issues its next word, where its clause belongs to the barrel and its header's conditions hold (R43, R45, R290). -/
def visitWord (s : State) (v : Visit) (g : Group) (h : Header) : Look :=
  if onAccess h.cls != v.access || (!g.entered && !waitsMet g h) then { state := s }
  else
    match (if g.entered then none else raiseAtHeader s v.group g h) with
    | some s1 => { state := s1 }
    | none =>
      let r := issueWord s v.group g h
      { state := r.1, instr := r.2 }

/-- The waits whose condition a visit looks at: the others end by events of their own (R292). -/
def visitLooks : Wait → Bool
  | .release _ | .acquire _ | .fence .. | .txend | .bart _ | .barc _ | .barArrive .. | .barv .. | .bwait .. | .leave .. | .waitc _
  | .qputValid .. | .rendezvous => true
  | _ => false

/-- The whole-group instruction that group g performs again after a restore, before its clause is dispatched (R370). -/
def again (g : Group) : Option Instr :=
  if g.hdr.isNone && g.captured.isSome then (decodeWords (g.words.toNat % 2 ^ 32) (g.words.toNat / 2 ^ 32)).toOption else none

/-- A visit to a group: it stops (R364), looks at the wait that held as the clock began (R292), awaits a special-function result (R293),
dispatches its clause, which costs no visit (R291), or issues its next word. -/
def lookAt (s : State) (v : Visit) : Look :=
  match tblGet s.groups v.group with
  | none => { state := s }
  | some g =>
    let s1 := { s with cur := v.group }
    if g.ended || halted s1 g || (v.waits && v.stage == 0 && g.wait == .none) then { state := s }
    else if stopping s1 g && stopsAt s1 g && (again g).isNone then { state := s1.putGroup v.group { g with stopped := true } }
    else if g.turn == .used && g.captured.isNone && (g.wait == .none || longWait g.wait) then { state := endTurn s1 v.group }
    else if g.wait != .none then
      (if v.stage == 0 && visitLooks g.wait && !looksAtTurn s1 g then { state := s1, instr := some (.groupWaitMet v.group), again := some 1 } else { state := s1 })
    else if (again g).isSome then { state := s1, instr := again g }
    else if heldByPhase s1 g || s.clock < g.sfuUntil then { state := s1 }
    else
      match g.hdr with
      | none => if v.stage ≤ 1 then { state := s1, instr := some .clauseDispatch, again := some 2 } else { state := s1 }
      | some h => visitWord s1 v g h

end Sys2Proof.Machine
end

