-- ==== Sys2Proof/Machine/Place.lean ====
section
/-!
DEFINITION. The pieces of the machine as they start: a die and a core after boot (R279, R462), a team and a group at group start (R15,
R31, R360).
-/
namespace Sys2Proof.Machine

/-- A die at reset: its control registers have the values of R279. -/
def freshDie : Die where
  leaselen := 256
  commthr := 192
  agewait := 60000
  qtable := 0
  nametbl := 0
  dirtytbl := 0
  dtlb := []
  descs := []
  shards := []
  hist := []
  lost := 0
  heard := []
  fixer := { partner := none, resending := false, shadow := [] }
  log := []
  emitted := []
  replicas := []
  ileave := []
  lastQueue := []
  lastPlace := []

/-- A core at reset. -/
def freshCore : Core where
  l1 := []
  constLines := []
  spareCol := 0
  test := false
  repair := []
  rf := []
  stashRaw := []
  retired := false
  compute := []
  access := []
  served := []
  fed := []

/-- A tray at reset. -/
def freshTray : Tray := { tlb := [], names := [] }

/-- A quartet at team start. -/
def freshQuartet : Quartet where
  latch := []
  lost := []
  aLatch := none
  rte := []
  checking := none
  checkRec := none
  ops := []
  halted := false
  mxrow := 0
  mxcol := 0
  mxdep := 0

/-- The uniform registers that a launch record's arguments set (R358). -/
def argCells (args : List Word) : Cells 32 :=
  (List.range args.length).foldl (fun c i => cellSet c i (args.getD i 0)) []

/-- A group at group start (R15). Log entry 97 (DESIGN CHOICE). -/
def freshGroup (team grpid width : Nat) (entry : Word64) (args : List Word) : Group where
  team := team
  grpid := grpid
  width := width
  exec := onesBelow width
  p := []
  v := []
  q := []
  hq := []
  s := argCells args
  k := []
  feed := none
  chz := 0
  engChz := 0
  readC := 0
  fpflags := 0
  trapcause := 0
  trapinfo := 0
  cpoff := 0
  cpofUid := 0
  handler := false
  pc := entry
  hdr := none
  idx := 0
  entered := false
  wait := .none
  hSeen := []
  hHeld := []
  ops := []
  contested := []
  ctr := [0, 0, 0, 0, 0, 0, 0]
  repErr := []
  wcb := []
  tx := none
  sbuf := []
  clauses := 0
  turn := .idle
  copies := []
  openCopies := []
  brCount := 0
  brActive := 0
  sfuUntil := 0
  ended := false
  captured := none
  words := 0
  stopped := false
  park := none

/-- A team at team start (R15, R31). -/
def freshTeam (grid ctx teamid site core diename width stash : Nat) (tiles hist : Bool) (groups slots : List Nat) : Team where
  grid := grid
  ctx := ctx
  teamid := teamid
  site := site
  core := core
  diename := diename
  slots := slots
  hist := hist
  width := width
  groups := groups
  h := []
  hNew := []
  tiles := tiles
  acc := []
  accErr := []
  stash := stash
  binds := []
  bart := []
  barc := []
  seqs := []
  quartets := (List.range ((groups.length + 3) / 4)).map fun q => (q, freshQuartet)
  mxLast := 7
  ended := false

end Sys2Proof.Machine
end

