-- ==== Sys2Proof/Machine/Transc.lean ====
section
/-!
DEFINITION. The transcendental functions (R96, R97), by fixed-point series with far more bits than a correct rounding to F32 needs. A
result that is never exact is carried as the middle of the last unit computed, so that one rounding decides it. Log entry 12.
-/
namespace Sys2Proof.Machine.Fp

/-- Fraction bits of the fixed-point numbers here. Log entry 12 (DESIGN CHOICE). -/
def prec : Nat := 300

/-- The fixed-point number 1. -/
def one : Nat := 2 ^ prec

/-- π with 512 fraction bits. -/
def pi512 : Nat := 0x3243f6a8885a308d313198a2e03707344a4093822299f31d0082efa98ec4e6c89452821e638d01377be5466cf34e90c6cc0ac29b7c97c50dd3f84d5b5b5470917

/-- ln 2 with 300 fraction bits. -/
def ln2 : Nat := 0xb17217f7d1cf79abc9e3b39803f2f6af40f343267298b62d8a0d175b8baafa2be7b876206de

/-- v units of 2^-p with something below them: never exact. -/
def sticky (neg : Bool) (v p : Nat) : Val := .fin neg (2 * v + 1) (2 ^ (p + 1))

/-- Σ x^k / k! from term t = x^(k-1) / (k-1)! on, fixed point, x not negative. -/
def expSeries (x : Nat) : Nat → Nat → Nat → Nat
  | 0, _, _ => 0
  | n + 1, k, t => t + expSeries x n (k + 1) (t * x / one / (k + 1))

/-- e^x for x below 1, fixed point. -/
def expFix (x : Nat) : Nat := expSeries x 80 0 one

/-- y + y³/3 + y⁵/5 + …, fixed point. -/
def atanhSeries (y2 : Nat) : Nat → Nat → Nat → Nat
  | 0, _, _ => 0
  | n + 1, k, t => t / k + atanhSeries y2 n (k + 2) (t * y2 / one)

/-- log2 of a fixed-point m from 1 up to 2. -/
def log2Fix (m : Nat) : Nat :=
  let y := (m - one) * one / (m + one)
  2 * atanhSeries (y * y / one) 110 1 y * one / ln2

/-- The terms of Σ (−1)^k x^(2k+j) / (2k+j)!: those added and those taken away. -/
def altSeries (x2 : Nat) : Nat → Nat → Nat → Nat × Nat
  | 0, _, _ => (0, 0)
  | n + 1, j, t =>
    let r := altSeries x2 n (j + 2) (t * x2 / one / (j + 1) / (j + 2))
    (t + r.2, r.1)

/-- sin and cos of a fixed-point x below 1. -/
def sinFix (x : Nat) : Nat := let r := altSeries (x * x / one) 50 1 x; r.1 - r.2
def cosFix (x : Nat) : Nat := let r := altSeries (x * x / one) 50 0 one; r.1 - r.2

/-- 2^x (R96, R97). Beyond ±200 the result overflows or rounds to 0 as it does at ±200. -/
def fexp2 (a : Nat) : Nat × Flags :=
  match value f32 a with
  | .nan s => (f32.canon, if s then NV else 0)
  | .inf n => (if n then 0 else a, 0)
  | .fin n num den =>
    if den * 200 ≤ num then cvt f32 (scaled false 1 1 (if n then -200 else 200)) 0
    else
      let k : Int := if n then -((num + den - 1) / den : Nat) else ((num / den : Nat) : Int)
      -- x = k + f, f = up / den from 0 up to 1
      let up : Nat := ((if n then -(num : Int) else num) - k * den).toNat
      if up = 0 then cvt f32 (scaled false 1 1 k) 0
      else
        match sticky false (expFix (up * one / den * ln2 / one)) prec with
        | .fin _ u d => cvt f32 (scaled false u d k) 0
        | v => cvt f32 v 0

/-- log2 x (R96, R97). -/
def flog2 (a : Nat) : Nat × Flags :=
  match value f32 a with
  | .nan s => (f32.canon, if s then NV else 0)
  | .inf n => if n then (f32.canon, NV) else (a, 0)
  | .fin n num den =>
    if num = 0 then (withSign f32 true (f32.maxMag + 1), DZ)
    else if n then (f32.canon, NV)
    else
      let e := exponent num den
      match scaled false num den (-e) with
      | .fin _ u d =>
        if u = d then cvt f32 (ofInt e) 0
        else
          let l := log2Fix (u * one / d)
          let v : Int := e * one + l
          if 0 ≤ v then cvt f32 (sticky false v.toNat prec) 0 else cvt f32 (sticky true (-v - 1).toNat prec) 0
      | v => cvt f32 v 0

/-- |x| reduced by multiples of π/2: the quadrant modulo 4 and the rest, fixed point; the rest is below π/2. -/
def reduce (num den : Nat) : Nat × Nat :=
  -- x and π/2 in units of 2^-512 / 2
  let x := num * 2 ^ 513 / den
  (x / pi512 % 4, x % pi512 / 2 ^ (513 - prec))

/-- sin of a quadrant's rest q·π/2 + y by the symmetries, and its sign. -/
def sinQuad (q y : Nat) : Bool × Nat :=
  let half := pi512 / 2 ^ (514 - prec)
  let comp := pi512 / 2 ^ (513 - prec) - y
  let s := if y < half then sinFix y else cosFix comp
  let c := if y < half then cosFix y else sinFix comp
  match q % 4 with
  | 0 => (false, s)
  | 1 => (false, c)
  | 2 => (true, s)
  | _ => (true, c)

/-- sin x and cos x in radians (R96, R97). -/
def fsin (a : Nat) : Nat × Flags :=
  match value f32 a with
  | .nan s => (f32.canon, if s then NV else 0)
  | .inf _ => (f32.canon, NV)
  | .fin n num den =>
    if num = 0 then (a, 0)
    else
      let r := reduce num den
      let v := sinQuad r.1 r.2
      cvt f32 (sticky (v.1 != n) v.2 prec) 0

def fcos (a : Nat) : Nat × Flags :=
  match value f32 a with
  | .nan s => (f32.canon, if s then NV else 0)
  | .inf _ => (f32.canon, NV)
  | .fin _ num den =>
    if num = 0 then (value1, 0)
    else
      let r := reduce num den
      let v := sinQuad (r.1 + 1) r.2
      cvt f32 (sticky v.1 v.2 prec) 0
where
  /-- 1.0 -/
  value1 : Nat := 0x3F800000

end Sys2Proof.Machine.Fp
end

