-- ==== Sys2Proof/Machine/Vector.lean ====
section
/-!
DEFINITION. The shapes shared by the vector instructions (R109, R111, R114), and the functions that the integer, bit and dot-product
instructions compute in a lane.
-/
namespace Sys2Proof.Machine

/-! ### Shapes -/

/-- A vector instruction of `words` words with a 32-bit result in each lane of ACTIVE (R109): it waits for its feed entries, reads every
source, writes its destination with the push, collects the flags of the active lanes, and removes the entries it popped. -/
def vec32 (s : State) (words : Nat) (gd : BitVec 5) (d : BitVec 6) (srcs : List SrcCode) (f : Group → Nat → Word × Fp.Flags) :
    Host.Outcome State Fault Refusal :=
  onGroup s fun g =>
    withFeeds s g srcs
      (s.putGroup s.cur (advance words (popAll srcs
        (orFlags (laneFlags g.width (active g gd) fun l => (f g l).2) (write32 d (active g gd) (fun l => (f g l).1) g)))))

/-- The same with a 64-bit result and no flags. -/
def vec64 (s : State) (words : Nat) (gd : BitVec 5) (d : BitVec 6) (srcs : List SrcCode) (f : Group → Nat → Word64) :
    Host.Outcome State Fault Refusal :=
  onGroup s fun g =>
    withFeeds s g srcs (s.putGroup s.cur (advance words (popAll srcs (write64 d (active g gd) (f g) g))))

/-- A short instruction of two sources read in type t. -/
def short2 (s : State) (gd : BitVec 5) (d : BitVec 6) (t : SrcType) (a b : BitVec 7) (f : Word → Word → Word × Fp.Flags) :
    Host.Outcome State Fault Refusal :=
  vec32 s 1 gd d [(a, false), (b, false)] fun g l => f (src32 s g t [] a l) (src32 s g t [(a, false)] b l)

/-- A short instruction of one source. -/
def short1 (s : State) (gd : BitVec 5) (d : BitVec 6) (t : SrcType) (a : BitVec 7) (f : Word → Word × Fp.Flags) :
    Host.Outcome State Fault Refusal :=
  vec32 s 1 gd d [(a, false)] fun g l => f (src32 s g t [] a l)

/-- The clock at which a group's special-function result has reached it (R293). -/
def sfuReady (s : State) (g : Group) : Nat :=
  match teamOf s g with
  | some t => s.clock + rotationLength s (coreNum t.site t.core) (g.grpid % 4) + 2
  | none => s.clock + 6

/-- A special-function instruction (R293): as `vec32`, and the group is unready until R + 2 clocks after issue.
Log entry 16 (DESIGN CHOICE). -/
def vecSfu (s : State) (words : Nat) (gd : BitVec 5) (d : BitVec 6) (srcs : List SrcCode) (f : Group → Nat → Word × Fp.Flags) :
    Host.Outcome State Fault Refusal :=
  onGroup s fun g =>
    withFeeds s g srcs
      (s.putGroup s.cur { advance words (popAll srcs
        (orFlags (laneFlags g.width (active g gd) fun l => (f g l).2) (write32 d (active g gd) (fun l => (f g l).1) g))) with
          sfuUntil := sfuReady s g })

/-- A result without flags. -/
def plain (w : Word) : Word × Fp.Flags := (w, 0)

/-- A long instruction of one, two or three sources of one type, with the operand word's modifiers. -/
def long1 (s : State) (o : LOps) (t : SrcType) (f : Nat → Word → Word × Fp.Flags) : Host.Outcome State Fault Refusal :=
  vec32 s 2 o.g o.d [(o.a, false)] fun g l => f l (opA s g t o l)

def long2 (s : State) (o : LOps) (t : SrcType) (f : Nat → Word → Word → Word × Fp.Flags) : Host.Outcome State Fault Refusal :=
  vec32 s 2 o.g o.d [(o.a, false), (o.b, false)] fun g l => f l (opA s g t o l) (opB s g t false o l)

def long3 (s : State) (o : LOps) (ta tc : SrcType) (f : Nat → Word → Word → Word → Word × Fp.Flags) :
    Host.Outcome State Fault Refusal :=
  vec32 s 2 o.g o.d [(o.a, false), (o.b, false), (o.c, false)] fun g l =>
    f l (opA s g ta o l) (opB s g ta false o l) (opC s g tc o l)

/-- The draw of element e of lane l under .rs: key s28:s29, counter base s30:s31 (R92, R111). -/
def aluDraw (s : State) (e l : Nat) : Nat :=
  match tblGet s.groups s.cur with
  | none => 0
  | some g =>
    (Fp.rsDraw (pair (readS s.draws 3 g 28) (readS s.draws 3 g 29)) (pair (readS s.draws 3 g 30) (readS s.draws 3 g 31)) e l).toNat

/-- The draw where the mode is .rs, else 0. -/
def drawFor (s : State) (rm : BitVec 3) (e l : Nat) : Nat := if rm = 4 then aluDraw s e l else 0

/-- A floating-point result as a word. -/
def fpWord (r : Nat × Fp.Flags) : Word × Fp.Flags := (BitVec.ofNat 32 r.1, r.2)

/-! ### Integers (R115, R116) -/

/-- A word in the integer type T: 0 .i32, otherwise .n32. -/
def intOf (t : BitVec 2) (x : Word) : Int := if t = 0 then x.toInt else x.toNat

/-- The exact result E modulo 2^32, or with .sat clamped to the type. -/
def intResult (t : BitVec 2) (sat : Bool) (e : Int) : Word :=
  let lo : Int := if t = 0 then -2147483648 else 0
  let hi : Int := if t = 0 then 2147483647 else 4294967295
  BitVec.ofInt 32 (if sat then max lo (min hi e) else e)

/-- Bits [63:32] of the exact product. -/
def mulHigh (t : BitVec 2) (x y : Word) : Word := BitVec.ofInt 32 (intOf t x * intOf t y / 4294967296)

def intMin (t : BitVec 2) (x y : Word) : Word := if intOf t y < intOf t x then y else x
def intMax (t : BitVec 2) (x y : Word) : Word := if intOf t x < intOf t y then y else x

/-- The six integer comparisons: eq ne lt le gt ge (R120). -/
def intCmp (cmp : Nat) (x y : Int) : Bool :=
  match cmp with
  | 0 => decide (x = y)
  | 1 => decide (x ≠ y)
  | 2 => decide (x < y)
  | 3 => decide (x ≤ y)
  | 4 => decide (y < x)
  | _ => decide (y ≤ x)

/-! ### Bits (R117 to R119) -/

/-- Shifts: 0, or copies of the top bit, from the full width on. -/
def shl (w : Nat) (x : BitVec w) (n : Nat) : BitVec w := if w ≤ n then 0 else x <<< n
def shr (w : Nat) (x : BitVec w) (n : Nat) : BitVec w := if w ≤ n then 0 else x >>> n
def sar (w : Nat) (x : BitVec w) (n : Nat) : BitVec w := x.sshiftRight (min n w)

def rotl (x : Word) (n : Nat) : Word := Fp.rotl32 x (n % 32)

/-- The number of set bits. -/
def popcount (x : Word) : Word := BitVec.ofNat 32 (((List.range 32).filter fun i => x.getLsbD i).length)

/-- The number of leading zero bits; 32 for 0. -/
def leadingZeros (x : Word) : Word := if x = 0 then 32 else BitVec.ofNat 32 (31 - x.toNat.log2)

/-- Bit i moved to bit 31 − i. -/
def bitReverse (x : Word) : Word :=
  BitVec.ofNat 32 ((List.range 32).foldl (fun a i => if x.getLsbD i then a + 2 ^ (31 - i) else a) 0)

/-- BFE (R119): offset spec[7:0], width min(spec[15:8], 32). -/
def bitExtract (signed : Bool) (x spec : Word) : Word :=
  let o := spec.toNat % 256
  let w := min (spec.toNat / 256 % 256) 32
  if w = 0 then 0
  else
    let v : Int := if signed then x.toInt else x.toNat
    let f := v / (2 ^ o : Nat) % (2 ^ w : Nat)
    BitVec.ofInt 32 (if signed && decide ((2 ^ (w - 1) : Nat) ≤ f) then f - (2 ^ w : Nat) else f)

/-- BFI (R119): the low bits of x into the field of y; bits at 32 or above are dropped. -/
def bitInsert (x y spec : Word) : Word :=
  let o := spec.toNat % 256
  let w := min (spec.toNat / 256 % 256) 32
  let m : Nat := (2 ^ w - 1) * 2 ^ o
  (y &&& ~~~(BitVec.ofNat 32 m)) ||| BitVec.ofNat 32 (x.toNat % 2 ^ w * 2 ^ o)

/-! ### Packed elements (R88, R128, R129) -/

/-- Element e of width w. -/
def elem (w : Nat) (x : Word) (e : Nat) : Nat := x.toNat / 2 ^ (w * e) % 2 ^ w

/-- Two 16-bit results packed, with the flags of both. -/
def pack2 (r0 r1 : Nat × Fp.Flags) : Word × Fp.Flags := (BitVec.ofNat 32 (r0.1 % 65536 + 65536 * (r1.1 % 65536)), r0.2 ||| r1.2)

/-- The 16-bit format of the packed instructions. -/
def halfFmt (bf : Bool) : Fp.Fmt := if bf then Fp.bf16 else Fp.f16
def tHalf2 (bf : Bool) : SrcType := if bf then tBF16x2 else tF16x2

/-- The exact sum of the products of n elements of a narrow format (R102). -/
def dotSum (f : Fp.Fmt) (n : Nat) (x y : Word) : Fp.Val :=
  (List.range n).foldl (fun acc e =>
    (Fp.addV 0 acc (Fp.mulV (Fp.value f (elem f.width x e)) (Fp.value f (elem f.width y e))).1).1) (.fin false 0 1)

/-- The floating-point dot product: the sum converted once, an exact zero with the sign of R84, then added to c with one further
conversion (R129). -/
def dotFloat (f : Fp.Fmt) (n : Nat) (rm r1 r2 : Nat) (x y c : Word) : Word × Fp.Flags :=
  let sum := match dotSum f n x y with
    | .fin _ 0 _ => .fin (rm == 2) 0 1
    | v => v
  let t := Fp.cvt Fp.f32 sum rm r1
  let d := Fp.add Fp.f32 rm r2 t.1 c.toNat
  (BitVec.ofNat 32 d.1, t.2 ||| d.2)

/-- The integer dot product of n elements of w bits (R129). -/
def dotInt (w n : Nat) (sat : Bool) (x y c : Word) : Word :=
  let sum : Int := (List.range n).foldl (fun a e => a + Fp.toInt w (elem w x e) * Fp.toInt w (elem w y e)) 0
  intResult 0 sat (sum + c.toInt)

/-! ### Reductions (R131) -/

/-- The element type of REDX and SCANX: 0 .f32, 1 .i32, 2 .n32, 3 .i64, 4 .n64. -/
def redElem (t : Nat) : Fp.Elem :=
  match t with
  | 0 => .flt Fp.f32
  | 1 => .sint 32
  | 2 => .uint 32
  | 3 => .sint 64
  | _ => .uint 64

/-- The values combined: the source in the lanes of ACTIVE, the identity elsewhere. -/
def redValues (op : Nat) (t : Fp.Elem) (w : Nat) (m : Word64) (f : Nat → Nat) : List Nat :=
  (List.range w).map fun l => if m.getLsbD l then f l else Fp.identity op t

/-- The number of tree levels of a group of this width. -/
def levels (w : Nat) : Nat := w.log2

end Sys2Proof.Machine
end

