-- ==== Sys2Proof/Machine/Integer.lean ====
section
/-!
DEFINITION. The integer, logic, shift, bit-field, compare, select and move instructions (R115 to R122).
-/
namespace Sys2Proof.Machine

abbrev Res := Host.Outcome State Fault Refusal

/-- IADD, .i32 (R116). -/
def execIadd (g : BitVec 5) (d : BitVec 6) (a b : BitVec 7) (s : State) : Res :=
  short2 s g d tInt a b fun x y => plain (x + y)

/-- ISUB, .i32 (R116). -/
def execIsub (g : BitVec 5) (d : BitVec 6) (a b : BitVec 7) (s : State) : Res :=
  short2 s g d tInt a b fun x y => plain (x - y)

/-- IMUL, .i32 (R116). -/
def execImul (g : BitVec 5) (d : BitVec 6) (a b : BitVec 7) (s : State) : Res :=
  short2 s g d tInt a b fun x y => plain (x * y)

/-- IMIN, .i32 (R116). -/
def execImin (g : BitVec 5) (d : BitVec 6) (a b : BitVec 7) (s : State) : Res :=
  short2 s g d tInt a b fun x y => plain (intMin 0 x y)

/-- IMAX, .i32 (R116). -/
def execImax (g : BitVec 5) (d : BitVec 6) (a b : BitVec 7) (s : State) : Res :=
  short2 s g d tInt a b fun x y => plain (intMax 0 x y)

/-- AND (R118). -/
def execAnd (g : BitVec 5) (d : BitVec 6) (a b : BitVec 7) (s : State) : Res :=
  short2 s g d tInt a b fun x y => plain (x &&& y)

/-- OR (R118). -/
def execOr (g : BitVec 5) (d : BitVec 6) (a b : BitVec 7) (s : State) : Res :=
  short2 s g d tInt a b fun x y => plain (x ||| y)

/-- XOR (R118). -/
def execXor (g : BitVec 5) (d : BitVec 6) (a b : BitVec 7) (s : State) : Res :=
  short2 s g d tInt a b fun x y => plain (x ^^^ y)

/-- ANDN (R118). -/
def execAndn (g : BitVec 5) (d : BitVec 6) (a b : BitVec 7) (s : State) : Res :=
  short2 s g d tInt a b fun x y => plain (x &&& ~~~y)

/-- SHL (R118). -/
def execShl (g : BitVec 5) (d : BitVec 6) (a b : BitVec 7) (s : State) : Res :=
  short2 s g d tInt a b fun x y => plain (shl 32 x y.toNat)

/-- SHR (R118). -/
def execShr (g : BitVec 5) (d : BitVec 6) (a b : BitVec 7) (s : State) : Res :=
  short2 s g d tInt a b fun x y => plain (shr 32 x y.toNat)

/-- SAR (R118). -/
def execSar (g : BitVec 5) (d : BitVec 6) (a b : BitVec 7) (s : State) : Res :=
  short2 s g d tInt a b fun x y => plain (sar 32 x y.toNat)

/-- MOV (R122). -/
def execMov (g : BitVec 5) (d : BitVec 6) (a : BitVec 7) (s : State) : Res :=
  short1 s g d tInt a fun x => plain x

/-- IABS, .i32 (R116). -/
def execIabs (g : BitVec 5) (d : BitVec 6) (a : BitVec 7) (s : State) : Res :=
  short1 s g d tInt a fun x => plain (intResult 0 false x.toInt.natAbs)

/-- NOT (R118). -/
def execNot (g : BitVec 5) (d : BitVec 6) (a : BitVec 7) (s : State) : Res :=
  short1 s g d tInt a fun x => plain (~~~x)

/-- POPC (R118). -/
def execPopc (g : BitVec 5) (d : BitVec 6) (a : BitVec 7) (s : State) : Res :=
  short1 s g d tInt a fun x => plain (popcount x)

/-- CLZ (R118). -/
def execClz (g : BitVec 5) (d : BitVec 6) (a : BitVec 7) (s : State) : Res :=
  short1 s g d tInt a fun x => plain (leadingZeros x)

/-- BREV (R118). -/
def execBrev (g : BitVec 5) (d : BitVec 6) (a : BitVec 7) (s : State) : Res :=
  short1 s g d tInt a fun x => plain (bitReverse x)

/-- IADD with its type and .sat (R116). -/
def execIaddLong (t : BitVec 2) (sat : Bool) (o : LOps) (s : State) : Res :=
  long2 s o tInt fun _ x y => plain (intResult t sat (intOf t x + intOf t y))

/-- ISUB with its type and .sat (R116). -/
def execIsubLong (t : BitVec 2) (sat : Bool) (o : LOps) (s : State) : Res :=
  long2 s o tInt fun _ x y => plain (intResult t sat (intOf t x - intOf t y))

/-- IMUL with its type and .sat (R116). -/
def execImulLong (t : BitVec 2) (sat : Bool) (o : LOps) (s : State) : Res :=
  long2 s o tInt fun _ x y => plain (intResult t sat (intOf t x * intOf t y))

/-- IMULH (R116). -/
def execImulh (t : BitVec 2) (o : LOps) (s : State) : Res :=
  long2 s o tInt fun _ x y => plain (mulHigh t x y)

/-- IMIN with its type (R116). -/
def execIminLong (t : BitVec 2) (o : LOps) (s : State) : Res :=
  long2 s o tInt fun _ x y => plain (intMin t x y)

/-- IMAX with its type (R116). -/
def execImaxLong (t : BitVec 2) (o : LOps) (s : State) : Res :=
  long2 s o tInt fun _ x y => plain (intMax t x y)

/-- IABS with .sat (R116). -/
def execIabsLong (sat : Bool) (o : LOps) (s : State) : Res :=
  long1 s o tInt fun _ x => plain (intResult 0 sat x.toInt.natAbs)

/-- IMAD: a single wrap or saturation (R116). -/
def execImad (t : BitVec 2) (sat : Bool) (o : LOps) (s : State) : Res :=
  long3 s o tInt tInt fun _ x y z => plain (intResult t sat (intOf t x * intOf t y + intOf t z))

/-- AND, long form (R118). -/
def execAndLong (o : LOps) (s : State) : Res :=
  long2 s o tInt fun _ x y => plain (x &&& y)

/-- OR, long form (R118). -/
def execOrLong (o : LOps) (s : State) : Res :=
  long2 s o tInt fun _ x y => plain (x ||| y)

/-- XOR, long form (R118). -/
def execXorLong (o : LOps) (s : State) : Res :=
  long2 s o tInt fun _ x y => plain (x ^^^ y)

/-- ANDN, long form (R118). -/
def execAndnLong (o : LOps) (s : State) : Res :=
  long2 s o tInt fun _ x y => plain (x &&& ~~~y)

/-- SHL, long form (R118). -/
def execShlLong (o : LOps) (s : State) : Res :=
  long2 s o tInt fun _ x y => plain (shl 32 x y.toNat)

/-- SHR, long form (R118). -/
def execShrLong (o : LOps) (s : State) : Res :=
  long2 s o tInt fun _ x y => plain (shr 32 x y.toNat)

/-- SAR, long form (R118). -/
def execSarLong (o : LOps) (s : State) : Res :=
  long2 s o tInt fun _ x y => plain (sar 32 x y.toNat)

/-- ROT, long form (R118). -/
def execRot (o : LOps) (s : State) : Res :=
  long2 s o tInt fun _ x y => plain (rotl x y.toNat)

/-- NOT, long form (R118). -/
def execNotLong (o : LOps) (s : State) : Res :=
  long1 s o tInt fun _ x => plain (~~~x)

/-- POPC, long form (R118). -/
def execPopcLong (o : LOps) (s : State) : Res :=
  long1 s o tInt fun _ x => plain (popcount x)

/-- CLZ, long form (R118). -/
def execClzLong (o : LOps) (s : State) : Res :=
  long1 s o tInt fun _ x => plain (leadingZeros x)

/-- BREV, long form (R118). -/
def execBrevLong (o : LOps) (s : State) : Res :=
  long1 s o tInt fun _ x => plain (bitReverse x)

/-- BFE (R119). -/
def execBfe (sx : Bool) (o : LOps) (s : State) : Res :=
  long2 s o tInt fun _ x y => plain (bitExtract sx x y)

/-- BFI (R119). -/
def execBfi (o : LOps) (s : State) : Res :=
  long3 s o tInt tInt fun _ x y z => plain (bitInsert x y z)

/-- Whether the 64-bit or 32-bit sources of a comparison stand in the relation, in the type T of ICMP (R120). -/
def icmpLane (s : State) (g : Group) (cmp : BitVec 3) (t : BitVec 2) (o : LOps) (l : Nat) : Bool :=
  match t.toNat with
  | 0 => intCmp cmp.toNat (opA s g tInt o l).toInt (opB s g tInt false o l).toInt
  | 1 => intCmp cmp.toNat (opA s g tInt o l).toNat (opB s g tInt false o l).toNat
  | 2 => intCmp cmp.toNat (opA64 s g o l).toInt (opB64 s g o l).toInt
  | _ => intCmp cmp.toNat (opA64 s g o l).toNat (opB64 s g o l).toNat

/-- ICMP: the predicate's bits in the lanes of ACTIVE, nothing pushed (R120). -/
def execIcmp (cmp : BitVec 3) (t : BitVec 2) (o : LOps) (s : State) : Res :=
  vec32 s 2 o.g o.d [(o.a, decide (2 ≤ t.toNat)), (o.b, decide (2 ≤ t.toNat))] fun g l =>
    plain (if icmpLane s g cmp t o l then 1 else 0)

/-- The predicate operand of SEL and USEL in lane l, complemented when PNEG is set (R121, R139). -/
def selBit (g : Group) (pneg : Bool) (pr : BitVec 4) (l : Nat) : Bool := (cellGet g.p pr.toNat).getLsbD l != pneg

/-- SEL: bits are moved, NaNs pass unchanged (R121). -/
def execSel (w64 pneg : Bool) (pr : BitVec 4) (o : LOps) (s : State) : Res :=
  if w64 then
    vec64 s 2 o.g o.d [(o.a, true), (o.b, true)] fun g l => if selBit g pneg pr l then opA64 s g o l else opB64 s g o l
  else
    vec32 s 2 o.g o.d [(o.a, false), (o.b, false)] fun g l =>
      plain (if selBit g pneg pr l then opA s g tInt o l else opB s g tInt false o l)

/-- MOVI (R122). -/
def execMovi (g : BitVec 5) (d : BitVec 6) (imm : BitVec 32) (s : State) : Res :=
  vec32 s 2 g d [] fun _ _ => plain imm

/-- IADD64 on register pairs, modulo 2^64 (R116). -/
def execIadd64 (o : LOps) (s : State) : Res :=
  vec64 s 2 o.g o.d [(o.a, true), (o.b, true)] fun g l => opA64 s g o l + opB64 s g o l

/-- ISUB64 on register pairs, modulo 2^64 (R116). -/
def execIsub64 (o : LOps) (s : State) : Res :=
  vec64 s 2 o.g o.d [(o.a, true), (o.b, true)] fun g l => opA64 s g o l - opB64 s g o l

/-- IMUL64 on register pairs, modulo 2^64 (R116). -/
def execImul64 (o : LOps) (s : State) : Res :=
  vec64 s 2 o.g o.d [(o.a, true), (o.b, true)] fun g l => opA64 s g o l * opB64 s g o l

/-- SHL64: a pair shifted by a 32-bit count; 0 from 64 on (R116). -/
def execShl64 (o : LOps) (s : State) : Res :=
  vec64 s 2 o.g o.d [(o.a, true), (o.b, false)] fun g l => shl 64 (opA64 s g o l) (opB s g tInt true o l).toNat

/-- SHR64, logical or with copies of a[63] (R116). -/
def execShr64 (sx : Bool) (o : LOps) (s : State) : Res :=
  vec64 s 2 o.g o.d [(o.a, true), (o.b, false)] fun g l =>
    let n := (opB s g tInt true o l).toNat
    if sx then sar 64 (opA64 s g o l) n else shr 64 (opA64 s g o l) n

end Sys2Proof.Machine
end

