-- ==== Sys2Proof/Machine/Float.lean ====
section
/-!
DEFINITION. The floating-point instructions (R123 to R129).
-/
namespace Sys2Proof.Machine

/-- An F32 operation of two words under a rounding mode. -/
def f32op (f : Fp.Fmt → Nat → Nat → Nat → Nat → Nat × Fp.Flags) (rm r : Nat) (x y : Word) : Word × Fp.Flags :=
  fpWord (f Fp.f32 rm r x.toNat y.toNat)

/-- FMIN and FMAX of two words (R84). -/
def f32minmax (isMax : Bool) (x y : Word) : Word × Fp.Flags := fpWord (Fp.minmax Fp.f32 isMax x.toNat y.toNat)

/-- FADD.f32, RNE (R123). -/
def execFadd (g : BitVec 5) (d : BitVec 6) (a b : BitVec 7) (s : State) : Res :=
  short2 s g d tF32 a b fun x y => f32op Fp.add 0 0 x y

/-- FSUB.f32, RNE (R123). -/
def execFsub (g : BitVec 5) (d : BitVec 6) (a b : BitVec 7) (s : State) : Res :=
  short2 s g d tF32 a b fun x y => f32op Fp.sub 0 0 x y

/-- FMUL.f32, RNE (R123). -/
def execFmul (g : BitVec 5) (d : BitVec 6) (a b : BitVec 7) (s : State) : Res :=
  short2 s g d tF32 a b fun x y => f32op Fp.mul 0 0 x y

/-- FMIN.f32 (R123). -/
def execFmin (g : BitVec 5) (d : BitVec 6) (a b : BitVec 7) (s : State) : Res :=
  short2 s g d tF32 a b fun x y => f32minmax false x y

/-- FMAX.f32 (R123). -/
def execFmax (g : BitVec 5) (d : BitVec 6) (a b : BitVec 7) (s : State) : Res :=
  short2 s g d tF32 a b fun x y => f32minmax true x y

/-- A short special-function instruction of one F32 source. -/
def shortSfu (s : State) (g : BitVec 5) (d : BitVec 6) (a : BitVec 7) (f : Nat → Nat × Fp.Flags) : Res :=
  vecSfu s 1 g d [(a, false)] fun gr l => fpWord (f (src32 s gr tF32 [] a l).toNat)

/-- A long special-function instruction of one F32 source. -/
def longSfu (s : State) (o : LOps) (f : Nat → Nat → Nat × Fp.Flags) : Res :=
  vecSfu s 2 o.g o.d [(o.a, false)] fun g l => fpWord (f l (opA s g tF32 o l).toNat)

/-- FRCP, short form (R96, R97, R125). -/
def execFrcp (g : BitVec 5) (d : BitVec 6) (a : BitVec 7) (s : State) : Res :=
  shortSfu s g d a Fp.frcp

/-- FRSQ, short form (R96, R97, R125). -/
def execFrsq (g : BitVec 5) (d : BitVec 6) (a : BitVec 7) (s : State) : Res :=
  shortSfu s g d a Fp.frsq

/-- FSQRT, short form (R96, R97, R125). -/
def execFsqrt (g : BitVec 5) (d : BitVec 6) (a : BitVec 7) (s : State) : Res :=
  shortSfu s g d a (Fp.fsqrt 0 0)

/-- FEXP2, short form (R96, R97, R125). -/
def execFexp2 (g : BitVec 5) (d : BitVec 6) (a : BitVec 7) (s : State) : Res :=
  shortSfu s g d a Fp.fexp2

/-- FLOG2, short form (R96, R97, R125). -/
def execFlog2 (g : BitVec 5) (d : BitVec 6) (a : BitVec 7) (s : State) : Res :=
  shortSfu s g d a Fp.flog2

/-- FSIN, short form (R96, R97, R125). -/
def execFsin (g : BitVec 5) (d : BitVec 6) (a : BitVec 7) (s : State) : Res :=
  shortSfu s g d a Fp.fsin

/-- FCOS, short form (R96, R97, R125). -/
def execFcos (g : BitVec 5) (d : BitVec 6) (a : BitVec 7) (s : State) : Res :=
  shortSfu s g d a Fp.fcos

/-- FCLASS (R125). -/
def execFclass (g : BitVec 5) (d : BitVec 6) (a : BitVec 7) (s : State) : Res :=
  short1 s g d tF32 a fun x => plain (BitVec.ofNat 32 (Fp.fclass x.toNat))

/-- FADD.f32 with its rounding mode (R123). -/
def execFaddLong (rm : BitVec 3) (o : LOps) (s : State) : Res :=
  long2 s o tF32 fun l x y => f32op Fp.add rm.toNat (drawFor s rm 0 l) x y

/-- FSUB.f32 with its rounding mode (R123). -/
def execFsubLong (rm : BitVec 3) (o : LOps) (s : State) : Res :=
  long2 s o tF32 fun l x y => f32op Fp.sub rm.toNat (drawFor s rm 0 l) x y

/-- FMUL.f32 with its rounding mode (R123). -/
def execFmulLong (rm : BitVec 3) (o : LOps) (s : State) : Res :=
  long2 s o tF32 fun l x y => f32op Fp.mul rm.toNat (drawFor s rm 0 l) x y

/-- FFMA, rounded once (R94, R123). -/
def execFfma (rm : BitVec 3) (o : LOps) (s : State) : Res :=
  long3 s o tF32 tF32 fun l x y z => fpWord (Fp.fma Fp.f32 rm.toNat (drawFor s rm 0 l) x.toNat y.toNat z.toNat)

/-- FMIN, long form (R84, R123). -/
def execFminLong (o : LOps) (s : State) : Res :=
  long2 s o tF32 fun _ x y => f32minmax false x y

/-- FMAX, long form (R84, R123). -/
def execFmaxLong (o : LOps) (s : State) : Res :=
  long2 s o tF32 fun _ x y => f32minmax true x y

/-- The format and source type of FCMP: 0 .f32, 1 .f16, 2 .bf16 (R124). -/
def fcmpFmt (t : BitVec 2) : Fp.Fmt := if t = 0 then Fp.f32 else if t = 1 then Fp.f16 else Fp.bf16
def fcmpType (t : BitVec 2) : SrcType := if t = 0 then tF32 else if t = 1 then tF16 else tBF16

/-- FCMP (R124): a 16-bit type reads bits [15:0] (R110). -/
def execFcmp (cmp : BitVec 3) (t : BitVec 2) (o : LOps) (s : State) : Res :=
  long2 s o (fcmpType t) fun _ x y =>
    let r := Fp.compare (fcmpFmt t) cmp.toNat (x.toNat % 2 ^ (fcmpFmt t).width) (y.toNat % 2 ^ (fcmpFmt t).width)
    (if r.1 then 1 else 0, r.2)

/-- FRCP, long form; the rounding field is ignored (R96, R125). -/
def execFrcpLong (_rm : BitVec 3) (o : LOps) (s : State) : Res :=
  longSfu s o fun _ x => Fp.frcp x

/-- FRSQ, long form; the rounding field is ignored (R96, R125). -/
def execFrsqLong (_rm : BitVec 3) (o : LOps) (s : State) : Res :=
  longSfu s o fun _ x => Fp.frsq x

/-- FSQRT in its rounding mode (R96, R125). -/
def execFsqrtLong (rm : BitVec 3) (o : LOps) (s : State) : Res :=
  longSfu s o fun l x => Fp.fsqrt rm.toNat (drawFor s rm 0 l) x

/-- FEXP2, long form; the rounding field is ignored (R96, R125). -/
def execFexp2Long (_rm : BitVec 3) (o : LOps) (s : State) : Res :=
  longSfu s o fun _ x => Fp.fexp2 x

/-- FLOG2, long form; the rounding field is ignored (R96, R125). -/
def execFlog2Long (_rm : BitVec 3) (o : LOps) (s : State) : Res :=
  longSfu s o fun _ x => Fp.flog2 x

/-- FSIN, long form; the rounding field is ignored (R96, R125). -/
def execFsinLong (_rm : BitVec 3) (o : LOps) (s : State) : Res :=
  longSfu s o fun _ x => Fp.fsin x

/-- FCOS, long form; the rounding field is ignored (R96, R125). -/
def execFcosLong (_rm : BitVec 3) (o : LOps) (s : State) : Res :=
  longSfu s o fun _ x => Fp.fcos x

/-- FRINT (R125). -/
def execFrint (rm : BitVec 3) (o : LOps) (s : State) : Res :=
  long1 s o tF32 fun l x => fpWord (Fp.frint rm.toNat (drawFor s rm 0 l) x.toNat)

/-- FCLASS, long form (R125). -/
def execFclassLong (o : LOps) (s : State) : Res :=
  long1 s o tF32 fun _ x => plain (BitVec.ofNat 32 (Fp.fclass x.toNat))

/-- FLDEXP (R126): b is an .i32 source. -/
def execFldexp (rm : BitVec 3) (o : LOps) (s : State) : Res :=
  vec32 s 2 o.g o.d [(o.a, false), (o.b, false)] fun g l =>
    fpWord (Fp.fldexp rm.toNat (drawFor s rm 0 l) (opA s g tF32 o l).toNat (opB s g tInt false o l).toInt)

/-- The type in which CVT reads its source, by PAIR (R127). -/
def cvtSrc (pair : Nat) : SrcType :=
  match pair with
  | 0 => tF16
  | 1 => tBF16
  | 4 | 5 | 14 | 15 => tInt
  | 11 => tK8
  | 12 => tK8w
  | 13 => tK4
  | _ => tF32

/-- A conversion to a floating-point format as a word. -/
def toFloat (f : Fp.Fmt) (v : Fp.Val) (rm r : Nat) : Word × Fp.Flags := fpWord (Fp.cvt f v rm r)

/-- A conversion to an integer format of w bits, written with zeros above (R110). -/
def toInteger (w : Nat) (lo hi : Int) (v : Fp.Val) (rm r : Nat) : Word × Fp.Flags :=
  let x := Fp.cvtInt lo hi v rm r
  (BitVec.ofNat 32 (Fp.ofIntMod w x.1), x.2)

/-- CVT of a source word (R93, R127). -/
def cvtWord (pair rm r : Nat) (x : Word) : Word × Fp.Flags :=
  let f32 := Fp.value Fp.f32 x.toNat
  match pair with
  | 0 => toFloat Fp.f32 (Fp.value Fp.f16 (x.toNat % 65536)) rm r
  | 1 => toFloat Fp.f32 (Fp.value Fp.bf16 (x.toNat % 65536)) rm r
  | 2 => toFloat Fp.f16 f32 rm r
  | 3 => toFloat Fp.bf16 f32 rm r
  | 4 => toFloat Fp.f32 (Fp.ofInt x.toInt) rm r
  | 5 => toFloat Fp.f32 (Fp.ofInt x.toNat) rm r
  | 6 => toInteger 32 (-2147483648) 2147483647 f32 rm r
  | 7 => toInteger 32 0 4294967295 f32 rm r
  | 8 => toFloat Fp.k8 f32 rm r
  | 9 => toFloat Fp.k8w f32 rm r
  | 10 => toFloat Fp.k4 f32 rm r
  | 11 => toFloat Fp.f32 (Fp.value Fp.k8 (x.toNat % 256)) rm r
  | 12 => toFloat Fp.f32 (Fp.value Fp.k8w (x.toNat % 256)) rm r
  | 13 => toFloat Fp.f32 (Fp.value Fp.k4 (x.toNat % 16)) rm r
  | 14 => toInteger 8 (-128) 127 (Fp.ofInt x.toInt) rm r
  | _ => toInteger 4 (-8) 7 (Fp.ofInt x.toInt) rm r

/-- CVT (R127). -/
def execCvt (pair : BitVec 4) (rm : BitVec 3) (o : LOps) (s : State) : Res :=
  long1 s o (cvtSrc pair.toNat) fun l x => cvtWord pair.toNat rm.toNat (drawFor s rm 0 l) x

/-- A packed operation of two sources, each element rounded to the 16-bit format (R128). -/
def packed2 (f : Fp.Fmt → Nat → Nat → Nat → Nat → Nat × Fp.Flags) (bf : Bool) (rm r0 r1 : Nat) (x y : Word) : Word × Fp.Flags :=
  pack2 (f (halfFmt bf) rm r0 (elem 16 x 0) (elem 16 y 0)) (f (halfFmt bf) rm r1 (elem 16 x 1) (elem 16 y 1))

/-- HADD2.f16x2, RNE (R128). -/
def execHadd2 (g : BitVec 5) (d : BitVec 6) (a b : BitVec 7) (s : State) : Res :=
  short2 s g d tF16x2 a b fun x y => packed2 Fp.add false 0 0 0 x y

/-- HMUL2.f16x2, RNE (R128). -/
def execHmul2 (g : BitVec 5) (d : BitVec 6) (a b : BitVec 7) (s : State) : Res :=
  short2 s g d tF16x2 a b fun x y => packed2 Fp.mul false 0 0 0 x y

/-- HADD2 with its format and rounding mode (R128). -/
def execHadd2Long (bf : Bool) (rm : BitVec 3) (o : LOps) (s : State) : Res :=
  long2 s o (tHalf2 bf) fun l x y => packed2 Fp.add bf rm.toNat (drawFor s rm 0 l) (drawFor s rm 1 l) x y

/-- HMUL2 with its format and rounding mode (R128). -/
def execHmul2Long (bf : Bool) (rm : BitVec 3) (o : LOps) (s : State) : Res :=
  long2 s o (tHalf2 bf) fun l x y => packed2 Fp.mul bf rm.toNat (drawFor s rm 0 l) (drawFor s rm 1 l) x y

/-- HFMA2 (R94, R128). -/
def execHfma2 (bf : Bool) (rm : BitVec 3) (o : LOps) (s : State) : Res :=
  long3 s o (tHalf2 bf) (tHalf2 bf) fun l x y z =>
    let f := halfFmt bf
    pack2 (Fp.fma f rm.toNat (drawFor s rm 0 l) (elem 16 x 0) (elem 16 y 0) (elem 16 z 0))
      (Fp.fma f rm.toNat (drawFor s rm 1 l) (elem 16 x 1) (elem 16 y 1) (elem 16 z 1))

/-- DOT4 (R129). -/
def execDot4 (t : BitVec 2) (rm : BitVec 3) (sat : Bool) (o : LOps) (s : State) : Res :=
  if t = 0 then long3 s o tK8x4 tF32 fun l x y z => dotFloat Fp.k8 4 rm.toNat (drawFor s rm 0 l) (drawFor s rm 1 l) x y z
  else long3 s o tI8x4 tInt fun _ x y z => plain (dotInt 8 4 sat x y z)

/-- DOT8 (R129). -/
def execDot8 (t : BitVec 2) (rm : BitVec 3) (sat : Bool) (o : LOps) (s : State) : Res :=
  if t = 0 then long3 s o tK4x8 tF32 fun l x y z => dotFloat Fp.k4 8 rm.toNat (drawFor s rm 0 l) (drawFor s rm 1 l) x y z
  else long3 s o tI4x8 tInt fun _ x y z => plain (dotInt 4 8 sat x y z)

end Sys2Proof.Machine
end

