-- ==== Sys2Proof/Machine/CrossLane.lean ====
section
/-!
DEFINITION. The cross-lane instructions (R130 to R132), and those on whole predicate masks and EXEC (R133 to R136).
-/
namespace Sys2Proof.Machine

/-- XLANE in static mode: source a as R65 selects it (R130). -/
def execXlane (w64 : Bool) (o : LOps) (s : State) : Res :=
  if w64 then vec64 s 2 o.g o.d [(o.a, true)] fun g l => opA64 s g o l
  else long1 s o tInt fun _ x => plain x

/-- The lane that XLANE.idx reads for index j in lane l; none reads 0 (R130). -/
def idxLane (ifill : BitVec 2) (w l j : Nat) : Option Nat :=
  if j < w then some j else match ifill.toNat with
    | 0 => none
    | 1 => some l
    | _ => some (j % w)

/-- XLANE.idx: each lane chooses its source lane (R130). -/
def execXlaneIdx (w64 : Bool) (ifill : BitVec 2) (o : LOps) (s : State) : Res :=
  if w64 then
    vec64 s 2 o.g o.d [(o.a, true), (o.b, false)] fun g l =>
      match idxLane ifill g.width l (opB s g tInt true o l).toNat with
      | some j => src64 s g [] o.a j
      | none => 0
  else
    vec32 s 2 o.g o.d [(o.a, false), (o.b, false)] fun g l =>
      plain (match idxLane ifill g.width l (opB s g tInt false o l).toNat with
        | some j => src32 s g tInt [] o.a j
        | none => 0)

/-- Source a of a reduction in lane l, as the number of its bits. -/
def redSrc (s : State) (g : Group) (t : BitVec 3) (o : LOps) (l : Nat) : Nat :=
  if t = 0 then (opA s g tF32 o l).toNat
  else if t.toNat ≤ 2 then (opA s g tInt o l).toNat
  else (opA64 s g o l).toNat

/-- The values that a reduction of the group combines (R103, R131). -/
def redGroup (s : State) (g : Group) (rop t : BitVec 3) (o : LOps) : List Nat :=
  redValues rop.toNat (redElem t.toNat) g.width (active g o.g) (redSrc s g t o)

/-- An instruction whose result in lane l is a number with flags, in 32 or 64 bits by T. -/
def redInstr (s : State) (t : BitVec 3) (o : LOps) (f : Group → Nat → Nat × Fp.Flags) : Res :=
  if t.toNat ≤ 2 then vec32 s 2 o.g o.d [(o.a, false)] fun g l => fpWord (f g l)
  else vec64 s 2 o.g o.d [(o.a, true)] fun g l => BitVec.ofNat 64 (f g l).1

/-- REDX: N(0, GWIDTH) in every lane of ACTIVE (R131). -/
def execRedx (rop t : BitVec 3) (o : LOps) (s : State) : Res :=
  redInstr s t o fun g _ => Fp.treeRoot rop.toNat (redElem t.toNat) (levels g.width) (redGroup s g rop t o)

/-- The flags of every node of the tree over some values, those of its scans among them (R112). -/
def scanFlags (rop : Nat) (t : Fp.Elem) (w : Nat) (xs : List Nat) : Fp.Flags :=
  (List.range w).foldl (fun fl k => fl ||| (Fp.scanIncl rop t (levels w) k xs).2) (Fp.treeRoot rop t (levels w) xs).2

/-- SCANX: the inclusive or exclusive scan (R103, R131), with the flags of every node of its tree (R112). -/
def execScanx (rop : BitVec 3) (excl : Bool) (t : BitVec 3) (o : LOps) (s : State) : Res :=
  redInstr s t o fun g l =>
    let xs := redGroup s g rop t o
    let scan := fun k => (Fp.scanIncl rop.toNat (redElem t.toNat) (levels g.width) k xs).1
    (if excl then (if l = 0 then Fp.identity rop.toNat (redElem t.toNat) else scan (l - 1)) else scan l,
      scanFlags rop.toNat (redElem t.toNat) g.width xs)

/-- An instruction that writes the whole predicate of DST from a mask (R18, R132). -/
def wholeMask (s : State) (d : BitVec 6) (srcs : List SrcCode) (f : Group → Word64) : Res :=
  onGroup s fun g => withFeeds s g srcs (s.putGroup s.cur (advance 2 (popAll srcs (writeP g (d.toNat - 48) (f g)))))

/-- BALLOT (R132). -/
def execBallot (o : LOps) (s : State) : Res :=
  wholeMask s o.d [(o.a, false)] fun g => maskOf g.width fun l => (active g o.g).getLsbD l && opA s g tInt o l != 0

/-- Whether the vote holds over the lanes of ACTIVE: 0 .any, 1 .all, 2 .eq (R132). -/
def voteHolds (s : State) (g : Group) (vk : BitVec 2) (o : LOps) : Bool :=
  let ls := lanesOf g.width (active g o.g)
  match vk.toNat with
  | 0 => ls.any fun l => opA s g tInt o l != 0
  | 1 => ls.all fun l => opA s g tInt o l != 0
  | _ => ls.all fun l => ls.all fun j => opA s g tInt o l == opA s g tInt o j

/-- VOTE (R132). -/
def execVote (vk : BitVec 2) (o : LOps) (s : State) : Res :=
  wholeMask s o.d [(o.a, false)] fun g => if voteHolds s g vk o then onesBelow g.width else 0

/-- MATCH: the lanes of ACTIVE that hold the same bits (R132). -/
def execMatchx (w64 : Bool) (o : LOps) (s : State) : Res :=
  vec64 s 2 o.g o.d [(o.a, w64)] fun g l =>
    maskOf g.width fun j => (active g o.g).getLsbD j &&
      (if w64 then opA64 s g o j == opA64 s g o l else opA s g tInt o j == opA s g tInt o l)

/-- ELECT: the lowest bit of ACTIVE (R132). -/
def execElect (o : LOps) (s : State) : Res :=
  wholeMask s o.d [] fun g => match lowestLane g.width (active g o.g) with
    | some l => BitVec.ofNat 64 (2 ^ l)
    | none => 0

/-! ### Masks (R133 to R136) -/

/-- A mask operand of PLOP: p0 to p11, EXEC, ones or zero (R134). -/
def plopMask (g : Group) (c : BitVec 4) : Word64 :=
  if c.toNat < 12 then cellGet g.p c.toNat else if c = 12 then g.exec else if c = 13 then BitVec.allOnes 64 else 0

/-- PLOP: the truth table over three masks (R134). -/
def execPlop (d : BitVec 6) (pc pb pa : BitVec 4) (table : BitVec 8) (s : State) : Res :=
  wholeMask s d [] fun g => maskOf g.width fun l =>
    table.getLsbD (4 * ((plopMask g pa).getLsbD l).toNat + 2 * ((plopMask g pb).getLsbD l).toNat + ((plopMask g pc).getLsbD l).toNat)

/-- A whole mask to a predicate or to a uniform pair (R135, R136). -/
def writeMask (g : Group) (d : BitVec 6) (m : Word64) : Group :=
  if 48 ≤ d.toNat then writeP g (d.toNat - 48) m else writeS64 g d.toNat (clip g m)

/-- PMOV (R135). -/
def execPmov (d : BitVec 6) (a : BitVec 7) (s : State) : Res :=
  onGroup s fun g =>
    s.putGroup s.cur (advance 1 (writeMask g d (if a.toNat < 12 then cellGet g.p a.toNat else maskSrc s g a)))

/-- EXSET u (R136). -/
def execExset (a : BitVec 7) (s : State) : Res :=
  onGroup s fun g => s.putGroup s.cur (advance 1 (writeExec g (maskSrc s g a)))

/-- EXSET.and (R136). -/
def execExsetAnd (d : BitVec 6) (s : State) : Res :=
  onGroup s fun g => s.putGroup s.cur (advance 1 (writeExec g (g.exec &&& cellGet g.p (d.toNat - 48))))

/-- EXSET.andn (R136). -/
def execExsetAndn (d : BitVec 6) (s : State) : Res :=
  onGroup s fun g => s.putGroup s.cur (advance 1 (writeExec g (g.exec &&& ~~~(cellGet g.p (d.toNat - 48)))))

/-- EXGET (R136). -/
def execExget (d : BitVec 6) (s : State) : Res :=
  onGroup s fun g => s.putGroup s.cur (advance 1 (writeMask g d g.exec))

end Sys2Proof.Machine
end

