-- ==== Sys2Proof/Machine/Uniform.lean ====
section
/-!
DEFINITION. The uniform instructions (R137 to R140), the control transfers but EXIT (R141 to R145), and the reads of special registers
(R38, R146).
-/
namespace Sys2Proof.Machine

/-- A uniform instruction of `words` words with a 32-bit result: it writes its destination whenever it issues (R25, R137). -/
def uni32 (s : State) (words : Nat) (d : BitVec 6) (f : Group → Word) : Res :=
  onGroup s fun g => (writeU s s.cur d.toNat (f g)).upGroup s.cur (advance words)

/-- A uniform instruction with a 64-bit result in an even pair. -/
def uni64 (s : State) (words : Nat) (d : BitVec 6) (f : Group → Word64) : Res :=
  onGroup s fun g => s.putGroup s.cur (advance words (writeS64 g d.toNat (f g)))

/-- A uniform instruction of two uniform sources. -/
def uniOp (s : State) (words : Nat) (d : BitVec 6) (a b : BitVec 7) (f : Word → Word → Word) : Res :=
  uni32 s words d fun g => f (usrc s g tInt 0 a) (usrc s g tInt 1 b)

/-- A uniform instruction whose source b is the immediate word. -/
def uniImm (s : State) (d : BitVec 6) (a : BitVec 7) (imm : Word) (f : Word → Word → Word) : Res :=
  uni32 s 2 d fun g => f (usrc s g tInt 0 a) imm

/-- UADD, short form (R138). -/
def execUadd (_g : BitVec 5) (d : BitVec 6) (a b : BitVec 7) (s : State) : Res :=
  uniOp s 1 d a b fun x y => x + y

/-- UADD (R138). -/
def execUaddLong (_g : BitVec 5) (d : BitVec 6) (a b : BitVec 7) (s : State) : Res :=
  uniOp s 2 d a b fun x y => x + y

/-- UADD with an immediate (R138). -/
def execUaddImm (_g : BitVec 5) (d : BitVec 6) (a : BitVec 7) (imm : BitVec 32) (s : State) : Res :=
  uniImm s d a imm fun x y => x + y

/-- USUB, short form (R138). -/
def execUsub (_g : BitVec 5) (d : BitVec 6) (a b : BitVec 7) (s : State) : Res :=
  uniOp s 1 d a b fun x y => x - y

/-- USUB (R138). -/
def execUsubLong (_g : BitVec 5) (d : BitVec 6) (a b : BitVec 7) (s : State) : Res :=
  uniOp s 2 d a b fun x y => x - y

/-- USUB with an immediate (R138). -/
def execUsubImm (_g : BitVec 5) (d : BitVec 6) (a : BitVec 7) (imm : BitVec 32) (s : State) : Res :=
  uniImm s d a imm fun x y => x - y

/-- UMUL (R138). -/
def execUmul (_g : BitVec 5) (d : BitVec 6) (a b : BitVec 7) (s : State) : Res :=
  uniOp s 2 d a b fun x y => x * y

/-- UMUL with an immediate (R138). -/
def execUmulImm (_g : BitVec 5) (d : BitVec 6) (a : BitVec 7) (imm : BitVec 32) (s : State) : Res :=
  uniImm s d a imm fun x y => x * y

/-- UAND, short form (R138). -/
def execUand (_g : BitVec 5) (d : BitVec 6) (a b : BitVec 7) (s : State) : Res :=
  uniOp s 1 d a b fun x y => x &&& y

/-- UAND (R138). -/
def execUandLong (_g : BitVec 5) (d : BitVec 6) (a b : BitVec 7) (s : State) : Res :=
  uniOp s 2 d a b fun x y => x &&& y

/-- UAND with an immediate (R138). -/
def execUandImm (_g : BitVec 5) (d : BitVec 6) (a : BitVec 7) (imm : BitVec 32) (s : State) : Res :=
  uniImm s d a imm fun x y => x &&& y

/-- UOR (R138). -/
def execUor (_g : BitVec 5) (d : BitVec 6) (a b : BitVec 7) (s : State) : Res :=
  uniOp s 2 d a b fun x y => x ||| y

/-- UOR with an immediate (R138). -/
def execUorImm (_g : BitVec 5) (d : BitVec 6) (a : BitVec 7) (imm : BitVec 32) (s : State) : Res :=
  uniImm s d a imm fun x y => x ||| y

/-- UXOR (R138). -/
def execUxor (_g : BitVec 5) (d : BitVec 6) (a b : BitVec 7) (s : State) : Res :=
  uniOp s 2 d a b fun x y => x ^^^ y

/-- UXOR with an immediate (R138). -/
def execUxorImm (_g : BitVec 5) (d : BitVec 6) (a : BitVec 7) (imm : BitVec 32) (s : State) : Res :=
  uniImm s d a imm fun x y => x ^^^ y

/-- USHL (R138). -/
def execUshl (_g : BitVec 5) (d : BitVec 6) (a b : BitVec 7) (s : State) : Res :=
  uniOp s 2 d a b fun x y => shl 32 x y.toNat

/-- USHL with an immediate (R138). -/
def execUshlImm (_g : BitVec 5) (d : BitVec 6) (a : BitVec 7) (imm : BitVec 32) (s : State) : Res :=
  uniImm s d a imm fun x y => shl 32 x y.toNat

/-- USHR, logical or arithmetic (R138). -/
def execUshr (sx : Bool) (_g : BitVec 5) (d : BitVec 6) (a b : BitVec 7) (s : State) : Res :=
  uniOp s 2 d a b fun x y => if sx then sar 32 x y.toNat else shr 32 x y.toNat

/-- USHR with an immediate (R138). -/
def execUshrImm (sx : Bool) (_g : BitVec 5) (d : BitVec 6) (a : BitVec 7) (imm : BitVec 32) (s : State) : Res :=
  uniImm s d a imm fun x y => if sx then sar 32 x y.toNat else shr 32 x y.toNat

/-- UMOV, short form (R138). -/
def execUmov (_g : BitVec 5) (d : BitVec 6) (a : BitVec 7) (s : State) : Res :=
  uni32 s 1 d fun g => usrc s g tInt 0 a

/-- UMOV (R138). -/
def execUmovLong (_g : BitVec 5) (d : BitVec 6) (a : BitVec 7) (s : State) : Res :=
  uni32 s 2 d fun g => usrc s g tInt 0 a

/-- UMOV of an immediate (R137, R138). -/
def execUmovImm (_g : BitVec 5) (d : BitVec 6) (imm : BitVec 32) (s : State) : Res :=
  uni32 s 2 d fun _ => imm

/-- UMOVI (R137, R138). -/
def execUmovi (_g : BitVec 5) (d : BitVec 6) (imm : BitVec 32) (s : State) : Res :=
  uni32 s 2 d fun _ => imm

/-- UADD64 on register pairs (R138). -/
def execUadd64 (_g : BitVec 5) (d : BitVec 6) (a b : BitVec 7) (s : State) : Res :=
  uni64 s 2 d fun g => usrc64 s g 0 a + usrc64 s g 1 b

/-- The comparison of UCMP in its type (R120, R139). -/
def ucmpHolds (s : State) (g : Group) (cmp : BitVec 3) (t : BitVec 2) (a b : BitVec 7) : Bool :=
  match t.toNat with
  | 0 => intCmp cmp.toNat (usrc s g tInt 0 a).toInt (usrc s g tInt 1 b).toInt
  | 1 => intCmp cmp.toNat (usrc s g tInt 0 a).toNat (usrc s g tInt 1 b).toNat
  | 2 => intCmp cmp.toNat (usrc64 s g 0 a).toInt (usrc64 s g 1 b).toInt
  | _ => intCmp cmp.toNat (usrc64 s g 0 a).toNat (usrc64 s g 1 b).toNat

/-- UCMP: the whole predicate, or 1 or 0 in a uniform register (R139). -/
def execUcmp (cmp : BitVec 3) (t : BitVec 2) (_g : BitVec 5) (d : BitVec 6) (a b : BitVec 7) (s : State) : Res :=
  if 48 ≤ d.toNat then
    onGroup s fun g =>
      s.putGroup s.cur (advance 2 (writeP g (d.toNat - 48) (if ucmpHolds s g cmp t a b then onesBelow g.width else 0)))
  else uni32 s 2 d fun g => if ucmpHolds s g cmp t a b then 1 else 0

/-- The predicate of USEL, complemented when PNEG is set, has a set bit below GWIDTH (R139). -/
def uselTakes (g : Group) (pneg : Bool) (pr : BitVec 4) : Bool := (List.range g.width).any fun l => selBit g pneg pr l

/-- USEL (R139). Log entry 8 (DEDUCED). -/
def execUsel (w64 pneg : Bool) (pr : BitVec 4) (_g : BitVec 5) (d : BitVec 6) (a b : BitVec 7) (s : State) : Res :=
  if w64 then uni64 s 2 d fun g => if uselTakes g pneg pr then usrc64 s g 0 a else usrc64 s g 1 b
  else uni32 s 2 d fun g => if uselTakes g pneg pr then usrc s g tInt 0 a else usrc s g tInt 1 b

/-- The lane that ULANE reads: the lowest of ACTIVE, or source b below GWIDTH (R140). -/
def ulaneLane (s : State) (g : Group) (first : Bool) (gd : BitVec 5) (b : BitVec 7) : Option Nat :=
  if first then lowestLane g.width (active g gd)
  else
    let j := (usrc s g tInt 1 b).toNat
    if j < g.width then some j else none

/-- ULANE: one lane of a vector source into a uniform register, 0 where there is no such lane (R140). -/
def execUlane (first w64 : Bool) (g : BitVec 5) (d : BitVec 6) (a b : BitVec 7) (s : State) : Res :=
  if w64 then
    uni64 s 2 d fun gr => match ulaneLane s gr first g b with
      | some l => src64 s gr [] a l
      | none => 0
  else
    uni32 s 2 d fun gr => match ulaneLane s gr first g b with
      | some l => src32 s gr tInt [] a l
      | none => 0

/-! ### Control (R141 to R145) -/

/-- The target of a B-format instruction at the group's place (R53). -/
def branchTarget (g : Group) (off : BitVec 16) : Word64 := wordAddr g g.idx + 4 + (off.signExtend 64 <<< 2)

/-- The mask of a BR: its predicate within EXEC (R141). -/
def branchMask (g : Group) (p : BitVec 5) : Word64 := guardMask g p &&& g.exec

/-- BR counts itself and its active lanes for the divergence history (R297). -/
def countBranch (g : Group) : Group :=
  { g with brCount := g.brCount + 1, brActive := g.brActive + countLanes g.width g.exec }

/-- Whether a BR is taken (R141). -/
def branchTaken (g : Group) (c : BitVec 3) (m : Word64) : Bool :=
  match c.toNat with
  | 0 => true
  | 1 => m != 0
  | 2 => m == g.exec
  | _ => m == 0

/-- BR (R141): with U, a mask that is neither empty nor EXEC raises the uniformity-violation trap. -/
def execBr (p : BitVec 5) (c : BitVec 3) (u : Bool) (off : BitVec 16) (s : State) : Res :=
  onGroup s fun g =>
    let m := branchMask g p
    if u && m != 0 && m != g.exec then trapAt s s.cur 0x03 m
    else if branchTaken g c m then s.putGroup s.cur (transfer (branchTarget g off) (countBranch g))
    else s.putGroup s.cur (advance 1 (countBranch g))

/-- CALL (R142): the address of the word after it to the pair, then the transfer. -/
def execCall (l : BitVec 4) (off : BitVec 16) (s : State) : Res :=
  onGroup s fun g =>
    s.putGroup s.cur (transfer (branchTarget g off) (writeS64 g (2 * l.toNat) (wordAddr g g.idx + 4)))

/-- A target of RET or JMPX that the group cannot go to (R142). -/
def badTarget (a : Word64) : Bool := a.toNat % 4 != 0 || !(inGlobalWindow a)
where
  /-- [63:56] zero and [55:48] below 0xFC -/
  inGlobalWindow (a : Word64) : Bool := decide (a.toNat < 0xFC * 2 ^ 48)

/-- A transfer to the address in a uniform pair, or the control-target trap (R142). -/
def jumpTo (a : BitVec 7) (s : State) : Res :=
  onGroup s fun g =>
    let t := usrc64 s g 0 a
    if badTarget t then trapAt s s.cur 0x04 t else s.putGroup s.cur (transfer t g)

/-- RET (R142). -/
def execRet (a : BitVec 7) (s : State) : Res := jumpTo a s

/-- JMPX (R142). -/
def execJmpx (a : BitVec 7) (s : State) : Res := jumpTo a s

/-- LOOP (R143). -/
def execLoop (n : BitVec 5) (off : BitVec 16) (s : State) : Res :=
  onGroup s fun g =>
    let c := readS s.draws 0 g n.toNat
    if c = 0 then s.putGroup s.cur (advance 1 g)
    else
      let g1 := writeS g n.toNat (c - 1)
      if c = 1 then s.putGroup s.cur (advance 1 g1) else s.putGroup s.cur (transfer (branchTarget g off) g1)

/-- NOP (R145). -/
def execNop (_g : BitVec 5) (s : State) : Res := onGroup s fun g => s.putGroup s.cur (advance 1 g)

/-! ### Special registers (R38, R146) -/

/-- The quartet of a group. -/
def quartetOf (s : State) (g : Group) : Option Quartet := (teamOf s g).bind fun t => tblGet t.quartets (g.grpid / 4)

/-- The special register of a selector but LANEID, as 64 bits (R38). -/
def specialReg (s : State) (g : Group) (sel : Nat) : Word64 :=
  let t := teamOf s g
  let l := (gridOf s g).map (·.launch)
  let teamid := (t.map (·.teamid)).getD 0
  let gx := (l.map (·.gx)).getD 1
  let gy := (l.map (·.gy)).getD 1
  let q := quartetOf s g
  match sel with
  | 1 => BitVec.ofNat 64 g.width
  | 2 => BitVec.ofNat 64 g.grpid
  | 3 => BitVec.ofNat 64 teamid
  | 4 => BitVec.ofNat 64 (clurankOf s g)
  | 5 => BitVec.ofNat 64 (teamid % gx)
  | 6 => BitVec.ofNat 64 (teamid / gx % gy)
  | 7 => BitVec.ofNat 64 (teamid / (gx * gy))
  | 8 => BitVec.ofNat 64 ((t.map (·.core)).getD 0)
  | 9 => BitVec.ofNat 64 ((t.map (·.diename)).getD 0)
  | 10 => BitVec.ofNat 64 s.clock
  | 11 => BitVec.ofNat 64 (ticks s)
  | 12 => BitVec.ofNat 64 g.chz
  | 13 => ctrWord g
  | 14 => g.fpflags.setWidth 64
  | 15 => g.trapcause.setWidth 64
  | 16 => g.trapinfo
  | 17 => BitVec.ofNat 64 ((q.map (·.mxrow)).getD 0)
  | 18 => BitVec.ofNat 64 ((q.map (·.mxcol)).getD 0)
  | 19 => BitVec.ofNat 64 ((q.map (·.mxdep)).getD 0)
  | 20 => g.cpoff
  | _ => 0

/-- MOVSR (R146): LANEID to a vector destination, any other register to a uniform one of its width. -/
def execMovsr (g : BitVec 5) (d : BitVec 6) (a : BitVec 7) (s : State) : Res :=
  if a = 0 then vec32 s 1 g d [] fun _ l => plain (BitVec.ofNat 32 l)
  else if Legal.wideSelector a then uni64 s 1 d fun gr => specialReg s gr a.toNat
  else uni32 s 1 d fun gr => lo32 (specialReg s gr a.toNat)

/-- MOVSR.clr: FPFLAGS is read and cleared in one step (R37, R146). -/
def execMovsrClr (_g : BitVec 5) (d : BitVec 6) (s : State) : Res :=
  onGroup s fun g =>
    (writeU s s.cur d.toNat g.fpflags).upGroup s.cur fun g => advance 1 { g with fpflags := 0 }

end Sys2Proof.Machine
end

