-- ==== Sys2Proof/Machine/System.lean ====
section
/-!
DEFINITION. Traps by instruction and the return from them (R274, R275), the control registers (R278 to R280), and diagnostic array access
(R281 to R284).
-/
namespace Sys2Proof.Machine

/-! ### Traps (R274, R275) -/

/-- TRAP (R275): with ACTIVE empty a NOP. -/
def execTrap (g : BitVec 5) (code : BitVec 16) (s : State) : MRes :=
  onGroup s fun gr =>
    if clip gr (active gr g) = 0 then s.putGroup s.cur (advance 1 gr) else trapAfter s s.cur 0x38 (small code.toNat)

/-- BKPT (R275): with TRAPCTL.BKEN 0 or ACTIVE empty a NOP. -/
def execBkpt (g : BitVec 5) (code : BitVec 16) (s : State) : MRes :=
  onGroup s fun gr =>
    if clip gr (active gr g) = 0 || !bkEnabled s (siteOf s gr) (ctxOf s gr) then s.putGroup s.cur (advance 1 gr)
    else trapAfter s s.cur 0x39 (small code.toNat)

/-- TRET (R274): outside handler mode an illegal instruction; a header at k0:k1 that is misaligned, unreadable or illegal, or a k2 above
its COUNT, is a trap inside the handler. -/
def execTret (s : State) : MRes :=
  onGroup s fun g =>
    if !g.handler then trapAt s s.cur 0x02 (wordInfo (leNat (encodeBytes .tret)) 0)
    else
      let a := pair (cellGet g.k 0) (cellGet g.k 1)
      if a.toNat % 4 ≠ 0 then trapAt s s.cur 0x04 a
      else
        match fetchWord s s.cur g a.toNat with
        | (s1, none) => s1
        | (s1, some w) =>
          match decodeHeader w with
          | none => trapAt s1 s1.cur 0x01 0
          | some h => if returnBad h g then trapAt s1 s1.cur 0x01 0 else s1.upGroup s1.cur fun g => returnFrom h g

/-! ### Control registers (R278 to R280) -/

/-- A register that only a privileged context may read. -/
def privRead (n : Nat) : Bool := n == 0x012 || n == 0x020 || n == 0x021 || n == 0x022

/-- A register that any group may write. -/
def freeWrite (n : Nat) : Bool := n == 0x000 || n == 0x001 || n == 0x002

/-- The value of a control register as a group reads it. -/
def csrValue (s : State) (g : Group) (n : Nat) : Word64 :=
  let site := siteOf s g
  let c := ctxOf s g
  let d := tblGet s.dies site
  match n with
  | 0x000 => cellGet s.trapvec c
  | 0x001 => (cellGet s.trapctl c).setWidth 64
  | 0x002 => BitVec.ofNat 64 (asidOf s site c)
  | 0x010 => BitVec.ofNat 64 ((d.map (·.leaselen)).getD 0)
  | 0x011 => BitVec.ofNat 64 ((d.map (·.commthr)).getD 0)
  | 0x012 => BitVec.ofNat 64 ((d.map (·.agewait)).getD 0)
  | 0x020 => (d.map (·.qtable)).getD 0
  | 0x021 => (d.map (·.nametbl)).getD 0
  | 0x022 => (d.map (·.dirtytbl)).getD 0
  | _ => match (groupWho s s.cur g).core.bind (tblGet s.cores) with
    | some k => if k.test then 1 else 0
    | none => 0

/-- A control register's writable bits take a value; a read-only one keeps its own (R10, R278, R280). -/
def csrWrite (s : State) (g : Group) (n : Nat) (x : Word64) : State :=
  let site := siteOf s g
  let c := ctxOf s g
  match n with
  | 0x000 =>
    { s with
      vecWas := tblSet s.vecWas c { old := cellGet s.trapvec c, tick := ticks s, site := site }
      trapvec := cellSet s.trapvec c x }
  | 0x001 =>
    { s with
      ctlWas := tblSet s.ctlWas c { old := (cellGet s.trapctl c).setWidth 64, tick := ticks s, site := site }
      trapctl := cellSet s.trapctl c (lo32 x &&& 1) }
  | 0x010 => s.upDie site fun d => { d with leaselen := x.toNat % 65536 }
  | 0x011 => s.upDie site fun d => { d with commthr := x.toNat % 4096 }
  | 0x012 => s.upDie site fun d => { d with agewait := x.toNat % 2 ^ 32 }
  | 0x020 => s.upDie site fun d => { d with qtable := x }
  | 0x021 => s.upDie site fun d => { d with nametbl := x }
  | 0x022 => s.upDie site fun d => { d with dirtytbl := x }
  | 0x030 =>
    match (groupWho s s.cur g).core with
    | some k => s.upCore k fun e =>
        { e with test := x.getLsbD 0 }
    | none => s
  | _ => s

/-- CSRR (R278, R279). -/
def execCsrr (d : BitVec 6) (n : BitVec 10) (s : State) : MRes :=
  onGroup s fun g =>
    if privRead n.toNat && !ctxPriv s (siteOf s g) (ctxOf s g) then trapAt s s.cur 0x3A (small n.toNat)
    else
      let v := csrValue s g n.toNat
      if Legal.csrWide n then s.putGroup s.cur (advance 1 (writeS64 g d.toNat v))
      else (writeU s s.cur d.toNat (lo32 v)).upGroup s.cur (advance 1)

/-- CSRW (R278, R279). -/
def execCsrw (src : BitVec 7) (n : BitVec 10) (s : State) : MRes :=
  onGroup s fun g =>
    if !freeWrite n.toNat && !ctxPriv s (siteOf s g) (ctxOf s g) then trapAt s s.cur 0x3A (small n.toNat)
    else
      let x := if Legal.csrWide n then usrc64 s g 0 src else (usrc s g tInt 0 src).setWidth 64
      (csrWrite s g n.toNat x).upGroup s.cur (advance 1)

/-! ### Diagnostic arrays (R281 to R284) -/

/-- A row index of an array within its fields and range (R282): 0 register file, 1 stash, 2 repair table. -/
def diagRowOk (arr row : Nat) : Bool :=
  match arr with
  | 0 => decide (row < 2 ^ 18) && bits row 11 8 == 0 && decide (bits row 7 0 ≤ 131)
  | 1 => decide (row < 2 ^ 14) && decide (bits row 7 0 ≤ 65)
  | _ => decide (row < 256)

/-- The rows of a bank that hold data; the spares follow (R282). -/
def dataRows (arr : Nat) : Nat := if arr = 0 then 128 else 64

/-- A repair entry as it is stored: V at 0 where ROW or SPARE lies outside its array (R283). -/
def repairEntry (w : Word) : Word :=
  let x := w.toNat
  let arr := bits x 30 30
  let row := bits x 29 12
  let ok := diagRowOk arr row && decide (bits row 7 0 < dataRows arr) && (arr == 0 || decide (bits x 11 10 ≤ 1))
  BitVec.ofNat 32 ((if ok then x else x % 2 ^ 31) / 1024 * 1024)

/-- The spare that the lowest valid entry of a data row names (R282). Log entry 29 (DESIGN CHOICE). -/
def spareNamed (repair : Cells 32) (arr row : Nat) : Option Nat :=
  repair.findSome? fun e =>
    let x := e.2.toNat
    if bits x 31 31 = 1 ∧ bits x 30 30 = arr ∧ bits x 29 12 = row then some (bits x 11 10) else none

/-- The data rows of row's bank whose valid entries name spare sp. -/
def spareRivals (repair : Cells 32) (arr row sp : Nat) : List Nat :=
  (repair.filterMap fun e =>
    let x := e.2.toNat
    let r := bits x 29 12
    if bits x 31 31 = 1 ∧ bits x 30 30 = arr ∧ r / 256 = row / 256 ∧ spareNamed repair arr r = some sp then some r else none).eraseDups

/-- The spare that serves a data row (R282): where entries give one spare to several rows, it serves one of them (R283).
Log entry 29 (DESIGN CHOICE). -/
def spareFor (draws : Nat) (repair : Cells 32) (arr row : Nat) : Option Nat :=
  (spareNamed repair arr row).filter fun sp =>
    let rs := spareRivals repair arr row sp
    decide (rs.length ≤ 1) || rs[Config.freeIndex draws (readIdx 13 (64 * (row / 256) + sp)) % rs.length]? == some row

/-- The physical row that a row index reaches, and the number of a word of it. -/
def diagCell (draws : Nat) (repair : Cells 32) (arr row word : Nat) : Nat :=
  let low := match spareFor draws repair arr row with
    | some sp => if bits row 7 0 < dataRows arr then dataRows arr + sp else bits row 7 0
    | none => bits row 7 0
  (row / 256 * 256 + low) * 32 + word

/-- The words of an array that ordinary accesses do not reach: those of spares that no valid entry names. -/
def spareWords (repair : Cells 32) (arr : Nat) (t : Table Word) : Table Word :=
  t.filter fun e =>
    let row := e.1 / 32
    decide (dataRows arr ≤ row % 256) &&
      !(repair.any fun r =>
        let x := r.2.toNat
        bits x 31 31 == 1 && bits x 30 30 == arr && bits x 29 12 / 256 == row / 256 && dataRows arr + bits x 11 10 == row % 256)

/-- A team begins on a core: its registers and stash take the data rows of the arrays, and what DIAGWR left there is lost. -/
def takeRows (s : State) (core : Nat) : State :=
  s.upCore core fun c => { c with rf := spareWords c.repair 0 c.rf, stashRaw := spareWords c.repair 1 c.stashRaw }

/-- The instruction may reach the array: test mode, and a row in range (R282, R284). -/
def diagOk (s : State) (g : Group) (arr row : Nat) : Bool :=
  (((groupWho s s.cur g).core.bind (tblGet s.cores)).map (·.test)).getD false && diagRowOk arr row

/-- DIAGRD (R281 to R284): a word that no DIAGWR has written since a team last began on the core is unspecified.
Log entry 6 (DEDUCED). -/
def execDiagrd (d : BitVec 6) (row : BitVec 7) (arr : BitVec 4) (word : BitVec 5) (s : State) : MRes :=
  onGroup s fun g =>
    let r := (usrc s g tInt 0 row).toNat
    if !diagOk s g arr.toNat r then trapAt s s.cur 0x3B (small r)
    else
      let c := ((groupWho s s.cur g).core.bind (tblGet s.cores))
      let rep := (c.map (·.repair)).getD []
      let raw := if arr = 0 then (c.map (·.rf)).getD [] else (c.map (·.stashRaw)).getD []
      let v := if arr = 2 then cellGet rep r
        else (tblGet raw (diagCell s.draws rep arr.toNat r word.toNat)).getD (Config.freeWord s.draws (readIdx 12 0))
      s.putGroup s.cur (advance 2 (writeS g d.toNat v))

/-- A free word for cell k of register kind `kind` of group n after a diagnostic write. -/
def scrambled (s : State) (n kind k : Nat) : Word := Config.freeWord s.draws (2 ^ 40 * (64 * n + kind + 1) + k)

/-- Cells that hold unspecified values, in the lanes below a width. -/
def scrambleCells (s : State) (n kind width count : Nat) : Cells 32 :=
  (List.range count).filterMap fun k =>
    if k % 64 < width ∧ scrambled s n kind k ≠ 0 then some (k, scrambled s n kind k) else none

/-- Feed entries that hold unspecified values: entry i of queue q. -/
def scrambleFeed (s : State) (n width : Nat) (f : Feed) : Feed :=
  { f with
    queues := f.queues.mapIdx fun q es => es.mapIdx fun i e => { e with lanes := scrambleCells s n (4 + 8 * q + i) width 64 } }

/-- After a DIAGWR to the register file or the stash, the vector registers, queues and stash of every group on the core hold unspecified
values (R284). -/
def scrambleCore (s : State) (site core : Nat) : State :=
  let onCore (t : Team) : Bool := t.site == site && t.core == core
  let mine (g : Group) : Bool := ((tblGet s.teams g.team).map onCore).getD false
  let lose (e : Nat × Group) : Nat × Group :=
    if mine e.2 then
      let w := e.2.width
      (e.1, { e.2 with
        v := scrambleCells s e.1 0 w 3072
        q := scrambleCells s e.1 1 w 1024
        hq := scrambleCells s e.1 2 w 1024
        feed := e.2.feed.map (scrambleFeed s e.1 w) })
    else e
  let s1 := { s with groups := s.groups.map lose }
  s1.teams.foldl (fun s2 e =>
    if onCore e.2 then
      { s2 with mem := writeBytes s2.mem (stashLoc e.1 0) ((List.range e.2.stash).map fun k => (scrambled s e.1 3 k).truncate 8) }
    else s2) s1

/-- DIAGWR (R281 to R284). -/
def execDiagwr (row : BitVec 7) (src : BitVec 7) (arr : BitVec 4) (word : BitVec 5) (s : State) : MRes :=
  onGroup s fun g =>
    let r := (usrc s g tInt 0 row).toNat
    let x := usrc s g tInt 1 src
    if !diagOk s g arr.toNat r then trapAt s s.cur 0x3B (small r)
    else
      let w := groupWho s s.cur g
      let rep := ((w.core.bind (tblGet s.cores)).map (·.repair)).getD []
      let k := diagCell s.draws rep arr.toNat r word.toNat
      let s1 := s.upCore (w.core.getD 0) fun c =>
        match arr.toNat with
        | 0 => { c with rf := tblSet c.rf k x }
        | 1 => { c with stashRaw := tblSet c.stashRaw k x }
        | _ => { c with repair := cellSet c.repair r (repairEntry x) }
      let s2 := if arr = 2 then s1 else scrambleCore s1 w.site (((teamOf s g).map (·.core)).getD 0)
      s2.upGroup s.cur (advance 2)

end Sys2Proof.Machine
end

