-- ==== Sys2Proof/Machine/Boot.lean ====
section
/-!
DEFINITION. Across power cycles (R459 to R469): the flash, the retirement log and its appends, boot, Safelight and attestation.
-/
namespace Sys2Proof.Machine

/-! ### The flash (R459) -/

def flashByte (s : State) (a : Nat) : Byte := (tblGet s.flash a).getD (Config.flashAtShipping a)

def flashBytes (s : State) (a n : Nat) : List Byte := (List.range n).map fun i => flashByte s (a + i)

/-- The flash with some bytes written from offset a up. -/
def putFlash (s : State) (a : Nat) (bs : List Byte) : State :=
  { s with flash := (List.range bs.length).foldl (fun f i => tblSet f (a + i) (bs.getD i 0)) s.flash }

def mapOffset : Nat := 0x2000000
def logOffset : Nat := 0x2010000

/-! ### The image and the dodge map (R460, R461) -/

/-- PK of an image whose key is the fused one. -/
def imageKey (bs : List Byte) : Option (List Byte) :=
  let pk := (bs.drop 80).take 1952
  if Config.shake256 pk = Config.fusedKeyDigest then some pk else none

/-- An image, its header followed by its body, verifies. -/
def imageOk (bs : List Byte) : Bool :=
  bytesNum bs 0 4 == 0x4D420048 && decide (Config.fusedMinVersion ≤ bytesNum bs 4 4) &&
    decide (1 ≤ bytesNum bs 8 8) && decide (bytesNum bs 8 8 ≤ 33546240) && bytesNum bs 5341 2851 == 0 &&
    Config.shake256 ((bs.drop 8192).take (bytesNum bs 8 8)) == (bs.drop 16).take 64 &&
    match imageKey bs with
    | some pk => Config.mldsaValid pk (bs.take 2032) ((bs.drop 2032).take 3309)
    | none => false

/-- The image in flash. -/
def flashImage (s : State) : List Byte := flashBytes s 0 (8192 + leNat (flashBytes s 8 8))

/-- OUT of a dodge map. -/
def mapOut (bs : List Byte) : Nat := bytesNum bs 12 8

/-- A dodge map verifies with a key. -/
def dodgeOk (pk : Option (List Byte)) (bs : List Byte) : Bool :=
  bytesNum bs 0 4 == 0x444D0048 && bytesNum bs 4 8 == Config.fusedSerial % 2 ^ 64 && decide (mapOut bs < 2 ^ 48) &&
    decide (((List.range 48).filter fun k => mapOut bs / 2 ^ k % 2 == 1).length ≤ 3) && bytesNum bs 44 20 == 0 && bytesNum bs 3373 4819 == 0 &&
    match pk with
    | some pk => Config.mldsaValid pk (bs.take 64) ((bs.drop 64).take 3309)
    | none => false

/-- The dodge map in flash. -/
def flashMap (s : State) : List Byte := flashBytes s mapOffset 8192

/-! ### The retirement log (R466) -/

/-- The flash offset of a record. -/
def recordAt (page slot : Nat) : Nat := logOffset + 4096 * page + 160 * slot

/-- The header of a record. -/
def recordHdr (seq : Nat) : List Byte := leBytes 4 0x52455431 ++ leBytes 4 seq ++ leBytes 8 0

/-- CH of a record after one with digest `prev`. -/
def chain (prev : List Byte) (seq : Nat) (body : List Byte) : List Byte := Config.shake256 (prev ++ recordHdr seq ++ body)

/-- Sixty-four zero bytes. -/
def noDigest : List Byte := List.replicate 64 0

/-- A valid record number seq after a digest. -/
def recordOkAt (bs : List Byte) (prev : List Byte) (seq : Nat) : Bool :=
  bs.take 16 == recordHdr seq && (bs.drop 80).take 64 == chain prev seq ((bs.drop 16).take 64) && bytesNum bs 144 8 == 0xC0DE0001

/-- Bytes that are erased. -/
def erased (bs : List Byte) : Bool := bs.all (· == 0xFF)

/-- What the log holds as it is read: its records' bodies, the last digest, and where the next append goes; `torn` once a record is not
valid. -/
structure LogView where
  bodies : List (List Byte) := []
  ch : List Byte := noDigest
  page : Nat := 0
  slot : Nat := 0
  torn : Option Nat := none

/-- One slot of the log is read: an erased slot holds no record. -/
def readSlot (s : State) (page : Nat) (v : LogView) (slot : Nat) : LogView :=
  let bs := flashBytes s (recordAt page slot) 160
  if v.torn.isSome || erased bs then v
  else if recordOkAt bs v.ch v.bodies.length then
    { v with bodies := v.bodies ++ [(bs.drop 16).take 64], ch := (bs.drop 80).take 64,
             page := if slot = 24 then page + 1 else page, slot := if slot = 24 then 0 else slot + 1 }
  else { v with torn := some page }

/-- The first wholly erased page after a page, or the number of pages where none is left. -/
def erasedPage (s : State) (after : Nat) : Nat :=
  ((List.range logPages).find? fun p => decide (after < p) && erased (flashBytes s (logOffset + 4096 * p) 4096)).getD logPages

/-- The log in flash: after a torn tail the next append starts at the next wholly erased page. Log entry 75 (DEDUCED). -/
def readLog (s : State) : LogView :=
  let v := (List.range logPages).foldl (fun v p => (List.range 25).foldl (readSlot s p) v) {}
  match v.torn with
  | some p => { v with page := erasedPage s p, slot := 0 }
  | none => v

/-- The next step of the append under way (R466): the header, the body, the digest, and last the commit word. -/
def advanceLog (s : State) : State :=
  match s.appends with
  | [] => s
  | body :: rest =>
    let a := recordAt s.logPage s.logSlot
    let ch := chain s.logCh s.logSeq body
    if logPages ≤ s.logPage then { s with appends := rest }
    else
      match s.appendStage with
      | 0 => { putFlash s a (recordHdr s.logSeq) with appendStage := 1 }
      | 1 => { putFlash s (a + 16) body with appendStage := 2 }
      | 2 => { putFlash s (a + 80) ch with appendStage := 3 }
      | _ =>
        { putFlash s (a + 144) (leBytes 8 0xC0DE0001) with
          appendStage := 0
          appends := rest
          logSeq := s.logSeq + 1
          logCh := ch
          logPage := if s.logSlot = 24 then s.logPage + 1 else s.logPage
          logSlot := if s.logSlot = 24 then 0 else s.logSlot + 1 }

/-! ### Boot (R462 to R465, R467) -/

/-- An outcome of boot that the spec leaves open: the self-test of a site (0), the training of its stack (1), the lock of an oscillator
(2 + i). Log entry 76 (DEDUCED). -/
def bootFails (s : State) (site what : Nat) : Bool := Config.freeBool s.draws (2 ^ 60 + 8 * site + what)

/-- The oscillators that the dodge map or the log names as dead, that a fuse has cut out, or that fail to lock. -/
def deadOscillators (s : State) (map : List Byte) (v : LogView) (site : Nat) : List Nat :=
  (List.range 4).filter fun i =>
    bytesNum map 20 24 / 2 ^ (4 * site + i) % 2 == 1 || s.oscFused.contains (4 * site + i) || bootFails s site (2 + i) ||
      v.bodies.any fun b => bytesNum b 9 1 == 8 && bytesNum b 10 1 == site && bytesNum b 12 4 == i

/-- The oscillators of the sites that fail to lock now and that no fuse has cut out: each is recorded. -/
def newlyDead (s : State) (sites : List Nat) : List (Nat × Nat) :=
  sites.flatMap fun k => ((List.range 4).filter fun i => bootFails s k (2 + i) && !s.oscFused.contains (4 * k + i)).map fun i => (k, i)

/-- The sites that hear one of the others. -/
def heardSites (sites : List Nat) : List Nat :=
  if sites.length ≤ 1 then sites else sites.filter fun k => (neighbours k).any fun e => sites.contains e.2

/-! ### The march test (R470 to R474) -/

/-- The row index of row 0 of a bank: of the 64 of the register file, by partition and bank, and the 64 of the stash (R282, R471). -/
def bankBase (arr bank : Nat) : Nat := if arr = 0 then bank / 16 * 2 ^ 16 + bank % 16 * 2 ^ 12 else bank * 2 ^ 8

/-- The rows in the order of a march element: element 2 descends (R471). -/
def marchOrder (e n : Nat) : List Nat := if e = 2 then (List.range n).reverse else List.range n

/-- The word that an element's reads are checked against (R471). -/
def marchExpects (e : Nat) : Word := if e = 2 then BitVec.allOnes 32 else 0

/-- What element e reads at a row: what the element before wrote, or on a defective row any word. -/
def marchRead (draws core : Nat) (bad : List (Nat × Nat)) (e arr row : Nat) : Word :=
  if bad.contains (arr, row) then Config.freeWord draws (2 ^ 62 + ((core * 2 + arr) * 2 ^ 18 + row) * 4 + e) else marchExpects e

/-- The rows of a bank whose checked reads mismatch, each once, in the order of their first mismatch (R472). -/
def failingRows (draws core : Nat) (bad : List (Nat × Nat)) (arr bank : Nat) : List Nat :=
  ([1, 2, 3].flatMap fun e =>
    ((marchOrder e (dataRows arr)).map (bankBase arr bank + ·)).filter fun row => marchRead draws core bad e arr row != marchExpects e).eraseDups

/-- The spares of a bank (R282). -/
def spareCount (arr : Nat) : Nat := if arr = 0 then 4 else 2

/-- A repair entry (R283). -/
def entryOf (arr row spare : Nat) : Word := BitVec.ofNat 32 (2 ^ 31 + arr % 2 * 2 ^ 30 + row % 2 ^ 18 * 2 ^ 12 + spare % 4 * 2 ^ 10)

/-- What the march test has found and written so far: the repair table, the entries written, RETIRE and OVBANK (R473). -/
structure Marched where
  repair : Cells 32 := []
  ent : Nat := 0
  retire : Bool := false
  ovbank : Nat := 0xFF

/-- A failing row takes the next entry, while there is one. -/
def marchEntry (arr : Nat) (m : Marched) (x : Nat × Nat) : Marched :=
  if 256 ≤ m.ent then { m with retire := true }
  else { m with repair := cellSet m.repair m.ent (entryOf arr x.1 x.2), ent := m.ent + 1 }

/-- A bank is tested: with more failing rows than spares it gets no entry; else its rows have spares from 0 in the order of their first
mismatch, and the kernel writes the newest row's entry first (R472). -/
def marchBank (draws core : Nat) (bad : List (Nat × Nat)) (arr : Nat) (m : Marched) (bank : Nat) : Marched :=
  let rows := failingRows draws core bad arr bank
  if spareCount arr < rows.length then { m with retire := true, ovbank := 64 * arr + bank }
  else ((List.range rows.length).reverse.filterMap fun i => (rows[i]?).map fun r => (r, i)).foldl (marchEntry arr) m

/-- The march test of a core: the banks of the register file, then those of the stash (R471). -/
def marchCore (draws core : Nat) : Marched :=
  let bad := Config.freeRows draws core
  (List.range 64).foldl (marchBank draws core bad 1) ((List.range 64).foldl (marchBank draws core bad 0) {})

/-- The status word (R473). -/
def statusOf (m : Marched) : Word := BitVec.ofNat 32 ((if m.retire then 2 ^ 31 else 0) + m.ent * 2 ^ 16 + m.ovbank * 2 ^ 8)

/-- The core as Mboash launches the kernel on it: DIAGMODE.TEST is 1 (R470). -/
def testCore : Core := { freshCore with test := true }

/-- The group of the kernel's team: 64 lanes, with the address of the status word in s2:s3 and every other uniform register 0 (R470). -/
def marchGroup (core : Nat) : Group :=
  let a := BitVec.ofNat 64 (siteLoc (core / 48) (Config.statusWord (core % 48)))
  freshGroup 0 0 64 0 [0, 0, lo32 a, hi32 a]

/-- The location that a group's s2:s3 names. -/
def statusAt (g : Group) : Nat := (pair (cellGet g.s 2) (cellGet g.s 3)).toNat

/-- The kernel raises a trap, and so with TRAPVEC 0 a double fault, before it has written its status word (R470). Log entry 76 (DEDUCED). -/
def marchTraps (s : State) (core : Nat) : Bool := Config.freeBool s.draws (2 ^ 61 + core)

/-- What the kernel leaves when its group ends: its repair entries and its status word, or after a trap some of the entries and the status
word as Mboash wrote it. -/
def runMarch (s : State) (core : Nat) : Cells 32 × Word :=
  let m := marchCore s.draws core
  if marchTraps s core then (m.repair.take (Config.freeIndex s.draws (2 ^ 61 + core) % 257), BitVec.allOnes 32) else (m.repair, statusOf m)

/-- The rows of a core that the retirement log records (R465). -/
def loggedRows (v : LogView) (core : Nat) : List (Nat × Nat) :=
  (v.bodies.filterMap fun b =>
    let p := Config.rowPlace (BitVec.ofNat 32 (bytesNum b 12 4))
    if bytesNum b 9 1 = 0 ∧ bytesNum b 10 1 = core / 48 ∧ p.1 = core % 48 then some p.2 else none).eraseDups

/-- A row takes the lowest spare of its bank that no valid entry names; none where the bank or the table has none left (R465, R472). -/
def addRow (repair : Option (Cells 32)) (x : Nat × Nat) : Option (Cells 32) :=
  repair.bind fun rep =>
    let taken (spare : Nat) : Bool := rep.any fun e =>
      let n := e.2.toNat
      bits n 31 31 == 1 && bits n 30 30 == x.1 && bits n 29 12 / 256 == x.2 / 256 && bits n 11 10 == spare
    if (spareNamed rep x.1 x.2).isSome then some rep
    else
      match (List.range (spareCount x.1)).find? fun k => !taken k, (List.range 256).find? fun k => (tblGet rep k).isNone with
      | some spare, some k => some (cellSet rep k (entryOf x.1 x.2 spare))
      | _, _ => none

/-- Phase 7 on a core: Mboash writes the status word, the kernel runs, the recorded rows join the table, and TEST is cleared; the core is
retired where its status word says so, or still reads as before, or a row has no spare (R462, R465, R470). -/
def bootCore (s : State) (v : LogView) (core : Nat) : State :=
  let at_ := statusAt (marchGroup core)
  let s1 := { s with cores := tblSet s.cores core testCore, mem := writeNum s.mem at_ 4 0xFFFFFFFF }
  let r := runMarch s1 core
  let s2 := { s1 with mem := writeNum s1.mem at_ 4 r.2.toNat }
  let word := readNum s2.mem at_ 4
  let table := (loggedRows v core).foldl addRow (some r.1)
  s2.upCore core fun c =>
    { c with test := false, repair := table.getD r.1, retired := word == 0xFFFFFFFF || decide (2 ^ 31 ≤ word) || table.isNone }

/-- The name block (R378, R379, R390): the k-th live site takes name k. -/
def nameBytes (live : List Nat) : List Byte :=
  let n := live.length
  let name (k : Nat) : Nat := match live[k]? with
    | some site => 2 ^ 63 + site * 2 ^ 55 + 0x800000 * 2 ^ 7
    | none => 0
  let entry (e : Nat) : Nat := 2 ^ 31 + e % n * 2 ^ 25 + (4096 / n + if e % n < 4096 % n then 1 else 0) * 2 ^ 12 + e / n
  (List.range 64).flatMap (fun k => leBytes 8 (name k)) ++ (List.range 4096).flatMap (fun e => leBytes 4 (entry e)) ++ leBytes 64 0

/-- The header of the event ring (R387, R451). -/
def ringHeader (site : Nat) : List Byte :=
  leBytes 16 0 ++ leBytes 4 Config.ringSlots ++ leBytes 4 0 ++ leBytes 8 (siteLoc site Config.ringRecords) ++ leBytes 32 0

/-- The boot report (R467). -/
def reportBytes (live : List Nat) (v : LogView) (retired : Bool) (digest : List Byte) : List Byte :=
  leBytes 8 (live.foldl (fun a k => a + 2 ^ k) 0) ++ leBytes 1 (live.headD 0) ++
    leBytes 1 ((if logPages ≤ v.page then 1 else 0) + if retired then 2 else 0) ++ leBytes 2 Config.panelNumber ++
    leBytes 4 v.bodies.length ++ leBytes 8 Config.eventRing ++ digest ++ leBytes 8 Config.reserved ++ leBytes 160 0

/-- The sites that run, of those that passed their self-test: heard by another, with an oscillator left and a trained stack. -/
def bootSites (s : State) (map : List Byte) (v : LogView) (sites : List Nat) : List Nat :=
  sites.filter fun k => (deadOscillators s map v k).length != 4 && !bootFails s k 1

/-- Phases 5 to 8 with these live sites. The sites that were powered and are lost are in every die's mask. Log entry 47 (DEDUCED). -/
def bootLive (s : State) (map : List Byte) (v : LogView) (powered live : List Nat) : State :=
  let lost := powered.filter fun k => !live.contains k
  let mask := BitVec.ofNat 64 (lost.foldl (fun a k => a + 2 ^ k) 0)
  let lead := live.headD 0
  let die : Die := { freshDie with nametbl := BitVec.ofNat 64 (siteLoc lead Config.bootNames), lost := mask }
  let ids (n : Nat) : List Nat := live.flatMap fun k => (List.range n).map fun i => n * k + i
  let tested := (ids 48).foldl (fun s c => bootCore s v c) { s with cores := [] }
  let retired := tested.cores.filter fun e => e.2.retired
  let dead := newlyDead s live
  let report := reportBytes live v (retired != []) (flashBytes s 16 64)
  let s1 : State :=
    { tested with
      phase := .running
      clock := 0
      dies := live.map fun k => (k, die)
      trays := (ids 3).map fun t => (t, freshTray)
      siteLost := lost
      oscFused := (s.oscFused ++ live.flatMap fun k => (deadOscillators s map v k).map fun i => 4 * k + i).dedup
      logPage := v.page
      logSlot := v.slot
      logSeq := v.bodies.length
      logCh := v.ch
      report := report }
  let partnered (e : Nat × Die) : Nat × Die := (e.1, { e.2 with fixer := { e.2.fixer with partner := partnerFor s1 e.1 } })
  let s2 := { s1 with dies := s1.dies.map partnered }
  let s3 := live.foldl (fun s k => { s with mem := writeBytes s.mem (siteLoc k Config.eventRing) (ringHeader k) }) s2
  let s4 := { s3 with mem := writeBytes (writeBytes s3.mem (siteLoc lead Config.bootNames) (nameBytes live)) (siteLoc lead 0) report }
  let s5 := dead.foldl (fun s x => recordCrossing s { kind := 1, unit := 8, site := x.1, index := x.2 }) s4
  let s6 := retired.foldl (fun s e => recordEvent s { kind := 4, unit := 4, site := e.1 / 48, index := e.1 % 48 }) s5
  lost.foldl (fun s k => recordEvent s { kind := 3, unit := 7, site := k }) s6

/-- POWER_ON (R462): the boot of an unpowered package, up to the opening of the host queues, or into Safelight. With no live site nothing
runs. -/
def execPowerOn (s : State) : EvRes :=
  .next (if s.phase ≠ .unbooted then s
    else
      let img := flashImage s
      let map := flashMap s
      if imageOk img = false ∨ dodgeOk (imageKey img) map = false then { s with phase := .safelight }
      else
        let v := readLog s
        let powered := (List.range 48).filter fun k => mapOut map / 2 ^ k % 2 == 0
        let live := bootSites s map v (heardSites (powered.filter fun k => !bootFails s k 0))
        if live = [] then s else bootLive s map v powered live)

/-- The state after the panel loses its power or resets: the flash and the fuses stand (R459). Log entry 77 (DEDUCED). -/
def powerCycle (s : State) : State :=
  { State.reset with
    flash := s.flash
    oscFused := s.oscFused
    outputs := s.outputs
    agenda := s.agenda
    fresh := s.fresh
    draws := s.draws }

/-- POWER_LOSS (R459, R466). -/
def execPowerLoss (s : State) : EvRes := .next (powerCycle s)

/-! ### Safelight (R468) -/

/-- A candidate image or dodge map verifies. Log entry 78 (DEDUCED). -/
def candidateOk (s : State) (isMap : Bool) (bs : List Byte) : Bool :=
  if isMap then bs.length == 8192 && dodgeOk (imageKey (flashBytes s 0 8192)) bs else bs.length == 8192 + bytesNum bs 8 8 && imageOk bs

/-- SAFELIGHT_CANDIDATE_WRITE: a candidate that verifies is written and the panel resets; another is refused. -/
def execSafelightCandidateWrite (isMap : Bool) (bytes : List (BitVec 8)) (s : State) : EvRes :=
  .next (if s.phase ≠ .safelight then s
    else if candidateOk s isMap bytes then
      powerCycle { putFlash s (if isMap then mapOffset else 0) bytes with outputs := s.outputs ++ [.candidateWritten] }
    else { s with outputs := s.outputs ++ [.candidateRefused] })

/-! ### Attestation (R469) -/

/-- The extended-algorithm structures of ML-DSA-65 and SHAKE256. -/
def algAsym : Word := 0xE0010000
def algHash : Word := 0xE0020000

/-- A host port answers SPDM: it is trained, the package has power, and its connection is not closed. -/
def spdmOpen (s : State) (port : Nat) : Bool := s.ports.contains port && s.phase != .unbooted && !s.spdmClosed.contains port

/-- SPDM_NEGOTIATE_ALGORITHMS: both extended algorithms are selected, or the request is refused and the connection served no further. -/
def execSpdmNegotiateAlgorithms (port : Nat) (asym hash : List (BitVec 32)) (s : State) : EvRes :=
  .next (if !spdmOpen s port then s
    else if asym.contains algAsym && hash.contains algHash then { s with outputs := s.outputs ++ [.spdmAlgorithms algAsym algHash] }
    else { s with outputs := s.outputs ++ [.spdmUnsupported], spdmClosed := port :: s.spdmClosed })

/-- The measurement of an index. -/
def measurement (s : State) (index : Nat) : Option (List Byte) :=
  match index with
  | 1 => some Config.romDigest
  | 2 => some (flashBytes s 16 64)
  | 3 => some (Config.shake256 (flashBytes s mapOffset 64))
  | 4 => some (readLog s).ch
  | 5 => some (if s.phase = .running then s.report.take 8 ++ (s.report.drop 9).take 1 else leBytes 9 0)
  | _ => none

/-- SPDM_GET_MEASUREMENTS. -/
def execSpdmGetMeasurements (port : Nat) (index : Nat) (s : State) : EvRes :=
  .next (match measurement s index with
    | some m => if spdmOpen s port then { s with outputs := s.outputs ++ [.spdmMeasurement index m (Config.mldsaSign m)] } else s
    | none => s)

end Sys2Proof.Machine
end

