-- ==== Sys2Proof/Machine/MxMath.lean ====
section
/-!
DEFINITION. What the matrix engine computes: the elements of its operands (R88, R89, R202), the steps of an MMA (R100, R101, R204, R206),
the conversions and activations of the tile instructions (R213), and block scaling (R215).
-/
namespace Sys2Proof.Machine

/-! ### Tiles -/

/-- Cells lo to lo + n − 1 of some cells take the values of f. -/
def setRange {w : Nat} (c : Cells w) (lo n : Nat) (f : Nat → BitVec w) : Cells w :=
  (c.filter fun e => decide (e.1 < lo)) ++
    ((List.range n).filterMap fun i => if f i = 0 then none else some (lo + i, f i)) ++ c.filter fun e => decide (lo + n ≤ e.1)

/-- The cell of element (m, n) of a tile. -/
def accCell (tile m n : Nat) : Nat := 4096 * tile + 64 * m + n

/-- Element (m, n) of a tile as a code of F32. -/
def accGet (acc : Cells 32) (tile m n : Nat) : Nat := (cellGet acc (accCell tile m n)).toNat

/-- The codes of a table by row and column, from a list of 4096 results. -/
def tilePut (acc : Cells 32) (tile : Nat) (xs : List (Nat × Fp.Flags)) : Cells 32 :=
  setRange acc (accCell tile 0 0) 4096 fun i => BitVec.ofNat 32 (xs.getD i (0, 0)).1

/-- The results of every element of a tile, by row and then column. -/
def tileMap (f : Nat → Nat → Nat × Fp.Flags) : List (Nat × Fp.Flags) :=
  (List.range 64).flatMap fun m => (List.range 64).map fun n => f m n

/-- The flags of some results. -/
def flagsOf (xs : List (Nat × Fp.Flags)) : Fp.Flags := xs.foldl (fun a x => a ||| x.2) 0

/-! ### Operands (R88, R89, R202) -/

/-- The bits of an element of a format pair, K of a step, and its blocks. -/
def mxBits (fmt : Nat) : Nat := if fmt < 4 then 8 else if fmt < 6 then 4 else 16
def mxK (fmt : Nat) : Nat := 256 / mxBits fmt
def mxBlocks (fmt : Nat) : Nat := mxK fmt / 32

/-- The bytes of a B image (R202). -/
def imageSize (fmt : Nat) : Nat := if fmt < 6 then 2176 else 2048

/-- The value of a code of A, and of B, in a format pair. -/
def aValue (fmt code : Nat) : Fp.Val :=
  match fmt with
  | 0 | 1 => Fp.value Fp.k8 code
  | 2 => Fp.value Fp.k8w code
  | 3 => Fp.ofInt (Fp.toInt 8 code)
  | 4 => Fp.value Fp.k4 code
  | 5 => Fp.ofInt (Fp.toInt 4 code)
  | 6 => Fp.value Fp.f16 code
  | _ => Fp.value Fp.bf16 code

def bValue (fmt code : Nat) : Fp.Val :=
  match fmt with
  | 0 | 2 => Fp.value Fp.k8 code
  | 1 => Fp.value Fp.k8w code
  | _ => aValue fmt code

/-- Element (m, k) of A. -/
def aElem (fmt : Nat) (a : Cells 8) (m k : Nat) : Nat :=
  leNat (readBytes a (32 * m) 32) / 2 ^ (mxBits fmt * k) % 2 ^ mxBits fmt

/-- The scale of row m, block j. -/
def aScale (ns : Bool) (a : Cells 8) (m j : Nat) : Nat := if ns then 127 else (cellGet a (2048 + 2 * m + j)).toNat

/-- Element (k, n) of a B image. -/
def bElem (fmt : Nat) (b : Cells 8) (k n : Nat) : Nat :=
  match mxBits fmt with
  | 8 => (cellGet b (64 * k + n)).toNat
  | 4 => (cellGet b (32 * k + n / 2)).toNat / 16 ^ (n % 2) % 16
  | _ => (cellGet b (128 * k + 2 * n)).toNat + 256 * (cellGet b (128 * k + 2 * n + 1)).toNat

/-- The scale of column n, block j. -/
def bScale (ns : Bool) (b : Cells 8) (n j : Nat) : Nat := if ns then 127 else (cellGet b (2048 + 64 * j + n)).toNat

/-! ### Narrow steps (R100) -/

/-- A value of a narrow format in units of 2^-24. -/
def fix24 : Fp.Val → Int
  | .fin neg num den => if neg then -((num * 2 ^ 24 / den : Nat) : Int) else ((num * 2 ^ 24 / den : Nat) : Int)
  | _ => 0

/-- blk: the exact sum of a block's products, scaled and converted once. -/
def mxBlk (w : Int) (sa sb : Nat) : Nat × Fp.Flags :=
  if sa = 255 ∨ sb = 255 then (Fp.f32.canon, Fp.NB)
  else Fp.cvt Fp.f32 (Fp.scaled (decide (w < 0)) w.natAbs 1 (-48 + ((sa : Int) - 127) + ((sb : Int) - 127))) 0

/-- One narrow step of element (m, n): its blocks in ascending K. -/
def narrowStep (fmt : Nat) (ns : Bool) (a b : Cells 8) (d m n : Nat) : Nat × Fp.Flags :=
  (List.range (mxBlocks fmt)).foldl (fun (r : Nat × Fp.Flags) q =>
    let w := (List.range 32).foldl (fun (acc : Int) i =>
      acc + fix24 (aValue fmt (aElem fmt a m (32 * q + i))) * fix24 (bValue fmt (bElem fmt b (32 * q + i) n))) 0
    let x := mxBlk w (aScale ns a m q) (bScale ns b n q)
    let y := Fp.add Fp.f32 0 0 r.1 x.1
    (y.1, r.2 ||| x.2 ||| y.2)) (d, 0)

/-! ### 16-bit steps (R101, R206) -/

/-- One node of tree16. -/
def node16 (x y : Fp.Val) : Fp.Val × Fp.Flags :=
  let s := Fp.addV 0 x y
  let c := Fp.cvt Fp.f32 s.1 0
  (Fp.value Fp.f32 c.1, s.2 ||| c.2)

/-- One level of tree16. -/
def level16 : List Fp.Val → List Fp.Val × Fp.Flags
  | x :: y :: rest =>
    let n := node16 x y
    let r := level16 rest
    (n.1 :: r.1, n.2 ||| r.2)
  | xs => (xs, 0)

/-- tree16: levels of pairs. -/
def tree16 : Nat → List Fp.Val → List Fp.Val × Fp.Flags
  | 0, xs => (xs, 0)
  | k + 1, xs =>
    let l := level16 xs
    let r := tree16 k l.1
    (r.1, l.2 ||| r.2)

/-- mma16_step with the sixteen values of B for the column. -/
def step16 (fmt : Nat) (a : Cells 8) (bs : List Fp.Val) (d m : Nat) : Nat × Fp.Flags :=
  let av := (List.range 16).map fun k => aValue fmt (aElem fmt a m k)
  let ps := av.zipWith Fp.mulV bs
  let r := tree16 4 (ps.map (·.1))
  let s := Fp.addV 0 (Fp.value Fp.f32 d) (r.1.headD (.fin false 0 1))
  let c := Fp.cvt Fp.f32 s.1 0
  (c.1, c.2 ||| s.2 ||| r.2 ||| Fp.sigNV (Fp.value Fp.f32 d :: (av ++ bs)) ||| ps.foldl (fun a p => a ||| p.2) 0)

/-- Some runs of 2^m codes of a list transformed by hadamard() (R106). -/
def hadRuns (m : Nat) : Nat → List Nat → List Nat × Fp.Flags
  | 0, _ => ([], 0)
  | k + 1, xs =>
    let h := Fp.hadamard m (xs.take (2 ^ m))
    let r := hadRuns m k (xs.drop (2 ^ m))
    (h.1 ++ r.1, h.2 ||| r.2)

/-- The points of a transform: H or N code 1, 2, 3 for 16, 32, 64, as a power of two. -/
def hadLog (h : Nat) : Nat := h + 3

/-- Row k of the B image as F32 codes, transformed where H is set (R206), with the flags of its signalling elements (R83) and of the
transform. -/
def bhRow (fmt h : Nat) (b : Cells 8) (k : Nat) : List Nat × Fp.Flags :=
  let vs := (List.range 64).map fun n => bValue fmt (bElem fmt b k n)
  let xs := vs.map fun v => (Fp.cvt Fp.f32 v 0).1
  if h = 0 then (xs, 0)
  else
    let r := hadRuns (hadLog h) (64 / 2 ^ hadLog h) xs
    (r.1, r.2 ||| Fp.sigNV vs)

/-- The sixteen rows of Bh as values, by column. -/
def bhColumns (fmt h : Nat) (b : Cells 8) : List (List Fp.Val) × Fp.Flags :=
  let rows := (List.range 16).map fun k => bhRow fmt h b k
  let vals (n k : Nat) : Fp.Val :=
    if h = 0 then bValue fmt (bElem fmt b k n) else Fp.value Fp.f32 ((rows.getD k ([], 0)).1.getD n 0)
  ((List.range 64).map fun n => (List.range 16).map (vals n), rows.foldl (fun a r => a ||| r.2) 0)

/-! ### A pass (R204) -/

/-- What an MMA reads besides its position: FMT, NS, H. -/
structure MmaForm where
  fmt : Nat
  ns : Bool
  h : Nat
deriving DecidableEq, Repr

/-- Pass p of a tile step: rows 16p to 16p + 15 of a tile, with their flags. -/
def mmaPass (f : MmaForm) (a b : Cells 8) (acc : Cells 32) (tile p : Nat) : Cells 32 × Fp.Flags :=
  let cols := if f.fmt < 6 then ([], 0) else bhColumns f.fmt f.h b
  let elem (m n : Nat) : Nat × Fp.Flags :=
    let d := accGet acc tile m n
    if f.fmt < 6 then narrowStep f.fmt f.ns a b d m n else step16 f.fmt a (cols.1.getD n []) d m
  let xs := (List.range 16).flatMap fun i => (List.range 64).map fun n => elem (16 * p + i) n
  (setRange acc (accCell tile (16 * p) 0) 1024 fun i => BitVec.ofNat 32 (xs.getD i (0, 0)).1, flagsOf xs ||| cols.2)

/-! ### Tile instructions (R213) -/

/-- The format of ACCLD, ACCST and ACCEPI by its code, and the bytes of an element. -/
def outFmt (t : Nat) : Fp.Fmt := [Fp.f32, Fp.f16, Fp.bf16, Fp.k8, Fp.k8w].getD t Fp.f32
def outSize (t : Nat) : Nat := [4, 2, 2, 1, 1].getD t 4

/-- A code of F32 is a NaN. -/
def nan32 (x : Nat) : Bool := Fp.isNan (Fp.value Fp.f32 x)

/-- silu(y) as R213 computes it. -/
def silu (y : Nat) : Nat × Fp.Flags :=
  if y = 0xFF800000 then (0x80000000, 0)
  else
    let t := Fp.mul Fp.f32 0 0 y 0xBFB8AA3B
    let u := Fp.fexp2 t.1
    let w := Fp.add Fp.f32 0 0 0x3F800000 u.1
    let r := Fp.frcp w.1
    let z := Fp.mul Fp.f32 0 0 y r.1
    (z.1, t.2 ||| u.2 ||| w.2 ||| r.2 ||| z.2)

/-- act(y): 0 none, 1 relu, 2 leaky, 3 silu. -/
def activate (act y : Nat) : Nat × Fp.Flags :=
  let v := Fp.value Fp.f32 y
  if act = 0 then (y, 0)
  else if Fp.isNan v then (Fp.f32.canon, 0)
  else
    match act with
    | 1 => (if Fp.ltV (.fin false 0 1) v then y else 0, 0)
    | 2 => if Fp.ltV v (.fin false 0 1) then Fp.mul Fp.f32 0 0 y 0x3E000000 else (y, 0)
    | _ => silu y

/-- The element of ACCEPI: scaled by alpha, with a bias, activated and converted. -/
def epiElem (t rm r act alpha : Nat) (bias : Option Nat) (x : Nat) : Nat × Fp.Flags :=
  let y0 := Fp.mul Fp.f32 0 0 x alpha
  let y1 := match bias with
    | some b => let z := Fp.add Fp.f32 0 0 y0.1 b; (z.1, z.2 ||| y0.2)
    | none => y0
  let y2 := activate act y1.1
  let e := Fp.cvt (outFmt t) (Fp.value Fp.f32 y2.1) rm r
  (e.1, y1.2 ||| y2.2 ||| e.2)

/-- HADT: each row, or each column, in aligned runs (R213). -/
def hadTile (acc : Cells 32) (src m : Nat) (col : Bool) : List (Nat × Fp.Flags) :=
  let line (i : Nat) : List Nat × Fp.Flags :=
    hadRuns m (64 / 2 ^ m) ((List.range 64).map fun j => if col then accGet acc src j i else accGet acc src i j)
  let ls := (List.range 64).map line
  tileMap fun r c => if col then ((ls.getD c ([], 0)).1.getD r 0, (ls.getD c ([], 0)).2) else ((ls.getD r ([], 0)).1.getD c 0, (ls.getD r ([], 0)).2)

/-! ### Block scaling (R215) -/

/-- The bits of an element of QBLK's FMT: 0 .k8, 1 .k8w, 2 .k4, 3 .i8, 4 .i4. -/
def qBits (fmt : Nat) : Nat := if fmt = 2 ∨ fmt = 4 then 4 else 8

/-- E of a format. -/
def qExp (fmt : Nat) : Int := [7, 15, 2, 6, 2].getD fmt 7

/-- The value of a code. -/
def qValue (fmt code : Nat) : Fp.Val :=
  match fmt with
  | 0 => Fp.value Fp.k8 code
  | 1 => Fp.value Fp.k8w code
  | 2 => Fp.value Fp.k4 code
  | 3 => Fp.ofInt (Fp.toInt 8 code)
  | _ => Fp.ofInt (Fp.toInt 4 code)

/-- cvt(x, fmt, RM, r): a saturating integer result raises SAT and NX in place of NV. -/
def qCvt (fmt : Nat) (x : Fp.Val) (rm r : Nat) : Nat × Fp.Flags :=
  let int (w : Nat) : Nat × Fp.Flags :=
    let i := Fp.cvtInt (-((2 ^ (w - 1) : Nat) : Int)) ((2 ^ (w - 1) - 1 : Nat) : Int) x rm r
    (Fp.ofIntMod w i.1, if i.2 % 2 = 1 then Fp.SAT ||| Fp.NX else i.2)
  match fmt with
  | 0 => Fp.cvt Fp.k8 x rm r
  | 1 => Fp.cvt Fp.k8w x rm r
  | 2 => Fp.cvt Fp.k4 x rm r
  | 3 => int 8
  | _ => int 4

/-- A value multiplied by 2^e. -/
def scaleVal (x : Fp.Val) (e : Int) : Fp.Val :=
  match x with
  | .fin n a b => Fp.scaled n a b e
  | v => v

/-- max |x| of finite values is at least as large as each: its exponent, none where every value is 0. -/
def topExp (xs : List Fp.Val) : Option Int :=
  xs.foldl (fun (m : Option Int) x =>
    match x with
    | .fin _ num den =>
      if num = 0 then m
      else some (match m with
        | some e => max e (Fp.exponent num den)
        | none => Fp.exponent num den)
    | _ => m) none

def isInf : Fp.Val → Bool
  | .inf _ => true
  | _ => false

/-- The scale code of a block of values. -/
def blockScale (fmt : Nat) (xs : List Fp.Val) : Nat :=
  if xs.any Fp.isNan then 255
  else if xs.any isInf then 254
  else match topExp xs with
    | none => 127
    | some e => (max 0 (min 254 (e - qExp fmt + 127))).toNat

/-- A block of 32 codes of F32: its scale code, its element codes and its flags, with a draw for each. -/
def quantise (fmt rm : Nat) (xs : List (Nat × Nat)) : Nat × List Nat × Fp.Flags :=
  let vs := xs.map fun x => (Fp.value Fp.f32 x.1, x.2)
  let c := blockScale fmt (vs.map (·.1))
  if c = 255 then (255, xs.map fun _ => 0, Fp.NV)
  else
    let ys := vs.map fun v => qCvt fmt (scaleVal v.1 (127 - (c : Int))) rm v.2
    (c, ys.map (·.1), flagsOf ys)

/-- The value that DQBLK gives an element. -/
def dequantise (fmt code c : Nat) : Nat × Fp.Flags :=
  if c = 255 then (Fp.f32.canon, Fp.NB) else Fp.cvt Fp.f32 (scaleVal (qValue fmt code) ((c : Int) - 127)) 0

/-- The tile element at image element (k, column n): transposed under .t. -/
def imageAt (tr : Bool) (k n : Nat) : Nat × Nat := if tr then (n, k) else (k, n)

/-- Where image element (k, n) of 64 by 64 stands, as bytes from S; and the scale of its block. -/
def imageByte (fmt k n : Nat) : Nat := if qBits fmt = 8 then 2176 * (k / 32) + 64 * (k % 32) + n else 32 * k + n / 2
def imageScale (fmt k n : Nat) : Nat := if qBits fmt = 8 then 2176 * (k / 32) + 2048 + n else 2048 + 64 * (k / 32) + n

/-- The 64 columns of two blocks each that QBLK makes, by column and then block. -/
def qBlocks (fmt rm : Nat) (tr : Bool) (x draw : Nat → Nat → Nat) : List (Nat × List Nat × Fp.Flags) :=
  (List.range 64).flatMap fun n => (List.range 2).map fun j =>
    quantise fmt rm ((List.range 32).map fun i => let e := imageAt tr (32 * j + i) n; (x e.1 e.2, draw e.1 e.2))

/-- Code of image element (k, n). -/
def qCode (bs : List (Nat × List Nat × Fp.Flags)) (k n : Nat) : Nat := (bs.getD (2 * n + k / 32) (0, [], 0)).2.1.getD (k % 32) 0

/-- The bytes of the images with their offsets from S. -/
def qBytes (fmt : Nat) (bs : List (Nat × List Nat × Fp.Flags)) : List (Nat × Byte) :=
  let elems := (List.range 64).flatMap fun k =>
    if qBits fmt = 8 then (List.range 64).map fun n => (imageByte fmt k n, BitVec.ofNat 8 (qCode bs k n))
    else (List.range 32).map fun n => (imageByte fmt k (2 * n), BitVec.ofNat 8 (qCode bs k (2 * n) + 16 * qCode bs k (2 * n + 1)))
  let scales := (List.range 2).flatMap fun j => (List.range 64).map fun n =>
    (imageScale fmt (32 * j) n, BitVec.ofNat 8 (bs.getD (2 * n + j) (0, [], 0)).1)
  elems ++ scales

/-- The bytes from S that a QBLK image takes (R215). -/
def qSize (fmt : Nat) : Nat := if qBits fmt = 8 then 4352 else 2176

/-- The tile that DQBLK reads from images in cells from 0 up. -/
def deqTile (fmt : Nat) (tr : Bool) (img : Cells 8) : List (Nat × Fp.Flags) :=
  tileMap fun m n =>
    let e := imageAt tr m n
    let raw := (cellGet img (imageByte fmt e.1 e.2)).toNat
    let code := if qBits fmt = 8 then raw else raw / 16 ^ (e.2 % 2) % 16
    dequantise fmt code (cellGet img (imageScale fmt e.1 e.2)).toNat

end Sys2Proof.Machine
end

