-- ==== Sys2Proof/Machine/Matrix.lean ====
section
/-!
DEFINITION. The quartet rendezvous (R194 to R196, R199, R299), the checks of matrix instructions (R200, R201, R223), the matrix engine's
queue and passes (R198, R204 to R211), and the effects of the tile instructions (R213 to R217).
-/
namespace Sys2Proof.Machine

abbrev MxRes := Host.Outcome State Fault Refusal

/-! ### Quartets -/

def quartetAt (s : State) (team k : Nat) : Option Quartet := (tblGet s.teams team).bind fun t => tblGet t.quartets k

def State.upQuartet (s : State) (team k : Nat) (f : Quartet → Quartet) : State :=
  s.upTeam team fun t => { t with quartets := tblUp t.quartets k f }

/-- The groups of a quartet, by member. -/
def quartetGroups (s : State) (team k : Nat) : List Nat := ((((tblGet s.teams team).map (·.groups)).getD []).drop (4 * k)).take 4

/-- Every member of a quartet changes. -/
def State.upMembers (s : State) (team k : Nat) (f : Group → Group) : State :=
  (quartetGroups s team k).foldl (fun s n => s.upGroup n f) s

/-- The members take a trap at the instruction at which they wait. -/
def trapMembers (s : State) (team k : Nat) (c : Cause) : State :=
  (quartetGroups s team k).foldl (fun s n => trapAt (s.upGroup n fun g => { g with wait := .none }) n c.code c.info) s

/-- The engine acts for the quartet: its member 0 gives the context, the die and the tray, and operation uid the writes. -/
def engineOf (s : State) (team k uid : Nat) : Who :=
  match (quartetGroups s team k).head? with
  | none => { site := 0, ctx := 0 }
  | some n =>
    match tblGet s.groups n with
    | none => { site := 0, ctx := 0 }
    | some g => { groupWho s n g with group := none, op := some (n, uid) }

/-! ### Instructions of the class -/

/-- The counter of a matrix instruction (R201). -/
def mxCounter : Instr → Option Counter
  | .accz _ | .setrt _ _ => none
  | .accepiSend .. => some .cl
  | _ => some .mx

/-- A long MMA, as issued or as its record resumes it. -/
def isLongMma : Instr → Bool
  | .mmaLong .. => true
  | _ => false

def isMma : Instr → Bool
  | .mma .. | .mmaLong .. => true
  | _ => false

/-- The first tile, the tile count, FMT, NS and H of an MMA. -/
structure MmaShape where
  tile : Nat
  tiles : Nat
  form : MmaForm
deriving DecidableEq, Repr

def mmaShape : Instr → MmaShape
  | .mma tile _ _ fmt _ ns h _ => { tile := tile.toNat, tiles := 1, form := { fmt := fmt.toNat, ns := ns, h := h.toNat } }
  | .mmaLong tile _ _ fmt ns h nt _ _ _ =>
    { tile := tile.toNat, tiles := 2 ^ nt.toNat, form := { fmt := fmt.toNat, ns := ns, h := h.toNat } }
  | _ => { tile := 0, tiles := 1, form := { fmt := 0, ns := false, h := 0 } }

/-- The scales of the format are read (R202). -/
def readsScales (f : MmaForm) : Bool := !f.ns && decide (f.fmt < 6)

/-- The queues of A and of its scales that a long MMA takes entries from. -/
def mmaQueues : Instr → Nat × Nat
  | .mmaLong _ aq sq _ _ _ _ _ _ _ => (aq.toNat, sq.toNat)
  | _ => (0, 0)

/-- The uniform operands of a matrix instruction, read from member 0 at issue (R196, R213): the draws' key and base last. -/
def mxVals (s : State) (g : Group) (i : Instr) : List Word64 :=
  let u (pos : Nat) (c : BitVec 7) : Word64 := (usrc s g tInt pos c).setWidth 64
  let f (pos : Nat) (c : BitVec 7) : Word64 := (usrc s g tF32 pos c).setWidth 64
  let key := pair (readS s.draws 4 g 28) (readS s.draws 4 g 29)
  let base := pair (readS s.draws 4 g 30) (readS s.draws 4 g 31)
  match i with
  | .setrt _ a => [usrc64 s g 0 a]
  | .mma _ _ _ _ _ _ _ bs => [u 0 bs]
  | .mmaLong _ _ _ _ _ _ _ bs bstr ks => [u 0 bs, u 1 bstr, u 2 ks]
  | .accld _ _ addr str => [usrc64 s g 0 addr, u 1 str]
  | .accst _ _ addr str _ => [usrc64 s g 0 addr, u 1 str, key, base]
  | .accepi _ _ addr str _ _ alpha bias _ => [usrc64 s g 0 addr, u 1 str, f 2 alpha, u 3 bias, key, base]
  | .accepiSend _ _ _ _ _ alpha bias _ => [0, 0, f 2 alpha, u 3 bias, key, base]
  | .mxsave addr | .mxres addr => [usrc64 s g 0 addr]
  | .qblk _ _ _ _ a => [u 0 a, key, base]
  | .dqblk _ _ _ a => [u 0 a]
  | _ => []

/-- The bytes of A that member i supplies from vA, vA + 1, and where they are read its scales from vS (R202), as cells of the matrix
record. -/
def memberA (s : State) (i : Nat) (g : Group) (va vs : Nat) (scales : Bool) : Cells 8 :=
  let lane (l : Nat) : List Byte := leBytes 4 (readV s.draws (13 + i) g va l).toNat ++ leBytes 4 (readV s.draws (13 + i) g (va + 1) l).toNat
  let rows := (List.range 64).foldl (fun c l => writeBytes c (512 * i + 8 * l) (lane l)) []
  if scales then
    (List.range 16).foldl (fun c l => writeBytes c (2048 + 32 * i + 2 * l) (leBytes 2 ((readV s.draws (13 + i) g vs l).toNat % 65536))) rows
  else rows

/-- The A operand of a short MMA from the members' registers at issue (R205). Log entry 37 (DEDUCED). -/
def issueA (s : State) (team k : Nat) (i : Instr) : Option AOperand :=
  match i with
  | .mma _ areg sreg fmt _ ns _ _ =>
    let gs := quartetGroups s team k
    let cells := (List.range 4).foldl (fun (c : Cells 8) m =>
      match (gs[m]?).bind (tblGet s.groups) with
      | some g => (memberA s m g areg.toNat sreg.toNat (readsScales (mmaShape i).form)).foldl (fun c e => cellSet c e.1 e.2) c
      | none => c) []
    some { bytes := cells, fmt := fmt.toNat, ns := ns, words := wordsOf i }
  | _ => none

/-! ### The state of the quartet after its accepted operations (R198) -/

/-- What the latch holds after an operation (R205, R217). -/
def latchAfter (l : Option AOperand) (o : MxOp) : Option AOperand :=
  match o.instr with
  | .mma _ _ _ _ r _ _ _ => if r then o.a else none
  | .mmaLong .. | .mxsave _ => none
  | _ => l

/-- Log entry 38 (DEDUCED). -/
def pendingLatch (q : Quartet) : Option AOperand := q.ops.foldl latchAfter q.aLatch

/-- The routing registers after an operation. -/
def rteAfter (r : Cells 64) (o : MxOp) : Cells 64 :=
  match o.instr with
  | .setrt n _ => cellSet r n.toNat (o.vals.getD 0 0)
  | _ => r

def pendingRte (q : Quartet) : Cells 64 := q.ops.foldl rteAfter q.rte

/-- The tiles whose error bit is set after an operation (R211). -/
def errAfter (e : List Nat) (o : MxOp) : List Nat :=
  match o.instr with
  | .accz m => e.filter fun t => !m.getLsbD t
  | .accld tile .. | .dqblk tile .. => e.filter fun t => t != tile.toNat
  | .hadt tile src .. =>
    if e.contains src.toNat then (if e.contains tile.toNat then e else tile.toNat :: e) else e.filter fun t => t != tile.toNat
  | _ => e

def pendingErrs (t : Team) (q : Quartet) : List Nat := q.ops.foldl errAfter t.accErr

/-! ### Checks (R200, R201, R203, R211 to R217, R223) -/

/-- A generic range of an engine access: in the global window, or in the team's stash through window 0xFE. -/
def rangeCause (s : State) (team a n : Nat) : Option Cause :=
  let a64 := BitVec.ofNat 64 a
  if a + n ≤ 0xFC * 2 ^ 48 then none
  else if inOwnStash a then
    (if stashSize s team < a % 2 ^ 24 + n then some { code := 0x11, info := laddr 0 a64 } else none)
  else some { code := 0x10, info := laddr 0 a64 }

/-- A stash range by offset. -/
def stashCause (s : State) (team off n : Nat) : Option Cause :=
  if stashSize s team < off + n then some { code := 0x11, info := laddr 0 (BitVec.ofNat 64 off) } else none

/-- A misaligned address. -/
def alignCause (a m : Nat) : Option Cause :=
  if a % m = 0 then none else some { code := 0x12, info := laddr 0 (BitVec.ofNat 64 a) }

/-- The matrix-operand trap. -/
def operandCause (bad : Bool) : Option Cause := if bad then some { code := 0x20, info := 0 } else none

/-- The addresses of a tile's rows (R213). -/
def rowAddr (addr str m : Nat) : Nat := (addr + m * str) % 2 ^ 64

/-- The ranges of memory that an operation reads or writes: address, length, write. -/
def mxRanges (o : MxOp) : List (Nat × Nat × Bool) :=
  let a := (o.vals.getD 0 0).toNat
  let str := (o.vals.getD 1 0).toNat
  let rows (size : Nat) (w : Bool) : List (Nat × Nat × Bool) := (List.range 64).map fun m => (rowAddr a str m, 64 * size, w)
  match o.instr with
  | .accld _ t _ _ => rows (outSize t.toNat) false
  | .accst _ t _ _ _ => rows (outSize t.toNat) true
  | .accepi _ t _ _ _ _ _ _ _ => rows (outSize t.toNat) true
  | .mxsave _ => [(a, 2304, true)]
  | .mxres _ => [(a, 2304, false)]
  | _ => []

/-- The bytes of a B image that are read. -/
def imageRead (f : MmaForm) : Nat := if f.ns then 2048 else imageSize f.fmt

/-- The causes of an MMA's BS and BSTR. -/
def imageAlign (bs bstr : Nat) : List (Option Cause) :=
  [alignCause bs 128, (alignCause bstr 128).map fun _ => { code := 0x12, info := laddr 0 (BitVec.ofNat 64 bs) }]

/-- A step count that a long MMA may have (R203). -/
def stepsOk (steps : Nat) : Bool := decide (1 ≤ steps) && decide (steps ≤ 4096)

/-- The causes of an MMA's image operands: BS, BSTR, and for a legal step count images that do not stand whole in the stash.
Log entry 34 (DEDUCED). -/
def mmaCauses (s : State) (team : Nat) (i : Instr) (bs bstr steps : Nat) : List (Option Cause) :=
  let sh := mmaShape i
  let len := (steps - 1) * bstr + sh.tiles * imageSize sh.form.fmt
  imageAlign bs bstr ++ (if stepsOk steps then [stashCause s team bs len] else [])

/-- The binding that a collective routing register names takes the tile (R414). -/
def bindingTakes (s : State) (t : Team) (b fmt : Nat) : Bool :=
  match tblGet s.grids t.grid with
  | none => false
  | some g =>
    match tblGet g.launch.colls b with
    | none => false
    | some c =>
      c.stream && c.fmt == fmt && 4096 * outSize fmt == c.chbytes && (contribution g.launch c t.teamid).isSome

/-- A routing register is usable by ACCEPI.send (R214, R414). -/
def rteOk (s : State) (t : Team) (x fmt : Nat) : Bool :=
  bits x 63 63 == 1 &&
    if bits x 62 62 = 0 then decide (bits x 61 56 < 48) && bits x 55 0 % 64 == 0
    else bits x 61 58 == 0 && bits x 55 0 == 0 && bindingTakes s t (bits x 57 56) fmt

/-- The operation reads a tile whose error bit is set (R211). -/
def errorCause (t : Team) (q : Quartet) (tile : Nat) : Option Cause :=
  if (pendingErrs t q).contains tile then some { code := 0x23, info := small tile } else none

/-- The causes that need no memory: each in all four members, at the instruction. Log entry 33 (DEDUCED). -/
def mxCauses (s : State) (team : Nat) (t : Team) (q : Quartet) (o : MxOp) : List (Option Cause) :=
  let v (j : Nat) : Nat := (o.vals.getD j 0).toNat
  let ranges := (mxRanges o).map fun r => rangeCause s team r.1 r.2.1
  let tileMem (size : Nat) (zero : Bool) : List (Option Cause) :=
    [alignCause (v 0) 64, (alignCause (v 1) 64).map fun _ => { code := 0x12, info := laddr 0 (BitVec.ofNat 64 (v 0)) },
     operandCause (decide (v 1 < 64 * size) && !(zero && v 1 == 0))]
  let bias (on : Bool) : List (Option Cause) := if on then [alignCause (v 3) 4, stashCause s team (v 3) 256] else []
  ranges ++
    match o.instr with
    | .mma _ _ _ fmt _ ns _ _ =>
      mmaCauses s team o.instr (v 0) 0 1 ++
        [operandCause (((pendingLatch q).map fun a => a.fmt != fmt.toNat || a.ns != ns).getD false)]
    | .mmaLong .. => operandCause (!stepsOk (v 2)) :: mmaCauses s team o.instr (v 0) (v 1) (v 2)
    | .accld _ ty _ _ => tileMem (outSize ty.toNat) true
    | .accst tile ty _ _ _ => errorCause t q tile.toNat :: tileMem (outSize ty.toNat) false
    | .accepi tile ty _ _ _ _ _ _ on => errorCause t q tile.toNat :: tileMem (outSize ty.toNat) false ++ bias on
    | .accepiSend tile ty _ _ rte _ _ on =>
      errorCause t q tile.toNat :: operandCause (!rteOk s t (cellGet (pendingRte q) rte.toNat).toNat ty.toNat) :: bias on
    | .mxsave _ | .mxres _ => [alignCause (v 0) 128]
    | .qblk tile fmt _ _ _ => [errorCause t q tile.toNat, alignCause (v 0) 128, stashCause s team (v 0) (qSize fmt.toNat)]
    | .dqblk _ fmt _ _ => [alignCause (v 0) 128, stashCause s team (v 0) (qSize fmt.toNat)]
    | _ => []

/-- The cause with the lowest code (R277). -/
def lowestCause (cs : List (Option Cause)) : Option Cause :=
  (cs.filterMap id).foldl (fun (m : Option Cause) c =>
    match m with
    | none => some c
    | some x => if c.code < x.code then some c else m) none

/-- How a check ends: it passes, with the operation as it will be performed, it meets a trap, a page fault, or a record that an
uncorrectable error makes unreadable. -/
inductive MxCheck where
  | ok (o : MxOp)
  | trap (c : Cause)
  | page (va cause level pte : Nat)
  | unreadable
deriving DecidableEq, Repr

/-! ### The matrix record (R216, R217) -/

/-- Bytes 0 to 127 of a record. -/
def recordHead (state : Nat) (words : Word64) (vals pos : List Nat) : List Byte :=
  leBytes 8 state ++ leBytes 8 words.toNat ++ (List.range 3).flatMap (fun j => leBytes 4 (vals.getD j 0)) ++
    (List.range 3).flatMap (fun j => leBytes 4 (pos.getD j 0)) ++ leBytes 88 0

/-- The record of a stopped long MMA, or of the latch, or of neither. Log entry 36 (DEDUCED). -/
def recordBytes (stopped : Option MxOp) (latch : Option AOperand) : List Byte :=
  match stopped, latch with
  | some o, _ =>
    recordHead 1 (wordsOf o.instr) (o.vals.map (·.toNat)) [16 * o.pass, 64 * o.tile, o.step] ++
      readBytes ((o.a.map (·.bytes)).getD []) 0 2176
  | none, some a => recordHead 2 a.words [] [] ++ readBytes a.bytes 0 2176
  | none, none => List.replicate 2304 0

/-- The A operand that a record holds. -/
def recordA (bs : List Byte) : AOperand :=
  let w1 := bytesNum bs 12 4
  { bytes := writeBytes [] 0 (bs.drop 128), fmt := w1 / 2 ^ 28, ns := w1 / 2 ^ 26 % 2 == 1, words := BitVec.ofNat 64 (bytesNum bs 8 8) }

/-- The position of a record lies in its MMA (R217). -/
def positionOk (i : Instr) (steps row col dep : Nat) : Bool :=
  decide (dep < steps) && col % 64 == 0 && decide (col / 64 < (mmaShape i).tiles) && row % 16 == 0 && decide (row ≤ 48)

/-- The stopped MMA that a record describes, or the trap with the lowest code that it raises (R217, R277). -/
def recordOp (s : State) (team uid : Nat) (bs : List Byte) : Except Cause MxOp :=
  let vals := (List.range 3).map fun j => bytesNum bs (16 + 4 * j) 4
  let row := bytesNum bs 28 4
  let col := bytesNum bs 32 4
  let dep := bytesNum bs 36 4
  let steps := vals.getD 2 0
  let fail (cs : List (Option Cause)) : Except Cause MxOp := .error ((lowestCause cs).getD { code := 0x20, info := 0 })
  match decodeWords (bytesNum bs 8 4) (bytesNum bs 12 4) with
  | .ok i =>
    if !isLongMma i then fail (imageAlign (vals.getD 0 0) (vals.getD 1 0))
    else
      let ok := bytesNum bs 0 8 / 4 == 0 && bytesNum bs 40 88 == 0 && stepsOk steps && positionOk i steps row col dep
      match lowestCause (operandCause (!ok) :: (if dep < steps then mmaCauses s team i (vals.getD 0 0) (vals.getD 1 0) steps
          else imageAlign (vals.getD 0 0) (vals.getD 1 0))) with
      | some c => .error c
      | none =>
        .ok { uid := uid, instr := i, vals := vals.map (BitVec.ofNat 64), a := some (recordA bs), step := dep, tile := col / 64,
              pass := row / 16 }
  | .error _ => fail (imageAlign (vals.getD 0 0) (vals.getD 1 0))

/-! ### The check itself -/

/-- The pages of global ranges are probed; the lowest fault. -/
def probeAll (s : State) (w : Who) (rs : List (Nat × Nat × Bool)) : State × Option EngFault :=
  rs.foldl (fun r x =>
    match r.2 with
    | some f => (r.1, some f)
    | none => if inOwnStash x.1 then (r.1, none) else probeRange r.1 w x.1 x.2.1 x.2.2) (s, none)

/-- The name that a point-to-point send goes to is resolved (R214). -/
def sendName (s : State) (w : Who) (q : Quartet) (o : MxOp) : State × Option Cause :=
  match o.instr with
  | .accepiSend _ _ _ _ rte _ _ _ =>
    let x := (cellGet (pendingRte q) rte.toNat).toNat
    if bits x 62 62 = 1 then (s, none)
    else
      match resolveName s w (bits x 61 56) with
      | (s1, .error c) => (s1, some c)
      | (s1, .ok _) => (s1, none)
  | _ => (s, none)

/-- MXRES reads its record and checks it. Log entry 52 (DEDUCED). -/
def checkRecord (s : State) (w : Who) (team : Nat) (o : MxOp) : State × MxCheck :=
  match genRead s w team (o.vals.getD 0 0).toNat 2304 with
  | (s1, .error .err) => (s1, .unreadable)
  | (s1, .error (.trap c)) => (s1, .trap c)
  | (s1, .error (.page va c l p)) => (s1, .page va c l p)
  | (s1, .ok bs) =>
    if bytesNum bs 0 8 % 2 = 0 then
      (s1, .ok { o with a := if bytesNum bs 0 8 / 2 % 2 = 1 then some (recordA bs) else none })
    else
      match recordOp s1 team o.uid bs with
      | .error c => (s1, .trap c)
      | .ok r => (s1, .ok r)

/-- The whole check of an operation. -/
def checkMtx (s : State) (team k : Nat) (o : MxOp) : State × MxCheck :=
  match tblGet s.teams team, quartetAt s team k with
  | some t, some q =>
    match lowestCause (mxCauses s team t q o) with
    | some c => (s, .trap c)
    | none =>
      let w := engineOf s team k o.uid
      match sendName s w q o with
      | (s1, some c) => (s1, .trap c)
      | (s1, none) =>
        match probeAll s1 w (mxRanges o) with
        | (s2, some (.page va c l p)) => (s2, .page va c l p)
        | (s2, some (.trap c)) => (s2, .trap c)
        | (s2, some .err) => (s2, .unreadable)
        | (s2, none) =>
          match o.instr with
          | .mxres _ => checkRecord s2 w team o
          | _ => (s2, .ok o)
  | _, _ => (s, .ok o)

/-- The check reads memory: it ends later than the clock of issue (R299). -/
def slowCheck (o : MxOp) : Bool :=
  match o.instr with
  | .accepiSend .. | .mxres _ => true
  | _ => (mxRanges o).any fun r => !inOwnStash r.1

/-! ### Performance of the tile instructions (R213 to R217) -/

/-- What a performed operation leaves for its members: flags, an error, the completion time of its writes, and whether something is still to
come. -/
structure MxDone where
  flags : Fp.Flags := 0
  err : Option Cause := none
  ctime : Nat := 0
  more : Bool := false

/-- An unspecified byte in the place of one that met an error. -/
def lostByte (s : State) (k : Nat) : Byte := (Config.freeWord s.draws (2 ^ 52 + k)).truncate 8

/-- An engine's read for a matrix operation after its checks: an error leaves unspecified bytes and is reported (R200). -/
def mxRead (s : State) (w : Who) (team a n : Nat) : State × List Byte × Bool :=
  match genRead s w team a n with
  | (s1, .ok bs) => (s1, bs, false)
  | (s1, .error _) => (s1, (List.range n).map (lostByte s), true)

/-- The reported memory error of a matrix operation. -/
def mxError (bad : Bool) (c : Counter) : Option Cause := if bad then some { code := 0x1A, info := small c.ident } else none

/-- Some writes of an engine in order. -/
def mxWrites (s : State) (w : Who) (team : Nat) (ws : List (Nat × List Byte)) : State × Nat × Bool :=
  ws.foldl (fun (r : State × Nat × Bool) x =>
    match genWrite r.1 w team x.1 x.2 with
    | (s1, .ok c) => (s1, max r.2.1 c, r.2.2)
    | (s1, .error _) => (s1, r.2.1, true)) (s, 0, false)

/-- An engine's read of stash bytes by offset, with the bind conflict that it meets (R186). -/
def mxStashRead (s : State) (w : Who) (team off n : Nat) : State × Got := stashRead (noteClash s w (clashSlot s team off n)) none team off n

/-- The rows of a tile as elements of `size` bytes. -/
def tileRows (size : Nat) (xs : List (Nat × Fp.Flags)) (m : Nat) : List Byte :=
  (List.range 64).flatMap fun n => leBytes size (xs.getD (64 * m + n) (0, 0)).1

/-- The draw of element (m, n) under .rs, else 0. -/
def mxDraw (o : MxOp) (rm : BitVec 3) (j m n : Nat) : Nat :=
  if rm = 4 then (Fp.rsDraw (o.vals.getD j 0) (o.vals.getD (j + 1) 0) m n).toNat else 0

/-- The F32 values of a bias from the stash. -/
def biasValues (s : State) (w : Who) (team off : Nat) : State × List Nat × Bool :=
  let r := mxStashRead s w team off 256
  (r.1, (List.range 64).map fun n => bytesNum r.2.bytes (4 * n) 4, r.2.bad)

/-- The elements that ACCEPI makes of its tile. -/
def epiTile (s : State) (w : Who) (team : Nat) (acc : Cells 32) (tile ty : Nat) (rm : BitVec 3) (act : Nat) (on : Bool) (o : MxOp) :
    State × List (Nat × Fp.Flags) × Bool :=
  let b := if on then biasValues s w team (o.vals.getD 3 0).toNat else (s, [], false)
  (b.1, tileMap fun m n =>
    epiElem ty rm.toNat (mxDraw o rm 4 m n) act (o.vals.getD 2 0).toNat (if on then some (b.2.1.getD n 0) else none)
      (accGet acc tile m n), b.2.2)

/-- The rows of a tile are written. -/
def storeTile (s : State) (w : Who) (team : Nat) (o : MxOp) (size : Nat) (xs : List (Nat × Fp.Flags)) (c : Counter) (bad : Bool) :
    State × MxDone :=
  let rows := (List.range 64).map fun m => (rowAddr (o.vals.getD 0 0).toNat (o.vals.getD 1 0).toNat m, tileRows size xs m)
  let r := mxWrites s w team rows
  (r.1, { flags := flagsOf xs, err := mxError (bad || r.2.2) c, ctime := r.2.1 })

/-- A tile goes densely to a die, as one send (R214): a fault there is a reported error. Log entry 39 (DEDUCED). -/
def sendTile (s : State) (w : Who) (team k : Nat) (o : MxOp) (x size : Nat) (xs : List (Nat × Fp.Flags)) (bad : Bool) : State × MxDone :=
  let bytes := (List.range 64).flatMap (tileRows size xs)
  let fail (c : Cause) : MxDone := { flags := flagsOf xs, err := some c }
  match resolveName s w (bits x 61 56) with
  | (s1, .error c) => (s1, fail c)
  | (s1, .ok b) =>
    let w1 : Who := { w with site := b.site, core := none, tray := none }
    match probeRange s1 w1 (bits x 55 0) bytes.length true with
    | (s2, some (.trap c)) => (s2, fail c)
    | (s2, some (.page ..)) => (s2, fail { code := 0x15, info := 0 })
    | (s2, some .err) => (s2, fail { code := 0x1A, info := small 6 })
    | (s2, none) =>
      let r := mxWrites s2 w1 team [(bits x 55 0, bytes)]
      let d : Send := { team := team, quartet := k, op := o.uid, name := bits x 61 56, addr := BitVec.ofNat 64 (bits x 55 0 + 4096 * size),
                        bytes := [], written := true }
      ({ r.1 with sends := tblSet r.1.sends r.1.fresh d, fresh := r.1.fresh + 1 },
        { flags := flagsOf xs, err := mxError (bad || r.2.2) .cl, ctime := r.2.1, more := true })

/-- A tile is a streamed contribution of its team (R414). -/
def streamTile (s : State) (team k : Nat) (t : Team) (o : MxOp) (b size : Nat) (xs : List (Nat × Fp.Flags)) (bad : Bool) : State × MxDone :=
  let bytes := (List.range 64).flatMap (tileRows size xs)
  let place := (tblGet s.grids t.grid).bind fun g => (tblGet g.launch.colls b).bind fun c => contribution g.launch c t.teamid
  match place with
  | none => (s, { flags := flagsOf xs, err := mxError bad .cl })
  | some (r, c) =>
    let x : Contrib := { grid := t.grid, team := team, binding := b, rank := r, chunk := c, bytes := some bytes, quartet := some (team, k, o.uid) }
    ({ s with contribs := tblSet s.contribs s.fresh x, fresh := s.fresh + 1 },
      { flags := flagsOf xs, err := mxError bad .cl, more := true })

/-- The tile memory of a team changes: its cells and error bits. -/
def putTile (s : State) (team tile : Nat) (acc : Cells 32) (err : Bool) : State :=
  s.upTeam team fun t =>
    { t with
      acc := acc
      accErr := if err then (if t.accErr.contains tile then t.accErr else tile :: t.accErr) else t.accErr.filter fun x => x != tile }

/-- ACCLD: the rows are read and converted, exactly. -/
def performAccld (s : State) (w : Who) (team : Nat) (t : Team) (o : MxOp) (tile ty : Nat) : State × MxDone :=
  let r := (List.range 64).foldl (fun (r : State × List Byte × Bool) m =>
    let x := mxRead r.1 w team (rowAddr (o.vals.getD 0 0).toNat (o.vals.getD 1 0).toNat m) (64 * outSize ty)
    (x.1, r.2.1 ++ x.2.1, r.2.2 || x.2.2)) (s, [], false)
  let img : Cells 8 := writeBytes [] 0 r.2.1
  let xs := tileMap fun m n =>
    Fp.cvt Fp.f32 (Fp.value (outFmt ty) (leNat (readBytes img (outSize ty * (64 * m + n)) (outSize ty)))) 0
  (putTile r.1 team tile (tilePut t.acc tile xs) false, { flags := flagsOf xs, err := mxError r.2.2 .mx })

/-- MXSAVE: the record of a stopped long MMA, or of the latch; the latch is emptied and the stopped MMA leaves (R217). -/
def performMxsave (s : State) (w : Who) (team k : Nat) (q : Quartet) (o : MxOp) (stopped : Option MxOp) : State × MxDone :=
  let r := mxWrites s w team [((o.vals.getD 0 0).toNat, recordBytes stopped q.aLatch)]
  let s1 := r.1.upQuartet team k fun q => { q with aLatch := none }
  let s2 := match stopped with
    | some m => s1.upMembers team k fun g => upOp g m.uid fun x => { x with stage := .complete, need := 0 }
    | none => s1
  (s2, { err := mxError r.2.2 .mx, ctime := r.2.1 })

/-- An operation other than an MMA is performed. -/
def performMtx (s : State) (team k : Nat) (t : Team) (q : Quartet) (o : MxOp) : State × MxDone :=
  let w := engineOf s team k o.uid
  match o.instr with
  | .accz m =>
    (s.upTeam team fun t =>
      { t with
        acc := t.acc.filter fun e => !m.getLsbD (e.1 / 4096)
        accErr := t.accErr.filter fun x => !m.getLsbD x }, {})
  | .setrt n _ => (s.upQuartet team k fun q => { q with rte := cellSet q.rte n.toNat (o.vals.getD 0 0) }, {})
  | .accld tile ty _ _ => performAccld s w team t o tile.toNat ty.toNat
  | .accst tile ty _ _ rm =>
    let xs := tileMap fun m n =>
      Fp.cvt (outFmt ty.toNat) (Fp.value Fp.f32 (accGet t.acc tile.toNat m n)) rm.toNat (mxDraw o rm 2 m n)
    storeTile s w team o (outSize ty.toNat) xs .mx false
  | .accepi tile ty _ _ rm act _ _ on =>
    let e := epiTile s w team t.acc tile.toNat ty.toNat rm act.toNat on o
    storeTile e.1 w team o (outSize ty.toNat) e.2.1 .mx e.2.2
  | .accepiSend tile ty rm act rte _ _ on =>
    let e := epiTile s w team t.acc tile.toNat ty.toNat rm act.toNat on o
    let x := (cellGet q.rte rte.toNat).toNat
    if bits x 62 62 = 0 then sendTile e.1 w team k o x (outSize ty.toNat) e.2.1 e.2.2
    else streamTile e.1 team k t o (bits x 57 56) (outSize ty.toNat) e.2.1 e.2.2
  | .hadt tile src n dir =>
    let xs := hadTile t.acc src.toNat (hadLog n.toNat) dir
    (putTile s team tile.toNat (tilePut t.acc tile.toNat xs) (t.accErr.contains src.toNat), { flags := flagsOf xs })
  | .qblk tile fmt rm tr _ =>
    let bs := qBlocks fmt.toNat rm.toNat tr (accGet t.acc tile.toNat) (mxDraw o rm 1)
    let base := (o.vals.getD 0 0).toNat
    let bad := fillBad s team base (qSize fmt.toNat)
    let s0 := noteClash s w (clashSlot s team base (qSize fmt.toNat))
    let r := (qBytes fmt.toNat bs).foldl (fun (r : State × Nat) e =>
      let x := stashWrite r.1 none team (base + e.1) [e.2]
      (x.1, max r.2 x.2)) (s0, 0)
    (r.1, { flags := bs.foldl (fun a x => a ||| x.2.2) 0, err := mxError bad .mx, ctime := r.2 })
  | .dqblk tile fmt tr _ =>
    let r := mxStashRead s w team (o.vals.getD 0 0).toNat (qSize fmt.toNat)
    let img : Cells 8 := writeBytes [] 0 r.2.bytes
    let xs := deqTile fmt.toNat tr img
    (putTile r.1 team tile.toNat (tilePut t.acc tile.toNat xs) false, { flags := flagsOf xs, err := mxError r.2.bad .mx })
  | .mxsave _ => performMxsave s w team k q o none
  | .mxres _ => ((match o.a with
      | some a => s.upQuartet team k fun q => { q with aLatch := some a }
      | none => s), {})
  | _ => (s, {})

/-- What a performed operation leaves is noted in its members (R37, R200, R201). -/
def noteDone (s : State) (team k uid : Nat) (d : MxDone) : State :=
  s.upMembers team k fun g => upOp g uid fun o =>
    { o with
      flags := o.flags ||| BitVec.ofNat 32 d.flags
      err := o.err.or d.err
      engC := max o.engC d.ctime
      need := if d.more then 1 else 0
      stage := if d.more then .performed else .complete }

/-- A quartet of the team is in the middle of a tile step (R198). -/
def midStep (t : Team) : Option Nat :=
  (tblFind t.quartets fun _ q => (q.ops.head?.map fun o => isMma o.instr && o.b.isSome).getD false).map (·.1)

/-- The engine performs what is first in a quartet's queue, up to its next MMA; an MXSAVE stops the long MMA before it once that holds its A
(R198, R209, R217). The fuel is the number of operations. -/
def drainQuartet (team k : Nat) : Nat → State → State
  | 0, s => s
  | fuel + 1, s =>
    match tblGet s.teams team, quartetAt s team k with
    | some t, some q =>
      match q.ops with
      | [] => s
      | o :: rest =>
        if isMma o.instr then
          match rest with
          | m :: rest2 =>
            match m.instr with
            | .mxsave _ =>
              if isLongMma o.instr && o.a.isSome && ((midStep t).getD k == k) then
                let r := performMxsave s (engineOf s team k m.uid) team k q m (some o)
                drainQuartet team k fuel (noteDone (r.1.upQuartet team k fun q => { q with ops := rest2 }) team k m.uid r.2)
              else s
            | _ => s
          | [] => s
        else if (midStep t).isSome then s
        else
          let r := performMtx s team k t q o
          drainQuartet team k fuel (noteDone (r.1.upQuartet team k fun q => { q with ops := rest }) team k o.uid r.2)
    | _, _ => s

/-- Every quartet of a team, in ascending order. -/
def drainQuartets (s : State) (team : Nat) : State :=
  (tblKeys (((tblGet s.teams team).map (·.quartets)).getD [])).foldl (fun s k => drainQuartet team k 64 s) s

/-- The engine performs what it can for a team's quartets: an MXSAVE that stops an MMA in the middle of a tile step lets the others go on. -/
def drainTeam (s : State) (team : Nat) : State := drainQuartets (drainQuartets s team) team

/-! ### Acceptance -/

/-- The members count the instruction and go on after it (R33, R196, R200). -/
def countMembers (s : State) (team k uid : Nat) (i : Instr) (len : Nat) (words : Word64) : State :=
  s.upMembers team k fun g =>
    let g1 := match mxCounter i with
      | some c => issueOp g { uid := uid, ctr := c, words := words, len := len, stage := .performed, need := 1 }
      | none => g
    { advance len g1 with wait := .none }

/-- The words of a matrix instruction. -/
def mxLen : Instr → Nat
  | .accz _ | .setrt _ _ => 1
  | _ => 2

/-- An operation is accepted by the engine; the progress registers show a long MMA's position (R205, R208). -/
def acceptMtx (s : State) (team k : Nat) (i : Instr) (o : MxOp) : State :=
  let s1 := countMembers s team k o.uid i (mxLen i) (wordsOf i)
  let latched := ((quartetAt s team k).bind pendingLatch)
  let o1 := match o.instr with
    | .mma .. => { o with a := latched.or o.a }
    | _ => o
  let s2 := s1.upQuartet team k fun q => { q with checking := none, checkRec := none, ops := q.ops ++ [o1] }
  let s3 :=
    if isLongMma o1.instr then
      s2.upQuartet team k fun q =>
        { q with mxrow := 16 * o1.pass, mxcol := 64 * o1.tile, mxdep := o1.step, aLatch := if q.ops.length = 1 then none else q.aLatch }
    else s2
  drainTeam s3 team

/-- How a check ends for the four members (R200). -/
def endCheck (s : State) (team k : Nat) (i : Instr) (uid : Nat) (r : MxCheck) : State :=
  let clear (s : State) : State := s.upQuartet team k fun q => { q with checking := none, checkRec := none }
  match r with
  | .trap c => trapMembers (clear s) team k c
  | .page va c l p =>
    let n := (quartetGroups s team k).headD 0
    let ones := ((tblGet s.groups n).map fun g => onesBelow g.width).getD 0
    let isWrite := match i with
      | .mxres _ | .accld .. => false
      | _ => true
    let f := s.fresh
    (parkAt s (faultRec s n 4 va isWrite c l p ones)).upQuartet team k fun q => { q with checkRec := some f }
  | .unreadable =>
    let s1 := countMembers (clear s) team k uid i (mxLen i) (wordsOf i)
    noteDone s1 team k uid { err := mxError true .mx }
  | .ok o => acceptMtx s team k i o

/-- The operation of a quartet under check is checked. -/
def runCheck (s : State) (team k : Nat) (o : MxOp) : State :=
  let r := checkMtx s team k o
  endCheck r.1 team k o.instr o.uid r.2

/-! ### The rendezvous (R195, R196, R199) -/

/-- A group may issue no matrix instruction (R195). -/
def mxBarred (t : Team) (g : Group) : Bool :=
  decide (g.width < 64) || !t.tiles || decide (t.groups.length < g.grpid / 4 * 4 + 4) || g.handler

/-- The four words that meet may issue: no counter is full, and the quartet has no long MMA outstanding unless it is MXSAVE (R33, R199). -/
def mayMeet (s : State) (team k : Nat) (q : Quartet) (i : Instr) : Bool :=
  let full := match mxCounter i with
    | some c => (quartetGroups s team k).any fun n => ((tblGet s.groups n).map fun g => counterFull g c).getD false
    | none => false
  let save := match i with
    | .mxsave _ => true
    | _ => false
  !full && q.checking.isNone && (save || !(q.ops.any fun o => isLongMma o.instr))

/-- The rendezvous of a quartet whose four words have arrived (R196). -/
def meet (s : State) (team k : Nat) : State :=
  match quartetAt s team k with
  | none => s
  | some q =>
    match q.latch with
    | [(_, w), (_, w1), (_, w2), (_, w3)] =>
      if w1 ≠ w ∨ w2 ≠ w ∨ w3 ≠ w then
        trapMembers (s.upQuartet team k fun q => { q with latch := [] }) team k { code := 0x21, info := 0 }
      else
        match decodeWords (w.toNat % 2 ^ 32) (w.toNat / 2 ^ 32), (quartetGroups s team k).head?.bind (tblGet s.groups) with
        | .ok i, some g =>
          if mayMeet s team k q i then
            let o : MxOp := { uid := s.fresh, instr := i, vals := operands g (mxVals s g i), a := issueA s team k i }
            let s1 := (s.bump.upQuartet team k fun q => { q with latch := [], checking := some o }).upMembers team k fun g =>
              { g with wait := .matrixCheck }
            let static := match tblGet s.teams team with
              | some t => (lowestCause (mxCauses s team t q o)).isSome
              | none => false
            if slowCheck o && !static then s1 else runCheck s1 team k o
          else s
        | _, _ => s
    | _ => s

/-- A member of a quartet has ended: the lowest of them is named (R196). -/
def abandoned (q : Quartet) : Option Nat := (List.range 4).find? fun m => q.lost.contains m

/-- A matrix instruction arrives at the latch of its quartet (R195, R196). -/
def arriveMtx (i : Instr) (s : State) : MxRes :=
  onGroup s fun g =>
    match teamOf s g, quartetAt s g.team (g.grpid / 4) with
    | some t, some q =>
      if mxBarred t g then trapAt s s.cur 0x20 0
      else
        match abandoned q with
        | some m => trapAt s s.cur 0x22 (small m)
        | none =>
          let s1 := s.upQuartet g.team (g.grpid / 4) fun q => { q with latch := tblSet q.latch (g.grpid % 4) (wordsOf i) }
          meet (s1.upGroup s.cur fun g => { g with wait := .rendezvous }) g.team (g.grpid / 4)
    | _, _ => trapAt s s.cur 0x20 0

/-- A member that waits at the latch looks again: a lost member abandons the rendezvous, else it may complete. -/
def retryMeet (s : State) (n : Nat) (g : Group) : State :=
  match quartetAt s g.team (g.grpid / 4) with
  | none => s
  | some q =>
    match abandoned q with
    | some m =>
      let s1 := s.upQuartet g.team (g.grpid / 4) fun q => { q with latch := tblErase q.latch (g.grpid % 4) }
      trapAt (s1.upGroup n fun g => { g with wait := .none }) n 0x22 (small m)
    | none => meet s g.team (g.grpid / 4)

/-! ### The instructions: each arrives at the latch -/

def execAccz (m : BitVec 8) (s : State) : MxRes := arriveMtx (.accz m) s
def execSetrt (n : BitVec 2) (a : BitVec 7) (s : State) : MxRes := arriveMtx (.setrt n a) s
def execMma (tile : BitVec 3) (areg sreg : BitVec 6) (fmt : BitVec 4) (r ns : Bool) (h : BitVec 2) (bs : BitVec 7) (s : State) : MxRes :=
  arriveMtx (.mma tile areg sreg fmt r ns h bs) s
def execMmaLong (tile : BitVec 3) (aq sq : BitVec 2) (fmt : BitVec 4) (ns : Bool) (h nt : BitVec 2) (bs bstr ks : BitVec 7) (s : State) :
    MxRes := arriveMtx (.mmaLong tile aq sq fmt ns h nt bs bstr ks) s
def execAccld (tile t : BitVec 3) (addr str : BitVec 7) (s : State) : MxRes := arriveMtx (.accld tile t addr str) s
def execAccst (tile t : BitVec 3) (addr str : BitVec 7) (rm : BitVec 3) (s : State) : MxRes := arriveMtx (.accst tile t addr str rm) s
def execAccepi (tile t : BitVec 3) (addr str : BitVec 7) (rm : BitVec 3) (act : BitVec 2) (alpha bias : BitVec 7) (biason : Bool)
    (s : State) : MxRes := arriveMtx (.accepi tile t addr str rm act alpha bias biason) s
def execAccepiSend (tile t rm : BitVec 3) (act rte : BitVec 2) (alpha bias : BitVec 7) (biason : Bool) (s : State) : MxRes :=
  arriveMtx (.accepiSend tile t rm act rte alpha bias biason) s
def execMxsave (addr : BitVec 7) (s : State) : MxRes := arriveMtx (.mxsave addr) s
def execMxres (addr : BitVec 7) (s : State) : MxRes := arriveMtx (.mxres addr) s
def execHadt (tile src : BitVec 3) (n : BitVec 2) (dir : Bool) (s : State) : MxRes := arriveMtx (.hadt tile src n dir) s
def execQblk (tile fmt rm : BitVec 3) (tr : Bool) (a : BitVec 7) (s : State) : MxRes := arriveMtx (.qblk tile fmt rm tr a) s
def execDqblk (tile fmt : BitVec 3) (tr : Bool) (a : BitVec 7) (s : State) : MxRes := arriveMtx (.dqblk tile fmt tr a) s

/-! ### The engine's events -/

/-- MATRIX_CHECK_END: the checks of a quartet's operation end (R200). -/
def execMatrixCheckEnd (team quartet : Nat) (s : State) : MxRes :=
  .next (match quartetAt s team quartet with
    | some q =>
      match q.checking, q.checkRec with
      | some o, none => runCheck s team quartet o
      | _, _ => s
    | none => s)

/-- The head of a quartet's queue is an MMA that holds the A of its step. -/
def runnable (q : Quartet) : Bool := !q.halted && (q.ops.head?.map fun o => isMma o.instr && o.a.isSome).getD false

/-- The quartet whose pass the engine performs next: the one in the middle of a tile step, else the next runnable in round robin (R198). -/
def nextPass (t : Team) : Option Nat :=
  match midStep t with
  | some k => some k
  | none =>
    let ks := (t.quartets.filter fun e => runnable e.2).map (·.1)
    (ks.find? fun k => decide (t.mxLast < k)).or ks.head?

/-- The B image of the tile step, read when its first pass begins (R204). -/
def imageOf (s : State) (w : Who) (team : Nat) (o : MxOp) : State × Cells 8 × Bool :=
  match o.b with
  | some b => (s, b, false)
  | none =>
    let sh := mmaShape o.instr
    let off := (o.vals.getD 0 0).toNat + o.step * (o.vals.getD 1 0).toNat + o.tile * imageSize sh.form.fmt
    let r := mxStashRead s w team off (imageRead sh.form)
    (r.1, writeBytes [] 0 (if r.2.bad then (List.range (imageRead sh.form)).map (lostByte s) else r.2.bytes), r.2.bad)

/-- The steps of an MMA. -/
def mmaSteps (o : MxOp) : Nat := if isLongMma o.instr then (o.vals.getD 2 0).toNat else 1

/-- The position after a pass (R204): the next pass, tile or step; a new step of a long MMA has no A yet. -/
def nextPosition (o : MxOp) (b : Cells 8) : MxOp :=
  if o.pass < 3 then { o with pass := o.pass + 1, b := some b }
  else if o.tile + 1 < (mmaShape o.instr).tiles then { o with pass := 0, tile := o.tile + 1, b := none }
  else { o with pass := 0, tile := 0, step := o.step + 1, b := none, a := none }

/-- The comparison of the spare column at the end of a tile step (R210). Log entry 40 (DEDUCED). -/
def compareSpare (s : State) (team tile : Nat) (t : Team) (ok : Bool) : State :=
  let c := coreNum t.site t.core
  let s1 := s.upCore c fun k => { k with spareCol := (k.spareCol + 1) % 64 }
  if ok then s1
  else
    shadowEvent (s1.upTeam team fun t => { t with accErr := if t.accErr.contains tile then t.accErr else tile :: t.accErr }) c

/-- An MMA has ended: the latch, the members' operations, and what waits behind it (R205). -/
def finishMma (s : State) (team k : Nat) (o : MxOp) : State :=
  let s1 := s.upQuartet team k fun q => { q with ops := q.ops.drop 1, aLatch := latchAfter q.aLatch o }
  drainTeam (s1.upMembers team k fun g => upOp g o.uid fun x => { x with stage := .complete, need := 0 }) team

/-- MMA_PASS_END: the engine ends a pass of a quartet's MMA; `spareOk` says that the spare column agrees, where the pass ends a tile step
(R204, R209, R210). -/
def execMmaPassEnd (team quartet : Nat) (spareOk : Bool) (s : State) : MxRes :=
  .next (match tblGet s.teams team, quartetAt s team quartet with
    | some t, some q =>
      match q.ops with
      | o :: _ =>
        match o.a with
        | some a =>
          if nextPass t ≠ some quartet || !isMma o.instr then s
          else
            let sh := mmaShape o.instr
            let b := imageOf s (engineOf s team quartet o.uid) team o
            let r := mmaPass sh.form a.bytes b.2.1 t.acc (sh.tile + o.tile) o.pass
            let s1 := b.1.upTeam team fun t => { t with acc := r.1, mxLast := quartet }
            let s2 := s1.upMembers team quartet fun g => upOp g o.uid fun x =>
              { x with flags := x.flags ||| BitVec.ofNat 32 r.2, err := x.err.or (mxError b.2.2 .mx) }
            let s3 := if o.pass = 3 then compareSpare s2 team (sh.tile + o.tile) t spareOk else s2
            let n := nextPosition o b.2.1
            let s4 := s3.upQuartet team quartet fun q => { q with ops := n :: q.ops.drop 1 }
            let s5 := if isLongMma o.instr then s4.upQuartet team quartet fun q =>
                { q with mxrow := 16 * n.pass, mxcol := 64 * n.tile, mxdep := n.step } else s4
            if n.step = mmaSteps o then finishMma s5 team quartet { n with a := o.a } else drainTeam s5 team
        | none => s
      | [] => s
    | _, _ => s)

/-- What the members' queues hold for a step of a long MMA: every entry, not yet, or never (R207). -/
inductive Take where
  | all
  | wait
  | never (c : Cause)
deriving DecidableEq, Repr

/-- The entries that a step takes from queue q. -/
def takeNeed (i : Instr) (q : Nat) : Nat :=
  let qs := mmaQueues i
  if q = qs.1 then 2 else if q = qs.2 && readsScales (mmaShape i).form then 1 else 0

def takeGate (s : State) (team k : Nat) (i : Instr) : Take :=
  (quartetGroups s team k).foldl (fun (r : Take) n =>
    match r, tblGet s.groups n with
    | .never c, _ => .never c
    | _, none => r
    | _, some g =>
      match feedGateOf g (takeNeed i) with
      | .ready => r
      | .wait => .wait
      | .trap c => .never c) .all

/-- The bytes that member m's entries give: A from two entries, the scales from one. -/
def takenA (m : Nat) (g : Group) (i : Instr) : Cells 8 :=
  let qs := mmaQueues i
  let rows := (List.range 64).foldl (fun (c : Cells 8) l =>
    writeBytes c (512 * m + 8 * l) (leBytes 4 (feedLane g qs.1 0 l).toNat ++ leBytes 4 (feedLane g qs.1 1 l).toNat)) []
  if readsScales (mmaShape i).form then
    (List.range 16).foldl (fun c l => writeBytes c (2048 + 32 * m + 2 * l) (leBytes 2 ((feedLane g qs.2 0 l).toNat % 65536))) rows
  else rows

/-- The A of a step taken from the four members. -/
def takeA (s : State) (team k : Nat) (i : Instr) : AOperand :=
  let gs := quartetGroups s team k
  let cells := (List.range 4).foldl (fun (c : Cells 8) m =>
    match (gs[m]?).bind (tblGet s.groups) with
    | some g => (takenA m g i).foldl (fun c e => cellSet c e.1 e.2) c
    | none => c) []
  { bytes := cells, fmt := (mmaShape i).form.fmt, ns := (mmaShape i).form.ns, words := wordsOf i }

/-- The entries of a step leave the queues. -/
def popTaken (i : Instr) (g : Group) : Group :=
  (List.range 4).foldl (fun g q => if takeNeed i q = 0 then g else popFeed g q (takeNeed i q)) g

/-- MMA_FEED_TAKE: a long MMA takes the A of its next step; where an entry can never come it stops with the reported error (R207, R221). -/
def execMmaFeedTake (team quartet : Nat) (s : State) : MxRes :=
  .next (match quartetAt s team quartet with
    | some q =>
      match q.ops with
      | o :: _ =>
        if !isLongMma o.instr || o.a.isSome then s
        else
          match takeGate s team quartet o.instr with
          | .wait => s
          | .never c =>
            finishMma (s.upMembers team quartet fun g => upOp g o.uid fun x => { x with err := some (x.err.getD c) }) team quartet o
          | .all =>
            let a := takeA s team quartet o.instr
            let s1 := s.upMembers team quartet (popTaken o.instr)
            drainTeam (s1.upQuartet team quartet fun q => { q with ops := { o with a := some a } :: q.ops.drop 1 }) team
      | [] => s
    | none => s)

/-- SEND_FLAG_UPDATE: every byte of a sent tile is visible on its die, which adds 1 to the flag; the operation is then complete (R214). -/
def execSendFlagUpdate (send : Nat) (s : State) : MxRes :=
  .next (match tblGet s.sends send with
    | none => s
    | some d =>
      let w := engineOf s d.team d.quartet d.op
      match ((quartetGroups s d.team d.quartet).head?.bind (tblGet s.groups)).bind fun g => findOp g d.op with
      | none => { s with sends := tblErase s.sends send }
      | some o =>
        if !passes s o.engC then s
        else
          let s0 := { s with sends := tblErase s.sends send }
          match resolveName s0 w d.name with
          | (s1, .error c) => noteDone s1 d.team d.quartet d.op { err := some c }
          | (s1, .ok b) =>
            match engAdd s1 { w with site := b.site, core := none, tray := none } d.addr.toNat 1 with
            | (s2, .ok r) => noteDone s2 d.team d.quartet d.op { ctime := r.2 }
            | (s2, .error (.trap c)) => noteDone s2 d.team d.quartet d.op { err := some c }
            | (s2, .error (.page ..)) => noteDone s2 d.team d.quartet d.op { err := some { code := 0x15, info := 0 } }
            | (s2, .error .err) => noteDone s2 d.team d.quartet d.op { err := some { code := 0x1A, info := small 6 } })

end Sys2Proof.Machine
end

