-- ==== Sys2Proof/Machine/Mover.lean ====
section
/-!
DEFINITION. The core's mover: CPY, CPYT and CMIT (R248 to R259), the probe of a copy, the movement of its bytes, and its end.
-/
namespace Sys2Proof.Machine

/-! ### Where a copy's half bytes lie (R88, R251, R253)

A place is a die name, where the translation of another die is used, and twice a byte address plus the half byte. Position h of the
copy order is half byte h. -/

structure HalfPlace where
  die : Option Nat
  half : Nat
deriving DecidableEq, Repr

/-- The element width that TW selects (R250); with no transpose none is used. -/
def twBits (tw : Nat) : Nat := 2 * 2 ^ tw

/-- The bytes of the copy order. -/
def Copy.total (c : Copy) : Nat :=
  if c.kind = 0 then c.rowb * c.nrow else c.e0 * c.e1 * ((readDesc c.descBytes).map (·.ew)).getD 0 / 8

/-- CPY: the source and destination of position h. -/
def cpySrc (c : Copy) (h : Nat) : HalfPlace :=
  { die := none, half := 2 * (c.sa + h / (2 * c.rowb) * c.sstr) + h % (2 * c.rowb) }

def cpyDst (c : Copy) (h : Nat) : HalfPlace :=
  let r := h / (2 * c.rowb)
  let q := h % (2 * c.rowb)
  if c.tw = 0 then { die := none, half := 2 * (c.da + r * c.dstr) + q }
  else
    let k := twBits c.tw / 4
    { die := none, half := 2 * (c.da + q / k * c.dstr) + r * k + q % k }

/-- CPYT: the coordinate of buffer element k. -/
def tileCoord (c : Copy) (k : Nat) : List Nat :=
  let i := if c.transpose then k / c.e1 else k % c.e0
  let j := if c.transpose then k % c.e1 else k / c.e0
  (c.coords.getD 0 0 + i) :: (if c.coords.length ≤ 1 then [] else (c.coords.getD 1 0 + j) :: c.coords.drop 2)

/-- CPYT: the tensor place of position h, none outside the extent. -/
def tensorPlace (c : Copy) (h : Nat) : Option HalfPlace :=
  match readDesc c.descBytes with
  | none => none
  | some d =>
    let x := tileCoord c (h / (d.ew / 4))
    if inExtent d x then
      (c.shards.find? fun e => e.1 == shardOf d x).map fun e =>
        { die := some e.2.1
          half := 2 * ((e.2.2 + shardOffset d x) % 2 ^ 64) + x.getD 0 0 % d.sblk.getD 0 1 * d.ew % 8 / 4 + h % (d.ew / 4) }
    else none

def bufPlace (c : Copy) (h : Nat) : HalfPlace := { die := none, half := 2 * c.buf + h }

/-- The source of position h, none where a zero is written (R253). -/
def Copy.src (c : Copy) (h : Nat) : Option HalfPlace :=
  match c.kind with
  | 0 => some (cpySrc c h)
  | 1 => tensorPlace c h
  | _ => some (bufPlace c h)

/-- The destination of position h, none where the element is dropped. -/
def Copy.dst (c : Copy) (h : Nat) : Option HalfPlace :=
  match c.kind with
  | 0 => some (cpyDst c h)
  | 1 => some (bufPlace c h)
  | _ => tensorPlace c h

/-- The destination bytes that positions below p deliver: with .clip a store drops elements (R253, R256). -/
def Copy.landed (c : Copy) (p : Nat) : Nat :=
  if c.kind = 2 ∧ c.clip = true then ((List.range (2 * p)).filter fun h => (c.dst h).isSome).length / 2 else p

/-- Whether a destination half byte is also a source of the copy: its value is unspecified (R251). -/
def overlapped (c : Copy) (x : HalfPlace) : Bool := (List.range (2 * c.total)).any fun h => c.src h == some x

/-! ### The mover's accesses (R255) -/

/-- Copy uid of group n as an agent (R304): it acts for the group's context on the group's die, or translates on the die that a shard
names. -/
def moverWho (s : State) (n uid : Nat) (g : Group) (die : Option Nat) : State × Except EngFault Who :=
  let w : Who := { engineWho (siteOf s g) (ctxOf s g) with op := some (n, uid) }
  match die with
  | none => (s, .ok w)
  | some nm =>
    match resolveName s w nm with
    | (s1, .error c) => (s1, .error (.trap c))
    | (s1, .ok b) => (s1, .ok { w with site := b.site })

/-- A place k bytes further on, or back, within a page. -/
def Phys.shift (f : Nat → Nat) (p : Phys) : Phys :=
  { p with target := match p.target with
      | .mem loc => .mem (f loc)
      | .fabric peer fa => .fabric peer (f fa) }

/-- The number of a page that a copy touches: of the die that translates it, none for the group's own, and its virtual page. -/
def pageKey (die : Option Nat) (va : Nat) : Nat := ((die.map (· + 1)).getD 0) * 2 ^ 52 + va / 4096

/-- The pages that a copy has translated for one side. -/
def Copy.pages (c : Copy) (write : Bool) : List (Nat × Nat × Phys) := if write then c.writePages else c.readPages

/-- A page joins those of a copy. -/
def Copy.addPage (write : Bool) (e : Nat × Nat × Phys) (c : Copy) : Copy :=
  if (c.pages write).any fun x => x.1 == e.1 then c
  else if write then { c with writePages := c.writePages ++ [e] } else { c with readPages := c.readPages ++ [e] }

/-- The translation of va for a copy: the page that it has translated before (R254), else a translation that it keeps. -/
def copyPhys (s : State) (n : Nat) (g : Group) (c : Copy) (die : Option Nat) (write : Bool) (va : Nat) :
    State × Except EngFault (Who × Phys) :=
  let w : Who := { engineWho (siteOf s g) (ctxOf s g) with op := some (n, c.uid) }
  match (c.pages write).find? fun x => x.1 == pageKey die va with
  | some e => (s, .ok ({ w with site := e.2.1 }, e.2.2.shift (· + va % 4096)))
  | none =>
    match moverWho s n c.uid g die with
    | (s1, .error f) => (s1, .error f)
    | (s1, .ok w) =>
      match engTranslate s1 w va write with
      | (s2, .error f) => (s2, .error f)
      | (s2, .ok p) =>
        (s2.upGroup n (upCopy c.uid (Copy.addPage write (pageKey die va, w.site, p.shift (· - va % 4096)))), .ok (w, p))

/-- A stash of the copy's team or of a cluster member. -/
def stashOf (s : State) (team : Nat) : Option Nat → Option Nat
  | none => some team
  | some k => clusterTeam s team k

/-- The address-window trap of an engine's address. -/
def noWindow (a : Nat) : EngFault := .trap { code := 0x10, info := laddr 0 (BitVec.ofNat 64 a) }

/-- A read of the copy of k bytes through any window of R148. -/
def copyRead (s : State) (n : Nat) (g : Group) (c : Copy) (die : Option Nat) (a k : Nat) : State × Except EngFault (List Byte) :=
  match genericWindow (BitVec.ofNat 64 a) with
  | some (.global va) =>
    (rangePieces va k).foldl (fun r p =>
      match r.2 with
      | .error f => (r.1, .error f)
      | .ok bs =>
        match copyPhys r.1 n g c die false p.1 with
        | (s1, .error f) => (s1, .error f)
        | (s1, .ok (w, ph)) =>
          let x := homeLoad s1 w p.2 ph
          (x.1, if x.2.bad then .error .err else .ok (bs ++ x.2.bytes))) (s, .ok [])
  | some (.stash r off) =>
    match stashOf s g.team r with
    | some t =>
      let w : Who := { engineWho 0 0 with op := some (n, c.uid) }
      let x := stashRead (noteClash s w (clashSlot s t off k)) none t off k
      (x.1, if x.2.bad then .error .err else .ok x.2.bytes)
    | none => (s, .error .err)
  | none => (s, .error (noWindow a))

/-- A write of the copy through any window of R148, and its completion time. A lost site takes none (R257). -/
def copyWrite (s : State) (n : Nat) (g : Group) (c : Copy) (pos : Nat) (die : Option Nat) (a : Nat) (bs : List Byte) :
    State × Except EngFault Nat :=
  match genericWindow (BitVec.ofNat 64 a) with
  | some (.global va) =>
    (rangePieces va bs.length).foldl (fun r p =>
      match r.2 with
      | .error f => (r.1, .error f)
      | .ok t =>
        match copyPhys r.1 n g c die true p.1 with
        | (s1, .error f) => (s1, .error f)
        | (s1, .ok (w, ph)) =>
          let part := (bs.drop (p.1 - va)).take p.2
          match ph.target with
          | .fabric peer fa => (fabSend s1 (asidOf s1 w.site w.ctx) n c.uid pos peer fa 1 p.2 part false, .ok t)
          | .mem loc =>
            if isHbm loc && s1.siteLost.contains (locSite loc) then (s1, .error .err)
            else
              let x := storeAt s1 none loc part
              (x.1, .ok (max t x.2))) (s, .ok 0)
  | some (.stash r off) =>
    match stashOf s g.team r with
    | some t =>
      if fillBad s t off bs.length then (s, .error .err)
      else
        let w : Who := { engineWho 0 0 with op := some (n, c.uid) }
        let x := stashWrite (noteClash s w (clashSlot s t off bs.length)) none t off bs
        (x.1, .ok x.2)
    | none => (s, .error .err)
  | none => (s, .error (noWindow a))

/-- A free byte for the overlap of a copy (R251). -/
def overlapByte (s : State) (a : Nat) : Byte := (Config.freeWord s.draws (2 ^ 58 + a)).truncate 8

/-- The half byte at a place, 0 where the source lies outside the extent. -/
def readHalf (s : State) (n : Nat) (g : Group) (c : Copy) : Option HalfPlace → State × Except EngFault Nat
  | none => (s, .ok 0)
  | some x =>
    let r := copyRead s n g c x.die (x.half / 2 % 2 ^ 64) 1
    (r.1, r.2.map fun bs => leNat bs / 16 ^ (x.half % 2) % 16)

/-- The other half of the byte of a place. -/
def HalfPlace.partner (x : HalfPlace) : HalfPlace := { x with half := x.half / 2 * 2 + (1 - x.half % 2) }

/-- The position of the copy order that delivers the other half of position h's destination byte, none where the copy leaves that half:
the half before or after, the same place a row on or back under .t4 (R251), or an element on or back under .t (R253). -/
def partnerOf (c : Copy) (h : Nat) (x : HalfPlace) : Option Nat :=
  [h + 1, h - 1, h + 2 * c.rowb, h - 2 * c.rowb, h + c.e1, h - c.e1].find? fun k => decide (k < 2 * c.total) && c.dst k == some x.partner

/-- Half byte position h of the copy order is delivered: with the half that shares its destination byte, where a later position of the copy
delivers that; it is written already where an earlier one did; beside what the byte holds where the copy leaves the other half. -/
def moveHalf (s : State) (n : Nat) (g : Group) (c : Copy) (h : Nat) : State × Except EngFault Nat :=
  match c.dst h with
  | none => (s, .ok 0)
  | some x =>
    let a := x.half / 2 % 2 ^ 64
    let k := partnerOf c h x
    if (k.map fun k => decide (k < h) && decide (2 * c.start ≤ k)).getD false then (s, .ok 0)
    else
      match readHalf s n g c (c.src h) with
      | (s1, .error f) => (s1, .error f)
      | (s1, .ok v) =>
        let other := match k with
          | some k => readHalf s1 n g c (c.src k)
          | none =>
            match copyRead s1 n g c x.die a 1 with
            | (s2, .ok bs) => (s2, .ok (leNat bs / 16 ^ (1 - x.half % 2) % 16))
            | (s2, .error .err) => (s2, .ok ((overlapByte s2 a).toNat % 16))
            | (s2, .error f) => (s2, .error f)
        match other with
        | (s2, .error f) => (s2, .error f)
        | (s2, .ok u) =>
          let b := BitVec.ofNat 8 (if x.half % 2 = 0 then v + 16 * u else u + 16 * v)
          copyWrite s2 n g c (h / 2) x.die a [if overlapped c x then overlapByte s2 a else b]

/-- Position p of the copy order, a byte, is copied. -/
def moveByte (s : State) (n : Nat) (g : Group) (c : Copy) (p : Nat) : State × Except EngFault Nat :=
  match moveHalf s n g c (2 * p) with
  | (s1, .error f) => (s1, .error f)
  | (s1, .ok t) =>
    let r := moveHalf s1 n g c (2 * p + 1)
    (r.1, r.2.map (max t))

/-- k bytes from position p on, byte by byte. -/
def moveBytes (s : State) (n : Nat) (g : Group) (c : Copy) (p : Nat) : Nat → State × Except EngFault Nat
  | 0 => (s, .ok 0)
  | k + 1 =>
    match moveBytes s n g c p k with
    | (s1, .error f) => (s1, .error f)
    | (s1, .ok t) =>
      let r := moveByte s1 n g c (p + k)
      (r.1, r.2.map (max t))

/-- A run of k bytes of a copy without transpose within one row, written whole. -/
def moveRun (s : State) (n : Nat) (g : Group) (c : Copy) (p k : Nat) : State × Except EngFault Nat :=
  match copyRead s n g c none ((cpySrc c (2 * p)).half / 2 % 2 ^ 64) k with
  | (s1, .error f) => (s1, .error f)
  | (s1, .ok bs) =>
    let a := (cpyDst c (2 * p)).half / 2
    let out := (List.range k).map fun i =>
      if overlapped c { die := none, half := 2 * (a + i) } then overlapByte s1 (a + i) else bs.getD i 0
    copyWrite s1 n g c p none (a % 2 ^ 64) out

/-- The bytes from position p on that one step moves: up to the end of the row for a plain CPY. -/
def moveStep (s : State) (n : Nat) (g : Group) (c : Copy) (p k : Nat) : State × Except EngFault Nat :=
  if c.kind = 0 ∧ c.tw = 0 then moveRun s n g c p k else moveBytes s n g c p k

/-- The length of a step of at most k bytes from position p. -/
def stepLen (c : Copy) (p k : Nat) : Nat :=
  let m := min k (c.total - p)
  if c.kind = 0 ∧ c.tw = 0 then min m (c.rowb - p % c.rowb) else m

/-! ### The copy changes -/

/-- No request of the copy to a peer panel is outstanding. -/
def copyQuiet (s : State) (c : Copy) : Bool := !fabricOpen s c.uid

/-- The copy has ended: every byte is in place, or an error has stopped it, and its barrier has been lowered by all it accounts for. -/
def copyEnds (s : State) (c : Copy) : Bool :=
  c.done || (c.probed && c.err.isNone && decide (c.total ≤ c.offset) && copyQuiet s c && (c.bar.isNone || decide (c.total ≤ c.lowered)))

/-- The mover's lowering of a barrier by k bytes for group g (R256). -/
def lowerFor (s : State) (g : Group) (bar : Option Nat) (k : Nat) (err : Bool) : State :=
  match bar with
  | none => s
  | some a =>
    match barrierPlace s g (BitVec.ofNat 32 a) with
    | some (t, off) => lowerPend s t off k err
    | none => s

/-- A copy ends with an error, its bytes below `bound` written: its copy offset is any multiple of 4 up to the first of its writes that is
still on its way to a peer panel (R257). CPOFF is the offset of the youngest copy that has been stopped (R258). Its barrier is lowered by all
that is not yet attributed once what it wrote is visible (R256). -/
def stopCopy (s : State) (n uid bound : Nat) : State :=
  match tblGet s.groups n with
  | none => s
  | some g =>
    match findCopy g uid with
    | none => s
    | some c =>
      let open_ := s.fabOut.filter fun q => q.2.op == uid && q.2.kind != 0
      let top := (open_.map fun q => q.2.lane).foldl min (min bound c.offset)
      let off := Config.freeIndex s.draws uid % (top / 4 + 1) * 4
      s.upGroup n fun g =>
        { upCopy uid (fun c => { c with offset := off, done := c.bar.isNone, err := some { code := 0x1A, info := small 5 } }) g with
          cpoff := if g.cpofUid ≤ uid then BitVec.ofNat 64 off else g.cpoff
          cpofUid := max g.cpofUid uid }

/-- The stores that a copy with .rel waits for are all acknowledged (R255). -/
def relDone (g : Group) (c : Copy) : Bool := c.relOps.all fun u => !(g.ops.any fun o => o.uid == u && o.stage != .complete)

/-- The errors that copy i of a copy group reports: the one that stopped it, with its index in [13:8] (R257, R271), and a bind conflict
(R186). -/
def copyCauses (c : Copy) (i : Nat) : List Cause :=
  (c.err.map fun e => { e with info := small (5 + 256 * i) }).toList ++ (c.clash.map fun k => ({ code := 0x1C, info := small k } : Cause)).toList

/-- A copy that its group never committed, in a group that has ended, leaves when it is done; its error goes to the context (R257,
R259). -/
def dropEnded (s : State) (n uid : Nat) : State :=
  match tblGet s.groups n with
  | none => s
  | some g =>
    match findCopy g uid with
    | none => s
    | some c =>
      if g.ended && g.openCopies.contains uid && copyEnds s c && passes s c.ctime then
        let s1 := s.putGroup n { g with copies := g.copies.filter fun c => c.uid != uid, openCopies := g.openCopies.filter (· != uid) }
        settleTeam ((copyCauses c 0).foldl (fun s e => contextError s (siteOf s g) (ctxOf s g) 2 e.code 0) s1) g.team
      else s

/-- The bytes that have been delivered and are visible lower the copy's barrier; a copy that an error stopped accounts for all the rest, with
ERR (R256). Log entry 55 (DEDUCED). -/
def attributeBytes (s : State) (n uid : Nat) : State :=
  match tblGet s.groups n with
  | none => s
  | some g =>
    match findCopy g uid with
    | none => s
    | some c =>
      if c.done || c.bar.isNone || !copyQuiet s c || !passes s c.ctime then s
      else if c.err.isSome then
        (lowerFor s g c.bar (c.landed c.total - c.landed c.lowered) true).upGroup n (upCopy uid fun c => { c with done := true })
      else if c.offset ≤ c.lowered then s
      else (lowerFor s g c.bar (c.landed c.offset - c.landed c.lowered) false).upGroup n (upCopy uid fun c => { c with lowered := c.offset })

/-- The mover moves up to k more bytes of a copy: while its group is stopped, at most to the next multiple of 128 (R258). -/
def moveCopy (s : State) (n uid k : Nat) : State :=
  match tblGet s.groups n with
  | none => s
  | some g =>
    match findCopy g uid with
    | none => s
    | some c =>
      if c.done || c.err.isSome || !c.probed || !relDone g c || decide (c.total ≤ c.offset) then s
      else
        let m := stepLen c c.offset (if g.stopped then min (k / 4 * 4) (128 - c.offset % 128) else k / 4 * 4)
        match moveStep s n g c c.offset m with
        | (s1, .ok t) => s1.upGroup n (upCopy uid fun c => { c with offset := c.offset + m, ctime := max c.ctime t })
        | (s1, .error (.page ..)) => s1
        | (s1, .error _) => stopCopy s1 n uid c.offset

/-- The lowering of the barriers of a .mclu multicast with BAR by the bytes that each member received, once they are visible (R178,
R256). -/
def lowerMulticast (s : State) (n uid : Nat) (o : Op) : State :=
  match tblGet s.groups n, o.kind with
  | some g, some (.multicast _ _ _ (some bar)) =>
    if o.copies = [] || o.stage != .performed || !linesAcked g o || !passes s o.ctime then s
    else
      let s1 := o.copies.foldl (fun s k =>
        match clusterTeam s g.team k with
        | some t => lowerPend s t bar o.need (o.failed.getLsbD k)
        | none => s) s
      s1.upOperation n uid fun o => { o with need := 0, copies := [] }
  | _, _ => s

/-- BARRIER_PEND_LOWER (R178, R256): a copy's delivered bytes lower its barrier once visible, and the mover delivers up to `bytes` more;
or a multicast's bytes lower the barrier of each of its members. -/
def execBarrierPendLower (g : Nat) (copy : Nat) (bytes : Nat) (s : State) : MRes :=
  match (tblGet s.groups g).bind fun x => findOp x copy with
  | some o => .next (lowerMulticast s g copy o)
  | none => .next (dropEnded (moveCopy (attributeBytes s g copy) g copy bytes) g copy)

/-- COPY_ERROR_STOP (R257): an uncorrectable error, a die lost or an unreachable peer stops a running copy. -/
def execCopyErrorStop (g : Nat) (copy : Nat) (_cause : BitVec 8) (s : State) : MRes :=
  match (tblGet s.groups g).bind fun x => findCopy x copy with
  | some c => .next (if c.probed && !c.done && c.err.isNone && decide (c.offset < c.total) then stopCopy s g copy c.offset else s)
  | none => .next s

/-! ### The probe (R254) -/

/-- One range that a copy touches. -/
structure ProbeRange where
  die : Option Nat
  addr : Nat
  len : Nat
  write : Bool
deriving DecidableEq, Repr

/-- The ranges of one side: a row each for CPY, the bytes of each position for CPYT. -/
def sideRanges (c : Copy) (write : Bool) (f : Nat → Option HalfPlace) : List ProbeRange :=
  if c.kind = 0 then
    if c.tw = 0 || !write then
      (List.range c.nrow).map fun r =>
        { die := none, addr := ((f (2 * c.rowb * r)).map (·.half / 2)).getD 0, len := c.rowb, write := write }
    else
      (List.range (8 * c.rowb / twBits c.tw)).map fun k =>
        { die := none, addr := c.da + k * c.dstr, len := c.nrow * twBits c.tw / 8, write := write }
  else (List.range (2 * c.total)).filterMap fun h => (f h).map fun x => { die := x.die, addr := x.half / 2, len := 1, write := write }

def Copy.ranges (c : Copy) : List ProbeRange := sideRanges c false c.src ++ sideRanges c true c.dst

/-- The stash part of a range: its window and bounds (R148, R149). -/
def stashProbe (s : State) (g : Group) (a n : Nat) : List EngFault :=
  match genericWindow (BitVec.ofNat 64 a) with
  | some (.stash r off) =>
    if stashSize s g.team < off + n || (r.map fun k => decide (clusterSize s g.team ≤ k)).getD false then
      [.trap { code := 0x11, info := laddr (uniLane g) (BitVec.ofNat 64 a) }]
    else []
  | _ => [.trap { code := 0x10, info := laddr (uniLane g) (BitVec.ofNat 64 a) }]

/-- A translation trap of the probe as TRAPINFO shows it: an address takes the LADDR layout. -/
def probeCause (g : Group) (va : Nat) (c : Cause) : Cause :=
  if c.code = 0x16 ∨ c.code = 0x10 then { c with info := laddr (uniLane g) (BitVec.ofNat 64 va) } else c

/-- What a probe has met so far: the pages translated, and the faults, each with the die that a shard names and whether the copy writes
there. -/
structure Probed where
  s : State
  copy : Copy
  faults : List (Option Nat × Bool × EngFault) := []

/-- A piece of a range within one page passes the probe, or a fault is noted. -/
def probePiece (g : Group) (r : ProbeRange) (w : Who) (x : Probed) (va : Nat) : Probed :=
  if (x.copy.pages r.write).any fun e => e.1 == pageKey r.die va then x
  else
    match engTranslate x.s w va r.write with
    | (s1, .error (.trap c)) => { x with s := s1, faults := x.faults ++ [(r.die, r.write, .trap (probeCause g va c))] }
    | (s1, .error f) => { x with s := s1, faults := x.faults ++ [(r.die, r.write, f)] }
    | (s1, .ok p) => { x with s := s1, copy := x.copy.addPage r.write (pageKey r.die va, w.site, p.shift (· - va % 4096)) }

/-- The probe of one range. -/
def probeOne (n uid : Nat) (g : Group) (x : Probed) (r : ProbeRange) : Probed :=
  let a := r.addr % 2 ^ 64
  if inGlobal a then
    match moverWho x.s n uid g r.die with
    | (s1, .error f) => { x with s := s1, faults := x.faults ++ [(r.die, r.write, f)] }
    | (s1, .ok w) => (rangePieces a r.len).foldl (fun x p => probePiece g r w x p.1) { x with s := s1 }
  else { x with faults := x.faults ++ (stashProbe x.s g a r.len).map fun f => (none, r.write, f) }

/-- The probe of a copy: its ranges on both sides. -/
def probeCopy (s : State) (n : Nat) (g : Group) (c : Copy) : Probed := c.ranges.foldl (probeOne n c.uid g) { s := s, copy := c }

/-- The trap that the probe raises: the lowest code, and with it the lowest name or address (R254). -/
def probeTrap (fs : List (Option Nat × Bool × EngFault)) : Option Cause :=
  (fs.map (·.2.2)).foldl (fun (m : Option Cause) f =>
    match f, m with
    | .trap c, none => some c
    | .trap c, some x => if c.code < x.code ∨ (c.code = x.code ∧ c.info.toNat < x.info.toNat) then some c else m
    | .err, none => some { code := 0x1A, info := small 0 }
    | _, _ => m) none

/-- The shards that a tile touches, with their table entries (R394); the descriptor trap where one is invalid. -/
def tileShards (s : State) (w : Who) (d : Desc) (ks : List Nat) : State × Except DescFault (List (Nat × Nat × Nat)) :=
  ks.foldl (fun (x : State × Except DescFault (List (Nat × Nat × Nat))) k =>
    match x.2 with
    | .error f => (x.1, .error f)
    | .ok l =>
      let r := fetchShard x.1 w d.stab k
      (r.1, r.2.map fun e => l ++ [(k, e.1, e.2)])) (s, .ok [])

/-- The group gives the copy up and takes a trap. -/
def failCopy (s : State) (n uid : Nat) (x : Cause) : State :=
  trapAt (s.upGroup n fun g => { g with copies := g.copies.filter fun c => c.uid != uid, wait := .none }) n x.code x.info

/-- The group parks at a page fault of the probe, on the die whose walk met it (R163, R254, R395). -/
def parkCopy (s : State) (n uid : Nat) (die : Option Nat) (isWrite : Bool) (va cause level pte : Nat) : State :=
  if ((tblGet s.groups n).bind (·.tx)).isSome then s.upGroup n (abortTx 3 0)
  else
    let f := s.fresh
    let r := faultRec s n 3 va isWrite cause level pte 0
    (parkAt s { r with die := die.getD r.die }).upGroup n (upCopy uid fun c => { c with parked := some f })

/-- The lowest page fault among the faults. -/
def probePage (fs : List (Option Nat × Bool × EngFault)) : Option (Option Nat × Bool × Nat × Nat × Nat × Nat) :=
  fs.foldl (fun m f =>
    match f.2.2 with
    | .page va c l p => if (m.map fun x => decide (x.2.2.1 ≤ va)).getD false then m else some (f.1, f.2.1, va, c, l, p)
    | _ => m) none

/-- What the probe of a copy comes to: a trap, a page fault at which the group parks, or its pass, after which the copy joins the open
group and the group goes on. -/
def judgeProbe (n : Nat) (x : Probed) : State :=
  let uid := x.copy.uid
  match probeTrap x.faults with
  | some c => failCopy x.s n uid c
  | none =>
    match probePage x.faults with
    | some (die, wr, va, c, l, p) => parkCopy x.s n uid die wr va c l p
    | none =>
      x.s.upGroup n fun g =>
        { advance 2 (upCopy uid (fun _ => { x.copy with probed := true }) g) with openCopies := g.openCopies ++ [uid], wait := .none }

/-- COPY_PROBE_END (R254). -/
def execCopyProbeEnd (g : Nat) (s : State) : MRes :=
  match tblGet s.groups g with
  | some gr =>
    match gr.wait with
    | .probe uid =>
      match findCopy gr uid with
      | some c => .next (if c.parked.isSome then s else judgeProbe g (probeCopy s g gr c))
      | none => .next s
    | _ => .next s
  | none => .next s

/-! ### CPY (R249 to R251) -/

/-- The copy joins the mover: its probe is under way. With .rel it drains the write-combining buffer and notes the stores to wait for
(R255); with .resume it starts at CPOFF as read at issue (R257). -/
def startCopy (s : State) (i : Instr) (rel res : Bool) (cpoff : Word64) (c : Copy) : State :=
  let uid := s.fresh
  let s1 := if rel then drainWcb s s.cur else s
  s1.bump.upGroup s.cur fun g1 =>
    let at_ := if res then min cpoff.toNat c.total else 0
    { g1 with
      copies := g1.copies ++ [{ c with uid := uid, words := wordsOf i, relOps := if rel then unacked g1 else [], start := at_, offset := at_, lowered := at_ }]
      wait := .probe uid }

/-- The causes that a copy's barrier raises at issue. -/
def copyBarFaults (s : State) (g : Group) (baron : Bool) (a : Word) : List LaneFault := if baron then barrierFaults s g a false else []

/-- A misaligned address of a copy. -/
def copyMisaligned (g : Group) (a : Nat) : LaneFault := { code := 0x12, lane := uniLane g, addr := BitVec.ofNat 64 a }

/-- The addresses and strides of CPY that are not multiples of 4, lowest first by address (R250). Log entry 35 (DEDUCED). -/
def cpyAlign (g : Group) (c : Copy) : List LaneFault :=
  let bad := (if c.sa % 4 ≠ 0 ∨ c.sstr % 4 ≠ 0 then [c.sa] else []) ++ (if c.da % 4 ≠ 0 ∨ c.dstr % 4 ≠ 0 then [c.da] else [])
  match bad with
  | [] => []
  | x :: rest => [copyMisaligned g (rest.foldl min x)]

/-- The limits of R250 on shape and strides. -/
def cpyShapeOk (c : Copy) : Bool :=
  let col := c.nrow * twBits c.tw / 8
  c.rowb % 4 == 0 && decide (4 ≤ c.rowb) && decide (c.rowb ≤ 16777216) && decide (1 ≤ c.nrow) && decide (c.nrow ≤ 65536) &&
    decide (c.rowb ≤ c.sstr) && (if c.tw = 0 then decide (c.rowb ≤ c.dstr) else decide (col ≤ c.dstr) && c.nrow * twBits c.tw % 32 == 0)

/-- The open copy group has room for another copy (R248). -/
def groupRoom (g : Group) : Bool := decide (g.openCopies.length < 64)

/-- CPY (R249 to R251): the limits at issue, then its probe. -/
def execCpy (dsta : BitVec 7) (srca : BitVec 7) (shape : BitVec 7) (str : BitVec 7) (bar : BitVec 7) (baron : Bool) (rel : Bool) (res : Bool)
    (tw : BitVec 3) (s : State) : MRes :=
  onGroup s fun g =>
    let vals := operands g [usrc64 s g 0 dsta, usrc64 s g 1 srca, usrc64 s g 2 shape, usrc64 s g 4 str, (usrc s g tInt 6 bar).setWidth 64, g.cpoff]
    let sh := vals.getD 2 0
    let st := vals.getD 3 0
    let rowb := (lo32 sh).toNat
    let nrow := (hi32 sh).toNat
    let dense := str = 104
    let a := lo32 (vals.getD 4 0)
    let c : Copy :=
      { uid := 0, words := 0, kind := 0, da := (vals.getD 0 0).toNat, sa := (vals.getD 1 0).toNat, rowb := rowb, nrow := nrow,
        sstr := if dense then rowb else (lo32 st).toNat,
        dstr := if dense then (if tw = 0 then rowb else nrow * twBits tw.toNat / 8) else (hi32 st).toNat,
        tw := tw.toNat, bar := if baron then some a.toNat else none }
    match lowestFault (copyBarFaults s g baron a ++ cpyAlign g c) with
    | some x => trapAt s s.cur x.code x.info
    | none =>
      if !cpyShapeOk c || !groupRoom g then trapAt s s.cur 0x30 0
      else startCopy s (.cpy dsta srca shape str bar baron rel res tw) rel res (vals.getD 5 0) c

/-! ### CPYT (R252, R253) -/

/-- The limits of R253 on a tile. -/
def tileOk (c : Copy) (d : Desc) : Bool :=
  decide (1 ≤ c.e0) && decide (c.e0 ≤ 65536) && decide (1 ≤ c.e1) && decide (c.e1 ≤ 65536) && (d.rank != 1 || c.e1 == 1) &&
    c.e0 * d.ew % 32 == 0 && (!c.transpose || (c.e1 * d.ew % 32 == 0 && decide (d.ew ≤ 32) && decide (2 ≤ d.rank)))

/-- Every element of the tile is in the extent. -/
def tileInside (c : Copy) (d : Desc) : Bool :=
  decide (c.coords.getD 0 0 + c.e0 ≤ d.ext.getD 0 1) && (d.rank = 1 || decide (c.coords.getD 1 0 + c.e1 ≤ d.ext.getD 1 1)) &&
    ((List.range d.rank).drop 2).all fun k => decide (c.coords.getD k 0 < d.ext.getD k 1)

/-- The bytes of descriptor i as the die's descriptor cache holds them after its fetch. -/
def cachedDesc (s : State) (w : Who) (table i : Nat) : List Byte :=
  match ((tblGet s.dies w.site).map (·.descs)).bind fun ds => ds.find? fun e => e.1 == descKey s w table && e.2.1 == i with
  | some e => readBytes e.2.2 0 64
  | none => []

/-- The blocks of a dimension that the tile's elements o to o + e − 1 touch within the extent. -/
def blocksOf (o e blk ext : Nat) : List Nat :=
  (List.range (ceilDiv ext blk)).filter fun j => decide (o < (j + 1) * blk) && decide (j * blk < min (o + e) ext)

/-- The coordinates at which the runs of the tile's elements within one row of one shard begin. -/
def tileRuns (c : Copy) (d : Desc) : List (List Nat) :=
  let o0 := c.coords.getD 0 0
  let starts := (blocksOf o0 c.e0 (d.sblk.getD 0 1) (d.ext.getD 0 1)).map fun j => max o0 (j * d.sblk.getD 0 1)
  let rows := (List.range c.e1).map fun j => c.coords.getD 1 0 + j
  (rows.flatMap fun y => starts.map fun x => x :: (if c.coords.length ≤ 1 then [] else y :: c.coords.drop 2)).filter (inExtent d)

/-- The shard numbers of the tile's elements in extent. -/
def shardsOf (c : Copy) (d : Desc) : List Nat :=
  let tail := c.coords.drop 2
  let at0 := blocksOf (c.coords.getD 0 0) c.e0 (d.sblk.getD 0 1) (d.ext.getD 0 1)
  let at1 := if c.coords.length ≤ 1 then [0] else blocksOf (c.coords.getD 1 0) c.e1 (d.sblk.getD 1 1) (d.ext.getD 1 1)
  if (List.range d.rank).all fun k => k < 2 || decide (c.coords.getD k 0 < d.ext.getD k 1) then
    at1.flatMap fun j => at0.map fun i => shardOf d (i * d.sblk.getD 0 1 :: (if c.coords.length ≤ 1 then [] else j * d.sblk.getD 1 1 :: tail))
  else []

/-- The elements of a run from coordinate x on. -/
def runLength (c : Copy) (d : Desc) (x : List Nat) : Nat :=
  min (c.coords.getD 0 0 + c.e0) (min (d.ext.getD 0 1) ((x.getD 0 0 / d.sblk.getD 0 1 + 1) * d.sblk.getD 0 1)) - x.getD 0 0

/-- The causes that a tile's places raise at issue (R395, R396): a run that begins inside a byte, and an address outside the global window.
Log entry 56 (DEDUCED). -/
def tileFaults (g : Group) (c : Copy) (d : Desc) : List LaneFault :=
  (tileRuns c d).flatMap fun x =>
    let base := ((c.shards.find? fun e => e.1 == shardOf d x).map fun e => e.2.2).getD 0
    let a := (base + shardOffset d x) % 2 ^ 64
    let last := a + (runLength c d x * d.ew + 7) / 8 - 1
    let at_ (code a : Nat) : LaneFault := { code := code, lane := uniLane g, addr := BitVec.ofNat 64 a }
    (if inGlobal a && inGlobal last then [] else [at_ 0x10 (if inGlobal a then last / 4096 * 4096 else a)]) ++
      (if midByte d x then [at_ 0x12 a] else [])

/-- The lowest cause, and the lowest address that raises it. -/
def lowestAddr (fs : List LaneFault) : Option Cause :=
  (fs.foldl (fun (m : Option LaneFault) f =>
    match m with
    | none => some f
    | some x => if f.code < x.code ∨ (f.code = x.code ∧ f.addr.toNat < x.addr.toNat) then some f else m) none).map fun f =>
      { code := f.code, info := laddr f.lane f.addr }

/-- The selected group takes the trap of the causes found, or the machine goes on otherwise. -/
def elseTrap (s : State) (fs : List LaneFault) (t : State) : State :=
  match lowestAddr fs with
  | some x => trapAt s s.cur x.code x.info
  | none => t

/-- A fetch for a tile fails: with the descriptor trap, or in an access for the whole group. -/
def tileFails (s : State) (g : Group) (pre : List LaneFault) (vals : List Word64) (f : DescFault) : State :=
  elseTrap s pre (match f with
    | .desc => trapAt s s.cur 0x13 (onesBelow g.width)
    | .eng f => wholeFault s s.cur false (onesBelow g.width) f (some vals))

/-- The operands of a tile as they are captured: BUF, EXT, BAR, the descriptor number, its coordinates, and CPOFF. -/
def tileValues (s : State) (g : Group) (desc coord buf ext bar : BitVec 7) : List Word64 :=
  [usrc64 s g 4 buf, usrc64 s g 2 ext, (usrc s g tInt 6 bar).setWidth 64, (usrc s g tInt 5 desc).setWidth 64] ++
    ((List.range 4).map fun k => ((coordsOf s g coord (k + 1) 0).bind fun cs => cs[k]?).elim 0 (BitVec.ofNat 64)) ++ [g.cpoff]

/-- CPYT of one direction: the descriptor, the limits at issue, then the probe. Log entry 56 (DEDUCED). -/
def copyTile (s : State) (i : Instr) (kind : Nat) (desc coord buf ext bar : BitVec 7) (baron rel res tr clip : Bool) : MRes :=
  onGroup s fun g =>
    let w := engineWho (siteOf s g) (ctxOf s g) (some s.cur)
    let launch := (gridOf s g).map (·.launch)
    let table := (launch.map (·.desc.toNat)).getD 0
    let vals := operands g (tileValues s g desc coord buf ext bar)
    let a := lo32 (vals.getD 2 0)
    let b := (vals.getD 0 0).toNat
    let k := (vals.getD 3 0).toNat
    let e := vals.getD 1 0
    let pre := copyBarFaults s g baron a ++ (if b % 4 ≠ 0 then [copyMisaligned g b] else [])
    match fetchDesc s w table ((launch.map (·.ndesc)).getD 0) k with
    | (s1, .error f) => tileFails s1 g pre vals f
    | (s1, .ok d) =>
      match coordsOf s1 g coord d.rank 0 with
      | none => tileFails s1 g pre vals .desc
      | some _ =>
        let c : Copy :=
          { uid := 0, words := 0, kind := kind, buf := b, e0 := (lo32 e).toNat, e1 := (hi32 e).toNat,
            coords := ((vals.drop 4).take d.rank).map (·.toNat), descBytes := cachedDesc s1 w table k, desc := k, transpose := tr,
            clip := clip, bar := if baron then some a.toNat else none }
        if !clip && !tileInside c d then tileFails s1 g pre vals .desc
        else
          match tileShards s1 w d (shardsOf c d) with
          | (s2, .error f) => tileFails s2 g pre vals f
          | (s2, .ok sh) =>
            let c1 := { c with shards := sh }
            elseTrap s2 (pre ++ tileFaults g c1 d)
              (if !tileOk c d || !groupRoom g then trapAt s2 s2.cur 0x30 0 else startCopy s2 i rel res (vals.getD 8 0) c1)

/-- CPYT.load (R252, R253). -/
def execCpytLoad (desc : BitVec 7) (coord : BitVec 7) (buf : BitVec 7) (ext : BitVec 7) (bar : BitVec 7) (baron : Bool) (rel : Bool)
    (res : Bool) (tr : Bool) (clip : Bool) (s : State) : MRes :=
  copyTile s (.cpytLoad desc coord buf ext bar baron rel res tr clip) 1 desc coord buf ext bar baron rel res tr clip

/-- CPYT.store (R252, R253). -/
def execCpytStore (desc : BitVec 7) (coord : BitVec 7) (buf : BitVec 7) (ext : BitVec 7) (bar : BitVec 7) (baron : Bool) (rel : Bool)
    (res : Bool) (tr : Bool) (clip : Bool) (s : State) : MRes :=
  copyTile s (.cpytStore desc coord buf ext bar baron rel res tr clip) 2 desc coord buf ext bar baron rel res tr clip

/-! ### CMIT and retirement (R255, R257, R259) -/

/-- CMIT (R259): the open copy group closes and counts on CP. -/
def execCmit (s : State) : MRes :=
  onGroup s fun g =>
    if counterFull g .cp then stall s
    else
      let o : Op := { uid := s.fresh, ctr := .cp, len := 1, stage := .performed, copies := g.openCopies }
      s.bump.putGroup s.cur (advance 1 { issueOp g o with openCopies := [] })

/-- The copies of a closed copy group. -/
def groupCopies (g : Group) (o : Op) : List Copy := o.copies.filterMap fun u => findCopy g u

/-- The latest completion time of a copy group's writes. -/
def copiesTime (cs : List Copy) : Nat := cs.foldl (fun a c => max a c.ctime) 0

/-- A copy group may retire: each of its copies has ended, and LEASECLK has passed their completion times (R255). -/
def copiesReady (s : State) (g : Group) (o : Op) : Bool :=
  (groupCopies g o).all (copyEnds s) && ((groupCopies g o).isEmpty || passes s (copiesTime (groupCopies g o)))

/-- The errors of a copy group, copy by copy (R257). -/
def copyErrors (g : Group) (o : Op) : List Cause :=
  (List.range o.copies.length).flatMap fun i => ((findCopy g (o.copies.getD i 0)).map fun c => copyCauses c i).getD []

/-- A closed copy group retires: its copies leave, and their errors pend on CP, or go to the context of a group that has ended. -/
def retireCopies (s : State) (n : Nat) (o : Op) : State :=
  match tblGet s.groups n with
  | none => s
  | some g =>
    let errs := copyErrors g o
    let s1 := s.putGroup n { g with copies := g.copies.filter fun c => !o.copies.contains c.uid }
    let s2 := retireOp s1 n { o with engC := copiesTime (groupCopies g o) }
    errs.foldl (fun s e =>
      match tblGet s.groups n with
      | some g => if g.ended then contextError s (siteOf s g) (ctxOf s g) 2 e.code 0 else s.putGroup n (reportErr g .cp e)
      | none => s) s2

end Sys2Proof.Machine
end

