-- ==== Sys2Proof/Machine/Outside.lean ====
section
/-!
DEFINITION. The memory-side cache, the name caches and Rinse (R383, R392, R455 to R458); the host's accesses to device memory (R334,
R424); and the Tachena fabric (R419 to R423).
-/
namespace Sys2Proof.Machine

/-! ### Name caches (R392) -/

/-- NAME_CACHE_MISS (R392): a tray's name cache reads an entry at its home. -/
def execNameCacheMiss (tray : Nat) (name : BitVec 6) (s : State) : EvRes :=
  .next (if ((tblGet s.trays tray).map fun t => t.names.any fun e => e.1 == name.toNat).getD true then s
    else let r := nameRead s (tray / 3) name.toNat; cacheName r.1 tray name.toNat r.2)

/-! ### The dirty side table (R383) -/

/-- MSC_WRITEBACK (R383, R457). -/
def execMscWriteback (line : Nat) (s : State) : EvRes := .next (writeBack s line)

/-! ### Rinse (R456) -/

/-- The bytes of a line as they stand in HBM. -/
def hbmLine (s : State) (line : Nat) : List Byte :=
  match tblGet s.hbmOld line with
  | some c => readBytes c 0 128
  | none => readBytes s.mem (128 * line) 128

/-- A block as it stands in HBM, none where a read of it meets an uncorrectable error. -/
def hbmBlock (s : State) (block : Nat) : Option (List Byte) :=
  if badRead s (4096 * block) 4096 then none else some ((List.range 32).flatMap fun i => hbmLine s (32 * block + i))

/-- Rinse copies a held block to its destination and releases it; a failure is noted in its region (R455, R456). -/
def drainBlock (s : State) (block : Nat) : State :=
  match tblGet s.held block with
  | none => s
  | some h =>
    let site := locSite (4096 * block)
    let s0 := { s with held := tblErase s.held block }
    match hbmBlock s block with
    | none => regionStatus s0 h.entry h.ctx site 1 (h.offset / 4096)
    | some bs =>
      match engWrite s0 { engineWho site h.ctx with op := some (0, h.pkt) } (h.dst.toNat + h.offset) bs with
      | (s1, .ok c) => { s1 with drains := tblUp s1.drains h.pkt fun d => { d with ctime := max d.ctime c } }
      | (s1, .error _) => regionStatus s1 h.entry h.ctx site 2 (h.offset / 4096)

/-- A checkpoint whose blocks have all been released, their writes completed: DADDR rises by 1. Where the serving engine's site is lost it
never does. Log entry 65 (DEDUCED). -/
def finishDrain (s : State) (pkt : Nat) (d : Drain) : State :=
  if s.held.any fun e => e.2.pkt == pkt then s
  else if s.siteLost.contains d.site then { s with drains := tblErase s.drains pkt }
  else if !passes s d.ctime then s
  else
    let s1 := { s with drains := tblErase s.drains pkt }
    if d.daddr = 0 then s1 else (engAdd s1 { engineWho d.site d.ctx with op := some (0, pkt) } d.daddr.toNat 1).1

def finishDrains (s : State) : State := s.drains.foldl (fun s e => finishDrain s e.1 e.2) s

/-- RINSE_DRAIN (R456): a held block drains; then the checkpoints that have drained raise their DADDR. -/
def execRinseDrain (block : Nat) (s : State) : EvRes := .next (finishDrains (drainBlock s block))

/-! ### The host's accesses (R334, R424) -/

/-- The port that carries a host line: on both trained ports bit 12 of its address chooses, else the one that is trained. -/
def hostPort (s : State) (addr : Nat) : Option Nat :=
  match s.ports.contains 0, s.ports.contains 2 with
  | true, true => some (if addr / 4096 % 2 = 0 then 0 else 2)
  | true, false => some 0
  | false, true => some 2
  | false, false => none

/-- HOST_PORT_TRAINING (R424). -/
def execHostPortTraining (port : Nat) (up : Bool) (s : State) : EvRes :=
  .next (if port = 0 ∨ port = 2 then
    { s with ports := if up then [0, 2].filter fun p => p == port || s.ports.contains p else s.ports.filter (· != port) }
  else s)

/-- The location that an offset of the HDM-DB range maps to: none where its name is unmapped or lost. -/
def hdmLoc (s : State) (off : Nat) : Option Nat :=
  let site := lowestSite s
  match bindOf s site (off / 2 ^ 36) (if off / 2 ^ 36 < 48 then (nameHome s site (off / 2 ^ 36)).toNat else 0) with
  | .ok b => (nameLoc b (off % 2 ^ 36)).toOption
  | .error _ => none

/-- The host may hold a line: shared by a read, alone for a write. -/
def holdLine (s : State) (line : Nat) (alone : Bool) : State :=
  { s with hostHolds := tblSet s.hostHolds line (if alone || tblGet s.hostHolds line == some .exclusive then .exclusive else .shared) }

/-- A write or atomic of the host to a piece of a line waits for LEASECLK to pass the line's lease; meanwhile the host holds the line
alone. -/
def hostWrite (s : State) (kind loc : Nat) (bs : List Byte) : State :=
  let s1 := holdLine s (lineOf loc) true
  { s1 with hostWrites := tblSet s1.hostWrites s1.fresh { addr := loc, bytes := bs, kind := kind }, fresh := s1.fresh + 1 }

/-- The bytes that a host read returns: unspecified where they meet an uncorrectable error. -/
def hostBytes (s : State) (got : Got) : List Byte :=
  if got.bad then (List.range got.bytes.length).map fun i => (lostWord s 0 i).truncate 8 else got.bytes

/-- The host's own accesses need no snoop of a line. -/
def unheld (s : State) (line : Nat) : State := { s with hostHolds := tblErase s.hostHolds line }

/-- A read of the host at a home. -/
def hostLoad (s : State) (loc n : Nat) : State × Got :=
  let r := loadAt (unheld s (lineOf loc)) none loc n
  ({ r.1 with hostHolds := s.hostHolds }, r.2)

/-- The update of an atomic by its kind: 2 add, 3 exchange, 4 compare and swap, 5 flag increment; its word's new value. -/
def fabUpdate (kind old : Nat) (data : List Byte) : Nat :=
  let k := if kind = 4 then data.length / 2 else data.length
  match kind with
  | 2 => (old + leNat data) % 2 ^ (8 * k)
  | 3 => leNat data
  | 4 => if old = bytesNum data 0 k then bytesNum data k k else old
  | _ => (old + 1) % 2 ^ 64

/-- The bytes that a request touches. -/
def fabSize (kind : Nat) (data : List Byte) : Nat := if kind = 4 then data.length / 2 else if kind = 5 then 8 else data.length

/-- A host access is one that the home takes: an atomic has 4 or 8 aligned bytes. -/
def hostTakes (kind loc : Nat) (data : List Byte) : Bool :=
  let n := fabSize kind data
  decide (kind ≤ 1) || (decide (kind ≤ 4) && (n == 4 || n == 8) && loc % n == 0)

/-- HOST_ACCESS (R334, R349, R424): a read of as many bytes as `data` has, a write of `data`, or an atomic. Log entry 63 (DEDUCED). -/
def execHostAccess (kind : BitVec 3) (off : Nat) (data : List (BitVec 8)) (s : State) : EvRes :=
  match (if s.phase = .running then hdmLoc s off else none), hdmLoc s (off + data.length - 1) with
  | some loc, some _ =>
    if !hostTakes kind.toNat loc data then .next { s with outputs := s.outputs ++ [.hostUnsupported] }
    else if kind = 0 then
      let r := hostLoad s loc data.length
      let s1 := (pieces loc data).foldl (fun s p => holdLine s (lineOf p.1) false) r.1
      .next { s1 with outputs := s1.outputs ++ [.hostData (hostBytes s r.2)] }
    else if kind = 1 then .next ((pieces loc data).foldl (fun s p => hostWrite s 1 p.1 p.2) s)
    else .next (hostWrite s kind.toNat loc data)
  | _, _ => .next { s with outputs := s.outputs ++ [.hostUnsupported] }

/-- A write or atomic of the host is performed at its home with this tick as its completion time. -/
def hostPerform (s : State) (h : HostWrite) : State :=
  let line := lineOf h.addr
  let n := fabSize h.kind h.bytes
  let got := hostLoad s h.addr n
  let bs := if h.kind = 1 then h.bytes else leBytes n (fabUpdate h.kind (leNat got.2.bytes) h.bytes)
  let s0 := if h.kind = 1 then s else got.1
  let s1 := (performWrite (conflict (touchGlobal (unheld s0 line) h.addr) none line true) h.addr bs).1
  { s1 with
    lineC := tblSet s1.lineC line (ticks s1)
    hostHolds := tblSet s1.hostHolds line .shared
    outputs := s1.outputs ++ [if h.kind = 1 then .hostDone else .hostData (hostBytes s got.2)] }

/-- HOST_WRITE_PERFORM (R334): LEASECLK passes E(line), and the write is performed. -/
def execHostWritePerform (req : Nat) (s : State) : EvRes :=
  match tblGet s.hostWrites req with
  | none => .next s
  | some h =>
    if passes s ((tblGet s.leases (lineOf h.addr)).getD 0) then
      .next { hostPerform s h with hostWrites := tblErase s.hostWrites req }
    else .next s

/-- BIRSP_ARRIVE (R334): the host gives a line up, and its dirty data merges. What waited for the line tries again. -/
def execBirspArrive (line : Nat) (dirty : List (BitVec 8)) (s : State) : EvRes :=
  if !s.snoops.contains line then .next s
  else
    let s1 := { unheld s line with snoops := s.snoops.filter (· != line) }
    .next (if dirty = [] then s1
      else (performWrite (conflict (touchGlobal s1 (128 * line)) none line true) (128 * line) (dirty.take 128)).1)

/-! ### The fabric, as the source (R419, R422, R423) -/

/-- The requests to a peer that wait for room are tried again, oldest first. -/
def sendWaiting (s : State) (peer : Nat) : State :=
  s.fabOut.foldl (fun s e => if e.2.peer == peer && !e.2.sent then trySend s e.1 else s) s

/-- CAP after an acknowledgement of n bytes with a round-trip time (R423). -/
def ackPeer (p : Peer) (n rtt : Nat) : Peer :=
  let out := p.out - n
  if 96000 < rtt then
    let cap := max 4096 (p.cap / 2)
    { p with out := out, cap := cap, base := cap, acked := 0 }
  else if p.base ≤ p.acked + n then
    let cap := min 67108864 (p.cap + 4096)
    { p with out := out, cap := cap, base := cap, acked := 0 }
  else { p with out := out, acked := p.acked + n }

/-- The registers that a load or atomic of the operation writes in a lane. -/
def laneRegs (g : Group) (o : Op) (l : Nat) : List Reg :=
  match o.kind with
  | some (.load size _ uni d) => (List.range (regsFor size)).map fun k => dataReg g uni d k l
  | some (.atomic _ ty (some d)) => (List.range (regsFor (atomBytes ty))).map fun k => .v (d + k) l
  | _ => []

/-- Lanes of an operation leave those that a peer has not answered. -/
def answered (s : State) (n uid : Nat) (ls : List LaneAcc) : State :=
  s.upOperation n uid fun o => { o with remote := o.remote.filter fun l => !ls.contains l }

/-- The lanes that one answer serves: the lane of the request, or for an aggregated atomic every lane of its address. -/
def servedLanes (o : Op) (q : FabReq) : List LaneAcc :=
  match o.remote.find? fun l => l.lane == q.lane with
  | none => []
  | some l => if q.kind = 2 ∨ q.kind = 3 then o.remote.filter fun x => x.addr == l.addr else [l]

/-- The next lane of a .cas at the same address is sent, after the one before it completes. -/
def nextCas (s : State) (q : FabReq) (l : LaneAcc) : State :=
  match (tblGet s.groups q.group).bind fun g => findOp g q.op with
  | none => s
  | some o =>
    match o.remote.find? fun x => x.addr == l.addr with
    | some x => if q.kind = 4 then laneSend s q.group q.op x.lane q.peer q.fa 4 q.size x.data else s
    | none => s

/-- What a peer returned, under the bytes that the group's own buffer held as the load issued (R329). -/
def ownOver (l : LaneAcc) (bs : List Byte) : List Byte :=
  (List.range bs.length).map fun i => ((l.own.find? fun e => e.1 == i).map (·.2)).getD (bs.getD i 0)

/-- The answer to a request lands in its operation: loaded data, an atomic's old value, or the completion time of a write (R422). -/
def landAnswer (s : State) (q : FabReq) (g : Group) (o : Op) (data : List Byte) : State :=
  let got : Got := { bytes := data, ctime := 0, bad := decide (data.length < q.size) && (q.kind == 0 || q.kind == 2 || q.kind == 3 || q.kind == 4) }
  let ls := servedLanes o q
  let timed (s : State) : State := s.upOperation q.group q.op fun o => { o with ctime := max o.ctime (ticks s), engC := max o.engC (ticks s) }
  match o.kind with
  | some (.load size sg _ _) =>
    ls.foldl (fun s l => landRead s q.group q.op (laneRegs g o l.lane) l.lane
      (loadWords sg (clipRead l (ownOver l ((data ++ List.replicate size 0).take size)))) got) (answered s q.group q.op ls)
  | some (.atomic op ty dst) =>
    let u := atomLanes op ty (leNat (data.take q.size)) (ls.map (atomOperands ty))
    let s1 := landAtomic (answered (timed s) q.group q.op ls) q.group q.op dst q.size (ls.zip u.2.1) u.2.2 got
    match ls with
    | l :: _ => nextCas s1 q l
    | [] => s1
  | _ =>
    if q.kind = 0 then
      s.upOperation q.group q.op fun o => { o with fabData := o.fabData ++ [(2 ^ 60 + q.peer * 2 ^ 42 + q.fa, data)] }
    else timed s

/-- A request that is refused or never answered: the memory error is reported, and what it would have returned is unspecified. -/
def failAnswer (s : State) (q : FabReq) (g : Group) (o : Op) : State :=
  let ls := servedLanes o q
  let got : Got := { bytes := [], ctime := 0, bad := true }
  let s1 := ls.foldl (fun s l =>
    let regs := laneRegs g o l.lane
    landRead s q.group q.op regs l.lane (List.replicate regs.length 0) got) (answered s q.group q.op ls)
  let s2 := s1.upOperation q.group q.op fun o =>
    { o with
      err := some (o.err.getD (memError o))
      fabData := if q.kind = 0 then o.fabData ++ [(2 ^ 60 + q.peer * 2 ^ 42 + q.fa, [])] else o.fabData }
  match ls with
  | l :: _ => nextCas s2 q l
  | [] => s2

/-- A store of group n from its ordered buffer has been answered: its completion time counts for the round
and for CHZ (R36, R328, R422); a refusal is reported on ST (R164, R419). -/
def endCommit (s : State) (n : Nat) (refused : Bool) : State :=
  match tblGet s.groups n with
  | none => s
  | some g =>
    let s1 :=
      if !refused then
        { s with grids := tblUp s.grids (gridNum s g) fun r => { r with commitTime := max r.commitTime (ticks s) } }.upGroup n
          (raiseChz (ticks s))
      else if g.ended then contextError s (siteOf s g) (ctxOf s g) 2 0x1A 0
      else s.putGroup n (reportErr g .st { code := 0x1A, info := small 2 })
    if g.ended then settleTeam s1 g.team else s1

/-- What the end of a request means for the operation, the copy or the engine that made it. -/
def answerTo (s : State) (q : FabReq) (data : List Byte) (refused : Bool) : State :=
  if q.keep then
    { s with fabGot := s.fabGot ++ [{ owner := q.op, peer := q.peer, fa := q.fa, kind := q.kind, size := q.size,
                                      data := if refused then none else some data, used := false }] }
  else if q.op = 0 then endCommit s q.group refused
  else
    match tblGet s.groups q.group with
    | none => s
    | some g =>
      match findOp g q.op, findCopy g q.op with
      | some o, _ => if refused then failAnswer s q g o else landAnswer s q g o data
      | none, some _ =>
        if refused then stopCopy s q.group q.op q.lane else s.upGroup q.group (upCopy q.op fun c => { c with ctime := max c.ctime (ticks s) })
      | none, none => s

/-- A request leaves. -/
def endRequest (s : State) (req : Nat) (q : FabReq) (rtt : Option Nat) (data : List Byte) (refused : Bool) : State :=
  let p := peerOf s q.peer
  let s1 := { s with
    fabOut := tblErase s.fabOut req
    peers := tblSet s.peers q.peer (match rtt with
      | some t => ackPeer p q.size t
      | none => { p with out := p.out - q.size }) }
  sendWaiting (answerTo s1 q data refused) q.peer

/-- A request to the panel's own number is refused (R419). -/
def refuseOwn (req : Nat) (s : State) : EvRes :=
  match tblGet s.fabOut req with
  | some q => .next (if q.peer = Config.panelNumber then endRequest s req q none [] true else s)
  | none => .next s

/-- FABRIC_ACK (R419, R422, R423): the peer acknowledges a request with its data and round-trip time, or refuses it. -/
def execFabricAck (req : Nat) (rtt : Nat) (data : List (BitVec 8)) (refused : Bool) (s : State) : EvRes :=
  match tblGet s.fabOut req with
  | some q => .next (if q.sent then endRequest s req q (some rtt) data refused else s)
  | none => .next s

/-- FABRIC_TIMEOUT (R419): a request has gone unacknowledged for 768 000 ticks. -/
def execFabricTimeout (req : Nat) (s : State) : EvRes :=
  match tblGet s.fabOut req with
  | some q => .next (if q.sent && decide (q.tick + 768000 ≤ ticks s) then endRequest s req q none [] true else s)
  | none => .next s

/-- ROTOR_MATCHING (R420): the rotor moves to the next of its 64 matchings. Log entry 80 (DEDUCED). -/
def execRotorMatching (s : State) : EvRes := .next { s with matching := (s.matching + 1) % 64 }

/-! ### The fabric, as the target (R419, R421, R422) -/

/-- The resident context with an ASID. -/
def ctxOfAsid (s : State) (site asid : Nat) : Option Nat :=
  (List.range 64).find? fun c => ctxField s site c 10 1 % 2 == 1 && asidOf s site c == asid

/-- The home locations of n bytes at va for an arriving request, where every page translates and is LOCAL or INTERLEAVE. -/
def fabPlaces (s : State) (w : Who) (va n : Nat) (isWrite : Bool) : State × Option (List (Nat × Nat)) :=
  (rangePieces va n).foldl (fun (r : State × Option (List (Nat × Nat))) p =>
    match r.2 with
    | none => r
    | some ps =>
      match engTranslate r.1 w p.1 isWrite with
      | (s1, .ok { attr, target := .mem loc, .. }) => (s1, if attr ≤ 1 then some (ps ++ [(loc, p.2)]) else none)
      | (s1, _) => (s1, none)) (s, some [])

/-- A read of the pieces. -/
def readPlaces (s : State) (ps : List (Nat × Nat)) : State × List Byte × Bool :=
  ps.foldl (fun (r : State × List Byte × Bool) p =>
    let g := loadAt r.1 none p.1 p.2
    (g.1, r.2.1 ++ g.2.bytes, r.2.2 || g.2.bad)) (s, [], false)

/-- A write over the pieces, and its completion time. -/
def writePlaces (s : State) (ps : List (Nat × Nat)) (bs : List Byte) : State × Nat :=
  let r := ps.foldl (fun (r : State × Nat × List Byte) p =>
    let w := storeAt r.1 none p.1 (r.2.2.take p.2)
    (w.1, max r.2.1 w.2, r.2.2.drop p.2)) (s, 0, bs)
  (r.1, r.2.1)

/-- An arriving request is performed or refused. Its acknowledgement leaves once LEASECLK has passed its completion time (R422).
Log entry 64 (DEDUCED). -/
def fabPerform (s : State) (x : FabIn) : State :=
  let refuse (s : State) : State := { s with outputs := s.outputs ++ [.fabricRefused x.panel x.seq] }
  let site := lowestSite s
  match ctxOfAsid s site x.asid with
  | none => refuse s
  | some c =>
    let n := fabSize x.kind x.data
    let va := x.fa % 2 ^ 41
    let atomic := decide (2 ≤ x.kind)
    if 5 < x.kind || n = 0 || (atomic && (n != 4 && n != 8 || va % n != 0)) then refuse s
    else
      match fabPlaces s (engineWho site c) va n (decide (1 ≤ x.kind)) with
      | (s1, none) => refuse s1
      | (s1, some ps) =>
        let old := if x.kind = 1 then (s1, ([] : List Byte), false) else readPlaces s1 ps
        if old.2.2 then refuse old.1
        else if x.kind = 0 then { old.1 with outputs := old.1.outputs ++ [.fabricAck x.panel x.seq old.2.1] }
        else
          let w := writePlaces old.1 ps (if x.kind = 1 then x.data else leBytes n (fabUpdate x.kind (leNat old.2.1) x.data))
          { w.1 with fabAcks := w.1.fabAcks ++ [(w.2, .fabricAck x.panel x.seq (if atomic then old.2.1 else []))] }

/-- An arrival may be performed: with RLX 1 at once, with RLX 0 once its stream has come to it (R421). -/
def fabTurn (s : State) (x : FabIn) : Bool :=
  x.fa / 2 ^ 41 % 2 == 1 || x.seq == (tblGet s.fabNext (streamKey x.panel x.asid)).getD 0

/-- An arrival that may be performed is, and its stream goes on. -/
def fabTry (s : State) (x : FabIn) : State :=
  if s.fabIn.contains x && fabTurn s x then
    let s1 := { s with fabIn := s.fabIn.erase x }
    fabPerform (if x.fa / 2 ^ 41 % 2 = 1 then s1
      else { s1 with fabNext := tblSet s1.fabNext (streamKey x.panel x.asid) (x.seq + 1) }) x
  else s

/-- The early arrivals of a stream are performed as far as their predecessors have been. The fuel is their number. -/
def fabRelease (k : Nat) : Nat → State → State
  | 0, s => s
  | fuel + 1, s =>
    match s.fabIn.find? fun x => x.fa / 2 ^ 41 % 2 == 0 && streamKey x.panel x.asid == k && fabTurn s x with
    | none => s
    | some x => fabRelease k fuel (fabTry s x)

/-- FABRIC_REQUEST_ARRIVE (R419, R421): a request with RLX 1 is performed as it arrives, one with RLX 0 in stream order. One that must wait
for the host to give up a line is kept (R334). -/
def execFabricRequestArrive (panel : Nat) (asid : Nat) (fa : Nat) (seq : Nat) (kind : BitVec 8) (data : List (BitVec 8)) (s : State) : EvRes :=
  let x : FabIn := { panel, asid, fa, seq, kind := kind.toNat, data }
  let rlx := fa / 2 ^ 41 % 2 == 1
  let k := streamKey panel asid
  if !rlx && decide (seq < (tblGet s.fabNext k).getD 0) then .next s
  else
    let s1 := { s with fabIn := s.fabIn ++ [x] }
    .next (atOnce s1 (if rlx then fabTry s1 x else fabRelease k (s1.fabIn.length) s1))

/-- The acknowledgements whose completion time LEASECLK has passed leave (R422). -/
def sendAcks (s : State) : State :=
  { s with
    outputs := s.outputs ++ (s.fabAcks.filter fun a => passes s a.1).map (·.2)
    fabAcks := s.fabAcks.filter fun a => !passes s a.1 }

end Sys2Proof.Machine
end

