-- ==== Sys2Proof/Machine/Sync.lean ====
section
/-!
DEFINITION. SCHNEXT (R267), QPUT (R268) and WAITA (R269), each of which holds its group until its result is written.
-/
namespace Sys2Proof.Machine

/-- An address-window trap of an instruction that acts once for the group (R272). -/
def windowTrap (s : State) (n : Nat) (g : Group) (a : Nat) : State := trapAt s n 0x10 (laddr (uniLane g) (BitVec.ofNat 64 a))

/-- What a fault of such an instruction does: as for the whole group, an address in TRAPINFO naming its lane. At a page fault it captures
its operands. -/
def onceFault (s : State) (n : Nat) (g : Group) (isWrite : Bool) (a : Nat) (f : EngFault) (vals : Option (List Word64) := none) : State :=
  match f with
  | .trap c => if c.code = 0x10 ∨ c.code = 0x16 then trapAt s n c.code (laddr (uniLane g) (BitVec.ofNat 64 a)) else trapAt s n c.code c.info
  | _ => wholeFault s n isWrite (onesBelow g.width) f vals

/-- Group n is in ordered mode and has not its turn: it looks at a long wait at its turn (R329). -/
def waitsTurn (s : State) (n : Nat) : Bool := ((tblGet s.groups n).map fun g => orderedMode s g && g.turn == .idle).getD false

/-! ### SCHNEXT (R267, R361) -/

/-- The schedule set of a team. -/
def setOf (l : Launch) (teamid : Nat) : Nat := teamid / max 1 l.setsz

/-- The cursor of a set advances. -/
def bumpCursor (s : State) (grid set cur : Nat) : State :=
  { s with grids := tblUp s.grids grid fun r => { r with cursors := tblSet r.cursors set (cur + 1) } }

/-- SCHNEXT (R267). -/
def execSchnext (d : BitVec 6) (s : State) : MRes :=
  onGroup s fun g =>
    let give (s : State) (x : Word) : State := (writeU s s.cur d.toNat x).upGroup s.cur (advance 1)
    match teamOf s g, gridOf s g with
    | some t, some r =>
      let set := setOf r.launch t.teamid
      let cur := (tblGet r.cursors set).getD 0
      if r.launch.sched = 0 ∨ r.launch.schlen ≤ cur then give s 0xFFFFFFFF
      else
        let a := r.launch.sched.toNat + 4 * (r.launch.schlen * set + cur)
        match engReadNum s (groupWho s s.cur g) a 4 with
        | (s1, .ok x) => give (bumpCursor s1 t.grid set cur) (BitVec.ofNat 32 x)
        | (s1, .error .err) => onceFault (bumpCursor s1 t.grid set cur) s1.cur g false a .err
        | (s1, .error f) => onceFault s1 s1.cur g false a f (some [])
    | _, _ => give s 0xFFFFFFFF

/-! ### QPUT (R268, R348) -/

/-- A queue size is a power of two from 4 to 65 536. -/
def sizeOk (n : Nat) : Bool := (List.range 15).any fun k => n == 2 ^ (k + 2)

/-- The causes of QPUT at issue in its packet's 64 bytes of the stash. Log entry 59 (DEDUCED). -/
def qputFaults (s : State) (g : Group) (pkt : Nat) : List LaneFault :=
  (if stashSize s g.team < pkt + 64 then [{ code := 0x11, lane := uniLane g, addr := BitVec.ofNat 64 pkt }] else []) ++
    (if pkt % 64 ≠ 0 then [{ code := 0x12, lane := uniLane g, addr := BitVec.ofNat 64 pkt }] else [])

/-- The valid bit of packet w of group n is set, once the release holds; then sd := w (R268). A page fault there parks the group, which sets
the bit once the fault is resolved. -/
def finishQput (s : State) (n d : Nat) (slot : Word64) (w : Nat) (hdr0 : Word) : State :=
  match tblGet s.groups n with
  | none => s
  | some g =>
    if releaseMet s g .dev s.fresh then
      match engWriteNum s (groupWho s n g) slot.toNat 4 (hdr0 ||| 0x80000000).toNat with
      | (s1, .ok c) => s1.upGroup n fun g => { advance 2 (raiseChz c (writeS64 g d (BitVec.ofNat 64 w))) with wait := .none }
      | (s1, .error f) => onceFault s1 n g true slot.toNat f (some [slot, BitVec.ofNat 64 w, hdr0.setWidth 64])
    else s.putGroup n { g with wait := .qputValid d slot w hdr0 }

/-- The packet of group n is written to its claimed slot, its valid bit clear (R268). -/
def writePacket (s : State) (n : Nat) (g : Group) (d w slot pkt : Nat) : State :=
  let p := stashRead s (some n) g.team pkt 64
  if p.2.bad then trapAt p.1 n 0x1A (small 0)
  else
    let hdr0 := BitVec.ofNat 32 (bytesNum p.2.bytes 0 4 % 2 ^ 31)
    match engWrite p.1 (groupWho s n g) slot (leBytes 4 hdr0.toNat ++ p.2.bytes.drop 4) with
    | (s1, .error f) => onceFault s1 n g true slot f (some [BitVec.ofNat 64 slot, BitVec.ofNat 64 w, hdr0.setWidth 64])
    | (s1, .ok c) => finishQput (s1.upGroup n (raiseChz c)) n d (BitVec.ofNat 64 slot) w hdr0

/-- The header of a queue as QPUT reads it: write index, read index, size and ring. -/
structure QueueHead where
  widx : Nat
  ridx : Nat
  size : Nat
  ring : Nat
deriving DecidableEq, Repr

def queueHead (bs : List Byte) : QueueHead :=
  { widx := bytesNum bs 0 8, ridx := bytesNum bs 64 8, size := bytesNum bs 72 4, ring := bytesNum bs 80 8 }

/-- The core's own copy of a translated place leaves, since the group writes there by no store (R308). -/
def dropPlace (s : State) (n : Nat) (p : Phys) : State :=
  match p.target with
  | .mem loc => dropOwnLine s n loc
  | .fabric _ _ => s

/-- A claim by group n through the header at location loc, whose slot page is translated first, so that no fault follows the claim. -/
def claimQueue (s : State) (n : Nat) (g : Group) (d : Nat) (hdr : Word64) (pkt : Nat) (blk : Bool) (loc : Nat) : State :=
  let r := loadAt s (some n) loc 128
  let q := queueHead r.2.bytes
  if r.2.bad then trapAt r.1 n 0x1A (small 0)
  else if !sizeOk q.size then trapAt r.1 n 0x32 0
  else if q.size ≤ (q.widx + 2 ^ 64 - q.ridx) % 2 ^ 64 then
    if blk then r.1.putGroup n { g with wait := .qputFull d hdr pkt }
    else r.1.putGroup n (advance 2 (writeS64 g d (BitVec.allOnes 64)))
  else
    let slot := (q.ring + 64 * (q.widx % q.size)) % 2 ^ 64
    match engTranslate r.1 (groupWho s n g) slot true with
    | (s1, .error f) => onceFault s1 n g true slot f (some [hdr, BitVec.ofNat 64 pkt])
    | (s1, .ok p) =>
      let c := storeAt (dropPlace (dropOwnLine s1 n loc) n p) (some n) loc (leBytes 8 (q.widx + 1))
      writePacket (c.1.upGroup n fun g => raiseChz c.2 { g with wait := .none }) n g d q.widx slot pkt

/-- Where an instruction that acts at a home of device memory finds it: a page of another kind is forbidden it (R161, R268, R269). -/
inductive HomePlace where
  | loc (l : Nat)
  | forbidden
  | fault (f : EngFault)

def homePlace (s : State) (w : Who) (a : Nat) (isWrite : Bool) : State × HomePlace :=
  if !inGlobal a then (s, .forbidden)
  else
    match engTranslate s w a isWrite with
    | (s1, .error (.trap c)) => (s1, if c.code = 0x16 then .forbidden else .fault (.trap c))
    | (s1, .error f) => (s1, .fault f)
    | (s1, .ok p) =>
      match p.target with
      | .mem loc => (s1, if 1 < p.attr then .forbidden else .loc loc)
      | .fabric _ _ => (s1, .forbidden)

/-- QPUT of group n up to its claim: the causes at issue come before a page fault, the lowest first (R161, R277). -/
def tryQput (s : State) (n d : Nat) (hdr : Word64) (pkt : Nat) (blk : Bool) : State :=
  match tblGet s.groups n with
  | none => s
  | some g =>
    let r := homePlace s (groupWho s n g) hdr.toNat true
    match r.2, lowestFault (qputFaults s g pkt) with
    | .forbidden, _ => windowTrap r.1 n g hdr.toNat
    | _, some x => trapAt r.1 n x.code x.info
    | p, none =>
      if hdr.toNat % 128 ≠ 0 then trapAt r.1 n 0x32 0
      else
        match p with
        | .fault f => onceFault r.1 n g true hdr.toNat f (some [hdr, BitVec.ofNat 64 pkt])
        | .loc loc => claimQueue r.1 n g d hdr pkt blk loc
        | .forbidden => r.1

/-- QPUT (R268). One that parked after its claim goes on with its valid bit. -/
def execQput (d : BitVec 6) (q : BitVec 7) (pkt : BitVec 7) (blk : Bool) (s : State) : MRes :=
  onGroup s fun g =>
    if flying g then stall s
    else
      match operands g [usrc64 s g 0 q, (usrc s g tInt 2 pkt).setWidth 64] with
      | [slot, w, hdr0] => finishQput s s.cur d.toNat slot w.toNat (lo32 hdr0)
      | vals => tryQput (drainWcb s s.cur) s.cur d.toNat (vals.getD 0 0) (vals.getD 1 0).toNat blk

/-- QPUT_BLOCK_RETRY (R268): a blocking QPUT of group g tries its full queue again. -/
def execQputBlockRetry (g : Nat) (s : State) : MRes :=
  match (tblGet s.groups g).map Group.wait with
  | some (.qputFull d hdr pkt) => .next (if waitsTurn s g then s else tryQput s g d hdr pkt true)
  | _ => .next s

/-! ### WAITA (R269) -/

/-- The wait of group n ends with a value, whose write's completion time an acquire at .dev takes into CHZ (R318). -/
def endWaita (s : State) (n d : Nat) (v : Word64) (c : Nat) : State :=
  s.upGroup n fun g => { advance 1 (raiseChz c (writeS64 { g with readC := max g.readC c } d v)) with wait := .none }

/-- A value that a read met an uncorrectable error in: unspecified, since WAITA counts on no counter. -/
def waitaLost (s : State) : Word64 := pair (lostWord s 0 0) (lostWord s 0 1)

/-- WAITA of group n reads its word: it ends at a value that differs or past its deadline, else it waits. Log entry 58 (DEDUCED). -/
def tryWaita (s : State) (n d : Nat) (a cmp : Word64) (deadline : Nat) : State :=
  match tblGet s.groups n with
  | none => s
  | some g =>
    let p := homePlace s (groupWho s n g) a.toNat false
    match p.2 with
    | .forbidden => windowTrap p.1 n g a.toNat
    | .fault f =>
      if a.toNat % 8 ≠ 0 then trapAt p.1 n 0x12 (laddr (uniLane g) a)
      else onceFault p.1 n g false a.toNat f (some [a, cmp, BitVec.ofNat 64 deadline])
    | .loc loc =>
      if a.toNat % 8 ≠ 0 then trapAt p.1 n 0x12 (laddr (uniLane g) a)
      else
        let r := loadAt (sendWcb p.1 n (lineOf loc)) (some n) loc 8
        let v := if r.2.bad then waitaLost s else BitVec.ofNat 64 (leNat r.2.bytes)
        if v = cmp ∧ ticks s < deadline then r.1.upGroup n fun g => { g with wait := .waita d a cmp deadline r.2.ctime }
        else endWaita r.1 n d v r.2.ctime

/-- WAITA (R269). -/
def execWaita (d : BitVec 6) (a : BitVec 7) (r : BitVec 7) (s : State) : MRes :=
  onGroup s fun g =>
    let vals := operands g [usrc64 s g 0 a, usrc64 s g 2 r, usrc64 s g 4 (r + 2)]
    if flying g then stall s else tryWaita s s.cur d.toNat (vals.getD 0 0) (vals.getD 1 0) (vals.getD 2 0).toNat

/-- WAITA_WAKE (R269): the monitor's line has been written, and the word is read again. -/
def execWaitaWake (g : Nat) (s : State) : MRes :=
  match (tblGet s.groups g).map Group.wait with
  | some (.waita d a cmp dl _) => .next (if waitsTurn s g then s else tryWaita s g d a cmp dl)
  | _ => .next s

/-- WAITA_DEADLINE (R269): LEASECLK reaches the deadline; the value last read is the compare value, and CHZ rises by the completion time
that its read reported (R318). -/
def execWaitaDeadline (g : Nat) (s : State) : MRes :=
  match (tblGet s.groups g).map Group.wait with
  | some (.waita d _ cmp dl c) => .next (if dl ≤ ticks s && !waitsTurn s g then endWaita s g d cmp c else s)
  | _ => .next s

end Sys2Proof.Machine
end

