-- ==== Sys2Proof/Machine/Queue.lean ====
section
/-!
DEFINITION. Work queues and packets (R344 to R357): the tables, the choice of the queue that a die serves, the beginning and the
rejection of a packet, the kinds of packet but LAUNCH, JCTL and CKPT, and completion; shootdowns (R384, R385).
-/
namespace Sys2Proof.Machine

abbrev QRes := Host.Outcome State Fault Refusal

/-! ### The tables (R345 to R347) -/

/-- A queue table entry. -/
structure QEntry where
  hdr : Nat
  ctx : Nat
  prio : Nat
  die : Nat
  v : Bool
deriving DecidableEq, Repr

def queueEntry (s : State) (site q : Nat) : Option QEntry :=
  if 2048 ≤ q then none
  else
    ((tblGet s.dies site).bind fun d => deviceLoc s d.qtable).map fun b =>
      let e := b + 4096 + 32 * q
      { hdr := peekNum s e 8, ctx := peekNum s (e + 8) 1, prio := peekNum s (e + 9) 1, die := peekNum s (e + 10) 1,
        v := peekNum s (e + 11) 1 % 2 == 1 }

/-- The site of a die name, where it is mapped and not lost. -/
def dieSite (s : State) (site name : Nat) : Option Nat :=
  match bindOf s site name (if name < 64 then (nameHome s site name).toNat else 0) with
  | .ok b => some b.site
  | .error _ => none

/-- The live site whose queue engine serves a queue. -/
def servingSite (s : State) (q : Nat) : Option Nat :=
  (liveSites s).find? fun site => ((queueEntry s site q).bind fun e => dieSite s site e.die) == some site

/-- FLAGS of a context. -/
def ctxFlags (s : State) (site c : Nat) : Nat := ctxField s site c 10 1

/-- The context entry is valid (R346). -/
def ctxValid (s : State) (site c : Nat) : Bool :=
  ctxFlags s site c % 2 == 1 && asidOf s site c != 0 && ctxField s site c 11 1 == 0 && ctxField s site c 16 48 == 0 &&
    (List.range 64).all fun k => k == c || ctxFlags s site k % 2 == 0 || asidOf s site k != asidOf s site c

/-- The context's queues begin nothing: pre-emption is requested, its teams are saved, or it is in error (R363, R364). -/
def ctxHeld (s : State) (site c : Nat) : Bool :=
  let f := ctxFlags s site c
  f / 4 % 2 == 1 || f / 16 % 2 == 1 || s.stopping.contains c || s.discarding.contains c

/-! ### The view of a queue (R348, R351) -/

/-- Who accesses memory for packet `num` of a queue. -/
def packetWho (site ctx q num : Nat) : Who := { engineWho site ctx with op := some (0, 2 ^ 110 + q * 2 ^ 64 + num) }

/-- The place of a queue header, and whether it lies on a LOCAL or INTERLEAVE page. -/
def headHome (s : State) (site ctx hdr : Nat) : Option (Nat × Bool) :=
  if 64 ≤ ctx then none
  else
    match (engTranslate s (engineWho site ctx) hdr false).2 with
    | .ok { attr, target := .mem loc, .. } => some (loc, decide (attr ≤ 1))
    | _ => none

/-- The header is well formed. -/
def headOk (s : State) (hdr loc : Nat) : Bool :=
  hdr % 128 == 0 && sizeOk (peekNum s (loc + 72) 4) && peekNum s (loc + 80) 8 % 64 == 0 && peekNum s (loc + 8) 56 == 0 &&
    peekNum s (loc + 88) 40 == 0

/-- The slot of packet w in the ring of the header at loc. -/
def headSlot (s : State) (loc w : Nat) : Nat := w % max 1 (peekNum s (loc + 72) 4)

/-- The next packet of a queue: its number, its slot and bytes, and the home of its queue's header. -/
structure NextPacket where
  head : Nat
  num : Nat
  slotVa : Nat
  slot : Nat
  bytes : List Byte
  ctx : Nat
  prio : Nat
deriving DecidableEq, Repr

/-- What a queue's engine finds. -/
inductive QView where
  /-- no packet of it can begin -/
  | idle
  /-- the queue is in error: the code, the context, the header's address, and the slot that STATUS names -/
  | bad (code ctx hdr slot : Nat)
  | ready (p : NextPacket)
deriving DecidableEq, Repr

/-- The packets of a queue that have begun and are not complete. -/
def openPackets (s : State) (q : Nat) : List Packet := (s.packets.filter fun e => e.2.queue == q).map (·.2)

/-- The kind in a packet's first word. -/
def packetKind (hdr : Nat) : Nat := hdr % 16

/-- The packet may begin beside those of its queue that are open (R351, R357). -/
def orderOk (s : State) (q hdr : Nat) : Bool :=
  let open_ := openPackets s q
  !(open_.any fun p => p.kind == 3) && (open_ == [] || !(hdr / 256 % 2 == 1 || packetKind hdr == 3 || packetKind hdr == 4))

/-- Active launches that a site's engine serves. -/
def activeLaunches (s : State) (site : Nat) : Nat := (s.packets.filter fun e => e.2.kind == 1 && e.2.site == site && !e.2.finished).length

/-- The engine reads a word of a queue's tables or ring: the host gives up a line that it holds alone (R334, R344). -/
def looks (s : State) (loc : Nat) : State := needLine s (lineOf loc) false

/-- The next packet of the queue whose entry is e and whose header stands at loc. -/
def viewRing (s : State) (site q : Nat) (e : QEntry) (loc : Nat) : State × QView :=
  let w := peekNum s (loc + 64) 8
  let va := (peekNum s (loc + 80) 8 + 64 * headSlot s loc w) % 2 ^ 64
  match (engTranslate s (engineWho site e.ctx) va true).2 with
  | .ok { target := .mem slot, .. } =>
    let h := peekNum s slot 4
    (looks s slot,
      if h / 2 ^ 31 = 0 || !orderOk s q h || (packetKind h == 1 && decide (64 ≤ activeLaunches s site)) then .idle
      else .ready { head := loc, num := w, slotVa := va, slot := slot, bytes := peekBytes s slot 64, ctx := e.ctx, prio := e.prio })
  | _ => (s, .idle)

/-- What the engine of a site finds of queue q as it looks: with what the look lacks. -/
def viewQueue (s : State) (site q : Nat) : State × QView :=
  match queueEntry s site q with
  | none => (s, .idle)
  | some e =>
    if !e.v then (s, .idle)
    else
      match headHome s site e.ctx e.hdr with
      | none =>
        (s, if 64 ≤ e.ctx || !ctxValid s site e.ctx then .bad 4 e.ctx e.hdr 0
          else if ctxHeld s site e.ctx then .idle else .bad 8 e.ctx e.hdr 0)
      | some (loc, good) =>
        let s1 := looks s loc
        if peekNum s (loc + 76) 4 / 2 ^ 31 = 1 then (s1, .idle)
        else if !ctxValid s site e.ctx then (s1, .bad 4 e.ctx e.hdr (headSlot s loc (peekNum s (loc + 64) 8)))
        else if ctxHeld s site e.ctx then (s1, .idle)
        else if !good || !headOk s e.hdr loc then (s1, .bad 8 e.ctx e.hdr 0)
        else viewRing s1 site q e loc

/-! ### Priority and aging (R356) -/

/-- The queues of a site's table whose entry has V set. -/
def validQueues (s : State) (site : Nat) : List Nat :=
  match (tblGet s.dies site).bind fun d => deviceLoc s d.qtable with
  | none => []
  | some b => s.mem.filterMap fun c =>
      if b + 4096 ≤ c.1 ∧ c.1 < b + 69632 ∧ (c.1 - b) % 32 = 11 ∧ c.2.getLsbD 0 = true then some ((c.1 - b - 4096) / 32) else none

/-- The queues that a site's engine can serve now, with their base priorities. -/
def ableQueues (s : State) (site : Nat) : List (Nat × Nat) :=
  (validQueues s site).filterMap fun q =>
    if servingSite s q = some site then
      match (viewQueue s site q).2 with
      | .ready p => some (q, p.prio)
      | _ => none
    else none

/-- The engine notes since when each of its queues has been able. -/
def noteAble (s : State) (site : Nat) : State :=
  let qs := (ableQueues s site).map (·.1)
  let kept := s.ableSince.filter fun e => servingSite s e.1 != some site || qs.contains e.1
  { s with ableSince := qs.foldl (fun t q => if (tblGet t q).isSome then t else tblSet t q (ticks s)) kept }

/-- The effective priority of a queue. -/
def effective (s : State) (site q prio : Nat) : Nat :=
  let age := ((tblGet s.dies site).map (·.agewait)).getD 0
  let t := ticks s - (tblGet s.ableSince q).getD (ticks s)
  if age = 0 then prio else min 7 (prio + t / age)

/-- The queue that a site's engine takes: the highest effective priority, and round robin after the queue last served at it. -/
def chosenQueue (s : State) (site : Nat) : Option Nat :=
  let qs := (ableQueues s site).map fun e => (e.1, effective s site e.1 e.2)
  let top := qs.foldl (fun a e => max a e.2) 0
  let ks := (qs.filter fun e => e.2 == top).map (·.1)
  let last := ((tblGet s.dies site).bind fun d => tblGet d.lastQueue top)
  (ks.find? fun q => (last.map fun l => decide (l < q)).getD true).or ks.head?

/-! ### Rejection and the beginning of a packet (R351 to R354) -/

/-- STATUS of a queue is written through its header's address, on whatever page it lies. Log entry 60 (DEDUCED). -/
def writeStatus (s : State) (w : Who) (hdr x : Nat) : State :=
  ((rangePieces ((hdr + 76) % 2 ^ 64) 4).foldl (fun (r : State × List Byte) p =>
    (match engTranslate r.1 w p.1 false with
      | (s1, .ok { target := .mem loc, .. }) => (storeAt s1 none loc (r.2.take p.2)).1
      | (s1, .ok { target := .fabric peer fa, .. }) => (peerAsk s1 w peer fa 1 p.2 (r.2.take p.2)).1
      | (s1, .error _) => s1, r.2.drop p.2)) (s, leBytes 4 x)).1

/-- A queue enters error state (R354): STATUS, and the context's ERR. -/
def queueError (s : State) (site q ctx hdr num slot code : Nat) : State :=
  if 64 ≤ ctx then s
  else contextError (writeStatus s (packetWho site ctx q num) hdr (2 ^ 31 + slot % 65536 * 256 + code)) site ctx 3 code 0

/-- The bytes of a body that a kind names (R353): offsets and lengths from byte 16. -/
def bodyFields (kind : Nat) : List (Nat × Nat) :=
  match kind with
  | 1 => [(16, 8)]
  | 2 => [(16, 8), (24, 8), (32, 8)]
  | 3 | 4 => [(16, 8), (24, 8), (32, 1)]
  | 5 => [(16, 1), (24, 8)]
  | 6 => [(16, 8), (24, 4), (32, 8)]
  | 7 => [(16, 4), (20, 4), (24, 8)]
  | 8 => [(16, 8), (24, 4), (28, 4), (32, 8)]
  | 9 => [(16, 8), (24, 8), (32, 2)]
  | _ => []

/-- Every reserved field is 0. -/
def reservedOk (kind : Nat) (bs : List Byte) : Bool :=
  let h := bytesNum bs 0 4 % 2 ^ 31
  bits h 30 9 == 0 && bits h 7 4 == 0 && bytesNum bs 4 4 == 0 &&
    (List.range 48).all fun i => (bodyFields kind).any (fun f => f.1 ≤ 16 + i && 16 + i < f.1 + f.2) || bytesNum bs (16 + i) 1 == 0

/-- The body's values are within their limits. -/
def limitsOk (kind : Nat) (bs : List Byte) : Bool :=
  let a := bytesNum bs 16 8
  let b := bytesNum bs 24 8
  match kind with
  | 1 => a % 256 == 0
  | 2 => a % 4 == 0 && b % 4 == 0 && bytesNum bs 32 8 % 4 == 0 && 1 ≤ bytesNum bs 32 8 && decide (bytesNum bs 32 8 ≤ 2 ^ 40)
  | 3 => a % 8 == 0 && decide (bytesNum bs 32 1 ≤ 3)
  | 4 => a % 8 == 0 && decide (bytesNum bs 32 1 ≤ 1)
  | 5 => decide (bytesNum bs 16 1 ≤ 63) && b % 128 == 0
  | 6 => decide (1 ≤ bytesNum bs 24 4) && decide (bytesNum bs 24 4 ≤ 4096)
  | 7 => decide (bytesNum bs 16 4 ≤ 2) && decide (bytesNum bs 20 4 ≤ 47)
  | 8 => decide (1 ≤ bytesNum bs 28 4) && decide (bytesNum bs 28 4 ≤ 65536)
  | 9 => a % 4096 == 0 && b % 4096 == 0
  | _ => true

/-- Kinds that only a privileged context's queue may carry. -/
def privKind (kind : Nat) : Bool := kind == 5 || kind == 6 || kind == 7 || kind == 9

/-- The code with which a packet is rejected before its effect is tried. -/
def rejectCode (s : State) (site : Nat) (p : NextPacket) : Option Nat :=
  let k := packetKind (bytesNum p.bytes 0 4)
  if 10 ≤ k || !reservedOk k p.bytes || !limitsOk k p.bytes then some 1
  else if privKind k && !ctxPriv s site p.ctx then some 2
  else none

/-- What a kind's effect has to work with: the packet's number in the machine, its serving site, context, queue, number there and
bytes. -/
structure Job where
  pkt : Nat
  site : Nat
  ctx : Nat
  queue : Nat
  at_ : Nat
  bytes : List Byte

def Job.num (j : Job) (off n : Nat) : Nat := bytesNum j.bytes off n
def Job.who (j : Job) : Who := packetWho j.site j.ctx j.queue j.at_

/-- Why a packet is not carried out: the queue error code, and what the step lacks so far. -/
structure PktFail where
  code : Nat
  needs : List Need

/-- A packet's effect ends in a state in which it fails with a code. -/
def failWith (s : State) (code : Nat) : Except PktFail State := .error { code := code, needs := s.needs }

/-- The packet's effect is done; it completes once LEASECLK passes c (R355). -/
def finishPacket (s : State) (pkt c : Nat) : State :=
  { s with packets := tblUp s.packets pkt fun p => { p with finished := true, ctime := max p.ctime c } }

/-- The engine has read the packet and written its first word to 0. -/
def takePacket (s : State) (p : NextPacket) : State := storeNum s none p.slot 4 0

/-- The packet stands in the machine, and RIDX has moved past it. -/
def enterPacket (s : State) (site q : Nat) (p : NextPacket) : State :=
  let k : Packet := { site := site, queue := q, num := p.num, kind := packetKind (bytesNum p.bytes 0 4), ctx := p.ctx,
                      caddr := BitVec.ofNat 64 (bytesNum p.bytes 8 8), body := p.bytes, finished := false, ctime := 0 }
  let s1 := storeNum s none (p.head + 64) 8 (p.num + 1)
  let top := effective s site q p.prio
  let s2 := s1.upDie site fun d => { d with lastQueue := tblSet d.lastQueue top q }
  { s2 with packets := tblSet s2.packets s2.fresh k, fresh := s2.fresh + 1, ableSince := tblErase s2.ableSince q }

/-- The engine's translations of a queue's header and slot, as its accesses to them make them. -/
def queuePages (s : State) (site ctx hdr slotVa : Nat) : State :=
  (engTranslate (engTranslate s (engineWho site ctx) hdr false).1 (engineWho site ctx) slotVa true).1

/-- The next packet of a queue begins with the effect `run`, or is rejected. Log entry 60 (DEDUCED). -/
def beginPacket (s : State) (q kind : Nat) (run : State → Job → Except PktFail State) : State :=
  match servingSite s q with
  | none => s
  | some site =>
    let hdr := ((queueEntry s site q).map (·.hdr)).getD 0
    match viewQueue s site q with
    | (s1, .idle) => s1
    | (s1, .bad code ctx hdr slot) => queueError s1 site q ctx hdr (2 ^ 64) slot code
    | (s1, .ready p) =>
      let slot := headSlot s p.head p.num
      let k := packetKind (bytesNum p.bytes 0 4)
      if chosenQueue s site ≠ some q || (k ≠ kind && k < 10) then s
      else
        let s2 := takePacket (queuePages s1 site p.ctx hdr p.slotVa) p
        let reject (c : Nat) : State := queueError s2 site q p.ctx hdr p.num slot c
        match rejectCode s site p with
        | some c => reject c
        | none =>
          match run (enterPacket s2 site q p) { pkt := s2.fresh, site := site, ctx := p.ctx, queue := q, at_ := p.num, bytes := p.bytes } with
          | .ok s3 => s3
          | .error f => if f.needs = [] then reject f.code else { s with needs := f.needs }

/-- A packet's event, in a package that runs. -/
def packetEvent (s : State) (q kind : Nat) (run : State → Job → Except PktFail State) : QRes :=
  .next (if s.phase = .running then beginPacket s q kind run else s)

/-- The queue error of an access that the packet makes: 5 for translation, 7 for an uncorrectable error. -/
def accessCode : EngFault → Nat
  | .err => 7
  | _ => 5

/-! ### NOPAD, COPY, SIGNAL, BIND, TDSET (R353) -/

/-- NOPAD. -/
def execNopad (queue : Nat) (s : State) : QRes := packetEvent s queue 0 fun s j => .ok (finishPacket s j.pkt 0)

/-- A device-engine copy: a byte of the destination that is also a source byte is unspecified. -/
def runCopy (s : State) (j : Job) : Except PktFail State :=
  let dst := j.num 16 8
  let src := j.num 24 8
  let n := j.num 32 8
  match probeRange s j.who src n false with
  | (s1, some _) => failWith s1 5
  | (s1, none) =>
    match probeRange s1 j.who dst n true with
    | (s2, some _) => failWith s2 5
    | (s2, none) =>
      match engRead s2 j.who src n with
      | (s3, .error f) => failWith s3 (accessCode f)
      | (s3, .ok bs) =>
        let out := (List.range n).map fun i =>
          if decide (src ≤ dst + i) && decide (dst + i < src + n) then overlapByte s3 (dst + i) else bs.getD i 0
        match engWrite s3 j.who dst out with
        | (s4, .error f) => failWith s4 (accessCode f)
        | (s4, .ok c) => .ok (finishPacket s4 j.pkt c)

/-- COPY. -/
def execCopy (queue : Nat) (s : State) : QRes := packetEvent s queue 2 runCopy

/-- SIGNAL: every earlier packet has completed, so its release has nothing to wait for; then the store or the atomic add. -/
def runSignal (s : State) (j : Job) : Except PktFail State :=
  let a := j.num 16 8
  let v := j.num 24 8
  let r := if j.num 32 1 = 1 then (let x := engAdd s j.who a v; (x.1, x.2.map (·.2))) else engWriteNum s j.who a 8 v
  match r with
  | (s1, .error f) => failWith s1 (accessCode f)
  | (s1, .ok c) => .ok (finishPacket s1 j.pkt c)

def execSignal (queue : Nat) (s : State) : QRes := packetEvent s queue 4 runSignal

/-- BIND: the entry is written and leaves every name cache. -/
def runBind (s : State) (j : Job) : Except PktFail State :=
  let name := j.num 16 1
  match nameBlock s j.site with
  | none => failWith s 5
  | some b =>
    let s1 := storeNum s none (b + 8 * name) 8 (j.num 24 8)
    .ok (finishPacket { s1 with trays := s1.trays.map fun e => (e.1, { e.2 with names := e.2.names.filter fun n => n.1 != name }) } j.pkt 0)

def execBind (queue : Nat) (s : State) : QRes := packetEvent s queue 5 runBind

/-- The descriptors of a table range that a die caches, with the shard entries that they name, leave its cache (R396). -/
def dropDescs (asid lo hi : Nat) (d : Die) : Die :=
  let hit (e : Nat × Nat × Cells 8) : Bool :=
    e.1 / 2 ^ 64 == asid && decide (lo ≤ e.1 % 2 ^ 64 + 64 * e.2.1) && decide (e.1 % 2 ^ 64 + 64 * e.2.1 < hi)
  let gone := (d.descs.filter hit).filterMap fun e => readDesc (readBytes e.2.2 0 64)
  let shardGone (k : Nat) : Bool :=
    gone.any fun x => k / 2 ^ 64 == asid && decide (x.stab ≤ k % 2 ^ 64) && decide (k % 2 ^ 64 < x.stab + 8 * x.shardCount)
  { d with descs := d.descs.filter fun e => !hit e, shards := d.shards.filter fun e => !shardGone e.1 }

/-- TDSET. -/
def runTdset (s : State) (j : Job) : Except PktFail State :=
  let n := 64 * j.num 28 4
  let at_ := j.num 16 8 + 64 * j.num 24 4
  match engRead s j.who (j.num 32 8) n with
  | (s1, .error f) => failWith s1 (accessCode f)
  | (s1, .ok bs) =>
    match engWrite s1 j.who at_ bs with
    | (s2, .error f) => failWith s2 (accessCode f)
    | (s2, .ok c) =>
      let asid := asidOf s2 j.site j.ctx
      .ok (finishPacket { s2 with dies := s2.dies.map fun e => (e.1, dropDescs asid at_ (at_ + n) e.2) } j.pkt c)

def execTdset (queue : Nat) (s : State) : QRes := packetEvent s queue 8 runTdset

/-! ### WAITMEM (R353, R357) -/

/-- The condition of a WAITMEM. -/
def condHolds (cond v x : Nat) : Bool :=
  match cond with
  | 0 => v == x
  | 1 => v != x
  | 2 => decide (x ≤ v)
  | _ => decide (v < x)

/-- A read of the watched word; the packet is finished when the condition holds of it. -/
def readWaitmem (s : State) (j : Job) : Except PktFail State :=
  match engTranslate s j.who (j.num 16 8) false with
  | (s1, .ok { attr, target := .mem loc, .. }) =>
    if 1 < attr then failWith s1 5
    else
      let r := loadAt s1 none loc 8
      if r.2.bad then failWith r.1 7
      else if condHolds (j.num 32 1) (leNat r.2.bytes) (j.num 24 8) then .ok (finishPacket r.1 j.pkt r.2.ctime)
      else .ok r.1
  | (s1, _) => failWith s1 5

def execWaitmem (queue : Nat) (s : State) : QRes := packetEvent s queue 3 readWaitmem

/-- A packet that has begun fails: its queue enters error state and the packet leaves. RIDX stays at a packet that is not carried out; for
code 9 it is past it (R354). -/
def failPacket (s : State) (pkt : Nat) (p : Packet) (code : Nat) : State :=
  let hdr := ((queueEntry s p.site p.queue).map (·.hdr)).getD 0
  let head := headHome s p.site p.ctx hdr
  let s1 := { s with packets := tblErase s.packets pkt }
  let s2 := match head with
    | some (loc, _) => if code = 9 then s1 else storeNum s1 none (loc + 64) 8 p.num
    | none => s1
  queueError s2 p.site p.queue p.ctx hdr p.num ((head.map fun h => headSlot s h.1 p.num).getD 0) code

/-- WAITMEM_MONITOR_WAKE (R357): the watched line has been written, and the word is read again. -/
def execWaitmemMonitorWake (pkt : Nat) (s : State) : QRes :=
  match tblGet s.packets pkt with
  | none => .next s
  | some p =>
    if p.kind = 3 ∧ p.finished = false then
      match readWaitmem s { pkt := pkt, site := p.site, ctx := p.ctx, queue := p.queue, at_ := p.num, bytes := p.body } with
      | .ok s1 => .next s1
      | .error f => .next (if f.needs = [] then failPacket s pkt p f.code else { s with needs := f.needs })
    else .next s

/-! ### Shootdown (R384, R385) -/

/-- A page of an ASID is covered by [va, va + n), with n = 0 for the whole space and ASID 0 for every ASID. -/
def covers (va n asid : Nat) (a lo len : Nat) : Bool :=
  (asid == 0 || asid == a) && (n == 0 || (decide (va < lo + len) && decide (lo < va + n)))

/-- The bytes that a TLB entry maps. -/
def tlbSpan (e : TlbEntry) : Nat × Nat :=
  if e.level = nodeLevel then (e.vpn * pageSize 1, pageSize 1) else (e.vpn * pageSize e.level, pageSize e.level)

def tlbCovered (va n asid : Nat) (e : TlbEntry) : Bool := covers va n asid e.asid (tlbSpan e).1 (tlbSpan e).2

/-- The removal of covered translations, interleave entries, L1 and constant lines and replica frames on every die (R379, R384).
Log entry 61 (DEDUCED). -/
def shootDown (s : State) (va n asid : Nat) : State :=
  let line (a v : Nat) : Bool := covers va n asid a (v * 128) 128
  let core (c : Core) : Core :=
    { c with l1 := c.l1.filter fun x => !line x.asid x.va, constLines := c.constLines.filter fun x => !line x.asid x.va }
  let die (d : Die) : Die :=
    { d with
      dtlb := d.dtlb.filter fun e => !tlbCovered va n asid e
      ileave := d.ileave.filter fun e => !covers va n asid e.1 (4096 * e.2.1) 4096
      replicas := d.replicas.filter fun e => !covers va n asid e.asid (4096 * e.vblock) 4096 }
  { s with
    cores := s.cores.map fun e => (e.1, core e.2)
    trays := s.trays.map fun e => (e.1, { e.2 with tlb := e.2.tlb.filter fun x => !tlbCovered va n asid x })
    dies := s.dies.map fun e => (e.1, die e.2) }

/-- TLBINV begins with the removal. -/
def runTlbinv (s : State) (j : Job) : Except PktFail State := .ok (finishPacket (shootDown s (j.num 16 8) (j.num 24 8) (j.num 32 2)) j.pkt 0)

def execTlbinv (queue : Nat) (s : State) : QRes := packetEvent s queue 9 runTlbinv

/-- A running copy's pages are covered. -/
def copyCovered (va n asid a : Nat) (c : Copy) : Bool :=
  c.probed && !c.done && decide (c.offset < c.total) && c.ranges.any fun r => covers va n asid a r.addr r.len

/-- An operation of an address space has lanes in flight on covered pages, or its flag is not written yet. -/
def opCovered (va n asid a : Nat) (o : Op) : Bool :=
  (o.flight.any fun p => covers va n asid a p.acc.addr.toNat 1 || covers va n asid a p.acc.addr2.toNat 1) ||
    (match o.kind with
      | some (.flagged ..) => (asid == 0 || asid == a) && o.stage == .performed
      | _ => false)

/-- A group still uses a removed translation: a copy, an access in flight, or stores that it has translated and that stand in a buffer. -/
def groupCovered (s : State) (va n asid : Nat) (g : Group) : Bool :=
  let a := asidOf s (siteOf s g) (ctxOf s g)
  g.copies.any (copyCovered va n asid a) || g.ops.any (opCovered va n asid a) ||
    ((asid == 0 || asid == a) && (g.wcb != [] || g.sbuf != [] || (g.tx.map fun t => t.bytes != []).getD false))

/-- An access, a copy or an accepted matrix operation still uses a removed translation (R385). Log entry 61 (DEDUCED). -/
def shootBusy (s : State) (va n asid : Nat) : Bool :=
  (s.groups.any fun e => groupCovered s va n asid e.2) || (s.fabOut.any fun q => asid == 0 || q.2.asid == asid) ||
    s.teams.any fun e => (asid == 0 || asid == asidOf s e.2.site e.2.ctx) && e.2.quartets.any fun q => q.2.ops != [] || q.2.checking.isSome

/-! ### Completion (R355) -/

/-- The completion word rises by 1, or its queue enters error state with code 9. -/
def completePacket (s : State) (pkt : Nat) (p : Packet) : State :=
  let s1 := { s with packets := tblErase s.packets pkt }
  if p.caddr = 0 || ctxFlags s p.site p.ctx / 16 % 2 == 1 || s.discarding.contains p.ctx then s1
  else
    match engAdd s1 (packetWho p.site p.ctx p.queue p.num) p.caddr.toNat 1 with
    | (s2, .ok _) => s2
    | (s2, .error _) => if s2.needs = [] then failPacket s pkt p 9 else s2

/-- PACKET_COMPLETE (R355): the packet's effect is done and LEASECLK has passed its completion times; a shootdown's copies and matrix
operations have ended (R385). -/
def execPacketComplete (pkt : Nat) (s : State) : QRes :=
  match tblGet s.packets pkt with
  | none => .next s
  | some p =>
    let busy := p.kind == 9 && shootBusy s (bytesNum p.body 16 8) (bytesNum p.body 24 8) (bytesNum p.body 32 2)
    .next (if p.finished && passes s p.ctime && !busy then completePacket s pkt p else s)

/-! ### CKPT (R455, R456) -/

/-- A region entry. -/
structure Region where
  at_ : Nat
  src : Nat
  len : Nat
  dst : Nat
deriving DecidableEq, Repr

def readRegion (bs : List Byte) (at_ : Nat) : Region := { at_ := at_, src := bytesNum bs 0 8, len := bytesNum bs 8 8, dst := bytesNum bs 16 8 }

/-- The entry's own limits. -/
def regionOk (r : Region) : Bool :=
  r.at_ % 32 == 0 && r.src % 4096 == 0 && r.len % 4096 == 0 && r.dst % 4096 == 0 && decide (4096 ≤ r.len) && decide (r.len ≤ 2 ^ 40)

/-- No two regions' sources overlap. -/
def disjoint : List Region → Bool
  | [] => true
  | r :: rs => rs.all (fun x => decide (r.src + r.len ≤ x.src) || decide (x.src + x.len ≤ r.src)) && disjoint rs

/-- The blocks of a region with their home blocks, or the error: 5 for a fault, 1 for a page of another kind. -/
def regionBlocks (s : State) (w : Who) (r : Region) : State × Except Nat (List (Nat × Nat)) :=
  (List.range (r.len / 4096)).foldl (fun (x : State × Except Nat (List (Nat × Nat))) i =>
    match x.2 with
    | .error c => (x.1, .error c)
    | .ok bs =>
      match engTranslate x.1 w (r.src + 4096 * i) false with
      | (s1, .ok { attr, target := .mem loc, .. }) =>
        if 1 < attr then (s1, .error 1)
        else
          match engTranslate s1 w (r.dst + 4096 * i) true with
          | (s2, .ok d) => if d.attr = 3 ∨ d.attr = 4 then (s2, .ok (bs ++ [(i, loc / 4096)])) else (s2, .error 1)
          | (s2, .error _) => (s2, .error 5)
      | (s1, .ok _) => (s1, .error 1)
      | (s1, .error _) => (s1, .error 5)) (s, .ok [])

/-- The block is flushed and, where its dirty bit is set, held; a block that an earlier checkpoint holds is drained first (R456). -/
def markBlock (s : State) (j : Job) (r : Region) (i block : Nat) : State :=
  let s1 := (List.range 32).foldl (fun s k => writeBack s (32 * block + k)) (drainBlock s block)
  if dirtyOf s1 block then
    let s2 := setDirty s1 block false
    { s2 with held := tblSet s2.held block { pkt := j.pkt, entry := BitVec.ofNat 64 r.at_, offset := 4096 * i,
                                              dst := BitVec.ofNat 64 r.dst, ctx := j.ctx } }
  else s1

/-- The regions of a list, read one by one. -/
def readRegions (s : State) (w : Who) (list : Nat) : Nat → State × Except Nat (List Region)
  | 0 => (s, .ok [])
  | k + 1 =>
    match readRegions s w list k with
    | (s1, .error c) => (s1, .error c)
    | (s1, .ok rs) =>
      match engRead s1 w (list + 32 * k) 32 with
      | (s2, .error f) => (s2, .error (accessCode f))
      | (s2, .ok bs) => (s2, .ok (rs ++ [readRegion bs (list + 32 * k)]))

/-- The home blocks of every region. -/
def allBlocks (s : State) (w : Who) : List Region → State × Except Nat (List (Region × List (Nat × Nat)))
  | [] => (s, .ok [])
  | r :: rs =>
    match regionBlocks s w r with
    | (s1, .error c) => (s1, .error c)
    | (s1, .ok bs) =>
      let x := allBlocks s1 w rs
      (x.1, x.2.map fun l => (r, bs) :: l)

/-- CKPT: the flush and the marks; the drain follows. -/
def runCkpt (s : State) (j : Job) : Except PktFail State :=
  match readRegions s j.who (j.num 16 8) (j.num 24 4) with
  | (s1, .error c) => failWith s1 c
  | (s1, .ok rs) =>
    if !rs.all regionOk || !disjoint rs then failWith s1 1
    else
      match allBlocks s1 j.who rs with
      | (s2, .error c) => failWith s2 c
      | (s2, .ok xs) =>
        let s3 := xs.foldl (fun s x => x.2.foldl (fun s b => markBlock s j x.1 b.1 b.2) s) s2
        let d : Drain := { daddr := BitVec.ofNat 64 (j.num 32 8), ctx := j.ctx, site := j.site, ctime := 0 }
        .ok (finishPacket { s3 with drains := tblSet s3.drains j.pkt d } j.pkt 0)

def execCkpt (queue : Nat) (s : State) : QRes := packetEvent s queue 6 runCkpt

end Sys2Proof.Machine
end

