-- ==== Sys2Proof/Machine/Raster.lean ====
section
/-!
DEFINITION. Raster sinks (R399 to R411): the frames they move between, the merging of streams into submission order, the fixed rasteriser and
its bins, and a frame's completion.
-/
namespace Sys2Proof.Machine

/-- The site on which a sink's die name is served, none where no live site is. -/
def sinkSite (s : State) (x : Sink) : Option Nat := (liveSites s).find? fun site => dieSite s site x.die == some site

/-- The engine of a sink: Sorrel on its die, in the frame's context (R400, R405). -/
def sinkWho (s : State) (x : Sink) : Who :=
  { engineWho ((sinkSite s x).getD 0) x.ctx with op := some (0, 2 ^ 111 + x.die * 2 ^ 40 + x.ctx * 2 ^ 32 + x.number) }

/-- The state with sink k changed. -/
def State.upSink (s : State) (k : Nat) (f : Sink → Sink) : State := { s with sinks := tblUp s.sinks k f }

/-! ### Beginning a frame (R404, R405) -/

/-- An engine's write for a frame: its completion time counts towards the frame's; a write that does not translate is lost. -/
def drawWrite (w : Who) (x : State × Nat) (va : Nat) (bs : List Byte) : State × Nat :=
  match engWrite x.1 w va bs with
  | (s1, .ok c) => (s1, max x.2 c)
  | (s1, .error _) => (s1, x.2)

/-- The regions that a die owns. -/
def ownedRegions (m : List Byte) (die : Nat) : List Nat := (List.range m.length).filter fun r => m.getD r 0xFF == BitVec.ofNat 8 die

/-- The number of the first element of a pixel. -/
def elementOf (d : Frame) (px py : Nat) : Nat := (py * d.qp + px) * d.smp

/-- The pixels of a region in one direction, within the screen. -/
def span (r size : Nat) : List Nat := (List.range (min 64 (size - 64 * r))).map (64 * r + ·)

/-- The address of a region's bin (R408). -/
def binAt (d : Frame) (r : Nat) : Nat := d.bins + r * (64 + 32 * d.bincap)

/-- The clear of a region: its samples, row by row, and the header of its bin. -/
def clearRegion (d : Frame) (w : Who) (x : State × Nat) (r : Nat) : State × Nat :=
  let px := 64 * (r % d.across)
  let n := (span (r % d.across) d.wpix).length * d.smp
  let rows := (span (r / d.across) d.hpix).foldl (fun x py =>
    let e := elementOf d px py
    let y := drawWrite w x (d.idp + 8 * e) (List.replicate (8 * n) 0xFF)
    drawWrite w y (d.dep + 4 * e) ((List.replicate n (leBytes 4 d.clrz)).flatten)) x
  if d.bincap = 0 then rows else drawWrite w rows (binAt d r) (List.replicate 64 0)

/-- What a frame's beginning finds. -/
inductive Begun where
  /-- its descriptor or map breaks the rules: every emission of the frame is refused -/
  | breach
  /-- the die owns no region of it: it never begins there -/
  | absent
  | ok (s : State)

/-- Sink k begins frame f: the descriptor is read, the owned regions are cleared, and the sink draws. What it reads is judged only once the
step lacks nothing. -/
def beginFrame (s : State) (k f : Nat) (x : Sink) : Begun :=
  let w := sinkWho s x
  match loadFrame s w x.base.toNat f with
  | (s1, none) => if s1.needs = [] then .breach else .ok s1
  | (s1, some (bs, m)) =>
    let rs := ownedRegions m x.die
    if s1.needs ≠ [] then .ok s1
    else if rs = [] then .absent
    else
      let y := rs.foldl (clearRegion (readFrame bs) w) (s1, 0)
      .ok (y.1.upSink k fun x =>
        { x with frame :=
          { cur := some f, drawing := true, desc := bs, map := m, c := 0, reorder := [], marks := [], pass := [], held := x.frame.held,
            ctime := y.2 } })

/-- A sink that is idle may begin frame f: CUR is unset, or f is a later frame. -/
def mayBegin (r : Raster) (f : Nat) : Bool :=
  match r.cur with
  | none => true
  | some c => let d := (f + 2 ^ 32 - c) % 2 ^ 32; decide (1 ≤ d) && decide (d < 2 ^ 31)

/-! ### Merging (R402, R403) -/

/-- The packets that the reorder buffer takes. -/
def reorderRoom : Nat := 7168

/-- While the watermark of c has arrived, c moves on, and the buffered packets of the new c are passed on. -/
def moveOn : Nat → Raster → Raster
  | 0, r => r
  | n + 1, r =>
    if r.marks.contains r.c then
      moveOn n { r with
        c := r.c + 1
        marks := r.marks.filter (· != r.c)
        pass := r.pass ++ r.reorder.filter fun p => p.u == r.c + 1
        reorder := r.reorder.filter fun p => p.u != r.c + 1 }
    else r

/-- A packet of the frame that is drawn: passed on, buffered, or not accepted yet. A packet of a sequence whose watermark has been handled
is passed on as well, or refused: Log entry 45 (DEDUCED). -/
def takePrim (free : Bool) (r : Raster) (p : Prim) : Option (Except Unit Raster) :=
  if (readFrame r.desc).nseq ≤ p.u then some (.error ())
  else if p.u = r.c then some (.ok { r with pass := r.pass ++ [p] })
  else if r.c < p.u then (if r.reorder.length < reorderRoom then some (.ok { r with reorder := r.reorder ++ [p] }) else none)
  else if free then some (.ok { r with pass := r.pass ++ [p] })
  else some (.error ())

/-- An emission is refused at its sink (R246). -/
def refuseEmission (s : State) (em : Nat) (e : Emission) : State := endEmission s em e (some { code := 0x2A, info := small (emName e) })

/-- An emission of the frame that sink k draws: accepted with its dedup entry, refused, or not accepted yet. -/
def acceptPrim (s : State) (em : Nat) (e : Emission) (k : Nat) (x : Sink) (ds : List Dedup) : State :=
  let p : Prim := { u := indexOfSeq e.record.seqid, token := e.record.token, words := e.payload }
  match takePrim (Config.freeBool s.draws (readIdx 10 0)) x.frame p with
  | none => s
  | some (.error _) => refuseEmission s em e
  | some (.ok r) => endEmission { s with sinks := tblSet s.sinks k { x with dedup := ds, frame := r } } em e none

/-- An item is held unaccepted until the frame that is drawn completes. -/
def holdItem (s : State) (k : Nat) (mark : Bool) (n : Nat) : State :=
  s.upSink k fun x => { x with frame := { x.frame with held := x.frame.held ++ [(mark, n)] } }

/-- A packet arrives at raster sink k (R401, R403, R404). Log entry 66 (DEDUCED). -/
def packetArrives (s : State) (em : Nat) (e : Emission) (k : Nat) (x : Sink) : State :=
  let f := frameOfSeq e.record.seqid
  let d := dedupToken x e.record
  if e.payload.length ≠ 8 then refuseEmission s em e
  else
    match d.2 with
    | .drop => endEmission s em e none
    | .diverge => endEmission s em e (some { code := 0x2B, info := small e.slot })
    | .refuse => refuseEmission s em e
    | .accept =>
      if x.frame.drawing then
        if x.frame.cur = some f then acceptPrim s em e k x d.1
        else (holdItem s k false em |> fun s1 => { s1 with emissions := tblSet s1.emissions em { e with atSink := true } })
      else if mayBegin x.frame f then
        match beginFrame s k f x with
        | .breach => refuseEmission s em e
        | .absent => s
        | .ok s1 =>
          match tblGet s1.sinks k with
          | some y => acceptPrim s1 em e k y d.1
          | none => s1
      else refuseEmission s em e

/-- A watermark is handled at a sink that draws its frame. -/
def handleMark (s : State) (k : Nat) (seqid : Word64) : State :=
  s.upSink k fun x =>
    let u := indexOfSeq seqid
    if u < x.frame.c ∨ x.frame.marks.contains u = true then x
    else { x with frame := moveOn (x.frame.marks.length + 1) { x.frame with marks := u :: x.frame.marks } }

/-- A refused watermark reports at its SCLOSE, or on its group's SQ counter where that has retired. -/
def refuseMark (s : State) (m : Watermark) : State :=
  let e : Cause := { code := 0x2A, info := small m.die }
  s.upGroup m.group fun g =>
    if (findOp g m.op).isSome then upOp g m.op fun o => { o with err := o.err.or (some e) } else if g.ended then g else reportErr g .sq e

/-- A watermark arrives at raster sink k (R402, R404). -/
def markArrives (s : State) (wm : Nat) (m : Watermark) (k : Nat) (x : Sink) : State :=
  let f := frameOfSeq m.seqid
  let s0 := { s with watermarks := tblErase s.watermarks wm }
  if x.frame.cur = some f ∧ (x.frame.drawing = true ∨ indexOfSeq m.seqid < x.frame.c) then handleMark s0 k m.seqid
  else if x.frame.drawing then holdItem s k true wm
  else if mayBegin x.frame f then
    match beginFrame s0 k f x with
    | .breach => refuseMark s0 m
    | .absent => s
    | .ok s1 => handleMark s1 k m.seqid
  else refuseMark s0 m

/-- The sink of a watermark. -/
def markSink (s : State) (m : Watermark) : Option (Nat × Sink) := findSink s m.die m.ctx m.sink

/-- RASTER_PACKET_ARRIVE: an emission that has been sent to a raster sink arrives there; those of one sequence arrive in token order. -/
def execRasterPacketArrive (em : Nat) (s : State) : GRes :=
  .next (match tblGet s.emissions em with
    | none => s
    | some e =>
      let earlier := s.emissions.any fun y =>
        decide (y.1 < em) && y.2.sent && !y.2.atSink && y.2.record.seqid == e.record.seqid && y.2.ctx == e.ctx &&
          emName y.2 == emName e && emSink y.2 == emSink e
      if !e.sent || e.atSink || earlier then s
      else
        match resolveName s (engineWho e.site e.ctx) (emName e) with
        | (s1, .error c) => endEmission s1 em e (some c)
        | (s1, .ok _) =>
          match findSink s1 (emName e) e.ctx (emSink e) with
          | none => refuseEmission s1 em e
          | some (k, x) => if x.raster then packetArrives s1 em e k x else s1)

/-- RASTER_WATERMARK_ARRIVE: a watermark arrives after every emission of its sequence to its die. -/
def execRasterWatermarkArrive (wm : Nat) (s : State) : GRes :=
  .next (match tblGet s.watermarks wm with
    | none => s
    | some m =>
      let before := s.emissions.any fun y =>
        !y.2.atSink && y.2.record.seqid == m.seqid && y.2.ctx == m.ctx && emName y.2 == m.die && emSink y.2 == m.sink
      match markSink s m with
      | none => refuseMark { s with watermarks := tblErase s.watermarks wm } m
      | some (k, x) => if before || !x.raster || x.frame.held.contains (true, wm) then s else markArrives s wm m k x)

/-! ### Rasterising (R406 to R408) -/

/-- The positions of the samples of a pixel, in sixteenths. -/
def samplePlaces (n : Nat) : List (Nat × Nat) :=
  match n with
  | 1 => [(8, 8)]
  | 2 => [(4, 4), (12, 12)]
  | 4 => [(6, 2), (14, 6), (2, 10), (10, 14)]
  | _ => [(9, 5), (7, 11), (13, 9), (5, 3), (3, 13), (1, 7), (11, 15), (15, 1)]

/-- A vertex: its place in sixteenths of a pixel, and its depth as a signed fraction. -/
structure Vertex where
  x : Int
  y : Int
  num : Int
  den : Nat
deriving DecidableEq, Repr

/-- Vertex i of a packet, none where its depth is a NaN or infinite. -/
def vertexOf (ws : List Word) (i : Nat) : Option Vertex :=
  let w := (ws.getD (2 * i) 0).toNat
  match Fp.value Fp.f32 (ws.getD (2 * i + 1) 0).toNat with
  | .fin n a b => some { x := (w % 65536 : Nat), y := (w / 65536 : Nat), num := if n then -(a : Int) else a, den := b }
  | _ => none

/-- e(i, j, X, Y), and inc(i, j). -/
def edge (i j : Vertex) (x y : Int) : Int := (j.x - i.x) * (y - i.y) - (j.y - i.y) * (x - i.x)
def inc (i j : Vertex) : Bool := decide (0 < j.y - i.y) || (decide (j.y = i.y) && decide (j.x < i.x))

/-- A triangle with its area twice over, positive. -/
structure Tri where
  v0 : Vertex
  v1 : Vertex
  v2 : Vertex
  area : Int
deriving DecidableEq, Repr

/-- The triangle of a packet, its vertices turned so that its area is positive; none where the packet is discarded. -/
def triOf (ws : List Word) : Option Tri :=
  match vertexOf ws 0, vertexOf ws 1, vertexOf ws 2 with
  | some a, some b, some c =>
    let area := edge a b c.x c.y
    if area = 0 then none
    else if area < 0 then some { v0 := a, v1 := c, v2 := b, area := -area }
    else some { v0 := a, v1 := b, v2 := c, area := area }
  | _, _, _ => none

/-- The triangle covers a sample. -/
def covered (t : Tri) (x y : Int) : Bool :=
  [(t.v0, t.v1), (t.v1, t.v2), (t.v2, t.v0)].all fun p =>
    let e := edge p.1 p.2 x y
    decide (0 < e) || (decide (e = 0) && inc p.1 p.2)

/-- The depth of the triangle at a sample, rounded once. -/
def depthAt (t : Tri) (x y : Int) : Word :=
  let e0 := edge t.v1 t.v2 x y
  let e1 := edge t.v2 t.v0 x y
  let e2 := edge t.v0 t.v1 x y
  let n := e0 * t.v0.num * (t.v1.den * t.v2.den : Nat) + e1 * t.v1.num * (t.v0.den * t.v2.den : Nat) +
    e2 * t.v2.num * (t.v0.den * t.v1.den : Nat)
  let d := t.area.toNat * (t.v0.den * t.v1.den * t.v2.den)
  BitVec.ofNat 32 (Fp.cvt Fp.f32 (.fin (decide (n < 0)) n.natAbs d) 0).1

/-- The pair (z, id) is lower than the stored pair (R232). -/
def lowerPair (z id oldZ oldId : Nat) : Bool :=
  let a := Fp.value Fp.f32 z
  let b := Fp.value Fp.f32 oldZ
  Fp.ltV a b || (Fp.eqV a b && decide (id < oldId))

/-- A fragment is applied to the sample with element number e (R232). -/
def applySample (d : Frame) (w : Who) (z : Word) (id : Nat) (x : State × Nat) (e : Nat) : State × Nat :=
  match engReadNum x.1 w (d.dep + 4 * e) 4 with
  | (s1, .error _) => (s1, x.2)
  | (s1, .ok oldZ) =>
    match engReadNum s1 w (d.idp + 8 * e) 8 with
    | (s2, .error _) => (s2, x.2)
    | (s2, .ok oldId) =>
      if lowerPair z.toNat id oldZ oldId then
        drawWrite w (drawWrite w (s2, x.2) (d.idp + 8 * e) (leBytes 8 id)) (d.dep + 4 * e) (leBytes 4 z.toNat)
      else (s2, x.2)

/-- The fragments of a triangle in one pixel. -/
def drawPixel (d : Frame) (w : Who) (t : Tri) (id : Nat) (x : State × Nat) (px py : Nat) : State × Nat :=
  let places := samplePlaces d.smp
  (List.range d.smp).foldl (fun x k =>
    let p := places.getD k (0, 0)
    let X : Int := (16 * px + p.1 : Nat)
    let Y : Int := (16 * py + p.2 : Nat)
    if covered t X Y then applySample d w (depthAt t X Y) id x (elementOf d px py + k) else x) x

/-- The least and the greatest of three vertex coordinates. -/
def lowest3 (a b c : Int) : Nat := (min a (min b c)).toNat
def highest3 (a b c : Int) : Nat := (max a (max b c)).toNat

/-- The regions of a die that the bounding box of a triangle touches. -/
def touched (d : Frame) (rs : List Nat) (t : Tri) : List Nat :=
  let inBox (k : Nat) (a b c : Int) : Bool := decide (lowest3 a b c / 1024 ≤ k) && decide (k ≤ highest3 a b c / 1024)
  rs.filter fun r => inBox (r % d.across) t.v0.x t.v1.x t.v2.x && inBox (r / d.across) t.v0.y t.v1.y t.v2.y

/-- The fragments of a triangle in a region: only a pixel of its bounding box can hold one. -/
def drawRegion (d : Frame) (w : Who) (t : Tri) (id : Nat) (x : State × Nat) (r : Nat) : State × Nat :=
  let inBox (k : Nat) (a b c : Int) : Bool := decide (lowest3 a b c / 16 ≤ k) && decide (k ≤ highest3 a b c / 16)
  let xs := (span (r % d.across) d.wpix).filter fun k => inBox k t.v0.x t.v1.x t.v2.x
  let ys := (span (r / d.across) d.hpix).filter fun k => inBox k t.v0.y t.v1.y t.v2.y
  ys.foldl (fun x py => xs.foldl (fun x px => drawPixel d w t id x px py) x) x

/-- The packet is appended to a region's bin: counted, and stored while there is room (R408). -/
def appendBin (d : Frame) (w : Who) (ws : List Word) (x : State × Nat) (r : Nat) : State × Nat :=
  if d.bincap = 0 then x
  else
    match engReadNum x.1 w (binAt d r) 8 with
    | (s1, .error _) => (s1, x.2)
    | (s1, .ok n) =>
      let y := drawWrite w (s1, x.2) (binAt d r) (leBytes 8 (n + 1))
      if n < d.bincap then drawWrite w y (binAt d r + 64 + 32 * n) (ws.flatMap fun v => leBytes 4 v.toNat) else y

/-- The ID of a packet; all ones marks an empty packet (R401). -/
def primId (ws : List Word) : Nat := (ws.getD 6 0).toNat + 2 ^ 32 * (ws.getD 7 0).toNat

/-- One packet is rasterised and binned. -/
def drawPrim (s : State) (x : Sink) (p : Prim) : State × Nat :=
  let d := readFrame x.frame.desc
  let w := sinkWho s x
  if primId p.words = 2 ^ 64 - 1 then (s, 0)
  else
    match triOf p.words with
    | none => (s, 0)
    | some t =>
      let rs := touched d (ownedRegions x.frame.map x.die) t
      rs.foldl (appendBin d w p.words) (rs.foldl (drawRegion d w t (primId p.words)) (s, 0))

/-- RASTERISE_PACKET: the rasteriser takes the next packet passed on at a sink. -/
def execRasterisePacket (sink : Nat) (s : State) : GRes :=
  .next (match tblGet s.sinks sink with
    | none => s
    | some x =>
      match x.frame.pass with
      | [] => s
      | p :: rest =>
        let y := drawPrim s x p
        y.1.upSink sink fun x => { x with frame := { x.frame with pass := rest, ctime := max x.frame.ctime y.2 } })

/-! ### Completion and restart (R404, R409, R411, R440) -/

/-- A held item is taken again. -/
def retake (k : Nat) (s : State) (item : Bool × Nat) : State :=
  match tblGet s.sinks k with
  | none => s
  | some x =>
    if item.1 then
      match tblGet s.watermarks item.2 with
      | some m => markArrives s item.2 m k x
      | none => s
    else
      match tblGet s.emissions item.2 with
      | some e =>
        let e1 := { e with atSink := false }
        packetArrives { s with emissions := tblSet s.emissions item.2 e1 } item.2 e1 k x
      | none => s

/-- The sink takes its held items again, in the order in which they arrived. -/
def retakeAll (s : State) (k : Nat) : State :=
  match tblGet s.sinks k with
  | none => s
  | some x => x.frame.held.foldl (retake k) (s.upSink k fun x => { x with frame := { x.frame with held := [] } })

/-- The frame of a sink is complete: every watermark has been handled, every packet is drawn and its writes are visible (R409). -/
def frameDone (s : State) (r : Raster) : Bool :=
  r.drawing && decide ((readFrame r.desc).nseq ≤ r.c) && r.pass == [] && passes s r.ctime

/-- FRAME_COMPLETE: DONE rises by 1, and the sink is idle. -/
def execFrameComplete (sink : Nat) (s : State) : GRes :=
  .next (match tblGet s.sinks sink with
    | none => s
    | some x =>
      if frameDone s x.frame then
        let s1 := (engAdd s (sinkWho s x) (readFrame x.frame.desc).done 1).1
        retakeAll (s1.upSink sink fun x => { x with frame := { x.frame with drawing := false } }) sink
      else s)

/-- RESTART: the sink begins the frame at once, with the dedup entries of its sequences freed. -/
def restartSink (s : State) (k f : Nat) (x : Sink) : Option (State × Nat) :=
  let x1 := { x with dedup := x.dedup.filter fun d => frameOfSeq d.seqid != f }
  match beginFrame { s with sinks := tblSet s.sinks k x1 } k f x1 with
  | .ok s1 => some (retakeAll s1 k, (((tblGet s1.sinks k).map (·.frame.ctime)).getD 0))
  | _ => none

end Sys2Proof.Machine
end

