-- ==== Sys2Proof/Machine/Replay.lean ====
section
/-!
DEFINITION. The JCTL packet (R440, R441): the export of a replay image, the restart of a raster sink, and the forgetting of a source's records.
-/
namespace Sys2Proof.Machine

/-- A JCTL packet with operation `op` stands next in a queue, or one that every JCTL event rejects. -/
def jctlNext (s : State) (q op : Nat) : Bool :=
  match (servingSite s q).map fun site => viewQueue s site q with
  | some (_, .ready p) => packetKind (bytesNum p.bytes 0 4) != 7 || bytesNum p.bytes 16 4 == op || decide (2 < bytesNum p.bytes 16 4)
  | _ => true

/-- A JCTL event. -/
def jctlEvent (s : State) (q op : Nat) (run : State → Job → Except PktFail State) : QRes :=
  if jctlNext s q op then packetEvent s q 7 run else .next s

/-! ### EXPORT -/

/-- The stored records of a source site for an ASID, in the live dies' logs; a record held twice counts once. -/
def storedRecords (s : State) (site asid : Nat) : List Record :=
  let all := (liveSites s).flatMap fun k => ((tblGet s.dies k).map (·.log)).getD []
  (all.filter fun r => r.site == site && r.asid == asid).foldl (fun a r => if a.contains r then a else a ++ [r]) []

/-- The order of an image: SEQID, then TOKEN[59:0], then KIND. -/
def recordBefore (a b : Record) : Bool :=
  decide (a.seqid.toNat < b.seqid.toNat) || (a.seqid == b.seqid &&
    (decide (a.token < b.token) || (a.token == b.token && decide (a.kind ≤ b.kind))))

/-- The records with r in its place. -/
def insertRecord (r : Record) : List Record → List Record
  | [] => [r]
  | x :: xs => if recordBefore r x then r :: x :: xs else x :: insertRecord r xs

/-- The records in the order of an image. -/
def sortRecords : List Record → List Record
  | [] => []
  | r :: rs => insertRecord r (sortRecords rs)

/-- EXPORT: the image's header and its records are written; CAP stays as the runtime wrote it. Log entry 67 (DEDUCED). -/
def runExport (s : State) (j : Job) : Except PktFail State :=
  let image := j.num 24 8
  if image % 64 ≠ 0 then failWith s 1
  else
    match engReadNum s j.who (image + 8) 8 with
    | (s1, .error f) => failWith s1 (accessCode f)
    | (s1, .ok cap) =>
      let rs := sortRecords (storedRecords s1 (j.num 20 4) (asidOf s1 j.site j.ctx))
      let state := if rs = [] then 1 else 0
      match engWrite s1 j.who image (leBytes 8 rs.length) with
      | (s2, .error f) => failWith s2 (accessCode f)
      | (s2, .ok c1) =>
        match engWrite s2 j.who (image + 16) (leBytes 48 state ++ (rs.take cap).flatMap recordWords) with
        | (s3, .error f) => failWith s3 (accessCode f)
        | (s3, .ok c2) => .ok (finishPacket s3 j.pkt (max c1 c2))

/-- JCTL_EXPORT. -/
def execJctlExport (queue : Nat) (s : State) : QRes := jctlEvent s queue 0 runExport

/-! ### RESTART and FORGET -/

/-- RESTART of a raster sink of the queue's context; where the die has no such sink, or the frame cannot begin, there is nothing to clear. -/
def runRestart (s : State) (j : Job) : Except PktFail State :=
  let arg := j.num 24 8
  if arg / 1024 % 2 ^ 22 ≠ 0 then failWith s 1
  else
    match findSink s (j.num 20 4) j.ctx (arg % 1024) with
    | none => .ok (finishPacket s j.pkt 0)
    | some (k, x) =>
      if !x.raster then .ok (finishPacket s j.pkt 0)
      else
        match restartSink s k (arg / 2 ^ 32) x with
        | some (s1, c) => .ok (finishPacket s1 j.pkt c)
        | none => .ok (finishPacket s j.pkt 0)

/-- JCTL_RESTART. -/
def execJctlRestart (queue : Nat) (s : State) : QRes := jctlEvent s queue 1 runRestart

/-- FORGET: every stored record of the source site is freed, wherever it is held. -/
def runForget (s : State) (j : Job) : Except PktFail State :=
  let site := j.num 20 4
  let asid := asidOf s j.site j.ctx
  let hit (r : Record) : Bool := r.site == site && r.asid == asid
  if j.num 24 8 ≠ 0 then failWith s 1
  else
    let die (d : Die) : Die :=
      { d with
        log := d.log.filter fun r => !hit r
        fixer := { d.fixer with shadow := d.fixer.shadow.filter fun e => !(e.2.acked && hit e.2.record) } }
    .ok (finishPacket { s with dies := s.dies.map fun e => (e.1, die e.2) } j.pkt 0)

/-- JCTL_FORGET. -/
def execJctlForget (queue : Nat) (s : State) : QRes := jctlEvent s queue 2 runForget

end Sys2Proof.Machine
end

