-- ==== Sys2Proof/Machine/Collective.lean ====
section
/-!
DEFINITION. Collectives (R412 to R417): the contributions that the engine takes, the reduction of a chunk in rank order and its results, and
the failures of a chunk; the loss of a site, which fails chunks (R452, R453).
-/
namespace Sys2Proof.Machine

/-- The element type and size of a binding's FMT (R412). -/
def collElem (fmt : Nat) : Fp.Elem :=
  match fmt with
  | 0 => .flt Fp.f32
  | 1 => .flt Fp.f16
  | 2 => .flt Fp.bf16
  | 3 => .sint 32
  | _ => .uint 32

def collSize (fmt : Nat) : Nat := if fmt = 1 ∨ fmt = 2 then 2 else 4

/-- The binding of a grid. -/
def collOf (s : State) (grid b : Nat) : Option (Grid × Coll) := (tblGet s.grids grid).bind fun g => (tblGet g.launch.colls b).map fun c => (g, c)

/-- The site whose engine serves a grid's launch. -/
def gridSite (s : State) (g : Grid) : Nat := ((tblGet s.packets g.pkt).map (·.site)).getD (lowestSite s)

/-- The collective engine of a rank's die. -/
def rankWho (s : State) (g : Grid) (c : Coll) (r : Nat) : Who :=
  { engineWho ((dieSite s (gridSite s g) (c.names.getD r 48)).getD (gridSite s g)) g.ctx with op := some (0, 2 ^ 112 + g.pkt * 2 ^ 16 + r) }

/-- A name of the binding's dies that is unmapped or lost. -/
def lostName (s : State) (g : Grid) (c : Coll) : Option Nat := c.names.find? fun n => dieSite s (gridSite s g) n == none

/-- The chunk's number in the machine and what has been taken of it. -/
def findChunk (s : State) (grid b c : Nat) : Option (Nat × Chunk) :=
  tblFind s.chunks fun _ x => x.grid == grid && x.binding == b && x.chunk == c

def freshChunk (grid b c : Nat) : Chunk :=
  { grid := grid, binding := b, chunk := c, inputs := [], ops := [], written := false, failed := false, acked := false, ctime := 0 }

/-- The entry of a chunk changes, and is made where there is none. -/
def putChunk (s : State) (grid b c : Nat) (f : Chunk → Chunk) : State :=
  match findChunk s grid b c with
  | some (k, x) => { s with chunks := tblSet s.chunks k (f x) }
  | none => { s with chunks := tblSet s.chunks s.fresh (f (freshChunk grid b c)), fresh := s.fresh + 1 }

/-! ### Failure (R417) -/

/-- STATUS of a binding: ERR, and the lowest failing chunk. -/
def collStatus (s : State) (w : Who) (cdesc c : Nat) : State :=
  match engReadNum s w (cdesc + 36) 4 with
  | (s1, .error _) => s1
  | (s1, .ok v) => (engWriteNum s1 w (cdesc + 36) 4 (2 ^ 31 + (if v / 2 ^ 31 = 1 then min (v % 65536) c else c))).1

/-- An ACCEPI.send that has not retired. -/
def opLives (s : State) (o : Nat × Nat × Nat) : Bool :=
  ((((tblGet s.teams o.1).map (·.groups)).getD []).any fun n => ((tblGet s.groups n).bind fun g => findOp g o.2.2).isSome)

/-- A chunk fails: the ACCEPI.send operations of its streamed contributions that have not retired report the error; where there is none it
is logged against the context. Log entry 68 (DEDUCED). -/
def failChunk (s : State) (grid b c : Nat) (e : Cause) : State :=
  match collOf s grid b with
  | none => s
  | some (g, x) =>
    let done := (findChunk s grid b c).map fun k => k.2.written || k.2.failed
    if done.getD false then s
    else
      let waiting := s.contribs.filter fun k => k.2.grid == grid && k.2.binding == b && k.2.chunk == c
      let ops := ((((findChunk s grid b c).map (·.2.ops)).getD []) ++ waiting.filterMap fun k => k.2.quartet).filter (opLives s)
      let s1 := collStatus (putChunk s grid b c fun k => { k with failed := true }) (engineWho (gridSite s g) g.ctx) x.cdesc.toNat c
      let s2 := { s1 with contribs := s1.contribs.filter fun k => !(k.2.grid == grid && k.2.binding == b && k.2.chunk == c) }
      if ops = [] then contextError s2 (gridSite s g) g.ctx 2 e.code 0
      else ops.foldl (fun s o => noteDone s o.1 o.2.1 o.2.2 { err := some e }) s2

/-- The cause of a chunk's failure at an access. -/
def chunkCause : EngFault → Cause
  | .trap c => c
  | .page .. => { code := 0x15, info := 0 }
  | .err => { code := 0x1A, info := small 6 }

/-! ### Results (R415) -/

/-- The elements of a chunk's input. -/
def chunkElems (size : Nat) (bs : List Byte) : List Nat := (List.range (bs.length / size)).map fun i => bytesNum bs (size * i) size

/-- The reduced bytes of a chunk, element by element in rank order. -/
def reduceChunk (c : Coll) (ins : List (List Byte)) : List Byte :=
  let xs := ins.map (chunkElems (collSize c.fmt))
  (List.range (c.chbytes / collSize c.fmt)).flatMap fun i =>
    leBytes (collSize c.fmt) (Fp.ringReduce c.op (collElem c.fmt) (xs.map fun x => x.getD i 0))

/-- The results of chunk k and where they are written: the rank that writes, the address and the bytes. -/
def chunkResults (c : Coll) (k : Nat) (ins : List (List Byte)) : List (Nat × Nat × List Byte) :=
  let n := c.names.length
  let at_ (r i : Nat) : Nat := c.dst.toNat + r * c.rstr + i * c.chbytes
  match c.kind with
  | 1 => let bs := reduceChunk c ins; (List.range n).map fun r => (r, at_ r k, bs)
  | 2 => [(k % n, at_ (k % n) k, reduceChunk c ins)]
  | _ => (List.range n).flatMap fun r => (List.range n).map fun q => (r, at_ r (q * c.nchunk + k), ins.getD q [])

/-- The results are written; at a rank that does not take its result the chunk fails. -/
def writeResults (s : State) (g : Grid) (c : Coll) (rs : List (Nat × Nat × List Byte)) : State × Except EngFault Nat :=
  rs.foldl (fun (x : State × Except EngFault Nat) r =>
    match x.2 with
    | .error f => (x.1, .error f)
    | .ok t =>
      match engWrite x.1 (rankWho x.1 g c r.1) r.2.1 r.2.2 with
      | (s1, .ok u) => (s1, .ok (max t u))
      | (s1, .error f) => (s1, .error f)) (s, .ok 0)

/-- Every rank's input has been taken. -/
def chunkFull (c : Coll) (k : Chunk) : Bool := (List.range c.names.length).all fun r => (tblGet k.inputs r).isSome

/-- A full chunk is reduced and written; a router's adders may have disagreed, and have agreed or not when the node was retried. -/
def resolveChunk (s : State) (grid b k site : Nat) (retried agrees : Bool) : State :=
  match collOf s grid b, findChunk s grid b k with
  | some (g, c), some (_, x) =>
    if !chunkFull c x || x.written || x.failed then s
    else if retried && !agrees && c.kind != 3 then failChunk s grid b k { code := 0x1A, info := small 6 }
    else
      let s0 := if retried && c.kind != 3 then adderEvent s site else s
      let ins := (List.range c.names.length).map fun r => (tblGet x.inputs r).getD []
      match writeResults s0 g c (chunkResults c k ins) with
      | (s1, .ok t) => putChunk s1 grid b k fun x => { x with written := true, ctime := t }
      | (s1, .error f) => failChunk s1 grid b k (chunkCause f)
  | _, _ => s

/-! ### Contributions (R414, R415) -/

/-- An exit-fired contribution reads its input once its team's stores are acknowledged and their completion times have passed. -/
def contribReady (s : State) (x : Contrib) (g : Grid) : Bool :=
  x.bytes.isSome || ((tblGet s.teams x.team).isNone && passes s g.chz)

/-- The engine takes a contribution: one for each rank; its ACCEPI.send is then complete. -/
def takeContribution (s : State) (x : Contrib) (bs : List Byte) : State :=
  let add (k : Chunk) : Chunk :=
    if k.failed || k.written || (tblGet k.inputs x.rank).isSome then k
    else { k with inputs := tblSet k.inputs x.rank bs, ops := k.ops ++ x.quartet.toList }
  let s1 := putChunk s x.grid x.binding x.chunk add
  match x.quartet with
  | some o => noteDone s1 o.1 o.2.1 o.2.2 {}
  | none => s1

/-- COLLECTIVE_CONTRIBUTION: the engine takes a rank's chunk, and reduces a chunk that is complete. -/
def execCollectiveContribution (contrib : Nat) (site : Nat) (retried : Bool) (agrees : Bool) (s : State) : MxRes :=
  .next (match tblGet s.contribs contrib with
    | none => s
    | some x =>
      match collOf s x.grid x.binding with
      | none => { s with contribs := tblErase s.contribs contrib }
      | some (g, c) =>
        if !contribReady s x g then s
        else
          match lostName s g c with
          | some n => failChunk s x.grid x.binding x.chunk { code := 0x19, info := small n }
          | none =>
            let s0 := { s with contribs := tblErase s.contribs contrib }
            match x.bytes with
            | some bs => resolveChunk (takeContribution s0 x bs) x.grid x.binding x.chunk site retried agrees
            | none =>
              match engRead s0 (rankWho s g c x.rank) (c.src.toNat + x.rank * c.rstr + x.chunk * c.chbytes) c.chbytes with
              | (s1, .error f) => failChunk s1 x.grid x.binding x.chunk (chunkCause f)
              | (s1, .ok bs) => resolveChunk (takeContribution s1 x bs) x.grid x.binding x.chunk site retried agrees)

/-- CHUNK_RESULT_ACK: the writes of a chunk are acknowledged and their completion times have passed: DONE rises by 1. -/
def execChunkResultAck (chunk : Nat) (s : State) : MxRes :=
  .next (match tblGet s.chunks chunk with
    | none => s
    | some x =>
      match collOf s x.grid x.binding with
      | none => s
      | some (g, c) =>
        if !x.written || x.acked || !passes s x.ctime then s
        else
          let s1 := (engAdd s { engineWho (gridSite s g) g.ctx with op := some (0, 2 ^ 113 + chunk) } c.done.toNat 1).1
          { s1 with
            chunks := tblSet s1.chunks chunk { x with acked := true, inputs := [] }
            grids := tblUp s1.grids x.grid fun g => { g with openChunks := g.openChunks - 1 } })

/-! ### The loss of a site (R417, R452, R453) -/

/-- The chunks of a binding that a lost name fails: every one not yet written everywhere. -/
def failBinding (grid b : Nat) (s : State) : State :=
  match collOf s grid b with
  | none => s
  | some (g, c) =>
    match lostName s g c with
    | none => s
    | some n => (List.range c.nchunk).foldl (fun s k => failChunk s grid b k { code := 0x19, info := small n }) s

/-- A site is lost, with the collective chunks that need it. -/
def loseWhole (s : State) (site : Nat) : State :=
  let s1 := loseSite s site
  s1.grids.foldl (fun s g => g.2.launch.colls.foldl (fun s b => failBinding g.1 b.1 s) s) s1

/-- SITE_LOST_TIMEOUT: no live neighbour has heard a live site for 600 ticks. -/
def execSiteLostTimeout (site : Nat) (s : State) : EvRes :=
  .next (if (liveSites s).contains site && silent s site then loseWhole s site else s)

/-- SITE_LOST_DECLARED: a site's Mboash declares it lost. -/
def execSiteLostDeclared (site : Nat) (s : State) : EvRes := .next (if (liveSites s).contains site then loseWhole s site else s)

end Sys2Proof.Machine
end

