-- ==== Sys2Proof/Machine/FeedUnit.lean ====
section
/-!
DEFINITION. Feed programs: FEED and FSTOP (R218, R219), the check of a program, the feed words (R220), and Fennel (R221, R222, R300).
-/
namespace Sys2Proof.Machine

abbrev FeedRes := Host.Outcome State Fault Refusal

/-! ### The program (R219) -/

/-- Four bytes through the constant cache of group g's core: a hit needs no translation, a miss fills its line (R159). -/
def constRead (s : State) (g : Group) (w : Who) (va : Nat) : State × Except EngFault Nat :=
  let core := w.core.getD 0
  match constHit s g core (asidOf s w.site w.ctx) va 64 with
  | some c => (s, .ok (leNat (readBytes c (va % 128) 4)))
  | none =>
    match engTranslate s w va false with
    | (s1, .error f) => (s1, .error f)
    | (s1, .ok { target := .fabric peer fa, .. }) =>
      let r := homeLoad s1 w 4 { attr := 5, target := .fabric peer fa }
      (r.1, if r.2.bad then .error .err else .ok (leNat r.2.bytes))
    | (s1, .ok { target := .mem loc, attr, asid, vblock, writable }) =>
      let r := homeLoad s1 w 128 { attr, target := .mem (loc - loc % 128), asid, vblock, writable }
      if r.2.bad then (r.1, .error .err)
      else
        let line : ConstLine :=
          { grid := gridNum s g, asid := asidOf s w.site w.ctx, va := va / 128, pa := lineOf loc, bytes := writeBytes [] 0 r.2.bytes }
        (r.1.upCore core fun c => { c with constLines := line :: c.constLines }, .ok (leNat (readBytes line.bytes (va % 128) 4)))

/-- A word at a loop depth: the depth after it, and whether it is the final FEND; none where it breaks R220. -/
def wordAt (qmask depth : Nat) (w : Nat) : Option (Nat × Bool) :=
  let queue (q : BitVec 2) : Option (Nat × Bool) := if qmask / 2 ^ q.toNat % 2 = 1 then some (depth, false) else none
  match decodeFeed w with
  | .error _ => none
  | .ok i =>
    match i with
    | .fld q _ _ _ _ _ => queue q
    | .flds q _ _ _ => queue q
    | .floop _ | .floopReg _ => if depth < 4 then some (depth + 1, false) else none
    | .fend => if depth = 0 then some (0, true) else some (depth - 1, false)
    | .fstep .. | .fstepReg .. | .fsync => some (depth, false)
    | _ => none

/-- Why no program starts: a fault of a read, or the word that breaks R220. -/
inductive ProgFault where
  | read (f : EngFault)
  | word (i : Nat)
deriving DecidableEq, Repr

/-- The program's words from word i up to its final FEND, within `fuel` words. -/
def scanProgram (g : Group) (w : Who) (prog qmask : Nat) : Nat → Nat → Nat → State → State × Except ProgFault (List Word)
  | 0, _, _, s => (s, .error (.word 64))
  | fuel + 1, i, depth, s =>
    match constRead s g w ((prog + 4 * i) % 2 ^ 64) with
    | (s1, .error f) => (s1, .error (.read f))
    | (s1, .ok x) =>
      match wordAt qmask depth x with
      | none => (s1, .error (.word i))
      | some (_, true) => (s1, .ok [BitVec.ofNat 32 x])
      | some (d, false) =>
        let r := scanProgram g w prog qmask fuel (i + 1) d s1
        (r.1, r.2.map fun ws => BitVec.ofNat 32 x :: ws)

/-- A program at its beginning. -/
def freshFeed (prog : Word64) (words : List Word) (qmask : Nat) (args : List Word64) (since : Nat) : Feed where
  prog := prog
  words := words
  qmask := qmask
  place := { a := (List.range 8).map fun i => args.getD i 0, loops := [], pos := 0, produced := [0, 0, 0, 0] }
  running := true
  failed := none
  skip := [0, 0, 0, 0]
  queues := [[], [], [], []]
  syncStores := none
  parked := false
  since := since

/-- The group's program ends and its entries go (R219). A fault record at which it was parked is dead. -/
def stopFeed (s : State) (n : Nat) : State :=
  { s.upGroup n fun g => { g with feed := none } with faults := s.faults.filter fun e => !(e.2.group == n && e.2.party == 2) }

/-- FSTOP (R219). -/
def execFstop (s : State) : FeedRes := onGroup s fun _ => (stopFeed s s.cur).upGroup s.cur (advance 1)

/-- Fennel's accesses for group n: an agent of their own (R304). -/
def fennelWho (s : State) (n : Nat) (g : Group) : Who := { groupWho s n g with group := none, op := some (n, 2 ^ 49 + n) }

/-- FEED (R218, R219): parked at a page fault, it performs again with the operands that it captured. Log entry 41 (DEDUCED). -/
def execFeed (prog args : BitVec 7) (na : BitVec 3) (qmask : BitVec 4) (s : State) : FeedRes :=
  onGroup s fun g =>
    let as := if args = 104 then [] else (List.range (na.toNat + 1)).map fun i => usrc64 s g 1 (args + BitVec.ofNat 7 (2 * i))
    let vals := operands g (usrc64 s g 0 prog :: as)
    let p := vals.headD 0
    let s1 := stopFeed s s.cur
    if p.toNat % 4 ≠ 0 then trapAt s1 s.cur 0x12 (laddr 0 p)
    else
      match scanProgram g (fennelWho s s.cur g) p.toNat qmask.toNat 64 0 0 s1 with
      | (s2, .error (.read f)) => wholeFault s2 s.cur false (onesBelow g.width) f (some vals)
      | (s2, .error (.word i)) => trapAt s2 s.cur 0x06 (small i)
      | (s2, .ok ws) => s2.upGroup s.cur fun g => advance 2 { g with feed := some (freshFeed p ws qmask.toNat vals.tail (s.clock + 1)) }

/-! ### The feed words (R220, R221) -/

/-- The program of group n changes. -/
def State.upFeed (s : State) (n : Nat) (f : Feed → Feed) : State := s.upGroup n fun g => { g with feed := g.feed.map f }

/-- The address register aN. -/
def feedReg (f : Feed) (n : BitVec 3) : Word64 := f.place.a.getD n.toNat 0

/-- The program goes to word `pos`. -/
def feedGoto (pos : Nat) (f : Feed) : Feed := { f with place := { f.place with pos := pos } }

/-- Entries are appended to queue q; a restored program drops the first that it produces (R222). -/
def appendEntries (q : Nat) (es : List (Cells 32)) (f : Feed) : Feed :=
  let mk (c : Cells 32) : FeedEntry := { lanes := c, present := false, word := f.place.pos, at_ := f.place }
  let drop := f.skip.getD q 0
  { f with
    queues := f.queues.set q (f.queues.getD q [] ++ (es.drop drop).map mk)
    skip := f.skip.set q (drop - es.length)
    place := { f.place with pos := f.place.pos + 1, produced := f.place.produced.set q (f.place.produced.getD q 0 + es.length) } }

/-- The entries of words by lane: entry j of each lane's words. -/
def laneEntries (count : Nat) (ws : List (Nat × List Word)) : List (Cells 32) :=
  (List.range count).map fun j => ws.filterMap fun e => if e.2.getD j 0 = 0 then none else some (e.1, e.2.getD j 0)

/-- An address that a feed load may use: in the global window or the stash window, aligned, within the stash. -/
def feedAddrOk (s : State) (team a size : Nat) : Bool :=
  a % size == 0 && (inGlobal a || (inOwnStash a && decide (a % 2 ^ 24 + size ≤ stashSize s team)))

/-- The lanes' loads in ascending order: the words, or the first fault. -/
def feedReads (w : Who) (team size : Nat) (signed : Bool) : List (Nat × Nat) → State → State × Except EngFault (List (Nat × List Word))
  | [], s => (s, .ok [])
  | (l, a) :: rest, s =>
    match genRead s w team a size with
    | (s1, .error f) => (s1, .error f)
    | (s1, .ok bs) =>
      let r := feedReads w team size signed rest s1
      (r.1, r.2.map fun ws => (l, loadWords signed bs) :: ws)

/-- The program ends at its word with a failed load (R221). Log entry 42 (DEDUCED). -/
def failFeed (s : State) (n : Nat) : State := s.upFeed n fun f => { f with running := false, failed := some f.place.pos }

/-- Loads of some lanes into queue q: `copy` gives every lane of the group the one value that is loaded. A page fault parks the program,
another failure ends it (R221). -/
def feedLoad (s : State) (n : Nat) (g : Group) (q size : Nat) (signed : Bool) (addrs : List (Nat × Nat)) (copy : Bool) : State :=
  if 8 < (feedQueue g q).length + regsFor size then s
  else if !(addrs.all fun x => feedAddrOk s g.team x.2 size) then failFeed s n
  else
    match feedReads (fennelWho s n g) g.team size signed addrs s with
    | (s1, .error (.page va c l p)) => (parkAt s1 (faultRec s1 n 2 va false c l p 0)).upFeed n fun f => { f with parked := true }
    | (s1, .error _) => failFeed s1 n
    | (s1, .ok ws) =>
      let all := if copy then (List.range g.width).map fun l => (l, (ws.headD (0, [])).2) else ws
      s1.upFeed n (appendEntries q (laneEntries (regsFor size) all))

/-- FLD for the program of group n: lane ℓ loads at aN + off + (ℓ mod 2^G) · size + (ℓ shr G) · aM. -/
def feedFld (s : State) (n : Nat) (g : Group) (f : Feed) (q : BitVec 2) (t an am gsh : BitVec 3) (off : BitVec 14) : State :=
  let size := sizeOfType t
  let addr (l : Nat) : Nat :=
    (feedReg f an + off.signExtend 64 + BitVec.ofNat 64 (l % 2 ^ gsh.toNat * size) + BitVec.ofNat 64 (l / 2 ^ gsh.toNat) * feedReg f am).toNat
  feedLoad s n g q.toNat size (signedType t) ((List.range g.width).map fun l => (l, addr l)) false

/-- FLDS: one load for every lane. -/
def feedFlds (s : State) (n : Nat) (g : Group) (f : Feed) (q : BitVec 2) (t an : BitVec 3) (off : BitVec 14) : State :=
  feedLoad s n g q.toNat (sizeOfType t) (signedType t) [(0, (feedReg f an + off.signExtend 64).toNat)] true

/-- The word after the FEND that closes the loop whose body begins at word i, at depth d within it. -/
def afterLoop (words : List Word) : Nat → Nat → Nat → Nat
  | 0, i, _ => i
  | fuel + 1, i, d =>
    match (words.getD i 0).toNat / 2 ^ 28 with
    | 2 => afterLoop words fuel (i + 1) (d + 1)
    | 4 => if d = 0 then i + 1 else afterLoop words fuel (i + 1) (d - 1)
    | _ => afterLoop words fuel (i + 1) d

/-- FLOOP: a loop level of `count` iterations; a count of 0 skips to the word after its FEND. -/
def feedLoop (count : Nat) (f : Feed) : Feed :=
  if count = 0 then feedGoto (afterLoop f.words 64 (f.place.pos + 1) 0) f
  else { f with place := { f.place with loops := (f.place.pos, 0, count) :: f.place.loops, pos := f.place.pos + 1 } }

/-- FSTEP: aN := aN + x. -/
def feedStep (an : BitVec 3) (x : Word64) (f : Feed) : Feed :=
  { f with place := { f.place with a := f.place.a.set an.toNat (feedReg f an + x), pos := f.place.pos + 1 } }

/-- FEND: the innermost iteration ends, or at depth 0 the program. -/
def feedEnd (f : Feed) : Feed :=
  match f.place.loops with
  | [] => { f with running := false }
  | (w, done, count) :: rest =>
    if done + 1 < count then { f with place := { f.place with loops := (w, done + 1, count) :: rest, pos := w + 1 } }
    else { f with place := { f.place with loops := rest, pos := f.place.pos + 1 } }

/-- The stores of a group that are outstanding on ST. -/
def openStores (g : Group) : List Nat := (g.ops.filter fun o => o.ctr == .st).map (·.uid)

/-- FSYNC: every entry has been popped, and the stores outstanding then have retired. Log entry 43 (DESIGN CHOICE). -/
def feedSync (g : Group) (f : Feed) : Feed :=
  match f.syncStores with
  | none =>
    if f.queues.all (· == []) then
      (if openStores g = [] then feedGoto (f.place.pos + 1) f else { f with syncStores := some (openStores g) })
    else f
  | some us => if us.all fun u => !(openStores g).contains u then feedGoto (f.place.pos + 1) { f with syncStores := none } else f

/-- The program of the selected group runs a word: none where it has no running program. -/
def onFeed (s : State) (k : Nat → Group → Feed → State) : FeedRes :=
  match tblGet s.groups s.cur with
  | none => .fault .noGroup
  | some g =>
    match g.feed with
    | some f => if f.running then .next (if f.parked then s else k s.cur g f) else .fault .noFeedProgram
    | none => .fault .noFeedProgram

def execFld (q : BitVec 2) (t n m gsh : BitVec 3) (off : BitVec 14) (s : State) : FeedRes :=
  onFeed s fun c g f => feedFld s c g f q t n m gsh off

def execFlds (q : BitVec 2) (t n : BitVec 3) (off : BitVec 14) (s : State) : FeedRes :=
  onFeed s fun c g f => feedFlds s c g f q t n off

def execFloop (count : BitVec 24) (s : State) : FeedRes := onFeed s fun c _ _ => s.upFeed c (feedLoop count.toNat)

def execFloopReg (n : BitVec 3) (s : State) : FeedRes := onFeed s fun c _ f => s.upFeed c (feedLoop ((feedReg f n).toNat % 2 ^ 32))

def execFstep (n : BitVec 3) (imm : BitVec 21) (s : State) : FeedRes := onFeed s fun c _ _ => s.upFeed c (feedStep n (imm.signExtend 64))

def execFstepReg (n m : BitVec 3) (s : State) : FeedRes := onFeed s fun c _ f => s.upFeed c (feedStep n (feedReg f m))

def execFend (s : State) : FeedRes := onFeed s fun c _ _ => s.upFeed c feedEnd

def execFsync (s : State) : FeedRes := onFeed s fun c g _ => s.upFeed c (feedSync g)

/-! ### Fennel's events (R221, R300) -/

/-- The next word of a running program is run. -/
def serveWord (s : State) (n : Nat) (g : Group) (f : Feed) : State :=
  match decodeFeed (f.words.getD f.place.pos 0).toNat with
  | .error _ => s
  | .ok i =>
    match i with
    | .fld q t an am gsh off => feedFld s n g f q t an am gsh off
    | .flds q t an off => feedFlds s n g f q t an off
    | .floop count => s.upFeed n (feedLoop count.toNat)
    | .floopReg an => s.upFeed n (feedLoop ((feedReg f an).toNat % 2 ^ 32))
    | .fstep an imm => s.upFeed n (feedStep an (imm.signExtend 64))
    | .fstepReg an am => s.upFeed n (feedStep an (feedReg f am))
    | .fend => s.upFeed n feedEnd
    | .fsync => s.upFeed n (feedSync g)
    | _ => s

/-- The group's program would move if it were served in this clock. -/
def feedReady (clock : Nat) (g : Group) (f : Feed) : Bool :=
  f.running && !f.parked && !g.ended && decide (f.since ≤ clock) &&
    match decodeFeed (f.words.getD f.place.pos 0).toNat with
    | .ok (.fld q t ..) => decide ((feedQueue g q.toNat).length + regsFor (sizeOfType t) ≤ 8)
    | .ok (.flds q t ..) => decide ((feedQueue g q.toNat).length + regsFor (sizeOfType t) ≤ 8)
    | .ok .fsync => feedSync g f != f
    | _ => true

/-- The core and the partition of a group. -/
def seatOf (s : State) (g : Group) : Option (Nat × Nat) := (teamOf s g).map fun t => (coreNum t.site t.core, g.grpid % 4)

/-- The groups of a partition of a core whose programs would move. -/
def feedCandidates (s : State) (seat : Nat × Nat) : List Nat :=
  (s.groups.filter fun e => seatOf s e.2 == some seat && (e.2.feed.map fun f => feedReady s.clock e.2 f).getD false).map (·.1)

/-- Fennel serves group n in this clock: it has served no program of the partition in the clock, and group n's is the next in round robin
after the one served last (R221). -/
def feedTurn (s : State) (n : Nat) : Bool :=
  match ((tblGet s.groups n).bind (seatOf s)) with
  | none => false
  | some seat =>
    let last := ((tblGet s.cores seat.1).map (·.fed)).bind fun f => tblGet f seat.2
    let ks := feedCandidates s seat
    match last with
    | none => ks.head? == some n
    | some (m, at_) => at_ != s.clock && ((ks.find? fun k => decide (m < k)).or ks.head?) == some n

/-- Fennel has served group n in this clock. -/
def noteFed (s : State) (n : Nat) : State :=
  match ((tblGet s.groups n).bind (seatOf s)) with
  | none => s
  | some seat => s.upCore seat.1 fun c => { c with fed := tblSet c.fed seat.2 (n, s.clock) }

/-- The next word of group n's program, which Fennel fetches for it to run at its turn. -/
def moveFeed (s : State) (n : Nat) : State × Option Instr :=
  if !feedTurn s n then (s, none)
  else
    match (tblGet s.groups n).bind (·.feed) with
    | some f => ({ noteFed s n with cur := n }, (decodeFeed (f.words.getD f.place.pos 0).toNat).toOption)
    | none => (s, none)

/-- FENNEL_SERVE: Fennel runs one word of a group's program at its turn. -/
def execFennelServe (g : Nat) (s : State) : FeedRes :=
  .next (match tblGet s.groups g with
    | some gr =>
      match gr.feed with
      | some f => if feedTurn s g then serveWord (noteFed s g) g gr f else s
      | none => s
    | none => s)

/-- The first entry whose load has not returned is present. -/
def arriveFirst : List FeedEntry → List FeedEntry
  | [] => []
  | e :: es => if e.present then e :: arriveFirst es else { e with present := true } :: es

/-- FEED_LOAD_RETURN: the oldest load of a queue returns; the entries of a queue arrive in program order. -/
def execFeedLoadReturn (g : Nat) (queue : Nat) (s : State) : FeedRes :=
  .next (s.upFeed g fun f => { f with queues := f.queues.set queue (arriveFirst (f.queues.getD queue [])) })

end Sys2Proof.Machine
end

