-- ==== Sys2Proof/Machine/Launch.lean ====
section
/-!
DEFINITION. Launches (R286, R287, R296, R297, R358 to R362, R412, R413, R437): the record and its tables, the placement of teams, and the end of
a grid.
-/
namespace Sys2Proof.Machine

/-! ### The record (R358) -/

/-- The binding in the 16 bytes at `off` of a record, before its descriptor is read (R412). -/
def readColl (bs : List Byte) (off : Nat) : Coll :=
  let sel := bytesNum bs (off + 3) 1
  { kind := bytesNum bs off 1, fmt := bytesNum bs (off + 1) 1, op := bytesNum bs (off + 2) 1, rsel := sel % 4, csel := sel / 4 % 4,
    stream := sel / 16 % 2 == 1, cdesc := BitVec.ofNat 64 (bytesNum bs (off + 8) 8), names := [], src := 0, dst := 0, rstr := 0, chbytes := 0,
    nchunk := 0, done := 0 }

/-- A record's fields. -/
def readLaunch (bs : List Byte) : Launch where
  entry := BitVec.ofNat 64 (bytesNum bs 0 8)
  gx := bytesNum bs 8 2
  gy := bytesNum bs 10 2
  gz := bytesNum bs 12 2
  csize := bytesNum bs 14 1
  groups := bytesNum bs 15 1
  width := bytesNum bs 16 1
  tiles := bytesNum bs 17 1 % 2 == 1
  ordered := bytesNum bs 17 1 / 2 % 2 == 1
  quant := bytesNum bs 18 2
  stash := bytesNum bs 20 4
  dieset := BitVec.ofNat 64 (bytesNum bs 24 8)
  sched := BitVec.ofNat 64 (bytesNum bs 32 8)
  schlen := bytesNum bs 40 4
  setsz := bytesNum bs 44 2
  desc := BitVec.ofNat 64 (bytesNum bs 48 8)
  ndesc := bytesNum bs 56 4
  save := BitVec.ofNat 64 (bytesNum bs 64 8)
  cpycap := bytesNum bs 72 4
  seqlog := BitVec.ofNat 64 (bytesNum bs 80 8)
  sinks := BitVec.ofNat 64 (bytesNum bs 88 8)
  colls := (List.range 4).filterMap fun i => if bytesNum bs (96 + 16 * i) 1 = 0 then none else some (i, readColl bs (96 + 16 * i))
  sargs := (List.range 24).map fun i => BitVec.ofNat 32 (bytesNum bs (160 + 4 * i) 4)

/-- T, and the size of a team's save area and of its parts (R366). -/
def Launch.teams (l : Launch) : Nat := l.gx * l.gy * l.gz
def Launch.matrixAt (l : Launch) : Nat := 8192 + 45056 * l.groups
def Launch.stashAt (l : Launch) : Nat := l.matrixAt + if l.tiles then 149504 else 0
def Launch.saveSize (l : Launch) : Nat := (l.stashAt + l.stash + 64 * l.cpycap + 4095) / 4096 * 4096

/-- lo ≤ x ≤ hi. -/
def within (x lo hi : Nat) : Bool := decide (lo ≤ x) && decide (x ≤ hi)

/-- The 16 bytes of a binding are within the table (R412). -/
def collOk (bs : List Byte) (off : Nat) : Bool :=
  let c := readColl bs off
  if c.kind = 0 then bytesNum bs off 16 == 0
  else
    decide (c.kind ≤ 3) && decide (c.fmt ≤ 4) && decide (c.op ≤ 2) && (c.kind != 3 || c.op == 0) && c.rsel != 3 && c.csel != 3 &&
      c.rsel != c.csel && decide (bytesNum bs (off + 3) 1 < 32) && bytesNum bs (off + 4) 4 == 0 && c.cdesc.toNat % 64 == 0

/-- Every field of a record lies in its range, and every reserved byte is 0 (R358, R359, R412). -/
def recordOk (bs : List Byte) : Bool :=
  let l := readLaunch bs
  l.entry.toNat % 128 == 0 && within l.gx 1 65535 && within l.gy 1 65535 && within l.gz 1 65535 && within l.csize 1 16 &&
    within l.groups 1 32 && decide (l.width ≤ 4) && decide (bytesNum bs 17 1 < 4) &&
    (if l.ordered then within l.quant 64 4096 else l.quant == 0) && decide (l.stash ≤ 524288) && l.stash % 128 == 0 &&
    decide (l.dieset.toNat < 2 ^ 48) && (if l.sched = 0 then l.schlen == 0 else within l.schlen 1 4096) && within l.setsz 1 16 &&
    bytesNum bs 46 2 == 0 && decide (l.ndesc ≤ 65536) && bytesNum bs 60 4 == 0 && l.save.toNat % 4096 == 0 &&
    decide (l.cpycap ≤ 4096) && bytesNum bs 76 4 == 0 && l.desc.toNat % 64 == 0 && l.sinks.toNat % 64 == 0 &&
    ([96, 112, 128, 144].all (collOk bs)) && l.teams % l.csize == 0 && (l.setsz == 1 || l.csize == 1) && decide (l.teams ≤ 2 ^ 27) &&
    decide (l.save.toNat + l.teams * l.saveSize ≤ 0xFC * 2 ^ 48)

/-- A name's binding as the launcher finds it: its site, 0x18 where it is unmapped, 0x19 where it is lost. -/
def nameState (s : State) (site n : Nat) : Except Nat Nat :=
  match bindOf s site n (nameHome s site n).toNat with
  | .ok b => .ok b.site
  | .error c => .error c.code

/-- The names of a mask. -/
def maskNames (m : Word64) : List Nat := (List.range 48).filter fun n => m.getLsbD n

/-- The live names of a launch's DIESET, none where it names an unmapped die or no live one (R359, R360). -/
def liveNames (s : State) (site : Nat) (m : Word64) : Option (List Nat) :=
  let ns := maskNames m
  if ns.any fun n => match nameState s site n with
    | .error c => c == 0x18
    | .ok _ => false
  then none
  else
    let live := ns.filter fun n => (nameState s site n).toOption.isSome
    if live = [] then none else some live

/-! ### Collective descriptors (R413) -/

/-- The descriptor's limits. -/
def collDescOk (s : State) (site : Nat) (c : Coll) (bs : List Byte) : Bool :=
  let m := bytesNum bs 0 8
  let ns := maskNames (BitVec.ofNat 64 m)
  let rstr := bytesNum bs 24 4
  let ch := bytesNum bs 28 4
  let n := bytesNum bs 32 4
  decide (m < 2 ^ 48) && ns != [] && (ns.all fun k => (nameState s site k).toOption.isSome) && bytesNum bs 8 8 % 64 == 0 &&
    bytesNum bs 16 8 % 64 == 0 && rstr % 64 == 0 && ch % 64 == 0 && ch % collSize c.fmt == 0 && within ch 64 16777216 &&
    within n 1 65536 && bytesNum bs 40 8 % 8 == 0 && bytesNum bs 48 16 == 0 &&
    decide ((if c.kind = 3 then ns.length else 1) * n * ch ≤ rstr)

/-- The binding with its descriptor's fields. -/
def withDesc (c : Coll) (bs : List Byte) : Coll :=
  { c with
    names := maskNames (BitVec.ofNat 64 (bytesNum bs 0 8))
    src := BitVec.ofNat 64 (bytesNum bs 8 8)
    dst := BitVec.ofNat 64 (bytesNum bs 16 8)
    rstr := bytesNum bs 24 4
    chbytes := bytesNum bs 28 4
    nchunk := bytesNum bs 32 4
    done := BitVec.ofNat 64 (bytesNum bs 40 8) }

/-- The descriptors of a record's bindings are read. -/
def readColls (s : State) (w : Who) : Table Coll → State × Except Nat (Table Coll)
  | [] => (s, .ok [])
  | (i, c) :: rest =>
    match engTranslate s w c.cdesc.toNat false with
    | (s1, .error _) => (s1, .error 5)
    | (s1, .ok p) =>
      match engRead s1 w c.cdesc.toNat 64 with
      | (s2, .error f) => (s2, .error (accessCode f))
      | (s2, .ok bs) =>
        if 1 < p.attr ∨ collDescOk s2 w.site c bs = false then (s2, .error 3)
        else
          let r := readColls s2 w rest
          (r.1, r.2.map fun t => (i, withDesc c bs) :: t)

/-! ### Sinks (R437) -/

/-- A power of two from 4 to 65536. -/
def ringSize (n : Nat) : Bool := (List.range 15).any fun i => n == 4 * 2 ^ i

/-- An entry of a sink table is well formed. -/
def sinkOk (bs : List Byte) : Bool :=
  let ctl := bytesNum bs 0 4
  let raster := ctl / 2 ^ 30 % 2 == 1
  ctl % 2 ^ 30 == 0 && bytesNum bs 14 2 == 0 && bytesNum bs 28 4 == 0 && bytesNum bs 40 24 == 0 &&
    (ctl / 2 ^ 31 == 0 ||
      ((if raster then bytesNum bs 4 4 == 0 else ringSize (bytesNum bs 4 4) && bytesNum bs 16 8 % 128 == 0) &&
        within (bytesNum bs 24 4) 1 65536 && bytesNum bs 32 8 % 128 == 0))

/-- A sink as configured: idle, with CUR unset, its dedup area clear. -/
def freshSink (die ctx k : Nat) (bs : List Byte) : Sink where
  die := die
  ctx := ctx
  number := k
  raster := bytesNum bs 0 4 / 2 ^ 30 % 2 == 1
  slots := bytesNum bs 4 4
  base := BitVec.ofNat 64 (bytesNum bs 16 8)
  dcap := bytesNum bs 24 4
  dedup := []
  frame := { cur := none, drawing := false, desc := [], map := [], c := 0, reorder := [], marks := [], pass := [], held := [], ctime := 0 }

/-- The sink of a die is replaced; what its raster sink held arrives again. -/
def putSink (s : State) (x : Sink) : State :=
  let held := ((findSink s x.die x.ctx x.number).map fun y => y.2.frame.held).getD []
  let again (e : Nat × Emission) : Nat × Emission := if held.contains (false, e.1) then (e.1, { e.2 with atSink := false }) else e
  let s1 := { s with emissions := s.emissions.map again }
  match findSink s x.die x.ctx x.number with
  | some (k, _) => { s1 with sinks := tblSet s1.sinks k x }
  | none => { s1 with sinks := tblSet s1.sinks s1.fresh x, fresh := s1.fresh + 1 }

/-- The entry k of a sink table configures its dies. -/
def configSink (ctx k : Nat) (bs : List Byte) (s : State) : State :=
  if bytesNum bs 0 4 / 2 ^ 31 = 0 then s
  else (maskNames (BitVec.ofNat 64 (bytesNum bs 8 8))).foldl (fun s die => putSink s (freshSink die ctx k bs)) s

/-- The sink table of a launch is read and its sinks are configured. -/
def loadSinks (s : State) (w : Who) (table : Nat) : State × Except Nat Unit :=
  if table = 0 then (s, .ok ())
  else
    match engRead s w table 65536 with
    | (s1, .error f) => (s1, .error (accessCode f))
    | (s1, .ok bs) =>
      let entry (k : Nat) : List Byte := (bs.drop (64 * k)).take 64
      if (List.range 1024).all fun k => sinkOk (entry k) then ((List.range 1024).foldl (fun s k => configSink w.ctx k (entry k) s) s1, .ok ())
      else (s1, .error 3)

/-! ### Placement (R286, R287, R296, R297, R360, R361) -/

/-- The teams resident on a core. -/
def coreTeams (s : State) (site core : Nat) : List Team := (s.teams.filter fun e => e.2.site == site && e.2.core == core).map (·.2)

/-- The slots of the groups of a team of n groups of a width on a core, the lowest that are free; none where they do not fit. -/
def slotsFor (s : State) (core n width : Nat) : Option (List Nat) :=
  let free (p : Nat) : List Nat :=
    let used := (occupiedSlots s core p).map (·.1)
    (List.range 16).filter fun k => !used.contains k
  (List.range n).foldr (fun g (a : Option (List Nat)) =>
    match a, (free (g % 4))[g / 4 / (64 / width)]? with
    | some l, some k => some (k :: l)
    | _, _ => none) (some [])

/-- A core has room for a team: its slots there. -/
def roomOn (s : State) (l : Launch) (site core width : Nat) : Option (List Nat) :=
  let ts := coreTeams s site core
  match tblGet s.cores (coreNum site core) with
  | none => none
  | some c =>
    if c.retired || decide (16 ≤ ts.length) || decide (524288 < l.stash + (ts.map (·.stash)).sum) || (l.tiles && ts.any (·.tiles)) then none
    else slotsFor s (coreNum site core) l.groups width

/-- The width of a team placed on a die: fixed, or chosen from the die's divergence history, which learns the kernel. -/
def widthOn (s : State) (l : Launch) (site : Nat) : State × Nat :=
  if l.tiles then (s, 64)
  else if l.width ≠ 0 then (s, 8 * 2 ^ (l.width - 1))
  else
    let i := histIndex l.entry
    let e := (cellGet (((tblGet s.dies site).map (·.hist)).getD []) i).toNat
    if e / 2 ^ 31 = 1 ∧ e / 2 ^ 16 % 2 ^ 15 = histTag l.entry then
      let f := e % 256
      (s, if f < 64 then 8 else if f < 128 then 16 else if f < 192 then 32 else 64)
    else (s.upDie site fun d => { d with hist := cellSet d.hist i (BitVec.ofNat 32 (2 ^ 31 + histTag l.entry * 2 ^ 16 + 255)) }, 64)

/-- Team t of a grid becomes resident on a core. -/
def placeTeam (s : State) (grid : Nat) (g : Grid) (t site name core width : Nat) (slots : List Nat) : State :=
  let n := s.fresh
  let ids := (List.range g.launch.groups).map fun k => n + 1 + k
  let team := freshTeam grid g.ctx t site core name width g.launch.stash g.launch.tiles (g.launch.width == 0 && !g.launch.tiles) ids slots
  let groups := (List.range g.launch.groups).foldl (fun gs k =>
    tblSet gs (n + 1 + k) (freshGroup n k width g.launch.entry g.launch.sargs)) s.groups
  { takeRows s (coreNum site core) with teams := tblSet s.teams n team, groups := groups, fresh := n + 1 + g.launch.groups }

/-- The next teams to place together: the teams of a cluster, or one. -/
def nextTeams (g : Grid) : List Nat := (List.range g.launch.csize).map fun i => g.next + i

/-- The schedule set of team t. -/
def setOfTeam (l : Launch) (t : Nat) : Nat := t / l.setsz

/-- The name of the die on which team t is placed. -/
def placeName (g : Grid) (t : Nat) : Nat :=
  g.names.getD ((if 1 < g.launch.setsz then setOfTeam g.launch t else t / g.launch.csize) % g.names.length) 48

/-- The cores that may take the teams placed together when the first stands on `core`: those of its tray, from it round. -/
def trayFrom (core : Nat) : List Nat := (List.range 16).map fun i => core / 16 * 16 + (core + i) % 16

/-- The teams become resident on distinct cores of a list, each on the first with room. -/
def placeAll (grid : Nat) (g : Grid) (site name : Nat) : List Nat → List Nat → State → Option State
  | [], _, s => some s
  | t :: ts, cores, s =>
    let w := widthOn s g.launch site
    match cores.find? fun c => (roomOn w.1 g.launch site c w.2).isSome with
    | none => none
    | some c =>
      match roomOn w.1 g.launch site c w.2 with
      | none => none
      | some slots => placeAll grid g site name ts (cores.filter (· != c)) (placeTeam w.1 grid g t site name c w.2 slots)

/-- The next teams of a grid are placed with the first on a core of its die: every one has room there, and a schedule set stays on its
core. -/
def placeNext (s : State) (grid : Nat) (g : Grid) (core : Nat) : Option State :=
  let t := g.next
  let name := placeName g t
  match dieSite s (gridSite s g) name with
  | none => none
  | some site =>
    let held := (tblGet g.setCore (setOfTeam g.launch t)).map fun c => c == core
    let w := widthOn s g.launch site
    if g.launch.teams ≤ t ∨ 48 ≤ core ∨ held = some false ∨ roomOn w.1 g.launch site core w.2 = none then none
    else
      (placeAll grid g site name (nextTeams g) (if g.launch.csize = 1 then [core] else trayFrom core) s).map fun s1 =>
        { s1 with grids := tblUp s1.grids grid fun g =>
            { g with next := t + g.launch.csize, setCore := tblSet g.setCore (setOfTeam g.launch t) core } }

/-- A core that can take the next teams of a grid. -/
def placeCore (s : State) (grid : Nat) (g : Grid) : Option Nat := (List.range 48).find? fun c => (placeNext s grid g c).isSome

/-- The base priority of a grid's queue (R356). -/
def gridPrio (s : State) (g : Grid) : Nat := ((queueEntry s (gridSite s g) g.queue).map (·.prio)).getD 0

/-- The grid for which the launcher of a site places next: the highest base priority, and round robin by queue number (R356). -/
def chosenGrid (s : State) (site : Nat) : Option Nat :=
  let able := s.grids.filter fun e => gridSite s e.2 == site && !ctxHeld s site e.2.ctx && (placeCore s e.1 e.2).isSome
  let top := able.foldl (fun a e => max a (gridPrio s e.2)) 0
  let ks := able.filter fun e => gridPrio s e.2 == top
  let last := (tblGet s.dies site).bind fun d => tblGet d.lastPlace top
  let later := ks.filter fun e => (last.map fun l => decide (l < e.2.queue)).getD true
  let low (es : List (Nat × Grid)) : Option (Nat × Grid) :=
    es.foldl (fun m e => match m with
      | none => some e
      | some x => if e.2.queue < x.2.queue then some e else some x) none
  ((low later).or (low ks)).map (·.1)

/-- TEAM_PLACE: the launcher makes the next team, or the teams of the next cluster, of a grid resident. -/
def execTeamPlace (grid : Nat) (core : Nat) (s : State) : QRes :=
  .next (match tblGet s.grids grid with
    | none => s
    | some g =>
      let site := gridSite s g
      if s.phase ≠ .running ∨ ctxHeld s site g.ctx = true ∨ chosenGrid s site ≠ some grid then s
      else
        match placeNext s grid g core with
        | none => s
        | some s1 => s1.upDie site fun d => { d with lastPlace := tblSet d.lastPlace (gridPrio s g) g.queue })

/-- Every team of a grid can be resident at once on the dies of its launch, with nothing else there (R359). -/
def fitsFrom (grid : Nat) : Nat → State → Bool
  | 0, _ => true
  | n + 1, s =>
    match tblGet s.grids grid with
    | none => false
    | some g =>
      if g.launch.teams ≤ g.next then true
      else
        match (placeCore s grid g).bind fun c => placeNext s grid g c with
        | some s1 => fitsFrom grid n s1
        | none => false

/-! ### LAUNCH (R359, R360) -/

/-- A grid as it begins. -/
def freshGrid (j : Job) (l : Launch) (names : List Nat) : Grid where
  queue := j.queue
  pkt := j.pkt
  ctx := j.ctx
  launch := l
  names := names
  next := 0
  endedTeams := []
  saved := []
  quanta := []
  stood := []
  branches := []
  cursors := []
  setCore := []
  round := 0
  commitTime := 0
  committing := false
  turns := []
  openChunks := (l.colls.map fun e => e.2.nchunk).sum
  chz := 0

/-- LAUNCH: the record and its tables are read and checked, the sinks are configured, and the grid waits for its teams to be placed.
Log entry 69 (DEDUCED). -/
def runLaunch (s : State) (j : Job) : Except PktFail State :=
  match engRead s j.who (j.num 16 8) 256 with
  | (s1, .error f) => failWith s1 (accessCode f)
  | (s1, .ok bs) =>
    let l := readLaunch bs
    match if recordOk bs then liveNames s1 j.site l.dieset else none with
    | none => failWith s1 3
    | some names =>
      match readColls s1 j.who l.colls with
      | (s2, .error c) => failWith s2 c
      | (s2, .ok colls) =>
        let g := freshGrid j { l with colls := colls } names
        let grid := s2.fresh
        let s3 := { s2 with grids := tblSet s2.grids grid g, fresh := s2.fresh + 1 }
        if l.ordered ∧ fitsFrom grid l.teams { s3 with teams := [], groups := [] } = false then failWith s3 6
        else
          match loadSinks s3 j.who l.sinks.toNat with
          | (s4, .error c) => failWith s4 c
          | (s4, .ok ()) => .ok s4

def execLaunch (queue : Nat) (s : State) : QRes := packetEvent s queue 1 runLaunch

/-! ### The end of a grid (R362) -/

/-- The teams of a grid that are resident. -/
def gridTeams (s : State) (grid : Nat) : List (Nat × Team) := s.teams.filter fun e => e.2.grid == grid

/-- Every team has ended and left, and every chunk has been delivered. -/
def gridDone (s : State) (grid : Nat) (g : Grid) : Bool :=
  decide (g.launch.teams ≤ g.endedTeams.length) && (gridTeams s grid) == [] && g.openChunks == 0 &&
    !(s.contribs.any fun e => e.2.grid == grid)

/-- The grid leaves, with the constant-cache lines that it filled (R159), and its packet completes once LEASECLK passes its completion
times. -/
def endGrid (s : State) (grid : Nat) (g : Grid) : State :=
  finishPacket { s with
    grids := tblErase s.grids grid
    chunks := s.chunks.filter fun e => e.2.grid != grid
    cores := s.cores.map fun e => (e.1, { e.2 with constLines := e.2.constLines.filter fun x => x.grid != grid }) } g.pkt g.chz

/-- GRID_COMPLETE: the teams whose last group has ended end; with the last of them, and every chunk delivered, the grid is complete. -/
def execGridComplete (grid : Nat) (s : State) : QRes :=
  .next (
    let s1 := (gridTeams s grid).foldl (fun s e => settleTeam s e.1) s
    match tblGet s1.grids grid with
    | none => s1
    | some g => if gridDone s1 grid g then endGrid s1 grid g else s1)

end Sys2Proof.Machine
end

