-- ==== Sys2Proof/Machine/Progress.lean ====
section
/-!
DEFINITION. The progress of what groups have begun: rotations (R288, R289), the ends of waits (R292), translations and faults (R162, R163,
R387, R389), acknowledgements and retirement (R33, R36), buffers and leases (R154, R317), and the phases of ordered mode (R328 to R330).
-/
namespace Sys2Proof.Machine

/-! ### Results (R293) -/

/-- SFU_RESULT (R293): the result of a special-function instruction is written, and its group is ready again. -/
def execSfuResult (g : Nat) (s : State) : MRes :=
  .next (s.upGroup g fun x => if x.sfuUntil ≤ s.clock then { x with sfuUntil := 0 } else x)

/-! ### The ends of waits (R292) -/

/-- The condition of group n's wait is looked at again, and where it holds the group goes on. Translations, faults, matrix checks, probes,
watched words and ordered quanta end by events of their own. -/
def lookAgain (s : State) (n : Nat) (g : Group) : State :=
  match g.wait with
  | .release uid =>
    match findOp g uid with
    | some o => if releaseMet s g o.scope uid then beginAccess s n uid else s
    | none => s.putGroup n { g with wait := .none }
  | .acquire uid =>
    if ((findOp g uid).map fun o => o.stage == .complete).getD true then s.putGroup n { g with wait := .none } else s
  | .fence o sc xp => tryFence s n o sc xp
  | .txend => tryTxend s n
  | .bart id => openBarrier s g.team false id
  | .barc id => openBarrier s g.team true id
  | .barArrive c id => arriveBar s n c id
  | .barv d a b => tryBarv s n d a b
  | .bwait d a k => tryBwait s n d a k
  | .leave sc xp => leaveWait s n sc xp
  | .waitc cs => tryWaitc s n cs
  | .qputValid d slot w h => finishQput s n d slot w h
  | .rendezvous => retryMeet s n g
  | _ => s

/-- GROUP_WAIT_MET (R292). -/
def execGroupWaitMet (g : Nat) (s : State) : MRes :=
  match tblGet s.groups g with
  | some x => .next (if x.ended || halted s x || looksAtTurn s x then s else lookAgain s g x)
  | none => .next s

/-- TRANSLATION_COMPLETE (R162, R298): the lanes of the memory instruction that group g waits for pass translation, or fail it. -/
def execTranslationComplete (g : Nat) (s : State) : MRes :=
  match (tblGet s.groups g).map Group.wait with
  | some (.translate uid) => .next (runOp s g uid)
  | _ => .next s

/-! ### Replayable faults (R387, R389) -/

/-- FAULT_QUEUE_RETRY (R387): a claim that found the queue full is tried again. -/
def execFaultQueueRetry (f : Nat) (s : State) : MRes := .next (claimFault s f)

/-- The matrix probe of the group's quartet goes on or is given up. -/
def upCheck (s : State) (g : Group) (f : Quartet → Quartet) : State := s.upQuartet g.team (g.grpid / 4) f

/-- The copy that waits at a fault record. -/
def copyAt (g : Group) (f : Nat) : Option Copy := g.copies.find? fun c => c.parked == some f

/-- The faulting party translates again (R389). -/
def resolveFault (s : State) (f : Nat) (r : FaultRec) (g : Group) : State :=
  match r.party with
  | 0 =>
    match g.wait with
    | .parked uid k => if k = f then s.putGroup r.group { g with wait := .translate uid } else s
    | _ => s
  | 1 => if g.wait = .parkedWhole f then s.putGroup r.group { g with wait := .none } else s
  | 2 => s.upFeed r.group fun x => { x with parked := false }
  | 3 => match copyAt g f with
    | some c => s.upGroup r.group (upCopy c.uid fun c => { c with parked := none })
    | none => s
  | _ => upCheck s g fun q => if q.checkRec = some f then { q with checkRec := none } else q

/-- The fault is refused (R163, R200, R221, R254). -/
def refuseFault (s : State) (f : Nat) (r : FaultRec) (g : Group) : State :=
  match r.party with
  | 0 =>
    match g.wait with
    | .parked uid k => if k = f then trapAt (abandonOp s r.group uid) r.group 0x15 r.mask else s
    | _ => s
  | 1 =>
    if g.wait = .parkedWhole f then
      (if atHandler s g && g.hdr.isNone then handlerUnusable s r.group g
      else trapAt (s.putGroup r.group { g with wait := .none }) r.group 0x15 r.mask)
    else s
  | 2 => (failFeed s r.group).upFeed r.group fun x => { x with parked := false }
  | 3 => match copyAt g f with
    | some c => failCopy s r.group c.uid { code := 0x15, info := 0 }
    | none => s
  | _ =>
    match quartetAt s g.team (g.grpid / 4) with
    | some q =>
      if q.checkRec = some f then
        trapMembers (upCheck s g fun q => { q with checking := none, checkRec := none }) g.team (g.grpid / 4) { code := 0x15, info := r.mask }
      else s
    | none => s

/-- FAULT_RESPONSE (R389): the runtime's answer in RESP resolves or refuses the fault. -/
def execFaultResponse (f : Nat) (s : State) : MRes :=
  match tblGet s.faults f with
  | none => .next s
  | some r =>
    match r.slot with
    | none => .next s
    | some loc =>
      let resp := peekNum s (loc + 32) 4
      if resp = 0 then .next s
      else
        let s1 := { s with faults := tblErase s.faults f }
        match tblGet s1.groups r.group with
        | some g => .next (if resp = 1 then resolveFault s1 f r g else refuseFault s1 f r g)
        | none => .next s1

/-! ### Acknowledgement and retirement (R33, R36, R164) -/

/-- Group n's team may have ended with the operation that left. -/
def afterRetire (s : State) (n : Nat) : State :=
  match tblGet s.groups n with
  | some g => if g.ended then settleTeam s g.team else s
  | none => s

/-- The oldest operation on a counter of group n retires if it may. -/
def retireOldest (s : State) (n : Nat) (g : Group) (o : Op) : State :=
  if o.ctr = .cp then (if copiesReady s g o then afterRetire (retireCopies s n o) n else s)
  else if retireReady o then afterRetire (retireOp s n o) n
  else s

/-- OPERATION_RETIRE (R33, R37, R164, R255). -/
def execOperationRetire (g : Nat) (c : BitVec 3) (s : State) : MRes :=
  match tblGet s.groups g with
  | none => .next s
  | some x =>
    match (counterOf c.toNat).bind (oldestOp x) with
    | some o => .next (retireOldest s g x o)
    | none => .next s

/-- WRITE_ACKNOWLEDGE (R36): an operation of group g that has performed has all its acknowledgements. -/
def execWriteAcknowledge (g : Nat) (op : Nat) (s : State) : MRes :=
  match tblGet s.groups g with
  | none => .next s
  | some x =>
    match findOp x op with
    | some o => .next (if o.stage == .performed && o.ctr != .cp && quiet s x o then completeOp s g op else s)
    | none => .next s

/-- STF_FLAG_UPDATE (R181): every lane's data is visible at its home, and the flag's place adds 1 to it. -/
def stfFlag (s : State) (n : Nat) (g : Group) (o : Op) : State :=
  if o.stage != .performed || o.need != 1 || o.flight != [] || o.remote != [] || !linesAcked g o || fabricOpen s o.uid ||
      !passes s o.ctime then s
  else
    match o.kind with
    | some (.flagged ..) =>
      if 2 ^ 60 ≤ o.slot then
        laneSend (s.upOperation n o.uid fun o => { o with need := 0 }) n o.uid 64 ((o.slot - 2 ^ 60) / 2 ^ 42) (o.slot % 2 ^ 42) 5 8 []
      else
        let v := (loadAt s (some n) o.slot 8).2
        if v.bad then s.upOperation n o.uid fun o => { o with need := 0, err := some (o.err.getD (memError o)) }
        else
          let r := storeAt (dropOwnLine s n o.slot) (some n) o.slot (leBytes 8 ((leNat v.bytes + 1) % 2 ^ 64))
          landWrite (r.1.upOperation n o.uid fun o => { o with need := 0 }) n o.uid (lineOf o.slot) r.2
    | _ => s

def execStfFlagUpdate (g : Nat) (op : Nat) (s : State) : MRes :=
  match tblGet s.groups g with
  | none => .next s
  | some x =>
    match findOp x op with
    | some o => .next (stfFlag s g x o)
    | none => .next s

/-- An operation whose answers never come: its error is reported, and the registers it would write hold unspecified values (R164). -/
def giveUp (s : State) (o : Op) : Op :=
  { o with
    stage := .complete
    lanes := []
    flight := []
    remote := []
    need := 0
    writes := o.writes ++ (o.dests.filter fun r => !(o.writes.any fun w => w.1 == r)).map fun r => (r, Config.freeWord s.draws (regIdx r))
    err := some (o.err.getD (memError o)) }

/-- TIER2_TIMEOUT (R425): an expander has not completed a request within 60 000 ticks. -/
def execTier2Timeout (g : Nat) (op : Nat) (s : State) : MRes :=
  match (tblGet s.groups g).bind fun x => findOp x op with
  | none => .next s
  | some o =>
    if o.stage == .performed && (o.since.map fun t => decide (t + 60000 ≤ ticks s)).getD false then
      .next (s.upOperation g op (giveUp s))
    else .next s

/-! ### Buffers and leases (R154, R317) -/

/-- The ordered buffer of a group that was killed is written at its homes, line by line (R276, R363). -/
def drainKilled (s : State) (n : Nat) (g : Group) (line : Nat) : State :=
  match g.sbuf.find? fun x => x.line.toNat == line with
  | some x =>
    let r := sendLine (s.putGroup n { g with sbuf := g.sbuf.filter fun y => y.line.toNat != line }) n x
    settleTeam (r.1.upGroup n (raiseChz r.2)) g.team
  | none => s

/-- WCB_TIMEOUT (R154): 64 clocks have passed without a store to the line, or its group has ended. -/
def execWcbTimeout (g : Nat) (line : Nat) (s : State) : MRes :=
  match tblGet s.groups g with
  | none => .next s
  | some x =>
    match x.wcb.find? fun y => y.line.toNat == line with
    | some y =>
      .next (if x.ended then settleTeam (sendWcb s g line) x.team else if y.last + 64 ≤ s.clock then sendWcb s g line else s)
    | none => .next (if x.ended then drainKilled s g x line else s)

/-- L1_LEASE_EXPIRY (R317): a copy whose lease has expired serves no load. -/
def execL1LeaseExpiry (core : Nat) (line : Nat) (s : State) : MRes :=
  .next (s.upCore core fun c => { c with l1 := c.l1.filter fun x => !(x.pa == line && decide (x.expiry ≤ ticks s)) })

/-! ### Ordered mode (R328 to R330) -/

/-- The groups of a grid that live. -/
def gridGroups (s : State) (grid : Nat) : List (Nat × Group) :=
  s.groups.filter fun e => !e.2.ended && ((tblGet s.teams e.2.team).map (·.grid)) == some grid

/-- A group has ended its quantum, or waits at the start of one (R328, R329). -/
def quantumOver (g : Group) : Bool := longWait g.wait || (match g.wait with
  | .quantum _ => true
  | _ => false)

/-- The group that comes next in global group order among those whose turn has not come. -/
def nextTurn (s : State) (r : Grid) (gs : List (Nat × Group)) : Option (Nat × Group) :=
  (gs.filter fun e => !r.turns.contains (globalIndex s e.2)).foldl (fun (m : Option (Nat × Group)) e =>
    match m with
    | none => some e
    | some x => if globalIndex s e.2 < globalIndex s x.2 then some e else m) none

/-- A group's buffered stores are performed at their homes; the latest completion time. -/
def commitStores (s : State) (n : Nat) (g : Group) : State × Nat :=
  g.sbuf.foldl (fun (r : State × Nat) x => let w := sendLine r.1 n x; (w.1, max r.2 w.2)) (s.upGroup n fun g => { g with sbuf := [] }, 0)

/-- A group that waits for others makes its arrival, its read or its attempt at its turn (R329). -/
def lookAtTurn (s : State) (n : Nat) (g : Group) : State :=
  match g.wait with
  | .waita d a cmp dl c => if dl ≤ ticks s then endWaita s n d cmp c else tryWaita s n d a cmp dl
  | .qputFull d hdr pkt => tryQput s n d hdr pkt true
  | _ => lookAgain s n g

/-- The turn of group n: it commits its stores; then the instruction that ended its quantum may issue, or it looks at what it waits for, or
its turn is over. -/
def takeTurn (s : State) (grid n : Nat) (g : Group) : State :=
  let r := commitStores s n g
  let s1 := { r.1 with grids := tblUp r.1.grids grid fun x => { x with commitTime := max x.commitTime r.2 } }
  let s2 := s1.upGroup n (raiseChz r.2)
  if g.wait == .quantum true then s2.upGroup n fun g => { g with wait := .none, turn := .granted }
  else if longWait g.wait then
    let s3 := s2.upGroup n fun g => { g with turn := .used }
    match tblGet s3.groups n with
    | some g3 => lookAtTurn s3 n g3
    | none => s3
  else endTurn (s2.upGroup n fun g => if g.wait == .quantum false then { g with wait := .none } else g) n

/-- ORDERED_COMMIT_PHASE (R328 to R330): once every live group of the grid has ended its quantum, the next group in global group order
takes its turn; one group has the turn at a time. -/
def execOrderedCommitPhase (grid : Nat) (s : State) : MRes :=
  match tblGet s.grids grid with
  | none => .next s
  | some r =>
    let gs := gridGroups s grid
    let ready := r.committing || (gs != [] && gs.all fun e => quantumOver e.2)
    let held := r.saved != [] || s.stopping.contains r.ctx || gs.any fun e => e.2.stopped
    if !r.launch.ordered || !ready || held || gs.any fun e => e.2.turn != .idle then .next s
    else
      match nextTurn s r gs with
      | some (n, g) => .next (takeTurn { s with grids := tblUp s.grids grid fun x => { x with committing := true } } grid n g)
      | none => .next s

/-- A request of a grid's commits to a peer panel is outstanding. -/
def commitOpen (s : State) (grid : Nat) : Bool := s.groups.any fun e => gridNum s e.2 == grid && commitsFor s e.1

/-- ORDERED_ROUND_START (R328): every live group has had its turn, and LEASECLK has passed the commits' completion times. -/
def execOrderedRoundStart (grid : Nat) (s : State) : MRes :=
  match tblGet s.grids grid with
  | none => .next s
  | some r =>
    let gs := gridGroups s grid
    if r.committing && r.saved == [] && (gs.all fun e => r.turns.contains (globalIndex s e.2)) && !commitOpen s grid && passes s r.commitTime then
      .next { s with grids := tblUp s.grids grid fun x => { x with committing := false, turns := [], round := x.round + 1, commitTime := 0 } }
    else .next s

end Sys2Proof.Machine
end

