-- ==== Sys2Proof/Machine/Preempt.lean ====
section
/-!
DEFINITION. Pre-emption (R34, R197, R199, R209, R258, R330, R364, R365, R371) and the end of a context in error (R363): the stop of groups and the saves
of teams, in the layout of R222 and R366 to R369.
-/
namespace Sys2Proof.Machine

/-! ### Stopping (R363, R364) -/

/-- The groups of a context that have not ended. -/
def ctxGroups (s : State) (c : Nat) : List (Nat × Group) := s.groups.filter fun e => !e.2.ended && ctxOf s e.2 == c

/-- The groups of a context that stand at stop points stop. Log entry 70 (DEDUCED). -/
def stopGroups (s : State) (c : Nat) : State :=
  (ctxGroups s c).foldl (fun s e => if stopsAt s e.2 then s.upGroup e.1 fun g => { g with stopped := true } else s) s

/-- The value beside the lanes of a memory operation that its encoding does not give. -/
def extraOf : MemKind → Word64
  | .flagged _ flag => flag
  | .texs _ _ key => key
  | .texq _ _ level => level.setWidth 64
  | _ => 0

/-- The words of a number of words' length. -/
def wordsLen (w : Word64) : Nat := if isLong (w.toNat % 2 ^ 32) then 2 else 1

/-- Group n's instruction, parked at a page fault, is recorded and cancelled: it retires once its performed lanes are complete, and the
stop point is the word after it (R34, R365). -/
def cancelParked (s : State) (n uid rec : Nat) : State :=
  match (tblGet s.groups n).bind fun g => findOp g uid with
  | none => s
  | some o =>
    let p : Park := { words := o.words, lanes := o.lanes, extra := ((o.kind.map extraOf).getD 0) }
    let s1 := (abandonOp s n uid).upGroup n fun g => { g with hdr := none, idx := g.idx + o.len, wait := .none, park := some p }
    { s1 with faults := tblErase s1.faults rec }

/-- The captured operands of a whole-group instruction, two to a lane, with every lane unfinished and their number beside the lanes.
Log entry 70 (DEDUCED). -/
def parkValues (words : Word64) (width : Nat) (vals : List Word64) : Park :=
  { words := words, extra := BitVec.ofNat 64 vals.length,
    lanes := (List.range width).map fun l => { lane := l, addr := vals.getD (2 * l) 0, addr2 := vals.getD (2 * l + 1) 0 } }

/-- A whole-group instruction with captured operands is recorded and cancelled; the stop point is the word after it. -/
def recordWhole (words : Word64) (vals : List Word64) (g : Group) : Group :=
  { g with
    hdr := none
    idx := g.idx + wordsLen words
    wait := .none
    captured := none
    park := some (parkValues words g.width vals) }

/-- A group whose whole-group instruction has parked stops there; a fetch that has parked is made again. -/
def cancelWhole (s : State) (n : Nat) : State :=
  s.upGroup n fun g =>
    match g.captured with
    | some vals => recordWhole g.words vals g
    | none => { g with wait := if g.turn = .granted then .quantum true else .none, turn := if g.turn = .granted then .idle else g.turn }

/-- The check of a quartet, parked at a page fault, is given up, with its operands recorded in its members (R200). -/
def cancelCheck (s : State) (team k : Nat) : State :=
  match (quartetAt s team k).bind fun q => q.checkRec.bind fun f => q.checking.map fun o => (f, o) with
  | none => s
  | some (f, o) =>
    let s1 := (s.upQuartet team k fun q => { q with checking := none, checkRec := none }).upMembers team k fun g =>
      { recordWhole (wordsOf o.instr) o.vals g with stopped := true }
    { s1 with faults := tblErase s1.faults f }

/-- The captured operands of a copy, in the order in which its instruction reads them. -/
def copyValues (c : Copy) : List Word64 :=
  let bar := c.bar.getD 0
  (if c.kind = 0 then [c.da, c.sa, c.nrow * 2 ^ 32 + c.rowb, c.dstr * 2 ^ 32 + c.sstr, bar, c.start]
  else [c.buf, c.e1 * 2 ^ 32 + c.e0, bar, c.desc] ++ (List.range 4).map (fun k => c.coords.getD k 0) ++ [c.start]).map (BitVec.ofNat 64)

/-- The probe of a copy, parked at a page fault, is given up, and its instruction recorded (R254, R365). -/
def cancelProbe (s : State) (n uid : Nat) : State :=
  match (tblGet s.groups n).bind fun g => findCopy g uid with
  | none => s
  | some c =>
    { s.upGroup n fun g => recordWhole c.words (copyValues c) { g with copies := g.copies.filter fun c => c.uid != uid } with
      faults := match c.parked with
        | some f => tblErase s.faults f
        | none => s.faults }

/-- A wait that is given up: in ordered mode one that ended the group's quantum leaves it ended before the instruction (R329, R330). -/
def giveUpWait (s : State) (g : Group) : Group := { g with wait := if orderedMode s g && longWait g.wait then .quantum true else .none }

/-- A stopped group gives up what it waits for: it will issue the word again. An arrival at a team or cluster barrier stands (R190, R197,
R365), and so does the end of a quantum (R330). -/
def settleStop (s : State) (n : Nat) : State :=
  match tblGet s.groups n with
  | none => s
  | some g =>
    if !halted s g then s
    else
      let g0 := if g.tx.isSome then abortTx 4 0 g else g
      let s1 := drainWcb (s.putGroup n g0) n
      match g0.wait with
      | .bart _ | .barc _ | .quantum _ => s1
      | .parked uid f => cancelParked s1 n uid f
      | .parkedWhole f => cancelWhole { s1 with faults := tblErase s1.faults f } n
      | .none => if g0.captured.isSome then cancelWhole s1 n else s1
      | .rendezvous =>
        (s1.upQuartet g.team (g.grpid / 4) fun q => { q with latch := tblErase q.latch (g.grpid % 4) }).upGroup n (giveUpWait s1)
      | .matrixCheck => cancelCheck s1 g.team (g.grpid / 4)
      | .probe uid => cancelProbe s1 n uid
      | _ => s1.upGroup n (giveUpWait s1)

/-- The stopped groups of a context settle. -/
def settleGroups (s : State) (c : Nat) : State := (ctxGroups s c).foldl (fun s e => settleStop s e.1) s

/-- A long MMA whose members have all stopped stops once it holds the A of its step (R209). Its B image will be read again. -/
def haltQuartet (s : State) (team k : Nat) : State :=
  match quartetAt s team k with
  | none => s
  | some q =>
    match q.ops with
    | [o] =>
      if isLongMma o.instr && o.a.isSome &&
          (quartetGroups s team k).all fun n => ((tblGet s.groups n).map fun g => g.ended || halted s g).getD true then
        s.upQuartet team k fun q => { q with halted := true, ops := [{ o with b := none }] }
      else s
    | _ => s

/-- The quartets of a context's teams; the engine goes on with what a stopped MMA held up (R198, R199). -/
def haltQuartets (s : State) (c : Nat) : State :=
  s.teams.foldl (fun s e => if e.2.ctx = c then drainTeam (e.2.quartets.foldl (fun s q => haltQuartet s e.1 q.1) s) e.1 else s) s

/-- The site through whose registers the device reads a context's entry. -/
def ctxSite (s : State) : Nat := lowestSite s

/-- FLAGS of a context get a value. -/
def setCtxFlags (s : State) (c v : Nat) : State :=
  match ctxEntry s (ctxSite s) c with
  | some e => storeNum s none (e + 10) 1 v
  | none => s

/-- A flag of a context. -/
def ctxFlag (s : State) (c k : Nat) : Bool := ctxFlags s (ctxSite s) c / 2 ^ k % 2 == 1

/-- The device acts on a context's pre-emption: it is requested and the teams are not saved, or the save has begun (R364, R370). -/
def preempting (s : State) (c : Nat) : Bool :=
  s.phase == .running && ctxFlag s c 0 && !s.discarding.contains c && !s.restoring.contains c &&
    (s.stopping.contains c || (ctxFlag s c 2 && !ctxFlag s c 3))

/-- PREEMPT_REQUEST (R364, R365): the context's groups stop at their stop points and give up what they wait for, and its long MMAs stop. -/
def execPreemptRequest (ctx : Nat) (s : State) : QRes :=
  .next (if preempting s ctx then
      haltQuartets (settleGroups (stopGroups { s with stopping := if s.stopping.contains ctx then s.stopping else ctx :: s.stopping } ctx) ctx) ctx
    else s)

/-! ### What a save waits for (R34, R199, R365) -/

/-- The copy has bytes to move. -/
def unmoved (c : Copy) : Bool := !c.done && decide (c.offset < c.total)

/-- A copy is ready for the save: what it has moved is attributed, and with bytes to move it stands at a multiple of 128. -/
def copyReady (s : State) (c : Copy) : Bool :=
  copyQuiet s c && (c.done || c.bar.isNone || decide (c.lowered = c.offset)) && (!unmoved c || c.offset % 128 == 0)

/-- The copy groups whose copies have all moved their bytes have retired. -/
def copiesRetired (g : Group) : Bool := g.ops.all fun o => o.ctr != .cp || (groupCopies g o).any unmoved

/-- A group may be saved. LEASECLK has passed CHZ, so that wherever it is restored no copy older than its own writes serves it (R308). -/
def groupReady (s : State) (g : Group) : Bool :=
  (g.ended || (halted s g && (match g.wait with
    | .none | .bart _ | .barc _ | .quantum _ => true
    | _ => false) && g.tx.isNone && g.captured.isNone)) && g.wcb == [] &&
    (g.ops.all fun o => o.ctr == .mx || o.ctr == .cp) && g.copies.all (copyReady s) && copiesRetired g && passes s (max g.chz g.engChz)

/-- A quartet may be saved: every accepted operation is complete but a stopped long MMA. -/
def quartetReady (q : Quartet) : Bool := q.checking.isNone && (q.ops == [] || q.halted)

/-- The operations of a team's members on MX are those of its stopped MMAs. -/
def mxReady (s : State) (t : Team) : Bool :=
  t.groups.all fun n => ((tblGet s.groups n).map fun g => g.ops.all fun o => o.ctr != .mx ||
    (((tblGet t.quartets (g.grpid / 4)).map fun q => q.ops.any fun m => m.uid == o.uid).getD false)).getD true

/-- The copies of a team that have bytes to move, with their groups' numbers, oldest first. -/
def teamUnmoved (s : State) (t : Team) : List (Nat × Copy) :=
  t.groups.flatMap fun n => (((tblGet s.groups n).map (·.copies)).getD []).filterMap fun c => if unmoved c then some (n, c) else none

/-- The capacity of copy records of a team. -/
def copyCap (s : State) (t : Team) : Nat := ((tblGet s.grids t.grid).map (·.launch.cpycap)).getD 0

/-- No lane's forced record is being looked up. -/
def slotReady (x : SeqSlot) : Bool := x.lanes.all fun l => !l.2.pending

/-- A team may be saved. -/
def teamReady (s : State) (t : Team) : Bool :=
  !t.ended && (t.groups.all fun n => ((tblGet s.groups n).map (groupReady s)).getD true) && (t.quartets.all fun q => quartetReady q.2) &&
    mxReady s t && (t.seqs.all fun x => slotReady x.2) && decide ((teamUnmoved s t).length ≤ copyCap s t)

/-! ### Copies beyond CPYCAP (R365) -/

/-- The oldest copies of a team, by number, beyond its capacity of copy records move all their bytes. -/
def excessCopies (s : State) (t : Team) : List (Nat × Nat) :=
  let cs := (teamUnmoved s t).map fun x => (x.1, x.2.uid)
  let older (u : Nat) : Nat := (cs.filter fun x => decide (x.2 < u)).length
  cs.filter fun x => decide (older x.2 + copyCap s t < cs.length)

/-- The copies in excess of a context's teams are no longer held by the stop of their groups: each moves a step of up to 128 bytes. -/
def moveExcess (s : State) (c : Nat) : State :=
  (s.teams.filter fun e => e.2.ctx == c).foldl (fun s e => (excessCopies s e.2).foldl (fun s x => moveCopy s x.1 x.2 128) s) s

/-! ### The image (R366 to R369) -/

/-- A field of n bytes at an offset of the image. -/
def putN (off n v : Nat) (m : Cells 8) : Cells 8 := writeNum m off n v

/-- Words of 32 bits, cell k at off + 4k. -/
def putCells (off : Nat) (c : Cells 32) (m : Cells 8) : Cells 8 := c.foldl (fun m e => putN (off + 4 * e.1) 4 e.2.toNat m) m

/-- Pairs of 64 bits, cell k at off + 8k. -/
def putPairs (off : Nat) (c : Cells 64) (m : Cells 8) : Cells 8 := c.foldl (fun m e => putN (off + 8 * e.1) 8 e.2.toNat m) m

/-- A mask of numbers. -/
def bitsOf (ns : List Nat) : Nat := ns.dedup.foldl (fun a k => a + 2 ^ k) 0

/-- The mask of the groups of a team among some group numbers. -/
def groupBits (s : State) (ns : List Nat) : Nat := bitsOf (ns.filterMap fun n => (tblGet s.groups n).map (·.grpid))

/-- Entries of a list, entry k at off + step · k. -/
def putList {α : Type} (off step : Nat) (xs : List α) (f : Nat → α → Cells 8 → Cells 8) (m : Cells 8) : Cells 8 :=
  (List.range xs.length).foldl (fun m k => match xs[k]? with
    | some x => f (off + step * k) x m
    | none => m) m

/-- The team block (R367). -/
def putTeam (s : State) (g : Grid) (t : Team) (ncopy : Nat) (m : Cells 8) : Cells 8 :=
  let arrivals (off : Nat) (b : Table (List Nat)) (m : Cells 8) : Cells 8 := b.foldl (fun m e => putN (off + 4 * e.1) 4 (groupBits s e.2) m) m
  let m1 := putN 12 4 (t.teamid % g.launch.csize) (putN 8 4 t.teamid (putN 4 4 ncopy (putN 0 4 1 m)))
  let m2 := arrivals 36 t.barc (arrivals 20 t.bart m1)
  let m3 := putCells 64 t.h (putN 52 4 ((tblGet g.cursors (setOf g.launch t.teamid)).getD 0) m2)
  let m4 := t.binds.foldl (fun m e => putN (140 + 16 * e.1) 4 e.2.len (putN (136 + 16 * e.1) 4 e.2.soff (putN (128 + 16 * e.1) 8 e.2.gaddr.toNat m))) m3
  let owner (x : SeqSlot) : Nat := ((tblGet s.groups x.owner).map (·.grpid)).getD 0
  let m5 := t.seqs.foldl (fun m e => putN (257 + 2 * e.1) 1 (owner e.2) (putN (256 + 2 * e.1) 1 (if e.2.isOpen then 1 else 0) m)) m4
  putN 768 1 (bitsOf t.accErr) (t.quartets.foldl (fun m q => putPairs (512 + 32 * q.1) q.2.rte m) m5)

/-- The number of entries that a program has produced. -/
def FeedPos.total (p : FeedPos) : Nat := p.produced.sum

/-- Entries are still present in a queue. -/
def feedHolds (f : Feed) : Bool := f.queues.any (· != [])

/-- The checkpoint of a feed program: the place at which it produced the oldest entry present, or its current place (R222). -/
def checkpoint (f : Feed) : FeedPos :=
  (f.queues.flatMap id).foldl (fun p e => if e.at_.total < p.total then e.at_ else p) f.place

/-- The entries that queue q drops when the program runs again from a place. -/
def skipOf (f : Feed) (p : FeedPos) (q : Nat) : Nat :=
  f.place.produced.getD q 0 - p.produced.getD q 0 - (f.queues.getD q []).length + f.skip.getD q 0

/-- The feed record (R222). -/
def putFeed (off : Nat) (f : Option Feed) (m : Cells 8) : Cells 8 :=
  match f with
  | none => m
  | some f =>
    let p := checkpoint f
    let ls := p.loops.reverse
    let m1 := putList (off + 8) 8 p.a (fun o a m => putN o 8 a.toNat m) (putN off 8 f.prog.toNat m)
    let m2 := putList (off + 88) 4 ls (fun o l m => putN o 4 l.2.2 m) (putList (off + 72) 4 ls (fun o l m => putN o 4 l.2.1 m) m1)
    let state := if f.running || feedHolds f then 1 else 2
    let m3 := putN (off + 107) 1 state (putN (off + 106) 1 f.qmask (putN (off + 105) 1 ls.length (putN (off + 104) 1 p.pos m2)))
    putList (off + 112) 1 ls (fun o l m => putN o 1 l.1 m) ((List.range 4).foldl (fun m q => putN (off + 108 + q) 1 (skipOf f p q) m) m3)

/-- The captured operands of a lane in 64 bytes: the address, the data, and where the data leaves room the second address and the value of
the whole instruction; the data's length, the die name and the clipped half bytes. -/
def putLane (off : Nat) (x : Word64) (l : LaneAcc) (m : Cells 8) : Cells 8 :=
  let m1 := writeBytes (putN off 8 l.addr.toNat m) (off + 8) l.data
  let m2 := if l.data.length ≤ 32 then putN (off + 48) 8 l.addr2.toNat (putN (off + 40) 8 x.toNat m1) else m1
  putN (off + 58) 4 (bitsOf l.clipped) (putN (off + 57) 1 ((l.die.map (· + 1)).getD 0) (putN (off + 56) 1 l.data.length m2))

/-- The parked instruction. -/
def putPark (off : Nat) (p : Option Park) (m : Cells 8) : Cells 8 :=
  match p with
  | none => m
  | some p =>
    let ls := p.lanes.filter fun l => decide (l.lane < 64)
    let m1 := putN (off + 8) 8 (bitsOf (ls.map (·.lane))) (putN off 8 p.words.toNat m)
    ls.foldl (fun m l => putLane (off + 16 + 64 * l.lane) p.extra l m) m1

/-- The lanes of a sequence slot. -/
def putSeq (off : Nat) (x : SeqSlot) (m : Cells 8) : Cells 8 :=
  x.lanes.foldl (fun m e =>
    let o := off + 32 * e.1
    let next := e.2.next.toNat % 2 ^ 60 + (if e.2.replay then 2 ^ 62 else 0) + (if e.2.member then 2 ^ 63 else 0)
    putN (o + 24) 8 e.2.gen0.toNat (putN (o + 16) 8 e.2.gen.toNat (putN (o + 8) 8 next (putN o 8 e.2.seqid.toNat m)))) m

/-- A line of an ordered-mode buffer. -/
def putLine (off : Nat) (x : BufLine) (m : Cells 8) : Cells 8 :=
  x.bytes.foldl (fun m e => putN (off + 24 + e.1) 1 (e.2.toNat % 256) m)
    (putN (off + 8) 16 (bitsOf (x.bytes.map (·.1))) (putN off 8 (128 * x.line.toNat) m))

/-- A pending reported error. -/
def putErr (off : Nat) (r : RepErr) (m : Cells 8) : Cells 8 :=
  match r.cause with
  | none => m
  | some c => putN (off + 4) 8 c.info.toNat (putN (off + 1) 1 (min 255 r.more) (putN off 1 c.code m))

/-- The group block (R368). -/
def putGroupAt (off n : Nat) (t : Team) (g : Group) (m : Cells 8) : Cells 8 :=
  let below (c : Cells 32) : Cells 32 := c.filter fun e => decide (e.1 % 64 < g.width)
  let m1 := putPairs (off + 20480) g.p (putCells (off + 16384) (below g.hq) (putCells (off + 12288) (below g.q) (putCells off (below g.v) m)))
  let m2 := putN (off + 20600) 8 g.trapinfo.toNat (putN (off + 20592) 8 (ctrWord g).toNat (putN (off + 20584) 8 g.chz
    (putN (off + 20576) 8 g.exec.toNat m1)))
  let m3 := putN (off + 20616) 8 g.pc.toNat (putN (off + 20612) 4 g.fpflags.toNat (putN (off + 20608) 4 g.trapcause.toNat m2))
  let flags := (if g.ended then 1 else 0) + (if g.handler then 2 else 0) + (if g.park.isSome then 4 else 0)
  let m4 := putN (off + 20632) 8 g.cpoff.toNat (putN (off + 20628) 4 flags (putN (off + 20624) 4 g.idx m3))
  let m5 := g.repErr.foldl (fun m e => putErr (off + 20640 + 12 * (e.1 - 1)) e.2 m) m4
  let m6 := putFeed (off + 20992) g.feed (putCells (off + 20864) g.k (putCells (off + 20736) g.s m5))
  let m7 := t.seqs.foldl (fun m e => if e.2.owner = n then putSeq (off + 25856 + 2048 * e.1) e.2 m else m) (putPark (off + 21504) g.park m6)
  putList (off + 34048) 152 g.sbuf putLine m7

/-- The record of a quartet: its stopped MMA or its latch, with the progress registers (R208, R216). -/
def putQuartet (off : Nat) (q : Quartet) (m : Cells 8) : Cells 8 :=
  let m1 := writeBytes m off (recordBytes q.ops.head? q.aLatch)
  putN (off + 36) 4 q.mxdep (putN (off + 32) 4 q.mxcol (putN (off + 28) 4 q.mxrow m1))

/-- The copy takes its strides from its shape (R250). -/
def denseCopy (c : Copy) : Bool :=
  match decodeWords (c.words.toNat % 2 ^ 32) (c.words.toNat / 2 ^ 32) with
  | .ok (.cpy _ _ _ code _ _ _ _ _) => code == (104 : BitVec 7)
  | _ => false

/-- The operand values of a copy in field order. -/
def copyOperands (c : Copy) (off : Nat) (m : Cells 8) : Cells 8 :=
  let bar := c.bar.getD 0
  if c.kind = 0 then
    let str : Nat := if denseCopy c then 0 else c.dstr * 2 ^ 32 + c.sstr
    putN (off + 32) 4 bar (putN (off + 24) 8 str (putN (off + 16) 8 (c.nrow * 2 ^ 32 + c.rowb) (putN (off + 8) 8 c.sa (putN off 8 c.da m))))
  else
    let m1 := putList (off + 16) 4 c.coords (fun o x m => putN o 4 x m) (putN (off + 8) 8 (c.e1 * 2 ^ 32 + c.e0) (putN off 8 c.buf m))
    putN (off + 36) 4 bar (putN (off + 32) 4 c.desc m1)

/-- The copy offset that a stopped copy is saved at: any multiple of 128 below which every byte is written; with a barrier, the one below
which its bytes are attributed (R256, R258). Log entry 72 (DEDUCED). -/
def savedOffset (s : State) (c : Copy) : Nat :=
  if c.bar.isSome then c.offset else Config.freeIndex s.draws c.uid % (c.offset / 128 + 1) * 128

/-- The place of a copy among its group's copy groups: 0 for the open one, k for the k-th youngest committed (R369). -/
def groupRank (g : Group) (uid : Nat) : Nat :=
  let cps := (g.ops.filter fun o => o.ctr == .cp).reverse
  ((List.range cps.length).find? fun k => ((cps[k]?).map fun o => o.copies.contains uid).getD false).elim 0 (· + 1)

/-- A copy record (R369). -/
def putCopy (s : State) (off : Nat) (x : Nat × Copy) (m : Cells 8) : Cells 8 :=
  match tblGet s.groups x.1 with
  | none => m
  | some g =>
    let m1 := copyOperands x.2 (off + 8) (putN off 8 x.2.words.toNat m)
    putN (off + 58) 2 (groupRank g x.2.uid) (putN (off + 56) 2 g.grpid (putN (off + 48) 8 (savedOffset s x.2) m1))

/-- The save of team number n of grid g. -/
def saveImage (s : State) (n : Nat) (g : Grid) (t : Team) : List Byte :=
  let l := g.launch
  let cs := teamUnmoved s t
  let m0 := putTeam s g t cs.length []
  let m1 := (List.range t.groups.length).foldl (fun m k =>
    match (t.groups[k]?).bind fun i => (tblGet s.groups i).map fun x => (i, x) with
    | some (i, x) => putGroupAt (8192 + 45056 * k) i t x m
    | none => m) m0
  let m2 := if l.tiles then
      t.quartets.foldl (fun m q => putQuartet (l.matrixAt + 131072 + 2304 * q.1) q.2 m) (putCells l.matrixAt t.acc m1)
    else m1
  let m3 := writeBytes m2 l.stashAt (readBytes s.mem (stashLoc n 0) l.stash)
  readBytes (putList (l.stashAt + l.stash) 64 cs (putCopy s) m3) 0 l.saveSize

/-! ### The save -/

/-- A group's copies, each with its index in its copy group. -/
def indexedCopies (g : Group) : List (Copy × Nat) :=
  ((g.ops.map (·.copies)) ++ [g.openCopies]).flatMap fun us =>
    (List.range us.length).filterMap fun i => (findCopy g (us.getD i 0)).map fun c => (c, i)

/-- The errors of a group's copies that ended before they were committed, or in a group of copies that is saved, are reported now. -/
def reportCopies (g : Group) : Group :=
  (indexedCopies g).foldl (fun g x => (copyCauses x.1 x.2).foldl (fun g e => reportErr g .cp e) g) g

/-- CPOFF shows the offset of the youngest copy that is stopped (R258). -/
def stoppedOffset (s : State) (g : Group) : Group :=
  match (g.copies.filter unmoved).getLast? with
  | some c => if c.uid < g.cpofUid then g else { g with cpoff := BitVec.ofNat 64 (savedOffset s c), cpofUid := c.uid }
  | none => g

/-- The state that the save records of a team whose parts have all stopped. -/
def beforeSave (s : State) (t : Team) : State :=
  t.groups.foldl (fun s n => s.upGroup n fun g => stoppedOffset s (reportCopies g)) s

/-- A group's place in its round (R330). -/
def roundPlace (g : Group) : Nat :=
  match g.wait with
  | .quantum before => if before then 2 else 1
  | _ => if g.turn = .used then 3 else 0

/-- A table takes an entry of each of a team's groups, by its global index. -/
def putByIndex {α : Type} (s : State) (t : Team) (f : Group → α) (now : Table α) : Table α :=
  t.groups.foldl (fun a i => match tblGet s.groups i with
    | some x => tblSet a (globalIndex s x) (f x)
    | none => a) now

/-- A team is saved and leaves: its image is written, its slots are written back and unbound. -/
def saveTeam (s : State) (n : Nat) (t : Team) : Except State State :=
  match tblGet s.grids t.grid with
  | none => .ok s
  | some g =>
    let s1 := beforeSave s t
    let img := saveImage s1 n g t
    let s2 := (unbindAll s1 n).1
    match engWrite s2 { engineWho t.site t.ctx with op := some (n, 2 ^ 50 + n) } (g.launch.save.toNat + t.teamid * g.launch.saveSize) img with
    | (s3, .error _) => .error s3
    | (s3, .ok _) =>
      let s4 := { s3 with
        faults := s3.faults.filter fun e => !t.groups.contains e.2.group
        grids := tblUp s3.grids t.grid fun g =>
          { g with
            saved := tblSet g.saved t.teamid t.width
            quanta := putByIndex s t (·.clauses) g.quanta
            stood := putByIndex s t roundPlace g.stood
            branches := putByIndex s t (fun x => (x.brCount, x.brActive)) g.branches } }
      .ok (freeTeam s4 n t)

/-- Every team among some is saved. Log entry 73 (DEDUCED). -/
def saveTeams : List (Nat × Team) → State → Except State State
  | [], s => .ok s
  | e :: es, s => (saveTeam s e.1 e.2).bind (saveTeams es)

/-- The schedule cursors of saved teams are in their saves (R267, R365). -/
def leaveCursors (s : State) (ts : List Team) : State :=
  ts.foldl (fun s t => { s with grids := tblUp s.grids t.grid fun g => { g with cursors := tblErase g.cursors (setOf g.launch t.teamid) } }) s

/-- PREEMPT_SAVE (R365, R366): once every team of the context may be saved, the saves are written, the teams leave, and SAVED is set. -/
def execPreemptSave (ctx : Nat) (s : State) : QRes :=
  .next (if !s.stopping.contains ctx || s.discarding.contains ctx then s
    else
      let ts := s.teams.filter fun e => e.2.ctx == ctx
      if ts.all fun e => teamReady s e.2 then
        match saveTeams ts s with
        | .error t => notYet s t
        | .ok s1 => setCtxFlags { leaveCursors s1 (ts.map (·.2)) with stopping := s1.stopping.filter (· != ctx) } ctx
            (ctxFlags s1 (ctxSite s1) ctx / 16 * 16 + 8 + ctxFlags s1 (ctxSite s1) ctx % 8)
      else moveExcess s ctx)

/-! ### A context in error (R363) -/

/-- An operation of a discarded group: a load is discarded, another completes as at EXIT (R144). -/
def keptOp (o : Op) : Bool := o.ctr != .ld && o.ctr != .tx

/-- A group of a discarded team ends without effect of its own. -/
def discardGroup (s : State) (n : Nat) : State :=
  let s1 := settleStop s n
  let s2 := (drainWcb s1 n).upGroup n fun g => { g with stopped := false, ops := g.ops.filter keptOp, repErr := [], park := none }
  { endGroup s2 n with faults := s2.faults.filter fun e => e.2.group != n }

/-- A team is discarded without a save: it contributes nothing. -/
def discardTeam (s : State) (n : Nat) (t : Team) : State :=
  let s1 := t.groups.foldl (fun s i => if ((tblGet s.groups i).map (·.ended)).getD true then s else discardGroup s i) s
  settleTeam ((unbindAll s1 n).1.upTeam n fun t => { t with ended := true, seqs := [], bart := [], barc := [] }) n

/-- The teams of a context whose groups have all stopped are discarded. Log entry 74 (DEDUCED). -/
def discardTeams (s : State) (c : Nat) : State :=
  s.teams.foldl (fun s e =>
    match tblGet s.teams e.1 with
    | some t =>
      if t.ctx = c ∧ t.ended = false ∧ (liveMembers s e.1).all (fun n => ((tblGet s.groups n).map (halted s)).getD true) = true then
        discardTeam s e.1 t
      else s
    | none => s) s

/-- An active launch of the context completes with no completion increment, and its collectives are dropped. -/
def dropGrid (s : State) (grid : Nat) (g : Grid) : State :=
  let s1 := { s with
    grids := tblErase s.grids grid
    contribs := s.contribs.filter fun e => e.2.grid != grid
    chunks := s.chunks.filter fun e => e.2.grid != grid
    packets := tblUp s.packets g.pkt fun p => { p with caddr := 0 } }
  finishPacket s1 g.pkt g.chz

/-- The grids of a context whose teams have left end. -/
def dropGrids (s : State) (c : Nat) : State :=
  s.grids.foldl (fun s e => if e.2.ctx = c ∧ (gridTeams s e.1).isEmpty = true then dropGrid s e.1 e.2 else s) s

/-- CONTEXT_ERROR_STOP (R363): the groups of a context in error stop at their stop points, its teams are discarded without a save, and its
launches end. -/
def execContextErrorStop (ctx : Nat) (s : State) : QRes :=
  .next (if !s.discarding.contains ctx then s
    else
      let s1 := dropGrids (discardTeams (stopGroups s ctx) ctx) ctx
      if (s1.grids.any fun e => e.2.ctx == ctx) || s1.teams.any (fun e => e.2.ctx == ctx) then s1
      else { s1 with discarding := s1.discarding.filter (· != ctx), restoring := s1.restoring.filter (· != ctx) })

end Sys2Proof.Machine
end

