-- ==== Sys2Proof/Machine/Restore.lean ====
section
/-!
DEFINITION. RESTORE (R187, R217, R222, R258, R370): the teams of a context whose pre-emption is over become resident again, each from its save.
-/
namespace Sys2Proof.Machine

/-! ### Reading the image -/

/-- n words of 32 bits from an offset, as cells. -/
def getCells (bs : List Byte) (off n : Nat) : Cells 32 :=
  (List.range n).filterMap fun k => let x := BitVec.ofNat 32 (bytesNum bs (off + 4 * k) 4); if x = 0 then none else some (k, x)

/-- n pairs of 64 bits. -/
def getPairs (bs : List Byte) (off n : Nat) : Cells 64 :=
  (List.range n).filterMap fun k => let x := BitVec.ofNat 64 (bytesNum bs (off + 8 * k) 8); if x = 0 then none else some (k, x)

/-- The numbers below n of a mask's set bits. -/
def bitsBelow (n x : Nat) : List Nat := (List.range n).filter fun k => x / 2 ^ k % 2 == 1

def get64 (bs : List Byte) (off : Nat) : Word64 := BitVec.ofNat 64 (bytesNum bs off 8)
def get32 (bs : List Byte) (off : Nat) : Word := BitVec.ofNat 32 (bytesNum bs off 4)

/-- The barrier of a kind at which a group has arrived, by its masks in the team block. -/
def arrivedBarrier (bs : List Byte) (off k : Nat) : Option Nat :=
  (List.range 4).find? fun i => bytesNum bs (off + 4 * i) 4 / 2 ^ k % 2 == 1

/-- What a restored group waits for: a barrier at which it has arrived, or its turn after a quantum that has ended (R330). -/
def restoredWait (bs : List Byte) (k stood : Nat) : Wait :=
  match arrivedBarrier bs 20 k, arrivedBarrier bs 36 k with
  | some i, _ => .bart i
  | none, some i => .barc i
  | none, none => if stood = 1 then .quantum false else if stood = 2 then .quantum true else .none

/-- The pending reported errors of a group block. -/
def getErrs (bs : List Byte) (off : Nat) : Table RepErr :=
  (List.range 7).filterMap fun c =>
    let o := off + 12 * c
    if bytesNum bs o 1 = 0 then none
    else some (c + 1, { cause := some { code := bytesNum bs o 1, info := get64 bs (o + 4) }, more := bytesNum bs (o + 1) 1 })

/-- The lines of an ordered-mode buffer. -/
def getLines (bs : List Byte) (off now : Nat) : List BufLine :=
  (List.range 64).filterMap fun i =>
    let o := off + 152 * i
    let m := bytesNum bs (o + 8) 16
    if m = 0 then none
    else some { line := BitVec.ofNat 64 (bytesNum bs o 8 / 128), last := now,
                bytes := (bitsBelow 128 m).map fun k => (k, BitVec.ofNat 9 (256 + bytesNum bs (o + 24 + k) 1)) }

/-- Group k of a team as its block gives it: registers, special registers, place and buffers. Its operations, copies and feed program are
re-entered after. -/
def getGroup (s : State) (r : Grid) (bs : List Byte) (teamid k : Nat) (g : Group) : Group :=
  let off := 8192 + 45056 * k
  let i := teamid * 32 + k
  let stood := (tblGet r.stood i).getD 0
  let flags := bytesNum bs (off + 20628) 4
  { g with
    v := getCells bs off 3072
    q := getCells bs (off + 12288) 1024
    hq := getCells bs (off + 16384) 1024
    p := getPairs bs (off + 20480) 12
    exec := get64 bs (off + 20576)
    chz := bytesNum bs (off + 20584) 8
    ctr := (List.range 7).map fun i => bytesNum bs (off + 20592) 8 / 2 ^ (6 * i) % 64
    trapinfo := get64 bs (off + 20600)
    trapcause := get32 bs (off + 20608)
    fpflags := get32 bs (off + 20612)
    pc := get64 bs (off + 20616)
    hdr := none
    idx := bytesNum bs (off + 20624) 4
    ended := flags % 2 == 1
    handler := flags / 2 % 2 == 1
    cpoff := get64 bs (off + 20632)
    repErr := getErrs bs (off + 20640)
    s := getCells bs (off + 20736) 32
    k := getCells bs (off + 20864) 8
    sbuf := getLines bs (off + 34048) s.clock
    clauses := (tblGet r.quanta i).getD 0
    brCount := ((tblGet r.branches i).map (·.1)).getD 0
    brActive := ((tblGet r.branches i).map (·.2)).getD 0
    turn := if stood = 3 then .used else .idle
    wait := if flags % 2 = 1 then .none else restoredWait bs k stood }

/-- A lane of a sequence slot: in replay its next record is looked up again. -/
def getSeqLane (bs : List Byte) (o : Nat) : Option SeqLane :=
  let next := bytesNum bs (o + 8) 8
  if next / 2 ^ 63 = 0 then none
  else
    let replay := next / 2 ^ 62 % 2 == 1
    some { member := true, seqid := get64 bs o, next := BitVec.ofNat 64 (next % 2 ^ 60), gen := get64 bs (o + 16), gen0 := get64 bs (o + 24),
           replay := replay, pending := replay, opener := 0, forcedRoute := 0, forcedDigest := 0, keep := true }

/-- The sequence slots of a team. -/
def getSeqs (bs : List Byte) (groups : List Nat) : Table SeqSlot :=
  (List.range 4).filterMap fun n =>
    if bytesNum bs (256 + 2 * n) 1 = 0 then none
    else
      let k := bytesNum bs (257 + 2 * n) 1
      let off := 8192 + 45056 * k + 25856 + 2048 * n
      some (n, { isOpen := true, owner := groups.getD k 0,
                 lanes := (List.range 64).filterMap fun l => (getSeqLane bs (off + 32 * l)).map fun e => (l, e) })

/-- The matrix record of quartet k. -/
def matrixRecord (l : Launch) (bs : List Byte) (k : Nat) : List Byte := (bs.drop (l.matrixAt + 131072 + 2304 * k)).take 2304

/-- Quartet k of a team: its routing registers, its latch, its progress registers (R217), and its members that have ended (R196). -/
def getQuartet (l : Launch) (bs : List Byte) (k : Nat) (ended : List Nat) (q : Quartet) : Quartet :=
  let q0 := { q with rte := getPairs bs (512 + 32 * k) 4, lost := ended }
  if !l.tiles then q0
  else
    let r := matrixRecord l bs k
    { q0 with
      mxrow := bytesNum r 28 4
      mxcol := bytesNum r 32 4
      mxdep := bytesNum r 36 4
      aLatch := if bytesNum r 0 8 % 4 = 2 then some (recordA r) else none }

/-- The stopped MMA of a quartet as operation uid, or what its record would trap with. -/
def stoppedMma (s : State) (team : Nat) (l : Launch) (bs : List Byte) (k uid : Nat) : Option (Except Cause MxOp) :=
  let r := matrixRecord l bs k
  if l.tiles && bytesNum r 0 8 % 2 == 1 then some (recordOp s team uid r) else none

/-- The stopped MMA of a quartet counts on MX in its members; one that a bad record leaves unknown is over, with a reported error.
Log entry 71 (DESIGN CHOICE). -/
def memberMma (uid : Nat) (words : Word64) (err : Option Cause) (g : Group) : Group :=
  { g with ops := g.ops ++ [{ uid := uid, ctr := .mx, words := words, stage := if err.isSome then .complete else .performed,
                              need := if err.isSome then 0 else 1, err := err }] }

/-! ### Copies (R258, R369) -/

/-- The copy of a record, without its descriptor and shards. -/
def getCopy (r : List Byte) (uid : Nat) : Option Copy :=
  let words := get64 r 0
  let off := bytesNum r 48 8
  let base : Copy := { uid := uid, words := words, kind := 0, start := off, offset := off, lowered := off, probed := true }
  let tile (kind : Nat) (baron tr clip : Bool) : Copy :=
    { base with
      kind := kind, buf := bytesNum r 8 8, e0 := bytesNum r 16 4, e1 := bytesNum r 20 4
      coords := (List.range 4).map fun k => bytesNum r (24 + 4 * k) 4
      desc := bytesNum r 40 4, transpose := tr, clip := clip, bar := if baron then some (bytesNum r 44 4) else none }
  match decodeWords (bytesNum r 0 4) (bytesNum r 4 4) with
  | .ok (.cpy _ _ _ code _ baron _ _ tw) =>
    let rowb := bytesNum r 24 4
    let nrow := bytesNum r 28 4
    let dense := code == (104 : BitVec 7)
    some { base with
      da := bytesNum r 8 8, sa := bytesNum r 16 8, rowb := rowb, nrow := nrow
      sstr := if dense then rowb else bytesNum r 32 4
      dstr := if dense then (if tw = 0 then rowb else nrow * twBits tw.toNat / 8) else bytesNum r 36 4
      tw := tw.toNat, bar := if baron then some (bytesNum r 40 4) else none }
  | .ok (.cpytLoad _ _ _ _ _ baron _ _ tr clip) => some (tile 1 baron tr clip)
  | .ok (.cpytStore _ _ _ _ _ baron _ _ tr clip) => some (tile 2 baron tr clip)
  | _ => none

/-- A copy with the descriptor and the shards that it was given; it fails where they cannot be read now. -/
def withTensor (s : State) (w : Who) (l : Launch) (c : Copy) : Except State (State × Copy) :=
  if c.kind = 0 then .ok (s, c)
  else
    match fetchDesc s w l.desc.toNat l.ndesc c.desc with
    | (s1, .error _) => .error s1
    | (s1, .ok d) =>
      let c1 := { c with descBytes := cachedDesc s1 w l.desc.toNat c.desc, coords := c.coords.take d.rank }
      match tileShards s1 w d (shardsOf c1 d) with
      | (s2, .error _) => .error s2
      | (s2, .ok sh) => .ok (s2, { c1 with shards := sh })

/-- The copies of a save, with the group and the copy group of each. -/
def getCopies (w : Who) (l : Launch) (bs : List Byte) : Nat → State → Except State (State × List (Nat × Nat × Copy))
  | 0, s => .ok (s, [])
  | n + 1, s =>
    (getCopies w l bs n s).bind fun x =>
      let r := (bs.drop (l.stashAt + l.stash + 64 * n)).take 64
      match getCopy r x.1.fresh with
      | none => .error x.1
      | some c => (withTensor x.1.bump w l c).map fun y => (y.1, x.2 ++ [(bytesNum r 56 2, bytesNum r 58 2, y.2)])

/-- The number of the youngest stopped copy whose offset CPOFF is: the youngest of those restored, or one that has left. -/
def cpoffOwner (g : Group) (cs : List Copy) : Nat :=
  match cs.getLast? with
  | some c => if g.cpoff.toNat = c.offset then c.uid else c.uid + 1
  | none => 0

/-- The copies of group k, and its copy groups, oldest first, with the numbers from `fresh` up. -/
def groupCopiesBack (k fresh : Nat) (cs : List (Nat × Nat × Copy)) (g : Group) : Group :=
  let mine := cs.filter fun x => x.1 == k
  let ids (cg : Nat) : List Nat := (mine.filter fun x => x.2.1 == cg).map fun x => x.2.2.uid
  let n := counter g Counter.cp.ident
  { g with
    copies := mine.map (·.2.2)
    cpofUid := cpoffOwner g (mine.map (·.2.2))
    openCopies := ids 0
    ops := g.ops ++ (List.range n).map fun i => { uid := fresh + i, ctr := .cp, len := 1, stage := .performed, copies := ids (n - i) } }

/-! ### Feed programs (R222) -/

/-- The feed program of a group block runs again from its checkpoint; one that had ended does not, and one whose words cannot be read now
has failed there. Log entry 41 (DEDUCED). -/
def feedBack (s : State) (n : Nat) (bs : List Byte) (off : Nat) : State :=
  let state := bytesNum bs (off + 107) 1
  let depth := bytesNum bs (off + 105) 1
  let qmask := bytesNum bs (off + 106) 1
  let loops := ((List.range depth).map fun i => (bytesNum bs (off + 112 + i) 1, bytesNum bs (off + 72 + 4 * i) 4, bytesNum bs (off + 88 + 4 * i) 4)).reverse
  let place : FeedPos := { a := (List.range 8).map fun i => get64 bs (off + 8 + 8 * i), loops := loops, pos := bytesNum bs (off + 104) 1,
                           produced := [0, 0, 0, 0] }
  let mk (words : List Word) (running : Bool) (failed : Option Nat) : Feed :=
    { freshFeed (get64 bs off) words qmask [] s.clock with
      place := place, running := running, failed := failed, skip := (List.range 4).map fun q => bytesNum bs (off + 108 + q) 1 }
  match tblGet s.groups n with
  | none => s
  | some g =>
    if state = 0 then s
    else if state = 1 then
      match scanProgram g (fennelWho s n g) (bytesNum bs off 8) qmask 64 0 0 s with
      | (s1, .ok ws) => s1.upGroup n fun g => { g with feed := some (mk ws true none) }
      | (s1, .error _) => s1.upGroup n fun g => { g with feed := some (mk [] false (some place.pos)) }
    else s.upGroup n fun g => { g with feed := some (mk [] false none) }

/-! ### Parked instructions (R370) -/

/-- The captured operands of a lane. -/
def getLane (bs : List Byte) (off l : Nat) : LaneAcc :=
  let n := bytesNum bs (off + 56) 1
  let name := bytesNum bs (off + 57) 1
  { lane := l, addr := get64 bs off, die := if name = 0 then none else some (name - 1), data := (bs.drop (off + 8)).take n,
    addr2 := if n ≤ 32 then get64 bs (off + 48) else 0, clipped := bitsBelow 32 (bytesNum bs (off + 58) 4) }

/-- The operation of a parked instruction: for a texture read the descriptor is the lanes' address. -/
def parkedOp (i : Instr) (addr extra : Word64) : Option Op :=
  match i with
  | .texs _ d _ _ _ _ => some (gfxOp (.texs d.toNat addr extra))
  | .texf _ d _ _ => some (gfxOp (.texf d.toNat addr))
  | .texq _ d _ _ => some (gfxOp (.texq d.toNat addr (lo32 extra)))
  | .rtbox _ d _ _ => some (gfxOp (.rtbox d.toNat))
  | .rttri _ d _ _ minf cull => some (gfxOp (.rttri d.toNat minf cull.toNat))
  | .stf _ _ _ _ t _ _ => (opOf i).map fun o => { o with kind := some (.flagged (sizeOfType t) extra) }
  | _ => opOf i

/-- The registers that an operation writes in some lanes. -/
def destsOf (g : Group) (k : MemKind) (ls : List Nat) : List Reg :=
  match k with
  | .load n _ uni d | .const n _ uni d => loadDests g uni d n ls
  | .atomic _ ty (some d) => loadDests g false d (atomBytes ty) ls
  | .dcas w64 d => loadDests g false d ((if w64 then 8 else 4) * 3) ls
  | .amov w64 d => loadDests g false d (if w64 then 8 else 4) ls
  | .texs d .. | .texf d .. | .texq d .. => gfxDests d 4 ls
  | .rtbox d => gfxDests d 5 ls
  | .rttri d .. => gfxDests d 4 ls
  | _ => []

/-- The captured operands of a whole-group instruction. -/
def getValues (bs : List Byte) (off : Nat) : List Word64 :=
  (List.range (bytesNum bs (off + 56) 8)).map fun j => get64 bs (off + 16 + 64 * (j / 2) + 48 * (j % 2))

/-- A parked instruction of group n is performed again: a memory operation in its unfinished lanes, counted once more on its counter;
another as a whole, with the operands that it captured. -/
def parkBack (s : State) (n : Nat) (bs : List Byte) (off : Nat) : State :=
  let mask := bytesNum bs (off + 8) 8
  let ls := bitsBelow 64 mask
  let lane (l : Nat) : LaneAcc := getLane bs (off + 16 + 64 * l) l
  let first := ls.headD 0
  let extra := if bytesNum bs (off + 16 + 64 * first + 56) 1 ≤ 32 then get64 bs (off + 16 + 64 * first + 40) else 0
  match decodeWords (bytesNum bs off 4) (bytesNum bs (off + 4) 4), tblGet s.groups n with
  | .ok i, some g =>
    match parkedOp i (lane first).addr extra with
    | none =>
      s.putGroup n { g with idx := g.idx - wordsLen (get64 bs off), words := get64 bs off, captured := some (getValues bs off) }
    | some o =>
      let lanes := ls.map lane
      let flagLane : List LaneAcc := match o.kind with
        | some (.flagged ..) => [{ lane := 64, addr := extra }]
        | _ => []
      let o1 := { o with uid := s.fresh, ctr := counterFor o lanes, words := get64 bs off, lanes := lanes ++ flagLane,
                         dests := (o.kind.map fun k => destsOf g k ls).getD [] }
      s.bump.putGroup n { issueOp g o1 with idx := g.idx - o.len, wait := .translate s.fresh }
  | _, _ => s

/-! ### A team comes back -/

/-- The slots of a save are bound again, unfilled (R187); it fails where a range does not translate now. -/
def bindsBack (w : Who) (team : Nat) (bs : List Byte) : Nat → State → Except State State
  | 0, s => .ok s
  | k + 1, s =>
    (bindsBack w team bs k s).bind fun s1 =>
      let o := 128 + 16 * k
      let len := bytesNum bs (o + 12) 4
      if len = 0 then .ok s1
      else
        match bindLines s1 w 0 (bytesNum bs o 8) (len / 128) with
        | (s2, .error _) => .error s2
        | (s2, .ok ls) => .ok (s2.upTeam team fun t =>
            { t with binds := tblSet t.binds k { gaddr := get64 bs o, soff := bytesNum bs (o + 8) 4, len := len, lines := ls } })

/-- The cursor of a schedule set comes from the first of its teams that is restored (R267). -/
def cursorBack (s : State) (grid : Nat) (t : Team) (cursor : Nat) : State :=
  { s with grids := tblUp s.grids grid fun g =>
      let set := setOf g.launch t.teamid
      { g with cursors := if (tblGet g.cursors set).isSome then g.cursors else tblSet g.cursors set cursor } }

/-- The members of a quartet of a save that have ended. -/
def endedMembers (bs : List Byte) (k : Nat) : List Nat :=
  (List.range 4).filter fun m => bytesNum bs (8192 + 45056 * (4 * k + m) + 20628) 4 % 2 == 1

/-- Quartet k of team n comes back, a stopped MMA with the next number. -/
def quartetBack (n : Nat) (l : Launch) (bs : List Byte) (groups : Nat) (s : State) (k : Nat) : State :=
  let ended := (endedMembers bs k).filter fun m => decide (4 * k + m < groups)
  let s1 := s.bump.upQuartet n k (getQuartet l bs k ended)
  match stoppedMma s n l bs k s.fresh with
  | none => s1
  | some (.ok o) =>
    (s1.upQuartet n k fun q => { q with ops := [o] }).upMembers n k (memberMma s.fresh (wordsOf o.instr) none)
  | some (.error c) => s1.upMembers n k (memberMma s.fresh (get64 (matrixRecord l bs k) 8) (some c))

/-- The L1 of a restored team's core holds no copy of its address space from before (R310). Log entry 71 (DESIGN CHOICE). -/
def dropAsid (s : State) (t : Team) : State :=
  let asid := asidOf s t.site t.ctx
  s.upCore (coreNum t.site t.core) fun c => { c with l1 := c.l1.filter fun x => x.asid != asid }

/-- What the team block and the matrix part of a save hold of a team, and its stash. -/
def teamBlock (s : State) (n : Nat) (l : Launch) (bs : List Byte) : State :=
  let s1 := s.upTeam n fun t =>
    let member (m : Nat) : List Nat := (bitsBelow 32 m).filterMap fun k => t.groups[k]?
    let masks (off : Nat) : Table (List Nat) :=
      (List.range 4).filterMap fun i => let m := bytesNum bs (off + 4 * i) 4; if m = 0 then none else some (i, member m)
    { t with
      h := getCells bs 64 16
      bart := masks 20
      barc := masks 36
      accErr := if l.tiles then bitsBelow 8 (bytesNum bs 768 1) else []
      acc := if l.tiles then getCells bs l.matrixAt 32768 else []
      seqs := getSeqs bs t.groups }
  { s1 with mem := writeBytes s1.mem (stashLoc n 0) ((bs.drop l.stashAt).take l.stash) }

/-- Team number n, just placed, takes everything that its save holds. Log entry 71 (DESIGN CHOICE). -/
def teamBack (s : State) (n : Nat) (g : Grid) (bs : List Byte) : Except State State :=
  match tblGet s.teams n with
  | none => .error s
  | some t =>
    let l := g.launch
    let w := { engineWho t.site t.ctx with op := some (0, 2 ^ 50 + 2 ^ 40 + t.teamid) }
    let ks := List.range t.groups.length
    let num (k : Nat) : Nat := t.groups.getD k 0
    let s1 := ks.foldl (fun s k => s.upGroup (num k) (getGroup s g bs t.teamid k)) (teamBlock (dropAsid s t) n l bs)
    (bindsBack w n bs 8 s1).bind fun s2 =>
      (getCopies w l bs (bytesNum bs 4 4) s2).map fun x =>
        let s3 := (tblKeys t.quartets).foldl (quartetBack n l bs t.groups.length) x.1
        let s4 := ks.foldl (fun s k => { s with fresh := s.fresh + 64 }.upGroup (num k) (groupCopiesBack k s.fresh x.2)) s3
        let s5 := ks.foldl (fun s k =>
          let off := 8192 + 45056 * k
          let s1 := feedBack s (num k) bs (off + 20992)
          if bytesNum bs (off + 20628) 4 / 4 % 2 = 1 then parkBack s1 (num k) bs (off + 21504) else s1) s4
        cursorBack s5 t.grid t (bytesNum bs 52 4)

/-! ### Placement (R370) -/

/-- The saved teams that are restored next, with their widths: the lowest TEAMID, and with it its cluster. -/
def backNext (g : Grid) : List (Nat × Nat) :=
  match g.saved with
  | [] => []
  | e :: _ => g.saved.filter fun x => x.1 / g.launch.csize == e.1 / g.launch.csize

/-- The lowest die name whose entry binds a site, with V set and LOST clear (R38); where none does, the launch's own. -/
def siteName (s : State) (die site own : Nat) : State × Nat :=
  let r := (List.range 48).foldl (fun (r : State × Option Nat) k =>
    match r.2 with
    | some _ => r
    | none =>
      let e := nameRead r.1 die k
      (e.1, if bits e.2.toNat 63 62 = 2 ∧ bits e.2.toNat 61 55 = site then some k else none)) (s, none)
  (r.1, r.2.getD own)

/-- The teams become resident on distinct cores of a list, each on the first with room, and take their saves. -/
def backAll (grid : Nat) (g : Grid) (site name : Nat) : List (Nat × Nat) → List Nat → State → Except State State
  | [], _, s => .ok s
  | (t, w) :: ts, cores, s =>
    match cores.find? fun c => (roomOn s g.launch site c w).isSome with
    | none => .error s
    | some c =>
      let who := { engineWho site g.ctx with op := some (0, 2 ^ 50 + 2 ^ 40 + t) }
      match roomOn s g.launch site c w, engRead s who (g.launch.save.toNat + t * g.launch.saveSize) g.launch.saveSize with
      | some slots, (s1, .ok bs) =>
        (teamBack (placeTeam s1 grid g t site name c w slots) s1.fresh g bs).bind (backAll grid g site name ts (cores.filter (· != c)))
      | _, (s1, _) => .error s1

/-- The next saved teams of a grid come back with the first on a core of a die. -/
def backOn (s : State) (grid : Nat) (g : Grid) (name core : Nat) : Except State State :=
  match dieSite s (gridSite s g) name, backNext g with
  | some site, (t, w) :: ts =>
    let set := setOf g.launch t
    let resident := s.teams.find? fun e => e.2.grid == grid && setOf g.launch e.2.teamid == set
    let onSet := (resident.map fun e => e.2.site == site && e.2.core == core).getD true
    if 1 < g.launch.setsz && !onSet then .error s
    else
      let nm := siteName s (gridSite s g) site name
      (backAll grid g site nm.2 ((t, w) :: ts) (if g.launch.csize = 1 then [core] else trayFrom core) nm.1).map fun s1 =>
        { s1 with grids := tblUp s1.grids grid fun g =>
            { g with saved := g.saved.filter fun x => !((t, w) :: ts).contains x, setCore := tblSet g.setCore set core } }
  | _, _ => .error s

/-- The next saved teams of a grid come back on the first die of its launch and the first core with room. An attempt that lacks something
ends the search until it has it. -/
def backFirst (s : State) (grid : Nat) (g : Grid) : Except State State :=
  (g.names.flatMap fun name => (List.range 48).map fun core => (name, core)).foldl (fun r p =>
    match r with
    | .ok s1 => .ok s1
    | .error t => if t.needs = [] then backOn s grid g p.1 p.2 else .error t) (.error s)

/-- A restore of the context goes on: its pre-emption is over and its teams are saved (R370). -/
def restorable (s : State) (c : Nat) : Bool :=
  s.phase == .running && ctxFlag s c 0 && ctxFlag s c 3 && !s.stopping.contains c && !s.discarding.contains c &&
    (s.restoring.contains c || !ctxFlag s c 2)

/-- RESTORE: the next saved teams of a context become resident; with none left SAVED is cleared. -/
def execRestore (ctx : Nat) (s : State) : QRes :=
  .next (if !restorable s ctx then s
    else
      match s.grids.find? fun e => e.2.ctx == ctx && e.2.saved != [] with
      | some (grid, g) =>
        match backFirst { s with restoring := if s.restoring.contains ctx then s.restoring else ctx :: s.restoring } grid g with
        | .ok s1 => s1
        | .error t => notYet s t
      | none =>
        let f := ctxFlags s (ctxSite s) ctx
        setCtxFlags { s with restoring := s.restoring.filter (· != ctx) } ctx (f / 16 * 16 + f % 8))

end Sys2Proof.Machine
end

