-- ==== Sys2Proof/Machine/Dispatch.lean ====
section
/-!
DEFINITION. What each instruction, feed word and event does: one arm per constructor, each one call of its meaning.
-/
namespace Sys2Proof.Machine

def exec (i : Instr) (s : State) : Host.Outcome State Fault Refusal :=
  match i with
  | .iadd g d a b => Sys2Proof.Machine.execIadd g d a b s
  | .isub g d a b => Sys2Proof.Machine.execIsub g d a b s
  | .imul g d a b => Sys2Proof.Machine.execImul g d a b s
  | .imin g d a b => Sys2Proof.Machine.execImin g d a b s
  | .imax g d a b => Sys2Proof.Machine.execImax g d a b s
  | .and g d a b => Sys2Proof.Machine.execAnd g d a b s
  | .or g d a b => Sys2Proof.Machine.execOr g d a b s
  | .xor g d a b => Sys2Proof.Machine.execXor g d a b s
  | .andn g d a b => Sys2Proof.Machine.execAndn g d a b s
  | .shl g d a b => Sys2Proof.Machine.execShl g d a b s
  | .shr g d a b => Sys2Proof.Machine.execShr g d a b s
  | .sar g d a b => Sys2Proof.Machine.execSar g d a b s
  | .mov g d a => Sys2Proof.Machine.execMov g d a s
  | .iabs g d a => Sys2Proof.Machine.execIabs g d a s
  | .not g d a => Sys2Proof.Machine.execNot g d a s
  | .popc g d a => Sys2Proof.Machine.execPopc g d a s
  | .clz g d a => Sys2Proof.Machine.execClz g d a s
  | .brev g d a => Sys2Proof.Machine.execBrev g d a s
  | .fadd g d a b => Sys2Proof.Machine.execFadd g d a b s
  | .fsub g d a b => Sys2Proof.Machine.execFsub g d a b s
  | .fmul g d a b => Sys2Proof.Machine.execFmul g d a b s
  | .fmin g d a b => Sys2Proof.Machine.execFmin g d a b s
  | .fmax g d a b => Sys2Proof.Machine.execFmax g d a b s
  | .frcp g d a => Sys2Proof.Machine.execFrcp g d a s
  | .frsq g d a => Sys2Proof.Machine.execFrsq g d a s
  | .fsqrt g d a => Sys2Proof.Machine.execFsqrt g d a s
  | .fexp2 g d a => Sys2Proof.Machine.execFexp2 g d a s
  | .flog2 g d a => Sys2Proof.Machine.execFlog2 g d a s
  | .fsin g d a => Sys2Proof.Machine.execFsin g d a s
  | .fcos g d a => Sys2Proof.Machine.execFcos g d a s
  | .fclass g d a => Sys2Proof.Machine.execFclass g d a s
  | .hadd2 g d a b => Sys2Proof.Machine.execHadd2 g d a b s
  | .hmul2 g d a b => Sys2Proof.Machine.execHmul2 g d a b s
  | .uadd g d a b => Sys2Proof.Machine.execUadd g d a b s
  | .usub g d a b => Sys2Proof.Machine.execUsub g d a b s
  | .uand g d a b => Sys2Proof.Machine.execUand g d a b s
  | .umov g d a => Sys2Proof.Machine.execUmov g d a s
  | .exset a => Sys2Proof.Machine.execExset a s
  | .exsetAnd d => Sys2Proof.Machine.execExsetAnd d s
  | .exsetAndn d => Sys2Proof.Machine.execExsetAndn d s
  | .exget d => Sys2Proof.Machine.execExget d s
  | .pmov d a => Sys2Proof.Machine.execPmov d a s
  | .movsr g d a => Sys2Proof.Machine.execMovsr g d a s
  | .movsrClr g d => Sys2Proof.Machine.execMovsrClr g d s
  | .br p c u off => Sys2Proof.Machine.execBr p c u off s
  | .call l off => Sys2Proof.Machine.execCall l off s
  | .loop n off => Sys2Proof.Machine.execLoop n off s
  | .nop g => Sys2Proof.Machine.execNop g s
  | .ret a => Sys2Proof.Machine.execRet a s
  | .exit => Sys2Proof.Machine.execExit s
  | .jmpx a => Sys2Proof.Machine.execJmpx a s
  | .ld g d b off => Sys2Proof.Machine.execLd g d b off s
  | .st g d b off => Sys2Proof.Machine.execSt g d b off s
  | .lds g d b off => Sys2Proof.Machine.execLds g d b off s
  | .sts g d b off => Sys2Proof.Machine.execSts g d b off s
  | .ldc g d b off => Sys2Proof.Machine.execLdc g d b off s
  | .fence g order scope xp => Sys2Proof.Machine.execFence g order scope xp s
  | .txbegin d => Sys2Proof.Machine.execTxbegin d s
  | .txend => Sys2Proof.Machine.execTxend s
  | .txabort code => Sys2Proof.Machine.execTxabort code s
  | .accz m => Sys2Proof.Machine.execAccz m s
  | .setrt n a => Sys2Proof.Machine.execSetrt n a s
  | .cmit => Sys2Proof.Machine.execCmit s
  | .waitc id1 t1 id2 t2 => Sys2Proof.Machine.execWaitc id1 t1 id2 t2 s
  | .fstop => Sys2Proof.Machine.execFstop s
  | .barv d b n => Sys2Proof.Machine.execBarv d b n s
  | .bexp b n => Sys2Proof.Machine.execBexp b n s
  | .bwait d b n => Sys2Proof.Machine.execBwait d b n s
  | .bart id => Sys2Proof.Machine.execBart id s
  | .barc id => Sys2Proof.Machine.execBarc id s
  | .schnext d => Sys2Proof.Machine.execSchnext d s
  | .waita d a r => Sys2Proof.Machine.execWaita d a r s
  | .rng g d k c => Sys2Proof.Machine.execRng g d k c s
  | .rngSeq g d k n => Sys2Proof.Machine.execRngSeq g d k n s
  | .smark g slot p => Sys2Proof.Machine.execSmark g slot p s
  | .sclose slot => Sys2Proof.Machine.execSclose slot s
  | .trap g code => Sys2Proof.Machine.execTrap g code s
  | .tret => Sys2Proof.Machine.execTret s
  | .bkpt g code => Sys2Proof.Machine.execBkpt g code s
  | .csrr d n => Sys2Proof.Machine.execCsrr d n s
  | .csrw src n => Sys2Proof.Machine.execCsrw src n s
  | .iaddLong t sat o => Sys2Proof.Machine.execIaddLong t sat o s
  | .isubLong t sat o => Sys2Proof.Machine.execIsubLong t sat o s
  | .imulLong t sat o => Sys2Proof.Machine.execImulLong t sat o s
  | .imulh t o => Sys2Proof.Machine.execImulh t o s
  | .iminLong t o => Sys2Proof.Machine.execIminLong t o s
  | .imaxLong t o => Sys2Proof.Machine.execImaxLong t o s
  | .iabsLong sat o => Sys2Proof.Machine.execIabsLong sat o s
  | .imad t sat o => Sys2Proof.Machine.execImad t sat o s
  | .andLong o => Sys2Proof.Machine.execAndLong o s
  | .orLong o => Sys2Proof.Machine.execOrLong o s
  | .xorLong o => Sys2Proof.Machine.execXorLong o s
  | .andnLong o => Sys2Proof.Machine.execAndnLong o s
  | .notLong o => Sys2Proof.Machine.execNotLong o s
  | .shlLong o => Sys2Proof.Machine.execShlLong o s
  | .shrLong o => Sys2Proof.Machine.execShrLong o s
  | .sarLong o => Sys2Proof.Machine.execSarLong o s
  | .rot o => Sys2Proof.Machine.execRot o s
  | .bfe sx o => Sys2Proof.Machine.execBfe sx o s
  | .bfi o => Sys2Proof.Machine.execBfi o s
  | .popcLong o => Sys2Proof.Machine.execPopcLong o s
  | .clzLong o => Sys2Proof.Machine.execClzLong o s
  | .brevLong o => Sys2Proof.Machine.execBrevLong o s
  | .icmp cmp t o => Sys2Proof.Machine.execIcmp cmp t o s
  | .sel w64 pneg pr o => Sys2Proof.Machine.execSel w64 pneg pr o s
  | .movi g d imm => Sys2Proof.Machine.execMovi g d imm s
  | .iadd64 o => Sys2Proof.Machine.execIadd64 o s
  | .isub64 o => Sys2Proof.Machine.execIsub64 o s
  | .imul64 o => Sys2Proof.Machine.execImul64 o s
  | .shl64 o => Sys2Proof.Machine.execShl64 o s
  | .shr64 sx o => Sys2Proof.Machine.execShr64 sx o s
  | .faddLong rm o => Sys2Proof.Machine.execFaddLong rm o s
  | .fsubLong rm o => Sys2Proof.Machine.execFsubLong rm o s
  | .fmulLong rm o => Sys2Proof.Machine.execFmulLong rm o s
  | .ffma rm o => Sys2Proof.Machine.execFfma rm o s
  | .fminLong o => Sys2Proof.Machine.execFminLong o s
  | .fmaxLong o => Sys2Proof.Machine.execFmaxLong o s
  | .fcmp cmp t o => Sys2Proof.Machine.execFcmp cmp t o s
  | .frcpLong rm o => Sys2Proof.Machine.execFrcpLong rm o s
  | .frsqLong rm o => Sys2Proof.Machine.execFrsqLong rm o s
  | .fsqrtLong rm o => Sys2Proof.Machine.execFsqrtLong rm o s
  | .fexp2Long rm o => Sys2Proof.Machine.execFexp2Long rm o s
  | .flog2Long rm o => Sys2Proof.Machine.execFlog2Long rm o s
  | .fsinLong rm o => Sys2Proof.Machine.execFsinLong rm o s
  | .fcosLong rm o => Sys2Proof.Machine.execFcosLong rm o s
  | .frint rm o => Sys2Proof.Machine.execFrint rm o s
  | .fclassLong o => Sys2Proof.Machine.execFclassLong o s
  | .fldexp rm o => Sys2Proof.Machine.execFldexp rm o s
  | .cvt pair rm o => Sys2Proof.Machine.execCvt pair rm o s
  | .hadd2Long bf rm o => Sys2Proof.Machine.execHadd2Long bf rm o s
  | .hmul2Long bf rm o => Sys2Proof.Machine.execHmul2Long bf rm o s
  | .hfma2 bf rm o => Sys2Proof.Machine.execHfma2 bf rm o s
  | .dot4 t rm sat o => Sys2Proof.Machine.execDot4 t rm sat o s
  | .dot8 t rm sat o => Sys2Proof.Machine.execDot8 t rm sat o s
  | .xlane w64 o => Sys2Proof.Machine.execXlane w64 o s
  | .xlaneIdx w64 ifill o => Sys2Proof.Machine.execXlaneIdx w64 ifill o s
  | .redx rop t o => Sys2Proof.Machine.execRedx rop t o s
  | .scanx rop excl t o => Sys2Proof.Machine.execScanx rop excl t o s
  | .ballot o => Sys2Proof.Machine.execBallot o s
  | .vote vk o => Sys2Proof.Machine.execVote vk o s
  | .matchx w64 o => Sys2Proof.Machine.execMatchx w64 o s
  | .elect o => Sys2Proof.Machine.execElect o s
  | .plop d pc pb pa table => Sys2Proof.Machine.execPlop d pc pb pa table s
  | .uaddLong g d a b => Sys2Proof.Machine.execUaddLong g d a b s
  | .usubLong g d a b => Sys2Proof.Machine.execUsubLong g d a b s
  | .umul g d a b => Sys2Proof.Machine.execUmul g d a b s
  | .uandLong g d a b => Sys2Proof.Machine.execUandLong g d a b s
  | .uor g d a b => Sys2Proof.Machine.execUor g d a b s
  | .uxor g d a b => Sys2Proof.Machine.execUxor g d a b s
  | .ushl g d a b => Sys2Proof.Machine.execUshl g d a b s
  | .ushr sx g d a b => Sys2Proof.Machine.execUshr sx g d a b s
  | .umovLong g d a => Sys2Proof.Machine.execUmovLong g d a s
  | .uaddImm g d a imm => Sys2Proof.Machine.execUaddImm g d a imm s
  | .usubImm g d a imm => Sys2Proof.Machine.execUsubImm g d a imm s
  | .umulImm g d a imm => Sys2Proof.Machine.execUmulImm g d a imm s
  | .uandImm g d a imm => Sys2Proof.Machine.execUandImm g d a imm s
  | .uorImm g d a imm => Sys2Proof.Machine.execUorImm g d a imm s
  | .uxorImm g d a imm => Sys2Proof.Machine.execUxorImm g d a imm s
  | .ushlImm g d a imm => Sys2Proof.Machine.execUshlImm g d a imm s
  | .ushrImm sx g d a imm => Sys2Proof.Machine.execUshrImm sx g d a imm s
  | .umovImm g d imm => Sys2Proof.Machine.execUmovImm g d imm s
  | .umovi g d imm => Sys2Proof.Machine.execUmovi g d imm s
  | .ucmp cmp t g d a b => Sys2Proof.Machine.execUcmp cmp t g d a b s
  | .usel w64 pneg pr g d a b => Sys2Proof.Machine.execUsel w64 pneg pr g d a b s
  | .uadd64 g d a b => Sys2Proof.Machine.execUadd64 g d a b s
  | .ulane first w64 g d a b => Sys2Proof.Machine.execUlane first w64 g d a b s
  | .ldLong t uni m => Sys2Proof.Machine.execLdLong t uni m s
  | .stLong t uni m => Sys2Proof.Machine.execStLong t uni m s
  | .ldsLong t uni m => Sys2Proof.Machine.execLdsLong t uni m s
  | .stsLong t uni m => Sys2Proof.Machine.execStsLong t uni m s
  | .ldcLong t uni m => Sys2Proof.Machine.execLdcLong t uni m s
  | .ldt g d coord desc t order scope cache nt clip => Sys2Proof.Machine.execLdt g d coord desc t order scope cache nt clip s
  | .stt g d coord desc t order scope cache nt clip => Sys2Proof.Machine.execStt g d coord desc t order scope cache nt clip s
  | .pref lvl g b offset => Sys2Proof.Machine.execPref lvl g b offset s
  | .atom aop t m => Sys2Proof.Machine.execAtom aop t m s
  | .red aop t m => Sys2Proof.Machine.execRed aop t m s
  | .atoms aop t m => Sys2Proof.Machine.execAtoms aop t m s
  | .atom2Dcas g d b1 b2 w64 order scope => Sys2Proof.Machine.execAtom2Dcas g d b1 b2 w64 order scope s
  | .atom2Amov g d b1 b2 w64 order scope => Sys2Proof.Machine.execAtom2Amov g d b1 b2 w64 order scope s
  | .stm g d b mask t mdie order scope bar bars => Sys2Proof.Machine.execStm g d b mask t mdie order scope bar bars s
  | .stf g d b flag t order scope => Sys2Proof.Machine.execStf g d b flag t order scope s
  | .sbind slot gaddr soff len => Sys2Proof.Machine.execSbind slot gaddr soff len s
  | .sunbind slot => Sys2Proof.Machine.execSunbind slot s
  | .sflush slot => Sys2Proof.Machine.execSflush slot s
  | .mma tile areg sreg fmt r ns h bs => Sys2Proof.Machine.execMma tile areg sreg fmt r ns h bs s
  | .mmaLong tile aq sq fmt ns h nt bs bstr ks => Sys2Proof.Machine.execMmaLong tile aq sq fmt ns h nt bs bstr ks s
  | .accld tile t addr str => Sys2Proof.Machine.execAccld tile t addr str s
  | .accst tile t addr str rm => Sys2Proof.Machine.execAccst tile t addr str rm s
  | .accepi tile t addr str rm act alpha bias biason => Sys2Proof.Machine.execAccepi tile t addr str rm act alpha bias biason s
  | .accepiSend tile t rm act rte alpha bias biason => Sys2Proof.Machine.execAccepiSend tile t rm act rte alpha bias biason s
  | .mxsave addr => Sys2Proof.Machine.execMxsave addr s
  | .mxres addr => Sys2Proof.Machine.execMxres addr s
  | .hadt tile src n dir => Sys2Proof.Machine.execHadt tile src n dir s
  | .qblk tile fmt rm tr u => Sys2Proof.Machine.execQblk tile fmt rm tr u s
  | .dqblk tile fmt tr u => Sys2Proof.Machine.execDqblk tile fmt tr u s
  | .feed prog args na qmask => Sys2Proof.Machine.execFeed prog args na qmask s
  | .cpy dsta srca shape str bar baron rel res tw => Sys2Proof.Machine.execCpy dsta srca shape str bar baron rel res tw s
  | .cpytLoad desc coord buf ext bar baron rel res tr clip => Sys2Proof.Machine.execCpytLoad desc coord buf ext bar baron rel res tr clip s
  | .cpytStore desc coord buf ext bar baron rel res tr clip => Sys2Proof.Machine.execCpytStore desc coord buf ext bar baron rel res tr clip s
  | .qput d q pkt blk => Sys2Proof.Machine.execQput d q pkt blk s
  | .binit b count quota => Sys2Proof.Machine.execBinit b count quota s
  | .texs g d coord tex key ctr => Sys2Proof.Machine.execTexs g d coord tex key ctr s
  | .texf g d coord tex => Sys2Proof.Machine.execTexf g d coord tex s
  | .texq g d coord tex => Sys2Proof.Machine.execTexq g d coord tex s
  | .rtbox g d ray addr => Sys2Proof.Machine.execRtbox g d ray addr s
  | .rttri g d ray addr minf cull => Sys2Proof.Machine.execRttri g d ray addr minf cull s
  | .sopen g slot v => Sys2Proof.Machine.execSopen g slot v s
  | .sopenReplay g slot v => Sys2Proof.Machine.execSopenReplay g slot v s
  | .sopenFetch g slot d => Sys2Proof.Machine.execSopenFetch g slot d s
  | .semit g slot cnt p route rel => Sys2Proof.Machine.execSemit g slot cnt p route rel s
  | .diagrd d row arr word => Sys2Proof.Machine.execDiagrd d row arr word s
  | .diagwr row src arr word => Sys2Proof.Machine.execDiagwr row src arr word s
  | .fld q t n m gsh off => Sys2Proof.Machine.execFld q t n m gsh off s
  | .flds q t n off => Sys2Proof.Machine.execFlds q t n off s
  | .floop count => Sys2Proof.Machine.execFloop count s
  | .floopReg n => Sys2Proof.Machine.execFloopReg n s
  | .fstep n imm => Sys2Proof.Machine.execFstep n imm s
  | .fstepReg n m => Sys2Proof.Machine.execFstepReg n m s
  | .fend => Sys2Proof.Machine.execFend s
  | .fsync => Sys2Proof.Machine.execFsync s
  | .clauseDispatch => Sys2Proof.Machine.execClauseDispatch s
  | .rotationStart core part access => Sys2Proof.Machine.execRotationStart core part access s
  | .sfuResult g => Sys2Proof.Machine.execSfuResult g s
  | .groupWaitMet g => Sys2Proof.Machine.execGroupWaitMet g s
  | .translationComplete g => Sys2Proof.Machine.execTranslationComplete g s
  | .faultQueueRetry f => Sys2Proof.Machine.execFaultQueueRetry f s
  | .faultResponse f => Sys2Proof.Machine.execFaultResponse f s
  | .operationRetire g c => Sys2Proof.Machine.execOperationRetire g c s
  | .writeAcknowledge g op => Sys2Proof.Machine.execWriteAcknowledge g op s
  | .wcbTimeout g line => Sys2Proof.Machine.execWcbTimeout g line s
  | .l1LeaseExpiry core line => Sys2Proof.Machine.execL1LeaseExpiry core line s
  | .bindFirstTouch team slot line => Sys2Proof.Machine.execBindFirstTouch team slot line s
  | .bindRecall line => Sys2Proof.Machine.execBindRecall line s
  | .txAbort g cause => Sys2Proof.Machine.execTxAbort g cause s
  | .orderedCommitPhase grid => Sys2Proof.Machine.execOrderedCommitPhase grid s
  | .orderedRoundStart grid => Sys2Proof.Machine.execOrderedRoundStart grid s
  | .matrixCheckEnd team quartet => Sys2Proof.Machine.execMatrixCheckEnd team quartet s
  | .mmaPassEnd team quartet spareOk => Sys2Proof.Machine.execMmaPassEnd team quartet spareOk s
  | .mmaFeedTake team quartet => Sys2Proof.Machine.execMmaFeedTake team quartet s
  | .fennelServe g => Sys2Proof.Machine.execFennelServe g s
  | .feedLoadReturn g queue => Sys2Proof.Machine.execFeedLoadReturn g queue s
  | .copyProbeEnd g => Sys2Proof.Machine.execCopyProbeEnd g s
  | .copyErrorStop g copy cause => Sys2Proof.Machine.execCopyErrorStop g copy cause s
  | .barrierPendLower g copy bytes => Sys2Proof.Machine.execBarrierPendLower g copy bytes s
  | .stfFlagUpdate g op => Sys2Proof.Machine.execStfFlagUpdate g op s
  | .sendFlagUpdate send => Sys2Proof.Machine.execSendFlagUpdate send s
  | .waitaWake g => Sys2Proof.Machine.execWaitaWake g s
  | .waitaDeadline g => Sys2Proof.Machine.execWaitaDeadline g s
  | .qputBlockRetry g => Sys2Proof.Machine.execQputBlockRetry g s
  | .teamPlace grid core => Sys2Proof.Machine.execTeamPlace grid core s
  | .gridComplete grid => Sys2Proof.Machine.execGridComplete grid s
  | .contextErrorStop ctx => Sys2Proof.Machine.execContextErrorStop ctx s
  | .preemptRequest ctx => Sys2Proof.Machine.execPreemptRequest ctx s
  | .preemptSave ctx => Sys2Proof.Machine.execPreemptSave ctx s
  | .restore ctx => Sys2Proof.Machine.execRestore ctx s
  | .nopad queue => Sys2Proof.Machine.execNopad queue s
  | .launch queue => Sys2Proof.Machine.execLaunch queue s
  | .copy queue => Sys2Proof.Machine.execCopy queue s
  | .waitmem queue => Sys2Proof.Machine.execWaitmem queue s
  | .signal queue => Sys2Proof.Machine.execSignal queue s
  | .bind queue => Sys2Proof.Machine.execBind queue s
  | .ckpt queue => Sys2Proof.Machine.execCkpt queue s
  | .jctlExport queue => Sys2Proof.Machine.execJctlExport queue s
  | .jctlRestart queue => Sys2Proof.Machine.execJctlRestart queue s
  | .jctlForget queue => Sys2Proof.Machine.execJctlForget queue s
  | .tdset queue => Sys2Proof.Machine.execTdset queue s
  | .tlbinv queue => Sys2Proof.Machine.execTlbinv queue s
  | .packetComplete pkt => Sys2Proof.Machine.execPacketComplete pkt s
  | .nameCacheMiss tray name => Sys2Proof.Machine.execNameCacheMiss tray name s
  | .mscWriteback line => Sys2Proof.Machine.execMscWriteback line s
  | .rinseDrain block => Sys2Proof.Machine.execRinseDrain block s
  | .patrolScrub line corrected => Sys2Proof.Machine.execPatrolScrub line corrected s
  | .flitCrcReplay site edge module failed => Sys2Proof.Machine.execFlitCrcReplay site edge module failed s
  | .oscillatorLockLoss site osc => Sys2Proof.Machine.execOscillatorLockLoss site osc s
  | .heartbeatSend site => Sys2Proof.Machine.execHeartbeatSend site s
  | .siteLostTimeout site => Sys2Proof.Machine.execSiteLostTimeout site s
  | .siteLostDeclared site => Sys2Proof.Machine.execSiteLostDeclared site s
  | .fabricRequestArrive panel asid fa seq kind data => Sys2Proof.Machine.execFabricRequestArrive panel asid fa seq kind data s
  | .fabricAck req rtt data refused => Sys2Proof.Machine.execFabricAck req rtt data refused s
  | .fabricTimeout req => Sys2Proof.Machine.execFabricTimeout req s
  | .rotorMatching => Sys2Proof.Machine.execRotorMatching s
  | .hostAccess write off data => Sys2Proof.Machine.execHostAccess write off data s
  | .hostWritePerform req => Sys2Proof.Machine.execHostWritePerform req s
  | .birspArrive line dirty => Sys2Proof.Machine.execBirspArrive line dirty s
  | .tier2Timeout g op => Sys2Proof.Machine.execTier2Timeout g op s
  | .collectiveContribution contrib site retried agrees => Sys2Proof.Machine.execCollectiveContribution contrib site retried agrees s
  | .chunkResultAck chunk => Sys2Proof.Machine.execChunkResultAck chunk s
  | .rasterPacketArrive em => Sys2Proof.Machine.execRasterPacketArrive em s
  | .rasterWatermarkArrive wm => Sys2Proof.Machine.execRasterWatermarkArrive wm s
  | .rasterisePacket sink => Sys2Proof.Machine.execRasterisePacket sink s
  | .frameComplete sink => Sys2Proof.Machine.execFrameComplete sink s
  | .contactLogRecordArrive site rec => Sys2Proof.Machine.execContactLogRecordArrive site rec s
  | .journalRecordAck site rec => Sys2Proof.Machine.execJournalRecordAck site rec s
  | .sinkEmissionArrive em => Sys2Proof.Machine.execSinkEmissionArrive em s
  | .ringSinkDeliver em => Sys2Proof.Machine.execRingSinkDeliver em s
  | .forcedRecordFetch g slot lane => Sys2Proof.Machine.execForcedRecordFetch g slot lane s
  | .partnerLost site => Sys2Proof.Machine.execPartnerLost site s
  | .partnerResendDone site => Sys2Proof.Machine.execPartnerResendDone site s
  | .powerOn => Sys2Proof.Machine.execPowerOn s
  | .safelightCandidateWrite isMap bytes => Sys2Proof.Machine.execSafelightCandidateWrite isMap bytes s
  | .spdmNegotiateAlgorithms port asym hash => Sys2Proof.Machine.execSpdmNegotiateAlgorithms port asym hash s
  | .spdmGetMeasurements port index => Sys2Proof.Machine.execSpdmGetMeasurements port index s
  | .waitmemMonitorWake pkt => Sys2Proof.Machine.execWaitmemMonitorWake pkt s
  | .powerLoss => Sys2Proof.Machine.execPowerLoss s
  | .hostPortTraining port up => Sys2Proof.Machine.execHostPortTraining port up s

end Sys2Proof.Machine
end

