-- ==== Sys2Proof/Machine/Schedule.lean ====
section
/-!
DEFINITION. Which agent moves next, and the clock. Within a clock every visit of the barrels is made first; then engines and the outside
act; then the next clock begins. The spec leaves the interleaving of the agents open; this model is one deterministic machine: what stands
on the agenda moves first, as chosen from outside; else an unbooted package powers on; else a visit is made; else an engine's event that is
enabled happens; else the clock goes on. Log entry 2.
-/
namespace Sys2Proof.Machine

/-- The heartbeats of every live site, every 64 ticks (R452). -/
def heartbeats (s : State) : State := if s.clock % 256 = 0 then (liveSites s).foldl heartbeat s else s

/-- The writes to h registers whose clock ends stand (R27, R301). -/
def settleAll (s : State) : State := s.teams.foldl (fun s e => settleH s e.1 e.2) s

/-- The queue engines note which of their queues have become able to begin a packet (R356). -/
def noteQueues (s : State) : State := (liveSites s).foldl noteAble s

/-- The next clock begins: the acknowledgements whose time has come leave, the append to the retirement log takes a step, the sites report
their heartbeats, the queue engines look at their queues, and the barrels go on. Log entry 23 (DESIGN CHOICE). -/
def newClock (s : State) : State :=
  let s1 := settleAll s
  beginVisits (noteQueues (heartbeats (advanceLog (sendAcks { s1 with clock := s1.clock + 1 }))))

/-! ### The events that happen of themselves -/

/-- An event, as what it does to the state. -/
abbrev Event1 := State → Host.Outcome State Fault Refusal

/-- A lane of a group in flight performs. -/
def landing (n uid lane : Nat) : Event1 := fun s => .next (laneLands s n uid lane)

/-- The events of a group's operations, copies, buffers and feed program. -/
def groupEvents (n : Nat) (g : Group) : List Event1 :=
  [execSfuResult n, execTranslationComplete n, execCopyProbeEnd n, execFennelServe n, execWaitaWake n, execWaitaDeadline n, execQputBlockRetry n] ++
    (List.range 4).map (execFeedLoadReturn n) ++ (List.range 7).map (fun c => execOperationRetire n (BitVec.ofNat 3 (c + 1))) ++
    g.ops.flatMap (fun o => [execWriteAcknowledge n o.uid, execStfFlagUpdate n o.uid, execTier2Timeout n o.uid, execBarrierPendLower n o.uid 0]) ++
    g.ops.flatMap (fun o => o.flight.map fun p => landing n o.uid p.acc.lane) ++
    g.copies.map (fun c => execBarrierPendLower n c.uid 128) ++ (g.wcb ++ g.sbuf).map (fun x => execWcbTimeout n x.line.toNat)

/-- The events of a team's quartets and sequence slots. -/
def teamEvents (n : Nat) (t : Team) : List Event1 :=
  t.quartets.flatMap (fun q => [execMatrixCheckEnd n q.1, execMmaFeedTake n q.1, execMmaPassEnd n q.1 true]) ++
    t.seqs.flatMap fun x => x.2.lanes.map fun l => execForcedRecordFetch x.2.owner x.1 l.1

/-- The events of a queue: the beginning of its next packet, whatever its kind. -/
def queueEvents (q : Nat) : List Event1 :=
  [execNopad q, execLaunch q, execCopy q, execWaitmem q, execSignal q, execBind q, execCkpt q, execJctlExport q, execJctlRestart q,
    execJctlForget q, execTdset q, execTlbinv q]

/-- The events of a die's Fixer and its queue engine. -/
def dieEvents (s : State) (site : Nat) (d : Die) : List Event1 :=
  [execSiteLostTimeout site, execPartnerLost site, execPartnerResendDone site] ++
    d.fixer.shadow.flatMap (fun r => [execContactLogRecordArrive site r.1, execJournalRecordAck site r.1]) ++
    ((chosenQueue (noteAble s site) site).map queueEvents).getD [] ++
    (validQueues s site).filterMap fun q => match viewQueue s site q with
      | (_, .bad ..) => some (execNopad q)
      | (t, _) => if t.needs = [] then none else some (execNopad q)

/-- The events of a grid. -/
def gridEvents (s : State) (n : Nat) (g : Grid) : List Event1 :=
  [execGridComplete n, execOrderedCommitPhase n, execOrderedRoundStart n] ++ ((placeCore s n g).map (execTeamPlace n)).toList

/-- The events of a context's pre-emption and error. -/
def ctxEvents (c : Nat) : List Event1 := [execContextErrorStop c, execPreemptRequest c, execPreemptSave c, execRestore c]

/-- The events of what travels: emissions, watermarks, contributions, chunks, sent tiles. -/
def travelEvents (s : State) : List Event1 :=
  s.emissions.flatMap (fun e => [execSinkEmissionArrive e.1, execRingSinkDeliver e.1, execRasterPacketArrive e.1]) ++
    s.watermarks.map (fun e => execRasterWatermarkArrive e.1) ++ s.sinks.flatMap (fun e => [execRasterisePacket e.1, execFrameComplete e.1]) ++
    s.contribs.map (fun e => execCollectiveContribution e.1 (lowestSite s) false true) ++ s.chunks.map (fun e => execChunkResultAck e.1) ++
    s.sends.map fun e => execSendFlagUpdate e.1

/-- The events of faults, packets, checkpoints and accesses of the outside. -/
def otherEvents (s : State) : List Event1 :=
  s.faults.flatMap (fun e => [execFaultQueueRetry e.1, execFaultResponse e.1]) ++
    s.packets.flatMap (fun e => [execPacketComplete e.1, execWaitmemMonitorWake e.1]) ++ s.held.map (fun e => execRinseDrain e.1) ++
    s.hostWrites.map (fun e => execHostWritePerform e.1) ++ s.fabOut.flatMap (fun e => [execFabricTimeout e.1, refuseOwn e.1]) ++
    s.fabIn.map fun x s => .next (fabTry s x)

/-- The events that may be enabled. Log entry 79 (DESIGN CHOICE). -/
def ownEvents (s : State) : List Event1 :=
  s.groups.flatMap (fun e => groupEvents e.1 e.2) ++ s.teams.flatMap (fun e => teamEvents e.1 e.2) ++
    s.grids.flatMap (fun e => gridEvents s e.1 e.2) ++ travelEvents s ++ otherEvents s ++ (List.range 64).flatMap ctxEvents ++
    s.dies.flatMap fun e => dieEvents s e.1 e.2

/-- What an event makes of the state, where it changes it: it is enabled. -/
def happens (s : State) (e : Event1) : Option State :=
  match e s with
  | .next t => let u := atOnce s t; if u = s then none else some u
  | _ => none

/-- The state after the event that happens next of itself: the first that is enabled, from a place in the list that moves with every
step. -/
def internalEvent (s : State) : Option State :=
  let es := ownEvents s
  let k := s.draws % max 1 es.length
  (es.drop k ++ es.take k).findSome? (happens s)

/-! ### Moves -/

/-- A move: the state that stands where the move lacks something, the state in which its instruction or event is executed, if any, and the
visit that it is part of, with the stage at which the visit goes on. -/
structure Move where
  base : State
  state : State
  instr : Option Instr := none
  visit : Option (Visit × Option Nat) := none

/-- A visit out of a list: of the access visits of one core the first listed, so that they are made partition by partition (R267) and in
the order of R295. -/
def popVisit (vs : List Visit) (k : Nat) : Option (Visit × List Visit) :=
  (vs[k]?.or vs.head?).map fun v =>
    let u := (vs.find? fun x => v.access && x.access && x.core == v.core).getD v
    (u, vs.erase u)

/-- A visit is made. -/
def visitMove (s : State) (v : Visit) (rest : List Visit) : Move :=
  let s1 := { s with visits := rest }
  let l := lookAt s1 v
  { base := s1, state := l.state, instr := l.instr, visit := some (v, l.again) }

/-- The first visit that is left of the clock, or with none left the move m. -/
def firstVisit (s : State) (m : Move) : Move :=
  match popVisit s.visits 0 with
  | some (v, rest) => visitMove s v rest
  | none => m

/-- A move that executes nothing. -/
def Move.still (base s : State) : Move := { base := base, state := s }

/-- The step's free values are drawn. -/
def draw (s : State) : State := { s with draws := s.draws + 1 }

/-- The accesses of group g take time, or not. -/
def setLate (s : State) (g : Nat) (on : Bool) : State :=
  { s with late := if on then (if s.late.contains g then s.late else g :: s.late) else s.late.filter (· != g) }

/-- The move that the agenda asks for, with the rest of the agenda. -/
def askedMove (s : State) (a : Action) (rest : List Action) : Move :=
  let s1 := { s with agenda := rest }
  match a with
  | .visit k =>
    match popVisit s.visits k with
    | some (v, vs) => visitMove s1 v vs
    | none => .still s1 (newClock s1)
  | .late g on => .still s1 (setLate s1 g on)
  | .feed n => firstVisit s (let r := moveFeed s1 n; { base := s1, state := r.1, instr := r.2 })
  | .event i => firstVisit s { base := s1, state := s1, instr := some i }
  | .lane g op lane => firstVisit s (.still s1 (laneLands s1 g op lane))

/-- The next move. With nothing asked for and no visit left, an event happens of itself, and at every eighth draw or where none is enabled
the next clock begins. Log entry 2 (DESIGN CHOICE). -/
def nextMove (s : State) : Move :=
  let s1 := draw s
  match s1.agenda with
  | a :: rest => askedMove s1 a rest
  | [] =>
    if s1.phase = .unbooted then { base := s1, state := s1, instr := some .powerOn }
    else
      firstVisit s1
        (if s1.draws % 8 = 0 then .still s1 (newClock s1)
        else match internalEvent s1 with
          | some t => .still s1 t
          | none => .still s1 (newClock s1))

/-- The group has moved between two states. -/
def hasMoved (s t : State) (n : Nat) : Bool :=
  let seen (s : State) : Option Group := (tblGet s.groups n).map fun g => { g with stopped := false }
  seen s != seen t

/-- The state after a move has come to t: its visit goes on, or where its group has moved the access barrel has served it (R295). -/
def afterVisit (m : Move) (t : State) : State :=
  match m.visit with
  | none => t
  | some (v, some k) => { t with visits := { v with stage := k } :: t.visits }
  | some (v, none) => if v.access && hasMoved m.base t v.group then noteServed v t else t

/-- A group of one lane width 64 resident with one clause dispatched: what `State.withFetchWord` places. The clause of `len` words stands
at address 0x10000 of a context whose page table maps its first 1 GiB to name 0, bound to site 0. Log entry 22. -/
def placedMem (words : List Nat) (code : Nat) : Cells 8 :=
  let m0 := writeNum [] 0x1000 8 (2 ^ 63 + 0x2000)            -- context 0: PTROOT, the node at 0x2000 of name 0
  let m1 := writeNum m0 0x1008 2 1                             -- ASID 1
  let m2 := writeNum m1 0x100A 1 3                             -- V, PRIV
  let m3 := writeNum m2 0x2000 8 (2 ^ 63 + 0x3000)             -- L4 entry 0
  let m4 := writeNum m3 0x3000 8 (2 ^ 63 + 0x4000)             -- L3 entry 0
  let m5 := writeNum m4 0x4000 8 (2 ^ 63 + 2 ^ 59 + 2 ^ 58 + 2 ^ 57)   -- L2 entry 0: a 1 GiB leaf, LOCAL, A, W
  let m6 := writeNum m5 0x8000 8 (2 ^ 63)                      -- name 0: site 0, LBASE 0
  let m7 := writeNum m6 0x10000 4 (code * 16 + words.length)   -- the clause header
  (List.range words.length).foldl (fun m i => writeNum m (0x10004 + 4 * i) 4 (words.getD i 0)) m7

/-- A device address of site 0. -/
def placedDie : Die := { freshDie with qtable := 0x1000, nametbl := 0x8000 }

end Sys2Proof.Machine
end

