-- ==== Sys2Proof/Machine/Step.lean ====
section
/-!
DEFINITION. One step of the machine: the next move is chosen and made.
-/
namespace Sys2Proof.Machine

/-- What a move comes to once its instruction or event has answered r: a move that lacks a line or a peer's answer is not made (R334,
R419). -/
def finishMove (m : Move) (r : Host.Outcome State Fault Refusal) : Host.Outcome State Fault Refusal :=
  match r with
  | .next t => .next (atOnce m.base (afterVisit m t))
  | .fault f => .fault f
  | .refused r => .refused r

/-- One step: the chosen instruction or event is executed in the state in which it is chosen; a move that executes none (a wait, a trap at
the fetch) is itself the step. -/
def step (s : State) : Host.Outcome State Fault Refusal :=
  let m := nextMove s
  finishMove m (match m.instr with
    | none => .next m.state
    | some i => exec i m.state)

/-- The state of a package in which group 1 of one team runs: what `State.withFetchWord` builds on. -/
def placed (s : State) (mem : Cells 8) (g : Group) (visits : List Visit) (next : Action) : State :=
  { s with
    phase := .running
    mem := mem
    dies := [(0, placedDie)]
    trays := [(0, freshTray)]
    cores := [(0, freshCore)]
    teams := [(1, freshTeam 0 0 0 0 0 0 64 0 false false [1] [0])]
    groups := [(1, g)]
    cur := 1
    visits := visits
    agenda := [next] }

/-- s with the instruction of bits w placed where the next step fetches: in a clause of its class, dispatched by group 1, which its
barrel visits next; a feed word as the next word of group 1's feed program, which Fennel serves next. A program comes to run from reset as log entry 22
says. Log entry 22 (DESIGN CHOICE). -/
def State.withFetchWord (s : State) (nbits w : Nat) : State :=
  let bits := w % 2 ^ nbits
  let w0 := bits % 2 ^ 32
  let words := if isLong w0 then [w0, bits / 2 ^ 32 % 2 ^ 32] else [w0]
  let cls := classOf (num w0 25 7)
  let g := freshGroup 1 0 64 0x10000 []
  match decodeWords w0 (words.getD 1 0), decodeFeed w0 with
  | .error _, .ok _ =>
    placed s (placedMem [w0] 0) { g with feed := some (freshFeed 0x10004 [BitVec.ofNat 32 w0, 0x40000000] 15 [] 0) } [] (.feed 1)
  | _, _ =>
    placed s (placedMem words cls.code) { g with hdr := some { cls := cls, count := words.length, waits := [] } }
      [{ core := 0, part := 0, slot := 0, access := onAccess cls, group := 1, waits := false, stage := 2 }] (.visit 0)

end Sys2Proof.Machine
end

