-- ==== Sys2Proof/Safety.lean ====
section
/-!
DEFINITION. What counts as a safe run, and the terms in which claims say what an instruction does to the machine: what must hold for it to
complete, what it leaves in the selected group, and what it leaves alone.
-/
namespace Sys2Proof

open Machine

/-- The outcome is a next state. -/
def Completes (r : Host.Outcome State Fault Refusal) : Prop := ∃ t, r = .next t

/-- A run of k steps meets no fault and no refusal. -/
def SafeFor : Nat → State → Prop
  | 0, _ => True
  | k + 1, s => ∃ t, step s = .next t ∧ SafeFor k t

/-- The instruction is a word of a feed program (R220), whose encoding space is its own (R70). -/
def isFeedWord : Instr → Bool
  | .fld .. | .flds .. | .floop _ | .floopReg _ | .fstep .. | .fstepReg .. | .fend | .fsync => true
  | _ => false

/-- The group that moves in s is g. -/
def Selected (s : State) (g : Group) : Prop := tblGet s.groups s.cur = some g

/-- The source fields `cs` find their feed-queue entries present, and no long MMA of the quartet still takes entries of a queue that they
name (R30, R207). -/
def FeedsReady (s : State) (g : Group) (cs : List SrcCode) : Prop :=
  ((List.range 4).any fun q => needOf cs q != 0 && mmaTakes s g q) = false ∧ feedGate g cs = .ready

/-- g' stands where g stands once an instruction of `words` words has issued (R41, R47). -/
def AtNext (words : Nat) (g g' : Group) : Prop :=
  g'.pc = (advance words g).pc ∧ g'.hdr = (advance words g).hdr ∧ g'.idx = (advance words g).idx ∧
    g'.entered = (advance words g).entered ∧ g'.clauses = (advance words g).clauses ∧ g'.captured = none

/-- The lanes of mask m below GWIDTH take the values f in vector register r; every other lane of every register keeps its value. -/
def LanesTake (g g' : Group) (m : Word64) (r : Nat) (f : Nat → Word) : Prop :=
  ∀ k, cellGet g'.v k = if k / 64 = r ∧ k % 64 < g.width ∧ m.getLsbD (k % 64) then f (k % 64) else cellGet g.v k

/-- The queue in use takes the entry f: it becomes q0, each older entry ages by one, and the oldest is lost; the other queue is as it was
(R22, R39). -/
def QueueTakes (g g' : Group) (f : Nat → Word) : Prop :=
  (∀ i l, i < 16 → l < 64 → readQ g' i l = if i = 0 then (if l < g.width then f l else 0) else readQ g (i - 1) l) ∧
    (if g.handler then g'.q = g.q else g'.hq = g.hq)

/-- The same for two entries pushed one after the other: `lo`, then `hi` (R23). -/
def QueueTakesTwo (g g' : Group) (lo hi : Nat → Word) : Prop :=
  (∀ i l, i < 16 → l < 64 → readQ g' i l =
    if i = 0 then (if l < g.width then hi l else 0) else if i = 1 then (if l < g.width then lo l else 0) else readQ g (i - 2) l) ∧
    (if g.handler then g'.q = g.q else g'.hq = g.hq)

/-- The lanes of mask m below GWIDTH take the bits f in predicate p, the lanes outside m keep theirs, and every other predicate keeps its
value (R18). -/
def PredicateTakes (g g' : Group) (m : Word64) (p : Nat) (f : Nat → Bool) : Prop :=
  (∀ l, l < 64 → (cellGet g'.p p).getLsbD l = (decide (l < g.width) && if m.getLsbD l then f l else (cellGet g.p p).getLsbD l)) ∧
    ∀ j, j ≠ p → cellGet g'.p j = cellGet g.p j

/-- Only these parts of the group may differ: the vector registers, the predicates, the queues, the record of contested registers, the
floating-point flags, the feed queues, and its place in the code, at which no captured operands are left. -/
def VectorFrame (g g' : Group) : Prop :=
  g' = { g with
    v := g'.v, p := g'.p, q := g'.q, hq := g'.hq, contested := g'.contested, fpflags := g'.fpflags, feed := g'.feed
    pc := g'.pc, hdr := g'.hdr, idx := g'.idx, entered := g'.entered, clauses := g'.clauses, captured := g'.captured }

/-- The destination d of a 32-bit vector result takes r in the lanes of m (R18, R22, R24, R62): a vector register, whose whole new value is
pushed; a predicate; a push alone; or nothing. -/
def DestTakes (g g' : Group) (m : Word64) (d : BitVec 6) (r : Nat → Word) : Prop :=
  if d.toNat < 48 then LanesTake g g' m d.toNat r ∧ g'.p = g.p ∧ QueueTakes g g' fun l => cellGet g'.v (laneCell d.toNat l)
  else if d.toNat < 60 then
    PredicateTakes g g' m (d.toNat - 48) (fun l => r l != 0) ∧ g'.v = g.v ∧ g'.q = g.q ∧ g'.hq = g.hq ∧ g'.contested = g.contested
  else if d.toNat = 60 then
    (QueueTakes g g' fun l => if m.getLsbD l then r l else 0) ∧ g'.v = g.v ∧ g'.p = g.p ∧ g'.contested = g.contested
  else g'.v = g.v ∧ g'.p = g.p ∧ g'.q = g.q ∧ g'.hq = g.hq ∧ g'.contested = g.contested

/-- The destination d of a 64-bit vector result takes r in the lanes of m: a register pair, low half first, with both halves pushed; two
pushes alone; or nothing (R19, R23). -/
def DestTakes64 (g g' : Group) (m : Word64) (d : BitVec 6) (r : Nat → Word64) : Prop :=
  g'.p = g.p ∧
  if d.toNat < 48 then
    (∀ k, cellGet g'.v k =
      if k / 64 = d.toNat + 1 ∧ k % 64 < g.width ∧ m.getLsbD (k % 64) then (r (k % 64)).extractLsb' 32 32
      else if k / 64 = d.toNat ∧ k % 64 < g.width ∧ m.getLsbD (k % 64) then (r (k % 64)).extractLsb' 0 32
      else cellGet g.v k) ∧
    QueueTakesTwo g g' (fun l => cellGet g'.v (laneCell d.toNat l)) fun l => cellGet g'.v (laneCell (d.toNat + 1) l)
  else if d.toNat = 60 then
    QueueTakesTwo g g' (fun l => if m.getLsbD l then (r l).extractLsb' 0 32 else 0)
      (fun l => if m.getLsbD l then (r l).extractLsb' 32 32 else 0) ∧ g'.v = g.v ∧ g'.contested = g.contested
  else g'.v = g.v ∧ g'.q = g.q ∧ g'.hq = g.hq ∧ g'.contested = g.contested

/-- A vector instruction of `words` words completes (R109): destination d takes r in the lanes of ACTIVE, the flags fl of those lanes
are set in FPFLAGS, the entries that its source fields pop leave their feed queues, the group goes on to the next word, and nothing else
of the machine changes. -/
def VectorDone (s t : State) (g : Group) (words : Nat) (gd : BitVec 5) (d : BitVec 6) (srcs : List SrcCode) (r : Nat → Word)
    (fl : Nat → Fp.Flags) : Prop :=
  ∃ g', t = s.putGroup s.cur g' ∧ VectorFrame g g' ∧ DestTakes g g' (active g gd) d r ∧
    g'.fpflags = g.fpflags ||| BitVec.ofNat 32 (laneFlags g.width (active g gd) fl % 128) ∧
    g'.feed = (popAll srcs g).feed ∧ AtNext words g g'

/-- The same for an instruction that raises no flags. -/
def PlainDone (s t : State) (g : Group) (words : Nat) (gd : BitVec 5) (d : BitVec 6) (srcs : List SrcCode) (r : Nat → Word) : Prop :=
  ∃ g', t = s.putGroup s.cur g' ∧ VectorFrame g g' ∧ DestTakes g g' (active g gd) d r ∧ g'.fpflags = g.fpflags ∧
    g'.feed = (popAll srcs g).feed ∧ AtNext words g g'

/-- The same for a 64-bit result. -/
def WideDone (s t : State) (g : Group) (words : Nat) (gd : BitVec 5) (d : BitVec 6) (srcs : List SrcCode) (r : Nat → Word64) : Prop :=
  ∃ g', t = s.putGroup s.cur g' ∧ VectorFrame g g' ∧ DestTakes64 g g' (active g gd) d r ∧ g'.fpflags = g.fpflags ∧
    g'.feed = (popAll srcs g).feed ∧ AtNext words g g'

/-- The same for a special-function instruction (R293): the group is unready until R + 2 clocks later, R the length of the compute rotation
in its partition of its core. -/
def SfuDone (s t : State) (g : Group) (words : Nat) (gd : BitVec 5) (d : BitVec 6) (srcs : List SrcCode) (r : Nat → Word)
    (fl : Nat → Fp.Flags) : Prop :=
  ∃ u g', VectorDone s u g words gd d srcs r fl ∧ tblGet u.groups s.cur = some g' ∧
    t = u.putGroup s.cur { g' with sfuUntil := sfuReady s g } ∧
    ∀ m, teamOf s g = some m → sfuReady s g = s.clock + rotationLength s (coreNum m.site m.core) (g.grpid % 4) + 2

/-- A whole predicate is written (R18): its bits below GWIDTH take f, the bits above read 0. -/
def MaskDone (s t : State) (g : Group) (words : Nat) (d : BitVec 6) (srcs : List SrcCode) (f : Nat → Bool) : Prop :=
  ∃ g', t = s.putGroup s.cur g' ∧ VectorFrame g g' ∧ PredicateTakes g g' (BitVec.allOnes 64) (d.toNat - 48) f ∧ g'.v = g.v ∧ g'.q = g.q ∧
    g'.hq = g.hq ∧ g'.contested = g.contested ∧ g'.fpflags = g.fpflags ∧ g'.feed = (popAll srcs g).feed ∧ AtNext words g g'

/-- Only these parts of the group may differ: its uniform registers, the record of contested registers, and its place in the code. -/
def UniformFrame (g g' : Group) : Prop :=
  g' = { g with
    s := g'.s, k := g'.k, contested := g'.contested
    pc := g'.pc, hdr := g'.hdr, idx := g'.idx, entered := g'.entered, clauses := g'.clauses, captured := g'.captured }

/-- The uniform registers s take the values x where `at_` says so; in handler mode s0 to s7 are k0 to k7 (R39). -/
def UniformTakes (g g' : Group) (x : Nat → Option Word) : Prop :=
  (∀ k, cellGet g'.s k = if g.handler ∧ k < 8 then cellGet g.s k else (x k).getD (cellGet g.s k)) ∧
    ∀ k, cellGet g'.k k = if g.handler ∧ k < 8 then (x k).getD (cellGet g.k k) else cellGet g.k k

/-- Register h r of group g's team is written with x by group n (R21, R26 to R28, R301): x joins the writes to r of the clock in which the
write stands, the next one for an instruction of the compute barrel, and is the one that remains there unless a write of higher rank is
among them; what outstanding operations of the team write to r is in doubt. -/
def SharedWritten (s t : State) (g : Group) (n words r : Nat) (x : Word) : Prop :=
  let due := if fromCompute g false then s.clock + 1 else s.clock
  t = { s with teams := t.teams, groups := t.groups } ∧
  (∀ k, k ≠ g.team → tblGet t.teams k = tblGet s.teams k) ∧
  (∀ m, tblGet s.teams g.team = some m → ∃ m' w, tblGet t.teams g.team = some m' ∧ m' = { m with hNew := m'.hNew } ∧
    tblGet m'.hNew (16 * due + r % 16) = some w ∧ (∀ k, k ≠ 16 * due + r % 16 → tblGet m'.hNew k = tblGet m.hNew k) ∧
    (match tblGet m.hNew (16 * due + r % 16) with
      | none => w = { value := x, rank := hRank g false, groups := [n] }
      | some e => w = { value := if e.rank ≤ hRank g false then x else e.value, rank := max e.rank (hRank g false), groups := n :: e.groups })) ∧
  tblGet t.groups n = some (advance words { g with contested := g.contested ++ contestedBy g [.h r] }) ∧
  ∀ k, k ≠ n → tblGet t.groups k = (tblGet s.groups k).map fun e =>
    if e.team = g.team then { e with contested := e.contested ++ contestedBy e [.h r] } else e

/-- A uniform instruction of `words` words completes with x in destination d (R25, R63, R137): a register of the group, and nothing else
of the machine changes; or a register h of its team. -/
def UniformDone (s t : State) (g : Group) (words : Nat) (d : BitVec 6) (x : Word) : Prop :=
  if d.toNat < 32 then
    ∃ g', t = s.putGroup s.cur g' ∧ UniformFrame g g' ∧ UniformTakes g g' (fun k => if k = d.toNat then some x else none) ∧
      AtNext words g g'
  else SharedWritten s t g s.cur words (d.toNat - 32) x

/-- A uniform instruction with a 64-bit result completes: an even pair, low half first. -/
def UniformDone64 (s t : State) (g : Group) (words : Nat) (d : BitVec 6) (x : Word64) : Prop :=
  ∃ g', t = s.putGroup s.cur g' ∧ UniformFrame g g' ∧
    UniformTakes g g'
      (fun k => if k = d.toNat + 1 then some (x.extractLsb' 32 32) else if k = d.toNat then some (x.extractLsb' 0 32) else none) ∧
    AtNext words g g'

/-- Instruction i issues as operation o with the captured operands of its lanes, to write `dests` later (R20, R21, R33): its counter, CL
where a lane addresses a cluster stash (R153), rises by one, the operation is the youngest on it under a fresh number, relaxed within a
transaction (R332), and its access begins. -/
def issued (s : State) (g : Group) (i : Instr) (o : Op) (lanes : List LaneAcc) (dests : List Reg) : State :=
  let c := counterFor o lanes
  let o1 := { o with
    uid := s.fresh, ctr := c, words := wordsOf i, lanes := lanes, dests := dests, order := if g.tx.isSome then .rlx else o.order }
  let g1 := { g with
    ctr := g.ctr.set (c.ident - 1) (counter g c.ident + 1)
    ops := g.ops ++ [o1]
    contested := g.contested ++ g.ops.flatMap fun p =>
      if p.ctr = c then [] else (dests.filter fun r => p.dests.contains r).flatMap fun r => [(p.uid, r), (s.fresh, r)] }
  beginOp ({ s with fresh := s.fresh + 1 }.putGroup s.cur g1) s.cur s.fresh

/-- The counter that the operation would take has room (R33). -/
def CounterFree (g : Group) (o : Op) (lanes : List LaneAcc) : Prop := counter g (counterFor o lanes).ident < 63

end Sys2Proof
end

