-- ==== Sys2Proof/Certificates/Slice0/Obligations.lean ====
section
/-!
DEFINITION. The statements for the provers. Each says which rule of the spec it formalises; s is any state, and g the group that moves in
it.
-/
open Sys2Proof Sys2Proof.Machine

/-! ### Steps, decoding and encoding -/

/-- R41, R45 to R48, R71, R289, R290: a visit that the agenda asks for, or with an empty agenda the first visit that is left of the clock, is
the next move. Where the group that it looks at waits for nothing, its clause belongs to the visiting barrel and has its wait conditions
met, and neither a transaction, an ordered quantum nor a pre-emption holds the group, it fetches the word at its place. Where the words
there decode to an instruction of the clause's class that may stand there, that instruction is well-formed, and the step is its meaning in
the state that the fetch leaves. What the step adds is `finishMove`: a slot's access visit is over once its group has moved, and a move that
lacks a line or a peer's answer is not made. The order of moves is the model's choice (log entry 2). R219 to R221: where the agenda lets
Fennel run a word of a group's program, no visit of the clock is left, and the group's turn has come in the round robin of its partition's
programs, the step is the meaning of the word at the program's place, with the group selected. -/
def Obligations.StepRunsTheDecodedInstruction : Prop :=
  (
    (∀ (s : State) (k : Nat) (rest : List Action) (v : Visit) (vs : List Visit),
      s.agenda = .visit k :: rest → popVisit s.visits k = some (v, vs) → nextMove s = visitMove { draw s with agenda := rest } v vs) ∧
    (∀ (s : State) (v : Visit) (vs : List Visit),
      s.agenda = [] → s.phase ≠ .unbooted → popVisit s.visits 0 = some (v, vs) → nextMove s = visitMove (draw s) v vs) ∧
    ∀ (s b u s1 s2 : State) (v : Visit) (vs : List Visit) (len w0 w1 : Nat) (g : Group) (h : Header) (i : Instr),
      nextMove s = visitMove b v vs → u = { b with visits := vs, cur := v.group } → tblGet u.groups v.group = some g →
      g.ended = false → g.stopped = false → stopping u g = false → (v.waits = false ∨ v.stage ≠ 0) → g.wait = .none → g.turn = .idle →
      g.sfuUntil ≤ u.clock → g.hdr = some h → onAccess h.cls = v.access →
      (g.entered = true ∨ waitsMet g h = true ∧ raiseAtHeader u v.group g h = none) → g.tx = none → heldByPhase u g = false →
      fetchWord u v.group g (wordAddr g g.idx).toNat = (s1, some w0) → wordsHere g w0 = some len →
      fetchSecond s1 v.group g len = (s2, some w1) → decodeWords w0 w1 = .ok i → placeOk g h w0 len i = true → orderedMode s2 g = false →
      let at_ := s2.putGroup v.group (enter i g)
      i.WellFormed ∧
        step s = finishMove { base := { b with visits := vs }, state := at_, instr := some i, visit := some (v, none) } (exec i at_)) ∧
  (
    ∀ (s b : State) (n : Nat) (rest : List Action) (g : Group) (f : Feed) (i : Instr),
      s.agenda = .feed n :: rest → s.visits = [] → b = { draw s with agenda := rest } → feedTurn b n = true →
      tblGet b.groups n = some g → g.feed = some f → decodeFeed (f.words.getD f.place.pos 0).toNat = .ok i →
      let at_ := { noteFed b n with cur := n }
      i.WellFormed ∧ step s = finishMove { base := b, state := at_, instr := some i } (exec i at_))

/-- R46, R71: a word that decodes to no instruction of its class at its place raises the illegal-instruction trap, 0x02, with the words in
TRAPINFO; the step is the entry of that trap. -/
def Obligations.StepTrapsOnIllegalWord : Prop :=
  ∀ (s b u s1 s2 : State) (v : Visit) (vs : List Visit) (len w0 w1 : Nat) (g : Group) (h : Header),
    nextMove s = visitMove b v vs → u = { b with visits := vs, cur := v.group } → tblGet u.groups v.group = some g →
    g.ended = false → g.stopped = false → stopping u g = false → (v.waits = false ∨ v.stage ≠ 0) → g.wait = .none → g.turn = .idle →
    g.sfuUntil ≤ u.clock → g.hdr = some h → onAccess h.cls = v.access → g.entered = true → heldByPhase u g = false →
    fetchWord u v.group g (wordAddr g g.idx).toNat = (s1, some w0) → wordsHere g w0 = some len →
    fetchSecond s1 v.group g len = (s2, some w1) → (∀ i, decodeWords w0 w1 = .ok i → placeOk g h w0 len i = false) →
    let at_ := trapAt s2 v.group 0x02 (BitVec.ofNat 64 (w0 % 2 ^ 32 + 2 ^ 32 * (w1 % 2 ^ 32)))
    step s = finishMove { base := { b with visits := vs }, state := at_, visit := some (v, none) } (.next at_)

/-- The words that the spec writes out decode to the instructions it writes them for: R67 to R70 with the worked encodings of the instruction
chapters. -/
def Obligations.SpecWordsDecode : Prop :=
  decodeWords 0x68F0E404 0 = .ok (.rng 15 3 72 4) ∧
  decodeWords 0xF8F00500 0x40000000 = .ok (.sopenReplay 15 0 10) ∧
  decodeWords 0xFAF04A48 0 = .ok (.semit 15 0 1 20 72 false) ∧
  decodeWords 0xEAF52246 0 = .ok (.qput 20 68 70 false) ∧
  decodeWords 0x60F00000 0 = .ok (.bart 0) ∧
  decodeWords 0x3EF00002 0 = .ok .exit ∧
  decodeWords 0x34FC0080 0 = .ok (.exsetAndn 48) ∧
  decodeWords 0xFCF52880 0 = .ok (.diagrd 20 81 0 0) ∧
  decodeFeed 0x2000000C = .ok (.floop 12) ∧ decodeFeed 0x40000000 = .ok .fend

/-- R48 to R54 and the encodings of every clause instruction: the words that the encoder gives a well-formed instruction decode to that
instruction, with every operand at every value that the encoding admits. -/
def Obligations.DecodeInvertsEncode : Prop :=
  ∀ i : Instr, i.WellFormed →
    (∀ w0 w1, encode i = [w0, w1] → isLong w0 = true ∧ decodeWords w0 w1 = .ok i) ∧
    (∀ w, encode i = [w] → isFeedWord i = false → isLong w = false ∧ decodeWords w 0 = .ok i)

/-- The other direction: words that decode to an instruction are the words that the encoder gives it, so that no instruction has two encodings
and no bit of a word is ignored. R70, R220: the feed words' own encoding space, both ways. -/
def Obligations.EncodeInvertsDecode : Prop :=
  (
    ∀ (w0 w1 : Nat) (i : Instr), w0 < 2 ^ 32 → w1 < 2 ^ 32 → (isLong w0 = false → w1 = 0) → decodeWords w0 w1 = .ok i →
      i.WellFormed ∧ encode i = if isLong w0 then [w0, w1] else [w0]) ∧
  (
    (∀ (i : Instr) (w : Nat), i.WellFormed → isFeedWord i = true → encode i = [w] → decodeFeed w = .ok i) ∧
    ∀ (w : Nat) (i : Instr), w < 2 ^ 32 → decodeFeed w = .ok i → isFeedWord i = true ∧ encode i = [w])

/-- R42 to R44: a header is legal exactly where CLASS names a class, COUNT is 1 to 15, bit [7] is 0, and a wait condition that names no
counter has threshold 0; it then gives the class, the count, and the conditions that name a counter. -/
def Obligations.LegalHeaders : Prop :=
  ∀ w : Nat, w < 2 ^ 32 →
    let wait (k : Nat) : Nat × Nat := (w / 2 ^ (8 * k) % 8, w / 2 ^ (8 * k + 3) % 32)
    let legal := w / 16 % 8 ≤ 5 ∧ w % 16 ≠ 0 ∧ w / 128 % 2 = 0 ∧ ∀ k, 1 ≤ k → k ≤ 3 → (wait k).1 = 0 → (wait k).2 = 0
    (¬ legal → decodeHeader w = none) ∧
    (legal → ∃ h, decodeHeader w = some h ∧ h.cls.code = w / 16 % 8 ∧ h.count = w % 16 ∧
      h.waits = [wait 1, wait 2, wait 3].filter fun x => x.1 != 0)

/-- R15: what a group holds when the launcher makes it resident, with the arguments that its launch record assigns. -/
def Obligations.GroupStartState : Prop :=
  ∀ (team grpid width : Nat) (pc : Word64) (args : List Word),
    let g := freshGroup team grpid width pc args
    (∀ l, l < 64 → g.exec.getLsbD l = decide (l < width)) ∧ (∀ p, cellGet g.p p = 0) ∧ (∀ k, cellGet g.v k = 0) ∧ (∀ i l, readQ g i l = 0) ∧
    (∀ i, cellGet g.s i = args.getD i 0) ∧ (∀ r, cellGet g.k r = 0) ∧ (∀ q, feedQueue g q = []) ∧ g.feed = none ∧ (∀ i, counter g i = 0) ∧ g.fpflags = 0 ∧
    g.handler = false ∧ g.tx = none ∧ g.width = width ∧ g.pc = pc ∧ g.hdr = none

/-- Memory after reset is in canonical form. That it lists nothing is the model's choice (log entry 1). -/
def Obligations.ResetMemoryCanonical : Prop := Memory.wf State.reset.mem = true ∧ ∀ a, readByte State.reset.mem a = 0

/-- Every step that answers a next state keeps the canonical form of memory: locations rise strictly, and no listed byte is 0. -/
def Obligations.StepKeepsMemoryCanonical : Prop :=
  ∀ s t : State, Memory.wf s.mem = true → step s = .next t → Memory.wf t.mem = true

/-- R312, R318: a write performed at a line's home puts its bytes where the line is held (log entry 24 on bound lines), changes no other byte
unless a full slice of the memory-side cache must write a line back to make room (R383: the dirty side table; log entry 89), and takes as
its completion time the later of LEASECLK and the latest lease granted on the line. -/
def Obligations.PerformedWriteLands : Prop :=
  ∀ (s : State) (loc : Nat) (bs : List Byte),
    let r := performWrite s loc bs
    readBytes r.1.mem (locate s loc) bs.length = bs ∧
    (∀ a, victimOf s (lineOf loc) = none ∨ locate s loc ≠ loc ∨ isHbm (128 * lineOf loc) = false →
      (a < locate s loc ∨ locate s loc + bs.length ≤ a) → readByte r.1.mem a = readByte s.mem a) ∧
    r.2 = max (ticks s) ((tblGet s.leases (lineOf loc)).getD 0) ∧ tblGet r.1.lineC (lineOf loc) = some r.2 ∧
    r.1.groups = s.groups ∧ r.1.teams = s.teams ∧ r.1.leases = s.leases

/-! ### Vector and uniform instructions

What "done" says of each (Safety): the lanes of ACTIVE take the result, the whole new register is pushed, the other destinations behave as
R18, R22 and R24 say, the popped feed entries leave their queues, the group goes on to the next word, and nothing else of the machine
changes.
-/

/-- R116: the integer instructions, short, long and of 64 bits. E is the exact result over integers; T reads sources as signed or unsigned.
R116: the 64-bit shifts, by a 32-bit unsigned source; SHL64 and SHR64.n64 give 0 when n ≥ 64, and SHR64.i64 copies of a[63]. -/
def Obligations.IntegerArithmetic : Prop :=
  (
    ∀ (s : State) (g : Group), Selected s g →
      (∀ (gd : BitVec 5) (d : BitVec 6) (a b : BitVec 7), FeedsReady s g [(a, false), (b, false)] →
        let x (l : Nat) : Word := src32 s g tInt [] a l
        let y (l : Nat) : Word := src32 s g tInt [(a, false)] b l
        let done (i : Instr) (r : Nat → Word) : Prop := ∃ t : State, exec i s = .next t ∧ PlainDone s t g 1 gd d [(a, false), (b, false)] r
        done (.iadd gd d a b) (fun l => x l + y l) ∧ done (.isub gd d a b) (fun l => x l - y l) ∧
        done (.imul gd d a b) (fun l => x l * y l) ∧
        done (.imin gd d a b) (fun l => if (x l).toInt ≤ (y l).toInt then x l else y l) ∧
        done (.imax gd d a b) (fun l => if (x l).toInt ≤ (y l).toInt then y l else x l)) ∧
      (∀ (gd : BitVec 5) (d : BitVec 6) (a : BitVec 7), FeedsReady s g [(a, false)] →
        ∃ t : State, exec (.iabs gd d a) s = .next t ∧ PlainDone s t g 1 gd d [(a, false)] fun l =>
          BitVec.ofInt 32 |(src32 s g tInt [] a l).toInt|) ∧
      (∀ (T : BitVec 2) (sat : Bool) (o : LOps),
        let num (w : Word) : Int := if T = 0 then w.toInt else w.toNat
        let fit (e : Int) : Word :=
          if sat then (if T = 0 then BitVec.ofInt 32 (max (-2 ^ 31) (min (2 ^ 31 - 1) e)) else BitVec.ofInt 32 (max 0 (min (2 ^ 32 - 1) e)))
          else BitVec.ofInt 32 e
        let x (l : Nat) : Int := num (opA s g tInt o l)
        let y (l : Nat) : Int := num (opB s g tInt false o l)
        let z (l : Nat) : Int := num (opC s g tInt o l)
        (FeedsReady s g [(o.a, false), (o.b, false)] →
          let done (i : Instr) (r : Nat → Word) : Prop :=
            ∃ t : State, exec i s = .next t ∧ PlainDone s t g 2 o.g o.d [(o.a, false), (o.b, false)] r
          done (.iaddLong T sat o) (fun l => fit (x l + y l)) ∧ done (.isubLong T sat o) (fun l => fit (x l - y l)) ∧
          done (.imulLong T sat o) (fun l => fit (x l * y l)) ∧
          done (.imulh T o) (fun l => BitVec.ofInt 32 (x l * y l / 2 ^ 32)) ∧
          done (.iminLong T o) (fun l => BitVec.ofInt 32 (min (x l) (y l))) ∧
          done (.imaxLong T o) (fun l => BitVec.ofInt 32 (max (x l) (y l)))) ∧
        (FeedsReady s g [(o.a, false), (o.b, false), (o.c, false)] →
          ∃ t : State, exec (.imad T sat o) s = .next t ∧ PlainDone s t g 2 o.g o.d [(o.a, false), (o.b, false), (o.c, false)] fun l =>
            fit (x l * y l + z l)) ∧
        (FeedsReady s g [(o.a, false)] →
          ∃ t : State, exec (.iabsLong sat o) s = .next t ∧ PlainDone s t g 2 o.g o.d [(o.a, false)] fun l =>
            let e := |(opA s g tInt o l).toInt|
            BitVec.ofInt 32 (if sat then min (2 ^ 31 - 1) e else e))) ∧
      ∀ (o : LOps), FeedsReady s g [(o.a, true), (o.b, true)] →
        let x (l : Nat) : Word64 := opA64 s g o l
        let y (l : Nat) : Word64 := opB64 s g o l
        let done (i : Instr) (r : Nat → Word64) : Prop :=
          ∃ t : State, exec i s = .next t ∧ WideDone s t g 2 o.g o.d [(o.a, true), (o.b, true)] r
        done (.iadd64 o) (fun l => x l + y l) ∧ done (.isub64 o) (fun l => x l - y l) ∧ done (.imul64 o) (fun l => x l * y l)) ∧
  (
    ∀ (s : State) (g : Group) (o : LOps), Selected s g → FeedsReady s g [(o.a, true), (o.b, false)] →
      let x (l : Nat) : Word64 := opA64 s g o l
      let n (l : Nat) : Nat := (opB s g tInt true o l).toNat
      let done (i : Instr) (r : Nat → Word64) : Prop := ∃ t : State, exec i s = .next t ∧ WideDone s t g 2 o.g o.d [(o.a, true), (o.b, false)] r
      done (.shl64 o) (fun l => if 64 ≤ n l then 0 else x l <<< n l) ∧
      done (.shr64 false o) (fun l => if 64 ≤ n l then 0 else x l >>> n l) ∧
      done (.shr64 true o) (fun l => if 64 ≤ n l then (if (x l).msb then BitVec.allOnes 64 else 0) else (x l).sshiftRight (n l)))

/-- R118: logic, shifts and bit counts, short and long. -/
def Obligations.LogicShiftsAndBits : Prop :=
  ∀ (s : State) (g : Group), Selected s g →
    let shl (x : Word) (n : Nat) : Word := if 32 ≤ n then 0 else x <<< n
    let shr (x : Word) (n : Nat) : Word := if 32 ≤ n then 0 else x >>> n
    let sar (x : Word) (n : Nat) : Word := if 32 ≤ n then (if x.msb then BitVec.allOnes 32 else 0) else x.sshiftRight n
    let popc (x : Word) : Word := BitVec.ofNat 32 ((List.range 32).countP fun i => x.getLsbD i)
    let brev (x : Word) : Word := x.reverse
    (∀ (gd : BitVec 5) (d : BitVec 6) (a b : BitVec 7), FeedsReady s g [(a, false), (b, false)] →
      let x (l : Nat) : Word := src32 s g tInt [] a l
      let y (l : Nat) : Word := src32 s g tInt [(a, false)] b l
      let done (i : Instr) (r : Nat → Word) : Prop := ∃ t : State, exec i s = .next t ∧ PlainDone s t g 1 gd d [(a, false), (b, false)] r
      done (.and gd d a b) (fun l => x l &&& y l) ∧ done (.or gd d a b) (fun l => x l ||| y l) ∧
      done (.xor gd d a b) (fun l => x l ^^^ y l) ∧ done (.andn gd d a b) (fun l => x l &&& ~~~(y l)) ∧
      done (.shl gd d a b) (fun l => shl (x l) (y l).toNat) ∧ done (.shr gd d a b) (fun l => shr (x l) (y l).toNat) ∧
      done (.sar gd d a b) (fun l => sar (x l) (y l).toNat)) ∧
    (∀ (gd : BitVec 5) (d : BitVec 6) (a : BitVec 7), FeedsReady s g [(a, false)] →
      let x (l : Nat) : Word := src32 s g tInt [] a l
      let done (i : Instr) (r : Nat → Word) : Prop := ∃ t : State, exec i s = .next t ∧ PlainDone s t g 1 gd d [(a, false)] r
      done (.not gd d a) (fun l => ~~~(x l)) ∧ done (.popc gd d a) (fun l => popc (x l)) ∧
      done (.clz gd d a) (fun l => (x l).clz) ∧ done (.brev gd d a) (fun l => brev (x l))) ∧
    (∀ o : LOps, FeedsReady s g [(o.a, false), (o.b, false)] →
      let x (l : Nat) : Word := opA s g tInt o l
      let y (l : Nat) : Word := opB s g tInt false o l
      let done (i : Instr) (r : Nat → Word) : Prop := ∃ t : State, exec i s = .next t ∧ PlainDone s t g 2 o.g o.d [(o.a, false), (o.b, false)] r
      done (.andLong o) (fun l => x l &&& y l) ∧ done (.orLong o) (fun l => x l ||| y l) ∧ done (.xorLong o) (fun l => x l ^^^ y l) ∧
      done (.andnLong o) (fun l => x l &&& ~~~(y l)) ∧ done (.shlLong o) (fun l => shl (x l) (y l).toNat) ∧
      done (.shrLong o) (fun l => shr (x l) (y l).toNat) ∧ done (.sarLong o) (fun l => sar (x l) (y l).toNat) ∧
      done (.rot o) (fun l => (x l).rotateLeft ((y l).toNat % 32))) ∧
    ∀ o : LOps, FeedsReady s g [(o.a, false)] →
      let x (l : Nat) : Word := opA s g tInt o l
      let done (i : Instr) (r : Nat → Word) : Prop := ∃ t : State, exec i s = .next t ∧ PlainDone s t g 2 o.g o.d [(o.a, false)] r
      done (.notLong o) (fun l => ~~~(x l)) ∧ done (.popcLong o) (fun l => popc (x l)) ∧ done (.clzLong o) (fun l => (x l).clz) ∧
      done (.brevLong o) (fun l => brev (x l))

/-- R119: BFE takes bits [o+w−1:o] of the sign- or zero-extended source; BFI puts the low w bits of a into b from bit o up, and drops those
that would lie at 32 or above. -/
def Obligations.BitFields : Prop :=
  ∀ (s : State) (g : Group) (o : LOps), Selected s g →
    let off (spec : Word) : Nat := spec.toNat % 256
    let width (spec : Word) : Nat := min (spec.toNat / 256 % 256) 32
    (FeedsReady s g [(o.a, false), (o.b, false)] → ∀ sx : Bool,
      ∃ t : State, exec (.bfe sx o) s = .next t ∧ PlainDone s t g 2 o.g o.d [(o.a, false), (o.b, false)] fun l =>
        let x : Int := if sx then (opA s g tInt o l).toInt else (opA s g tInt o l).toNat
        let spec := opB s g tInt false o l
        let r : BitVec (width spec) := BitVec.ofInt (width spec) (x / 2 ^ off spec)
        if sx then r.signExtend 32 else r.setWidth 32) ∧
    (FeedsReady s g [(o.a, false), (o.b, false), (o.c, false)] → ∀ r : Nat → Word,
      (∀ l i, i < 32 → (r l).getLsbD i =
        let spec := opC s g tInt o l
        if off spec ≤ i ∧ i < off spec + width spec then (opA s g tInt o l).getLsbD (i - off spec)
        else (opB s g tInt false o l).getLsbD i) →
      ∃ t : State, exec (.bfi o) s = .next t ∧ PlainDone s t g 2 o.g o.d [(o.a, false), (o.b, false), (o.c, false)] r)

/-- R120 to R122: ICMP writes the outcome of its comparison to a predicate, in its type; SEL moves the bits that the predicate chooses; MOV
and MOVI move bits unchanged. -/
def Obligations.CompareSelectMove : Prop :=
  ∀ (s : State) (g : Group), Selected s g →
    (∀ (cmp : BitVec 3) (T : BitVec 2) (o : LOps),
      let wide := decide (2 ≤ T.toNat)
      FeedsReady s g [(o.a, wide), (o.b, wide)] →
      let holds (l : Nat) : Prop :=
        let x : Int := match T.toNat with
          | 0 => (opA s g tInt o l).toInt
          | 1 => (opA s g tInt o l).toNat
          | 2 => (opA64 s g o l).toInt
          | _ => (opA64 s g o l).toNat
        let y : Int := match T.toNat with
          | 0 => (opB s g tInt false o l).toInt
          | 1 => (opB s g tInt false o l).toNat
          | 2 => (opB64 s g o l).toInt
          | _ => (opB64 s g o l).toNat
        match cmp.toNat with
        | 0 => x = y
        | 1 => x ≠ y
        | 2 => x < y
        | 3 => x ≤ y
        | 4 => x > y
        | _ => x ≥ y
      ∀ r : Nat → Word, (∀ l, (holds l → r l = 1) ∧ (¬ holds l → r l = 0)) →
        ∃ t : State, exec (.icmp cmp T o) s = .next t ∧ PlainDone s t g 2 o.g o.d [(o.a, wide), (o.b, wide)] r) ∧
    (∀ (pneg : Bool) (pr : BitVec 4) (o : LOps),
      let taken (l : Nat) : Bool := (cellGet g.p pr.toNat).getLsbD l ^^ pneg
      (FeedsReady s g [(o.a, false), (o.b, false)] →
        ∃ t : State, exec (.sel false pneg pr o) s = .next t ∧ PlainDone s t g 2 o.g o.d [(o.a, false), (o.b, false)] fun l =>
          if taken l then opA s g tInt o l else opB s g tInt false o l) ∧
      (FeedsReady s g [(o.a, true), (o.b, true)] →
        ∃ t : State, exec (.sel true pneg pr o) s = .next t ∧ WideDone s t g 2 o.g o.d [(o.a, true), (o.b, true)] fun l =>
          if taken l then opA64 s g o l else opB64 s g o l)) ∧
    (∀ (gd : BitVec 5) (d : BitVec 6) (a : BitVec 7), FeedsReady s g [(a, false)] →
      ∃ t : State, exec (.mov gd d a) s = .next t ∧ PlainDone s t g 1 gd d [(a, false)] fun l => src32 s g tInt [] a l) ∧
    ∀ (gd : BitVec 5) (d : BitVec 6) (imm : Word),
      ∃ t : State, exec (.movi gd d imm) s = .next t ∧ PlainDone s t g 2 gd d [] fun _ => imm

/-- R57 to R61: what a vector source code reads in a lane as 32 bits: a vector register or a uniform register that nothing outstanding writes, a
queue entry, the head of a feed queue after the earlier pops, a special operand, a small integer. R30: an instruction whose feed entries
will never come takes the feed-underrun trap, 0x05 with the queue number, and writes nothing else; one whose entries are still to come
changes nothing of the group's registers. -/
def Obligations.SourceCodesAndUnderrun : Prop :=
  (
    ∀ (s : State) (g : Group) (before : List SrcCode) (c : BitVec 7) (l : Nat), g.ops = [] →
      let x := src32 s g tInt before c l
      (c.toNat < 48 → x = cellGet g.v (64 * c.toNat + l)) ∧
      (48 ≤ c.toNat → c.toNat < 64 → x = readQ g (c.toNat - 48) l) ∧
      (64 ≤ c.toNat → c.toNat < 96 →
        x = if g.handler = true ∧ c.toNat < 72 then cellGet g.k (c.toNat - 64) else cellGet g.s (c.toNat - 64)) ∧
      (96 ≤ c.toNat → c.toNat < 104 → ∀ e, (feedQueue g (c.toNat % 4))[popsOf before (c.toNat % 4)]? = some e → x = cellGet e.lanes l) ∧
      (c.toNat = 104 → x = 0) ∧ (c.toNat = 105 → x = BitVec.ofNat 32 l) ∧ (c.toNat = 106 → x = BitVec.allOnes 32) ∧
      (c.toNat = 107 → x = BitVec.ofNat 32 g.grpid) ∧ (c.toNat = 108 → x = BitVec.ofNat 32 g.width) ∧ (c.toNat = 109 → x = BitVec.ofNat 32 (clurankOf s g)) ∧
      (c.toNat = 110 → x = g.exec.extractLsb' 0 32) ∧ (c.toNat = 111 → x = g.exec.extractLsb' 32 32) ∧
      (112 ≤ c.toNat → c.toNat < 120 → x = BitVec.ofNat 32 (c.toNat - 112))) ∧
  (
    ∀ (s : State) (g : Group) (gd : BitVec 5) (d : BitVec 6) (a : BitVec 7) (q : Nat), Selected s g → q < 4 → a.toNat = 96 + q →
      mmaTakes s g q = false → feedQueue g q = [] →
      (g.feed = none → exec (.mov gd d a) s = .next (trapAt s s.cur 0x05 (BitVec.ofNat 64 q))) ∧
      (cannotReceive g q = false → exec (.mov gd d a) s = .next (stall s)))

/-- R83: an operation that produces a NaN returns the canonical NaN of its format: no result of FADD, FSUB, FMUL, FFMA, FMIN, FMAX or FSQRT is
any other NaN encoding, in any rounding mode, and so for the 16-bit formats of HADD2, HMUL2 and HFMA2. -/
def Obligations.CanonicalNaN : Prop :=
  (∀ rm r x y z : Nat, x < 2 ^ 32 → y < 2 ^ 32 → z < 2 ^ 32 →
    ∀ d ∈ [(Fp.add Fp.f32 rm r x y).1, (Fp.sub Fp.f32 rm r x y).1, (Fp.mul Fp.f32 rm r x y).1, (Fp.fma Fp.f32 rm r x y z).1,
        (Fp.minmax Fp.f32 false x y).1, (Fp.minmax Fp.f32 true x y).1, (Fp.fsqrt rm r x).1],
      d / 2 ^ 23 % 2 ^ 8 = 255 → d % 2 ^ 23 ≠ 0 → d = 0x7FC00000) ∧
  (∀ rm r x y z : Nat, x < 2 ^ 16 → y < 2 ^ 16 → z < 2 ^ 16 →
    ∀ d ∈ [(Fp.add Fp.f16 rm r x y).1, (Fp.mul Fp.f16 rm r x y).1, (Fp.fma Fp.f16 rm r x y z).1],
      d / 2 ^ 10 % 2 ^ 5 = 31 → d % 2 ^ 10 ≠ 0 → d = 0x7E00) ∧
  ∀ rm r x y z : Nat, x < 2 ^ 16 → y < 2 ^ 16 → z < 2 ^ 16 →
    ∀ d ∈ [(Fp.add Fp.bf16 rm r x y).1, (Fp.mul Fp.bf16 rm r x y).1, (Fp.fma Fp.bf16 rm r x y z).1],
      d / 2 ^ 7 % 2 ^ 8 = 255 → d % 2 ^ 7 ≠ 0 → d = 0x7FC0

/-- R111, R123, R124: FADD, FSUB, FMUL, FFMA, FMIN and FMAX, short (nearest-even) and long (in their rounding mode, with the lane's draw under
.rs), and FCMP: every lane of ACTIVE takes the rounded result, and the flags of those lanes are set. -/
def Obligations.FloatArithmetic : Prop :=
  ∀ (s : State) (g : Group), Selected s g →
    (∀ (gd : BitVec 5) (d : BitVec 6) (a b : BitVec 7), FeedsReady s g [(a, false), (b, false)] →
      let x (l : Nat) : Nat := (src32 s g tF32 [] a l).toNat
      let y (l : Nat) : Nat := (src32 s g tF32 [(a, false)] b l).toNat
      let done (i : Instr) (f : Nat → Nat × Fp.Flags) : Prop :=
        ∃ t : State, exec i s = .next t ∧
          VectorDone s t g 1 gd d [(a, false), (b, false)] (fun l => BitVec.ofNat 32 (f l).1) fun l => (f l).2
      done (.fadd gd d a b) (fun l => Fp.add Fp.f32 0 0 (x l) (y l)) ∧ done (.fsub gd d a b) (fun l => Fp.sub Fp.f32 0 0 (x l) (y l)) ∧
      done (.fmul gd d a b) (fun l => Fp.mul Fp.f32 0 0 (x l) (y l)) ∧
      done (.fmin gd d a b) (fun l => Fp.minmax Fp.f32 false (x l) (y l)) ∧
      done (.fmax gd d a b) (fun l => Fp.minmax Fp.f32 true (x l) (y l))) ∧
    (∀ (rm : BitVec 3) (o : LOps), FeedsReady s g [(o.a, false), (o.b, false)] →
      let draw (l : Nat) : Nat := if rm = 4 then (Fp.rsDraw (Machine.pair (readS s.draws 3 g 28) (readS s.draws 3 g 29))
        (Machine.pair (readS s.draws 3 g 30) (readS s.draws 3 g 31)) 0 l).toNat else 0
      let x (l : Nat) : Nat := (opA s g tF32 o l).toNat
      let y (l : Nat) : Nat := (opB s g tF32 false o l).toNat
      let done (i : Instr) (f : Nat → Nat × Fp.Flags) : Prop :=
        ∃ t : State, exec i s = .next t ∧
          VectorDone s t g 2 o.g o.d [(o.a, false), (o.b, false)] (fun l => BitVec.ofNat 32 (f l).1) fun l => (f l).2
      done (.faddLong rm o) (fun l => Fp.add Fp.f32 rm.toNat (draw l) (x l) (y l)) ∧
      done (.fsubLong rm o) (fun l => Fp.sub Fp.f32 rm.toNat (draw l) (x l) (y l)) ∧
      done (.fmulLong rm o) (fun l => Fp.mul Fp.f32 rm.toNat (draw l) (x l) (y l)) ∧
      done (.fminLong o) (fun l => Fp.minmax Fp.f32 false (x l) (y l)) ∧ done (.fmaxLong o) (fun l => Fp.minmax Fp.f32 true (x l) (y l)) ∧
      (FeedsReady s g [(o.a, false), (o.b, false), (o.c, false)] →
        ∃ t : State, exec (.ffma rm o) s = .next t ∧
          let f (l : Nat) := Fp.fma Fp.f32 rm.toNat (draw l) (x l) (y l) (opC s g tF32 o l).toNat
          VectorDone s t g 2 o.g o.d [(o.a, false), (o.b, false), (o.c, false)] (fun l => BitVec.ofNat 32 (f l).1) fun l => (f l).2)) ∧
    ∀ (cmp : BitVec 3) (T : BitVec 2) (o : LOps), FeedsReady s g [(o.a, false), (o.b, false)] →
      let fmt : Fp.Fmt := if T = 0 then Fp.f32 else if T = 1 then Fp.f16 else Fp.bf16
      let ty : SrcType := if T = 0 then tF32 else if T = 1 then tF16 else tBF16
      let width : Nat := if T = 0 then 32 else 16
      let f (l : Nat) := Fp.compare fmt cmp.toNat ((opA s g ty o l).toNat % 2 ^ width) ((opB s g ty false o l).toNat % 2 ^ width)
      ∃ t : State, exec (.fcmp cmp T o) s = .next t ∧
        VectorDone s t g 2 o.g o.d [(o.a, false), (o.b, false)] (fun l => if (f l).1 then 1 else 0) fun l => (f l).2

/-- R124: what a comparison answers on operands that are no NaN, and on NaNs. R125 to R129: FRINT, FCLASS, FLDEXP, CVT, the packed instructions
and the dot products. -/
def Obligations.FloatComparesAndConversions : Prop :=
  (
    ∀ (f : Fp.Fmt) (cmp x y : Nat), f ∈ [Fp.f32, Fp.f16, Fp.bf16] → cmp < 8 → x < 2 ^ f.width → y < 2 ^ f.width →
      let nan := (Fp.compare f 7 x y).1
      (nan = true → ((Fp.compare f cmp x y).1 = true ↔ cmp = 1 ∨ cmp = 7)) ∧
      (nan = true → 2 ≤ cmp → cmp ≤ 5 → (Fp.compare f cmp x y).2.testBit 0 = true) ∧
      (nan = false → (Fp.compare f 6 x y).1 = true ∧ (Fp.compare f 1 x y).1 = !(Fp.compare f 0 x y).1 ∧
        (Fp.compare f 3 x y).1 = ((Fp.compare f 2 x y).1 || (Fp.compare f 0 x y).1) ∧
        (Fp.compare f 4 x y).1 = !(Fp.compare f 3 x y).1 ∧ (Fp.compare f 5 x y).1 = !(Fp.compare f 2 x y).1 ∧
        (Fp.compare f cmp x y).2 = 0)) ∧
  (
    ∀ (s : State) (g : Group), Selected s g →
      (∀ (gd : BitVec 5) (d : BitVec 6) (a : BitVec 7), FeedsReady s g [(a, false)] →
        ∃ t : State, exec (.fclass gd d a) s = .next t ∧ PlainDone s t g 1 gd d [(a, false)] fun l =>
          BitVec.ofNat 32 (Fp.fclass (src32 s g tF32 [] a l).toNat)) ∧
      (∀ (gd : BitVec 5) (d : BitVec 6) (a b : BitVec 7), FeedsReady s g [(a, false), (b, false)] →
        let x (e l : Nat) : Nat := (src32 s g tF16x2 [] a l).toNat / 2 ^ (16 * e) % 2 ^ 16
        let y (e l : Nat) : Nat := (src32 s g tF16x2 [(a, false)] b l).toNat / 2 ^ (16 * e) % 2 ^ 16
        let done (i : Instr) (f : Nat → Nat → Nat × Fp.Flags) : Prop :=
          ∃ t : State, exec i s = .next t ∧ VectorDone s t g 1 gd d [(a, false), (b, false)]
            (fun l => BitVec.ofNat 32 ((f 0 l).1 % 65536 + 65536 * ((f 1 l).1 % 65536))) fun l => (f 0 l).2 ||| (f 1 l).2
        done (.hadd2 gd d a b) (fun e l => Fp.add Fp.f16 0 0 (x e l) (y e l)) ∧
        done (.hmul2 gd d a b) (fun e l => Fp.mul Fp.f16 0 0 (x e l) (y e l))) ∧
      (∀ (rm : BitVec 3) (o : LOps),
        let draw (e l : Nat) : Nat := if rm = 4 then (Fp.rsDraw (Machine.pair (readS s.draws 3 g 28) (readS s.draws 3 g 29))
          (Machine.pair (readS s.draws 3 g 30) (readS s.draws 3 g 31)) e l).toNat else 0
        (FeedsReady s g [(o.a, false)] →
          let one (i : Instr) (f : Nat → Word × Fp.Flags) : Prop :=
            ∃ t : State, exec i s = .next t ∧ VectorDone s t g 2 o.g o.d [(o.a, false)] (fun l => (f l).1) fun l => (f l).2
          one (.frint rm o) (fun l => fpWord (Fp.frint rm.toNat (draw 0 l) (opA s g tF32 o l).toNat)) ∧
          one (.fclassLong o) (fun l => (BitVec.ofNat 32 (Fp.fclass (opA s g tF32 o l).toNat), 0)) ∧
          ∀ pair : BitVec 4, one (.cvt pair rm o) fun l => cvtWord pair.toNat rm.toNat (draw 0 l) (opA s g (cvtSrc pair.toNat) o l)) ∧
        (FeedsReady s g [(o.a, false), (o.b, false)] →
          let two (i : Instr) (f : Nat → Word × Fp.Flags) : Prop :=
            ∃ t : State, exec i s = .next t ∧ VectorDone s t g 2 o.g o.d [(o.a, false), (o.b, false)] (fun l => (f l).1) fun l => (f l).2
          two (.fldexp rm o) (fun l => fpWord (Fp.fldexp rm.toNat (draw 0 l) (opA s g tF32 o l).toNat (opB s g tInt false o l).toInt)) ∧
          ∀ bf : Bool,
            let h := if bf then Fp.bf16 else Fp.f16
            let ty := if bf then tBF16x2 else tF16x2
            let x (e l : Nat) : Nat := (opA s g ty o l).toNat / 2 ^ (16 * e) % 2 ^ 16
            let y (e l : Nat) : Nat := (opB s g ty false o l).toNat / 2 ^ (16 * e) % 2 ^ 16
            let packed (f : Nat → Nat → Nat × Fp.Flags) (l : Nat) : Word × Fp.Flags :=
              (BitVec.ofNat 32 ((f 0 l).1 % 65536 + 65536 * ((f 1 l).1 % 65536)), (f 0 l).2 ||| (f 1 l).2)
            two (.hadd2Long bf rm o) (packed fun e l => Fp.add h rm.toNat (draw e l) (x e l) (y e l)) ∧
            two (.hmul2Long bf rm o) (packed fun e l => Fp.mul h rm.toNat (draw e l) (x e l) (y e l)) ∧
            (FeedsReady s g [(o.a, false), (o.b, false), (o.c, false)] →
              let z (e l : Nat) : Nat := (opC s g ty o l).toNat / 2 ^ (16 * e) % 2 ^ 16
              let f := packed fun e l => Fp.fma h rm.toNat (draw e l) (x e l) (y e l) (z e l)
              ∃ t : State, exec (.hfma2 bf rm o) s = .next t ∧ VectorDone s t g 2 o.g o.d [(o.a, false), (o.b, false), (o.c, false)]
                (fun l => (f l).1) fun l => (f l).2)) ∧
        (FeedsReady s g [(o.a, false), (o.b, false), (o.c, false)] → ∀ (T : BitVec 2) (sat : Bool),
          let three (i : Instr) (f : Nat → Word × Fp.Flags) : Prop :=
            ∃ t : State, exec i s = .next t ∧
              VectorDone s t g 2 o.g o.d [(o.a, false), (o.b, false), (o.c, false)] (fun l => (f l).1) fun l => (f l).2
          let fit (e : Int) : Word := BitVec.ofInt 32 (if sat then max (-2 ^ 31) (min (2 ^ 31 - 1) e) else e)
          let int (w : Nat) (x : Word) (e : Nat) : Int := (BitVec.ofNat w (x.toNat / 2 ^ (w * e))).toInt
          let dot (w n : Nat) (ty : SrcType) (l : Nat) : Word × Fp.Flags :=
            (fit (((List.range n).map fun e => int w (opA s g ty o l) e * int w (opB s g ty false o l) e).sum + (opC s g tInt o l).toInt), 0)
          (T ≠ 0 → three (.dot4 T rm sat o) (dot 8 4 tI8x4) ∧ three (.dot8 T rm sat o) (dot 4 8 tI4x8)) ∧
          (T = 0 →
            three (.dot4 T rm sat o) (fun l => dotFloat Fp.k8 4 rm.toNat (draw 0 l) (draw 1 l) (opA s g tK8x4 o l) (opB s g tK8x4 false o l)
              (opC s g tF32 o l)) ∧
            three (.dot8 T rm sat o) (fun l => dotFloat Fp.k4 8 rm.toNat (draw 0 l) (draw 1 l) (opA s g tK4x8 o l) (opB s g tK4x8 false o l)
              (opC s g tF32 o l))))))

/-- R96, R125, R293: the special-function instructions, short and long; each leaves its group unready until the result's clock. -/
def Obligations.SpecialFunctions : Prop :=
  ∀ (s : State) (g : Group), Selected s g →
    (∀ (gd : BitVec 5) (d : BitVec 6) (a : BitVec 7), FeedsReady s g [(a, false)] →
      let done (i : Instr) (f : Nat → Nat × Fp.Flags) : Prop :=
        ∃ t : State, exec i s = .next t ∧ SfuDone s t g 1 gd d [(a, false)]
          (fun l => BitVec.ofNat 32 (f (src32 s g tF32 [] a l).toNat).1) fun l => (f (src32 s g tF32 [] a l).toNat).2
      done (.frcp gd d a) Fp.frcp ∧ done (.frsq gd d a) Fp.frsq ∧ done (.fsqrt gd d a) (Fp.fsqrt 0 0) ∧ done (.fexp2 gd d a) Fp.fexp2 ∧
      done (.flog2 gd d a) Fp.flog2 ∧ done (.fsin gd d a) Fp.fsin ∧ done (.fcos gd d a) Fp.fcos) ∧
    ∀ (rm : BitVec 3) (o : LOps), FeedsReady s g [(o.a, false)] →
      let draw (l : Nat) : Nat := if rm = 4 then (Fp.rsDraw (Machine.pair (readS s.draws 3 g 28) (readS s.draws 3 g 29))
        (Machine.pair (readS s.draws 3 g 30) (readS s.draws 3 g 31)) 0 l).toNat else 0
      let done (i : Instr) (f : Nat → Nat → Nat × Fp.Flags) : Prop :=
        ∃ t : State, exec i s = .next t ∧ SfuDone s t g 2 o.g o.d [(o.a, false)]
          (fun l => BitVec.ofNat 32 (f l (opA s g tF32 o l).toNat).1) fun l => (f l (opA s g tF32 o l).toNat).2
      done (.frcpLong rm o) (fun _ => Fp.frcp) ∧ done (.frsqLong rm o) (fun _ => Fp.frsq) ∧
      done (.fsqrtLong rm o) (fun l => Fp.fsqrt rm.toNat (draw l)) ∧ done (.fexp2Long rm o) (fun _ => Fp.fexp2) ∧
      done (.flog2Long rm o) (fun _ => Fp.flog2) ∧ done (.fsinLong rm o) (fun _ => Fp.fsin) ∧ done (.fcosLong rm o) fun _ => Fp.fcos

/-- R65, R103, R112, R130 to R132: XLANE, XLANE.idx, REDX, SCANX and MATCH. Both REDX and SCANX raise the flags of every node of their tree.
R131: an integer REDX combines the values of the lanes of ACTIVE; the other lanes do not count. -/
def Obligations.AcrossLanes : Prop :=
  (
    ∀ (s : State) (g : Group) (o : LOps), Selected s g →
      (FeedsReady s g [(o.a, false)] →
        (∃ t : State, exec (.xlane false o) s = .next t ∧ PlainDone s t g 2 o.g o.d [(o.a, false)] fun l => opA s g tInt o l) ∧
        (∃ t : State, exec (.matchx false o) s = .next t ∧ WideDone s t g 2 o.g o.d [(o.a, false)] fun l =>
          maskOf g.width fun j => (active g o.g).getLsbD j && opA s g tInt o j == opA s g tInt o l) ∧
        ∀ (rop t3 : BitVec 3) (excl : Bool), t3.toNat ≤ 2 →
          let vals := redGroup s g rop t3 o
          let scan (k : Nat) := Fp.scanIncl rop.toNat (redElem t3.toNat) g.width.log2 k vals
          (∃ t : State, exec (.redx rop t3 o) s = .next t ∧
            let r := Fp.treeRoot rop.toNat (redElem t3.toNat) g.width.log2 vals
            VectorDone s t g 2 o.g o.d [(o.a, false)] (fun _ => BitVec.ofNat 32 r.1) fun _ => r.2) ∧
          ∃ t : State, exec (.scanx rop excl t3 o) s = .next t ∧
            let r (l : Nat) := if excl then (if l = 0 then Fp.identity rop.toNat (redElem t3.toNat) else (scan (l - 1)).1) else (scan l).1
            let flags := (List.range g.width).foldl (fun f k => f ||| (scan k).2)
              (Fp.treeRoot rop.toNat (redElem t3.toNat) g.width.log2 vals).2
            VectorDone s t g 2 o.g o.d [(o.a, false)] (fun l => BitVec.ofNat 32 (r l)) fun _ => flags) ∧
      (FeedsReady s g [(o.a, true)] →
        (∃ t : State, exec (.xlane true o) s = .next t ∧ WideDone s t g 2 o.g o.d [(o.a, true)] fun l => opA64 s g o l) ∧
        (∃ t : State, exec (.matchx true o) s = .next t ∧ WideDone s t g 2 o.g o.d [(o.a, true)] fun l =>
          maskOf g.width fun j => (active g o.g).getLsbD j && opA64 s g o j == opA64 s g o l) ∧
        ∀ (rop t3 : BitVec 3) (excl : Bool), 3 ≤ t3.toNat →
          let vals := redGroup s g rop t3 o
          let scan (k : Nat) := Fp.scanIncl rop.toNat (redElem t3.toNat) g.width.log2 k vals
          (∃ t : State, exec (.redx rop t3 o) s = .next t ∧ WideDone s t g 2 o.g o.d [(o.a, true)] fun _ =>
            BitVec.ofNat 64 (Fp.treeRoot rop.toNat (redElem t3.toNat) g.width.log2 vals).1) ∧
          ∃ t : State, exec (.scanx rop excl t3 o) s = .next t ∧ WideDone s t g 2 o.g o.d [(o.a, true)] fun l =>
            BitVec.ofNat 64 (if excl then (if l = 0 then Fp.identity rop.toNat (redElem t3.toNat) else (scan (l - 1)).1) else (scan l).1)) ∧
      ∀ ifill : BitVec 2,
        let lane (l j : Nat) : Option Nat :=
          if j < g.width then some j else if ifill = 0 then none else if ifill = 1 then some l else some (j % g.width)
        (FeedsReady s g [(o.a, false), (o.b, false)] →
          ∃ t : State, exec (.xlaneIdx false ifill o) s = .next t ∧ PlainDone s t g 2 o.g o.d [(o.a, false), (o.b, false)] fun l =>
            ((lane l (opB s g tInt false o l).toNat).map fun j => src32 s g tInt [] o.a j).getD 0) ∧
        (FeedsReady s g [(o.a, true), (o.b, false)] →
          ∃ t : State, exec (.xlaneIdx true ifill o) s = .next t ∧ WideDone s t g 2 o.g o.d [(o.a, true), (o.b, false)] fun l =>
            ((lane l (opB s g tInt true o l).toNat).map fun j => src64 s g [] o.a j).getD 0)) ∧
  (
    ∀ (s : State) (g : Group) (o : LOps), Selected s g → g.width ∈ [8, 16, 32, 64] → FeedsReady s g [(o.a, false)] →
      let xs := (lanesOf g.width (active g o.g)).map (opA s g tInt o)
      let done (rop : BitVec 3) (r : Word) : Prop := ∃ t : State, exec (.redx rop 2 o) s = .next t ∧ PlainDone s t g 2 o.g o.d [(o.a, false)] fun _ => r
      done 0 xs.sum ∧ done 3 (xs.foldl (· &&& ·) (BitVec.allOnes 32)) ∧ done 4 (xs.foldl (· ||| ·) 0) ∧ done 5 (xs.foldl (· ^^^ ·) 0))

/-- R18, R132, R134: BALLOT, VOTE, ELECT and PLOP write the whole predicate: below GWIDTH the bits given here, above it 0. R135, R136: PMOV
copies a mask; EXSET writes EXEC, whose bits at or above GWIDTH stay 0; EXGET reads it. Each changes its destination and the group's place,
and nothing else. -/
def Obligations.PredicatesAndMasks : Prop :=
  (
    ∀ (s : State) (g : Group) (o : LOps), Selected s g →
      let on (l : Nat) : Prop := l < g.width ∧ (active g o.g).getLsbD l = true
      (FeedsReady s g [(o.a, false)] →
        let x (l : Nat) : Word := opA s g tInt o l
        (∃ t : State, exec (.ballot o) s = .next t ∧ MaskDone s t g 2 o.d [(o.a, false)] fun l => (active g o.g).getLsbD l && x l != 0) ∧
        (∀ b : Bool, ((∃ l, on l ∧ x l ≠ 0) ↔ b = true) →
          ∃ t : State, exec (.vote 0 o) s = .next t ∧ MaskDone s t g 2 o.d [(o.a, false)] fun _ => b) ∧
        (∀ b : Bool, ((∀ l, on l → x l ≠ 0) ↔ b = true) →
          ∃ t : State, exec (.vote 1 o) s = .next t ∧ MaskDone s t g 2 o.d [(o.a, false)] fun _ => b) ∧
        ∀ b : Bool, ((∀ l j, on l → on j → x l = x j) ↔ b = true) →
          ∃ t : State, exec (.vote 2 o) s = .next t ∧ MaskDone s t g 2 o.d [(o.a, false)] fun _ => b) ∧
      (∀ r : Nat → Bool, (∀ l, r l = true ↔ on l ∧ ∀ j, j < l → ¬ on j) →
        ∃ t : State, exec (.elect o) s = .next t ∧ MaskDone s t g 2 o.d [] r) ∧
      ∀ (d : BitVec 6) (pc pb pa : BitVec 4) (table : BitVec 8),
        let mask (c : BitVec 4) (l : Nat) : Nat :=
          (if c.toNat < 12 then (cellGet g.p c.toNat).getLsbD l else if c = 12 then g.exec.getLsbD l else c == 13).toNat
        ∃ t : State, exec (.plop d pc pb pa table) s = .next t ∧
          MaskDone s t g 2 d [] fun l => table.getLsbD (4 * mask pa l + 2 * mask pb l + mask pc l)) ∧
  (
    ∀ (s : State) (g : Group), Selected s g → g.ops = [] →
      let below (m : Word64) (l : Nat) : Bool := decide (l < g.width) && m.getLsbD l
      let toExec (i : Instr) (m : Word64) : Prop :=
        ∃ e, (∀ l, l < 64 → e.getLsbD l = below m l) ∧ exec i s = .next (s.putGroup s.cur (advance 1 { g with exec := e }))
      let toDest (i : Instr) (d : BitVec 6) (m : Word64) : Prop :=
        ∃ e, (∀ l, l < 64 → e.getLsbD l = below m l) ∧
          if 48 ≤ d.toNat then exec i s = .next (s.putGroup s.cur (advance 1 { g with p := cellSet g.p (d.toNat - 48) e }))
          else ∃ t : State, exec i s = .next t ∧ UniformDone64 s t g 1 d e
      let upair (c : BitVec 7) : Word64 := Machine.pair (readS s.draws 0 g (c.toNat - 64)) (readS s.draws 0 g (c.toNat - 63))
      (∀ a : BitVec 7, 64 ≤ a.toNat → a.toNat < 96 → toExec (.exset a) (upair a) ∧ ∀ d, toDest (.pmov d a) d (upair a)) ∧
      toExec (.exset 104) 0 ∧ toExec (.exset 106) (BitVec.allOnes 64) ∧ toExec (.exset 110) g.exec ∧
      (∀ d, toDest (.pmov d 104) d 0 ∧ toDest (.pmov d 106) d (BitVec.allOnes 64) ∧ toDest (.pmov d 110) d g.exec ∧
        toDest (.exget d) d g.exec) ∧
      (∀ d (a : BitVec 7), a.toNat < 12 → toDest (.pmov d a) d (cellGet g.p a.toNat)) ∧
      ∀ d : BitVec 6, toExec (.exsetAnd d) (g.exec &&& cellGet g.p (d.toNat - 48)) ∧
        toExec (.exsetAndn d) (g.exec &&& ~~~(cellGet g.p (d.toNat - 48))))

/-- R137, R138: the uniform instructions of two sources, short, long and with an immediate. Each writes its destination whenever it issues,
whatever its guard (R25), and USHL and USHR give 0 when b ≥ 32, USHR.i32 copies of a[31]. -/
def Obligations.UniformArithmetic : Prop :=
  ∀ (s : State) (g : Group) (gd : BitVec 5) (d : BitVec 6) (a : BitVec 7), Selected s g →
    let x : Word := usrc s g tInt 0 a
    let done (i : Instr) (words : Nat) (r : Word) : Prop := ∃ t : State, exec i s = .next t ∧ UniformDone s t g words d r
    let left (y : Word) : Word := if 32 ≤ y.toNat then 0 else x <<< y.toNat
    let right (sx : Bool) (y : Word) : Word :=
      if 32 ≤ y.toNat then (if sx && x.msb then BitVec.allOnes 32 else 0) else if sx then x.sshiftRight y.toNat else x >>> y.toNat
    (∀ b : BitVec 7,
      let y : Word := usrc s g tInt 1 b
      done (.uadd gd d a b) 1 (x + y) ∧ done (.usub gd d a b) 1 (x - y) ∧ done (.uand gd d a b) 1 (x &&& y) ∧
      done (.uaddLong gd d a b) 2 (x + y) ∧ done (.usubLong gd d a b) 2 (x - y) ∧ done (.umul gd d a b) 2 (x * y) ∧
      done (.uandLong gd d a b) 2 (x &&& y) ∧ done (.uor gd d a b) 2 (x ||| y) ∧ done (.uxor gd d a b) 2 (x ^^^ y) ∧
      done (.ushl gd d a b) 2 (left y) ∧ ∀ sx, done (.ushr sx gd d a b) 2 (right sx y)) ∧
    ∀ y : Word,
      done (.uaddImm gd d a y) 2 (x + y) ∧ done (.usubImm gd d a y) 2 (x - y) ∧ done (.umulImm gd d a y) 2 (x * y) ∧
      done (.uandImm gd d a y) 2 (x &&& y) ∧ done (.uorImm gd d a y) 2 (x ||| y) ∧ done (.uxorImm gd d a y) 2 (x ^^^ y) ∧
      done (.ushlImm gd d a y) 2 (left y) ∧ (∀ sx, done (.ushrImm sx gd d a y) 2 (right sx y)) ∧
      done (.umov gd d a) 1 x ∧ done (.umovLong gd d a) 2 x ∧ done (.umovImm gd d y) 2 y ∧ done (.umovi gd d y) 2 y

/-- R138 to R140: UADD64 on pairs; UCMP, which writes the whole predicate, or 1 or 0 in a uniform register; USEL, by whether the predicate has a
set bit below GWIDTH; and ULANE, which copies one lane of a vector source, or gives 0 where there is no such lane. R38, R146: MOVSR of
LANEID gives each lane its number; of another selector, the register's value at the read, in a uniform register of its width; MOVSR.clr
reads FPFLAGS and clears it in one step. -/
def Obligations.UniformComparesAndReads : Prop :=
  (
    ∀ (s : State) (g : Group) (gd : BitVec 5) (d : BitVec 6) (a b : BitVec 7), Selected s g →
      let x : Word := usrc s g tInt 0 a
      let y : Word := usrc s g tInt 1 b
      let x2 : Word64 := usrc64 s g 0 a
      let y2 : Word64 := usrc64 s g 1 b
      let done (i : Instr) (r : Word) : Prop := ∃ t : State, exec i s = .next t ∧ UniformDone s t g 2 d r
      let done64 (i : Instr) (r : Word64) : Prop := ∃ t : State, exec i s = .next t ∧ UniformDone64 s t g 2 d r
      done64 (.uadd64 gd d a b) (x2 + y2) ∧
      (∀ (cmp : BitVec 3) (T : BitVec 2),
        let rel (p q : Int) : Bool := match cmp.toNat with
          | 0 => decide (p = q) | 1 => decide (p ≠ q) | 2 => decide (p < q) | 3 => decide (p ≤ q) | 4 => decide (q < p)
          | _ => decide (q ≤ p)
        let holds : Bool := match T.toNat with
          | 0 => rel x.toInt y.toInt | 1 => rel x.toNat y.toNat | 2 => rel x2.toInt y2.toInt | _ => rel x2.toNat y2.toNat
        if d.toNat < 48 then done (.ucmp cmp T gd d a b) (if holds then 1 else 0)
        else ∃ t : State, exec (.ucmp cmp T gd d a b) s = .next t ∧ MaskDone s t g 2 d [] fun _ => holds) ∧
      (∀ (pneg : Bool) (pr : BitVec 4) (takes : Bool),
        (takes = true ↔ ∃ l, l < g.width ∧ xor pneg ((cellGet g.p pr.toNat).getLsbD l) = true) →
        done (.usel false pneg pr gd d a b) (if takes then x else y) ∧ done64 (.usel true pneg pr gd d a b) (if takes then x2 else y2)) ∧
      (∀ (first : Bool) (lane : Option Nat),
        (if first then ∀ l, lane = some l ↔ l < g.width ∧ (active g gd).getLsbD l = true ∧ ∀ k, k < l → (active g gd).getLsbD k = false
          else lane = if y.toNat < g.width then some y.toNat else none) →
        done (.ulane first false gd d a b) ((lane.map (src32 s g tInt [] a)).getD 0) ∧
        done64 (.ulane first true gd d a b) ((lane.map (src64 s g [] a)).getD 0))) ∧
  (
    ∀ (s : State) (g : Group) (gd : BitVec 5) (d : BitVec 6), Selected s g →
      (∃ t : State, exec (.movsr gd d 0) s = .next t ∧ PlainDone s t g 1 gd d [] fun l => BitVec.ofNat 32 l) ∧
      (∀ a : BitVec 7, a ≠ 0 →
        let wide : Bool := [10, 11, 12, 13, 16, 20].contains a.toNat
        (wide = false → ∃ t : State, exec (.movsr gd d a) s = .next t ∧ UniformDone s t g 1 d ((specialReg s g a.toNat).setWidth 32)) ∧
        (wide = true → ∃ t : State, exec (.movsr gd d a) s = .next t ∧ UniformDone64 s t g 1 d (specialReg s g a.toNat))) ∧
      (d.toNat < 32 → exec (.movsrClr gd d) s =
        .next (s.putGroup s.cur (advance 1 { writeS g d.toNat g.fpflags with fpflags := 0 }))) ∧
      ∃ t : State, exec (.movsrClr gd d) s = .next t ∧ ((tblGet t.groups s.cur).map (·.fpflags)) = some 0)

/-- R53, R141: BR takes its mask from its predicate within EXEC. With U, a mask that is neither empty nor EXEC raises the uniformity-violation
trap, 0x03, which carries the mask; otherwise the group goes to the target or to the next word, and only its place and its record of
branches change. R142, R143, R145: CALL writes the address of the word after it to its pair and goes to its target; RET and JMPX go to the
address in a pair, or raise the control-target trap, 0x04, where it is misaligned or outside the windows of R236 that code can stand in;
LOOP counts its register down and goes to its target while a value above one stood there; NOP does nothing. -/
def Obligations.BranchesAndCalls : Prop :=
  (
    ∀ (s : State) (g : Group) (p : BitVec 5) (c : BitVec 3) (u : Bool) (off : BitVec 16), Selected s g →
      (Instr.br p c u off).WellFormed →
      let inverted : Bool := p.getLsbD 4
      let pred : Word64 := cellGet g.p (p.toNat % 16)
      let m : Word64 := if p = 0b01111 then g.exec else (if inverted then ~~~ pred else pred) &&& g.exec
      let target : Word64 := g.pc + 4 + BitVec.ofNat 64 (4 * g.idx) + 4 + BitVec.ofInt 64 (4 * off.toInt)
      let counted : Group :=
        { g with brCount := g.brCount + 1, brActive := g.brActive + ((List.range g.width).filter fun l => g.exec.getLsbD l).length }
      let taken : Bool := c = 0 || (c = 1 && m != 0) || (c = 2 && m == g.exec) || (c = 3 && m == 0)
      exec (.br p c u off) s =
        .next (if u ∧ m ≠ 0 ∧ m ≠ g.exec then trapAt s s.cur 0x03 m
          else s.putGroup s.cur (if taken then transfer target counted else advance 1 counted))) ∧
  (
    ∀ (s : State) (g : Group), Selected s g →
      let here : Word64 := g.pc + 4 + BitVec.ofNat 64 (4 * g.idx)
      let target (off : BitVec 16) : Word64 := here + 4 + BitVec.ofInt 64 (4 * off.toInt)
      (∀ (l : BitVec 4) (off : BitVec 16),
        exec (.call l off) s = .next (s.putGroup s.cur (transfer (target off) (writeS64 g (2 * l.toNat) (here + 4))))) ∧
      (∀ (a : BitVec 7),
        let x : Word64 := usrc64 s g 0 a
        let r : Host.Outcome State Fault Refusal :=
          .next (if x.toNat % 4 = 0 ∧ x.toNat < 0xFC000000000000 then s.putGroup s.cur (transfer x g) else trapAt s s.cur 0x04 x)
        exec (.ret a) s = r ∧ exec (.jmpx a) s = r) ∧
      (∀ (n : BitVec 5) (off : BitVec 16),
        let v : Word := readS s.draws 0 g n.toNat
        exec (.loop n off) s = .next (s.putGroup s.cur (
          if v = 0 then advance 1 g
          else if v = 1 then advance 1 (writeS g n.toNat 0)
          else transfer (target off) (writeS g n.toNat (v - 1))))) ∧
      ∀ gd : BitVec 5, exec (.nop gd) s = .next (s.putGroup s.cur (advance 1 g)))

/-! ### Memory -/

/-- R32, R33, R147 to R150, R157 to R159: a load or store of global memory, the stashes or the constant cache whose counter has room, and whose
lanes of ACTIVE (one of them for uniform data) all lie in a window of its kind, inside the stash and aligned, issues one operation with each
lane's address and data. LDC takes global addresses alone, and a stash form stash addresses alone. R31, R33, R162: what issuing leaves
before a translation is made. Where an operation that releases nothing has a lane in global memory that nothing the core holds serves (a
copy in its L1, for a load or a store), the group waits for its translations, its counter is one higher, the operation is its youngest, and
its place, its registers, every other group and memory are as they were. -/
def Obligations.LoadsAndStoresIssue : Prop :=
  (
    ∀ (s : State) (g : Group), Selected s g →
      let issues (i : Instr) (o : Op) (gd : BitVec 5) (d : BitVec 6) (uni store glob stash : Bool) (size : Nat) (raw : Nat → Word64)
          (win : Nat → Option Window) : Prop :=
        let ls : List Nat := if uni then (lanesOf g.width (active g gd)).take 1 else lanesOf g.width (active g gd)
        let lanes : List LaneAcc := ls.map fun l =>
          { lane := l, addr := ((win l).map windowAddr).getD (raw l), data := if store then storeBytes s g 1 uni d.toNat size l else [] }
        CounterFree g o lanes → (∀ l ∈ ls, checkWindow s g size l (raw l) (win l) glob stash = []) →
        exec i s = .next (issued s g i o lanes (if store then [] else loadDests g uni d.toNat size ls))
      let generic (i : Instr) (o : Op) (gd : BitVec 5) (d : BitVec 6) (b : BitVec 7) (disp : Word64) (uni store stash : Bool) (size : Nat) : Prop :=
        let raw (l : Nat) : Word64 := baseOf s g 0 b l + disp
        issues i o gd d uni store true stash size raw fun l => genericWindow (raw l)
      let within (i : Instr) (o : Op) (gd : BitVec 5) (d : BitVec 6) (b : BitVec 7) (disp : Word64) (uni store : Bool) (size : Nat) : Prop :=
        let raw (l : Nat) : Word := (baseOf s g 0 b l).setWidth 32 + disp.setWidth 32
        issues i o gd d uni store false true size (fun l => (raw l).setWidth 64) fun l => stashWindow (raw l)
      (∀ (gd : BitVec 5) (d : BitVec 6) (b x : BitVec 7),
        let disp : Word64 := x.signExtend 64 <<< 2
        let load : Op := shortOp .ld (.load 4 false false d.toNat)
        generic (.ld gd d b x) load gd d b disp false false true 4 ∧
        generic (.st gd d b x) (shortOp .st (.store 4)) gd d b disp false true true 4 ∧
        within (.lds gd d b x) load gd d b disp false false 4 ∧
        within (.sts gd d b x) (shortOp .st (.store 4)) gd d b disp false true 4 ∧
        generic (.ldc gd d b x) (shortOp .ld (.const 4 false false d.toNat)) gd d b disp false false false 4) ∧
      ∀ (t : BitVec 3) (uni : Bool) (m : MLOps),
        let disp : Word64 := m.offset.signExtend 64
        let size : Nat := [4, 8, 16, 1, 1, 2, 2].getD t.toNat 4
        let signed : Bool := t == 4 || t == 6
        let load : Op := longOp .ld (.load size signed uni m.d.toNat) m
        generic (.ldLong t uni m) load m.g m.d m.b disp uni false true size ∧
        generic (.stLong t uni m) (longOp .st (.store size) m) m.g m.d m.b disp uni true true size ∧
        within (.ldsLong t uni m) load m.g m.d m.b disp uni false size ∧
        within (.stsLong t uni m) (longOp .st (.store size) m) m.g m.d m.b disp uni true size ∧
        generic (.ldcLong t uni m) (longOp .ld (.const size signed uni m.d.toNat) m) m.g m.d m.b disp uni false false size) ∧
  (
    ∀ (s : State) (g : Group) (i : Instr) (o : Op) (lanes : List LaneAcc) (dests : List Reg), Selected s g →
      releases o.order = false → (∀ p ∈ g.ops, p.uid < s.fresh) → g.ctr.length = 7 →
      (∃ x ∈ lanes, ∃ va, genericWindow x.addr = some (.global va)) →
      ((∃ op ty d, o.kind = some (.atomic op ty d)) ∨
        (∃ n sg u d, o.kind = some (.load n sg u d)) ∧ (g.tx.isSome = true ∨ atHome o = true) ∨
        ((∃ n sg u d, o.kind = some (.load n sg u d)) ∨ ∃ n, o.kind = some (.store n)) ∧ ∀ c k, tblGet s.cores c = some k → k.l1 = []) →
      let t := issued s g i o lanes dests
      let c := counterFor o lanes
      t.mem = s.mem ∧ t.fresh = s.fresh + 1 ∧ (∀ n, n ≠ s.cur → tblGet t.groups n = tblGet s.groups n) ∧
      ∃ g', tblGet t.groups s.cur = some g' ∧ g'.wait = .translate s.fresh ∧ g'.pc = g.pc ∧ g'.idx = g.idx ∧ g'.v = g.v ∧ g'.s = g.s ∧
        g'.p = g.p ∧ g'.exec = g.exec ∧ g'.q = g.q ∧ counter g' c.ident = counter g c.ident + 1 ∧
        g'.ops = g.ops ++ [{ o with
          uid := s.fresh, ctr := c, words := wordsOf i, lanes := lanes, dests := dests, order := if g.tx.isSome then .rlx else o.order }])

/-- R148 to R150, R161, R272, R277: the memory traps of a load. Where a lane's address stands in no window of a generic access, outside its
stash, or off its size's alignment, the instruction takes the trap with the lowest code, 0x10, 0x11 or 0x12, of its lowest lane, with the
lane in [63:58] and the address in [55:0] of TRAPINFO, and no lane performs. -/
def Obligations.MemoryTraps : Prop :=
  ∀ (s : State) (g : Group) (t : BitVec 3) (m : MLOps) (f : LaneFault), Selected s g →
    let size : Nat := [4, 8, 16, 1, 1, 2, 2].getD t.toNat 4
    let a (l : Nat) : Word64 := baseOf s g 0 m.b l + m.offset.signExtend 64
    let stash : Nat := ((tblGet s.teams g.team).map (·.stash)).getD 0
    let outside (n : Nat) : Bool := 0xFC000000000000 ≤ n &&
      !(n / 2 ^ 24 == 0xFE000000) && !(n / 2 ^ 28 == 0xFD00000)
    let beyond (n : Nat) : Bool := 0xFC000000000000 ≤ n && (stash < n % 2 ^ 24 + size ||
      (n / 2 ^ 28 == 0xFD00000 && clusterSize s g.team ≤ n / 2 ^ 24 % 16))
    let code (l : Nat) : Nat :=
      let n := (a l).toNat
      if outside n then 0x10 else if beyond n then 0x11 else if n % size ≠ 0 then 0x12 else 0
    let lanes (l : Nat) : Prop := l < g.width ∧ (active g m.g).getLsbD l = true
    lanes f.lane ∧ f.code = code f.lane ∧ f.code ≠ 0 ∧ f.addr = a f.lane →
    (∀ l, lanes l → code l = 0 ∨ f.code < code l ∨ (code l = f.code ∧ f.lane ≤ l)) →
    (∀ ls, counter g (counterFor (longOp .ld (.load size (t == 4 || t == 6) false m.d.toNat) m) ls).ident < 63) →
    exec (.ldLong t false m) s = .next (trapAt s s.cur f.code (laddr f.lane f.addr))

/-- R36, R147, R153, R154, R158: a store to the team's own stash. Where its lanes stand in the stash window, inside the stash and aligned, no
slot binds a line of the stash and none of the group's accesses takes time (log entry 94), the bytes of each lane are stored in lane order
at its offset, the operation is complete at once, and the group stands at the next word. Every byte outside the lanes' bytes reads as
before, no register changes, and no other group does. R20, R33, R147, R151, R153, R158: a load from the team's own stash. Where its lanes
stand in the stash window, inside the stash and aligned, no slot binds a line of the stash, no byte there is lost and none of the group's
accesses takes time (log entry 94), the operation is complete at once and holds, for each lane and each register of its destination, the
word it read; memory and the group's registers are as they were until it retires. -/
def Obligations.StashAccesses : Prop :=
  (
    ∀ (s : State) (g : Group) (t : BitVec 3) (m : MLOps), Selected s g →
      m.order = 0 → g.tx = none → orderedMode s g = false → flying g = false → s.late.contains s.cur = false → (∀ p ∈ g.ops, p.uid < s.fresh) → (∀ q ∈ s.fabOut, q.2.op < s.fresh) →
      g.ctr.length = 7 → counter g Counter.st.ident < 63 → (((tblGet s.teams g.team).map (·.binds)).getD []) = [] →
      let size : Nat := [4, 8, 16, 1, 1, 2, 2].getD t.toNat 4
      let ls : List Nat := lanesOf g.width (active g m.g)
      let off (l : Nat) : Nat := ((baseOf s g 0 m.b l).setWidth 32 + (m.offset.signExtend 64).setWidth 32 : BitVec 32).toNat
      let data (l : Nat) : List Byte := storeBytes s g 1 false m.d.toNat size l
      (∀ l ∈ ls, off l < 2 ^ 24 ∧ off l + size ≤ stashSize s g.team ∧ off l % size = 0) →
      ∃ (u : State) (g' : Group), exec (.stsLong t false m) s = .next u ∧
        u.mem = ls.foldl (fun mem l => writeBytes mem (stashLoc g.team (off l)) (data l)) s.mem ∧
        (∀ a, (∀ l ∈ ls, a < stashLoc g.team (off l) ∨ stashLoc g.team (off l) + size ≤ a) → readByte u.mem a = readByte s.mem a) ∧
        (∀ n, n ≠ s.cur → tblGet u.groups n = tblGet s.groups n) ∧ tblGet u.groups s.cur = some g' ∧ AtNext 2 g g' ∧
        g'.v = g.v ∧ g'.s = g.s ∧ g'.p = g.p ∧ g'.exec = g.exec ∧ g'.q = g.q ∧ g'.fpflags = g.fpflags ∧ g'.chz = g.chz ∧ g'.wait = .none ∧
        counter g' Counter.st.ident = counter g Counter.st.ident + 1 ∧
        ∃ o : Op, g'.ops = g.ops ++ [o] ∧ o.ctr = .st ∧ o.stage = .complete ∧ o.err = none) ∧
  (
    ∀ (s : State) (g : Group) (m : MLOps), Selected s g →
      m.order = 0 → g.tx = none → orderedMode s g = false → flying g = false → s.late.contains s.cur = false → (∀ p ∈ g.ops, p.uid < s.fresh) → (∀ q ∈ s.fabOut, q.2.op < s.fresh) →
      g.ctr.length = 7 → counter g Counter.ld.ident < 63 → (((tblGet s.teams g.team).map (·.binds)).getD []) = [] → s.ueUnits = [] → g.sbuf = [] →
      let ls : List Nat := lanesOf g.width (active g m.g)
      let off (l : Nat) : Nat := ((baseOf s g 0 m.b l).setWidth 32 + (m.offset.signExtend 64).setWidth 32 : BitVec 32).toNat
      let byte (l k : Nat) : Nat := (readByte s.mem (stashLoc g.team (off l + k))).toNat
      let word (l k : Nat) : Word :=
        BitVec.ofNat 32 (byte l (4 * k) + 2 ^ 8 * byte l (4 * k + 1) + 2 ^ 16 * byte l (4 * k + 2) + 2 ^ 24 * byte l (4 * k + 3))
      ∀ t : BitVec 3, t.toNat < 3 →
      let size : Nat := [4, 8, 16].getD t.toNat 4
      (∀ l ∈ ls, off l < 2 ^ 24 ∧ off l + size ≤ stashSize s g.team ∧ off l % size = 0) →
      ∃ (u : State) (g' : Group), exec (.ldsLong t false m) s = .next u ∧ u.mem = s.mem ∧
        (∀ n, n ≠ s.cur → tblGet u.groups n = tblGet s.groups n) ∧ tblGet u.groups s.cur = some g' ∧ AtNext 2 g g' ∧
        g'.v = g.v ∧ g'.s = g.s ∧ g'.p = g.p ∧ g'.exec = g.exec ∧ g'.q = g.q ∧ g'.fpflags = g.fpflags ∧ g'.wait = .none ∧
        counter g' Counter.ld.ident = counter g Counter.ld.ident + 1 ∧
        ∃ o : Op, g'.ops = g.ops ++ [o] ∧ o.ctr = .ld ∧ o.stage = .complete ∧ o.err = none ∧
          o.writes = ls.flatMap fun l => (List.range (size / 4)).map fun k => (Reg.v (m.d.toNat + k) l, word l k))

/-- R32, R33, R147 to R150, R169, R171, R174, R175: an atomic whose counter has room and whose lanes lie in a window, inside the stash and
aligned issues one operation with each lane's operands: one word of v, or two for .cas. ATOM2 takes two global words of a lane that do not
overlap; .dcas has four operands and three results, .amov no operand and one. -/
def Obligations.AtomicsIssue : Prop :=
  ∀ (s : State) (g : Group), Selected s g →
    (∀ (aop : BitVec 4) (t : BitVec 3) (m : MLOps),
      let size : Nat := if t = 2 ∨ t = 3 then 8 else 4
      let ls : List Nat := lanesOf g.width (active g m.g)
      let disp : Word64 := m.offset.signExtend 64
      let a (l : Nat) : Word64 := baseOf s g 0 m.b l + disp
      let b (l : Nat) : Word := (baseOf s g 0 m.b l).setWidth 32 + disp.setWidth 32
      let data (l : Nat) : List Byte := wordsBytes (dataWords s g 1 false m.d.toNat (if aop = 7 then 2 * size else size) l)
      let lanes (w : Nat → Option Window) (raw : Nat → Word64) : List LaneAcc :=
        ls.map fun l => { lane := l, addr := ((w l).map windowAddr).getD (raw l), data := data l }
      let wa (l : Nat) : Option Window := genericWindow (a l)
      let wb (l : Nat) : Option Window := stashWindow (b l)
      let back : Op := longOp .ld (.atomic aop.toNat t.toNat (some m.d.toNat)) m
      let none' : Op := longOp .st (.atomic aop.toNat t.toNat none) m
      let dests := loadDests g false m.d.toNat size ls
      ((∀ l ∈ ls, checkWindow s g size l (a l) (wa l) true true = []) →
        (CounterFree g back (lanes wa a) →
          exec (.atom aop t m) s = .next (issued s g (.atom aop t m) back (lanes wa a) dests)) ∧
        (CounterFree g none' (lanes wa a) →
          exec (.red aop t m) s = .next (issued s g (.red aop t m) none' (lanes wa a) []))) ∧
      ((∀ l ∈ ls, checkWindow s g size l ((b l).setWidth 64) (wb l) false true = []) →
        CounterFree g back (lanes wb fun l => (b l).setWidth 64) →
          exec (.atoms aop t m) s = .next (issued s g (.atoms aop t m) back (lanes wb fun l => (b l).setWidth 64) dests))) ∧
    ∀ (gd : BitVec 5) (d : BitVec 6) (b1 b2 : BitVec 7) (w64 : Bool) (order scope : BitVec 3),
      let size : Nat := if w64 then 8 else 4
      let ls : List Nat := lanesOf g.width (active g gd)
      let a (l : Nat) : Word64 := baseOf s g 0 b1 l
      let b (l : Nat) : Word64 := baseOf s g 2 b2 l
      let aligned (x : Word64) : Prop := x.toNat < 0xFC000000000000 ∧ x.toNat % size = 0
      let lanes (words : Nat) : List LaneAcc := ls.map fun l =>
        { lane := l, addr := a l, addr2 := b l, data := wordsBytes (dataWords s g 1 false d.toNat (size * words) l) }
      (∀ l ∈ ls, aligned (a l) ∧ aligned (b l) ∧ a l ≠ b l) → counter g Counter.ld.ident < 63 →
        exec (.atom2Dcas gd d b1 b2 w64 order scope) s = .next (issued s g (.atom2Dcas gd d b1 b2 w64 order scope)
          (opFor 2 .ld (.dcas w64 d.toNat) order scope 0 false) (lanes 4) (loadDests g false d.toNat (size * 3) ls)) ∧
        exec (.atom2Amov gd d b1 b2 w64 order scope) s = .next (issued s g (.atom2Amov gd d b1 b2 w64 order scope)
          (opFor 2 .ld (.amov w64 d.toNat) order scope 0 false) (lanes 0) (loadDests g false d.toNat size ls))

/-- R170 to R172: the new value and the returned value of a 32-bit integer atomic on the team's own stash, for one lane of a group none of
whose accesses takes time (log entry 94). The old value goes to the lane's register when the operation retires, and no byte outside the
word changes. -/
def Obligations.StashAtomicUpdates : Prop :=
  ∀ (s : State) (g : Group) (aop : BitVec 4) (t : BitVec 3) (m : MLOps) (l : Nat), Selected s g →
    m.order = 0 → g.tx = none → flying g = false → s.late.contains s.cur = false → (∀ p ∈ g.ops, p.uid < s.fresh) → (∀ q ∈ s.fabOut, q.2.op < s.fresh) →
    g.ctr.length = 7 → counter g Counter.ld.ident < 63 → (((tblGet s.teams g.team).map (·.binds)).getD []) = [] → s.ueUnits = [] →
    lanesOf g.width (active g m.g) = [l] → aop.toNat < 10 → t.toNat < 2 → m.d.toNat < 47 →
    let off : Nat := ((baseOf s g 0 m.b l).setWidth 32 + (m.offset.signExtend 64).setWidth 32 : BitVec 32).toNat
    off < 2 ^ 24 → off + 4 ≤ stashSize s g.team → off % 4 = 0 →
    let place : Nat := stashLoc g.team off
    let old : Word := (readByte s.mem (place + 3) ++ readByte s.mem (place + 2) ++ readByte s.mem (place + 1) ++ readByte s.mem place : BitVec 32)
    let v : Word := readV s.draws 1 g m.d.toNat l
    let v2 : Word := readV s.draws 1 g (m.d.toNat + 1) l
    let le (x y : Word) : Bool := if t = 0 then decide (x.toInt ≤ y.toInt) else decide (x.toNat ≤ y.toNat)
    let new : Word := match aop.toNat with
      | 0 => old + v | 1 => if le old v then old else v | 2 => if le old v then v else old
      | 3 => old &&& v | 4 => old ||| v | 5 => old ^^^ v | 6 => v
      | 7 => if old = v then v2 else old
      | 8 => if v.toNat ≤ old.toNat then 0 else old + 1
      | _ => if old = 0 ∨ v.toNat < old.toNat then v else old - 1
    ∃ (u : State) (g' : Group), exec (.atoms aop t m) s = .next u ∧
      u.mem = writeBytes s.mem place [new.extractLsb' 0 8, new.extractLsb' 8 8, new.extractLsb' 16 8, new.extractLsb' 24 8] ∧
      (∀ n, n ≠ s.cur → tblGet u.groups n = tblGet s.groups n) ∧ tblGet u.groups s.cur = some g' ∧ AtNext 2 g g' ∧
      g'.v = g.v ∧ g'.s = g.s ∧ g'.p = g.p ∧ g'.exec = g.exec ∧ g'.q = g.q ∧ g'.fpflags = g.fpflags ∧ g'.wait = .none ∧
      ∃ o : Op, g'.ops = g.ops ++ [o] ∧ o.ctr = .ld ∧ o.stage = .complete ∧ o.writes = [(Reg.v m.d.toNat l, old)] ∧ o.flags = 0

/-- R32, R33, R177 to R181: a multicast and a flagged store issue one operation. STM.mdie takes global addresses, and names below 48; STM.mclu
takes stash offsets that stay inside each member's stash. STF's flag travels with the operation, after its lanes' data. R160, R166 to R168:
PREF writes no register and no counter and raises no trap: the group stands at the next word. LDT and STT of a group whose ACTIVE is empty
issue an operation without lanes; with a descriptor that does not suit the form they take the descriptor trap, 0x13. -/
def Obligations.SpecialStoresAndTensors : Prop :=
  (
    ∀ (s : State) (g : Group) (gd : BitVec 5) (d : BitVec 6) (b x : BitVec 7) (t order scope : BitVec 3), Selected s g →
      let size : Nat := [4, 8, 16, 1, 1, 2, 2].getD t.toNat 4
      let ls : List Nat := lanesOf g.width (active g gd)
      let a (l : Nat) : Word64 := baseOf s g 0 b l
      let lanes : List LaneAcc := ls.map fun l => { lane := l, addr := a l, data := storeBytes s g 1 false d.toNat size l }
      let aligned (l : Nat) : Prop := (a l).toNat < 0xFC000000000000 ∧ (a l).toNat % size = 0
      let mask : Word64 := usrc64 s g 2 x
      (∀ (bar : Bool) (bars : BitVec 7),
        let place : Option Nat := if bar then some (usrc s g tInt 4 bars).toNat else none
        let step : Nat := mask.toNat / 2 ^ 16 % 2 ^ 24
        let stash : Nat := stashSize s g.team
        (counter g Counter.st.ident < 63 → (∀ l ∈ ls, aligned l) → (∀ k, 48 ≤ k → mask.getLsbD k = false) →
          exec (.stm gd d b x t true order scope bar bars) s = .next (issued s g (.stm gd d b x t true order scope bar bars)
            (opFor 2 .st (.multicast true size mask place) order scope 0 false) lanes [])) ∧
        (counter g Counter.cl.ident < 63 → step % 4 = 0 → (∀ k, k < 16 → mask.getLsbD k = true → k < clusterSize s g.team) →
          (∀ l ∈ ls, (a l).toNat < 2 ^ 24 ∧ ∀ k, k < 16 → mask.getLsbD k = true →
            (a l).toNat + k * step + size ≤ stash ∧ ((a l).toNat + k * step) % size = 0) →
          (∀ p, place = some p → p < 2 ^ 24 ∧ p + 32 ≤ stash ∧ p % 32 = 0) →
          exec (.stm gd d b x t false order scope bar bars) s = .next (issued s g (.stm gd d b x t false order scope bar bars)
            (opFor 2 .cl (.multicast false size mask place) order scope 0 false) lanes []))) ∧
      (counter g Counter.st.ident < 63 → (∀ l ∈ ls, aligned l) → mask.toNat < 0xFC000000000000 →
        exec (.stf gd d b x t order scope) s = .next (issued s g (.stf gd d b x t order scope)
          (opFor 2 .st (.flagged size mask) order scope 0 false)
          (if ls = [] then [] else lanes ++ [{ lane := 64, addr := mask }]) []))) ∧
  (
    ∀ (s : State) (g : Group), Selected s g →
      (∀ (lvl : BitVec 2) (gd : BitVec 5) (b : BitVec 7) (off : BitVec 21),
        let a (l : Nat) : Word64 := baseOf s g 0 b l + off.signExtend 64
        exec (.pref lvl gd b off) s = .next
          (((lanesOf g.width (active g gd)).foldl (fun u l => prefLane u s.cur g lvl (a l)) s).upGroup s.cur (advance 2))) ∧
      ∀ (gd : BitVec 5) (d : BitVec 6) (coord desc : BitVec 7) (t order scope : BitVec 3) (cache : BitVec 2) (nt clipping : Bool),
        let size : Nat := [4, 8, 16, 1, 2].getD t.toNat 4
        let load : Op := opFor 2 .ld (.load size false false d.toNat) order scope cache nt
        let store : Op := opFor 2 .st (.store size) order scope cache nt
        let m : Word64 := active g gd &&& onesBelow g.width
        let ld : Instr := .ldt gd d coord desc t order scope cache nt clipping
        let st : Instr := .stt gd d coord desc t order scope cache nt clipping
        (m = 0 → (counter g Counter.ld.ident < 63 → exec ld s = .next (issued s g ld load [] [])) ∧
          (counter g Counter.st.ident < 63 → exec st s = .next (issued s g st store [] []))) ∧
        (m ≠ 0 → ∀ (u : State) (e : Desc) (lanes : List (Nat × TensorLane)),
          let launch := (gridOf s g).map (·.launch)
          let index : Nat := (usrc s g tInt 4 desc).toNat
          let found := fetchDesc s (groupWho s s.cur g) ((launch.map (·.desc.toNat)).getD 0) ((launch.map (·.ndesc)).getD 0) index
          (found = (u, .error .desc) → counter g Counter.ld.ident < 63 → exec ld s = .next (trapAt u u.cur 0x13 m)) ∧
          (found = (u, .error .desc) → counter g Counter.st.ident < 63 → exec st s = .next (trapAt u u.cur 0x13 m)) ∧
          (found = (u, .ok e) → 8 * size % e.ew = 0 → tblGet u.groups u.cur = some g →
            (∀ x ∈ lanes, x.2.eng = none ∧ x.2.fault = none ∧ x.2.desc = false) →
            (tensorLanes u g (groupWho s s.cur g) e coord size clipping (fun _ => []) (lanesOf g.width m) = (u, lanes) →
              counter g Counter.ld.ident < 63 → CounterFree g load (lanes.filterMap fun x => x.2.acc) →
              exec ld s = .next (issued u g ld
                { load with writes := (lanes.filter fun x => x.2.clipped).flatMap fun x =>
                    (loadDests g false d.toNat size [x.1]).map fun r => (r, (0 : Word)) }
                (lanes.filterMap fun x => x.2.acc) (loadDests g false d.toNat size (lanesOf g.width m)))) ∧
            (tensorLanes u g (groupWho s s.cur g) e coord size clipping (storeBytes s g 5 false d.toNat size) (lanesOf g.width m) = (u, lanes) →
              counter g Counter.st.ident < 63 → CounterFree g store (lanes.filterMap fun x => x.2.acc) →
              exec st s = .next (issued u g st store (lanes.filterMap fun x => x.2.acc) [])))))

/-- R183, R318 to R320: FENCE. With the write-combining buffer empty, the group goes on at once exactly where its ordering holds: for a
release at .clu or wider every older memory operation is complete and LEASECLK passes CHZ, for a narrower one every older load has
returned and every older store has performed, and with XP every older operation is complete at either; for an acquire its reads have
returned, and with XP LEASECLK passes what the engines reported. Otherwise it waits, and its place and its registers stay. -/
def Obligations.Fences : Prop :=
  ∀ (s : State) (g : Group) (gd : BitVec 5) (order scope : BitVec 3) (xp : Bool), Selected s g → g.wcb = [] →
    let o : Order := [Order.rlx, .acq, .rel, .ar, .sc].getD order.toNat .sc
    let rel : Prop := o = .rel ∨ o = .ar ∨ o = .sc
    let acq : Prop := o = .acq ∨ o = .ar ∨ o = .sc
    let wide : Prop := 2 ≤ scope.toNat
    let older (p : Op) : Prop := p.uid < s.fresh ∧ p.kind ≠ none
    let released : Prop :=
      if wide then (∀ p ∈ g.ops, older p → p.stage = .complete) ∧ g.chz + 2 ≤ s.clock / 4
      else ∀ p ∈ g.ops, older p →
        p.stage ≠ .issued ∧ p.flight = [] ∧ ((p.kind.map loads = some true) → p.remote = []) ∧ (xp = true → p.stage = .complete)
    let holds : Prop := (rel → released) ∧ (acq → readsDone g = true ∧ (xp = true → g.engChz + 2 ≤ s.clock / 4))
    (holds → ∃ g', exec (.fence gd order scope xp) s = .next (s.putGroup s.cur g') ∧
      g' = { advance 1 g with chz := g'.chz, wait := .none } ∧ (acq ∧ wide → g'.chz = max g.chz g.readC) ∧ (¬ (acq ∧ wide) → g'.chz = g.chz)) ∧
    (¬ holds → ∃ w, exec (.fence gd order scope xp) s = .next (s.putGroup s.cur { g with wait := w }) ∧ w ≠ .none)

/-- R188 to R192: TXBEGIN writes 0 to its register, records EXEC, and goes on at the next header. TXEND and TXABORT have no effect outside a
transaction. TXABORT inside one discards the buffer, restores EXEC, writes cause 5 with its code and the number of lines, and resumes at
the recorded header. TXEND commits once the transaction's loads are complete. -/
def Obligations.Transactions : Prop :=
  ∀ (s : State) (g : Group), Selected s g →
    (∀ d : BitVec 6,
      exec (.txbegin d) s = .next (s.putGroup s.cur { transfer (nextHeader g) (writeS g d.toNat 0) with
        tx := some { dst := d.toNat, savedExec := g.exec, resume := nextHeader g, lines := [], written := [], site := none, bytes := [],
                     stores := [] } })) ∧
    (g.tx = none → exec .txend s = .next (s.putGroup s.cur { advance 1 g with wait := .none }) ∧
      ∀ c : BitVec 8, exec (.txabort c) s = .next (s.putGroup s.cur (advance 1 g))) ∧
    ∀ t : Tx, g.tx = some t →
      (∀ c : BitVec 8, ∃ g', exec (.txabort c) s = .next (s.putGroup s.cur g') ∧ g'.tx = none ∧ g'.exec = t.savedExec ∧ g'.pc = t.resume ∧
        g'.hdr = none ∧ g'.idx = 0 ∧ g'.v = g.v ∧ g'.p = g.p ∧ g'.q = g.q ∧
        UniformTakes g g' (fun k => if k = t.dst then some (BitVec.ofNat 32 (5 + 256 * c.toNat + 65536 * t.lines.length)) else none) ∧
        ∀ o ∈ g'.ops, o.uid ∈ t.stores → o.stage = .complete ∧ o.lanes = []) ∧
      (orderedMode s g = false → (∀ o ∈ g.ops, o.kind ≠ none → o.uid ∉ t.stores → o.stage = .complete) →
        exec .txend s = .next ((commitTx s s.cur g t).upGroup s.cur fun g => { advance 1 g with wait := .none }))

/-- R185 to R187: SBIND of a legal range whose lines lie on LOCAL or INTERLEAVE pages binds it to its slot, after what the slot held is
written back; SUNBIND writes the slot's lines back and unbinds it; SFLUSH writes them back and keeps the binding. Each raises CHZ to the
latest completion time of its write-back; while an access of the group is in flight (log entry 94) each waits. An operand that SBIND does
not take is the window trap, 0x10, and an overlap the trap 0x14. -/
def Obligations.StashBinding : Prop :=
  ∀ (s : State) (g : Group) (slot : BitVec 3), Selected s g → g.captured = none → flying g = false →
    let after (u : State) (c : Nat) : State := u.upGroup u.cur fun g => { advance 2 { g with chz := max g.chz c } with wait := .none }
    (∀ (gaddr soff len : BitVec 7),
      let ga : Nat := (usrc64 s g 0 gaddr).toNat
      let so : Nat := (usrc s g tInt 2 soff).toNat
      let n : Nat := (usrc s g tInt 3 len).toNat
      let lane : Nat := (lowestLane g.width g.exec).getD 0
      let legal : Prop := so % 128 = 0 ∧ ga % 128 = 0 ∧ n % 128 = 0 ∧ n ≠ 0 ∧ so + n ≤ stashSize s g.team ∧ ga + n ≤ 0xFC000000000000
      let clear : Prop := ∀ e ∈ ((tblGet s.teams g.team).map (·.binds)).getD [], e.1 ≠ slot.toNat →
        ¬ (so < e.2.soff + e.2.len ∧ e.2.soff < so + n) ∧ ¬ (ga < e.2.gaddr.toNat + e.2.len ∧ e.2.gaddr.toNat < ga + n)
      (¬ legal → exec (.sbind slot gaddr soff len) s = .next (trapAt s s.cur 0x10 (laddr lane (BitVec.ofNat 64 ga)))) ∧
      (legal → ¬ clear → exec (.sbind slot gaddr soff len) s = .next (trapAt s s.cur 0x14 (small slot.toNat))) ∧
      (legal → clear → ∀ (u : State) (lines : List Nat),
        bindLines s (groupWho s s.cur g) lane ga (n / 128) = (u, .ok lines) → u.cur = s.cur →
        let w := writeBackSlot u g.team slot.toNat true
        w.1.cur = s.cur →
        exec (.sbind slot gaddr soff len) s = .next (after (w.1.upTeam g.team fun t =>
          { t with binds := tblSet t.binds slot.toNat { gaddr := BitVec.ofNat 64 ga, soff := so, len := n, lines := lines } }) w.2))) ∧
    (let w := writeBackSlot s g.team slot.toNat true
     w.1.cur = s.cur → exec (.sunbind slot) s = .next (after w.1 w.2)) ∧
    (let w := writeBackSlot s g.team slot.toNat false
     w.1.cur = s.cur → exec (.sflush slot) s = .next (after w.1 w.2))

/-! ### Matrix instructions and feed programs -/

/-- R194 to R196, R199, R200: a matrix instruction is a rendezvous of its quartet. A group that may issue none takes the trap 0x20, and one
whose quartet has lost a member the trap 0x22 with the lowest lost member; a group before the fourth waits at the latch. The fourth
arrival of one and the same instruction, where its counter has room and no long MMA is outstanding, begins the check with the operands of
member 0, or after a restore with those that it captured; a check that passes accepts the operation at once, or where it reads memory when
it ends (MATRIX_CHECK_END). -/
def Obligations.MatrixInstructionsMeet : Prop :=
  ∀ (s : State) (g lead : Group) (t : Team) (q : Quartet) (i : Instr), Selected s g → tblGet s.teams g.team = some t →
    let k : Nat := g.grpid / 4
    tblGet t.quartets k = some q →
    (match i with
      | .accz .. | .setrt .. | .mma .. | .mmaLong .. | .accld .. | .accst .. | .accepi .. | .accepiSend .. | .mxsave .. | .mxres ..
      | .hadt .. | .qblk .. | .dqblk .. => True
      | _ => False) →
    let may : Prop := 64 ≤ g.width ∧ t.tiles = true ∧ 4 * k + 4 ≤ t.groups.length ∧ g.handler = false
    let w : Word64 := wordsOf i
    let latch : Table Word64 := tblSet q.latch (g.grpid % 4) w
    let v : State := (s.upQuartet g.team k fun q => { q with latch := latch }).upGroup s.cur fun g => { g with wait := .rendezvous }
    (¬ may → exec i s = .next (trapAt s s.cur 0x20 0)) ∧
    (may → ∀ m, m < 4 → m ∈ q.lost → (∀ j, j < m → j ∉ q.lost) → exec i s = .next (trapAt s s.cur 0x22 (small m))) ∧
    (may → (∀ m, m < 4 → m ∉ q.lost) → latch.length ≠ 4 → exec i s = .next v) ∧
    (may → (∀ m, m < 4 → m ∉ q.lost) → latch = [(0, w), (1, w), (2, w), (3, w)] →
      decodeWords (w.toNat % 2 ^ 32) (w.toNat / 2 ^ 32) = .ok i → (quartetGroups v g.team k).head?.bind (tblGet v.groups) = some lead →
      (∀ c, mxCounter i = some c → ∀ n ∈ quartetGroups v g.team k, ∀ e, tblGet v.groups n = some e → counter e c.ident < 63) →
      q.checking = none → ((∃ a, i = .mxsave a) ∨ ∀ o ∈ q.ops, isLongMma o.instr = false) →
      let o : MxOp := { uid := s.fresh, instr := i, vals := operands lead (mxVals v lead i), a := issueA v g.team k i }
      let u : State := (({ v with fresh := s.fresh + 1 }).upQuartet g.team k fun q =>
        { q with latch := [], checking := some o }).upMembers g.team k fun g => { g with wait := .matrixCheck }
      (slowCheck o = false → ∀ u' o', checkMtx u g.team k o = (u', .ok o') → exec i s = .next (acceptMtx u' g.team k i o')) ∧
      (slowCheck o = true →
        (∀ t', tblGet v.teams g.team = some t' → lowestCause (mxCauses v g.team t' { q with latch := latch } o) = none) →
        exec i s = .next u ∧
        (q.checkRec = none → ∀ u' o', checkMtx u g.team k o = (u', .ok o') → exec (.matrixCheckEnd g.team k) u = .next (acceptMtx u' g.team k i o'))))

/-- R195, R205, R211, R213: where the engine of the team is idle, the fourth arrival of ACCZ clears each element and each error bit of the
tiles that its mask names and of no other, and every member goes on. -/
def Obligations.TilesClear : Prop :=
  ∀ (s : State) (g : Group) (t : Team) (q : Quartet) (m : BitVec 8), Selected s g → tblGet s.teams g.team = some t →
    let k : Nat := g.grpid / 4
    let w : Word64 := wordsOf (.accz m)
    tblGet t.quartets k = some q → 64 ≤ g.width → t.tiles = true → 4 * k + 4 ≤ t.groups.length → g.handler = false →
    q.lost = [] → q.checking = none → (∀ e ∈ t.quartets, e.2.ops = []) → t.groups.Nodup →
    (∀ n ∈ (t.groups.drop (4 * k)).take 4, (tblGet s.groups n).isSome) →
    tblSet q.latch (g.grpid % 4) w = [(0, w), (1, w), (2, w), (3, w)] →
    ∃ u t', exec (.accz m) s = .next u ∧ tblGet u.teams g.team = some t' ∧ u.mem = s.mem ∧
      (∀ tile r c, tile < 8 → r < 64 → c < 64 → accGet t'.acc tile r c = if m.getLsbD tile then 0 else accGet t.acc tile r c) ∧
      (∀ tile, tile < 8 → (tile ∈ t'.accErr ↔ tile ∈ t.accErr ∧ m.getLsbD tile = false)) ∧
      ∀ n ∈ (t.groups.drop (4 * k)).take 4, ∀ e, tblGet s.groups n = some e →
        ∃ e', tblGet u.groups n = some e' ∧ AtNext 1 e e' ∧ e'.wait = .none ∧ e'.v = e.v ∧ e'.s = e.s ∧ e'.ctr = e.ctr

/-- R218, R219: FEED ends the group's program and starts another whose words keep R220, with its arguments in a0 onward and its queues empty;
a program address that is no multiple of 4 is the misalignment trap, 0x12, and a word that breaks R220 the feed-program trap, 0x06, with
its index. FSTOP ends the program, and its entries go. -/
def Obligations.FeedStartsAndStops : Prop :=
  ∀ (s : State) (g : Group), Selected s g → g.captured = none →
    let stopped : State :=
      { s.upGroup s.cur fun g => { g with feed := none } with
        faults := s.faults.filter fun e => !(e.2.group == s.cur && e.2.party == 2) }
    exec .fstop s = .next (stopped.upGroup s.cur (advance 1)) ∧
    ∀ (prog args : BitVec 7) (na : BitVec 3) (qmask : BitVec 4),
      let p : Word64 := usrc64 s g 0 prog
      let w : Who := fennelWho s s.cur g
      (p.toNat % 4 ≠ 0 → exec (.feed prog args na qmask) s = .next (trapAt stopped s.cur 0x12 (laddr 0 p))) ∧
      (p.toNat % 4 = 0 → ∀ u n, scanProgram g w p.toNat qmask.toNat 64 0 0 stopped = (u, .error (.word n)) →
        exec (.feed prog args na qmask) s = .next (trapAt u s.cur 0x06 (small n))) ∧
      (p.toNat % 4 = 0 → ∀ u ws e, scanProgram g w p.toNat qmask.toNat 64 0 0 stopped = (u, .ok ws) → tblGet u.groups s.cur = some e →
        ∃ f, exec (.feed prog args na qmask) s = .next (u.upGroup s.cur fun g => advance 2 { g with feed := some f }) ∧
          f.prog = p ∧ f.words = ws ∧ f.running = true ∧ f.parked = false ∧ f.failed = none ∧ f.place.pos = 0 ∧ f.place.loops = [] ∧
          (∀ j, j < 4 → f.queues.getD j [] = []) ∧
          ∀ j, j < 8 → f.place.a.getD j 0 =
            if args ≠ 104 ∧ j ≤ na.toNat then usrc64 s g 1 (args + BitVec.ofNat 7 (2 * j)) else 0)

/-- R220, R221: the words of a feed program. FLOOP opens a loop level, or at a count of 0 skips past its FEND; FSTEP steps an address
register; FEND closes an iteration, a loop, or at depth 0 the program; FSYNC passes once every entry is popped and the stores outstanding
then have retired. FLD and FLDS append one entry for each 32-bit register of a lane's value. No word of a program that is parked has an
effect. -/
def Obligations.FeedWordsRun : Prop :=
  ∀ (s : State) (g : Group) (f : Feed), Selected s g → g.feed = some f → f.running = true →
    let put (f' : Feed) : Host.Outcome State Fault Refusal := .next (s.upGroup s.cur fun g => { g with feed := g.feed.map fun _ => f' })
    let at_ (pos : Nat) : Feed := { f with place := { f.place with pos := pos } }
    let loop (n : Nat) : Feed :=
      if n = 0 then at_ (afterLoop f.words 64 (f.place.pos + 1) 0)
      else { f with place := { f.place with loops := (f.place.pos, 0, n) :: f.place.loops, pos := f.place.pos + 1 } }
    let reg (n : BitVec 3) : Word64 := f.place.a.getD n.toNat 0
    let step (n : BitVec 3) (x : Word64) : Feed :=
      { f with place := { f.place with a := f.place.a.set n.toNat (reg n + x), pos := f.place.pos + 1 } }
    (f.parked = true → ∀ i, isFeedWord i = true → exec i s = .next s) ∧
    (f.parked = false →
      (∀ n : BitVec 24, exec (.floop n) s = put (loop n.toNat)) ∧
      (∀ n : BitVec 3, exec (.floopReg n) s = put (loop ((reg n).toNat % 2 ^ 32))) ∧
      (∀ (n : BitVec 3) (x : BitVec 21), exec (.fstep n x) s = put (step n (x.signExtend 64))) ∧
      (∀ n m : BitVec 3, exec (.fstepReg n m) s = put (step n (reg m))) ∧
      exec .fend s = put (match f.place.loops with
        | [] => { f with running := false }
        | (w, done, count) :: rest =>
          if done + 1 < count then { f with place := { f.place with loops := (w, done + 1, count) :: rest, pos := w + 1 } }
          else { f with place := { f.place with loops := rest, pos := f.place.pos + 1 } }) ∧
      (let stores : List Nat := (g.ops.filter fun o => o.ctr = .st).map (·.uid)
       exec .fsync s = put (match f.syncStores with
        | none => if ∀ x ∈ f.queues, x = [] then (if stores = [] then at_ (f.place.pos + 1) else { f with syncStores := some stores }) else f
        | some us => if ∀ x ∈ us, x ∉ stores then { at_ (f.place.pos + 1) with syncStores := none } else f)) ∧
      ∀ (q : BitVec 2) (t n m sh : BitVec 3) (off : BitVec 14),
        let size : Nat := [4, 8, 16, 1, 1, 2, 2].getD t.toNat 4
        let signed : Bool := t == 4 || t == 6
        let who : Who := fennelWho s s.cur g
        let a (l : Nat) : Nat :=
          (reg n + off.signExtend 64 + BitVec.ofNat 64 (l % 2 ^ sh.toNat * size) + BitVec.ofNat 64 (l / 2 ^ sh.toNat) * reg m).toNat
        let one : Nat := (reg n + off.signExtend 64).toNat
        (feedQueue g q.toNat).length + (size + 3) / 4 ≤ 8 →
        (∀ u ws, (∀ l, l < g.width → feedAddrOk s g.team (a l) size = true) →
          feedReads who g.team size signed ((List.range g.width).map fun l => (l, a l)) s = (u, .ok ws) →
          exec (.fld q t n m sh off) s = .next (u.upFeed s.cur (appendEntries q.toNat (laneEntries ((size + 3) / 4) ws)))) ∧
        (∀ u x, feedAddrOk s g.team one size = true → feedReads who g.team size signed [(0, one)] s = (u, .ok [(0, x)]) →
          exec (.flds q t n off) s = .next (u.upFeed s.cur (appendEntries q.toNat
            (laneEntries ((size + 3) / 4) ((List.range g.width).map fun l => (l, x)))))))

/-! ### Copies, barriers and waits -/

/-- R248 to R255, R257, R259: CPY whose addresses and strides are multiples of 4 and whose shape keeps the limits, with room in the open copy
group, captures its operands and holds the group for its probe; a shape beyond the limits is the trap 0x30. CPYT does so for a tile of its
descriptor that keeps R253, in shards that the shard table names. A copy whose probe passes joins the open group, and the group goes on.
CMIT closes the open group as one operation on CP. -/
def Obligations.CopiesBegin : Prop :=
  ∀ (s : State) (g : Group), Selected s g → g.captured = none →
    let begins (i : Instr) (u : State) (rel res : Bool) (c : Copy) : Prop :=
      let at_ : Nat := if res then min g.cpoff.toNat c.total else 0
      let c' : Copy := { c with
        uid := u.fresh, words := wordsOf i, start := at_, offset := at_, lowered := at_
        relOps := if rel then (tblGet (drainWcb u s.cur).groups s.cur).elim [] unacked else [] }
      let v : State := if rel then drainWcb u s.cur else u
      exec i s = .next ({ v with fresh := v.fresh + 1 }.upGroup s.cur fun g =>
        { g with copies := g.copies ++ [c'], wait := .probe u.fresh })
    (∀ (dsta srca shape str bar : BitVec 7) (baron rel res : Bool) (tw : BitVec 3),
      let rowb : Nat := ((usrc64 s g 2 shape).setWidth 32 : Word).toNat
      let nrow : Nat := (usrc64 s g 2 shape >>> 32).toNat
      let st : Word64 := usrc64 s g 4 str
      let dense : Bool := str = 104
      let bits : Nat := [0, 4, 8, 16, 32].getD tw.toNat 0
      let c : Copy :=
        { uid := 0, words := 0, kind := 0, da := (usrc64 s g 0 dsta).toNat, sa := (usrc64 s g 1 srca).toNat, rowb := rowb, nrow := nrow
          sstr := if dense then rowb else (st.setWidth 32 : Word).toNat
          dstr := if dense then (if tw = 0 then rowb else nrow * bits / 8) else (st >>> 32).toNat
          tw := tw.toNat, bar := if baron then some (usrc s g tInt 6 bar).toNat else none }
      let aligned : Prop := c.sa % 4 = 0 ∧ c.da % 4 = 0 ∧ c.sstr % 4 = 0 ∧ c.dstr % 4 = 0
      let legal : Prop := rowb % 4 = 0 ∧ 4 ≤ rowb ∧ rowb ≤ 2 ^ 24 ∧ 1 ≤ nrow ∧ nrow ≤ 2 ^ 16 ∧ rowb ≤ c.sstr ∧
        (if tw = 0 then rowb ≤ c.dstr else nrow * bits / 8 ≤ c.dstr ∧ nrow * bits % 32 = 0)
      let barOk : Prop := baron = true → barrierFaults s g (usrc s g tInt 6 bar) false = []
      tw.toNat < 5 → barOk → aligned →
        (legal ∧ g.openCopies.length < 64 → begins (.cpy dsta srca shape str bar baron rel res tw) s rel res c) ∧
        (¬ legal → exec (.cpy dsta srca shape str bar baron rel res tw) s = .next (trapAt s s.cur 0x30 0))) ∧
    (∀ (desc coord buf ext bar : BitVec 7) (baron rel res tr clip : Bool) (u v : State) (d : Desc) (cs : List Nat)
        (sh : List (Nat × Nat × Nat)),
      let w : Who := engineWho (siteOf s g) (ctxOf s g) (some s.cur)
      let launch := (gridOf s g).map (·.launch)
      let table : Nat := (launch.map (·.desc.toNat)).getD 0
      let n : Nat := (usrc s g tInt 5 desc).toNat
      let b : Nat := (usrc64 s g 4 buf).toNat
      let c : Copy :=
        { uid := 0, words := 0, kind := 0, buf := b, e0 := ((usrc64 s g 2 ext).setWidth 32 : Word).toNat, e1 := (usrc64 s g 2 ext >>> 32).toNat
          coords := cs, descBytes := cachedDesc u w table n, desc := n, transpose := tr, clip := clip
          bar := if baron then some (usrc s g tInt 6 bar).toNat else none }
      (baron = true → barrierFaults s g (usrc s g tInt 6 bar) false = []) → b % 4 = 0 →
        fetchDesc s w table ((launch.map (·.ndesc)).getD 0) n = (u, .ok d) → coordsOf s g coord d.rank 0 = some cs →
        (coordsOf u g coord d.rank 0).isSome → (clip = true ∨ tileInside c d = true) →
        tileShards u w d (shardsOf c d) = (v, .ok sh) → v.cur = s.cur → tileFaults g { c with shards := sh } d = [] →
        tileOk c d = true → g.openCopies.length < 64 →
        begins (.cpytLoad desc coord buf ext bar baron rel res tr clip) v rel res { c with kind := 1, shards := sh } ∧
        begins (.cpytStore desc coord buf ext bar baron rel res tr clip) v rel res { c with kind := 2, shards := sh }) ∧
    (counter g Counter.cp.ident < 63 →
      let o : Op := { uid := s.fresh, ctr := .cp, len := 1, stage := .performed, copies := g.openCopies }
      exec .cmit s = .next ({ s with fresh := s.fresh + 1 }.putGroup s.cur (advance 1 { g with
        ctr := g.ctr.set 4 (counter g 5 + 1), ops := g.ops ++ [o], openCopies := [] }))) ∧
    ∀ (c c2 : Copy) (u : State), c.parked = none → g.wait = .probe c.uid → findCopy g c.uid = some c →
      probeCopy s s.cur g c = { s := u, copy := c2, faults := [] } →
      exec (.copyProbeEnd s.cur) s = .next (u.upGroup s.cur fun g =>
        { advance 2 (upCopy c2.uid (fun _ => { c2 with probed := true }) g) with openCopies := g.openCopies ++ [c2.uid], wait := .none })

/-- R261 to R264: the landing barriers, as the 32 bytes at an aligned offset of the team's own stash hold them (QUOTA, PEND, COUNT, LEFT, GEN,
and the bits ERR and CERR). BINIT begins phase 0; BEXP adds to PEND; BARV gives GEN, adds its bytes to PEND and takes 1 from LEFT. The
update that leaves LEFT and PEND both 0 closes the phase. Each completes at once, BARV where its release holds, and no byte outside the
barrier changes. R263: BWAIT leaves once the barrier has closed between 1 and 2^31 − 1 phases since `gen`: sd takes CERR in bit 0 and, where
more than one phase has closed, bit 1, and the group acquires at .clu with the engines' writes. Until then it waits, and nothing else
changes. -/
def Obligations.LandingBarriers : Prop :=
  (
    ∀ (s : State) (g : Group) (x : BitVec 7), Selected s g → flying g = false → (((tblGet s.teams g.team).map (·.binds)).getD []) = [] →
      let off : Nat := (usrc s g tInt 0 x).toNat
      off < 2 ^ 24 → off + 32 ≤ stashSize s g.team → off % 32 = 0 →
      let place : Nat := stashLoc g.team off
      let field (m : Cells 8) (o n : Nat) : Nat := leNat (readBytes m (place + o) n)
      let holds (m : Cells 8) (quota pend count left gen flags : Nat) : Prop :=
        field m 24 8 = quota ∧ field m 16 8 = pend ∧ field m 14 2 = count ∧ field m 12 2 = left ∧ field m 8 4 = gen ∧ field m 0 8 = flags
      let apart (m : Cells 8) : Prop := ∀ a, (a < place ∨ place + 32 ≤ a) → readByte m a = readByte s.mem a
      let settles (m : Cells 8) (quota pend count left gen flags : Nat) : Prop :=
        if left = 0 ∧ pend = 0 then holds m quota quota count count ((gen + 1) % 2 ^ 32) (2 * (flags % 2)) else holds m quota pend count left gen flags
      let others (u : State) : Prop := ∀ n, n ≠ s.cur → tblGet u.groups n = tblGet s.groups n
      (∀ count quota : BitVec 7,
        let c : Nat := (usrc s g tInt 1 count).toNat
        let q : Nat := (usrc s g tInt 2 quota).toNat
        (1 ≤ c ∧ c ≤ 65535 → ∃ u : State, exec (.binit x count quota) s = .next u ∧ holds u.mem q q c c 0 0 ∧ apart u.mem ∧ others u ∧
          tblGet u.groups s.cur = some (advance 2 g)) ∧
        (¬ (1 ≤ c ∧ c ≤ 65535) → exec (.binit x count quota) s = .next (trapAt s s.cur 0x31 (small off)))) ∧
      ∀ (n : BitVec 7) (quota pend count left gen flags : Nat), holds s.mem quota pend count left gen flags → flags < 4 →
        let bytes : Nat := (usrc s g tInt 1 n).toNat
        (∃ u : State, exec (.bexp x n) s = .next u ∧ settles u.mem quota ((pend + bytes) % 2 ^ 64) count left gen flags ∧ apart u.mem ∧ others u ∧
          tblGet u.groups s.cur = some (advance 1 g)) ∧
        ∀ d : BitVec 6, d.toNat < 32 → g.wcb = [] → (∀ o ∈ g.ops, o.stage = .complete) → g.chz + 2 ≤ s.clock / 4 →
          (left = 0 → exec (.barv d x n) s = .next (trapAt (s.upGroup s.cur fun g => { g with wait := .none }) s.cur 0x31 (small off))) ∧
          (left ≠ 0 → ∃ u : State, exec (.barv d x n) s = .next u ∧
            settles u.mem quota ((pend + bytes) % 2 ^ 64) count (left - 1) gen flags ∧ apart u.mem ∧ others u ∧
            tblGet u.groups s.cur = some { advance 1 (writeS g d.toNat (BitVec.ofNat 32 gen)) with wait := .none })) ∧
  (
    ∀ (s : State) (g : Group) (x n : BitVec 7) (d : BitVec 6), Selected s g → flying g = false → (((tblGet s.teams g.team).map (·.binds)).getD []) = [] →
      let off : Nat := (usrc s g tInt 0 x).toNat
      off < 2 ^ 24 → off + 32 ≤ stashSize s g.team → off % 32 = 0 → d.toNat < 32 →
      let place : Nat := stashLoc g.team off
      let gen : Nat := leNat (readBytes s.mem (place + 8) 4)
      let k : Nat := (gen + 2 ^ 32 - (usrc s g tInt 1 n).toNat) % 2 ^ 32
      let cerr : Nat := (readByte s.mem place).toNat / 2 % 2
      (k = 0 ∨ 2 ^ 31 ≤ k → ∃ w, exec (.bwait d x n) s = .next (s.putGroup s.cur { g with wait := w }) ∧ w ≠ .none) ∧
      (1 ≤ k ∧ k < 2 ^ 31 → (∀ o ∈ g.ops, o.stage = .complete) → g.engChz + 2 ≤ s.clock / 4 →
        exec (.bwait d x n) s = .next (s.putGroup s.cur
          { advance 1 { writeS g d.toNat (BitVec.ofNat 32 (cerr + if 1 < k then 2 else 0)) with chz := max g.chz g.readC } with wait := .none })))

/-- R266: BART and BARC. An arrival whose release holds is recorded, and the group waits while a live group of the team (of BARC, of a team of
the cluster) has not arrived. With the last arrival every group that waits at the barrier leaves it in one step, and the arrivals are
cleared. -/
def Obligations.TeamBarriers : Prop :=
  ∀ (s : State) (g : Group) (id : BitVec 2) (cluster : Bool), Selected s g → g.ended = false → g.wcb = [] → g.ops = [] →
    g.chz + 2 ≤ s.clock / 4 →
    let i : Instr := if cluster then .barc id else .bart id
    let ts : List Nat := if cluster then (List.range (clusterSize s g.team)).filterMap fun r => clusterTeam s g.team r else [g.team]
    let w : Wait := if cluster then .barc id.toNat else .bart id.toNat
    let arrived (u : State) (t : Nat) : List Nat :=
      match tblGet u.teams t with
      | some t => (tblGet (if cluster then t.barc else t.bart) id.toNat).getD []
      | none => []
    let live (t n : Nat) : Prop := n ∈ (((tblGet s.teams t).map (·.groups)).getD []) ∧ ∃ e, tblGet s.groups n = some e ∧ e.ended = false
    g.team ∈ ts → ts.Nodup → (tblGet s.teams g.team).isSome → live g.team s.cur →
    let last : Prop := ∀ t ∈ ts, ∀ n, live t n → n = s.cur ∨ n ∈ arrived s t
    (¬ last → ∃ u : State, exec i s = .next u ∧ tblGet u.groups s.cur = some { g with wait := w } ∧ s.cur ∈ arrived u g.team ∧
      (∀ n ∈ arrived s g.team, n ∈ arrived u g.team) ∧ (∀ n, n ≠ s.cur → tblGet u.groups n = tblGet s.groups n) ∧ u.mem = s.mem) ∧
    (last → (∀ t ∈ ts, ∀ n ∈ arrived s t, ∀ e, tblGet s.groups n = some e → e.wait = w → ∀ o ∈ e.ops, o.stage = .complete) →
      ∃ u : State, exec i s = .next u ∧ (∀ t ∈ ts, arrived u t = []) ∧ u.mem = s.mem ∧
        (∀ n e, tblGet s.groups n = some e → n = s.cur ∨ ((∃ t ∈ ts, n ∈ arrived s t) ∧ e.wait = w) →
          tblGet u.groups n = some { advance 1 { e with chz := if cluster then max e.chz e.readC else e.chz } with wait := .none }) ∧
        ∀ n e, tblGet s.groups n = some e → n ≠ s.cur → ((∀ t ∈ ts, n ∉ arrived s t) ∨ e.wait ≠ w) → tblGet u.groups n = some e)

/-- R164, R260: WAITC waits until each counter that it names with a nonzero identifier is at or below its threshold; a reported error that pends
on one of them is raised then, the lowest identifier first; else the group goes on. R161, R269: WAITA of an aligned word on a LOCAL or
INTERLEAVE page ends at once with a value that differs from its compare value, or past its deadline with the value it read, and acquires;
else it waits. An address that is no global one is the window trap, 0x10, and one on such a page that is no multiple of 8 the misalignment
trap, 0x12. -/
def Obligations.CounterAndAddressWaits : Prop :=
  (
    ∀ (s : State) (g : Group) (id1 id2 : BitVec 3) (t1 t2 : BitVec 6), Selected s g →
      let named : List (Nat × Nat) := [(id1.toNat, t1.toNat), (id2.toNat, t2.toNat)].filter fun c => c.1 != 0
      let met : Prop := ∀ c ∈ named, counter g c.1 ≤ c.2
      let pends (c : Nat) : Prop := ∃ r e, tblGet g.repErr c = some r ∧ r.cause = some e
      (¬ met → exec (.waitc id1 t1 id2 t2) s = .next (s.putGroup s.cur { g with wait := .waitc named })) ∧
      (met → (∀ c ∈ named, ¬ pends c.1) → exec (.waitc id1 t1 id2 t2) s = .next (s.putGroup s.cur { advance 1 g with wait := .none })) ∧
      (met → ∀ c ∈ named, pends c.1 → (∀ c' ∈ named, pends c'.1 → c.1 ≤ c'.1) →
        exec (.waitc id1 t1 id2 t2) s = .next (raiseReported s s.cur c.1))) ∧
  (
    ∀ (s : State) (g : Group) (d : BitVec 6) (a r : BitVec 7), Selected s g → g.captured = none → flying g = false →
      let x : Word64 := usrc64 s g 0 a
      let lane : Nat := (lowestLane g.width g.exec).getD 0
      let deadline : Nat := (usrc64 s g 4 (r + 2)).toNat
      (0xFC000000000000 ≤ x.toNat → exec (.waita d a r) s = .next (trapAt s s.cur 0x10 (laddr lane x))) ∧
      (x.toNat < 0xFC000000000000 → ∀ (u : State) (p : Phys) (loc : Nat),
        engTranslate s (groupWho s s.cur g) x.toNat false = (u, .ok p) → p.target = .mem loc → p.attr ≤ 1 →
        (x.toNat % 8 ≠ 0 → exec (.waita d a r) s = .next (trapAt u s.cur 0x12 (laddr lane x))) ∧
        (x.toNat % 8 = 0 →
          let got := loadAt (sendWcb u s.cur (lineOf loc)) (some s.cur) loc 8
          got.2.bad = false →
          let v : Word64 := BitVec.ofNat 64 (leNat got.2.bytes)
          exec (.waita d a r) s = .next (
            if v = usrc64 s g 2 r ∧ s.clock / 4 < deadline then
              got.1.upGroup s.cur fun e => { e with wait := .waita d.toNat x (usrc64 s g 2 r) deadline got.2.ctime }
            else got.1.upGroup s.cur fun g =>
              let g1 := writeS64 { g with readC := max g.readC got.2.ctime } d.toNat v
              { advance 1 { g1 with chz := max g1.chz got.2.ctime } with wait := .none }))))

/-- R267, R268: SCHNEXT gives the next entry of the schedule set of its team and moves the cursor, or all ones where there is no schedule or
the set is at its end. QPUT claims a slot of its queue, writes the packet with its valid bit clear, and sets the bit once its release
holds (GROUP_WAIT_MET where that is later); sd then takes the index. A full queue gives all ones to the nonblocking form, and the blocking
one waits; a malformed header is the queue trap, 0x32. -/
def Obligations.SchedulesAndQueues : Prop :=
  ∀ (s : State) (g : Group), Selected s g →
    (∀ (d : BitVec 6) (t : Team) (r : Grid), teamOf s g = some t → gridOf s g = some r →
      let give (u : State) (x : Word) : Host.Outcome State Fault Refusal := .next ((writeU u u.cur d.toNat x).upGroup u.cur (advance 1))
      let set : Nat := t.teamid / max 1 r.launch.setsz
      let cur : Nat := (tblGet r.cursors set).getD 0
      (r.launch.sched = 0 ∨ r.launch.schlen ≤ cur → exec (.schnext d) s = give s 0xFFFFFFFF) ∧
      (r.launch.sched ≠ 0 → cur < r.launch.schlen → ∀ u x,
        engReadNum s (groupWho s s.cur g) (r.launch.sched.toNat + 4 * (r.launch.schlen * set + cur)) 4 = (u, .ok x) →
        exec (.schnext d) s =
          give { u with grids := tblUp u.grids t.grid fun r => { r with cursors := tblSet r.cursors set (cur + 1) } } (BitVec.ofNat 32 x))) ∧
    let valid (d widx c : Nat) (g : Group) : Group :=
      { advance 2 { writeS64 g d (BitVec.ofNat 64 widx) with chz := max (writeS64 g d (BitVec.ofNat 64 widx)).chz c } with wait := .none }
    (∀ d slot widx head v c, g.wait = .qputValid d slot widx head → g.ended = false → g.stopped = false →
      releaseMet s g .dev s.fresh = true → engWriteNum s (groupWho s s.cur g) slot.toNat 4 (head ||| 0x80000000).toNat = (v, .ok c) →
      exec (.groupWaitMet s.cur) s = .next (v.upGroup s.cur (valid d widx c))) ∧
    (g.captured = none → g.wcb = [] → flying g = false → ∀ (d : BitVec 6) (q pkt : BitVec 7) (blk : Bool) (u : State) (p : Phys) (loc : Nat),
      let hdr : Word64 := usrc64 s g 0 q
      let from_ : Nat := (usrc s g tInt 2 pkt).toNat
      hdr.toNat < 0xFC000000000000 → hdr.toNat % 128 = 0 → from_ + 64 ≤ stashSize s g.team → from_ % 64 = 0 →
      engTranslate s (groupWho s s.cur g) hdr.toNat true = (u, .ok p) → p.target = .mem loc → p.attr ≤ 1 →
      let r := loadAt u (some s.cur) loc 128
      r.2.bad = false →
      let widx : Nat := bytesNum r.2.bytes 0 8
      let ridx : Nat := bytesNum r.2.bytes 64 8
      let size : Nat := bytesNum r.2.bytes 72 4
      let slot : Nat := (bytesNum r.2.bytes 80 8 + 64 * (widx % size)) % 2 ^ 64
      let legal : Prop := ∃ k, 2 ≤ k ∧ k ≤ 16 ∧ size = 2 ^ k
      let full : Prop := size ≤ (widx + 2 ^ 64 - ridx) % 2 ^ 64
      (¬ legal → exec (.qput d q pkt blk) s = .next (trapAt r.1 s.cur 0x32 0)) ∧
      (legal → full → exec (.qput d q pkt blk) s = .next (r.1.putGroup s.cur
        (if blk then { g with wait := .qputFull d.toNat hdr from_ } else advance 2 (writeS64 g d.toNat (BitVec.allOnes 64))))) ∧
      (legal → ¬ full → ∀ (v v2 v3 : State) (p2 : Phys) (c2 c3 : Nat) (e : Group),
        engTranslate r.1 (groupWho u s.cur g) slot true = (v, .ok p2) →
        let claimed := storeAt (dropPlace (dropOwnLine v s.cur loc) s.cur p2) (some s.cur) loc (leBytes 8 (widx + 1))
        let held := claimed.1.upGroup s.cur fun g => { g with chz := max g.chz claimed.2, wait := .none }
        let packet := stashRead held (some s.cur) g.team from_ 64
        packet.2.bad = false →
        let head : Word := BitVec.ofNat 32 (bytesNum packet.2.bytes 0 4 % 2 ^ 31)
        engWrite packet.1 (groupWho held s.cur g) slot (leBytes 4 head.toNat ++ packet.2.bytes.drop 4) = (v2, .ok c2) →
        let done := v2.upGroup s.cur fun g => { g with chz := max g.chz c2 }
        tblGet done.groups s.cur = some e →
        (releaseMet done e .dev done.fresh = false → exec (.qput d q pkt blk) s =
          .next (done.putGroup s.cur { e with wait := .qputValid d.toNat (BitVec.ofNat 64 slot) widx head })) ∧
        (releaseMet done e .dev done.fresh = true →
          engWriteNum done (groupWho done s.cur e) slot 4 (head ||| 0x80000000).toNat = (v3, .ok c3) →
          exec (.qput d q pkt blk) s = .next (v3.upGroup s.cur (valid d.toNat widx c3)))))

/-! ### Graphics and sequences -/

/-- R224, R228 to R238: a texture or ray instruction whose TX counter has room, and whose descriptor or record addresses lie in the global
window and are aligned, captures its operands and issues one operation on TX: four registers a lane for a texture or a triangle test, five
for a box test. R239, R240: RNG writes rng32 of its key and each active lane's counter, at issue and with no push; RNG.seq takes the
counters from the slot and adds 1 to those of the active lanes. A slot that is not open, not the group's own or without a lane of ACTIVE as
its member is the sequence-state trap, 0x29; with ACTIVE empty nothing happens. -/
def Obligations.TexturesRaysAndGenerators : Prop :=
  (
    ∀ (s : State) (g : Group) (gd : BitVec 5) (d : BitVec 6), Selected s g → counter g Counter.tx.ident < 63 →
      let ls : List Nat := lanesOf g.width (active g gd)
      let global (x : Word64) (align : Nat) : Prop := x.toNat < 0xFC000000000000 ∧ x.toNat % align = 0
      let regs (k : Nat) : List Reg := ls.flatMap fun l => (List.range k).map fun j => Reg.v (d.toNat + j) l
      let op (k : MemKind) : Op := { uid := 0, ctr := .tx, len := 2, kind := some k }
      let words (pos r n l : Nat) : List Byte := (List.range n).flatMap fun k => leBytes 4 (readV s.draws pos g (r + k) l).toNat
      (∀ c x y z : BitVec 7,
        let desc : Word64 := usrc64 s g 1 x
        let lanes (data : Nat → List Byte) (a2 : Nat → Word64) : List LaneAcc :=
          ls.map fun l => { lane := l, addr := desc, data := data l, addr2 := a2 l }
        global desc 1 →
          exec (.texs gd d c x y z) s = .next (issued s g (.texs gd d c x y z) (op (.texs d.toNat desc (usrc64 s g 2 y)))
            (lanes (words 0 c.toNat 4) (counterSrc s g 3 z)) (regs 4)) ∧
          exec (.texf gd d c x) s = .next (issued s g (.texf gd d c x) (op (.texf d.toNat desc))
            (lanes (words 0 c.toNat 4) fun _ => 0) (regs 4)) ∧
          exec (.texq gd d c x) s = .next (issued s g (.texq gd d c x) (op (.texq d.toNat desc (usrc s g tInt 0 c)))
            (lanes (fun _ => []) fun _ => 0) (regs 4))) ∧
      ∀ r x : BitVec 7,
        let a (l : Nat) : Word64 := baseOf s g 1 x l
        let lanes (data : Nat → List Byte) : List LaneAcc := ls.map fun l => { lane := l, addr := a l, data := data l }
        ((∀ l ∈ ls, global (a l) 128) →
          exec (.rtbox gd d r x) s = .next (issued s g (.rtbox gd d r x) (op (.rtbox d.toNat)) (lanes (words 0 r.toNat 8)) (regs 5))) ∧
        ∀ (best : Bool) (cull : BitVec 2), (∀ l ∈ ls, global (a l) 16) →
          exec (.rttri gd d r x best cull) s = .next (issued s g (.rttri gd d r x best cull) (op (.rttri d.toNat best cull.toNat))
            (lanes fun l => words 0 r.toNat 8 l ++ if best then words 2 d.toNat 4 l else []) (regs 4))) ∧
  (
    ∀ (s : State) (g : Group) (gd : BitVec 5) (d : BitVec 6), Selected s g → d.toNat < 48 →
      let ls : List Nat := lanesOf g.width (active g gd)
      let takes (g' : Group) (f : Nat → Word) : Prop :=
        LanesTake g g' (active g gd) d.toNat f ∧ AtNext 1 g g' ∧ g'.q = g.q ∧ g'.hq = g.hq ∧ g'.s = g.s ∧ g'.p = g.p ∧ g'.exec = g.exec
      (∀ k c : BitVec 7, ∃ g', exec (.rng gd d k c) s = .next (s.putGroup s.cur g') ∧
        takes g' fun l => Fp.rng32 (usrc64 s g 0 k) (if c.toNat < 48 then baseOf s g 1 c l else usrc64 s g 1 c + BitVec.ofNat 64 l)) ∧
      ∀ (k : BitVec 7) (n : BitVec 2) (t : Team), tblGet s.teams g.team = some t →
        (ls = [] → exec (.rngSeq gd d k n) s = .next (s.putGroup s.cur (advance 1 g))) ∧
        (ls ≠ [] → (∀ x, tblGet t.seqs n.toNat = some x → x.isOpen = true → x.owner = s.cur → ∃ l ∈ ls, tblGet x.lanes l = none) →
          exec (.rngSeq gd d k n) s = .next (trapAt s s.cur 0x29 (small n.toNat))) ∧
        (ls ≠ [] → ∀ x, tblGet t.seqs n.toNat = some x → x.isOpen = true → x.owner = s.cur →
          (∀ l ∈ ls, ∃ e, tblGet x.lanes l = some e ∧ e.pending = false) →
          let gen (l : Nat) : Word64 := ((tblGet x.lanes l).map (·.gen)).getD 0
          ∃ u g' x', exec (.rngSeq gd d k n) s = .next u ∧ u.mem = s.mem ∧ tblGet u.groups s.cur = some g' ∧
            takes g' (fun l => Fp.rng32 (usrc64 s g 0 k) (gen l)) ∧
            ((tblGet u.teams g.team).bind fun t => tblGet t.seqs n.toNat) = some x' ∧
            ∀ l, tblGet x'.lanes l = (tblGet x.lanes l).map fun e => if l ∈ ls then { e with gen := e.gen + 1 } else e))

/-- R240, R243: SOPEN of a free slot with members that are distinct and open nowhere on the die opens it, with SEQID, NEXT and GEN from its
registers, and gives Fixer one record a member; SOPEN.replay opens it to await each member's record. A slot that is open, or a SEQID that
is, is the sequence-state trap, 0x29. R240 to R246: on a slot that the group has open, with every lane of ACTIVE a member and no record
awaited, SOPEN.fetch gives the forced routes, or all ones, when it retires; SEMIT emits one record a lane, and SMARK hands Fixer a mark for
each lane, whose bound must be below NEXT; SCLOSE closes the slot with a record for every member, and the lookups of its SOPEN.replay end
(log entry 49). Each counts once on SQ. A slot in another state, or a lane that is no member, is the sequence-state trap, 0x29. -/
def Obligations.Sequences : Prop :=
  (
    ∀ (s : State) (g : Group) (gd : BitVec 5) (k : BitVec 2) (v : BitVec 7), Selected s g → counter g Counter.sq.ident < 63 →
      let ls : List Nat := lanesOf g.width (active g gd)
      let rd (j l : Nat) : Word64 := readV s.draws 0 g (v.toNat + j + 1) l ++ readV s.draws 0 g (v.toNat + j) l
      let lane (replay : Bool) (l : Nat) : Nat × SeqLane :=
        (l, { member := true, seqid := rd 0 l, next := rd 2 l, gen := rd 4 l, gen0 := rd 4 l, replay := false, pending := replay,
              opener := if replay then s.fresh else 0, forcedRoute := 0, forcedDigest := 0, keep := false })
      let slot (replay : Bool) : SeqSlot := { isOpen := true, owner := s.cur, lanes := ls.map (lane replay) }
      let isOpen : Prop := ∃ x, seqSlot s g k.toNat = some x ∧ x.isOpen = true
      let clash : Prop := isOpen ∨ ¬ (ls.map (rd 0)).Nodup ∨ ∃ l ∈ ls, seqidOpen s (siteOf s g) (rd 0 l) = true
      let op (i : Instr) (n : Nat) : Op :=
        { uid := s.fresh, ctr := .sq, words := wordsOf i, len := 2, stage := if ls = [] then .complete else .performed, need := ls.length, slot := n }
      let issue (i : Instr) (n : Nat) (replay : Bool) : State :=
        ({ s with fresh := s.fresh + 1 }.putGroup s.cur (advance 2 { g with ctr := g.ctr.set 6 (counter g 7 + 1), ops := g.ops ++ [op i n] })).upTeam
          g.team fun t => { t with seqs := tblSet t.seqs k.toNat (slot replay) }
      (ls ≠ [] → clash →
        exec (.sopen gd k v) s = .next (trapAt s s.cur 0x29 (small k.toNat)) ∧
        exec (.sopenReplay gd k v) s = .next (trapAt s s.cur 0x29 (small k.toNat))) ∧
      (¬ isOpen → (ls ≠ [] → ¬ clash) →
        exec (.sopenReplay gd k v) s = .next (issue (.sopenReplay gd k v) (k.toNat + 1) true) ∧
        exec (.sopen gd k v) s = .next (ls.foldl (fun u l => journal u (siteOf s g) s.cur s.fresh
          { seqid := rd 0 l, kind := 0, token := (rd 2 l).toNat % 2 ^ 60, gen := rd 4 l, route := 0, digest := 0, site := siteOf s g,
            asid := asidOf u (siteOf s g) (ctxOf u g) }) (issue (.sopen gd k v) 0 false)))) ∧
  (
    ∀ (s : State) (g : Group) (gd : BitVec 5) (k : BitVec 2), Selected s g → counter g Counter.sq.ident < 63 →
      let ls : List Nat := lanesOf g.width (active g gd)
      let own (x : SeqSlot) : Prop := seqSlot s g k.toNat = some x ∧ x.isOpen = true ∧ x.owner = s.cur
      let usable (x : SeqSlot) : Prop := own x ∧ ∀ l ∈ ls, (tblGet x.lanes l).isSome
      let awaits (x : SeqSlot) : Prop := ∃ l ∈ ls, ∃ e, tblGet x.lanes l = some e ∧ e.pending = true
      let trap : Host.Outcome State Fault Refusal := .next (trapAt s s.cur 0x29 (small k.toNat))
      let issue (u : State) (i : Instr) (len need : Nat) : State :=
        let o : Op :=
          { uid := u.fresh, ctr := .sq, words := wordsOf i, len := len, stage := if need = 0 then .complete else .performed, need := need }
        { u with fresh := u.fresh + 1 }.putGroup u.cur (advance len { g with ctr := g.ctr.set 6 (counter g 7 + 1), ops := g.ops ++ [o] })
      (∀ d : BitVec 7,
        (ls ≠ [] → (∀ x, ¬ usable x) → exec (.sopenFetch gd k d) s = trap) ∧
        (ls = [] → exec (.sopenFetch gd k d) s = .next (issue s (.sopenFetch gd k d) 2 0)) ∧
        (ls ≠ [] → ∀ x, usable x → ¬ awaits x → (∀ o ∈ g.ops, o.uid < s.fresh) →
          ∃ u g' o, exec (.sopenFetch gd k d) s = .next u ∧ tblGet u.groups s.cur = some g' ∧ g'.ops = g.ops ++ [o] ∧ AtNext 2 g g' ∧
            o.ctr = .sq ∧ o.stage = .complete ∧ u.mem = s.mem ∧
            o.writes = ls.map fun l => (Reg.v d.toNat l,
              match tblGet x.lanes l with
              | some e => if e.replay then e.forcedRoute else 0xFFFFFFFF
              | none => 0xFFFFFFFF))) ∧
      (∀ (cnt : BitVec 3) (p route : BitVec 7) (rel : Bool),
        let n : Nat := cnt.toNat + 1
        (ls ≠ [] → (∀ x, ¬ usable x) → exec (.semit gd k cnt p route rel) s = trap) ∧
        (ls = [] → exec (.semit gd k cnt p route rel) s = .next (issue s (.semit gd k cnt p route rel) 2 0)) ∧
        (ls ≠ [] → ∀ x u, usable x → (∀ l ∈ ls, ∀ e, tblGet x.lanes l = some e → e.next.toNat < 2 ^ 60) → ¬ awaits x →
          diverging s g x p.toNat n ls = none → routeFault s (groupWho s s.cur g) (ls.map (laneRoute s g x route)) = (u, none) →
          exec (.semit gd k cnt p route rel) s = .next (ls.foldl (fun v l =>
            emitLane s.cur u.fresh k.toNat rel g (laneRoute s g x route l) (lanePayload s g p.toNat n l) l v)
            (issue u (.semit gd k cnt p route rel) 2 ls.length)))) ∧
      (∀ p : BitVec 7,
        (ls ≠ [] → (∀ x, ¬ usable x) → exec (.smark gd k p) s = trap) ∧
        (ls = [] → exec (.smark gd k p) s = .next (issue s (.smark gd k p) 1 0)) ∧
        (ls ≠ [] → ∀ x, usable x → (∀ l ∈ ls, ∀ e, tblGet x.lanes l = some e → (baseOf s g 0 p l).toNat < e.next.toNat) →
          exec (.smark gd k p) s = .next (ls.foldl (fun v l => journal v (siteOf s g) s.cur s.fresh
            { seqid := ((tblGet x.lanes l).map (·.seqid)).getD 0, kind := 2, token := (baseOf s g 0 p l).toNat, gen := 0, route := 0
              digest := 0, site := siteOf s g, asid := asidOf s (siteOf s g) (ctxOf s g) }) (issue s (.smark gd k p) 1 ls.length)))) ∧
      ((∀ x, own x → ∃ l ∈ lanesOf g.width g.exec, tblGet x.lanes l = none) → exec (.sclose k) s = trap) ∧
      ∀ x, own x → (∀ l ∈ lanesOf g.width g.exec, (tblGet x.lanes l).isSome) → exec (.sclose k) s = .next (x.lanes.foldl (fun v e =>
          journal (closeMarks v (siteOf s g) (ctxOf s g) e.2.seqid s.cur s.fresh) (siteOf s g) s.cur s.fresh
            { seqid := e.2.seqid, kind := 3, token := e.2.next.toNat % 2 ^ 60, gen := 0, route := 0, digest := 0, site := siteOf s g
              asid := asidOf s (siteOf s g) (ctxOf s g) })
          ((endLookups s.cur x (issue s (.sclose k) 1 x.lanes.length)).upTeam g.team fun t => { t with seqs := tblErase t.seqs k.toNat })))

/-! ### Traps, registers and ends -/

/-- R273, R276: the entry of a trap. A group outside handler mode, with no open transaction and a TRAPVEC that names a handler, gets TRAPCAUSE
and TRAPINFO, k0 to k5 as the point of resumption, the cause and EXEC, an EXEC of ones below GWIDTH and an empty handler queue, and stands
at TRAPVEC in handler mode; k6, k7, its registers, its predicates and its own queue stay, and so does every other group. -/
def Obligations.TrapEntry : Prop :=
  ∀ (s : State) (g : Group) (n code : Nat) (info : Word64), tblGet s.groups n = some g → g.handler = false → g.tx = none →
    let vec : Word64 := trapVec s (siteOf s g) (ctxOf s g)
    vec ≠ 0 → vec.toNat % 4 = 0 → vec.toNat < 0xFC000000000000 →
    let u : State := trapAt s n code info
    u.mem = s.mem ∧ u.teams = s.teams ∧ (∀ m, m ≠ n → tblGet u.groups m = tblGet s.groups m) ∧
    ∃ g', tblGet u.groups n = some g' ∧ g'.trapcause = BitVec.ofNat 32 code ∧ g'.trapinfo = info ∧ g'.handler = true ∧ g'.pc = vec ∧
      g'.hdr = none ∧ g'.idx = 0 ∧ g'.hq = [] ∧ g'.q = g.q ∧
      cellGet g'.k 1 ++ cellGet g'.k 0 = g.pc ∧ cellGet g'.k 2 = BitVec.ofNat 32 g.idx ∧ cellGet g'.k 3 = BitVec.ofNat 32 code ∧
      cellGet g'.k 5 ++ cellGet g'.k 4 = g.exec ∧ cellGet g'.k 6 = cellGet g.k 6 ∧ cellGet g'.k 7 = cellGet g.k 7 ∧
      (∀ l, l < 64 → g'.exec.getLsbD l = decide (l < g.width)) ∧ g'.v = g.v ∧ g'.s = g.s ∧ g'.p = g.p ∧ g'.ops = g.ops ∧ g'.ctr = g.ctr ∧
      g'.fpflags = g.fpflags ∧ g'.chz = g.chz

/-- R271, R275: TRAP with a lane of ACTIVE is the software trap, 0x38, which resumes after it; BKPT, where TRAPCTL.BKEN is 1, the breakpoint
trap, 0x39. Each carries its code. With ACTIVE empty, and BKPT with BKEN 0, they do nothing. R274: TRET outside handler mode is an illegal
instruction. In handler mode it reads the header at k0:k1, leaves handler mode, and takes EXEC from k4:k5 below GWIDTH: with k2 equal to
COUNT the group stands at the next header, with a smaller k2 at that word of the clause, which it enters again; a larger k2, or a word that
is no header, is the illegal-clause trap inside the handler. -/
def Obligations.SoftwareTrapsAndReturn : Prop :=
  (
    ∀ (s : State) (g : Group) (gd : BitVec 5) (code : BitVec 16), Selected s g →
      let some_ : Prop := ∃ l, l < g.width ∧ l < 64 ∧ (active g gd).getLsbD l = true
      let enabled : Prop := bkEnabled s (siteOf s g) (ctxOf s g) = true
      let enter (c : Nat) : State := trapWord s s.cur (BitVec.ofNat 32 c) (BitVec.ofNat 64 code.toNat) (g.idx + 1)
      let skip : State := s.putGroup s.cur (advance 1 g)
      (some_ → exec (.trap gd code) s = .next (enter 0x38)) ∧ (¬ some_ → exec (.trap gd code) s = .next skip) ∧
      (some_ ∧ enabled → exec (.bkpt gd code) s = .next (enter 0x39)) ∧ (¬ (some_ ∧ enabled) → exec (.bkpt gd code) s = .next skip)) ∧
  (
    ∀ (s : State) (g : Group), Selected s g →
      (g.handler = false → exec .tret s = .next (trapAt s s.cur 0x02 0x72F00000)) ∧
      (g.handler = true →
        let a : Word64 := cellGet g.k 1 ++ cellGet g.k 0
        (a.toNat % 4 ≠ 0 → exec .tret s = .next (trapAt s s.cur 0x04 a)) ∧
        (a.toNat % 4 = 0 → ∀ u w, fetchWord s s.cur g a.toNat = (u, some w) → u.cur = s.cur → tblGet u.groups s.cur = some g →
          (decodeHeader w = none → exec .tret s = .next (trapAt u s.cur 0x01 0)) ∧
          ∀ h, decodeHeader w = some h →
            let k2 : Nat := (cellGet g.k 2).toNat
            (h.count < k2 → exec .tret s = .next (trapAt u s.cur 0x01 0)) ∧
            (k2 ≤ h.count → ∃ g', exec .tret s = .next (u.putGroup s.cur g') ∧ g'.handler = false ∧
              (∀ l, l < 64 → g'.exec.getLsbD l = (decide (l < g.width) && (cellGet g.k 5 ++ cellGet g.k 4).getLsbD l)) ∧
              (k2 = h.count → g'.pc = a + 4 + BitVec.ofNat 64 (4 * h.count) ∧ g'.hdr = none ∧ g'.idx = 0) ∧
              (k2 < h.count → g'.pc = a ∧ g'.hdr = some h ∧ g'.idx = k2 ∧ g'.entered = false) ∧
              g'.v = g.v ∧ g'.s = g.s ∧ g'.p = g.p ∧ g'.q = g.q ∧ g'.k = g.k))))

/-- R278 to R280: the control registers. A read that needs a privileged context, and every write but of TRAPVEC, TRAPCTL and CTXASID, is the
access trap, 0x3A, in another. Else CSRR gives the register, in a pair where it has 64 bits; CSRW sets the writable bits of the one that
it names, and of a read-only one nothing. -/
def Obligations.ControlRegisters : Prop :=
  ∀ (s : State) (g : Group) (n : BitVec 10), Selected s g →
    let site : Nat := siteOf s g
    let c : Nat := ctxOf s g
    let privileged : Prop := ctxPriv s site c = true
    let wide : Bool := [0x000, 0x020, 0x021, 0x022].contains n.toNat
    (∀ d : BitVec 6,
      let secret : Prop := n.toNat = 0x012 ∨ n.toNat = 0x020 ∨ n.toNat = 0x021 ∨ n.toNat = 0x022
      (secret ∧ ¬ privileged → exec (.csrr d n) s = .next (trapAt s s.cur 0x3A (small n.toNat))) ∧
      (¬ (secret ∧ ¬ privileged) →
        let v : Word64 := csrValue s g n.toNat
        (wide = true → ∃ t : State, exec (.csrr d n) s = .next t ∧ UniformDone64 s t g 1 d v) ∧
        (wide = false → ∃ t : State, exec (.csrr d n) s = .next t ∧ UniformDone s t g 1 d (v.setWidth 32)))) ∧
    ∀ src : BitVec 7,
      let free : Prop := n.toNat < 3
      let x : Word64 := if wide then usrc64 s g 0 src else (usrc s g tInt 0 src).setWidth 64
      let next (u : State) : Host.Outcome State Fault Refusal := .next (u.upGroup s.cur (advance 1))
      (¬ free → ¬ privileged → exec (.csrw src n) s = .next (trapAt s s.cur 0x3A (small n.toNat))) ∧
      (free ∨ privileged →
        (n.toNat = 0x000 → exec (.csrw src n) s = next { s with
          vecWas := tblSet s.vecWas c { old := cellGet s.trapvec c, tick := s.clock / 4, site := site }
          trapvec := cellSet s.trapvec c x }) ∧
        (n.toNat = 0x001 → exec (.csrw src n) s = next { s with
          ctlWas := tblSet s.ctlWas c { old := (cellGet s.trapctl c).setWidth 64, tick := s.clock / 4, site := site }
          trapctl := cellSet s.trapctl c (x.setWidth 32 &&& 1) }) ∧
        (n.toNat = 0x002 → exec (.csrw src n) s = next s) ∧
        (n.toNat = 0x010 → exec (.csrw src n) s = next (s.upDie site fun d => { d with leaselen := x.toNat % 2 ^ 16 })) ∧
        (n.toNat = 0x011 → exec (.csrw src n) s = next (s.upDie site fun d => { d with commthr := x.toNat % 2 ^ 12 })) ∧
        (n.toNat = 0x012 → exec (.csrw src n) s = next (s.upDie site fun d => { d with agewait := x.toNat % 2 ^ 32 })) ∧
        (n.toNat = 0x020 → exec (.csrw src n) s = next (s.upDie site fun d => { d with qtable := x })) ∧
        (n.toNat = 0x021 → exec (.csrw src n) s = next (s.upDie site fun d => { d with nametbl := x })) ∧
        (n.toNat = 0x022 → exec (.csrw src n) s = next (s.upDie site fun d => { d with dirtytbl := x })) ∧
        (n.toNat = 0x030 → ∀ k, (groupWho s s.cur g).core = some k → exec (.csrw src n) s = next (s.upCore k fun e =>
          { e with test := x.getLsbD 0 })))

/-- R281 to R284: DIAGRD and DIAGWR outside test mode, or of a row outside their array, are the array-access trap, 0x3B, with the row. In test
mode on a row in range, DIAGRD gives the word as it was last written; DIAGWR writes it, and a write to the register file or the stash
leaves unspecified what the groups of the core hold there. -/
def Obligations.DiagnosticArrays : Prop :=
  ∀ (s : State) (g : Group) (row : BitVec 7) (arr : BitVec 4) (word : BitVec 5), Selected s g → arr.toNat < 3 →
    let r : Nat := (usrc s g tInt 0 row).toNat
    let core : Option Nat := (groupWho s s.cur g).core
    (¬ (∃ k e, core = some k ∧ tblGet s.cores k = some e ∧ e.test = true) ∨ diagRowOk arr.toNat r = false →
      (∀ d : BitVec 6, exec (.diagrd d row arr word) s = .next (trapAt s s.cur 0x3B (small r))) ∧
      ∀ x : BitVec 7, exec (.diagwr row x arr word) s = .next (trapAt s s.cur 0x3B (small r))) ∧
    ∀ k e, core = some k → tblGet s.cores k = some e → e.test = true → diagRowOk arr.toNat r = true →
      let cell : Nat := diagCell s.draws e.repair arr.toNat r word.toNat
      (∀ (d : BitVec 6) (v : Word),
        (arr = 0 → tblGet e.rf cell = some v) → (arr = 1 → tblGet e.stashRaw cell = some v) → (arr = 2 → cellGet e.repair r = v) →
        exec (.diagrd d row arr word) s = .next (s.putGroup s.cur (advance 2 (writeS g d.toNat v)))) ∧
      ∀ x : BitVec 7,
        let y : Word := usrc s g tInt 1 x
        ∃ u e', exec (.diagwr row x arr word) s = .next u ∧ tblGet u.cores k = some e' ∧
          (arr = 0 → e' = { e with rf := tblSet e.rf cell y }) ∧ (arr = 1 → e' = { e with stashRaw := tblSet e.stashRaw cell y }) ∧
          (arr = 2 → e' = { e with repair := cellSet e.repair r (repairEntry y) } ∧ u.mem = s.mem ∧
            tblGet u.groups s.cur = some (advance 2 g)) ∧
          ∃ g', tblGet u.groups s.cur = some g' ∧ AtNext 2 g g' ∧ g'.s = g.s ∧ g'.p = g.p ∧ g'.exec = g.exec

/-- R36, R144, R191: EXIT ends the group, with no handler, transaction or feed program left; what it issued before goes on. While another
group of its team is alive, and no reported error pends and nothing is buffered, no other group and no byte of memory changes, and its
quartet has lost it. -/
def Obligations.GroupsEnd : Prop :=
  ∀ (s : State) (g : Group) (t : Team) (m : Nat) (e : Group), Selected s g → tblGet s.teams g.team = some t → g.wcb = [] → t.hist = false →
    (∀ c r, tblGet g.repErr c = some r → r.cause = none) → m ∈ t.groups → m ≠ s.cur → tblGet s.groups m = some e → e.ended = false →
    ∃ u g' t', exec .exit s = .next u ∧ tblGet u.groups s.cur = some g' ∧ tblGet u.teams g.team = some t' ∧
      g'.ended = true ∧ g'.handler = false ∧ g'.tx = none ∧ g'.feed = none ∧ g'.wait = .none ∧ g'.ctr = g.ctr ∧
      (g.tx = none → (∀ o ∈ g.ops, o.ctr = .sq → o.slot = 0) → g'.ops = g.ops) ∧ g'.copies = g.copies ∧ u.mem = s.mem ∧ (∀ n, n ≠ s.cur → tblGet u.groups n = tblGet s.groups n) ∧
      t'.ended = t.ended ∧ t'.groups = t.groups ∧ (∀ j x, tblGet t'.seqs j = some x → x.owner ≠ s.cur) ∧
      ∀ q, tblGet t.quartets (g.grpid / 4) = some q → ∃ q', tblGet t'.quartets (g.grpid / 4) = some q' ∧ g.grpid % 4 ∈ q'.lost

/-! ### Events of the machine -/

/-- R20, R21, R33, R37, R164: OPERATION_RETIRE takes the oldest operation on a counter where it is complete: the counter falls by one, the
operation leaves, its values stand in its registers, its flags are ORed into FPFLAGS, and its error pends on the counter. Where it is not
complete, or no operation counts there, nothing happens. -/
def Obligations.OperationsRetire : Prop :=
  ∀ (s : State) (n : Nat) (g : Group) (c : BitVec 3), tblGet s.groups n = some g → 1 ≤ c.toNat → c.toNat ≤ 7 → c.toNat ≠ 5 →
    ((∀ o ∈ g.ops, o.ctr.ident ≠ c.toNat) → exec (.operationRetire n c) s = .next s) ∧
    ∀ (o : Op) (older younger : List Op), g.ops = older ++ o :: younger → (∀ p ∈ older, p.ctr.ident ≠ c.toNat) → o.ctr.ident = c.toNat →
      (o.stage ≠ .complete → exec (.operationRetire n c) s = .next s) ∧
      (o.stage = .complete → (∀ p ∈ older ++ younger, p.uid ≠ o.uid) → g.ended = false → g.ctr.length = 7 → o.err = none →
        (∀ w ∈ o.writes, ∃ r l, w.1 = Reg.v r l ∧ l < 64 ∧ g.contested.contains (o.uid, w.1) = false) → (o.writes.map (·.1)).Nodup →
        ∃ (u : State) (g' : Group), exec (.operationRetire n c) s = .next u ∧ tblGet u.groups n = some g' ∧ g'.ops = older ++ younger ∧
          counter g' c.toNat = counter g c.toNat - 1 ∧ (∀ j, 1 ≤ j → j ≤ 7 → j ≠ c.toNat → counter g' j = counter g j) ∧
          g'.fpflags = g.fpflags ||| (o.flags &&& 0x7F) ∧ (∀ w ∈ o.writes, ∀ r l, w.1 = Reg.v r l → cellGet g'.v (64 * r + l) = w.2) ∧
          (∀ k, (∀ w ∈ o.writes, ∀ r l, w.1 = Reg.v r l → 64 * r + l ≠ k) → cellGet g'.v k = cellGet g.v k) ∧
          g'.s = g.s ∧ g'.p = g.p ∧ g'.q = g.q ∧ g'.pc = g.pc ∧ g'.idx = g.idx ∧ g'.wait = g.wait ∧ u.mem = s.mem ∧
          ∀ m, m ≠ n → tblGet u.groups m = tblGet s.groups m)

/-- R41 to R44, R276, R302: CLAUSE_DISPATCH. A group between clauses that waits for nothing fetches the header at its program counter. A legal
header is dispatched: the group stands before the word at which it enters. An illegal one is the illegal-clause trap, 0x01. Where a visit of
the clause's barrel finds the clause not yet entered and its conditions met, the lowest named counter on which a reported error pends raises
that error, and no word issues. R286 to R290, R295: a barrel's visits in a clock are to the groups of one team in the slot at the place that
its rotation has come to; a group that has ended is visited no more. The access barrel looks at the groups of a slot round from the one
after the last that it served, and once a group has issued no visit of that slot is left. -/
def Obligations.ClausesDispatch : Prop :=
  (
    (∀ (s : State) (g : Group), Selected s g → g.ended = false → g.stopped = false → g.hdr = none → g.wait = .none → g.handler = false →
      orderedMode s g = false →
      ∀ (u : State) (w : Nat), fetchWord s s.cur g g.pc.toNat = (u, some w) → u.cur = s.cur → tblGet u.groups s.cur = some g →
        (decodeHeader w = none → exec .clauseDispatch s = .next (trapAt u s.cur 0x01 0)) ∧
        ∀ h : Header, decodeHeader w = some h →
          ∃ t : State, exec .clauseDispatch s = .next t ∧ t = { u with groups := t.groups } ∧
            (∀ m, m ≠ s.cur → tblGet t.groups m = tblGet u.groups m) ∧
            (g.idx < h.count → tblGet t.groups s.cur = some { g with hdr := some h, entered := false }) ∧
            (g.idx ≠ 0 → h.count ≤ g.idx → ∃ g', tblGet t.groups s.cur = some g' ∧ g'.pc = g.pc + 4 + BitVec.ofNat 64 (4 * h.count) ∧
              g'.idx = 0 ∧ g'.hdr = none ∧ g'.v = g.v ∧ g'.s = g.s ∧ g'.exec = g.exec)) ∧
    ∀ (s : State) (v : Visit) (g : Group) (h : Header) (c : Nat × Nat), g.entered = false → onAccess h.cls = v.access →
      (∀ x ∈ h.waits, counter g x.1 ≤ x.2) → c ∈ h.waits → c.1 < 8 →
      (∃ r e, tblGet g.repErr c.1 = some r ∧ r.cause = some e) →
      (∀ x ∈ h.waits, (∃ r e, tblGet g.repErr x.1 = some r ∧ r.cause = some e) → c.1 ≤ x.1) →
      visitWord s v g h = { state := raiseReported s v.group c.1 }) ∧
  (
    (∀ (s : State) (core part : Nat) (access : Bool) (c : Core) (v : Visit), v ∈ barrelVisits s core part access c →
      ∃ r slot team t g, tblGet (if access then c.access else c.compute) part = some r ∧ r.start ≤ s.clock ∧
        r.slots[s.clock - r.start]? = some (slot, team) ∧ v.core = core ∧ v.part = part ∧ v.slot = slot ∧ v.access = access ∧ v.stage = 0 ∧
        tblGet s.teams team = some t ∧ (∃ i, t.groups[i]? = some v.group ∧ i % 4 = part ∧ t.slots[i]? = some slot) ∧
        tblGet s.groups v.group = some g ∧ g.ended = false ∧ (v.waits = true ↔ g.wait ≠ .none)) ∧
    (∀ (last : Nat) (ns : List Nat), (servedOrder (some last) ns).Perm ns ∧
      ((∃ n ∈ ns, last < n) → ∃ m rest, servedOrder (some last) ns = m :: rest ∧ last < m)) ∧
    ∀ (s : State) (v : Visit), v.access = true →
      ∀ x ∈ (noteServed v s).visits, ¬ (x.access = true ∧ x.core = v.core ∧ x.part = v.part ∧ x.slot = v.slot))

/-- R26 to R28, R301: of the writes to an h register in one clock exactly one remains, that of the highest rank: an issuing instruction's
before a landing one's, then the higher partition's, then the compute barrel's, then the higher group's. Once the clock ends the register
holds it and every other register its value; a group that wrote reads it next; another group of the team may still read, in a clause under
way, the value before. -/
def Obligations.SharedRegisterWrites : Prop :=
  (∀ ws : List (Nat × Nat × Word), ws ≠ [] → ∃ e x,
    ws.foldl (fun a y => some (hJoin a y.1 y.2.1 y.2.2)) none = some e ∧ x ∈ ws ∧ e.value = x.2.2 ∧ (∀ y ∈ ws, y.2.1 ≤ x.2.1 ∧ y.1 ∈ e.groups)) ∧
  (∀ g g' : Group, g.grpid < 32 → g'.grpid < 32 →
    hRank g' true < hRank g false ∧
    ∀ landing, (g.grpid % 4 < g'.grpid % 4 → hRank g landing < hRank g' landing) ∧
      (g.grpid % 4 = g'.grpid % 4 → fromCompute g landing = false → fromCompute g' landing = true → hRank g landing < hRank g' landing) ∧
      (g.grpid % 4 = g'.grpid % 4 → fromCompute g landing = fromCompute g' landing → g.grpid < g'.grpid → hRank g landing < hRank g' landing)) ∧
  ∀ (s : State) (n c r : Nat) (t : Team) (w : HWrite), tblGet s.teams n = some t → r < 16 → c ≤ s.clock → t.hNew = [(16 * c + r, w)] →
    ∃ t' : Team, tblGet (settleH s n t).teams n = some t' ∧ t'.hNew = [] ∧ (∀ k, cellGet t'.h k = if k = r then w.value else cellGet t.h k) ∧
      ∀ m g, tblGet s.groups m = some g → g.team = n → ∃ g', tblGet (settleH s n t).groups m = some g' ∧
        (m ∈ w.groups → tblGet g'.hSeen r = none) ∧
        (m ∉ w.groups → tblGet g'.hSeen r = some (cellGet t.h r :: (tblGet g.hSeen r).getD [])) ∧
        ∀ k, k ≠ r → tblGet g'.hSeen k = tblGet g.hSeen k

/-- R33, R36, R154, R162, R181, R288 to R293, R317, R425: the events by which what a group has begun goes on. Each has its effect where its
condition holds: an acknowledged operation is complete, and CHZ rises to its completion time; a memory instruction whose translations end
runs its lanes; a special-function result makes its group ready; a buffered line 64 clocks without a store goes home; a copy whose lease has
expired leaves the L1; an expander's silence of 60 000 ticks gives the operation up with the memory error; a rotation starts where the one
before is over; and an acquire whose access is complete lets its group go on. R328 to R330: ordered mode. Once every live group of a grid
has ended its quantum, the next group in global order among those whose turn has not come takes its turn: its stores are performed and CHZ
rises to their completion time. A new round starts once every live group has had its turn and LEASECLK has passed the commits' completion
times. -/
def Obligations.OperationsGoOn : Prop :=
  (
    ∀ (s : State) (n : Nat) (g : Group), tblGet s.groups n = some g →
      (∀ o, findOp g o.uid = some o → o.stage = .performed → o.ctr ≠ .cp → acquires o.order = false → quiet s g o = true →
        exec (.writeAcknowledge n o.uid) s = .next (s.putGroup n
          { upOp g o.uid (fun o => { o with stage := .complete }) with chz := max g.chz o.ctime })) ∧
      (∀ uid o, g.wait = .translate uid → findOp g uid = some o → orderedMode s g = false →
        exec (.translationComplete n) s = .next (afterRun (runLanes s n uid).1 n uid (runLanes s n uid).2)) ∧
      (exec (.sfuResult n) s = .next (s.putGroup n (if g.sfuUntil ≤ s.clock then { g with sfuUntil := 0 } else g))) ∧
      (∀ line x, g.ended = false → g.wcb.find? (fun y => y.line.toNat == line) = some x →
        exec (.wcbTimeout n line) s = .next (if x.last + 64 ≤ s.clock then sendWcb s n line else s)) ∧
      (∀ core line, exec (.l1LeaseExpiry core line) s =
        .next (s.upCore core fun c => { c with l1 := c.l1.filter fun x => !(x.pa == line && decide (x.expiry ≤ s.clock / 4)) })) ∧
      (∀ o t, findOp g o.uid = some o → o.stage = .performed → o.since = some t → t + 60000 ≤ s.clock / 4 →
        ∃ u g' o', exec (.tier2Timeout n o.uid) s = .next u ∧ tblGet u.groups n = some g' ∧ findOp g' o.uid = some o' ∧ o'.stage = .complete ∧
          (o.err = none → o'.err = some { code := 0x1A, info := small o.ctr.ident }) ∧ (∀ r ∈ o.dests, ∃ w ∈ o'.writes, w.1 = r) ∧ u.mem = s.mem) ∧
      (∀ core c part, tblGet s.cores core = some c →
        let fresh : Rotation :=
          { start := s.clock, length := max 4 (occupiedSlots s core part).length, slots := occupiedSlots s core part }
        (computeDue (tblGet c.compute part) s.clock = true →
          exec (.rotationStart core part false) s = .next (s.upCore core fun c => { c with compute := tblSet c.compute part fresh })) ∧
        ∀ r, tblGet c.compute part = some r → rotationOver (tblGet c.access part) s.clock = true → r.start + r.length / 2 = s.clock →
          ∃ u : State, exec (.rotationStart core part true) s = .next u ∧
            tblGet u.cores core = some { c with access := tblSet c.access part { r with start := s.clock } } ∧ u.groups = s.groups ∧
            u.mem = s.mem) ∧
      (∀ uid o, g.ended = false → g.stopped = false → g.wait = .acquire uid → findOp g uid = some o → o.stage = .complete →
        exec (.groupWaitMet n) s = .next (s.putGroup n { g with wait := .none })) ∧
      ∀ o size f, findOp g o.uid = some o → o.kind = some (.flagged size f) → o.stage = .performed → o.need = 1 → o.flight = [] → o.remote = [] →
        linesAcked g o = true → fabricOpen s o.uid = false → o.ctime + 2 ≤ s.clock / 4 → o.slot < 2 ^ 60 →
        let got := loadAt s (some n) o.slot 8
        got.2.bad = false →
        let w := storeAt (dropOwnLine s n o.slot) (some n) o.slot (leBytes 8 ((leNat got.2.bytes + 1) % 2 ^ 64))
        exec (.stfFlagUpdate n o.uid) s =
          .next (landWrite (w.1.upOperation n o.uid fun o => { o with need := 0 }) n o.uid (lineOf o.slot) w.2)) ∧
  (
    ∀ (s : State) (grid : Nat) (r : Grid), tblGet s.grids grid = some r → r.saved = [] →
      let live : List (Nat × Group) := s.groups.filter fun e => !e.2.ended && ((tblGet s.teams e.2.team).map (·.grid)) == some grid
      let turn (g : Group) : Nat := ((teamOf s g).map (·.teamid)).getD 0 * 32 + g.grpid
      (r.launch.ordered = true → s.stopping.contains r.ctx = false → live ≠ [] →
        (∀ e ∈ live, e.2.stopped = false ∧ e.2.turn = .idle ∧ quantumOver e.2 = true) →
        ∀ n g, (n, g) ∈ live → r.turns.contains (turn g) = false → (∀ e ∈ live, r.turns.contains (turn e.2) = false → e ≠ (n, g) → turn g < turn e.2) →
        exec (.orderedCommitPhase grid) s =
          .next (takeTurn { s with grids := tblUp s.grids grid fun x => { x with committing := true } } grid n g)) ∧
      (r.committing = true → (∀ e ∈ live, r.turns.contains (turn e.2) = true) → commitOpen s grid = false →
        r.commitTime + 2 ≤ s.clock / 4 →
        exec (.orderedRoundStart grid) s = .next { s with grids := tblUp s.grids grid fun x =>
          { x with committing := false, turns := [], round := x.round + 1, commitTime := 0 } }) ∧
      (r.committing = false ∨ (∃ e ∈ live, r.turns.contains (turn e.2) = false) ∨ commitOpen s grid = true ∨
          s.clock / 4 < r.commitTime + 2 →
        exec (.orderedRoundStart grid) s = .next s))

/-- R163, R186, R190, R191, R387 to R389: faults, bindings and aborts. The runtime's answer resolves a fault, after which its group translates
again, or refuses it, which is the trap 0x15 with the unfinished lanes; a claim that found the fault queue full is tried again. The first
touch of a bound line fills it, and a recall takes it back to its home. An abort writes its cause and resumes at the recorded header. -/
def Obligations.FaultsBindingsAndAborts : Prop :=
  ∀ (s : State),
    (∀ f r loc g, tblGet s.faults f = some r → r.slot = some loc → tblGet s.groups r.group = some g →
      let resp : Nat := peekNum s (loc + 32) 4
      let v : State := { s with faults := tblErase s.faults f }
      (resp = 0 → exec (.faultResponse f) s = .next s) ∧
      (r.party = 0 → ∀ uid, g.wait = .parked uid f →
        (resp = 1 → exec (.faultResponse f) s = .next (v.putGroup r.group { g with wait := .translate uid })) ∧
        (1 < resp → exec (.faultResponse f) s = .next (trapAt (abandonOp v r.group uid) r.group 0x15 r.mask))) ∧
      (r.party = 1 → g.wait = .parkedWhole f → atHandler v g = false →
        (resp = 1 → exec (.faultResponse f) s = .next (v.putGroup r.group { g with wait := .none })) ∧
        (1 < resp → exec (.faultResponse f) s = .next (trapAt (v.putGroup r.group { g with wait := .none }) r.group 0x15 r.mask))) ∧
      (r.party = 2 → resp = 1 → ∀ p, g.feed = some p →
        exec (.faultResponse f) s = .next (v.putGroup r.group { g with feed := some { p with parked := false } }))) ∧
    (∀ f r, tblGet s.faults f = some r → (r.slot.isSome → exec (.faultQueueRetry f) s = .next s) ∧
      (r.slot = none → exec (.faultQueueRetry f) s = .next (claimFault s f))) ∧
    (∀ team slot t b k gl, tblGet s.teams team = some t → tblGet t.binds slot = some b → b.lines[k]? = some gl → tblGet s.owners gl = none →
      ∃ u : State, exec (.bindFirstTouch team slot k) s = .next u ∧
        (∀ j, j < 128 → readByte u.mem (stashLoc team (b.soff + 128 * k) + j) = readByte s.mem (128 * gl + j)) ∧
        tblGet u.owners gl = some { team := team, slot := slot, off := b.soff + 128 * k, dirty := false } ∧ u.groups = s.groups) ∧
    (∀ line o, tblGet s.owners line = some o →
      ∃ u : State, exec (.bindRecall line) s = .next u ∧ tblGet u.owners line = none ∧ u.groups = s.groups ∧
        (o.dirty = true → ∀ j, j < 128 → readByte u.mem (128 * line + j) = readByte s.mem (stashLoc o.team o.off + j)) ∧
        (o.dirty = false → u.mem = s.mem)) ∧
    ∀ n g t (c : BitVec 8), tblGet s.groups n = some g → g.tx = some t → 1 ≤ c.toNat → c.toNat ≤ 5 →
      ∃ g', exec (.txAbort n c) s = .next (s.putGroup n g') ∧ g'.tx = none ∧ g'.exec = t.savedExec ∧ g'.pc = t.resume ∧ g'.hdr = none ∧
        g'.v = g.v ∧ g'.p = g.p ∧
        UniformTakes g g' (fun k => if k = t.dst then some (BitVec.ofNat 32 (c.toNat + 65536 * t.lines.length)) else none)

/-- R198, R204 to R210, R221, R300: the engines' events. A pass of an MMA changes sixteen rows of its tile, and no other element of the tile
memory; a long MMA takes the A of its next step from the feed queues once every member has its entries, which leave; a feed load that
returns makes the oldest absent entry of its queue present; Fennel runs the word at a program's place. -/
def Obligations.EnginesGoOn : Prop :=
  ∀ (s : State),
    (∀ team k t q o a b c, tblGet s.teams team = some t → tblGet t.quartets k = some q → q.ops = [o] → o.a = some a → o.b = some b →
      isMma o.instr = true → nextPass t = some k → o.pass < 3 → o.step < mmaSteps o →
      let sh := mmaShape o.instr
      ∃ u t' q' o', exec (.mmaPassEnd team k c) s = .next u ∧ tblGet u.teams team = some t' ∧ tblGet t'.quartets k = some q' ∧ q'.ops = [o'] ∧
        t'.acc = (mmaPass sh.form a.bytes b t.acc (sh.tile + o.tile) o.pass).1 ∧ t'.mxLast = k ∧ o' = { o with pass := o.pass + 1, b := some b } ∧
        u.mem = s.mem ∧ u.cores = s.cores) ∧
    (∀ (f : MmaForm) (a b : Cells 8) (acc : Cells 32) (tile p tile' r c : Nat), p < 4 → r < 64 → c < 64 → ¬ (tile' = tile ∧ r / 16 = p) →
      accGet (mmaPass f a b acc tile p).1 tile' r c = accGet acc tile' r c) ∧
    (∀ team k t q o, tblGet s.teams team = some t → tblGet t.quartets k = some q → q.ops = [o] → isLongMma o.instr = true → o.a = none →
      (∀ e ∈ t.quartets, e.1 ≠ k → e.2.ops = []) →
      (takeGate s team k o.instr = .wait → exec (.mmaFeedTake team k) s = .next s) ∧
      (takeGate s team k o.instr = .all → ∃ u t' q', exec (.mmaFeedTake team k) s = .next u ∧ tblGet u.teams team = some t' ∧
        tblGet t'.quartets k = some q' ∧ q'.ops = [{ o with a := some (takeA s team k o.instr) }] ∧ u.mem = s.mem)) ∧
    (∀ n g f j, tblGet s.groups n = some g → g.feed = some f →
      exec (.feedLoadReturn n j) s = .next (s.putGroup n { g with feed := some { f with
        queues := f.queues.set j (arriveFirst (f.queues.getD j [])) } })) ∧
    (∀ (xs ys : List FeedEntry) (e : FeedEntry), (∀ x ∈ xs, x.present = true) → e.present = false →
      arriveFirst (xs ++ e :: ys) = xs ++ { e with present := true } :: ys) ∧
    (∀ n g f i x, tblGet s.groups n = some g → g.feed = some f → f.running = true → f.parked = false → g.ended = false →
      decodeFeed (f.words.getD f.place.pos 0).toNat = .ok (.fstep i x) →
      exec (.fennelServe n) s = .next (if feedTurn s n = true then
        (noteFed s n).putGroup n { g with feed := some { f with place := { f.place with
          a := f.place.a.set i.toNat (f.place.a.getD i.toNat 0 + x.signExtend 64), pos := f.place.pos + 1 } } }
        else s)) ∧
    (∀ n d, tblGet s.sends n = some d →
      (∀ m g o, (quartetGroups s d.team d.quartet).head? = some m → tblGet s.groups m = some g → findOp g d.op = some o →
        (s.clock / 4 < o.engC + 2 → exec (.sendFlagUpdate n) s = .next s) ∧
        (o.engC + 2 ≤ s.clock / 4 → ∀ (u v : State) (b : NameBind) (r : Nat × Nat),
          let w : Who := engineOf s d.team d.quartet d.op
          resolveName { s with sends := tblErase s.sends n } w d.name = (u, .ok b) →
          engAdd u { w with site := b.site, core := none, tray := none } d.addr.toNat 1 = (v, .ok r) →
          exec (.sendFlagUpdate n) s = .next (noteDone v d.team d.quartet d.op { ctime := r.2 })))) ∧
    (∀ n g c x, tblGet s.groups n = some g → findCopy g c.uid = some c → c.probed = true → c.done = false → c.err = none → c.offset < c.total →
      exec (.copyErrorStop n c.uid x) s = .next (stopCopy s n c.uid c.offset)) ∧
    (∀ n g c k, tblGet s.groups n = some g → findOp g c = none →
      exec (.barrierPendLower n c k) s = .next (dropEnded (moveCopy (attributeBytes s n c) n c k) n c)) ∧
    ∀ n g o k, tblGet s.groups n = some g → findOp g o.uid = some o → exec (.barrierPendLower n o.uid k) s = .next (lowerMulticast s n o.uid o)

/-! ### Across launches -/

/-- R344 to R357, R384, R440, R455: work queues. The queue that its die's engine chooses has its next packet read, its first word written to 0
and its read index moved on, and the packet of a kind of R353 begins its effect. One that breaks the format, its limits or the privilege
puts its queue in error. NOPAD is done at once; COPY writes what it read; SIGNAL stores or adds; BIND writes a name's entry and TDSET
descriptors; TLBINV removes what it covers; WAITMEM is done once its condition holds; LAUNCH, CKPT and the three JCTL operations begin
where their records are legal. A packet that is done completes once LEASECLK passes its completion time. -/
def Obligations.PacketsRun : Prop :=
  ∀ (s s1 : State) (q site : Nat) (p : NextPacket), s.phase = .running → servingSite s q = some site → viewQueue s site q = (s1, .ready p) →
    chosenQueue s site = some q →
    let kind : Nat := bytesNum p.bytes 0 4 % 16
    let hdr : Nat := ((queueEntry s site q).map (·.hdr)).getD 0
    let taken : State := storeNum (queuePages s1 site p.ctx hdr p.slotVa) none p.slot 4 0
    let u : State := enterPacket taken site q p
    let j : Job := { pkt := taken.fresh, site := site, ctx := p.ctx, queue := q, at_ := p.num, bytes := p.bytes }
    let who : Who := packetWho site p.ctx q p.num
    let done (v : State) (c : Nat) : Host.Outcome State Fault Refusal :=
      .next { v with packets := tblUp v.packets taken.fresh fun k => { k with finished := true, ctime := max k.ctime c } }
    let f (off n : Nat) : Nat := bytesNum p.bytes off n
    let jctl (op : Nat) : Instr := if op = 0 then .jctlExport q else if op = 1 then .jctlRestart q else .jctlForget q
    (∀ i : Instr, (kind = 0 ∧ i = .nopad q) ∨ (kind = 1 ∧ i = .launch q) ∨ (kind = 2 ∧ i = .copy q) ∨ (kind = 3 ∧ i = .waitmem q) ∨
        (kind = 4 ∧ i = .signal q) ∨ (kind = 5 ∧ i = .bind q) ∨ (kind = 6 ∧ i = .ckpt q) ∨ (kind = 8 ∧ i = .tdset q) ∨
        (kind = 9 ∧ i = .tlbinv q) ∨ (10 ≤ kind ∧ i = .nopad q) ∨
        (kind = 7 ∧ ∃ op, op < 3 ∧ (f 16 4 = op ∨ 2 < f 16 4) ∧ i = jctl op) →
      ∀ c, rejectCode s site p = some c →
        exec i s = .next (queueError taken site q p.ctx hdr p.num (p.num % max 1 (peekNum s (p.head + 72) 4)) c)) ∧
    (rejectCode s site p = none →
      (kind = 0 → exec (.nopad q) s = done u 0) ∧
      (kind = 1 → ∀ v, runLaunch u j = .ok v → exec (.launch q) s = .next v) ∧
      (kind = 2 → ∀ v1 v2 v3 v4 bs c, probeRange u who (f 24 8) (f 32 8) false = (v1, none) →
        probeRange v1 who (f 16 8) (f 32 8) true = (v2, none) → engRead v2 who (f 24 8) (f 32 8) = (v3, .ok bs) →
        (∀ i, i < f 32 8 → ¬ (f 24 8 ≤ f 16 8 + i ∧ f 16 8 + i < f 24 8 + f 32 8)) → bs.length = f 32 8 →
        engWrite v3 who (f 16 8) bs = (v4, .ok c) → exec (.copy q) s = done v4 c) ∧
      (kind = 3 → ∀ v t loc, engTranslate u who (f 16 8) false = (v, .ok t) → t.target = .mem loc → t.attr ≤ 1 →
        (loadAt v none loc 8).2.bad = false →
        let x : Nat := leNat (loadAt v none loc 8).2.bytes
        let met : Prop := match f 32 1 with
          | 0 => x = f 24 8
          | 1 => x ≠ f 24 8
          | 2 => f 24 8 ≤ x
          | _ => x < f 24 8
        (met → exec (.waitmem q) s = done (loadAt v none loc 8).1 (loadAt v none loc 8).2.ctime) ∧
        (¬ met → exec (.waitmem q) s = .next (loadAt v none loc 8).1)) ∧
      (kind = 4 → f 32 1 = 1 → ∀ v x c, engAdd u who (f 16 8) (f 24 8) = (v, .ok (x, c)) → exec (.signal q) s = done v c) ∧
      (kind = 4 → f 32 1 = 0 → ∀ v c, engWriteNum u who (f 16 8) 8 (f 24 8) = (v, .ok c) → exec (.signal q) s = done v c) ∧
      (kind = 5 → ∀ b, nameBlock u site = some b →
        let v : State := storeNum u none (b + 8 * f 16 1) 8 (f 24 8)
        exec (.bind q) s = done { v with
          trays := v.trays.map fun e => (e.1, { e.2 with names := e.2.names.filter fun n => n.1 != f 16 1 }) } 0) ∧
      (kind = 6 → ∀ v, runCkpt u j = .ok v → exec (.ckpt q) s = .next v) ∧
      (kind = 7 → f 16 4 < 3 →
        (∀ v, f 16 4 = 0 → runExport u j = .ok v → exec (.jctlExport q) s = .next v) ∧
        (∀ v, f 16 4 = 1 → runRestart u j = .ok v → exec (.jctlRestart q) s = .next v) ∧
        (∀ v, f 16 4 = 2 → runForget u j = .ok v → exec (.jctlForget q) s = .next v) ∧
        ∀ op, op < 3 → op ≠ f 16 4 → exec (jctl op) s = .next s) ∧
      (kind = 8 → ∀ v1 v2 bs c, engRead u who (f 32 8) (64 * f 28 4) = (v1, .ok bs) →
        engWrite v1 who (f 16 8 + 64 * f 24 4) bs = (v2, .ok c) →
        exec (.tdset q) s = done { v2 with dies := v2.dies.map fun e =>
          (e.1, dropDescs (asidOf v2 site p.ctx) (f 16 8 + 64 * f 24 4) (f 16 8 + 64 * f 24 4 + 64 * f 28 4) e.2) } c) ∧
      (kind = 9 → exec (.tlbinv q) s = done (shootDown u (f 16 8) (f 24 8) (f 32 2)) 0)) ∧
    ∀ n k, tblGet s.packets n = some k →
      (k.finished = false ∨ s.clock / 4 < k.ctime + 2 → exec (.packetComplete n) s = .next s) ∧
      (k.finished = true → k.ctime + 2 ≤ s.clock / 4 → k.kind ≠ 9 →
        (k.caddr = 0 → exec (.packetComplete n) s = .next { s with packets := tblErase s.packets n }) ∧
        (k.caddr ≠ 0 → ctxFlags s k.site k.ctx / 16 % 2 = 0 → s.discarding.contains k.ctx = false → ∀ v x,
          engAdd { s with packets := tblErase s.packets n } (packetWho k.site k.ctx k.queue k.num) k.caddr.toNat 1 = (v, .ok x) →
          exec (.packetComplete n) s = .next v)) ∧
      (k.kind = 3 → k.finished = false → ∀ v,
        readWaitmem s { pkt := n, site := k.site, ctx := k.ctx, queue := k.queue, at_ := k.num, bytes := k.body } = .ok v →
        exec (.waitmemMonitorWake n) s = .next v)

/-- R359 to R371: teams and contexts. The launcher places the next team of the grid that its die serves; a grid whose teams have left and
whose chunks are delivered is done. A pre-emption request stops a context's groups; once each of its teams may be saved they are written
and SAVED is set; a restore takes back the next saved teams, or with none left clears SAVED. A context in error discards its teams. QPUT's
retry, and the wake and the deadline of WAITA, look at their queue and their word again. -/
def Obligations.TeamsAndContextsMove : Prop :=
  ∀ (s : State),
    (∀ grid core g, tblGet s.grids grid = some g →
      let site : Nat := gridSite s g
      let may : Prop := s.phase = .running ∧ ctxHeld s site g.ctx = false ∧ chosenGrid s site = some grid
      (¬ may → exec (.teamPlace grid core) s = .next s) ∧
      (may → ∀ v, placeNext s grid g core = some v →
        exec (.teamPlace grid core) s = .next (v.upDie site fun d => { d with lastPlace := tblSet d.lastPlace (gridPrio s g) g.queue }))) ∧
    (∀ grid g, tblGet s.grids grid = some g → (∀ e ∈ s.teams, e.2.grid ≠ grid) → g.launch.teams ≤ g.endedTeams.length → g.openChunks = 0 →
      (∀ e ∈ s.contribs, e.2.grid ≠ grid) →
      exec (.gridComplete grid) s = .next { s with
        grids := tblErase s.grids grid
        chunks := s.chunks.filter fun e => e.2.grid != grid
        cores := s.cores.map fun e => (e.1, { e.2 with constLines := e.2.constLines.filter fun x => x.grid != grid })
        packets := tblUp s.packets g.pkt fun p => { p with finished := true, ctime := max p.ctime g.chz } }) ∧
    (∀ c,
      (preempting s c = true → exec (.preemptRequest c) s = .next (haltQuartets (settleGroups (stopGroups
        { s with stopping := if s.stopping.contains c then s.stopping else c :: s.stopping } c) c) c)) ∧
      (s.stopping.contains c = true → s.discarding.contains c = false → (∀ e ∈ s.teams, e.2.ctx = c → teamReady s e.2 = true) →
        let ts : List (Nat × Team) := s.teams.filter fun e => e.2.ctx == c
        ∀ v, saveTeams ts s = .ok v →
          let w : State := { leaveCursors v (ts.map (·.2)) with stopping := v.stopping.filter (· != c) }
          let flags : Nat := ctxFlags v (ctxSite v) c
          exec (.preemptSave c) s = .next (setCtxFlags w c (flags / 16 * 16 + 8 + flags % 8))) ∧
      (s.discarding.contains c = true →
        let v : State := dropGrids (discardTeams (stopGroups s c) c) c
        (∀ e ∈ v.grids, e.2.ctx ≠ c) → (∀ e ∈ v.teams, e.2.ctx ≠ c) →
        exec (.contextErrorStop c) s =
          .next { v with discarding := v.discarding.filter (· != c), restoring := v.restoring.filter (· != c) }) ∧
      (restorable s c = true →
        let from_ : State := { s with restoring := if s.restoring.contains c then s.restoring else c :: s.restoring }
        (∀ n g v, (s.grids.find? fun e => e.2.ctx == c && e.2.saved != []) = some (n, g) → backFirst from_ n g = .ok v →
          exec (.restore c) s = .next v) ∧
        ((∀ e ∈ s.grids, e.2.ctx = c → e.2.saved = []) →
          let flags : Nat := ctxFlags s (ctxSite s) c
          exec (.restore c) s =
            .next (setCtxFlags { s with restoring := s.restoring.filter (· != c) } c (flags / 16 * 16 + flags % 8))))) ∧
    ∀ n g, tblGet s.groups n = some g →
      (waitsTurn s n = false → ∀ d hdr pkt, g.wait = .qputFull d hdr pkt → exec (.qputBlockRetry n) s = .next (tryQput s n d hdr pkt true)) ∧
      (∀ d a cmp dl k, g.wait = .waita d a cmp dl k →
        (waitsTurn s n = false → exec (.waitaWake n) s = .next (tryWaita s n d a cmp dl)) ∧
        (s.clock / 4 < dl ∨ waitsTurn s n = true → exec (.waitaDeadline n) s = .next s) ∧
        (dl ≤ s.clock / 4 → waitsTurn s n = false →
          ∃ g' : Group, exec (.waitaDeadline n) s = .next (s.putGroup n g') ∧ g'.wait = .none ∧ g'.chz = max g.chz k ∧ AtNext 1 g g' ∧
            UniformTakes g g' (fun r => if r = d then some (lo32 cmp) else if r = d + 1 then some (hi32 cmp) else none)))

/-- R334, R383, R392, R419 to R424, R449 to R457: what memory, the package and the world outside it do. Name caches fill, dirty lines go home,
held blocks drain; errors are counted and recorded, and sites are lost; the host reads and writes lines and gives them up; requests of
peer panels are performed in stream order, and the acknowledgements of ours end them. -/
def Obligations.PackageEvents : Prop :=
  ∀ (s : State),
    (∀ tray (name : BitVec 6) t, tblGet s.trays tray = some t →
      ((∃ e ∈ t.names, e.1 = name.toNat) → exec (.nameCacheMiss tray name) s = .next s) ∧
      ((∀ e ∈ t.names, e.1 ≠ name.toNat) →
        exec (.nameCacheMiss tray name) s =
          .next (cacheName (nameRead s (tray / 3) name.toNat).1 tray name.toNat (nameRead s (tray / 3) name.toNat).2))) ∧
    (∀ line, tblGet s.held (line / 32) = none → (tblGet s.hbmOld line).isSome → inDirtyTable s (128 * line) = false →
      exec (.mscWriteback line) s = .next (setDirty { s with hbmOld := tblErase s.hbmOld line } (line / 32) true)) ∧
    (∀ block, exec (.rinseDrain block) s = .next (finishDrains (drainBlock s block))) ∧
    (∀ line, isHbm (128 * line) = true → (liveSites s).contains (locSite (128 * line)) = true →
      exec (.patrolScrub line true) s = .next (unitEvent s .hbmRow (128 * line / 1024)
        { kind := 1, unit := 1, site := locSite (128 * line), addr := locAddr (128 * line) / 1024 * 1024 }) ∧
      let site : Nat := locSite (128 * line)
      let addr : Nat := locAddr (128 * line)
      let marked : State := { s with ueUnits := (unitsOf (128 * line) 128).foldl (fun l u => if l.contains u then l else u :: l) s.ueUnits }
      exec (.patrolScrub line false) s = .next (unitEvent
        (recordCrossing (recordEvent marked { kind := 2, unit := 2, site := site, addr := addr })
          { kind := 1, unit := 2, site := site, addr := addr / 2 ^ 21 * 2 ^ 21 })
        .slice (32 * site + Config.sliceOf line % 32) { kind := 1, unit := 3, site := site, index := Config.sliceOf line % 32 })) ∧
    (∀ site, (liveSites s).contains site = true →
      (∀ edge m failed, exec (.flitCrcReplay site edge m failed) s = .next (flitReplay s site edge m failed)) ∧
      (∀ osc, osc < 4 → exec (.oscillatorLockLoss site osc) s =
        .next (unitEvent s .oscillator (4 * site + osc) { kind := 1, unit := 8, site := site, index := osc })) ∧
      exec (.heartbeatSend site) s = .next ((liveNeighbours s site).foldl (fun s n => s.upDie n fun d =>
        { d with heard := tblSet d.heard site (s.clock / 4) }) s) ∧
      exec (.siteLostTimeout site) s = .next (if silent s site then loseWhole s site else s) ∧
      exec (.siteLostDeclared site) s = .next (loseWhole s site)) ∧
    (∀ off (data : List Byte) loc l2, s.phase = .running → hdmLoc s off = some loc → hdmLoc s (off + data.length - 1) = some l2 →
      let got : State × Got := hostLoad s loc data.length
      exec (.hostAccess 1 off data) s = .next ((pieces loc data).foldl (fun s p => hostWrite s 1 p.1 p.2) s) ∧
      (got.2.bad = false → ∃ u : State, exec (.hostAccess 0 off data) s = .next u ∧ u.outputs.getLast? = some (.hostData got.2.bytes) ∧
        u.mem = got.1.mem) ∧
      (∀ kind : BitVec 3, 2 ≤ kind.toNat →
        (hostTakes kind.toNat loc data = true → exec (.hostAccess kind off data) s = .next (hostWrite s kind.toNat loc data)) ∧
        (hostTakes kind.toNat loc data = false →
          exec (.hostAccess kind off data) s = .next { s with outputs := s.outputs ++ [.hostUnsupported] }))) ∧
    (∀ n h, tblGet s.hostWrites n = some h →
      let lease : Nat := (tblGet s.leases (lineOf h.addr)).getD 0
      (s.clock / 4 < lease + 2 → exec (.hostWritePerform n) s = .next s) ∧
      (lease + 2 ≤ s.clock / 4 → ∃ u : State, exec (.hostWritePerform n) s = .next u ∧ tblGet u.hostWrites n = none ∧
        tblGet u.hostHolds (lineOf h.addr) = some .shared ∧ tblGet u.lineC (lineOf h.addr) = some (s.clock / 4) ∧
        (h.kind = 1 → u.outputs.getLast? = some .hostDone) ∧
        (h.kind ≠ 1 → u.outputs.getLast? = some (.hostData (hostBytes s (hostLoad s h.addr (fabSize h.kind h.bytes)).2))))) ∧
    (∀ line dirty,
      (s.snoops.contains line = false → exec (.birspArrive line dirty) s = .next s) ∧
      (s.snoops.contains line = true → ∃ u : State, exec (.birspArrive line dirty) s = .next u ∧ u.snoops.contains line = false ∧
        tblGet u.hostHolds line = none ∧ (dirty = [] → u.mem = s.mem))) ∧
    (∀ panel asid fa seq (kind : BitVec 8) (data : List Byte), s.needs = [] →
      let x : FabIn := { panel := panel, asid := asid, fa := fa, seq := seq, kind := kind.toNat, data := data }
      let k : Nat := panel * 65536 + asid
      let kept : State := { s with fabIn := s.fabIn ++ [x] }
      (fa / 2 ^ 41 % 2 = 1 → s.fabIn.contains x = false →
        exec (.fabricRequestArrive panel asid fa seq kind data) s = .next (atOnce kept (fabPerform s x))) ∧
      (fa / 2 ^ 41 % 2 = 0 → seq < (tblGet s.fabNext k).getD 0 → exec (.fabricRequestArrive panel asid fa seq kind data) s = .next s) ∧
      (fa / 2 ^ 41 % 2 = 0 → (tblGet s.fabNext k).getD 0 < seq → s.fabGot = [] →
        (∀ y ∈ s.fabIn, ¬ (y.panel * 65536 + y.asid = k ∧ y.seq = (tblGet s.fabNext k).getD 0)) →
        exec (.fabricRequestArrive panel asid fa seq kind data) s = .next kept)) ∧
    (∀ n r, tblGet s.fabOut n = some r → r.sent = true →
      (∀ t data refused, exec (.fabricAck n t data refused) s = .next (endRequest s n r (some t) data refused)) ∧
      (r.tick + 768000 ≤ s.clock / 4 → exec (.fabricTimeout n) s = .next (endRequest s n r none [] true)) ∧
      (s.clock / 4 < r.tick + 768000 → exec (.fabricTimeout n) s = .next s)) ∧
    exec .rotorMatching s = .next { s with matching := (s.matching + 1) % 64 } ∧
    exec (.hostPortTraining 0 false) s = .next { s with ports := s.ports.filter (· != 0) } ∧
    ∃ u : State, exec (.hostPortTraining 2 true) s = .next u ∧ u.ports.contains 2 = true ∧ (u.ports.contains 0 = true ↔ s.ports.contains 0 = true)

/-- R402 to R418, R433 to R446: records, emissions, frames and collectives. A record arrives in its partner's log and its acknowledgement
lowers the operation that waits for it; a sent emission arrives at its sink, and a ring sink's write index follows its written slot; a
raster sink takes packets and watermarks, draws what it passes on, and completes its frame; a rank's chunk is taken, and the acknowledged
result raises DONE. -/
def Obligations.SinksAndCollectivesGoOn : Prop :=
  ∀ (s : State),
    (∀ site n d d2 p r, tblGet s.dies site = some d → d.fixer.partner = some p → p ≠ site → tblGet s.dies p = some d2 →
      (liveSites s).contains p = true → d2.log.length < contactLogSize → tblGet d.fixer.shadow n = some r →
      d.fixer.resending = false → inShadow d.fixer.shadow n r = true →
      (r.arrived = false → ∃ (u : State) (e e2 : Die), exec (.contactLogRecordArrive site n) s = .next u ∧ tblGet u.dies site = some e ∧ tblGet u.dies p = some e2 ∧
        e2.log = d2.log ++ [r.record] ∧ tblGet e.fixer.shadow n = some { r with arrived := true } ∧ u.mem = s.mem) ∧
      (r.arrived = true → r.acked = false → r.record.kind < 2 →
        let v : State := (if r.op = 0 then s else lowerSeq s r.group r.op).upDie site fun d =>
          { d with fixer := { d.fixer with shadow := tblUp d.fixer.shadow n fun r => { r with acked := true, op := 0 } } }
        exec (.journalRecordAck site n) s = .next { v with emissions := v.emissions.map fun e =>
          if e.2.rnum = n ∧ e.2.site = site then (e.1, { e.2 with recordAcked := true }) else e })) ∧
    (∀ site d, tblGet s.dies site = some d →
      (∀ p, d.fixer.partner = some p → d.lost.getLsbD p = true → (liveSites s).contains site = true →
        exec (.partnerLost site) s = .next (takePartner s site)) ∧
      (d.fixer.resending = true → (∀ e ∈ d.fixer.shadow, e.2.acked = true) →
        exec (.partnerResendDone site) s = .next (s.upDie site fun d => { d with fixer := { d.fixer with resending := false } }))) ∧
    (∀ n e, tblGet s.emissions n = some e →
      (maySend s n e = false → exec (.sinkEmissionArrive n) s = .next s) ∧
      (maySend s n e = true → ∀ u b, resolveName s (engineWho e.site e.ctx) (emName e) = (u, .ok b) →
        (findSink u (emName e) e.ctx (emSink e) = none →
          exec (.sinkEmissionArrive n) s = .next (endEmission u n e (some { code := 0x2A, info := small (emName e) }))) ∧
        ∀ k x, findSink u (emName e) e.ctx (emSink e) = some (k, x) →
          (x.raster = true → exec (.sinkEmissionArrive n) s = .next (requeue u n { e with sent := true })) ∧
          (x.raster = false → exec (.sinkEmissionArrive n) s = .next (dedupArrive u n e k x))) ∧
      (∀ k x u b, findSink s (emName e) e.ctx (emSink e) = some (k, x) → x.raster = false → e.atSink = true →
        (∀ y ∈ s.emissions, y.1 < n → ¬ (y.2.atSink = true ∧ emName y.2 = emName e ∧ emSink y.2 = emSink e ∧ y.2.ctx = e.ctx)) →
        resolveName s (engineWho e.site e.ctx) (emName e) = (u, .ok b) →
        let w : Who := engineWho b.site e.ctx
        let ring : Nat := x.base.toNat + emName e * (128 + 64 * x.slots)
        (∀ v wi, engReadNum u w ring 8 = (v, .ok wi) →
          (e.written = true →
            (e.relChz.getD 0 + 2 ≤ v.clock / 4 →
              exec (.ringSinkDeliver n) s = .next (endEmission (engWriteNum v w ring 8 (wi + 1)).1 n e none)) ∧
            (v.clock / 4 < e.relChz.getD 0 + 2 → exec (.ringSinkDeliver n) s = .next v)) ∧
          (e.written = false → ∀ v2 ri, engReadNum v w (ring + 64) 8 = (v2, .ok ri) →
            (x.slots ≤ wi - ri → exec (.ringSinkDeliver n) s = .next v2) ∧
            (wi - ri < x.slots → ∀ v3 c, engWrite v2 w (ring + 128 + 64 * (wi % x.slots)) (slotBytes e) = (v3, .ok c) →
              exec (.ringSinkDeliver n) s =
                .next { v3 with emissions := tblSet v3.emissions n { e with written := true, relChz := some c } })))) ∧
      (e.sent = true → e.atSink = false →
        (∀ y ∈ s.emissions, y.1 < n → ¬ (y.2.sent = true ∧ y.2.atSink = false ∧ y.2.record.seqid = e.record.seqid ∧ y.2.ctx = e.ctx ∧
          emName y.2 = emName e ∧ emSink y.2 = emSink e)) →
        ∀ u b k x, resolveName s (engineWho e.site e.ctx) (emName e) = (u, .ok b) → findSink u (emName e) e.ctx (emSink e) = some (k, x) →
          x.raster = true → exec (.rasterPacketArrive n) s = .next (packetArrives u n e k x))) ∧
    (∀ n g gr slot l x e, tblGet s.groups n = some g → gridOf s g = some gr → seqSlot s g slot = some x → tblGet x.lanes l = some e →
      e.pending = true → ∃ u : State, exec (.forcedRecordFetch n slot l) s = .next u ∧
        let r := lookupRecord s (engineWho (siteOf s g) (ctxOf s g)) gr.launch.seqlog.toNat e.seqid e.next.toNat
        let v : State := r.1.upSlot g.team slot (upLane l (forceLane r.2))
        u = if e.opener = 0 then v else lowerSeq v n e.opener) ∧
    (∀ n m k x, tblGet s.watermarks n = some m → markSink s m = some (k, x) → x.raster = true → x.frame.held.contains (true, n) = false →
      (∀ y ∈ s.emissions, ¬ (y.2.atSink = false ∧ y.2.record.seqid = m.seqid ∧ y.2.ctx = m.ctx ∧ emName y.2 = m.die ∧ emSink y.2 = m.sink)) →
      exec (.rasterWatermarkArrive n) s = .next (markArrives s n m k x)) ∧
    (∀ n x, tblGet s.sinks n = some x →
      (∀ p rest, x.frame.pass = p :: rest → exec (.rasterisePacket n) s = .next ((drawPrim s x p).1.upSink n fun x =>
        { x with frame := { x.frame with pass := rest, ctime := max x.frame.ctime (drawPrim s x p).2 } })) ∧
      (frameDone s x.frame = true → exec (.frameComplete n) s = .next (retakeAll
        ((engAdd s (sinkWho s x) (readFrame x.frame.desc).done 1).1.upSink n fun x => { x with frame := { x.frame with drawing := false } }) n))) ∧
    (∀ n x g c site retried agrees bs, tblGet s.contribs n = some x → collOf s x.grid x.binding = some (g, c) → contribReady s x g = true →
      lostName s g c = none → x.bytes = some bs → exec (.collectiveContribution n site retried agrees) s =
        .next (resolveChunk (takeContribution { s with contribs := tblErase s.contribs n } x bs) x.grid x.binding x.chunk site retried agrees)) ∧
    ∀ n x g c, tblGet s.chunks n = some x → collOf s x.grid x.binding = some (g, c) → x.written = true → x.acked = false →
      x.ctime + 2 ≤ s.clock / 4 →
      let v : State := (engAdd s { engineWho (gridSite s g) g.ctx with op := some (0, 2 ^ 113 + n) } c.done.toNat 1).1
      exec (.chunkResultAck n) s = .next { v with
        chunks := tblSet v.chunks n { x with acked := true, inputs := [] }
        grids := tblUp v.grids x.grid fun g => { g with openChunks := g.openChunks - 1 } }

/-- R459 to R475: boot, Safelight and measurement. An unpowered package whose firmware image or dodge map does not verify enters Safelight; else
it runs with the sites that passed. A loss of power keeps the flash and the fuses. In Safelight a candidate that verifies is written and the
panel resets; another is refused. SPDM selects both extended algorithms or refuses, and gives its measurements signed. R472, R473: the march
test's status word. Bit 31 says that a bank lacked spares or the table entries, bits [24:16] give the repair entries written, bits [15:8]
the highest bank that lacked spares, 0xFF for none; the other bits are 0. A bank with more failing rows than spares gets no entry; another
gets one for each failing row, while the table has room. -/
def Obligations.PackagePowersUp : Prop :=
  (
    ∀ (s : State),
      (s.phase ≠ .unbooted → exec .powerOn s = .next s) ∧
      (s.phase = .unbooted →
        let verified : Prop := imageOk (flashImage s) = true ∧ dodgeOk (imageKey (flashImage s)) (flashMap s) = true
        (¬ verified → exec .powerOn s = .next { s with phase := .safelight }) ∧
        (verified →
          let powered : List Nat := (List.range 48).filter fun k => mapOut (flashMap s) / 2 ^ k % 2 = 0
          let live : List Nat := bootSites s (flashMap s) (readLog s) (heardSites (powered.filter fun k => bootFails s k 0 = false))
          exec .powerOn s = .next (if live = [] then s else bootLive s (flashMap s) (readLog s) powered live))) ∧
      (∃ u : State, exec .powerLoss s = .next u ∧ u.phase = .unbooted ∧ u.flash = s.flash ∧ u.oscFused = s.oscFused ∧ u.groups = [] ∧ u.teams = [] ∧
        u.mem = [] ∧ u.packets = [] ∧ u.grids = []) ∧
      (∀ isMap bytes, s.phase = .safelight →
        (candidateOk s isMap bytes = false → exec (.safelightCandidateWrite isMap bytes) s =
          .next { s with outputs := s.outputs ++ [.candidateRefused] }) ∧
        (candidateOk s isMap bytes = true → ∃ u : State, exec (.safelightCandidateWrite isMap bytes) s = .next u ∧ u.phase = .unbooted ∧
          u.outputs = s.outputs ++ [.candidateWritten] ∧ u.flash = (putFlash s (if isMap then mapOffset else 0) bytes).flash)) ∧
      ∀ port, spdmOpen s port = true →
        (∀ asym hash : List Word,
          (algAsym ∈ asym ∧ algHash ∈ hash → exec (.spdmNegotiateAlgorithms port asym hash) s =
            .next { s with outputs := s.outputs ++ [.spdmAlgorithms algAsym algHash] }) ∧
          (¬ (algAsym ∈ asym ∧ algHash ∈ hash) → exec (.spdmNegotiateAlgorithms port asym hash) s =
            .next { s with outputs := s.outputs ++ [.spdmUnsupported], spdmClosed := port :: s.spdmClosed })) ∧
        ∀ k m, measurement s k = some m →
          exec (.spdmGetMeasurements port k) s = .next { s with outputs := s.outputs ++ [.spdmMeasurement k m (Config.mldsaSign m)] }) ∧
  (
    (∀ m : Marched, m.ent ≤ 256 → m.ovbank < 256 →
      let x : Nat := (statusOf m).toNat
      (2 ^ 31 ≤ x ↔ m.retire = true) ∧ x / 2 ^ 16 % 2 ^ 9 = m.ent ∧ x / 2 ^ 8 % 2 ^ 8 = m.ovbank ∧ x % 2 ^ 8 = 0 ∧ x / 2 ^ 25 % 2 ^ 6 = 0) ∧
    ∀ (draws core : Nat) (bad : List (Nat × Nat)) (arr bank : Nat) (m : Marched),
      let rows : List Nat := failingRows draws core bad arr bank
      let spares : Nat := if arr = 0 then 4 else 2
      let m' : Marched := marchBank draws core bad arr m bank
      (spares < rows.length → m'.retire = true ∧ m'.ovbank = 64 * arr + bank ∧ m'.ent = m.ent ∧ m'.repair = m.repair) ∧
      (rows.length ≤ spares → m.ent + rows.length ≤ 256 → m'.ent = m.ent + rows.length ∧ m'.retire = m.retire ∧ m'.ovbank = m.ovbank))
end

