-- ==== Sys2Proof/Laws/Tables.lean ====
section
/-!
SUPPORT. Laws of the finite maps: what a read gives after a write, and that writes keep the canonical form of cells.
-/
namespace Sys2Proof.Machine

/-! ### Tables -/

@[simp] theorem tblGet_nil {α : Type} (k : Nat) : tblGet ([] : Table α) k = none := rfl

@[simp] theorem tblGet_tblSet {α : Type} (t : Table α) (k : Nat) (v : α) (j : Nat) :
    tblGet (tblSet t k v) j = if k = j then some v else tblGet t j := by
  induction t with
  | nil => simp [tblSet, tblGet]
  | cons e t ih =>
    obtain ⟨i, x⟩ := e
    simp only [tblSet]
    split_ifs with h1 h2 h3 h4 <;> simp_all [tblGet]
    all_goals omega

@[simp] theorem tblGet_tblErase {α : Type} (t : Table α) (k j : Nat) :
    tblGet (tblErase t k) j = if k = j then none else tblGet t j := by
  induction t with
  | nil => simp [tblErase]
  | cons e t ih =>
    obtain ⟨i, x⟩ := e
    simp only [tblErase]
    split_ifs with h1 h2 <;> simp_all [tblGet]

@[simp] theorem tblSet_tblSet {α : Type} (t : Table α) (k : Nat) (a b : α) : tblSet (tblSet t k a) k b = tblSet t k b := by
  induction t with
  | nil => simp [tblSet]
  | cons e t ih =>
    obtain ⟨i, x⟩ := e
    simp only [tblSet]
    split_ifs with h1 h2 <;> simp [tblSet, *]

theorem tblUp_of_some {α : Type} {t : Table α} {k : Nat} {x : α} (h : tblGet t k = some x) (f : α → α) :
    tblUp t k f = tblSet t k (f x) := by simp [tblUp, h]

theorem tblUp_of_none {α : Type} {t : Table α} {k : Nat} (h : tblGet t k = none) (f : α → α) : tblUp t k f = t := by simp [tblUp, h]

@[simp] theorem tblGet_tblUp {α : Type} (t : Table α) (k : Nat) (f : α → α) (j : Nat) :
    tblGet (tblUp t k f) j = if k = j then (tblGet t j).map f else tblGet t j := by
  unfold tblUp
  split <;> rename_i h
  · by_cases e : k = j <;> simp_all
  · by_cases e : k = j
    · subst e; simp_all
    · simp [e]

theorem tblGet_map {α : Type} (t : Table α) (f : Nat → α → α) (j : Nat) :
    tblGet (t.map fun e => (e.1, f e.1 e.2)) j = (tblGet t j).map (f j) := by
  induction t with
  | nil => rfl
  | cons e t ih =>
    obtain ⟨i, x⟩ := e
    simp only [List.map_cons, tblGet]
    split_ifs with h <;> simp_all

/-! ### Cells -/

@[simp] theorem cellGet_nil {w : Nat} (k : Nat) : cellGet ([] : Cells w) k = 0 := rfl

@[simp] theorem cellGet_cellSet {w : Nat} (c : Cells w) (k : Nat) (v : BitVec w) (j : Nat) :
    cellGet (cellSet c k v) j = if k = j then v else cellGet c j := by
  unfold cellSet cellGet
  split_ifs with h1 h2 h2 <;> simp_all

theorem cellsFrom_mono {w : Nat} {a b : Nat} (h : a ≤ b) : ∀ c : Cells w, cellsFrom b c = true → cellsFrom a c = true
  | [], _ => rfl
  | (k, v) :: t, hc => by
    simp only [cellsFrom, Bool.and_eq_true, decide_eq_true_eq] at hc ⊢
    exact ⟨⟨by omega, hc.1.2⟩, hc.2⟩

theorem cellsFrom_tblErase {w : Nat} (k : Nat) : ∀ (c : Cells w) (lo : Nat), cellsFrom lo c = true → cellsFrom lo (tblErase c k) = true
  | [], _, _ => rfl
  | (j, x) :: t, lo, h => by
    simp only [cellsFrom, Bool.and_eq_true, decide_eq_true_eq] at h
    simp only [tblErase]
    split_ifs with e
    · exact cellsFrom_tblErase k t lo (cellsFrom_mono (by omega) t h.2)
    · simp only [cellsFrom, Bool.and_eq_true, decide_eq_true_eq]
      exact ⟨h.1, cellsFrom_tblErase k t _ h.2⟩

theorem cellsFrom_tblSet {w : Nat} (k : Nat) (v : BitVec w) (hv : v ≠ 0) :
    ∀ (c : Cells w) (lo : Nat), lo ≤ k → cellsFrom lo c = true → cellsFrom lo (tblSet c k v) = true
  | [], lo, hk, _ => by simpa [tblSet, cellsFrom, hk] using hv
  | (j, x) :: t, lo, hk, h => by
    simp only [cellsFrom, Bool.and_eq_true, decide_eq_true_eq] at h
    simp only [tblSet]
    split_ifs with e1 e2
    · simp only [cellsFrom, Bool.and_eq_true, decide_eq_true_eq]
      exact ⟨⟨hk, by simpa using hv⟩, ⟨by omega, h.1.2⟩, h.2⟩
    · subst e2
      simp only [cellsFrom, Bool.and_eq_true, decide_eq_true_eq]
      exact ⟨⟨hk, by simpa using hv⟩, h.2⟩
    · simp only [cellsFrom, Bool.and_eq_true, decide_eq_true_eq]
      exact ⟨h.1, cellsFrom_tblSet k v hv t _ (by omega) h.2⟩

/-- A write of a cell keeps the canonical form. -/
theorem cellsWf_cellSet {w : Nat} (c : Cells w) (k : Nat) (v : BitVec w) (h : cellsWf c = true) : cellsWf (cellSet c k v) = true := by
  unfold cellSet
  split_ifs with hv
  · exact cellsFrom_tblErase k c 0 h
  · exact cellsFrom_tblSet k v hv c 0 (by omega) h

theorem cellsFrom_filter {w : Nat} (p : Nat × BitVec w → Bool) :
    ∀ (c : Cells w) (lo : Nat), cellsFrom lo c = true → cellsFrom lo (c.filter p) = true
  | [], _, _ => rfl
  | (j, x) :: t, lo, h => by
    simp only [cellsFrom, Bool.and_eq_true, decide_eq_true_eq] at h
    simp only [List.filter_cons]
    split_ifs with e
    · simp only [cellsFrom, Bool.and_eq_true, decide_eq_true_eq]
      exact ⟨h.1, cellsFrom_filter p t _ h.2⟩
    · exact cellsFrom_filter p t lo (cellsFrom_mono (by omega) t h.2)

/-- Two canonical lists of cells that read alike are equal. -/
theorem cells_ext {w : Nat} : ∀ (a b : Cells w) (lo : Nat), cellsFrom lo a = true → cellsFrom lo b = true →
    (∀ k, cellGet a k = cellGet b k) → a = b := by
  have low : ∀ (c : Cells w) (lo k : Nat), cellsFrom lo c = true → k < lo → cellGet c k = 0 := by
    intro c
    induction c with
    | nil => intros; rfl
    | cons e t ih =>
      obtain ⟨j, x⟩ := e
      intro lo k h hk
      simp only [cellsFrom, Bool.and_eq_true, decide_eq_true_eq] at h
      have := ih (j + 1) k h.2 (by omega)
      simp only [cellGet, tblGet] at this ⊢
      rw [if_neg (by omega)]; exact this
  intro a
  induction a with
  | nil =>
    intro b lo _ hb h
    cases b with
    | nil => rfl
    | cons e t =>
      obtain ⟨j, x⟩ := e
      simp only [cellsFrom, Bool.and_eq_true, decide_eq_true_eq] at hb
      have := h j
      simp [cellGet, tblGet] at this
      simp [← this] at hb
  | cons e t ih =>
    obtain ⟨i, x⟩ := e
    intro b lo ha hb h
    have ha' := ha
    simp only [cellsFrom, Bool.and_eq_true, decide_eq_true_eq] at ha
    cases b with
    | nil =>
      have := h i
      simp [cellGet, tblGet] at this
      simp [this] at ha
    | cons e' t' =>
      obtain ⟨j, y⟩ := e'
      have hb' := hb
      simp only [cellsFrom, Bool.and_eq_true, decide_eq_true_eq] at hb
      have hx : x ≠ 0 := by simpa using ha.1.2
      have hy : y ≠ 0 := by simpa using hb.1.2
      have hij : i = j := by
        rcases Nat.lt_trichotomy i j with c | c | c
        · exfalso
          have h1 := h i
          have h2 := low ((j, y) :: t') j i (by simpa [cellsFrom, hb.2] using hy) c
          simp [cellGet, tblGet] at h1 h2
          rw [h2] at h1; exact hx h1
        · exact c
        · exfalso
          have h1 := h j
          have h2 := low ((i, x) :: t) i j (by simpa [cellsFrom, ha.2] using hx) c
          simp [cellGet, tblGet] at h1 h2
          rw [h2] at h1; exact hy h1.symm
      subst hij
      have hxy : x = y := by simpa [cellGet, tblGet] using h i
      subst hxy
      rw [ih t' (i + 1) ha.2 hb.2]
      intro k
      by_cases hk : k = i
      · subst hk
        rw [low t (k + 1) k ha.2 (by omega), low t' (k + 1) k hb.2 (by omega)]
      · have := h k
        simpa [cellGet, tblGet, Ne.symm hk] using this

end Sys2Proof.Machine
end

