-- ==== Sys2Proof/Laws/State.lean ====
section
/-!
SUPPORT. What each update of State leaves in each field: one conjunction for an update, which simp reads as one rule for each field.
-/
namespace Sys2Proof.Machine

@[simp] theorem State.putGroup_fields (s : State) (n : Nat) (g : Group) :
    (s.putGroup n g).phase = s.phase ∧ (s.putGroup n g).clock = s.clock ∧ (s.putGroup n g).mem = s.mem ∧
    (s.putGroup n g).hbmOld = s.hbmOld ∧ (s.putGroup n g).ueUnits = s.ueUnits ∧ (s.putGroup n g).leases = s.leases ∧
    (s.putGroup n g).lineC = s.lineC ∧ (s.putGroup n g).owners = s.owners ∧ (s.putGroup n g).hostHolds = s.hostHolds ∧
    (s.putGroup n g).snoops = s.snoops ∧ (s.putGroup n g).hostWrites = s.hostWrites ∧ (s.putGroup n g).groups = tblSet s.groups n g ∧
    (s.putGroup n g).teams = s.teams ∧ (s.putGroup n g).cores = s.cores ∧ (s.putGroup n g).trays = s.trays ∧
    (s.putGroup n g).dies = s.dies ∧ (s.putGroup n g).trapvec = s.trapvec ∧ (s.putGroup n g).trapctl = s.trapctl ∧
    (s.putGroup n g).vecWas = s.vecWas ∧ (s.putGroup n g).ctlWas = s.ctlWas ∧ (s.putGroup n g).stopping = s.stopping ∧
    (s.putGroup n g).discarding = s.discarding ∧ (s.putGroup n g).restoring = s.restoring ∧ (s.putGroup n g).grids = s.grids ∧
    (s.putGroup n g).packets = s.packets ∧ (s.putGroup n g).ableSince = s.ableSince ∧ (s.putGroup n g).faults = s.faults ∧
    (s.putGroup n g).emissions = s.emissions ∧ (s.putGroup n g).sinks = s.sinks ∧ (s.putGroup n g).watermarks = s.watermarks ∧
    (s.putGroup n g).contribs = s.contribs ∧ (s.putGroup n g).chunks = s.chunks ∧ (s.putGroup n g).sends = s.sends ∧
    (s.putGroup n g).fabOut = s.fabOut ∧ (s.putGroup n g).fabSeq = s.fabSeq ∧ (s.putGroup n g).fabIn = s.fabIn ∧
    (s.putGroup n g).fabNext = s.fabNext ∧ (s.putGroup n g).fabGot = s.fabGot ∧ (s.putGroup n g).fabAcks = s.fabAcks ∧
    (s.putGroup n g).peers = s.peers ∧ (s.putGroup n g).matching = s.matching ∧ (s.putGroup n g).ports = s.ports ∧
    (s.putGroup n g).spdmClosed = s.spdmClosed ∧ (s.putGroup n g).outputs = s.outputs ∧ (s.putGroup n g).held = s.held ∧
    (s.putGroup n g).drains = s.drains ∧ (s.putGroup n g).windows = s.windows ∧ (s.putGroup n g).retiredUnits = s.retiredUnits ∧
    (s.putGroup n g).oscFused = s.oscFused ∧ (s.putGroup n g).siteLost = s.siteLost ∧ (s.putGroup n g).flash = s.flash ∧
    (s.putGroup n g).appends = s.appends ∧ (s.putGroup n g).appendStage = s.appendStage ∧ (s.putGroup n g).logPage = s.logPage ∧
    (s.putGroup n g).logSlot = s.logSlot ∧ (s.putGroup n g).logSeq = s.logSeq ∧ (s.putGroup n g).logCh = s.logCh ∧
    (s.putGroup n g).report = s.report ∧ (s.putGroup n g).cur = s.cur ∧ (s.putGroup n g).agenda = s.agenda ∧
    (s.putGroup n g).visits = s.visits ∧ (s.putGroup n g).late = s.late ∧ (s.putGroup n g).needs = s.needs ∧
    (s.putGroup n g).fresh = s.fresh ∧ (s.putGroup n g).draws = s.draws :=
  by simp only [State.putGroup, and_self]

@[simp] theorem State.upGroup_fields (s : State) (n : Nat) (f : Group → Group) :
    (s.upGroup n f).phase = s.phase ∧ (s.upGroup n f).clock = s.clock ∧ (s.upGroup n f).mem = s.mem ∧
    (s.upGroup n f).hbmOld = s.hbmOld ∧ (s.upGroup n f).ueUnits = s.ueUnits ∧ (s.upGroup n f).leases = s.leases ∧
    (s.upGroup n f).lineC = s.lineC ∧ (s.upGroup n f).owners = s.owners ∧ (s.upGroup n f).hostHolds = s.hostHolds ∧
    (s.upGroup n f).snoops = s.snoops ∧ (s.upGroup n f).hostWrites = s.hostWrites ∧ (s.upGroup n f).groups = tblUp s.groups n f ∧
    (s.upGroup n f).teams = s.teams ∧ (s.upGroup n f).cores = s.cores ∧ (s.upGroup n f).trays = s.trays ∧
    (s.upGroup n f).dies = s.dies ∧ (s.upGroup n f).trapvec = s.trapvec ∧ (s.upGroup n f).trapctl = s.trapctl ∧
    (s.upGroup n f).vecWas = s.vecWas ∧ (s.upGroup n f).ctlWas = s.ctlWas ∧ (s.upGroup n f).stopping = s.stopping ∧
    (s.upGroup n f).discarding = s.discarding ∧ (s.upGroup n f).restoring = s.restoring ∧ (s.upGroup n f).grids = s.grids ∧
    (s.upGroup n f).packets = s.packets ∧ (s.upGroup n f).ableSince = s.ableSince ∧ (s.upGroup n f).faults = s.faults ∧
    (s.upGroup n f).emissions = s.emissions ∧ (s.upGroup n f).sinks = s.sinks ∧ (s.upGroup n f).watermarks = s.watermarks ∧
    (s.upGroup n f).contribs = s.contribs ∧ (s.upGroup n f).chunks = s.chunks ∧ (s.upGroup n f).sends = s.sends ∧
    (s.upGroup n f).fabOut = s.fabOut ∧ (s.upGroup n f).fabSeq = s.fabSeq ∧ (s.upGroup n f).fabIn = s.fabIn ∧
    (s.upGroup n f).fabNext = s.fabNext ∧ (s.upGroup n f).fabGot = s.fabGot ∧ (s.upGroup n f).fabAcks = s.fabAcks ∧
    (s.upGroup n f).peers = s.peers ∧ (s.upGroup n f).matching = s.matching ∧ (s.upGroup n f).ports = s.ports ∧
    (s.upGroup n f).spdmClosed = s.spdmClosed ∧ (s.upGroup n f).outputs = s.outputs ∧ (s.upGroup n f).held = s.held ∧
    (s.upGroup n f).drains = s.drains ∧ (s.upGroup n f).windows = s.windows ∧ (s.upGroup n f).retiredUnits = s.retiredUnits ∧
    (s.upGroup n f).oscFused = s.oscFused ∧ (s.upGroup n f).siteLost = s.siteLost ∧ (s.upGroup n f).flash = s.flash ∧
    (s.upGroup n f).appends = s.appends ∧ (s.upGroup n f).appendStage = s.appendStage ∧ (s.upGroup n f).logPage = s.logPage ∧
    (s.upGroup n f).logSlot = s.logSlot ∧ (s.upGroup n f).logSeq = s.logSeq ∧ (s.upGroup n f).logCh = s.logCh ∧
    (s.upGroup n f).report = s.report ∧ (s.upGroup n f).cur = s.cur ∧ (s.upGroup n f).agenda = s.agenda ∧
    (s.upGroup n f).visits = s.visits ∧ (s.upGroup n f).late = s.late ∧ (s.upGroup n f).needs = s.needs ∧
    (s.upGroup n f).fresh = s.fresh ∧ (s.upGroup n f).draws = s.draws :=
  by simp only [State.upGroup, and_self]

@[simp] theorem State.upTeam_fields (s : State) (n : Nat) (f : Team → Team) :
    (s.upTeam n f).phase = s.phase ∧ (s.upTeam n f).clock = s.clock ∧ (s.upTeam n f).mem = s.mem ∧ (s.upTeam n f).hbmOld = s.hbmOld ∧
    (s.upTeam n f).ueUnits = s.ueUnits ∧ (s.upTeam n f).leases = s.leases ∧ (s.upTeam n f).lineC = s.lineC ∧
    (s.upTeam n f).owners = s.owners ∧ (s.upTeam n f).hostHolds = s.hostHolds ∧ (s.upTeam n f).snoops = s.snoops ∧
    (s.upTeam n f).hostWrites = s.hostWrites ∧ (s.upTeam n f).groups = s.groups ∧ (s.upTeam n f).teams = tblUp s.teams n f ∧
    (s.upTeam n f).cores = s.cores ∧ (s.upTeam n f).trays = s.trays ∧ (s.upTeam n f).dies = s.dies ∧
    (s.upTeam n f).trapvec = s.trapvec ∧ (s.upTeam n f).trapctl = s.trapctl ∧ (s.upTeam n f).vecWas = s.vecWas ∧
    (s.upTeam n f).ctlWas = s.ctlWas ∧ (s.upTeam n f).stopping = s.stopping ∧ (s.upTeam n f).discarding = s.discarding ∧
    (s.upTeam n f).restoring = s.restoring ∧ (s.upTeam n f).grids = s.grids ∧ (s.upTeam n f).packets = s.packets ∧
    (s.upTeam n f).ableSince = s.ableSince ∧ (s.upTeam n f).faults = s.faults ∧ (s.upTeam n f).emissions = s.emissions ∧
    (s.upTeam n f).sinks = s.sinks ∧ (s.upTeam n f).watermarks = s.watermarks ∧ (s.upTeam n f).contribs = s.contribs ∧
    (s.upTeam n f).chunks = s.chunks ∧ (s.upTeam n f).sends = s.sends ∧ (s.upTeam n f).fabOut = s.fabOut ∧
    (s.upTeam n f).fabSeq = s.fabSeq ∧ (s.upTeam n f).fabIn = s.fabIn ∧ (s.upTeam n f).fabNext = s.fabNext ∧
    (s.upTeam n f).fabGot = s.fabGot ∧ (s.upTeam n f).fabAcks = s.fabAcks ∧ (s.upTeam n f).peers = s.peers ∧
    (s.upTeam n f).matching = s.matching ∧ (s.upTeam n f).ports = s.ports ∧ (s.upTeam n f).spdmClosed = s.spdmClosed ∧
    (s.upTeam n f).outputs = s.outputs ∧ (s.upTeam n f).held = s.held ∧ (s.upTeam n f).drains = s.drains ∧
    (s.upTeam n f).windows = s.windows ∧ (s.upTeam n f).retiredUnits = s.retiredUnits ∧ (s.upTeam n f).oscFused = s.oscFused ∧
    (s.upTeam n f).siteLost = s.siteLost ∧ (s.upTeam n f).flash = s.flash ∧ (s.upTeam n f).appends = s.appends ∧
    (s.upTeam n f).appendStage = s.appendStage ∧ (s.upTeam n f).logPage = s.logPage ∧ (s.upTeam n f).logSlot = s.logSlot ∧
    (s.upTeam n f).logSeq = s.logSeq ∧ (s.upTeam n f).logCh = s.logCh ∧ (s.upTeam n f).report = s.report ∧ (s.upTeam n f).cur = s.cur ∧
    (s.upTeam n f).agenda = s.agenda ∧ (s.upTeam n f).visits = s.visits ∧ (s.upTeam n f).late = s.late ∧
    (s.upTeam n f).needs = s.needs ∧ (s.upTeam n f).fresh = s.fresh ∧ (s.upTeam n f).draws = s.draws :=
  by simp only [State.upTeam, and_self]

@[simp] theorem State.upCore_fields (s : State) (n : Nat) (f : Core → Core) :
    (s.upCore n f).phase = s.phase ∧ (s.upCore n f).clock = s.clock ∧ (s.upCore n f).mem = s.mem ∧ (s.upCore n f).hbmOld = s.hbmOld ∧
    (s.upCore n f).ueUnits = s.ueUnits ∧ (s.upCore n f).leases = s.leases ∧ (s.upCore n f).lineC = s.lineC ∧
    (s.upCore n f).owners = s.owners ∧ (s.upCore n f).hostHolds = s.hostHolds ∧ (s.upCore n f).snoops = s.snoops ∧
    (s.upCore n f).hostWrites = s.hostWrites ∧ (s.upCore n f).groups = s.groups ∧ (s.upCore n f).teams = s.teams ∧
    (s.upCore n f).cores = tblUp s.cores n f ∧ (s.upCore n f).trays = s.trays ∧ (s.upCore n f).dies = s.dies ∧
    (s.upCore n f).trapvec = s.trapvec ∧ (s.upCore n f).trapctl = s.trapctl ∧ (s.upCore n f).vecWas = s.vecWas ∧
    (s.upCore n f).ctlWas = s.ctlWas ∧ (s.upCore n f).stopping = s.stopping ∧ (s.upCore n f).discarding = s.discarding ∧
    (s.upCore n f).restoring = s.restoring ∧ (s.upCore n f).grids = s.grids ∧ (s.upCore n f).packets = s.packets ∧
    (s.upCore n f).ableSince = s.ableSince ∧ (s.upCore n f).faults = s.faults ∧ (s.upCore n f).emissions = s.emissions ∧
    (s.upCore n f).sinks = s.sinks ∧ (s.upCore n f).watermarks = s.watermarks ∧ (s.upCore n f).contribs = s.contribs ∧
    (s.upCore n f).chunks = s.chunks ∧ (s.upCore n f).sends = s.sends ∧ (s.upCore n f).fabOut = s.fabOut ∧
    (s.upCore n f).fabSeq = s.fabSeq ∧ (s.upCore n f).fabIn = s.fabIn ∧ (s.upCore n f).fabNext = s.fabNext ∧
    (s.upCore n f).fabGot = s.fabGot ∧ (s.upCore n f).fabAcks = s.fabAcks ∧ (s.upCore n f).peers = s.peers ∧
    (s.upCore n f).matching = s.matching ∧ (s.upCore n f).ports = s.ports ∧ (s.upCore n f).spdmClosed = s.spdmClosed ∧
    (s.upCore n f).outputs = s.outputs ∧ (s.upCore n f).held = s.held ∧ (s.upCore n f).drains = s.drains ∧
    (s.upCore n f).windows = s.windows ∧ (s.upCore n f).retiredUnits = s.retiredUnits ∧ (s.upCore n f).oscFused = s.oscFused ∧
    (s.upCore n f).siteLost = s.siteLost ∧ (s.upCore n f).flash = s.flash ∧ (s.upCore n f).appends = s.appends ∧
    (s.upCore n f).appendStage = s.appendStage ∧ (s.upCore n f).logPage = s.logPage ∧ (s.upCore n f).logSlot = s.logSlot ∧
    (s.upCore n f).logSeq = s.logSeq ∧ (s.upCore n f).logCh = s.logCh ∧ (s.upCore n f).report = s.report ∧ (s.upCore n f).cur = s.cur ∧
    (s.upCore n f).agenda = s.agenda ∧ (s.upCore n f).visits = s.visits ∧ (s.upCore n f).late = s.late ∧
    (s.upCore n f).needs = s.needs ∧ (s.upCore n f).fresh = s.fresh ∧ (s.upCore n f).draws = s.draws :=
  by simp only [State.upCore, and_self]

@[simp] theorem State.upDie_fields (s : State) (n : Nat) (f : Die → Die) :
    (s.upDie n f).phase = s.phase ∧ (s.upDie n f).clock = s.clock ∧ (s.upDie n f).mem = s.mem ∧ (s.upDie n f).hbmOld = s.hbmOld ∧
    (s.upDie n f).ueUnits = s.ueUnits ∧ (s.upDie n f).leases = s.leases ∧ (s.upDie n f).lineC = s.lineC ∧
    (s.upDie n f).owners = s.owners ∧ (s.upDie n f).hostHolds = s.hostHolds ∧ (s.upDie n f).snoops = s.snoops ∧
    (s.upDie n f).hostWrites = s.hostWrites ∧ (s.upDie n f).groups = s.groups ∧ (s.upDie n f).teams = s.teams ∧
    (s.upDie n f).cores = s.cores ∧ (s.upDie n f).trays = s.trays ∧ (s.upDie n f).dies = tblUp s.dies n f ∧
    (s.upDie n f).trapvec = s.trapvec ∧ (s.upDie n f).trapctl = s.trapctl ∧ (s.upDie n f).vecWas = s.vecWas ∧
    (s.upDie n f).ctlWas = s.ctlWas ∧ (s.upDie n f).stopping = s.stopping ∧ (s.upDie n f).discarding = s.discarding ∧
    (s.upDie n f).restoring = s.restoring ∧ (s.upDie n f).grids = s.grids ∧ (s.upDie n f).packets = s.packets ∧
    (s.upDie n f).ableSince = s.ableSince ∧ (s.upDie n f).faults = s.faults ∧ (s.upDie n f).emissions = s.emissions ∧
    (s.upDie n f).sinks = s.sinks ∧ (s.upDie n f).watermarks = s.watermarks ∧ (s.upDie n f).contribs = s.contribs ∧
    (s.upDie n f).chunks = s.chunks ∧ (s.upDie n f).sends = s.sends ∧ (s.upDie n f).fabOut = s.fabOut ∧
    (s.upDie n f).fabSeq = s.fabSeq ∧ (s.upDie n f).fabIn = s.fabIn ∧ (s.upDie n f).fabNext = s.fabNext ∧
    (s.upDie n f).fabGot = s.fabGot ∧ (s.upDie n f).fabAcks = s.fabAcks ∧ (s.upDie n f).peers = s.peers ∧
    (s.upDie n f).matching = s.matching ∧ (s.upDie n f).ports = s.ports ∧ (s.upDie n f).spdmClosed = s.spdmClosed ∧
    (s.upDie n f).outputs = s.outputs ∧ (s.upDie n f).held = s.held ∧ (s.upDie n f).drains = s.drains ∧
    (s.upDie n f).windows = s.windows ∧ (s.upDie n f).retiredUnits = s.retiredUnits ∧ (s.upDie n f).oscFused = s.oscFused ∧
    (s.upDie n f).siteLost = s.siteLost ∧ (s.upDie n f).flash = s.flash ∧ (s.upDie n f).appends = s.appends ∧
    (s.upDie n f).appendStage = s.appendStage ∧ (s.upDie n f).logPage = s.logPage ∧ (s.upDie n f).logSlot = s.logSlot ∧
    (s.upDie n f).logSeq = s.logSeq ∧ (s.upDie n f).logCh = s.logCh ∧ (s.upDie n f).report = s.report ∧ (s.upDie n f).cur = s.cur ∧
    (s.upDie n f).agenda = s.agenda ∧ (s.upDie n f).visits = s.visits ∧ (s.upDie n f).late = s.late ∧ (s.upDie n f).needs = s.needs ∧
    (s.upDie n f).fresh = s.fresh ∧ (s.upDie n f).draws = s.draws :=
  by simp only [State.upDie, and_self]

@[simp] theorem State.setMem_fields (s : State) (m : Cells 8) :
    (s.setMem m).phase = s.phase ∧ (s.setMem m).clock = s.clock ∧ (s.setMem m).mem = m ∧ (s.setMem m).hbmOld = s.hbmOld ∧
    (s.setMem m).ueUnits = s.ueUnits ∧ (s.setMem m).leases = s.leases ∧ (s.setMem m).lineC = s.lineC ∧ (s.setMem m).owners = s.owners ∧
    (s.setMem m).hostHolds = s.hostHolds ∧ (s.setMem m).snoops = s.snoops ∧ (s.setMem m).hostWrites = s.hostWrites ∧
    (s.setMem m).groups = s.groups ∧ (s.setMem m).teams = s.teams ∧ (s.setMem m).cores = s.cores ∧ (s.setMem m).trays = s.trays ∧
    (s.setMem m).dies = s.dies ∧ (s.setMem m).trapvec = s.trapvec ∧ (s.setMem m).trapctl = s.trapctl ∧ (s.setMem m).vecWas = s.vecWas ∧
    (s.setMem m).ctlWas = s.ctlWas ∧ (s.setMem m).stopping = s.stopping ∧ (s.setMem m).discarding = s.discarding ∧
    (s.setMem m).restoring = s.restoring ∧ (s.setMem m).grids = s.grids ∧ (s.setMem m).packets = s.packets ∧
    (s.setMem m).ableSince = s.ableSince ∧ (s.setMem m).faults = s.faults ∧ (s.setMem m).emissions = s.emissions ∧
    (s.setMem m).sinks = s.sinks ∧ (s.setMem m).watermarks = s.watermarks ∧ (s.setMem m).contribs = s.contribs ∧
    (s.setMem m).chunks = s.chunks ∧ (s.setMem m).sends = s.sends ∧ (s.setMem m).fabOut = s.fabOut ∧ (s.setMem m).fabSeq = s.fabSeq ∧
    (s.setMem m).fabIn = s.fabIn ∧ (s.setMem m).fabNext = s.fabNext ∧ (s.setMem m).fabGot = s.fabGot ∧
    (s.setMem m).fabAcks = s.fabAcks ∧ (s.setMem m).peers = s.peers ∧ (s.setMem m).matching = s.matching ∧
    (s.setMem m).ports = s.ports ∧ (s.setMem m).spdmClosed = s.spdmClosed ∧ (s.setMem m).outputs = s.outputs ∧
    (s.setMem m).held = s.held ∧ (s.setMem m).drains = s.drains ∧ (s.setMem m).windows = s.windows ∧
    (s.setMem m).retiredUnits = s.retiredUnits ∧ (s.setMem m).oscFused = s.oscFused ∧ (s.setMem m).siteLost = s.siteLost ∧
    (s.setMem m).flash = s.flash ∧ (s.setMem m).appends = s.appends ∧ (s.setMem m).appendStage = s.appendStage ∧
    (s.setMem m).logPage = s.logPage ∧ (s.setMem m).logSlot = s.logSlot ∧ (s.setMem m).logSeq = s.logSeq ∧
    (s.setMem m).logCh = s.logCh ∧ (s.setMem m).report = s.report ∧ (s.setMem m).cur = s.cur ∧ (s.setMem m).agenda = s.agenda ∧
    (s.setMem m).visits = s.visits ∧ (s.setMem m).late = s.late ∧ (s.setMem m).needs = s.needs ∧ (s.setMem m).fresh = s.fresh ∧
    (s.setMem m).draws = s.draws :=
  by simp only [State.setMem, and_self]

@[simp] theorem State.bump_fields (s : State) :
    s.bump.phase = s.phase ∧ s.bump.clock = s.clock ∧ s.bump.mem = s.mem ∧ s.bump.hbmOld = s.hbmOld ∧ s.bump.ueUnits = s.ueUnits ∧
    s.bump.leases = s.leases ∧ s.bump.lineC = s.lineC ∧ s.bump.owners = s.owners ∧ s.bump.hostHolds = s.hostHolds ∧
    s.bump.snoops = s.snoops ∧ s.bump.hostWrites = s.hostWrites ∧ s.bump.groups = s.groups ∧ s.bump.teams = s.teams ∧
    s.bump.cores = s.cores ∧ s.bump.trays = s.trays ∧ s.bump.dies = s.dies ∧ s.bump.trapvec = s.trapvec ∧ s.bump.trapctl = s.trapctl ∧
    s.bump.vecWas = s.vecWas ∧ s.bump.ctlWas = s.ctlWas ∧ s.bump.stopping = s.stopping ∧ s.bump.discarding = s.discarding ∧
    s.bump.restoring = s.restoring ∧ s.bump.grids = s.grids ∧ s.bump.packets = s.packets ∧ s.bump.ableSince = s.ableSince ∧
    s.bump.faults = s.faults ∧ s.bump.emissions = s.emissions ∧ s.bump.sinks = s.sinks ∧ s.bump.watermarks = s.watermarks ∧
    s.bump.contribs = s.contribs ∧ s.bump.chunks = s.chunks ∧ s.bump.sends = s.sends ∧ s.bump.fabOut = s.fabOut ∧
    s.bump.fabSeq = s.fabSeq ∧ s.bump.fabIn = s.fabIn ∧ s.bump.fabNext = s.fabNext ∧ s.bump.fabGot = s.fabGot ∧
    s.bump.fabAcks = s.fabAcks ∧ s.bump.peers = s.peers ∧ s.bump.matching = s.matching ∧ s.bump.ports = s.ports ∧
    s.bump.spdmClosed = s.spdmClosed ∧ s.bump.outputs = s.outputs ∧ s.bump.held = s.held ∧ s.bump.drains = s.drains ∧
    s.bump.windows = s.windows ∧ s.bump.retiredUnits = s.retiredUnits ∧ s.bump.oscFused = s.oscFused ∧ s.bump.siteLost = s.siteLost ∧
    s.bump.flash = s.flash ∧ s.bump.appends = s.appends ∧ s.bump.appendStage = s.appendStage ∧ s.bump.logPage = s.logPage ∧
    s.bump.logSlot = s.logSlot ∧ s.bump.logSeq = s.logSeq ∧ s.bump.logCh = s.logCh ∧ s.bump.report = s.report ∧ s.bump.cur = s.cur ∧
    s.bump.agenda = s.agenda ∧ s.bump.visits = s.visits ∧ s.bump.late = s.late ∧ s.bump.needs = s.needs ∧ s.bump.fresh = s.fresh + 1 ∧
    s.bump.draws = s.draws :=
  by simp only [State.bump, and_self]

@[simp] theorem lack_fields (s : State) (x : Need) :
    (lack s x).phase = s.phase ∧ (lack s x).clock = s.clock ∧ (lack s x).mem = s.mem ∧ (lack s x).hbmOld = s.hbmOld ∧
    (lack s x).ueUnits = s.ueUnits ∧ (lack s x).leases = s.leases ∧ (lack s x).lineC = s.lineC ∧ (lack s x).owners = s.owners ∧
    (lack s x).hostHolds = s.hostHolds ∧ (lack s x).snoops = s.snoops ∧ (lack s x).hostWrites = s.hostWrites ∧
    (lack s x).groups = s.groups ∧ (lack s x).teams = s.teams ∧ (lack s x).cores = s.cores ∧ (lack s x).trays = s.trays ∧
    (lack s x).dies = s.dies ∧ (lack s x).trapvec = s.trapvec ∧ (lack s x).trapctl = s.trapctl ∧ (lack s x).vecWas = s.vecWas ∧
    (lack s x).ctlWas = s.ctlWas ∧ (lack s x).stopping = s.stopping ∧ (lack s x).discarding = s.discarding ∧
    (lack s x).restoring = s.restoring ∧ (lack s x).grids = s.grids ∧ (lack s x).packets = s.packets ∧
    (lack s x).ableSince = s.ableSince ∧ (lack s x).faults = s.faults ∧ (lack s x).emissions = s.emissions ∧
    (lack s x).sinks = s.sinks ∧ (lack s x).watermarks = s.watermarks ∧ (lack s x).contribs = s.contribs ∧
    (lack s x).chunks = s.chunks ∧ (lack s x).sends = s.sends ∧ (lack s x).fabOut = s.fabOut ∧ (lack s x).fabSeq = s.fabSeq ∧
    (lack s x).fabIn = s.fabIn ∧ (lack s x).fabNext = s.fabNext ∧ (lack s x).fabGot = s.fabGot ∧ (lack s x).fabAcks = s.fabAcks ∧
    (lack s x).peers = s.peers ∧ (lack s x).matching = s.matching ∧ (lack s x).ports = s.ports ∧ (lack s x).spdmClosed = s.spdmClosed ∧
    (lack s x).outputs = s.outputs ∧ (lack s x).held = s.held ∧ (lack s x).drains = s.drains ∧ (lack s x).windows = s.windows ∧
    (lack s x).retiredUnits = s.retiredUnits ∧ (lack s x).oscFused = s.oscFused ∧ (lack s x).siteLost = s.siteLost ∧
    (lack s x).flash = s.flash ∧ (lack s x).appends = s.appends ∧ (lack s x).appendStage = s.appendStage ∧
    (lack s x).logPage = s.logPage ∧ (lack s x).logSlot = s.logSlot ∧ (lack s x).logSeq = s.logSeq ∧ (lack s x).logCh = s.logCh ∧
    (lack s x).report = s.report ∧ (lack s x).cur = s.cur ∧ (lack s x).agenda = s.agenda ∧ (lack s x).visits = s.visits ∧
    (lack s x).late = s.late ∧ (lack s x).needs = (if s.needs.contains x then s.needs else s.needs ++ [x]) ∧
    (lack s x).fresh = s.fresh ∧ (lack s x).draws = s.draws :=
  by simp only [lack, and_self]

theorem State.upGroup_of_some {s : State} {n : Nat} {g : Group} (h : tblGet s.groups n = some g) (f : Group → Group) :
    s.upGroup n f = s.putGroup n (f g) := by simp [State.upGroup, State.putGroup, tblUp_of_some h]

@[simp] theorem State.putGroup_putGroup (s : State) (n : Nat) (a b : Group) : (s.putGroup n a).putGroup n b = s.putGroup n b := by
  simp [State.putGroup]

@[simp] theorem State.upGroup_putGroup (s : State) (n : Nat) (g : Group) (f : Group → Group) :
    (s.putGroup n g).upGroup n f = s.putGroup n (f g) := by
  rw [State.upGroup_of_some (g := g) (by simp)]; simp

/-- The selected group makes its move. -/
theorem onGroup_of_some {s : State} {g : Group} (h : tblGet s.groups s.cur = some g) (f : Group → State) :
    onGroup s f = .next (f g) := by simp [onGroup, h]

theorem onGroup_of_none {s : State} (h : tblGet s.groups s.cur = none) (f : Group → State) : onGroup s f = .fault .noGroup := by
  simp [onGroup, h]

end Sys2Proof.Machine
end

