-- ==== Sys2Proof/Laws/Memory.lean ====
section
/-!
SUPPORT. Laws of memory: every operation keeps its canonical form, a read after a write gives the bytes written, and a write leaves
every other byte alone.
-/
namespace Sys2Proof.Machine

theorem memory_wf_cellSet (m : Cells 8) (a : Nat) (b : Byte) (h : Memory.wf m = true) : Memory.wf (cellSet m a b) = true :=
  cellsWf_cellSet m a b h

theorem memory_wf_writeBytes : ∀ (bs : List Byte) (m : Cells 8) (a : Nat), Memory.wf m = true → Memory.wf (writeBytes m a bs) = true
  | [], _, _, h => h
  | b :: bs, m, a, h => memory_wf_writeBytes bs (cellSet m a b) (a + 1) (memory_wf_cellSet m a b h)

theorem memory_wf_writeNum (m : Cells 8) (a n v : Nat) (h : Memory.wf m = true) : Memory.wf (writeNum m a n v) = true :=
  memory_wf_writeBytes _ m a h

theorem memory_wf_filter (m : Cells 8) (p : Nat × Byte → Bool) (h : Memory.wf m = true) : Memory.wf (m.filter p) = true :=
  cellsFrom_filter p m 0 h

theorem memory_wf_reset : Memory.wf State.reset.mem = true := rfl

/-- A write gives the bytes written where it wrote, and leaves every other byte. -/
theorem readByte_writeBytes : ∀ (bs : List Byte) (m : Cells 8) (a k : Nat),
    readByte (writeBytes m a bs) k = if h : a ≤ k ∧ k < a + bs.length then bs[k - a]'(by omega) else readByte m k
  | [], m, a, k => by
    have : ¬ (a ≤ k ∧ k < a + ([] : List Byte).length) := by simp
    rw [dif_neg this]; rfl
  | b :: bs, m, a, k => by
    rw [writeBytes, readByte_writeBytes bs (cellSet m a b) (a + 1) k]
    have hc : readByte (cellSet m a b) k = if a = k then b else readByte m k := cellGet_cellSet m a b k
    by_cases h1 : a = k
    · subst h1
      have n1 : ¬ (a + 1 ≤ a ∧ a < a + 1 + bs.length) := by omega
      have y : a ≤ a ∧ a < a + (b :: bs).length := by simp
      rw [dif_neg n1, dif_pos y, hc]; simp
    · by_cases h2 : a + 1 ≤ k ∧ k < a + 1 + bs.length
      · have y : a ≤ k ∧ k < a + (b :: bs).length := by rw [List.length_cons]; omega
        rw [dif_pos h2, dif_pos y]
        have e : k - a = k - (a + 1) + 1 := by omega
        simp [e]
      · have n : ¬ (a ≤ k ∧ k < a + (b :: bs).length) := by rw [List.length_cons]; omega
        rw [dif_neg h2, dif_neg n, hc, if_neg h1]

theorem readByte_writeBytes_of_lt (bs : List Byte) (m : Cells 8) (a k : Nat) (h : k < a) :
    readByte (writeBytes m a bs) k = readByte m k := by rw [readByte_writeBytes, dif_neg (by omega)]

theorem readByte_writeBytes_of_ge (bs : List Byte) (m : Cells 8) (a k : Nat) (h : a + bs.length ≤ k) :
    readByte (writeBytes m a bs) k = readByte m k := by rw [readByte_writeBytes, dif_neg (by omega)]

/-- A read after a write to the same place gives the bytes written. -/
theorem readBytes_writeBytes (bs : List Byte) (m : Cells 8) (a : Nat) : readBytes (writeBytes m a bs) a bs.length = bs := by
  apply List.ext_getElem
  · simp [readBytes]
  · intro i h1 h2
    have h3 : i < bs.length := h2
    simp only [readBytes, List.getElem_map, List.getElem_range]
    rw [readByte_writeBytes, dif_pos (by omega)]
    simp

end Sys2Proof.Machine
end

