-- ==== Sys2Proof/Laws/PerInstr.lean ====
section
/-!
SUPPORT. Laws stated for each instruction: every word of its encoding is a number below 2^32.
-/
namespace Sys2Proof.Laws.Words

set_option Elab.async false

/-- Every word of the instruction's encoding has 32 bits. -/
def Statement (i : Instr) : Prop := ∀ w ∈ encode i, w < 2 ^ 32

theorem bool_lt (b : Bool) : b.toNat < 2 := by cases b <;> decide

theorem lWord0_le (o : LOps) : lWord0 o ≤ 33554304 := by unfold lWord0; omega

theorem lWord1_lt (o : LOps) : lWord1 o < 4294967296 := by
  have h1 := bool_lt o.absC
  have h2 := bool_lt o.absB
  have h3 := bool_lt o.absA
  have h4 := bool_lt o.negC
  have h5 := bool_lt o.negB
  have h6 := bool_lt o.negA
  unfold lWord1
  omega

theorem mlWord0_le (m : MLOps) : mlWord0 m ≤ 33554304 := by unfold mlWord0; omega

theorem mlWord1_lt (m : MLOps) : mlWord1 m < 4294967296 := by
  have h1 := bool_lt m.nt
  unfold mlWord1
  omega

theorem one {a : Nat} (h : a < 2 ^ 32) : ∀ w ∈ [a], w < 2 ^ 32 := by simpa using h

theorem two {a b : Nat} (h : a < 2 ^ 32) (k : b < 2 ^ 32) : ∀ w ∈ [a, b], w < 2 ^ 32 := by
  intro w m
  simp only [List.mem_cons, List.not_mem_nil, or_false] at m
  rcases m with rfl | rfl
  · exact h
  · exact k

theorem none_ : ∀ w ∈ ([] : List Nat), w < 2 ^ 32 := by simp

theorem iadd (g : BitVec 5) (d : BitVec 6) (a : BitVec 7) (b : BitVec 7) : Statement (.iadd g d a b) := one (by omega)
theorem isub (g : BitVec 5) (d : BitVec 6) (a : BitVec 7) (b : BitVec 7) : Statement (.isub g d a b) := one (by omega)
theorem imul (g : BitVec 5) (d : BitVec 6) (a : BitVec 7) (b : BitVec 7) : Statement (.imul g d a b) := one (by omega)
theorem imin (g : BitVec 5) (d : BitVec 6) (a : BitVec 7) (b : BitVec 7) : Statement (.imin g d a b) := one (by omega)
theorem imax (g : BitVec 5) (d : BitVec 6) (a : BitVec 7) (b : BitVec 7) : Statement (.imax g d a b) := one (by omega)
theorem and (g : BitVec 5) (d : BitVec 6) (a : BitVec 7) (b : BitVec 7) : Statement (.and g d a b) := one (by omega)
theorem or (g : BitVec 5) (d : BitVec 6) (a : BitVec 7) (b : BitVec 7) : Statement (.or g d a b) := one (by omega)
theorem xor (g : BitVec 5) (d : BitVec 6) (a : BitVec 7) (b : BitVec 7) : Statement (.xor g d a b) := one (by omega)
theorem andn (g : BitVec 5) (d : BitVec 6) (a : BitVec 7) (b : BitVec 7) : Statement (.andn g d a b) := one (by omega)
theorem shl (g : BitVec 5) (d : BitVec 6) (a : BitVec 7) (b : BitVec 7) : Statement (.shl g d a b) := one (by omega)
theorem shr (g : BitVec 5) (d : BitVec 6) (a : BitVec 7) (b : BitVec 7) : Statement (.shr g d a b) := one (by omega)
theorem sar (g : BitVec 5) (d : BitVec 6) (a : BitVec 7) (b : BitVec 7) : Statement (.sar g d a b) := one (by omega)
theorem mov (g : BitVec 5) (d : BitVec 6) (a : BitVec 7) : Statement (.mov g d a) := one (by omega)
theorem iabs (g : BitVec 5) (d : BitVec 6) (a : BitVec 7) : Statement (.iabs g d a) := one (by omega)
theorem not (g : BitVec 5) (d : BitVec 6) (a : BitVec 7) : Statement (.not g d a) := one (by omega)
theorem popc (g : BitVec 5) (d : BitVec 6) (a : BitVec 7) : Statement (.popc g d a) := one (by omega)
theorem clz (g : BitVec 5) (d : BitVec 6) (a : BitVec 7) : Statement (.clz g d a) := one (by omega)
theorem brev (g : BitVec 5) (d : BitVec 6) (a : BitVec 7) : Statement (.brev g d a) := one (by omega)
theorem fadd (g : BitVec 5) (d : BitVec 6) (a : BitVec 7) (b : BitVec 7) : Statement (.fadd g d a b) := one (by omega)
theorem fsub (g : BitVec 5) (d : BitVec 6) (a : BitVec 7) (b : BitVec 7) : Statement (.fsub g d a b) := one (by omega)
theorem fmul (g : BitVec 5) (d : BitVec 6) (a : BitVec 7) (b : BitVec 7) : Statement (.fmul g d a b) := one (by omega)
theorem fmin (g : BitVec 5) (d : BitVec 6) (a : BitVec 7) (b : BitVec 7) : Statement (.fmin g d a b) := one (by omega)
theorem fmax (g : BitVec 5) (d : BitVec 6) (a : BitVec 7) (b : BitVec 7) : Statement (.fmax g d a b) := one (by omega)
theorem frcp (g : BitVec 5) (d : BitVec 6) (a : BitVec 7) : Statement (.frcp g d a) := one (by omega)
theorem frsq (g : BitVec 5) (d : BitVec 6) (a : BitVec 7) : Statement (.frsq g d a) := one (by omega)
theorem fsqrt (g : BitVec 5) (d : BitVec 6) (a : BitVec 7) : Statement (.fsqrt g d a) := one (by omega)
theorem fexp2 (g : BitVec 5) (d : BitVec 6) (a : BitVec 7) : Statement (.fexp2 g d a) := one (by omega)
theorem flog2 (g : BitVec 5) (d : BitVec 6) (a : BitVec 7) : Statement (.flog2 g d a) := one (by omega)
theorem fsin (g : BitVec 5) (d : BitVec 6) (a : BitVec 7) : Statement (.fsin g d a) := one (by omega)
theorem fcos (g : BitVec 5) (d : BitVec 6) (a : BitVec 7) : Statement (.fcos g d a) := one (by omega)
theorem fclass (g : BitVec 5) (d : BitVec 6) (a : BitVec 7) : Statement (.fclass g d a) := one (by omega)
theorem hadd2 (g : BitVec 5) (d : BitVec 6) (a : BitVec 7) (b : BitVec 7) : Statement (.hadd2 g d a b) := one (by omega)
theorem hmul2 (g : BitVec 5) (d : BitVec 6) (a : BitVec 7) (b : BitVec 7) : Statement (.hmul2 g d a b) := one (by omega)
theorem uadd (g : BitVec 5) (d : BitVec 6) (a : BitVec 7) (b : BitVec 7) : Statement (.uadd g d a b) := one (by omega)
theorem usub (g : BitVec 5) (d : BitVec 6) (a : BitVec 7) (b : BitVec 7) : Statement (.usub g d a b) := one (by omega)
theorem uand (g : BitVec 5) (d : BitVec 6) (a : BitVec 7) (b : BitVec 7) : Statement (.uand g d a b) := one (by omega)
theorem umov (g : BitVec 5) (d : BitVec 6) (a : BitVec 7) : Statement (.umov g d a) := one (by omega)
theorem exset (a : BitVec 7) : Statement (.exset a) := one (by omega)
theorem exsetAnd (d : BitVec 6) : Statement (.exsetAnd d) := one (by omega)
theorem exsetAndn (d : BitVec 6) : Statement (.exsetAndn d) := one (by omega)
theorem exget (d : BitVec 6) : Statement (.exget d) := one (by omega)
theorem pmov (d : BitVec 6) (a : BitVec 7) : Statement (.pmov d a) := one (by omega)
theorem movsr (g : BitVec 5) (d : BitVec 6) (a : BitVec 7) : Statement (.movsr g d a) := one (by omega)
theorem movsrClr (g : BitVec 5) (d : BitVec 6) : Statement (.movsrClr g d) := one (by omega)
theorem br (p : BitVec 5) (c : BitVec 3) (u : Bool) (off : BitVec 16) : Statement (.br p c u off) := one (by have := bool_lt u; omega)
theorem call (l : BitVec 4) (off : BitVec 16) : Statement (.call l off) := one (by omega)
theorem loop (n : BitVec 5) (off : BitVec 16) : Statement (.loop n off) := one (by omega)
theorem nop (g : BitVec 5) : Statement (.nop g) := one (by omega)
theorem ret (a : BitVec 7) : Statement (.ret a) := one (by omega)
theorem exit : Statement (.exit) := one (by decide)
theorem jmpx (a : BitVec 7) : Statement (.jmpx a) := one (by omega)
theorem ld (g : BitVec 5) (d : BitVec 6) (b : BitVec 7) (off : BitVec 7) : Statement (.ld g d b off) := one (by omega)
theorem st (g : BitVec 5) (d : BitVec 6) (b : BitVec 7) (off : BitVec 7) : Statement (.st g d b off) := one (by omega)
theorem lds (g : BitVec 5) (d : BitVec 6) (b : BitVec 7) (off : BitVec 7) : Statement (.lds g d b off) := one (by omega)
theorem sts (g : BitVec 5) (d : BitVec 6) (b : BitVec 7) (off : BitVec 7) : Statement (.sts g d b off) := one (by omega)
theorem ldc (g : BitVec 5) (d : BitVec 6) (b : BitVec 7) (off : BitVec 7) : Statement (.ldc g d b off) := one (by omega)
theorem fence (g : BitVec 5) (order : BitVec 3) (scope : BitVec 3) (xp : Bool) : Statement (.fence g order scope xp) :=
  one (by have := bool_lt xp; omega)
theorem txbegin (d : BitVec 6) : Statement (.txbegin d) := one (by omega)
theorem txend : Statement (.txend) := one (by decide)
theorem txabort (code : BitVec 8) : Statement (.txabort code) := one (by omega)
theorem accz (m : BitVec 8) : Statement (.accz m) := one (by omega)
theorem setrt (n : BitVec 2) (a : BitVec 7) : Statement (.setrt n a) := one (by omega)
theorem cmit : Statement (.cmit) := one (by decide)
theorem waitc (id1 : BitVec 3) (t1 : BitVec 6) (id2 : BitVec 3) (t2 : BitVec 6) : Statement (.waitc id1 t1 id2 t2) := one (by omega)
theorem fstop : Statement (.fstop) := one (by decide)
theorem barv (d : BitVec 6) (b : BitVec 7) (n : BitVec 7) : Statement (.barv d b n) := one (by omega)
theorem bexp (b : BitVec 7) (n : BitVec 7) : Statement (.bexp b n) := one (by omega)
theorem bwait (d : BitVec 6) (b : BitVec 7) (n : BitVec 7) : Statement (.bwait d b n) := one (by omega)
theorem bart (id : BitVec 2) : Statement (.bart id) := one (by omega)
theorem barc (id : BitVec 2) : Statement (.barc id) := one (by omega)
theorem schnext (d : BitVec 6) : Statement (.schnext d) := one (by omega)
theorem waita (d : BitVec 6) (a : BitVec 7) (r : BitVec 7) : Statement (.waita d a r) := one (by omega)
theorem rng (g : BitVec 5) (d : BitVec 6) (k : BitVec 7) (c : BitVec 7) : Statement (.rng g d k c) := one (by omega)
theorem rngSeq (g : BitVec 5) (d : BitVec 6) (k : BitVec 7) (n : BitVec 2) : Statement (.rngSeq g d k n) := one (by omega)
theorem smark (g : BitVec 5) (slot : BitVec 2) (p : BitVec 7) : Statement (.smark g slot p) := one (by omega)
theorem sclose (slot : BitVec 2) : Statement (.sclose slot) := one (by omega)
theorem trap (g : BitVec 5) (code : BitVec 16) : Statement (.trap g code) := one (by omega)
theorem tret : Statement (.tret) := one (by decide)
theorem bkpt (g : BitVec 5) (code : BitVec 16) : Statement (.bkpt g code) := one (by omega)
theorem csrr (d : BitVec 6) (n : BitVec 10) : Statement (.csrr d n) := one (by omega)
theorem csrw (src : BitVec 7) (n : BitVec 10) : Statement (.csrw src n) := one (by omega)
theorem iaddLong (t : BitVec 2) (sat : Bool) (o : LOps) : Statement (.iaddLong t sat o) :=
  two (by have := bool_lt sat; have := lWord0_le o; omega) (lWord1_lt o)
theorem isubLong (t : BitVec 2) (sat : Bool) (o : LOps) : Statement (.isubLong t sat o) :=
  two (by have := bool_lt sat; have := lWord0_le o; omega) (lWord1_lt o)
theorem imulLong (t : BitVec 2) (sat : Bool) (o : LOps) : Statement (.imulLong t sat o) :=
  two (by have := bool_lt sat; have := lWord0_le o; omega) (lWord1_lt o)
theorem imulh (t : BitVec 2) (o : LOps) : Statement (.imulh t o) := two (by have := lWord0_le o; omega) (lWord1_lt o)
theorem iminLong (t : BitVec 2) (o : LOps) : Statement (.iminLong t o) := two (by have := lWord0_le o; omega) (lWord1_lt o)
theorem imaxLong (t : BitVec 2) (o : LOps) : Statement (.imaxLong t o) := two (by have := lWord0_le o; omega) (lWord1_lt o)
theorem iabsLong (sat : Bool) (o : LOps) : Statement (.iabsLong sat o) :=
  two (by have := bool_lt sat; have := lWord0_le o; omega) (lWord1_lt o)
theorem imad (t : BitVec 2) (sat : Bool) (o : LOps) : Statement (.imad t sat o) :=
  two (by have := bool_lt sat; have := lWord0_le o; omega) (lWord1_lt o)
theorem andLong (o : LOps) : Statement (.andLong o) := two (by have := lWord0_le o; omega) (lWord1_lt o)
theorem orLong (o : LOps) : Statement (.orLong o) := two (by have := lWord0_le o; omega) (lWord1_lt o)
theorem xorLong (o : LOps) : Statement (.xorLong o) := two (by have := lWord0_le o; omega) (lWord1_lt o)
theorem andnLong (o : LOps) : Statement (.andnLong o) := two (by have := lWord0_le o; omega) (lWord1_lt o)
theorem notLong (o : LOps) : Statement (.notLong o) := two (by have := lWord0_le o; omega) (lWord1_lt o)
theorem shlLong (o : LOps) : Statement (.shlLong o) := two (by have := lWord0_le o; omega) (lWord1_lt o)
theorem shrLong (o : LOps) : Statement (.shrLong o) := two (by have := lWord0_le o; omega) (lWord1_lt o)
theorem sarLong (o : LOps) : Statement (.sarLong o) := two (by have := lWord0_le o; omega) (lWord1_lt o)
theorem rot (o : LOps) : Statement (.rot o) := two (by have := lWord0_le o; omega) (lWord1_lt o)
theorem bfe (sx : Bool) (o : LOps) : Statement (.bfe sx o) := two (by have := bool_lt sx; have := lWord0_le o; omega) (lWord1_lt o)
theorem bfi (o : LOps) : Statement (.bfi o) := two (by have := lWord0_le o; omega) (lWord1_lt o)
theorem popcLong (o : LOps) : Statement (.popcLong o) := two (by have := lWord0_le o; omega) (lWord1_lt o)
theorem clzLong (o : LOps) : Statement (.clzLong o) := two (by have := lWord0_le o; omega) (lWord1_lt o)
theorem brevLong (o : LOps) : Statement (.brevLong o) := two (by have := lWord0_le o; omega) (lWord1_lt o)
theorem icmp (cmp : BitVec 3) (t : BitVec 2) (o : LOps) : Statement (.icmp cmp t o) := two (by have := lWord0_le o; omega) (lWord1_lt o)
theorem sel (w64 : Bool) (pneg : Bool) (pr : BitVec 4) (o : LOps) : Statement (.sel w64 pneg pr o) :=
  two (by have := bool_lt w64; have := bool_lt pneg; have := lWord0_le o; omega) (lWord1_lt o)
theorem movi (g : BitVec 5) (d : BitVec 6) (imm : BitVec 32) : Statement (.movi g d imm) := two (by omega) (by omega)
theorem iadd64 (o : LOps) : Statement (.iadd64 o) := two (by have := lWord0_le o; omega) (lWord1_lt o)
theorem isub64 (o : LOps) : Statement (.isub64 o) := two (by have := lWord0_le o; omega) (lWord1_lt o)
theorem imul64 (o : LOps) : Statement (.imul64 o) := two (by have := lWord0_le o; omega) (lWord1_lt o)
theorem shl64 (o : LOps) : Statement (.shl64 o) := two (by have := lWord0_le o; omega) (lWord1_lt o)
theorem shr64 (sx : Bool) (o : LOps) : Statement (.shr64 sx o) := two (by have := bool_lt sx; have := lWord0_le o; omega) (lWord1_lt o)
theorem faddLong (rm : BitVec 3) (o : LOps) : Statement (.faddLong rm o) := two (by have := lWord0_le o; omega) (lWord1_lt o)
theorem fsubLong (rm : BitVec 3) (o : LOps) : Statement (.fsubLong rm o) := two (by have := lWord0_le o; omega) (lWord1_lt o)
theorem fmulLong (rm : BitVec 3) (o : LOps) : Statement (.fmulLong rm o) := two (by have := lWord0_le o; omega) (lWord1_lt o)
theorem ffma (rm : BitVec 3) (o : LOps) : Statement (.ffma rm o) := two (by have := lWord0_le o; omega) (lWord1_lt o)
theorem fminLong (o : LOps) : Statement (.fminLong o) := two (by have := lWord0_le o; omega) (lWord1_lt o)
theorem fmaxLong (o : LOps) : Statement (.fmaxLong o) := two (by have := lWord0_le o; omega) (lWord1_lt o)
theorem fcmp (cmp : BitVec 3) (t : BitVec 2) (o : LOps) : Statement (.fcmp cmp t o) := two (by have := lWord0_le o; omega) (lWord1_lt o)
theorem frcpLong (rm : BitVec 3) (o : LOps) : Statement (.frcpLong rm o) := two (by have := lWord0_le o; omega) (lWord1_lt o)
theorem frsqLong (rm : BitVec 3) (o : LOps) : Statement (.frsqLong rm o) := two (by have := lWord0_le o; omega) (lWord1_lt o)
theorem fsqrtLong (rm : BitVec 3) (o : LOps) : Statement (.fsqrtLong rm o) := two (by have := lWord0_le o; omega) (lWord1_lt o)
theorem fexp2Long (rm : BitVec 3) (o : LOps) : Statement (.fexp2Long rm o) := two (by have := lWord0_le o; omega) (lWord1_lt o)
theorem flog2Long (rm : BitVec 3) (o : LOps) : Statement (.flog2Long rm o) := two (by have := lWord0_le o; omega) (lWord1_lt o)
theorem fsinLong (rm : BitVec 3) (o : LOps) : Statement (.fsinLong rm o) := two (by have := lWord0_le o; omega) (lWord1_lt o)
theorem fcosLong (rm : BitVec 3) (o : LOps) : Statement (.fcosLong rm o) := two (by have := lWord0_le o; omega) (lWord1_lt o)
theorem frint (rm : BitVec 3) (o : LOps) : Statement (.frint rm o) := two (by have := lWord0_le o; omega) (lWord1_lt o)
theorem fclassLong (o : LOps) : Statement (.fclassLong o) := two (by have := lWord0_le o; omega) (lWord1_lt o)
theorem fldexp (rm : BitVec 3) (o : LOps) : Statement (.fldexp rm o) := two (by have := lWord0_le o; omega) (lWord1_lt o)
theorem cvt (pair : BitVec 4) (rm : BitVec 3) (o : LOps) : Statement (.cvt pair rm o) := two (by have := lWord0_le o; omega) (lWord1_lt o)
theorem hadd2Long (bf : Bool) (rm : BitVec 3) (o : LOps) : Statement (.hadd2Long bf rm o) :=
  two (by have := bool_lt bf; have := lWord0_le o; omega) (lWord1_lt o)
theorem hmul2Long (bf : Bool) (rm : BitVec 3) (o : LOps) : Statement (.hmul2Long bf rm o) :=
  two (by have := bool_lt bf; have := lWord0_le o; omega) (lWord1_lt o)
theorem hfma2 (bf : Bool) (rm : BitVec 3) (o : LOps) : Statement (.hfma2 bf rm o) :=
  two (by have := bool_lt bf; have := lWord0_le o; omega) (lWord1_lt o)
theorem dot4 (t : BitVec 2) (rm : BitVec 3) (sat : Bool) (o : LOps) : Statement (.dot4 t rm sat o) :=
  two (by have := bool_lt sat; have := lWord0_le o; omega) (lWord1_lt o)
theorem dot8 (t : BitVec 2) (rm : BitVec 3) (sat : Bool) (o : LOps) : Statement (.dot8 t rm sat o) :=
  two (by have := bool_lt sat; have := lWord0_le o; omega) (lWord1_lt o)
theorem xlane (w64 : Bool) (o : LOps) : Statement (.xlane w64 o) := two (by have := bool_lt w64; have := lWord0_le o; omega) (lWord1_lt o)
theorem xlaneIdx (w64 : Bool) (ifill : BitVec 2) (o : LOps) : Statement (.xlaneIdx w64 ifill o) :=
  two (by have := bool_lt w64; have := lWord0_le o; omega) (lWord1_lt o)
theorem redx (rop : BitVec 3) (t : BitVec 3) (o : LOps) : Statement (.redx rop t o) := two (by have := lWord0_le o; omega) (lWord1_lt o)
theorem scanx (rop : BitVec 3) (excl : Bool) (t : BitVec 3) (o : LOps) : Statement (.scanx rop excl t o) :=
  two (by have := bool_lt excl; have := lWord0_le o; omega) (lWord1_lt o)
theorem ballot (o : LOps) : Statement (.ballot o) := two (by have := lWord0_le o; omega) (lWord1_lt o)
theorem vote (vk : BitVec 2) (o : LOps) : Statement (.vote vk o) := two (by have := lWord0_le o; omega) (lWord1_lt o)
theorem matchx (w64 : Bool) (o : LOps) : Statement (.matchx w64 o) := two (by have := bool_lt w64; have := lWord0_le o; omega) (lWord1_lt o)
theorem elect (o : LOps) : Statement (.elect o) := two (by have := lWord0_le o; omega) (lWord1_lt o)
theorem plop (d : BitVec 6) (pc : BitVec 4) (pb : BitVec 4) (pa : BitVec 4) (table : BitVec 8) : Statement (.plop d pc pb pa table) :=
  two (by omega) (by omega)
theorem uaddLong (g : BitVec 5) (d : BitVec 6) (a : BitVec 7) (b : BitVec 7) : Statement (.uaddLong g d a b) := two (by omega) (by omega)
theorem usubLong (g : BitVec 5) (d : BitVec 6) (a : BitVec 7) (b : BitVec 7) : Statement (.usubLong g d a b) := two (by omega) (by omega)
theorem umul (g : BitVec 5) (d : BitVec 6) (a : BitVec 7) (b : BitVec 7) : Statement (.umul g d a b) := two (by omega) (by omega)
theorem uandLong (g : BitVec 5) (d : BitVec 6) (a : BitVec 7) (b : BitVec 7) : Statement (.uandLong g d a b) := two (by omega) (by omega)
theorem uor (g : BitVec 5) (d : BitVec 6) (a : BitVec 7) (b : BitVec 7) : Statement (.uor g d a b) := two (by omega) (by omega)
theorem uxor (g : BitVec 5) (d : BitVec 6) (a : BitVec 7) (b : BitVec 7) : Statement (.uxor g d a b) := two (by omega) (by omega)
theorem ushl (g : BitVec 5) (d : BitVec 6) (a : BitVec 7) (b : BitVec 7) : Statement (.ushl g d a b) := two (by omega) (by omega)
theorem ushr (sx : Bool) (g : BitVec 5) (d : BitVec 6) (a : BitVec 7) (b : BitVec 7) : Statement (.ushr sx g d a b) :=
  two (by have := bool_lt sx; omega) (by omega)
theorem umovLong (g : BitVec 5) (d : BitVec 6) (a : BitVec 7) : Statement (.umovLong g d a) := two (by omega) (by decide)
theorem uaddImm (g : BitVec 5) (d : BitVec 6) (a : BitVec 7) (imm : BitVec 32) : Statement (.uaddImm g d a imm) := two (by omega) (by omega)
theorem usubImm (g : BitVec 5) (d : BitVec 6) (a : BitVec 7) (imm : BitVec 32) : Statement (.usubImm g d a imm) := two (by omega) (by omega)
theorem umulImm (g : BitVec 5) (d : BitVec 6) (a : BitVec 7) (imm : BitVec 32) : Statement (.umulImm g d a imm) := two (by omega) (by omega)
theorem uandImm (g : BitVec 5) (d : BitVec 6) (a : BitVec 7) (imm : BitVec 32) : Statement (.uandImm g d a imm) := two (by omega) (by omega)
theorem uorImm (g : BitVec 5) (d : BitVec 6) (a : BitVec 7) (imm : BitVec 32) : Statement (.uorImm g d a imm) := two (by omega) (by omega)
theorem uxorImm (g : BitVec 5) (d : BitVec 6) (a : BitVec 7) (imm : BitVec 32) : Statement (.uxorImm g d a imm) := two (by omega) (by omega)
theorem ushlImm (g : BitVec 5) (d : BitVec 6) (a : BitVec 7) (imm : BitVec 32) : Statement (.ushlImm g d a imm) := two (by omega) (by omega)
theorem ushrImm (sx : Bool) (g : BitVec 5) (d : BitVec 6) (a : BitVec 7) (imm : BitVec 32) : Statement (.ushrImm sx g d a imm) :=
  two (by have := bool_lt sx; omega) (by omega)
theorem umovImm (g : BitVec 5) (d : BitVec 6) (imm : BitVec 32) : Statement (.umovImm g d imm) := two (by omega) (by omega)
theorem umovi (g : BitVec 5) (d : BitVec 6) (imm : BitVec 32) : Statement (.umovi g d imm) := two (by omega) (by omega)
theorem ucmp (cmp : BitVec 3) (t : BitVec 2) (g : BitVec 5) (d : BitVec 6) (a : BitVec 7) (b : BitVec 7) : Statement (.ucmp cmp t g d a b) :=
  two (by omega) (by omega)
theorem usel (w64 : Bool) (pneg : Bool) (pr : BitVec 4) (g : BitVec 5) (d : BitVec 6) (a : BitVec 7) (b : BitVec 7) : Statement (.usel w64 pneg pr g d a b) :=
  two (by have := bool_lt w64; have := bool_lt pneg; omega) (by omega)
theorem uadd64 (g : BitVec 5) (d : BitVec 6) (a : BitVec 7) (b : BitVec 7) : Statement (.uadd64 g d a b) := two (by omega) (by omega)
theorem ulane (first : Bool) (w64 : Bool) (g : BitVec 5) (d : BitVec 6) (a : BitVec 7) (b : BitVec 7) : Statement (.ulane first w64 g d a b) :=
  two (by have := bool_lt first; have := bool_lt w64; omega) (by omega)
theorem ldLong (t : BitVec 3) (uni : Bool) (m : MLOps) : Statement (.ldLong t uni m) :=
  two (by have := bool_lt uni; have := mlWord0_le m; omega) (mlWord1_lt m)
theorem stLong (t : BitVec 3) (uni : Bool) (m : MLOps) : Statement (.stLong t uni m) :=
  two (by have := bool_lt uni; have := mlWord0_le m; omega) (mlWord1_lt m)
theorem ldsLong (t : BitVec 3) (uni : Bool) (m : MLOps) : Statement (.ldsLong t uni m) :=
  two (by have := bool_lt uni; have := mlWord0_le m; omega) (mlWord1_lt m)
theorem stsLong (t : BitVec 3) (uni : Bool) (m : MLOps) : Statement (.stsLong t uni m) :=
  two (by have := bool_lt uni; have := mlWord0_le m; omega) (mlWord1_lt m)
theorem ldcLong (t : BitVec 3) (uni : Bool) (m : MLOps) : Statement (.ldcLong t uni m) :=
  two (by have := bool_lt uni; have := mlWord0_le m; omega) (mlWord1_lt m)
theorem ldt (g : BitVec 5) (d : BitVec 6) (coord : BitVec 7) (desc : BitVec 7) (t : BitVec 3) (order : BitVec 3) (scope : BitVec 3) (cache : BitVec 2) (nt : Bool) (clip : Bool) : Statement (.ldt g d coord desc t order scope cache nt clip) :=
  two (by omega) (by have := bool_lt nt; have := bool_lt clip; omega)
theorem stt (g : BitVec 5) (d : BitVec 6) (coord : BitVec 7) (desc : BitVec 7) (t : BitVec 3) (order : BitVec 3) (scope : BitVec 3) (cache : BitVec 2) (nt : Bool) (clip : Bool) : Statement (.stt g d coord desc t order scope cache nt clip) :=
  two (by omega) (by have := bool_lt nt; have := bool_lt clip; omega)
theorem pref (lvl : BitVec 2) (g : BitVec 5) (b : BitVec 7) (offset : BitVec 21) : Statement (.pref lvl g b offset) :=
  two (by omega) (by omega)
theorem atom (aop : BitVec 4) (t : BitVec 3) (m : MLOps) : Statement (.atom aop t m) := two (by have := mlWord0_le m; omega) (mlWord1_lt m)
theorem red (aop : BitVec 4) (t : BitVec 3) (m : MLOps) : Statement (.red aop t m) := two (by have := mlWord0_le m; omega) (mlWord1_lt m)
theorem atoms (aop : BitVec 4) (t : BitVec 3) (m : MLOps) : Statement (.atoms aop t m) :=
  two (by have := mlWord0_le m; omega) (mlWord1_lt m)
theorem atom2Dcas (g : BitVec 5) (d : BitVec 6) (b1 : BitVec 7) (b2 : BitVec 7) (w64 : Bool) (order : BitVec 3) (scope : BitVec 3) : Statement (.atom2Dcas g d b1 b2 w64 order scope) :=
  two (by omega) (by have := bool_lt w64; omega)
theorem atom2Amov (g : BitVec 5) (d : BitVec 6) (b1 : BitVec 7) (b2 : BitVec 7) (w64 : Bool) (order : BitVec 3) (scope : BitVec 3) : Statement (.atom2Amov g d b1 b2 w64 order scope) :=
  two (by omega) (by have := bool_lt w64; omega)
theorem stm (g : BitVec 5) (d : BitVec 6) (b : BitVec 7) (mask : BitVec 7) (t : BitVec 3) (mdie : Bool) (order : BitVec 3) (scope : BitVec 3) (bar : Bool) (bars : BitVec 7) : Statement (.stm g d b mask t mdie order scope bar bars) :=
  two (by omega) (by have := bool_lt mdie; have := bool_lt bar; omega)
theorem stf (g : BitVec 5) (d : BitVec 6) (b : BitVec 7) (flag : BitVec 7) (t : BitVec 3) (order : BitVec 3) (scope : BitVec 3) : Statement (.stf g d b flag t order scope) :=
  two (by omega) (by omega)
theorem sbind (slot : BitVec 3) (gaddr : BitVec 7) (soff : BitVec 7) (len : BitVec 7) : Statement (.sbind slot gaddr soff len) :=
  two (by omega) (by omega)
theorem sunbind (slot : BitVec 3) : Statement (.sunbind slot) := two (by omega) (by decide)
theorem sflush (slot : BitVec 3) : Statement (.sflush slot) := two (by omega) (by decide)
theorem mma (tile : BitVec 3) (areg : BitVec 6) (sreg : BitVec 6) (fmt : BitVec 4) (r : Bool) (ns : Bool) (h : BitVec 2) (bs : BitVec 7) : Statement (.mma tile areg sreg fmt r ns h bs) :=
  two (by omega) (by have := bool_lt r; have := bool_lt ns; omega)
theorem mmaLong (tile : BitVec 3) (aq : BitVec 2) (sq : BitVec 2) (fmt : BitVec 4) (ns : Bool) (h : BitVec 2) (nt : BitVec 2) (bs : BitVec 7) (bstr : BitVec 7) (ks : BitVec 7) : Statement (.mmaLong tile aq sq fmt ns h nt bs bstr ks) :=
  two (by omega) (by have := bool_lt ns; omega)
theorem accld (tile : BitVec 3) (t : BitVec 3) (addr : BitVec 7) (str : BitVec 7) : Statement (.accld tile t addr str) :=
  two (by omega) (by decide)
theorem accst (tile : BitVec 3) (t : BitVec 3) (addr : BitVec 7) (str : BitVec 7) (rm : BitVec 3) : Statement (.accst tile t addr str rm) :=
  two (by omega) (by omega)
theorem accepi (tile : BitVec 3) (t : BitVec 3) (addr : BitVec 7) (str : BitVec 7) (rm : BitVec 3) (act : BitVec 2) (alpha : BitVec 7) (bias : BitVec 7) (biason : Bool) : Statement (.accepi tile t addr str rm act alpha bias biason) :=
  two (by omega) (by have := bool_lt biason; omega)
theorem accepiSend (tile : BitVec 3) (t : BitVec 3) (rm : BitVec 3) (act : BitVec 2) (rte : BitVec 2) (alpha : BitVec 7) (bias : BitVec 7) (biason : Bool) : Statement (.accepiSend tile t rm act rte alpha bias biason) :=
  two (by omega) (by have := bool_lt biason; omega)
theorem mxsave (addr : BitVec 7) : Statement (.mxsave addr) := two (by omega) (by decide)
theorem mxres (addr : BitVec 7) : Statement (.mxres addr) := two (by omega) (by decide)
theorem hadt (tile : BitVec 3) (src : BitVec 3) (n : BitVec 2) (dir : Bool) : Statement (.hadt tile src n dir) :=
  two (by have := bool_lt dir; omega) (by decide)
theorem qblk (tile : BitVec 3) (fmt : BitVec 3) (rm : BitVec 3) (tr : Bool) (s : BitVec 7) : Statement (.qblk tile fmt rm tr s) :=
  two (by have := bool_lt tr; omega) (by decide)
theorem dqblk (tile : BitVec 3) (fmt : BitVec 3) (tr : Bool) (s : BitVec 7) : Statement (.dqblk tile fmt tr s) :=
  two (by have := bool_lt tr; omega) (by decide)
theorem feed (prog : BitVec 7) (args : BitVec 7) (na : BitVec 3) (qmask : BitVec 4) : Statement (.feed prog args na qmask) :=
  two (by omega) (by omega)
theorem cpy (dsta : BitVec 7) (srca : BitVec 7) (shape : BitVec 7) (str : BitVec 7) (bar : BitVec 7) (baron : Bool) (rel : Bool) (res : Bool) (tw : BitVec 3) : Statement (.cpy dsta srca shape str bar baron rel res tw) :=
  two (by omega) (by have := bool_lt baron; have := bool_lt rel; have := bool_lt res; omega)
theorem cpytLoad (desc : BitVec 7) (coord : BitVec 7) (buf : BitVec 7) (ext : BitVec 7) (bar : BitVec 7) (baron : Bool) (rel : Bool) (res : Bool) (tr : Bool) (clip : Bool) : Statement (.cpytLoad desc coord buf ext bar baron rel res tr clip) :=
  two (by omega) (by have := bool_lt baron; have := bool_lt rel; have := bool_lt res; have := bool_lt tr; have := bool_lt clip; omega)
theorem cpytStore (desc : BitVec 7) (coord : BitVec 7) (buf : BitVec 7) (ext : BitVec 7) (bar : BitVec 7) (baron : Bool) (rel : Bool) (res : Bool) (tr : Bool) (clip : Bool) : Statement (.cpytStore desc coord buf ext bar baron rel res tr clip) :=
  two (by omega) (by have := bool_lt baron; have := bool_lt rel; have := bool_lt res; have := bool_lt tr; have := bool_lt clip; omega)
theorem qput (d : BitVec 6) (q : BitVec 7) (pkt : BitVec 7) (blk : Bool) : Statement (.qput d q pkt blk) :=
  two (by omega) (by have := bool_lt blk; omega)
theorem binit (b : BitVec 7) (count : BitVec 7) (quota : BitVec 7) : Statement (.binit b count quota) := two (by omega) (by omega)
theorem texs (g : BitVec 5) (d : BitVec 6) (coord : BitVec 7) (tex : BitVec 7) (key : BitVec 7) (ctr : BitVec 7) : Statement (.texs g d coord tex key ctr) :=
  two (by omega) (by omega)
theorem texf (g : BitVec 5) (d : BitVec 6) (coord : BitVec 7) (tex : BitVec 7) : Statement (.texf g d coord tex) :=
  two (by omega) (by decide)
theorem texq (g : BitVec 5) (d : BitVec 6) (coord : BitVec 7) (tex : BitVec 7) : Statement (.texq g d coord tex) :=
  two (by omega) (by decide)
theorem rtbox (g : BitVec 5) (d : BitVec 6) (ray : BitVec 7) (addr : BitVec 7) : Statement (.rtbox g d ray addr) :=
  two (by omega) (by decide)
theorem rttri (g : BitVec 5) (d : BitVec 6) (ray : BitVec 7) (addr : BitVec 7) (minf : Bool) (cull : BitVec 2) : Statement (.rttri g d ray addr minf cull) :=
  two (by omega) (by have := bool_lt minf; omega)
theorem sopen (g : BitVec 5) (slot : BitVec 2) (v : BitVec 7) : Statement (.sopen g slot v) := two (by omega) (by decide)
theorem sopenReplay (g : BitVec 5) (slot : BitVec 2) (v : BitVec 7) : Statement (.sopenReplay g slot v) := two (by omega) (by decide)
theorem sopenFetch (g : BitVec 5) (slot : BitVec 2) (d : BitVec 7) : Statement (.sopenFetch g slot d) := two (by omega) (by decide)
theorem semit (g : BitVec 5) (slot : BitVec 2) (cnt : BitVec 3) (p : BitVec 7) (route : BitVec 7) (rel : Bool) : Statement (.semit g slot cnt p route rel) :=
  two (by omega) (by have := bool_lt rel; omega)
theorem diagrd (d : BitVec 6) (row : BitVec 7) (arr : BitVec 4) (word : BitVec 5) : Statement (.diagrd d row arr word) :=
  two (by omega) (by omega)
theorem diagwr (row : BitVec 7) (src : BitVec 7) (arr : BitVec 4) (word : BitVec 5) : Statement (.diagwr row src arr word) :=
  two (by omega) (by omega)
theorem fld (q : BitVec 2) (t : BitVec 3) (n : BitVec 3) (m : BitVec 3) (gsh : BitVec 3) (off : BitVec 14) : Statement (.fld q t n m gsh off) :=
  one (by omega)
theorem flds (q : BitVec 2) (t : BitVec 3) (n : BitVec 3) (off : BitVec 14) : Statement (.flds q t n off) := one (by omega)
theorem floop (count : BitVec 24) : Statement (.floop count) := one (by omega)
theorem floopReg (n : BitVec 3) : Statement (.floopReg n) := one (by omega)
theorem fstep (n : BitVec 3) (imm : BitVec 21) : Statement (.fstep n imm) := one (by omega)
theorem fstepReg (n : BitVec 3) (m : BitVec 3) : Statement (.fstepReg n m) := one (by omega)
theorem fend : Statement (.fend) := one (by decide)
theorem fsync : Statement (.fsync) := one (by decide)
theorem clauseDispatch : Statement (.clauseDispatch) := none_
theorem rotationStart (core : Nat) (part : Nat) (access : Bool) : Statement (.rotationStart core part access) := none_
theorem sfuResult (g : Nat) : Statement (.sfuResult g) := none_
theorem groupWaitMet (g : Nat) : Statement (.groupWaitMet g) := none_
theorem translationComplete (g : Nat) : Statement (.translationComplete g) := none_
theorem faultQueueRetry (f : Nat) : Statement (.faultQueueRetry f) := none_
theorem faultResponse (f : Nat) : Statement (.faultResponse f) := none_
theorem operationRetire (g : Nat) (c : BitVec 3) : Statement (.operationRetire g c) := none_
theorem writeAcknowledge (g : Nat) (op : Nat) : Statement (.writeAcknowledge g op) := none_
theorem wcbTimeout (g : Nat) (line : Nat) : Statement (.wcbTimeout g line) := none_
theorem l1LeaseExpiry (core : Nat) (line : Nat) : Statement (.l1LeaseExpiry core line) := none_
theorem bindFirstTouch (team : Nat) (slot : Nat) (line : Nat) : Statement (.bindFirstTouch team slot line) := none_
theorem bindRecall (line : Nat) : Statement (.bindRecall line) := none_
theorem txAbort (g : Nat) (cause : BitVec 8) : Statement (.txAbort g cause) := none_
theorem orderedCommitPhase (grid : Nat) : Statement (.orderedCommitPhase grid) := none_
theorem orderedRoundStart (grid : Nat) : Statement (.orderedRoundStart grid) := none_
theorem matrixCheckEnd (team : Nat) (quartet : Nat) : Statement (.matrixCheckEnd team quartet) := none_
theorem mmaPassEnd (team : Nat) (quartet : Nat) (spareOk : Bool) : Statement (.mmaPassEnd team quartet spareOk) := none_
theorem mmaFeedTake (team : Nat) (quartet : Nat) : Statement (.mmaFeedTake team quartet) := none_
theorem fennelServe (g : Nat) : Statement (.fennelServe g) := none_
theorem feedLoadReturn (g : Nat) (queue : Nat) : Statement (.feedLoadReturn g queue) := none_
theorem copyProbeEnd (g : Nat) : Statement (.copyProbeEnd g) := none_
theorem copyErrorStop (g : Nat) (copy : Nat) (cause : BitVec 8) : Statement (.copyErrorStop g copy cause) := none_
theorem barrierPendLower (g : Nat) (copy : Nat) (bytes : Nat) : Statement (.barrierPendLower g copy bytes) := none_
theorem stfFlagUpdate (g : Nat) (op : Nat) : Statement (.stfFlagUpdate g op) := none_
theorem sendFlagUpdate (send : Nat) : Statement (.sendFlagUpdate send) := none_
theorem waitaWake (g : Nat) : Statement (.waitaWake g) := none_
theorem waitaDeadline (g : Nat) : Statement (.waitaDeadline g) := none_
theorem qputBlockRetry (g : Nat) : Statement (.qputBlockRetry g) := none_
theorem teamPlace (grid : Nat) (core : Nat) : Statement (.teamPlace grid core) := none_
theorem gridComplete (grid : Nat) : Statement (.gridComplete grid) := none_
theorem contextErrorStop (ctx : Nat) : Statement (.contextErrorStop ctx) := none_
theorem preemptRequest (ctx : Nat) : Statement (.preemptRequest ctx) := none_
theorem preemptSave (ctx : Nat) : Statement (.preemptSave ctx) := none_
theorem restore (ctx : Nat) : Statement (.restore ctx) := none_
theorem nopad (queue : Nat) : Statement (.nopad queue) := none_
theorem launch (queue : Nat) : Statement (.launch queue) := none_
theorem copy (queue : Nat) : Statement (.copy queue) := none_
theorem waitmem (queue : Nat) : Statement (.waitmem queue) := none_
theorem signal (queue : Nat) : Statement (.signal queue) := none_
theorem bind (queue : Nat) : Statement (.bind queue) := none_
theorem ckpt (queue : Nat) : Statement (.ckpt queue) := none_
theorem jctlExport (queue : Nat) : Statement (.jctlExport queue) := none_
theorem jctlRestart (queue : Nat) : Statement (.jctlRestart queue) := none_
theorem jctlForget (queue : Nat) : Statement (.jctlForget queue) := none_
theorem tdset (queue : Nat) : Statement (.tdset queue) := none_
theorem tlbinv (queue : Nat) : Statement (.tlbinv queue) := none_
theorem packetComplete (pkt : Nat) : Statement (.packetComplete pkt) := none_
theorem nameCacheMiss (tray : Nat) (name : BitVec 6) : Statement (.nameCacheMiss tray name) := none_
theorem mscWriteback (line : Nat) : Statement (.mscWriteback line) := none_
theorem rinseDrain (block : Nat) : Statement (.rinseDrain block) := none_
theorem patrolScrub (line : Nat) (corrected : Bool) : Statement (.patrolScrub line corrected) := none_
theorem flitCrcReplay (site : Nat) (edge : Nat) (module : Nat) (failed : Bool) : Statement (.flitCrcReplay site edge module failed) := none_
theorem oscillatorLockLoss (site : Nat) (osc : Nat) : Statement (.oscillatorLockLoss site osc) := none_
theorem heartbeatSend (site : Nat) : Statement (.heartbeatSend site) := none_
theorem siteLostTimeout (site : Nat) : Statement (.siteLostTimeout site) := none_
theorem siteLostDeclared (site : Nat) : Statement (.siteLostDeclared site) := none_
theorem fabricRequestArrive (panel : Nat) (asid : Nat) (fa : Nat) (seq : Nat) (kind : BitVec 8) (data : List (BitVec 8)) : Statement (.fabricRequestArrive panel asid fa seq kind data) := none_
theorem fabricAck (req : Nat) (rtt : Nat) (data : List (BitVec 8)) (refused : Bool) : Statement (.fabricAck req rtt data refused) := none_
theorem fabricTimeout (req : Nat) : Statement (.fabricTimeout req) := none_
theorem rotorMatching : Statement (.rotorMatching) := none_
theorem hostAccess (kind : BitVec 3) (off : Nat) (data : List (BitVec 8)) : Statement (.hostAccess kind off data) := none_
theorem hostWritePerform (req : Nat) : Statement (.hostWritePerform req) := none_
theorem birspArrive (line : Nat) (dirty : List (BitVec 8)) : Statement (.birspArrive line dirty) := none_
theorem tier2Timeout (g : Nat) (op : Nat) : Statement (.tier2Timeout g op) := none_
theorem collectiveContribution (contrib : Nat) (site : Nat) (retried : Bool) (agrees : Bool) : Statement (.collectiveContribution contrib site retried agrees) := none_
theorem chunkResultAck (chunk : Nat) : Statement (.chunkResultAck chunk) := none_
theorem rasterPacketArrive (em : Nat) : Statement (.rasterPacketArrive em) := none_
theorem rasterWatermarkArrive (wm : Nat) : Statement (.rasterWatermarkArrive wm) := none_
theorem rasterisePacket (sink : Nat) : Statement (.rasterisePacket sink) := none_
theorem frameComplete (sink : Nat) : Statement (.frameComplete sink) := none_
theorem contactLogRecordArrive (site : Nat) (rec : Nat) : Statement (.contactLogRecordArrive site rec) := none_
theorem journalRecordAck (site : Nat) (rec : Nat) : Statement (.journalRecordAck site rec) := none_
theorem sinkEmissionArrive (em : Nat) : Statement (.sinkEmissionArrive em) := none_
theorem ringSinkDeliver (em : Nat) : Statement (.ringSinkDeliver em) := none_
theorem forcedRecordFetch (g : Nat) (slot : Nat) (lane : Nat) : Statement (.forcedRecordFetch g slot lane) := none_
theorem partnerLost (site : Nat) : Statement (.partnerLost site) := none_
theorem partnerResendDone (site : Nat) : Statement (.partnerResendDone site) := none_
theorem powerOn : Statement (.powerOn) := none_
theorem safelightCandidateWrite (isMap : Bool) (bytes : List (BitVec 8)) : Statement (.safelightCandidateWrite isMap bytes) := none_
theorem spdmNegotiateAlgorithms (port : Nat) (asym : List (BitVec 32)) (hash : List (BitVec 32)) : Statement (.spdmNegotiateAlgorithms port asym hash) := none_
theorem spdmGetMeasurements (port : Nat) (index : Nat) : Statement (.spdmGetMeasurements port index) := none_
theorem waitmemMonitorWake (pkt : Nat) : Statement (.waitmemMonitorWake pkt) := none_
theorem powerLoss : Statement (.powerLoss) := none_
theorem hostPortTraining (port : Nat) (up : Bool) : Statement (.hostPortTraining port up) := none_

end Sys2Proof.Laws.Words
end

