-- ==== Sys2Proof/Laws/Shapes.lean ====
section
/-!
SUPPORT. Once for each shared shape of instruction, everything it does: the vector shapes, those that write a whole predicate, and the
uniform shapes.
-/
namespace Sys2Proof.Machine

/-! ### Masks and lanes -/

theorem mem_lanesOf {w : Nat} {m : Word64} {l : Nat} : l ∈ lanesOf w m ↔ l < w ∧ m.getLsbD l = true := by simp [lanesOf]

theorem lt_of_mem_lanesOf {w : Nat} {m : Word64} {l : Nat} (h : l ∈ lanesOf w m) : l < 64 := by
  have := (mem_lanesOf.1 h).2
  by_contra c
  rw [BitVec.getLsbD_of_ge m l (by omega)] at this
  exact absurd this (by simp)

theorem cellGet_foldl_lanes (r : Nat) (f : Nat → Word) (k : Nat) : ∀ (ls : List Nat) (c : Cells 32), (∀ l ∈ ls, l < 64) →
    cellGet (ls.foldl (fun c l => cellSet c (laneCell r l) (f l)) c) k =
      if k / 64 = r ∧ k % 64 ∈ ls then f (k % 64) else cellGet c k
  | [], c, _ => by simp
  | l :: ls, c, h => by
    have hl : l < 64 := h l (by simp)
    rw [List.foldl_cons, cellGet_foldl_lanes r f k ls _ fun x hx => h x (by simp [hx])]
    simp only [cellGet_cellSet, laneCell, List.mem_cons]
    by_cases h1 : k / 64 = r
    · by_cases h2 : k % 64 ∈ ls
      · simp [h1, h2]
      · by_cases h3 : k % 64 = l
        · have : 64 * r + l = k := by omega
          simp [h1, h3, this]
        · have : 64 * r + l ≠ k := by omega
          simp [h2, h3, this]
    · have : 64 * r + l ≠ k := by omega
      simp [h1, this]

theorem cellGet_setLanes (c : Cells 32) (r w : Nat) (m : Word64) (f : Nat → Word) (k : Nat) :
    cellGet (setLanes c r w m f) k = if k / 64 = r ∧ k % 64 < w ∧ m.getLsbD (k % 64) then f (k % 64) else cellGet c k := by
  rw [setLanes, cellGet_foldl_lanes r f k _ c fun l => lt_of_mem_lanesOf]
  simp only [mem_lanesOf]

theorem getLsbD_onesBelow (w l : Nat) (h : l < 64) : (onesBelow w).getLsbD l = decide (l < w) := by
  rw [onesBelow, BitVec.getLsbD_ofNat]; simp [h, Nat.testBit_two_pow_sub_one]

theorem getLsbD_clip (g : Group) (m : Word64) (l : Nat) : (clip g m).getLsbD l = (m.getLsbD l && decide (l < g.width)) := by
  by_cases h : l < 64
  · simp [clip, getLsbD_onesBelow _ _ h]
  · simp [clip, BitVec.getLsbD_of_ge m l (by omega)]

theorem testBit_foldl_mask (f : Nat → Bool) (l : Nat) : ∀ w,
    ((List.range w).foldl (fun a l => if f l then a + 2 ^ l else a) 0).testBit l = (decide (l < w) && f l) ∧
      (List.range w).foldl (fun a l => if f l then a + 2 ^ l else a) 0 < 2 ^ w
  | 0 => by simp
  | w + 1 => by
    obtain ⟨h1, h2⟩ := testBit_foldl_mask f l w
    rw [List.range_succ, List.foldl_append]
    simp only [List.foldl_cons, List.foldl_nil]
    by_cases hw : f w
    · simp only [hw, if_true]
      constructor
      · by_cases e : l = w
        · subst e
          rw [Nat.add_comm, Nat.testBit_two_pow_add_eq, Nat.testBit_lt_two_pow h2]; simp [hw]
        · rcases Nat.lt_or_gt_of_ne e with c | c
          · rw [Nat.add_comm, Nat.testBit_two_pow_add_gt c, h1]; simp [c, Nat.lt_succ_of_lt c]
          · rw [Nat.testBit_lt_two_pow (lt_of_lt_of_le (by omega : _ < 2 ^ (w + 1)) (Nat.pow_le_pow_right (by omega) c))]
            simp [show ¬ l < w + 1 by omega]
      · rw [pow_succ]; omega
    · simp only [hw]
      constructor
      · simp only [Bool.false_eq_true, if_false, h1]
        by_cases e : l = w
        · subst e; simp [hw]
        · by_cases c : l < w
          · simp [c, Nat.lt_succ_of_lt c]
          · simp [c, show ¬ l < w + 1 by omega]
      · rw [pow_succ]; simp; omega

theorem getLsbD_maskOf (w : Nat) (f : Nat → Bool) (l : Nat) (h : l < 64) : (maskOf w f).getLsbD l = (decide (l < w) && f l) := by
  rw [maskOf, BitVec.getLsbD_ofNat, (testBit_foldl_mask f l w).1]; simp [h]

/-! ### Queues -/

theorem tblGet_filterMap_lanes (f : Nat → Word) (k : Nat) : ∀ (ls : List Nat),
    tblGet (ls.filterMap fun l => if f l = 0 then none else some (l, f l)) k =
      if k ∈ ls ∧ f k ≠ 0 then some (f k) else none
  | [] => by simp
  | l :: ls => by
    have ih := tblGet_filterMap_lanes f k ls
    by_cases h0 : f l = 0
    · rw [List.filterMap_cons_none (by simp [h0]), ih]
      by_cases e : k = l
      · subst e; simp [h0]
      · simp [e]
    · have h0' : ¬ f l = 0#32 := h0
      rw [List.filterMap_cons_some (b := (l, f l)) (by simp [h0'])]
      simp only [tblGet]
      by_cases e : l = k
      · subst e; simp [h0']
      · rw [if_neg e, ih]; simp [Ne.symm e]

theorem tblGet_append {α : Type} (a b : Table α) (k : Nat) :
    tblGet (a ++ b) k = match tblGet a k with | some x => some x | none => tblGet b k := by
  induction a with
  | nil => rfl
  | cons e a ih =>
    obtain ⟨j, x⟩ := e
    simp only [List.cons_append, tblGet]
    split_ifs with h <;> simp [ih]

theorem tblGet_shift (k : Nat) (hk : k < 1024) : ∀ (q : Cells 32),
    tblGet (q.filterMap fun e => if e.1 + 64 < 1024 then some (e.1 + 64, e.2) else none) k =
      if 64 ≤ k then tblGet q (k - 64) else none
  | [] => by simp
  | (j, x) :: q => by
    have ih := tblGet_shift k hk q
    by_cases h : j + 64 < 1024
    · rw [List.filterMap_cons_some (b := (j + 64, x)) (by simp [h])]
      simp only [tblGet, ih]
      by_cases e : j + 64 = k
      · simp [← e]
      · rw [if_neg e]
        split_ifs with h1 h2 <;> first | rfl | omega
    · rw [List.filterMap_cons_none (by simp [h]), ih]
      simp only [tblGet]
      split_ifs with h1 h2 <;> first | rfl | omega

theorem cellGet_pushed (q : Cells 32) (w : Nat) (f : Nat → Word) (i l : Nat) (hi : i < 16) (hl : l < 64) :
    cellGet (pushed q w f) (laneCell i l) = if i = 0 then (if l < w then f l else 0) else cellGet q (laneCell (i - 1) l) := by
  simp only [cellGet, pushed, tblGet_append, tblGet_filterMap_lanes]
  rw [tblGet_shift _ (by simp only [laneCell]; omega)]
  by_cases h0 : i = 0
  · subst h0
    have hlc : laneCell 0 l = l := by simp [laneCell]
    rw [hlc]
    by_cases hw : l < w
    · by_cases hf : f l = 0
      · simp [hf, show ¬ 64 ≤ l by omega]
      · have hf' : ¬ f l = 0#32 := hf
        simp [hf', hw, hl]
    · simp [hw, show ¬ 64 ≤ l by omega]
  · have h1 : ¬ laneCell i l < 64 := by simp only [laneCell]; omega
    have h2 : laneCell i l - 64 = laneCell (i - 1) l := by simp only [laneCell]; omega
    have h3 : 64 ≤ laneCell i l := by omega
    simp [h0, h1, h2, h3]

theorem queueTakes_push (g : Group) (f : Nat → Word) : QueueTakes g (push g f) f := by
  unfold QueueTakes push readQ
  by_cases h : g.handler
  · simp only [h, if_true, and_true]
    exact fun i l hi hl => cellGet_pushed _ _ _ _ _ hi hl
  · simp only [h, Bool.false_eq_true, if_false, and_true]
    exact fun i l hi hl => cellGet_pushed _ _ _ _ _ hi hl

/-- What a push leaves of the group. -/
theorem push_frame (g : Group) (f : Nat → Word) : push g f = { g with q := (push g f).q, hq := (push g f).hq } := by
  unfold push; split_ifs <;> rfl

@[simp] theorem push_v (g : Group) (f : Nat → Word) : (push g f).v = g.v := by rw [push_frame]
@[simp] theorem push_p (g : Group) (f : Nat → Word) : (push g f).p = g.p := by rw [push_frame]
@[simp] theorem push_contested (g : Group) (f : Nat → Word) : (push g f).contested = g.contested := by rw [push_frame]

theorem queueTakesTwo_push (g : Group) (a b : Nat → Word) : QueueTakesTwo g (push (push g a) b) a b := by
  have h1 := queueTakes_push g a
  have h2 := queueTakes_push (push g a) b
  have hw : (push g a).width = g.width := by rw [push_frame]
  have hh : (push g a).handler = g.handler := by rw [push_frame]
  refine ⟨fun i l hi hl => ?_, ?_⟩
  · rw [h2.1 i l hi hl, hw]
    split_ifs with e1 e2 e3 <;> try rfl
    · rw [h1.1 _ l (by omega) hl]; simp [*]
    · rw [h1.1 _ l (by omega) hl]; simp [*]
    · rw [h1.1 _ l (by omega) hl, if_neg (by omega)]; rfl
  · have a2 := h2.2; have a1 := h1.2
    rw [hh] at a2
    split_ifs at a1 a2 ⊢ with e <;> simp_all

/-! ### Destinations -/

theorem predicateTakes_writePLanes (g : Group) (p : Nat) (m : Word64) (f : Nat → Bool) :
    PredicateTakes g (writePLanes g p m f) m p f := by
  refine ⟨fun l hl => ?_, fun j hj => ?_⟩
  · simp only [writePLanes, writeP, cellGet_cellSet, if_true, getLsbD_clip, BitVec.getLsbD_or, BitVec.getLsbD_and, BitVec.getLsbD_not,
      getLsbD_maskOf _ _ _ hl, hl, decide_true, Bool.true_and]
    by_cases h : l < g.width <;> cases m.getLsbD l <;> simp [h]
  · simp [writePLanes, writeP, Ne.symm hj]

theorem writePLanes_frame (g : Group) (p : Nat) (m : Word64) (f : Nat → Bool) :
    writePLanes g p m f = { g with p := (writePLanes g p m f).p } := rfl

theorem predicateTakes_writeP (g : Group) (p : Nat) (m : Word64) (f : Nat → Bool) (h : ∀ l, l < 64 → m.getLsbD l = f l) :
    PredicateTakes g (writeP g p m) (BitVec.allOnes 64) p f := by
  refine ⟨fun l hl => ?_, fun j hj => ?_⟩
  · simp only [writeP, cellGet_cellSet, if_true, getLsbD_clip, h l hl]
    have e : (BitVec.allOnes 64).getLsbD l = true := by rw [BitVec.getLsbD_allOnes]; simp [hl]
    rw [e, Bool.and_comm]; rfl
  · simp [writeP, Ne.symm hj]

theorem lanesTake_writeV (g : Group) (m : Word64) (r : Nat) (f : Nat → Word) : LanesTake g (writeV g r m f) m r f := by
  intro k; exact cellGet_setLanes _ _ _ _ _ _

/-- What a 32-bit destination takes. -/
theorem destTakes_write32 (g : Group) (m : Word64) (d : BitVec 6) (r : Nat → Word) : DestTakes g (write32 d m r g) m d r := by
  unfold DestTakes write32
  by_cases h1 : d.toNat < 48
  · simp only [h1, if_true]
    have hv : ∀ f, (push (writeV g d.toNat m r) f).v = (writeV g d.toNat m r).v := fun f => by rw [push_frame]
    refine ⟨?_, by rw [push_frame]; rfl, ?_⟩
    · intro k; rw [hv]; exact lanesTake_writeV g m _ r k
    · rw [hv]; exact queueTakes_push (writeV g d.toNat m r) _
  · by_cases h2 : d.toNat < 60
    · simp only [h1, h2, if_true, if_false]
      exact ⟨predicateTakes_writePLanes _ _ _ _, rfl, rfl, rfl, rfl⟩
    · by_cases h3 : d.toNat = 60
      · rw [if_neg h1, if_neg h2, if_pos h3]
        simp only [if_neg h1, if_neg h2, if_pos h3]
        exact ⟨queueTakes_push _ _, by simp, by simp, by simp⟩
      · simp [h1, h2, h3]

theorem write32_frame (g : Group) (m : Word64) (d : BitVec 6) (r : Nat → Word) :
    write32 d m r g = { g with
      v := (write32 d m r g).v, p := (write32 d m r g).p, q := (write32 d m r g).q, hq := (write32 d m r g).hq
      contested := (write32 d m r g).contested } := by
  have hp : ∀ (g : Group) f, push g f = { g with q := (push g f).q, hq := (push g f).hq } := push_frame
  unfold write32
  by_cases h1 : d.toNat < 48
  · simp only [if_pos h1]; rw [hp]; rfl
  · by_cases h2 : d.toNat < 60
    · simp only [if_neg h1, if_pos h2]; rfl
    · by_cases h3 : d.toNat = 60
      · simp only [if_neg h1, if_neg h2, if_pos h3]; rw [hp]
      · simp only [if_neg h1, if_neg h2, if_neg h3]

theorem lo32_eq (x : Word64) : lo32 x = x.extractLsb' 0 32 := by
  simp only [lo32]; ext i hi; simp

theorem hi32_eq (x : Word64) : hi32 x = x.extractLsb' 32 32 := by
  simp only [hi32]; ext i hi; simp

/-- What a 64-bit destination takes. -/
theorem destTakes64_write64 (g : Group) (m : Word64) (d : BitVec 6) (r : Nat → Word64) : DestTakes64 g (write64 d m r g) m d r := by
  unfold DestTakes64 write64
  by_cases h1 : d.toNat < 48
  · simp only [h1, if_true]
    set g1 := writeV (writeV g d.toNat m fun l => lo32 (r l)) (d.toNat + 1) m fun l => hi32 (r l) with hg1
    have hv : ∀ a b, (push (push g1 a) b).v = g1.v := fun a b => by rw [push_frame, push_frame]
    refine ⟨by rw [push_frame, push_frame]; rfl, ?_, ?_⟩
    · intro k
      rw [hv, lanesTake_writeV (writeV g d.toNat m fun l => lo32 (r l)) m (d.toNat + 1) (fun l => hi32 (r l)) k,
        lanesTake_writeV g m d.toNat (fun l => lo32 (r l)) k]
      simp only [lo32_eq, hi32_eq]; rfl
    · rw [hv]; exact queueTakesTwo_push g1 _ _
  · by_cases h3 : d.toNat = 60
    · simp only [if_neg h1, if_pos h3, lo32_eq, hi32_eq]
      exact ⟨by simp, queueTakesTwo_push _ _ _, by simp, by simp⟩
    · simp [h1, h3]

theorem write64_frame (g : Group) (m : Word64) (d : BitVec 6) (r : Nat → Word64) :
    write64 d m r g = { g with
      v := (write64 d m r g).v, q := (write64 d m r g).q, hq := (write64 d m r g).hq, contested := (write64 d m r g).contested } := by
  have hp : ∀ (g : Group) a b, push (push g a) b = { g with q := (push (push g a) b).q, hq := (push (push g a) b).hq } := by
    intro g a b
    rw [push_frame (push g a), push_frame g]
  unfold write64
  by_cases h1 : d.toNat < 48
  · simp only [if_pos h1]; rw [hp]; rfl
  · by_cases h3 : d.toNat = 60
    · simp only [if_neg h1, if_pos h3]; rw [hp]
    · simp only [if_neg h1, if_neg h3]

/-! ### The place and the feed queues -/

theorem popAll_frame (cs : List SrcCode) (g : Group) : popAll cs g = { g with feed := (popAll cs g).feed } := by
  have : ∀ (ls : List Nat) (g : Group), ls.foldl (fun g q => if popsOf cs q = 0 then g else popFeed g q (popsOf cs q)) g =
      { g with feed := (ls.foldl (fun g q => if popsOf cs q = 0 then g else popFeed g q (popsOf cs q)) g).feed } := by
    intro ls
    induction ls with
    | nil => intro g; rfl
    | cons q ls ih =>
      intro g
      rw [List.foldl_cons, ih]
      split_ifs <;> rfl
  exact this _ g

/-- What the pops do to the feed depends on the feed alone. -/
theorem popAll_feed (cs : List SrcCode) {g h : Group} (e : g.feed = h.feed) : (popAll cs g).feed = (popAll cs h).feed := by
  have : ∀ (ls : List Nat) (g h : Group), g.feed = h.feed →
      (ls.foldl (fun g q => if popsOf cs q = 0 then g else popFeed g q (popsOf cs q)) g).feed =
        (ls.foldl (fun g q => if popsOf cs q = 0 then g else popFeed g q (popsOf cs q)) h).feed := by
    intro ls
    induction ls with
    | nil => intro g h e; exact e
    | cons q ls ih =>
      intro g h e
      rw [List.foldl_cons, List.foldl_cons]
      apply ih
      split_ifs
      · exact e
      · simp [popFeed, e]
  exact this _ g h e

theorem feedQueue_popFeed (g : Group) (i n j : Nat) :
    feedQueue (popFeed g i n) j = if i = j then (feedQueue g j).drop n else feedQueue g j := by
  unfold feedQueue popFeed
  cases hf : g.feed with
  | none => simp
  | some f =>
    simp only [Option.map_some, Option.getD_some, List.getD_eq_getElem?_getD, List.getElem?_set]
    split_ifs with h1 h2
    · subst h1; simp
    · subst h1
      rw [List.getElem?_eq_none (by omega)]; simp
    · rfl

/-- Every queue loses the entries that the source fields pop (R29). -/
theorem feedQueue_popAll (cs : List SrcCode) (g : Group) (q : Nat) (hq : q < 4) :
    feedQueue (popAll cs g) q = (feedQueue g q).drop (popsOf cs q) := by
  have hs : ∀ (g : Group) (j : Nat), feedQueue (if popsOf cs j = 0 then g else popFeed g j (popsOf cs j)) q =
      if j = q then (feedQueue g q).drop (popsOf cs q) else feedQueue g q := by
    intro g j
    split_ifs with h1 h2 h2
    · subst h2; simp [h1]
    · rfl
    · subst h2; rw [feedQueue_popFeed]; simp
    · rw [feedQueue_popFeed, if_neg h2]
  have : List.range 4 = [0, 1, 2, 3] := rfl
  simp only [popAll, this, List.foldl_cons, List.foldl_nil, hs]
  interval_cases q <;> simp

theorem advance_frame (n : Nat) (g : Group) : advance n g = { g with
    pc := (advance n g).pc, hdr := (advance n g).hdr, idx := (advance n g).idx, entered := (advance n g).entered
    clauses := (advance n g).clauses, captured := none } := by
  unfold advance
  split_ifs <;> rfl

theorem atNext_advance (n : Nat) {g h : Group} (h1 : h.pc = g.pc) (h2 : h.hdr = g.hdr) (h3 : h.idx = g.idx) (h4 : h.entered = g.entered)
    (h5 : h.clauses = g.clauses) : AtNext n g (advance n h) := by
  unfold AtNext advance
  simp only [clauseCount, nextHeader, wordAddr, goto, h1, h2, h3, h5]
  split_ifs <;> simp [*]

/-! ### Instructions whose sources are ready -/

theorem withFeeds_of_ready {s : State} {g : Group} {cs : List SrcCode} (h : FeedsReady s g cs) (k : State) : withFeeds s g cs k = k := by
  unfold withFeeds
  rw [h.1, h.2]; rfl

theorem vectorDone_of (s : State) (g : Group) (words : Nat) (gd : BitVec 5) (d : BitVec 6) (srcs : List SrcCode) (r : Nat → Word)
    (fl : Nat → Fp.Flags) :
    VectorDone s (s.putGroup s.cur (advance words (popAll srcs
      (orFlags (laneFlags g.width (active g gd) fl) (write32 d (active g gd) r g))))) g words gd d srcs r fl := by
  set m := active g gd
  set g1 := write32 d m r g with e1
  set g2 := orFlags (laneFlags g.width m fl) g1 with e2
  set g3 := popAll srcs g2 with e3
  have f1 := write32_frame g m d r
  rw [← e1] at f1
  have f2 : g2 = { g1 with fpflags := g2.fpflags } := rfl
  have f3 : g3 = { g2 with feed := g3.feed } := popAll_frame _ _
  have f4 := advance_frame words g3
  have D := destTakes_write32 g m d r
  rw [← e1] at D
  refine ⟨advance words g3, rfl, ?_, ?_, ?_, ?_, ?_⟩
  · unfold VectorFrame
    rw [f4, f3, f2, f1]
  · have a : (advance words g3).v = g1.v ∧ (advance words g3).p = g1.p ∧ (advance words g3).q = g1.q ∧ (advance words g3).hq = g1.hq ∧
        (advance words g3).contested = g1.contested ∧ (advance words g3).handler = g1.handler := by
      rw [f4, f3, f2]; exact ⟨rfl, rfl, rfl, rfl, rfl, rfl⟩
    unfold DestTakes LanesTake QueueTakes PredicateTakes readQ at *
    rw [a.1, a.2.1, a.2.2.1, a.2.2.2.1, a.2.2.2.2.1, a.2.2.2.2.2]
    exact D
  · rw [f4, f3]; rw [e2, orFlags, f1]
  · rw [f4]
    exact popAll_feed srcs (by rw [f2, f1])
  · exact atNext_advance words (by rw [f3, f2, f1]) (by rw [f3, f2, f1]) (by rw [f3, f2, f1]) (by rw [f3, f2, f1]) (by rw [f3, f2, f1])

/-- Everything a 32-bit vector instruction does where its sources are ready. -/
theorem vec32_done {s : State} {g : Group} (hs : Selected s g) (words : Nat) (gd : BitVec 5) (d : BitVec 6) {srcs : List SrcCode}
    (hf : FeedsReady s g srcs) (f : Group → Nat → Word × Fp.Flags) :
    ∃ t, vec32 s words gd d srcs f = .next t ∧ VectorDone s t g words gd d srcs (fun l => (f g l).1) fun l => (f g l).2 := by
  refine ⟨_, ?_, vectorDone_of s g words gd d srcs _ _⟩
  unfold vec32
  rw [onGroup_of_some hs, withFeeds_of_ready hf]

theorem vecSfu_done {s : State} {g : Group} (hs : Selected s g) (words : Nat) (gd : BitVec 5) (d : BitVec 6) {srcs : List SrcCode}
    (hf : FeedsReady s g srcs) (f : Group → Nat → Word × Fp.Flags) :
    ∃ t, vecSfu s words gd d srcs f = .next t ∧ SfuDone s t g words gd d srcs (fun l => (f g l).1) fun l => (f g l).2 := by
  have h := vectorDone_of s g words gd d srcs (fun l => (f g l).1) fun l => (f g l).2
  generalize hx : advance words (popAll srcs (orFlags (laneFlags g.width (active g gd) fun l => (f g l).2)
    (write32 d (active g gd) (fun l => (f g l).1) g))) = x at h
  refine ⟨(s.putGroup s.cur x).putGroup s.cur { x with sfuUntil := sfuReady s g }, ?_, _, x, h, by simp, rfl, fun m e => by simp [sfuReady, e]⟩
  unfold vecSfu
  rw [onGroup_of_some hs, withFeeds_of_ready hf, State.putGroup_putGroup, hx]

theorem laneFlags_zero (w : Nat) (m : Word64) : laneFlags w m (fun _ => 0) = 0 := by
  unfold laneFlags
  generalize lanesOf w m = ls
  induction ls with
  | nil => rfl
  | cons l ls ih => simp

/-- A 32-bit vector instruction that raises no flags. -/
theorem plain_done {s : State} {g : Group} (hs : Selected s g) (words : Nat) (gd : BitVec 5) (d : BitVec 6) {srcs : List SrcCode}
    (hf : FeedsReady s g srcs) (f : Group → Nat → Word) :
    ∃ t, vec32 s words gd d srcs (fun g l => plain (f g l)) = .next t ∧ PlainDone s t g words gd d srcs (f g) := by
  obtain ⟨t, h, g', h1, h2, h3, h4, h5, h6⟩ := vec32_done hs words gd d hf fun g l => plain (f g l)
  refine ⟨t, h, g', h1, h2, h3, ?_, h5, h6⟩
  rw [h4, show (fun l => (plain (f g l)).2) = fun _ => 0 from rfl, laneFlags_zero]; simp

/-- Everything a 64-bit vector instruction does where its sources are ready. -/
theorem vec64_done {s : State} {g : Group} (hs : Selected s g) (words : Nat) (gd : BitVec 5) (d : BitVec 6) {srcs : List SrcCode}
    (hf : FeedsReady s g srcs) (f : Group → Nat → Word64) :
    ∃ t, vec64 s words gd d srcs f = .next t ∧ WideDone s t g words gd d srcs (f g) := by
  refine ⟨s.putGroup s.cur (advance words (popAll srcs (write64 d (active g gd) (f g) g))), ?_, ?_⟩
  · unfold vec64
    rw [onGroup_of_some hs, withFeeds_of_ready hf]
  set m := active g gd
  set g1 := write64 d m (f g) g with e1
  set g3 := popAll srcs g1 with e3
  have f1 := write64_frame g m d (f g)
  rw [← e1] at f1
  have f3 : g3 = { g1 with feed := g3.feed } := popAll_frame _ _
  have f4 := advance_frame words g3
  have D := destTakes64_write64 g m d (f g)
  rw [← e1] at D
  refine ⟨advance words g3, rfl, ?_, ?_, ?_, ?_, ?_⟩
  · unfold VectorFrame
    rw [f4, f3, f1]
  · have a : (advance words g3).v = g1.v ∧ (advance words g3).p = g1.p ∧ (advance words g3).q = g1.q ∧ (advance words g3).hq = g1.hq ∧
        (advance words g3).contested = g1.contested ∧ (advance words g3).handler = g1.handler := by
      rw [f4, f3]; exact ⟨rfl, rfl, rfl, rfl, rfl, rfl⟩
    unfold DestTakes64 QueueTakesTwo readQ at *
    rw [a.1, a.2.1, a.2.2.1, a.2.2.2.1, a.2.2.2.2.1, a.2.2.2.2.2]
    exact D
  · rw [f4, f3, f1]
  · rw [f4]
    exact popAll_feed srcs (by rw [f1])
  · exact atNext_advance words (by rw [f3, f1]) (by rw [f3, f1]) (by rw [f3, f1]) (by rw [f3, f1]) (by rw [f3, f1])

/-- Everything an instruction that writes a whole predicate does where its sources are ready. -/
theorem wholeMask_done {s : State} {g : Group} (hs : Selected s g) (d : BitVec 6) {srcs : List SrcCode} (hf : FeedsReady s g srcs)
    (f : Group → Word64) (b : Nat → Bool) (hb : ∀ l, l < 64 → (f g).getLsbD l = b l) :
    ∃ t, wholeMask s d srcs f = .next t ∧ MaskDone s t g 2 d srcs b := by
  refine ⟨s.putGroup s.cur (advance 2 (popAll srcs (writeP g (d.toNat - 48) (f g)))), ?_, ?_⟩
  · unfold wholeMask
    rw [onGroup_of_some hs, withFeeds_of_ready hf]
  set g1 := writeP g (d.toNat - 48) (f g) with e1
  set g3 := popAll srcs g1 with e3
  have f1 : g1 = { g with p := g1.p } := rfl
  have f3 : g3 = { g1 with feed := g3.feed } := popAll_frame _ _
  have f4 := advance_frame 2 g3
  have D := predicateTakes_writeP g (d.toNat - 48) (f g) b hb
  rw [← e1] at D
  refine ⟨advance 2 g3, rfl, ?_, ?_, ?_, ?_, ?_, ?_, ?_, ?_, ?_⟩
  · unfold VectorFrame; rw [f4, f3, f1]
  · have a : (advance 2 g3).p = g1.p := by rw [f4, f3]
    unfold PredicateTakes at *
    rw [a]; exact D
  · rw [f4, f3, f1]
  · rw [f4, f3, f1]
  · rw [f4, f3, f1]
  · rw [f4, f3, f1]
  · rw [f4, f3, f1]
  · rw [f4]; exact popAll_feed srcs (by rw [f1])
  · exact atNext_advance 2 (by rw [f3, f1]) (by rw [f3, f1]) (by rw [f3, f1]) (by rw [f3, f1]) (by rw [f3, f1])

/-! ### Uniform shapes -/

theorem uniformTakes_writeS (g : Group) (r : Nat) (x : Word) :
    UniformTakes g (writeS g r x) fun k => if k = r then some x else none := by
  unfold UniformTakes writeS
  by_cases h : g.handler = true <;> by_cases h2 : r < 8
  all_goals
    refine ⟨fun k => ?_, fun k => ?_⟩ <;> by_cases h3 : r = k
    all_goals simp [h, h2, h3, Ne.symm]
    all_goals try (subst h3; simp [h2])

theorem writeS_frame (g : Group) (r : Nat) (x : Word) : writeS g r x = { g with
    s := (writeS g r x).s, k := (writeS g r x).k, contested := (writeS g r x).contested } := by
  unfold writeS
  split_ifs <;> rfl


theorem uniformTakes_writeS64 (g : Group) (r : Nat) (x : Word64) :
    UniformTakes g (writeS64 g r x)
      fun k => if k = r + 1 then some (x.extractLsb' 32 32) else if k = r then some (x.extractLsb' 0 32) else none := by
  have h1 := uniformTakes_writeS g r (lo32 x)
  have h2 := uniformTakes_writeS (writeS g r (lo32 x)) (r + 1) (hi32 x)
  have hh : (writeS g r (lo32 x)).handler = g.handler := by rw [writeS_frame]
  unfold UniformTakes at *
  rw [hh] at h2
  rw [← lo32_eq, ← hi32_eq]
  refine ⟨fun k => ?_, fun k => ?_⟩
  · rw [writeS64, h2.1 k, h1.1 k]; dsimp only; split_ifs <;> rfl
  · rw [writeS64, h2.2 k, h1.2 k]; dsimp only; split_ifs <;> rfl

theorem writeS64_frame (g : Group) (r : Nat) (x : Word64) : writeS64 g r x = { g with
    s := (writeS64 g r x).s, k := (writeS64 g r x).k, contested := (writeS64 g r x).contested } := by
  unfold writeS64
  rw [writeS_frame (writeS g r (lo32 x)), writeS_frame g]

/-- A group that has written uniform registers and gone on. -/
theorem uniform_parts {g g1 : Group} (words : Nat) {x : Nat → Option Word}
    (hf : g1 = { g with s := g1.s, k := g1.k, contested := g1.contested }) (hx : UniformTakes g g1 x) :
    UniformFrame g (advance words g1) ∧ UniformTakes g (advance words g1) x ∧ AtNext words g (advance words g1) := by
  have f4 := advance_frame words g1
  refine ⟨?_, ?_, ?_⟩
  · unfold UniformFrame; rw [f4, hf]
  · unfold UniformTakes at *
    have a : (advance words g1).s = g1.s ∧ (advance words g1).k = g1.k := by rw [f4]; exact ⟨rfl, rfl⟩
    rw [a.1, a.2]; exact hx
  · exact atNext_advance words (by rw [hf]) (by rw [hf]) (by rw [hf]) (by rw [hf]) (by rw [hf])

theorem tblGet_map_group (t : Table Group) (f : Nat × Group → Nat × Group) (hf : ∀ e, (f e).1 = e.1) (j : Nat) :
    tblGet (t.map f) j = (tblGet t j).map fun x => (f (j, x)).2 := by
  induction t with
  | nil => rfl
  | cons e t ih =>
    obtain ⟨i, x⟩ := e
    have h := hf (i, x)
    cases h2 : f (i, x) with
    | mk a b =>
      rw [h2] at h
      simp only [List.map_cons, h2, tblGet] at h ⊢
      subst h
      split_ifs with c
      · subst c; simp [h2]
      · exact ih

/-- Everything a write of an h register by an instruction does, and the instruction goes on. -/
theorem sharedWritten_writeH {s : State} {g : Group} (hs : Selected s g) (words r : Nat) (x : Word) :
    SharedWritten s ((writeH s s.cur r x).upGroup s.cur (advance words)) g s.cur words r x := by
  have hs' : tblGet s.groups s.cur = some g := hs
  set mark := fun e : Nat × Group =>
    if e.2.team = g.team then (e.1, { e.2 with contested := e.2.contested ++ contestedBy e.2 [.h r] }) else e with hm
  have hg : ∀ n, tblGet (s.groups.map mark) n = (tblGet s.groups n).map fun e =>
      if e.team = g.team then { e with contested := e.contested ++ contestedBy e [.h r] } else e := by
    intro n
    rw [tblGet_map_group]
    · congr 1
      funext e
      simp only [hm]
      split_ifs <;> rfl
    · intro e
      simp only [hm]
      split_ifs <;> rfl
  have hgc : tblGet (s.groups.map mark) s.cur = some { g with contested := g.contested ++ contestedBy g [.h r] } := by
    rw [hg, hs']; simp
  set g1 : Group := { g with contested := g.contested ++ contestedBy g [.h r] } with hg1
  have hk : hKey (hDue s g false) r = 16 * (if fromCompute g false then s.clock + 1 else s.clock) + r % 16 := rfl
  have hw : writeH s s.cur r x = { s with groups := s.groups.map mark }.upTeam g.team fun t =>
      { t with hNew := tblSet t.hNew (hKey (hDue s g false) r) (hJoin (tblGet t.hNew (hKey (hDue s g false) r)) s.cur (hRank g false) x) } := by
    unfold writeH writeHAs
    rw [hs']
    simp only
    rw [hgc]
    rfl
  refine ⟨?_, ?_, ?_, ?_, ?_⟩
  · rw [hw]; rfl
  · intro k hk'
    rw [hw]
    simp [State.upGroup, State.upTeam, tblGet_tblUp, Ne.symm hk']
  · intro m e
    rw [hw]
    simp only [State.upGroup, State.upTeam, tblGet_tblUp, if_true, e, Option.map_some]
    refine ⟨_, hJoin (tblGet m.hNew (hKey (hDue s g false) r)) s.cur (hRank g false) x, rfl, rfl, ?_, ?_, ?_⟩
    · rw [← hk]; simp
    · intro k hk'
      rw [← hk] at hk'
      simp [Ne.symm hk']
    · rw [← hk]
      cases tblGet m.hNew (hKey (hDue s g false) r) <;> rfl
  · rw [hw]
    simp only [State.upGroup, State.upTeam, tblGet_tblUp, if_true, hgc, Option.map_some]
    rfl
  · intro k hk'
    rw [hw]
    simp only [State.upGroup, State.upTeam, tblGet_tblUp, if_neg (Ne.symm hk'), hg]

/-- Everything a uniform instruction with a 32-bit result does. -/
theorem uni32_done {s : State} {g : Group} (hs : Selected s g) (words : Nat) (d : BitVec 6) (f : Group → Word) :
    ∃ t, uni32 s words d f = .next t ∧ UniformDone s t g words d (f g) := by
  refine ⟨(writeU s s.cur d.toNat (f g)).upGroup s.cur (advance words), ?_, ?_⟩
  · unfold uni32
    rw [onGroup_of_some hs]
  unfold UniformDone writeU
  by_cases hd : d.toNat < 32
  · simp only [if_pos hd]
    refine ⟨advance words (writeS g d.toNat (f g)), ?_, ?_⟩
    · rw [State.upGroup_of_some hs, State.upGroup_putGroup]
    · exact uniform_parts words (writeS_frame _ _ _) (uniformTakes_writeS _ _ _)
  · simp only [if_neg hd]
    exact sharedWritten_writeH hs words _ _

/-- Everything a uniform instruction with a 64-bit result does. -/
theorem uni64_done {s : State} {g : Group} (hs : Selected s g) (words : Nat) (d : BitVec 6) (f : Group → Word64) :
    ∃ t, uni64 s words d f = .next t ∧ UniformDone64 s t g words d (f g) := by
  refine ⟨s.putGroup s.cur (advance words (writeS64 g d.toNat (f g))), ?_, _, rfl, ?_⟩
  · unfold uni64
    rw [onGroup_of_some hs]
  · exact uniform_parts words (writeS64_frame _ _ _) (uniformTakes_writeS64 _ _ _)

end Sys2Proof.Machine
end

