-- ==== Sys2Proof/Tests/Slice0.lean ====
section
/-!
SUPPORT. The model's own tests: ill-formed terms that each check refuses, words written out from the spec's encodings, single steps on
small states, and for each statement the states and operands that meet its hypotheses.
-/
namespace Sys2Proof.Tests.Slice0

open Sys2Proof.Machine

set_option Elab.async false
set_option maxRecDepth 20000

/-! ### Helpers -/

/-- The operands of a long instruction of format L with the guard always and no modifier. -/
def lo (d : BitVec 6) (a b c : BitVec 7) : LOps := ⟨15, d, a, b, c, 0, 0, 0, false, false, false, false, false, false⟩

/-- The operands of a format ML instruction with the guard always, relaxed. -/
def ml (d : BitVec 6) (b : BitVec 7) (off : BitVec 21) : MLOps := ⟨15, d, b, off, 0, 0, 0, false⟩

/-! ### Ill-formed terms (R48, R55 to R66) -/

theorem test_refuses_guard : ¬ (Instr.iadd 13 4 5 6).WellFormed ∧ ¬ (Instr.nop 29).WellFormed ∧ (Instr.iadd 27 4 5 6).WellFormed := by
  decide

theorem test_refuses_pairs :
    ¬ (Instr.ret 65).WellFormed ∧ ¬ (Instr.ret 96).WellFormed ∧ ¬ (Instr.rng 15 4 72 5).WellFormed ∧ ¬ (Instr.sopen 15 0 44).WellFormed ∧
    ¬ (Instr.ld 15 4 5 0).WellFormed ∧ ¬ (Instr.ld 15 4 106 0).WellFormed ∧ (Instr.ret 94).WellFormed := by decide

theorem test_refuses_sources :
    ¬ (Instr.iadd 15 4 120 5).WellFormed ∧ ¬ (Instr.iadd64 (lo 4 5 6 0)).WellFormed ∧ ¬ (Instr.iadd64 (lo 4 111 6 0)).WellFormed ∧
    ¬ (Instr.uadd 15 4 16 64).WellFormed ∧ ¬ (Instr.uadd 15 4 105 64).WellFormed ∧ ¬ (Instr.uadd 15 4 120 64).WellFormed ∧
    ¬ (Instr.accepi 0 0 72 74 0 0 16 0 false).WellFormed ∧ ¬ (Instr.ucmp 0 2 15 4 65 66).WellFormed ∧
    ¬ (Instr.dot8 0 0 false (lo 4 117 5 6)).WellFormed ∧ ¬ (Instr.notLong (lo 4 5 6 0)).WellFormed := by decide

theorem test_refuses_destinations :
    ¬ (Instr.iadd 15 61 4 5).WellFormed ∧ ¬ (Instr.iadd64 (lo 5 4 6 0)).WellFormed ∧ ¬ (Instr.icmp 0 0 (lo 4 5 6 0)).WellFormed ∧
    ¬ (Instr.uadd 15 48 64 65).WellFormed ∧ ¬ (Instr.uadd64 15 32 64 66).WellFormed ∧ ¬ (Instr.exget 47).WellFormed ∧
    ¬ (Instr.matchx false (lo 3 4 0 0)).WellFormed ∧ ¬ (Instr.txbegin 32).WellFormed := by decide

theorem test_refuses_modifiers :
    ¬ (Instr.faddLong 5 (lo 4 5 6 0)).WellFormed ∧
    ¬ (Instr.iaddLong 0 false { lo 4 5 6 0 with negA := true }).WellFormed ∧
    ¬ (Instr.faddLong 0 { lo 4 5 6 0 with negC := true }).WellFormed ∧
    ¬ (Instr.faddLong 0 { lo 4 5 6 0 with larg := 1 }).WellFormed ∧ ¬ (Instr.faddLong 0 { lo 4 64 6 0 with xmode := 1 }).WellFormed ∧
    ¬ (Instr.faddLong 0 { lo 4 5 6 0 with xmode := 5 }).WellFormed ∧ ¬ (Instr.iaddLong 2 false (lo 4 5 6 0)).WellFormed ∧
    ¬ (Instr.icmp 6 0 (lo 48 5 6 0)).WellFormed ∧ ¬ (Instr.sel false false 12 (lo 4 5 6 0)).WellFormed ∧
    ¬ (Instr.fcmp 0 3 (lo 48 5 6 0)).WellFormed ∧ ¬ (Instr.dot4 1 0 true { lo 4 5 6 7 with absB := true }).WellFormed ∧
    ¬ (Instr.xlaneIdx false 3 (lo 4 5 6 0)).WellFormed ∧ ¬ (Instr.redx 3 0 (lo 4 5 0 0)).WellFormed ∧
    ¬ (Instr.vote 3 (lo 48 5 0 0)).WellFormed ∧ ¬ (Instr.plop 48 15 0 0 0).WellFormed := by decide

theorem test_refuses_branches_and_masks :
    ¬ (Instr.br 15 0 true 0).WellFormed ∧ ¬ (Instr.br 12 1 false 0).WellFormed ∧ ¬ (Instr.br 15 4 false 0).WellFormed ∧
    ¬ (Instr.exset 105).WellFormed ∧ ¬ (Instr.pmov 4 64).WellFormed ∧ ¬ (Instr.exsetAnd 4).WellFormed ∧ ¬ (Instr.accz 0).WellFormed ∧
    ¬ (Instr.waitc 0 1 0 0).WellFormed ∧ ¬ (Instr.movsr 15 48 1).WellFormed ∧ ¬ (Instr.movsr 15 5 10).WellFormed ∧
    ¬ (Instr.setrt 0 105).WellFormed := by decide

theorem test_refuses_accesses :
    ¬ (Instr.ldLong 7 false (ml 4 72 0)).WellFormed ∧ ¬ (Instr.stLong 4 false (ml 4 72 0)).WellFormed ∧
    ¬ (Instr.ldLong 2 false (ml 2 72 0)).WellFormed ∧ ¬ (Instr.ldLong 1 false (ml 5 72 0)).WellFormed ∧
    ¬ (Instr.ldLong 0 true (ml 4 6 0)).WellFormed ∧ ¬ (Instr.ldLong 0 false { ml 4 72 0 with scope := 1 }).WellFormed ∧
    ¬ (Instr.ldLong 0 false { ml 4 72 0 with order := 2 }).WellFormed ∧
    ¬ (Instr.ldLong 0 false { ml 4 72 0 with order := 1, nt := true }).WellFormed ∧
    ¬ (Instr.stLong 0 false { ml 4 72 0 with order := 1 }).WellFormed ∧ ¬ (Instr.ldsLong 0 false { ml 4 72 0 with cache := 1 }).WellFormed ∧
    ¬ (Instr.ldcLong 0 false { ml 4 72 0 with order := 1 }).WellFormed ∧ ¬ (Instr.fence 15 0 0 false).WellFormed ∧
    ¬ (Instr.fence 15 1 6 false).WellFormed ∧ ¬ (Instr.pref 3 15 72 0).WellFormed ∧
    ¬ (Instr.ldt 15 4 70 72 5 0 0 0 false false).WellFormed ∧ ¬ (Instr.stt 15 63 70 72 2 0 0 0 false false).WellFormed := by decide

theorem test_refuses_atomics :
    ¬ (Instr.atom 3 0 (ml 4 72 0)).WellFormed ∧ ¬ (Instr.atom 8 3 (ml 4 72 0)).WellFormed ∧ ¬ (Instr.atom 10 1 (ml 4 72 0)).WellFormed ∧
    ¬ (Instr.atom 7 1 (ml 5 72 0)).WellFormed ∧ ¬ (Instr.atom 7 3 (ml 6 72 0)).WellFormed ∧ ¬ (Instr.red 6 1 (ml 4 72 0)).WellFormed ∧
    ¬ (Instr.atoms 0 0 { ml 4 72 0 with order := 4 }).WellFormed ∧ ¬ (Instr.atom2Dcas 15 6 4 6 false 0 0).WellFormed ∧
    ¬ (Instr.atom2Dcas 15 4 4 6 true 0 0).WellFormed ∧ ¬ (Instr.atom2Amov 15 5 4 6 true 0 0).WellFormed ∧
    ¬ (Instr.stm 15 4 72 74 3 false 0 0 false 0).WellFormed ∧ ¬ (Instr.stm 15 4 72 74 0 true 0 0 true 76).WellFormed ∧
    ¬ (Instr.stf 15 4 72 74 0 1 0).WellFormed ∧ ¬ (Instr.sbind 0 73 74 75).WellFormed := by decide

theorem test_refuses_engines :
    ¬ (Instr.mma 0 0 48 0 false false 0 0).WellFormed ∧ ¬ (Instr.mma 0 0 0 8 false false 0 0).WellFormed ∧
    ¬ (Instr.mma 0 0 0 6 false true 0 0).WellFormed ∧ ¬ (Instr.mmaLong 1 0 1 0 false 0 1 72 73 74).WellFormed ∧
    ¬ (Instr.mmaLong 0 1 1 0 false 0 0 72 73 74).WellFormed ∧ ¬ (Instr.accld 0 3 72 74).WellFormed ∧
    ¬ (Instr.accst 0 0 72 74 5).WellFormed ∧ ¬ (Instr.hadt 0 0 0 false).WellFormed ∧ ¬ (Instr.qblk 0 5 0 false 72).WellFormed ∧
    ¬ (Instr.feed 72 104 1 1).WellFormed ∧ ¬ (Instr.feed 72 94 1 1).WellFormed ∧ ¬ (Instr.feed 72 74 1 0).WellFormed ∧
    ¬ (Instr.cpy 72 74 76 78 80 false false false 0).WellFormed ∧ ¬ (Instr.cpy 72 74 76 78 0 false false false 5).WellFormed ∧
    ¬ (Instr.cpytLoad 72 4 76 78 0 false false false false false).WellFormed ∧ ¬ (Instr.qput 5 72 74 false).WellFormed ∧
    ¬ (Instr.binit 16 72 74).WellFormed ∧ ¬ (Instr.waita 4 72 92).WellFormed := by decide

theorem test_refuses_graphics_and_system :
    ¬ (Instr.texs 15 6 0 72 74 4).WellFormed ∧ ¬ (Instr.texf 15 4 45 72).WellFormed ∧ ¬ (Instr.rtbox 15 44 0 72).WellFormed ∧
    ¬ (Instr.rttri 15 44 0 72 false 3).WellFormed ∧ ¬ (Instr.semit 15 0 7 41 72 false).WellFormed ∧
    ¬ (Instr.sopenFetch 15 0 48).WellFormed ∧ ¬ (Instr.csrr 4 3).WellFormed ∧ ¬ (Instr.csrr 5 0).WellFormed ∧
    ¬ (Instr.csrw 4 0).WellFormed ∧ ¬ (Instr.diagrd 32 72 0 0).WellFormed ∧ ¬ (Instr.diagrd 4 72 3 0).WellFormed ∧
    ¬ (Instr.diagwr 72 4 2 1).WellFormed ∧ ¬ (Instr.fld 0 7 0 0 0 0).WellFormed ∧ ¬ (Instr.fld 0 0 0 0 7 0).WellFormed ∧
    ¬ (Instr.floop 0).WellFormed := by decide

/-! ### Words written out from the encodings, each read as the instruction that it stands for -/

theorem test_decode_short_vector_1 :
    decodeWords 0x00F5236E 0x00000000 = .ok (.iadd 15 20 70 110) ∧
    decodeWords 0x03B7060C 0x00000000 = .ok (.isub 27 28 12 12) ∧
    decodeWords 0x05B3216E 0x00000000 = .ok (.imul 27 12 66 110) ∧
    decodeWords 0x07B13898 0x00000000 = .ok (.imin 27 4 113 24) ∧
    decodeWords 0x08F70A4A 0x00000000 = .ok (.imax 15 28 20 74) ∧
    decodeWords 0x0B2138C2 0x00000000 = .ok (.and 18 4 113 66) ∧
    decodeWords 0x0C5B2702 0x00000000 = .ok (.or 5 44 78 2) ∧
    decodeWords 0x0FBA0046 0x00000000 = .ok (.xor 27 40 0 70) ∧
    decodeWords 0x11272142 0x00000000 = .ok (.andn 18 28 66 66) ∧
    decodeWords 0x12523540 0x00000000 = .ok (.shl 5 8 106 64) := by decide +kernel

theorem test_decode_short_vector_2 :
    decodeWords 0x14FA2C6A 0x00000000 = .ok (.shr 15 40 88 106) ∧
    decodeWords 0x17B30104 0x00000000 = .ok (.sar 27 12 2 4) ∧
    decodeWords 0x19233700 0x00000000 = .ok (.mov 18 12 110) ∧
    decodeWords 0x1AFB0C00 0x00000000 = .ok (.iabs 15 44 24) ∧
    decodeWords 0x1B230301 0x00000000 = .ok (.not 18 12 6) ∧
    decodeWords 0x1A350C02 0x00000000 = .ok (.popc 3 20 24) ∧
    decodeWords 0x1A5B3883 0x00000000 = .ok (.clz 5 44 113) ∧
    decodeWords 0x1AF32704 0x00000000 = .ok (.brev 15 12 78) ∧
    decodeWords 0x1C520C0C 0x00000000 = .ok (.fadd 5 8 24 12) ∧
    decodeWords 0x1FB23700 0x00000000 = .ok (.fsub 27 8 110 0) := by decide +kernel

theorem test_decode_short_vector_3 :
    decodeWords 0x20FCB758 0x00000000 = .ok (.fmul 15 50 110 88) ∧
    decodeWords 0x22FCA200 0x00000000 = .ok (.fmin 15 50 68 0) ∧
    decodeWords 0x24550A40 0x00000000 = .ok (.fmax 5 20 20 64) ∧
    decodeWords 0x27213400 0x00000000 = .ok (.frcp 18 4 104) ∧
    decodeWords 0x26552701 0x00000000 = .ok (.frsq 5 20 78) ∧
    decodeWords 0x265CA402 0x00000000 = .ok (.fsqrt 5 50 72) ∧
    decodeWords 0x263A3403 0x00000000 = .ok (.fexp2 3 40 104) ∧
    decodeWords 0x26FA2404 0x00000000 = .ok (.flog2 15 40 72) ∧
    decodeWords 0x27232505 0x00000000 = .ok (.fsin 18 12 74) ∧
    decodeWords 0x27B53506 0x00000000 = .ok (.fcos 27 20 106) := by decide +kernel

theorem test_decode_short_vector_4 :
    decodeWords 0x26FA0407 0x00000000 = .ok (.fclass 15 40 8) ∧
    decodeWords 0x28352868 0x00000000 = .ok (.hadd2 3 20 80 104) ∧
    decodeWords 0x2AF70C6A 0x00000000 = .ok (.hmul2 15 28 24 106) := by decide +kernel

theorem test_decode_short_uniform_and_masks_1 :
    decodeWords 0x2DB22750 0x00000000 = .ok (.uadd 27 8 78 80) ∧
    decodeWords 0x2EFB2302 0x00000000 = .ok (.usub 15 44 70 2) ∧
    decodeWords 0x30F50071 0x00000000 = .ok (.uand 15 20 0 113) ∧
    decodeWords 0x33BA3500 0x00000000 = .ok (.umov 27 40 106) ∧
    decodeWords 0x34FFF400 0x00000000 = .ok (.exset 104) ∧
    decodeWords 0x34FC8000 0x00000000 = .ok (.exsetAnd 50) ∧
    decodeWords 0x34FC8080 0x00000000 = .ok (.exsetAndn 50) ∧
    decodeWords 0x34F70001 0x00000000 = .ok (.exget 28) ∧
    decodeWords 0x34FC8002 0x00000000 = .ok (.pmov 50 0) ∧
    decodeWords 0x372B0300 0x00000000 = .ok (.movsr 18 44 6) := by decide +kernel

theorem test_decode_short_uniform_and_masks_2 :
    decodeWords 0x365B0701 0x00000000 = .ok (.movsrClr 5 44) := by decide +kernel

theorem test_decode_control :
    decodeWords 0x3845D702 0x00000000 = .ok (.br 4 2 true 55042) ∧
    decodeWords 0x3A10E92D 0x00000000 = .ok (.call 1 59693) ∧
    decodeWords 0x3C80E5EF 0x00000000 = .ok (.loop 8 58863) ∧
    decodeWords 0x3F200000 0x00000000 = .ok (.nop 18) ∧
    decodeWords 0x3EF02C01 0x00000000 = .ok (.ret 88) ∧
    decodeWords 0x3EF00002 0x00000000 = .ok .exit ∧
    decodeWords 0x3EF02C03 0x00000000 = .ok (.jmpx 88) := by decide +kernel

theorem test_decode_short_memory :
    decodeWords 0x40520149 0x00000000 = .ok (.ld 5 8 2 73) ∧
    decodeWords 0x4233141A 0x00000000 = .ok (.st 3 12 40 26) ∧
    decodeWords 0x44F30404 0x00000000 = .ok (.lds 15 12 8 4) ∧
    decodeWords 0x465A2558 0x00000000 = .ok (.sts 5 40 74 88) ∧
    decodeWords 0x48351411 0x00000000 = .ok (.ldc 3 20 40 17) ∧
    decodeWords 0x4AF2E000 0x00000000 = .ok (.fence 15 1 3 true) ∧
    decodeWords 0x4CF08000 0x00000000 = .ok (.txbegin 8) ∧
    decodeWords 0x4CF40000 0x00000000 = .ok .txend ∧
    decodeWords 0x4CF808D0 0x00000000 = .ok (.txabort 141) := by decide +kernel

theorem test_decode_short_matrix_and_waits :
    decodeWords 0x50FC6000 0x00000000 = .ok (.accz 198) ∧
    decodeWords 0x52F02200 0x00000000 = .ok (.setrt 0 68) ∧
    decodeWords 0x54F00000 0x00000000 = .ok .cmit ∧
    decodeWords 0x56F20360 0x00000000 = .ok (.waitc 1 0 3 24) ∧
    decodeWords 0x58F00000 0x00000000 = .ok .fstop := by decide +kernel

theorem test_decode_barriers :
    decodeWords 0x5AFB2406 0x00000000 = .ok (.barv 44 72 6) ∧
    decodeWords 0x5CF0376A 0x00000000 = .ok (.bexp 110 106) ∧
    decodeWords 0x5EF32200 0x00000000 = .ok (.bwait 12 68 0) ∧
    decodeWords 0x60F40000 0x00000000 = .ok (.bart 1) ∧
    decodeWords 0x62FC0000 0x00000000 = .ok (.barc 3) ∧
    decodeWords 0x64F10000 0x00000000 = .ok (.schnext 4) ∧
    decodeWords 0x66F32144 0x00000000 = .ok (.waita 12 66 68) := by decide +kernel

theorem test_decode_sequences_and_traps :
    decodeWords 0x68FB2170 0x00000000 = .ok (.rngSeq 15 44 66 0) ∧
    decodeWords 0x692B2244 0x00000000 = .ok (.rng 18 44 68 68) ∧
    decodeWords 0x6AF80000 0x00000000 = .ok (.smark 15 2 0) ∧
    decodeWords 0x6CFC0000 0x00000000 = .ok (.sclose 3) ∧
    decodeWords 0x703045A8 0x00000000 = .ok (.trap 3 17832) ∧
    decodeWords 0x72F00000 0x00000000 = .ok .tret ∧
    decodeWords 0x74F0D9FD 0x00000000 = .ok (.bkpt 15 55805) ∧
    decodeWords 0x76F30220 0x00000000 = .ok (.csrr 12 34) ∧
    decodeWords 0x78F84088 0x00000000 = .ok (.csrw 66 17) := by decide +kernel

theorem test_decode_integer_1 :
    decodeWords 0x81212700 0x10000000 = .ok (.iaddLong 0 false ⟨18, 4, 78, 8, 0, 0, 0, 0, false, false, false, false, false, false⟩) ∧
    decodeWords 0x81BA2216 0x00000000 = .ok (.isubLong 1 true ⟨27, 40, 68, 0, 0, 0, 0, 0, false, false, false, false, false, false⟩) ∧
    decodeWords 0x80552520 0x00000000 = .ok (.imulLong 0 false ⟨5, 20, 74, 0, 0, 0, 0, 0, false, false, false, false, false, false⟩) ∧
    decodeWords 0x80530234 0x8C000000 = .ok (.imulh 1 ⟨5, 12, 4, 70, 0, 0, 0, 0, false, false, false, false, false, false⟩) ∧
    decodeWords 0x81B12740 0x84000000 = .ok (.iminLong 0 ⟨27, 4, 78, 66, 0, 0, 0, 0, false, false, false, false, false, false⟩) ∧
    decodeWords 0x81210354 0xE2000000 = .ok (.imaxLong 1 ⟨18, 4, 6, 113, 0, 0, 0, 0, false, false, false, false, false, false⟩) ∧
    decodeWords 0x80372360 0x00000000 = .ok (.iabsLong false ⟨3, 28, 70, 0, 0, 0, 0, 0, false, false, false, false, false, false⟩) ∧
    decodeWords 0x80FA2576 0xE3100000 = .ok (.imad 1 true ⟨15, 40, 74, 113, 68, 0, 0, 0, false, false, false, false, false, false⟩) ∧
    decodeWords 0x825CA100 0xD4000000 = .ok (.andLong ⟨5, 50, 66, 106, 0, 0, 0, 0, false, false, false, false, false, false⟩) ∧
    decodeWords 0x82F50C08 0x00000000 = .ok (.orLong ⟨15, 20, 24, 0, 0, 0, 0, 0, false, false, false, false, false, false⟩) := by decide +kernel

theorem test_decode_integer_2 :
    decodeWords 0x825A2710 0x00000000 = .ok (.xorLong ⟨5, 40, 78, 0, 0, 0, 0, 0, false, false, false, false, false, false⟩) ∧
    decodeWords 0x832C8018 0x88000000 = .ok (.andnLong ⟨18, 50, 0, 68, 0, 0, 0, 0, false, false, false, false, false, false⟩) ∧
    decodeWords 0x823C8C20 0x00000000 = .ok (.notLong ⟨3, 50, 24, 0, 0, 0, 0, 0, false, false, false, false, false, false⟩) ∧
    decodeWords 0x823B2528 0x10000000 = .ok (.shlLong ⟨3, 44, 74, 8, 0, 0, 0, 0, false, false, false, false, false, false⟩) ∧
    decodeWords 0x832A0130 0x0C000000 = .ok (.shrLong ⟨18, 40, 2, 6, 0, 0, 0, 0, false, false, false, false, false, false⟩) ∧
    decodeWords 0x82330138 0x00000000 = .ok (.sarLong ⟨3, 12, 2, 0, 0, 0, 0, 0, false, false, false, false, false, false⟩) ∧
    decodeWords 0x83273740 0x00000000 = .ok (.rot ⟨18, 28, 110, 0, 0, 0, 0, 0, false, false, false, false, false, false⟩) := by decide +kernel

theorem test_decode_bit_fields_and_selects_1 :
    decodeWords 0x85BA0300 0xE2000000 = .ok (.bfe false ⟨27, 40, 6, 113, 0, 0, 0, 0, false, false, false, false, false, false⟩) ∧
    decodeWords 0x845C8010 0x00000000 = .ok (.bfi ⟨5, 50, 0, 0, 0, 0, 0, 0, false, false, false, false, false, false⟩) ∧
    decodeWords 0x843C8020 0x00000000 = .ok (.popcLong ⟨3, 50, 0, 0, 0, 0, 0, 0, false, false, false, false, false, false⟩) ∧
    decodeWords 0x852B0130 0x00000000 = .ok (.clzLong ⟨18, 44, 2, 0, 0, 0, 0, 0, false, false, false, false, false, false⟩) ∧
    decodeWords 0x84310C40 0x00010200 = .ok (.brevLong ⟨3, 4, 24, 0, 0, 2, 1, 0, false, false, false, false, false, false⟩) ∧
    decodeWords 0x86FD7500 0x30000000 = .ok (.icmp 0 0 ⟨15, 53, 106, 24, 0, 0, 0, 0, false, false, false, false, false, false⟩) ∧
    decodeWords 0x88570408 0x10000000 = .ok (.sel false false 8 ⟨5, 28, 8, 8, 0, 0, 0, 0, false, false, false, false, false, false⟩) ∧
    decodeWords 0x8A5D4000 0x569CAC39 = .ok (.movi 5 53 1453108281) ∧
    decodeWords 0x8C522C00 0x00000000 = .ok (.iadd64 ⟨5, 8, 88, 0, 0, 0, 0, 0, false, false, false, false, false, false⟩) ∧
    decodeWords 0x8CF10410 0x00000000 = .ok (.isub64 ⟨15, 4, 8, 0, 0, 0, 0, 0, false, false, false, false, false, false⟩) := by decide +kernel

theorem test_decode_bit_fields_and_selects_2 :
    decodeWords 0x8C552820 0x9C000000 = .ok (.imul64 ⟨5, 20, 80, 78, 0, 0, 0, 0, false, false, false, false, false, false⟩) ∧
    decodeWords 0x8C322530 0x50000000 = .ok (.shl64 ⟨3, 8, 74, 40, 0, 0, 0, 0, false, false, false, false, false, false⟩) ∧
    decodeWords 0x8D252248 0xDC000000 = .ok (.shr64 true ⟨18, 20, 68, 110, 0, 0, 0, 0, false, false, false, false, false, false⟩) := by decide +kernel

theorem test_decode_float_1 :
    decodeWords 0x8EFA0004 0x88000000 = .ok (.faddLong 2 ⟨15, 40, 0, 68, 0, 0, 0, 0, false, false, false, false, false, false⟩) ∧
    decodeWords 0x8E320016 0x04000000 = .ok (.fsubLong 3 ⟨3, 8, 0, 2, 0, 0, 0, 0, false, false, false, false, false, false⟩) ∧
    decodeWords 0x8E5B0024 0x00000000 = .ok (.fmulLong 2 ⟨5, 44, 0, 0, 0, 0, 0, 0, false, false, false, false, false, false⟩) ∧
    decodeWords 0x8E322038 0x00000000 = .ok (.ffma 4 ⟨3, 8, 64, 0, 0, 0, 0, 0, false, false, false, false, false, false⟩) ∧
    decodeWords 0x8E312C40 0xB0000000 = .ok (.fminLong ⟨3, 4, 88, 88, 0, 0, 0, 0, false, false, false, false, false, false⟩) ∧
    decodeWords 0x8FBA38D0 0x00000000 = .ok (.fmaxLong ⟨27, 40, 113, 0, 0, 0, 0, 0, false, false, false, false, false, false⟩) ∧
    decodeWords 0x903C8400 0x8C000000 = .ok (.fcmp 0 0 ⟨3, 50, 8, 70, 0, 0, 0, 0, false, false, false, false, false, false⟩) ∧
    decodeWords 0x92312301 0x00000000 = .ok (.frcpLong 1 ⟨3, 4, 70, 0, 0, 0, 0, 0, false, false, false, false, false, false⟩) ∧
    decodeWords 0x9253140A 0x00000000 = .ok (.frsqLong 2 ⟨5, 12, 40, 0, 0, 0, 0, 0, false, false, false, false, false, false⟩) ∧
    decodeWords 0x92312010 0x00000000 = .ok (.fsqrtLong 0 ⟨3, 4, 64, 0, 0, 0, 0, 0, false, false, false, false, false, false⟩) := by decide +kernel

theorem test_decode_float_2 :
    decodeWords 0x9233241C 0x00000000 = .ok (.fexp2Long 4 ⟨3, 12, 72, 0, 0, 0, 0, 0, false, false, false, false, false, false⟩) ∧
    decodeWords 0x92310424 0x00010200 = .ok (.flog2Long 4 ⟨3, 4, 8, 0, 0, 2, 1, 0, false, false, false, false, false, false⟩) ∧
    decodeWords 0x92FCA729 0x00000000 = .ok (.fsinLong 1 ⟨15, 50, 78, 0, 0, 0, 0, 0, false, false, false, false, false, false⟩) ∧
    decodeWords 0x92FA0334 0x00008500 = .ok (.fcosLong 4 ⟨15, 40, 6, 0, 0, 1, 2, 2, false, false, false, false, false, false⟩) ∧
    decodeWords 0x92510038 0x00000000 = .ok (.frint 0 ⟨5, 4, 0, 0, 0, 0, 0, 0, false, false, false, false, false, false⟩) ∧
    decodeWords 0x92F72C40 0x00000000 = .ok (.fclassLong ⟨15, 28, 88, 0, 0, 0, 0, 0, false, false, false, false, false, false⟩) ∧
    decodeWords 0x94FCA200 0x88000000 = .ok (.fldexp 0 ⟨15, 50, 68, 68, 0, 0, 0, 0, false, false, false, false, false, false⟩) ∧
    decodeWords 0x97BA0008 0x00000000 = .ok (.cvt 1 0 ⟨27, 40, 0, 0, 0, 0, 0, 0, false, false, false, false, false, false⟩) ∧
    decodeWords 0x985B0414 0xE2000000 = .ok (.hadd2Long true 2 ⟨5, 44, 8, 113, 0, 0, 0, 0, false, false, false, false, false, false⟩) ∧
    decodeWords 0x99B71428 0x90000009 = .ok (.hmul2Long false 4 ⟨27, 28, 40, 72, 0, 0, 0, 0, false, false, true, false, false, true⟩) := by decide +kernel

theorem test_decode_float_3 :
    decodeWords 0x983B2250 0x10000032 = .ok (.hfma2 true 0 ⟨3, 44, 68, 8, 0, 0, 0, 0, true, true, false, false, true, false⟩) ∧
    decodeWords 0x9B252306 0x50000000 = .ok (.dot4 0 3 false ⟨18, 20, 70, 40, 0, 0, 0, 0, false, false, false, false, false, false⟩) ∧
    decodeWords 0x9BB72548 0xA0000000 = .ok (.dot8 0 4 false ⟨27, 28, 74, 80, 0, 0, 0, 0, false, false, false, false, false, false⟩) := by decide +kernel

theorem test_decode_cross_lane :
    decodeWords 0x9CFB2410 0x00000000 = .ok (.xlane true ⟨15, 44, 72, 0, 0, 0, 0, 0, false, false, false, false, false, false⟩) ∧
    decodeWords 0x9C350330 0x00000000 = .ok (.xlaneIdx true 0 ⟨3, 20, 6, 0, 0, 0, 0, 0, false, false, false, false, false, false⟩) ∧
    decodeWords 0x9F212802 0x00000000 = .ok (.redx 0 2 ⟨18, 4, 80, 0, 0, 0, 0, 0, false, false, false, false, false, false⟩) ∧
    decodeWords 0xA1B53541 0x00000000 = .ok (.scanx 4 false 1 ⟨27, 20, 106, 0, 0, 0, 0, 0, false, false, false, false, false, false⟩) ∧
    decodeWords 0xA32CA300 0x00000000 = .ok (.ballot ⟨18, 50, 70, 0, 0, 0, 0, 0, false, false, false, false, false, false⟩) ∧
    decodeWords 0xA25CB428 0x00000000 = .ok (.vote 1 ⟨5, 50, 104, 0, 0, 0, 0, 0, false, false, false, false, false, false⟩) ∧
    decodeWords 0xA3B52340 0x00000000 = .ok (.matchx false ⟨27, 20, 70, 0, 0, 0, 0, 0, false, false, false, false, false, false⟩) ∧
    decodeWords 0xA3BD4060 0x00000000 = .ok (.elect ⟨27, 53, 0, 0, 0, 0, 0, 0, false, false, false, false, false, false⟩) ∧
    decodeWords 0xA4FD4000 0x00040846 = .ok (.plop 53 4 0 8 70) := by decide +kernel

theorem test_decode_uniform_1 :
    decodeWords 0xA6F10400 0xA0000000 = .ok (.uaddLong 15 4 8 80) ∧
    decodeWords 0xA6523508 0x8C000000 = .ok (.usubLong 5 8 106 70) ∧
    decodeWords 0xA63B3510 0x94000000 = .ok (.umul 3 44 106 74) ∧
    decodeWords 0xA6F10418 0xA0000000 = .ok (.uandLong 15 4 8 80) ∧
    decodeWords 0xA63B0220 0x94000000 = .ok (.uor 3 44 4 74) ∧
    decodeWords 0xA6520028 0x00000000 = .ok (.uxor 5 8 0 0) ∧
    decodeWords 0xA72A0630 0x18000000 = .ok (.ushl 18 40 12 12) ∧
    decodeWords 0xA6550638 0x80000000 = .ok (.ushr false 5 20 12 64) ∧
    decodeWords 0xA7210340 0x00000000 = .ok (.umovLong 18 4 6) ∧
    decodeWords 0xA8550300 0xE80DB76C = .ok (.uaddImm 5 20 6 3893213036) := by decide +kernel

theorem test_decode_uniform_2 :
    decodeWords 0xA8FB2708 0x5B65AF03 = .ok (.usubImm 15 44 78 1533390595) ∧
    decodeWords 0xA9B32410 0x71189895 = .ok (.umulImm 27 12 72 1897437333) ∧
    decodeWords 0xA8F32218 0x0F13D7A0 = .ok (.uandImm 15 12 68 252958624) ∧
    decodeWords 0xA8510020 0x77CDA64F = .ok (.uorImm 5 4 0 2009966159) ∧
    decodeWords 0xA8F70328 0xA43A53DE = .ok (.uxorImm 15 28 6 2755285982) ∧
    decodeWords 0xA8512730 0x90FC4C34 = .ok (.ushlImm 5 4 78 2432453684) ∧
    decodeWords 0xA8353439 0xA773F794 = .ok (.ushrImm true 3 20 104 2809395092) ∧
    decodeWords 0xA92A0040 0xC68AADBB = .ok (.umovImm 18 40 3330977211) ∧
    decodeWords 0xA9B30048 0x1DA6538E = .ok (.umovi 27 12 497439630) ∧
    decodeWords 0xAA312828 0xD4000000 = .ok (.ucmp 2 2 3 4 80 106) := by decide +kernel

theorem test_decode_uniform_3 :
    decodeWords 0xAC552401 0x04000000 = .ok (.usel false false 1 5 20 72 2) ∧
    decodeWords 0xAFB72800 0x90000000 = .ok (.uadd64 27 28 80 72) ∧
    decodeWords 0xB1B20A02 0x00000000 = .ok (.ulane true false 27 8 20 0) := by decide +kernel

theorem test_decode_memory :
    decodeWords 0xB45A2700 0x55753800 = .ok (.ldLong 0 false ⟨5, 40, 78, 700071, 0, 0, 0, false⟩) ∧
    decodeWords 0xB6310A30 0x9E900800 = .ok (.stLong 3 false ⟨3, 4, 20, 1298945, 0, 0, 0, false⟩) ∧
    decodeWords 0xB8533438 0xE427B000 = .ok (.ldsLong 3 true ⟨5, 12, 104, 1869046, 0, 0, 0, false⟩) ∧
    decodeWords 0xBAFD4010 0xEE7B3000 = .ok (.stsLong 1 false ⟨15, 53, 0, 1953638, 0, 0, 0, false⟩) ∧
    decodeWords 0xBC3B2820 0x7C605800 = .ok (.ldcLong 2 false ⟨3, 44, 80, 1018891, 0, 0, 0, false⟩) ∧
    decodeWords 0xBEF52504 0x71080000 = .ok (.ldt 15 20 74 4 3 4 2 0 false true) ∧
    decodeWords 0xC05B2746 0x11880000 = .ok (.stt 5 44 78 70 0 4 3 0 false true) ∧
    decodeWords 0xC3200640 0x74150000 = .ok (.pref 2 18 12 950944) := by decide +kernel

theorem test_decode_atomics_and_stores :
    decodeWords 0xC4F72713 0x425C1A80 = .ok (.atom 2 3 ⟨15, 28, 78, 543619, 2, 4, 0, false⟩) ∧
    decodeWords 0xC65D6219 0x4229AA60 = .ok (.red 3 1 ⟨5, 53, 68, 542005, 2, 3, 0, false⟩) ∧
    decodeWords 0xC927241B 0x8A729000 = .ok (.atoms 3 3 ⟨18, 28, 72, 1134162, 0, 0, 0, false⟩) ∧
    decodeWords 0xCBB20200 0x50000000 = .ok (.atom2Dcas 27 8 4 0 true 2 0) ∧
    decodeWords 0xCBB70328 0xE3000000 = .ok (.atom2Amov 27 28 6 40 true 4 3) ∧
    decodeWords 0xCC3A0658 0x003C4000 = .ok (.stm 3 40 12 88 0 false 0 0 true 113) ∧
    decodeWords 0xCE350342 0x08000000 = .ok (.stf 3 20 6 66 0 2 0) ∧
    decodeWords 0xD0F02500 0xD4000000 = .ok (.sbind 0 74 0 106) ∧
    decodeWords 0xD0F60000 0x00000000 = .ok (.sunbind 4) ∧
    decodeWords 0xD0F90000 0x00000000 = .ok (.sflush 2) := by decide +kernel

theorem test_decode_matrix_1 :
    decodeWords 0xD4F00000 0x441C4000 = .ok (.mma 0 0 0 4 false true 0 113) ∧
    decodeWords 0xD4F80800 0x14BA8668 = .ok (.mmaLong 4 1 0 1 true 0 1 106 12 104) ∧
    decodeWords 0xD6F6640C 0x00000000 = .ok (.accld 3 1 72 12) ∧
    decodeWords 0xD8F0A804 0x80000000 = .ok (.accst 0 2 80 4 4) ∧
    decodeWords 0xDAF0E746 0x38096200 = .ok (.accepi 0 3 78 70 1 3 4 88 true) ∧
    decodeWords 0xDAF60000 0x86012A00 = .ok (.accepiSend 3 0 4 0 2 0 74 true) ∧
    decodeWords 0xDCF90000 0x00000000 = .ok (.mxsave 72) ∧
    decodeWords 0xDEFA0000 0x00000000 = .ok (.mxres 80) ∧
    decodeWords 0xE0F91000 0x00000000 = .ok (.hadt 4 4 1 false) ∧
    decodeWords 0xE2FA8600 0x00000000 = .ok (.qblk 5 4 1 true 0) := by decide +kernel

theorem test_decode_matrix_2 :
    decodeWords 0xE2F7006E 0x00000000 = .ok (.dqblk 3 0 false 110) ∧
    decodeWords 0xE4F9D2A8 0x00000004 = .ok (.feed 78 74 5 4) := by decide +kernel

theorem test_decode_copies_and_queues :
    decodeWords 0xE6F8D380 0x850B5780 = .ok (.cpy 70 78 66 66 106 true true true 4) ∧
    decodeWords 0xE8F95380 0x90B032E0 = .ok (.cpytLoad 74 78 72 88 12 true false true true true) ∧
    decodeWords 0xE8F91400 0x9D850340 = .ok (.cpytStore 72 80 78 66 64 true true false true false) ∧
    decodeWords 0xEAF22500 0x80000000 = .ok (.qput 8 74 0 true) ∧
    decodeWords 0xECFE3380 0x10000000 = .ok (.binit 113 78 8) := by decide +kernel

theorem test_decode_graphics :
    decodeWords 0xEE3B1440 0x89380000 = .ok (.texs 3 44 40 64 68 78) ∧
    decodeWords 0xF122024A 0x00000000 = .ok (.texf 18 8 4 74) ∧
    decodeWords 0xF2F22750 0x00000000 = .ok (.texq 15 8 78 80) ∧
    decodeWords 0xF45A1444 0x00000000 = .ok (.rtbox 5 40 40 68) ∧
    decodeWords 0xF6FB0044 0x00000004 = .ok (.rttri 15 44 0 68 true 0) ∧
    decodeWords 0xF8540300 0x00000000 = .ok (.sopen 5 1 6) ∧
    decodeWords 0xF9280400 0x40000000 = .ok (.sopenReplay 18 2 8) ∧
    decodeWords 0xF8FC0200 0x80000000 = .ok (.sopenFetch 15 3 4) ∧
    decodeWords 0xFA3C4208 0x80000000 = .ok (.semit 3 3 1 4 8 true) := by decide +kernel

theorem test_decode_diagnostics :
    decodeWords 0xFCF53700 0x11800000 = .ok (.diagrd 20 110 1 3) ∧
    decodeWords 0xFEF0206A 0x10000000 = .ok (.diagwr 64 106 1 0) := by decide +kernel

theorem test_decode_feed_words :
    decodeFeed 0x04863DC2 = .ok (.fld 1 1 0 3 0 15810) ∧
    decodeFeed 0x10100438 = .ok (.flds 0 0 1 1080) ∧
    decodeFeed 0x20FD8EE9 = .ok (.floop 16617193) ∧
    decodeFeed 0x2A000000 = .ok (.floopReg 2) ∧
    decodeFeed 0x301FEC41 = .ok (.fstep 0 2092097) ∧
    decodeFeed 0x39000000 = .ok (.fstepReg 1 0) ∧
    decodeFeed 0x40000000 = .ok .fend ∧
    decodeFeed 0x50000000 = .ok .fsync := by decide +kernel
/-! ### Words that the spec writes out (R67 to R70, R136, R220, R428 and the worked encodings of the instruction chapters) -/

theorem test_spec_words_system :
    decodeWords 0x3EF00002 0 = .ok .exit ∧ decodeWords 0x72F00000 0 = .ok .tret ∧ decodeWords 0x60F00000 0 = .ok (.bart 0) ∧
    decodeWords 0x34FC0000 0 = .ok (.exsetAnd 48) ∧ decodeWords 0x34FC0080 0 = .ok (.exsetAndn 48) ∧
    decodeWords 0x34FFE500 0 = .ok (.exset 74) ∧ decodeWords 0xFCF52880 0 = .ok (.diagrd 20 81 0 0) ∧
    decodeWords 0xFEF028D5 0 = .ok (.diagwr 81 85 0 0) ∧ decodeWords 0xFCF52880 0x10000000 = .ok (.diagrd 20 81 1 0) := by decide +kernel

theorem test_spec_words_engines :
    decodeWords 0xECFD1C80 0xA0000000 = .ok (.binit 104 114 80) ∧ decodeWords 0x5AF33468 0 = .ok (.barv 12 104 104) ∧
    decodeWords 0x5EF3744C 0 = .ok (.bwait 13 104 76) ∧ decodeWords 0xEAF52246 0 = .ok (.qput 20 68 70 false) ∧
    decodeWords 0xE6F8D100 0x95A34400 = .ok (.cpy 70 68 74 104 104 true false false 0) ∧
    decodeWords 0xC4F08204 0 = .ok (.atom 0 4 (ml 2 4 0)) := by decide +kernel

theorem test_spec_words_matrix :
    decodeWords 0xD4F00000 0x0497A956 = .ok (.mmaLong 0 0 0 0 true 0 0 94 82 86) ∧
    decodeWords 0xD4F40020 0x00B2A5CC = .ok (.mmaLong 2 0 1 0 false 0 1 74 75 76) := by decide +kernel

theorem test_spec_words_graphics :
    decodeWords 0x68F0E404 0 = .ok (.rng 15 3 72 4) ∧ decodeWords 0xF8F00500 0x40000000 = .ok (.sopenReplay 15 0 10) ∧
    decodeWords 0xFAF04A48 0 = .ok (.semit 15 0 1 20 72 false) ∧ decodeWords 0xF6F50444 4 = .ok (.rttri 15 20 8 68 true 0) := by
  decide +kernel

theorem test_spec_words_feed :
    decodeFeed 0x2000000C = .ok (.floop 12) ∧ decodeFeed 0x30000020 = .ok (.fstep 0 32) ∧ decodeFeed 0x32000010 = .ok (.fstep 2 16) ∧
    decodeFeed 0x40000000 = .ok .fend ∧ decodeFeed 0x00828000 = .ok (.fld 0 1 0 1 2 0) ∧
    decodeFeed 0x05A70000 = .ok (.fld 1 3 2 3 4 0) := by decide +kernel

theorem test_spec_header : decodeHeader 0x00220103 = some { cls := .alu, count := 3, waits := [(1, 0), (2, 4)] } := by decide

/-! ### Small states -/

/-- The header of a clause of a class, of four words. -/
def clause (c : Class) : Option Header := some { cls := c, count := 4, waits := [] }

/-- A group of eight lanes in a dispatched clause: v4 holds the lane number plus 5, v5 holds 7, and s0 to s11 hold 1 to 12. -/
def group0 : Group :=
  { freshGroup 1 0 8 0x10000 [1, 2, 3, 4, 5, 6, 7, 8, 9, 10, 11, 12] with
    hdr := clause .alu
    entered := true
    v := (List.range 8).map (fun l => (256 + l, BitVec.ofNat 32 (l + 5))) ++ (List.range 8).map (fun l => (320 + l, 7))
    p := [(0, 5)] }

/-- The launch record of the grid that the group belongs to. -/
def launch0 : Launch where
  entry := 0x10000
  gx := 2
  gy := 1
  gz := 1
  csize := 1
  groups := 1
  width := 8
  tiles := false
  ordered := false
  quant := 64
  stash := 4096
  dieset := 1
  sched := 0
  schlen := 0
  setsz := 1
  desc := 0x40000
  ndesc := 2
  save := 0x80000
  cpycap := 4
  seqlog := 0
  sinks := 0
  colls := []
  sargs := []

def grid0 : Grid where
  queue := 0
  pkt := 1
  ctx := 0
  launch := launch0
  names := [0]
  next := 1
  endedTeams := []
  saved := []
  quanta := []
  stood := []
  branches := []
  cursors := []
  setCore := []
  round := 0
  commitTime := 0
  committing := false
  turns := []
  openChunks := 0
  chz := 0

/-- The team of the group, with 4096 bytes of stash and tiles. -/
def team0 : Team := freshTeam 1 0 0 0 0 0 8 4096 true false [1] [0]

/-- The visit of the barrel that runs the clause of g, group 1. -/
def visit0 (g : Group) : Visit :=
  { core := 0, part := 0, slot := 0, access := onAccess ((g.hdr.map Header.cls).getD .alu), group := 1, waits := false, stage := 2 }

/-- A package in which group g, group 1 of team 1, moves. -/
def lab (g : Group) : State :=
  { placed State.reset (placedMem [0] 0) g [visit0 g] (.visit 0) with
    teams := [(1, team0)]
    grids := [(1, grid0)]
    trapctl := [(0, 1)]
    trapvec := [(0, 0x10000)]
    fresh := 100
    clock := 4000 }

/-- The next state of an instruction, where it has one. -/
def next (i : Instr) (s : State) : Option State :=
  match exec i s with
  | .next t => some t
  | _ => none

/-- The group that moves, after an instruction. -/
def after (i : Instr) (s : State) : Option Group := (next i s).bind fun t => tblGet t.groups t.cur

/-- Register v of a lane after an instruction. -/
def lane (i : Instr) (s : State) (r l : Nat) : Option Word := (after i s).map fun g => cellGet g.v (laneCell r l)

/-! ### Vector and uniform instructions -/

/-- The hypotheses of the vector statements: the group moves and the entries it reads are present, with no feed program. -/
theorem test_witness_vector : Selected (lab group0) group0 ∧ FeedsReady (lab group0) group0 [(4, false), (5, false), (6, false)] ∧
    FeedsReady (lab group0) group0 [(4, true), (6, true)] ∧ FeedsReady (lab group0) group0 [(4, true), (5, false)] ∧
    group0.ops = [] ∧ group0.width ∈ [8, 16, 32, 64] := by
  unfold Selected FeedsReady; decide +kernel

/-- R116: in lane 3, v4 is 8 and v5 is 7. -/
theorem test_integer : lane (.iadd 15 8 4 5) (lab group0) 8 3 = some 15 ∧ lane (.isub 15 8 5 4) (lab group0) 8 3 = some (-1) := by decide +kernel

/-! ### Steps -/

/-- The group at the first word of a clause that stands in memory: IADD v8, v4, v5, then the words of memory's zeros. -/
def stepLab (w : Nat) : State :=
  { lab { group0 with entered := false, hdr := some { cls := .alu, count := 1, waits := [(1, 0)] } } with mem := placedMem [w] 0 }

def stepGroup : Group := { group0 with entered := false, hdr := some { cls := .alu, count := 1, waits := [(1, 0)] } }

/-- The word of IADD v8, v4, v5 (R49, R116). -/
def iaddWord : Nat := 15 * 2 ^ 20 + 8 * 2 ^ 14 + 4 * 2 ^ 7 + 5

/-- The state that the agenda's visit takes up, and the one in which its group moves. -/
def visitBase (s : State) : State := { draw s with agenda := [] }
def visitState (s : State) : State := { visitBase s with visits := [], cur := 1 }

theorem test_witness_step_runs :
    let s := stepLab iaddWord
    let u := visitState s
    let h : Header := { cls := .alu, count := 1, waits := [(1, 0)] }
    let r := fetchWord u 1 stepGroup (wordAddr stepGroup stepGroup.idx).toNat
    s.agenda = [.visit 0] ∧ popVisit s.visits 0 = some (visit0 stepGroup, []) ∧ tblGet u.groups 1 = some stepGroup ∧
    stepGroup.ended = false ∧ stepGroup.stopped = false ∧ stopping u stepGroup = false ∧ (visit0 stepGroup).waits = false ∧
    stepGroup.wait = .none ∧ stepGroup.sfuUntil ≤ u.clock ∧ stepGroup.turn = .idle ∧ stepGroup.hdr = some h ∧
    onAccess h.cls = (visit0 stepGroup).access ∧ (waitsMet stepGroup h = true ∧ raiseAtHeader u 1 stepGroup h = none) ∧
    stepGroup.tx = none ∧ r.2 = some iaddWord ∧ wordsHere stepGroup iaddWord = some 1 ∧ (fetchSecond r.1 1 stepGroup 1).2 = some 0 ∧
    decodeWords iaddWord 0 = .ok (.iadd 15 8 4 5) ∧ placeOk stepGroup h iaddWord 1 (.iadd 15 8 4 5) = true ∧
    orderedMode (fetchSecond r.1 1 stepGroup 1).1 stepGroup = false ∧ heldByPhase u stepGroup = false := by decide +kernel

/-- With an empty agenda the first visit left of the clock comes next. -/
theorem test_witness_next_visit : let s := { stepLab iaddWord with agenda := [] }
    s.phase ≠ .unbooted ∧ popVisit s.visits 0 = some (visit0 stepGroup, []) := by decide +kernel

theorem test_step_runs_the_word : (match step (stepLab iaddWord) with
    | .next t => (tblGet t.groups 1).map fun g => (cellGet g.v (laneCell 8 3), g.pc, t.clock)
    | _ => none) = some (15, 0x10008, 4000) := by decide +kernel

/-- A word whose opcode no class has: 0x3F (R48). -/
theorem test_witness_illegal_word :
    let s := stepLab 0x7EF00000
    let g := { stepGroup with entered := true }
    let u : State := { visitState s with groups := [(1, g)] }
    let r := fetchWord u 1 g (wordAddr g g.idx).toNat
    r.2 = some 0x7EF00000 ∧ wordsHere g 0x7EF00000 = some 1 ∧ (fetchSecond r.1 1 g 1).2 = some 0 ∧ heldByPhase u g = false ∧
    (match decodeWords 0x7EF00000 0 with | .ok _ => false | _ => true) = true := by decide +kernel

theorem test_illegal_word_traps : (match step (stepLab 0x7EF00000) with
    | .next t => (tblGet t.groups 1).map fun g => (g.trapcause, g.trapinfo, g.handler, g.pc)
    | _ => none) = some (2, 0x7EF00000, true, 0x10000) := by decide +kernel

/-- A feed program of one FSTEP and an FEND, which Fennel serves. -/
def feedLab : State := State.reset.withFetchWord 32 0x30000020

theorem test_witness_feed_step :
    let b := visitBase feedLab
    feedLab.agenda = [.feed 1] ∧ feedLab.visits = [] ∧ feedTurn b 1 = true ∧
    ((tblGet b.groups 1).bind fun g => g.feed.map fun f => f.words.getD f.place.pos 0) = some 0x30000020 ∧ decodeFeed 0x30000020 = .ok (.fstep 0 32) := by decide +kernel

theorem test_feed_step : (match step feedLab with
    | .next t => (tblGet t.groups 1).bind fun g => g.feed.map fun f => f.place.pos
    | _ => none) = some 1 := by decide +kernel

/-- The boundaries of a legal header: COUNT 1 and 15, CLASS 0 and 5; a condition that names no counter with threshold 1 is illegal. -/
theorem test_headers : (decodeHeader 0x01).isSome = true ∧ (decodeHeader 0x5F).isSome = true ∧ decodeHeader 0x00 = none ∧
    decodeHeader 0x61 = none ∧ decodeHeader 0x81 = none ∧ decodeHeader 0x0801 = none := by decide

theorem test_witness_encodings :
    (Instr.iadd 15 8 4 5).WellFormed ∧ encode (.iadd 15 8 4 5) = [iaddWord] ∧ isFeedWord (.iadd 15 8 4 5) = false ∧
    (Instr.movi 15 8 9).WellFormed ∧ encode (.movi 15 8 9) = [0x45 * 2 ^ 25 + 15 * 2 ^ 20 + 8 * 2 ^ 14, 9] ∧
    (Instr.floop 12).WellFormed ∧ isFeedWord (.floop 12) = true ∧ encode (.floop 12) = [0x2000000C] ∧
    isLong iaddWord = false ∧ isLong (0x45 * 2 ^ 25) = true := by decide +kernel

/-- A canonical memory, a step from which answers a next state. -/
theorem test_witness_canonical : Memory.wf (stepLab iaddWord).mem = true ∧
    (match step (stepLab iaddWord) with | .next t => Memory.wf t.mem | _ => false) = true := by decide +kernel

/-- A write of two bytes over 0x10 and 0x11: its bytes stand there, and its neighbours keep theirs. -/
theorem test_performed_write : let r := performWrite { lab group0 with leases := [(0, 5000)] } 0x10 [1, 2]
    readByte r.1.mem 0x10 = 1 ∧ readByte r.1.mem 0x11 = 2 ∧ readByte r.1.mem 0x12 = 0 ∧ r.2 = 5000 := by decide +kernel

/-! ### Values of vector and uniform instructions, by hand -/

/-- R116: the product of 2^31 − 1 and 2, wrapped, saturated and its high half; IABS of −2^31. -/
theorem test_integer_corners :
    let g := { group0 with v := [(256, 0x7FFFFFFF), (320, 2), (384, 0x80000000)] }
    lane (.imulLong 0 false (lo 8 4 5 0)) (lab g) 8 0 = some 0xFFFFFFFE ∧ lane (.imulLong 0 true (lo 8 4 5 0)) (lab g) 8 0 = some 0x7FFFFFFF ∧
    lane (.imulh 0 (lo 8 4 5 0)) (lab g) 8 0 = some 0 ∧ lane (.imulh 1 (lo 8 6 5 0)) (lab g) 8 0 = some 1 ∧
    lane (.iabs 15 8 6) (lab g) 8 0 = some 0x80000000 ∧ lane (.iabsLong true (lo 8 6 0 0)) (lab g) 8 0 = some 0x7FFFFFFF ∧
    lane (.isubLong 1 true (lo 8 5 4 0)) (lab g) 8 0 = some 0 := by decide +kernel

/-- R116, R118, R119: shifts at their widths, and a field that leaves the word. -/
theorem test_shifts_and_fields :
    let g := { group0 with v := [(256, 0x80000001), (320, 32), (384, 0x0819), (448, 0x80000000)] }
    lane (.shl 15 8 4 5) (lab g) 8 0 = some 0 ∧ lane (.sar 15 8 4 5) (lab g) 8 0 = some 0xFFFFFFFF ∧
    lane (.rot (lo 8 4 5 0)) (lab g) 8 0 = some 0x80000001 ∧ lane (.clz 15 8 5) (lab g) 8 0 = some 26 ∧
    lane (.brev 15 8 4) (lab g) 8 0 = some 0x80000001 ∧ lane (.bfe true (lo 8 4 6 0)) (lab g) 8 0 = some 0xFFFFFFC0 ∧
    lane (.bfe false (lo 8 4 6 0)) (lab g) 8 0 = some 0x40 ∧ lane (.bfi (lo 8 5 104 6)) (lab g) 8 0 = some 0x40000000 ∧
    lane (.shr64 true (lo 8 6 5 0)) (lab g) 9 0 = some 0xFFFFFFFF := by decide +kernel

/-- R83, R93, R123: 1 + 2, an overflow, ∞ − ∞, and a signalling NaN. -/
theorem test_float :
    let g := { group0 with v := [(256, 0x3F800000), (320, 0x40000000), (384, 0x7F7FFFFF), (448, 0x7F800000), (512, 0x7F800001)] }
    lane (.fadd 15 9 4 5) (lab g) 9 0 = some 0x40400000 ∧ lane (.fadd 15 9 6 6) (lab g) 9 0 = some 0x7F800000 ∧
    lane (.faddLong 1 (lo 9 6 6 0)) (lab g) 9 0 = some 0x7F7FFFFF ∧ lane (.fsub 15 9 7 7) (lab g) 9 0 = some 0x7FC00000 ∧
    lane (.fmin 15 9 8 4) (lab g) 9 0 = some 0x3F800000 ∧ ((after (.fsub 15 9 7 7) (lab g)).map (·.fpflags)) = some 1 := by decide +kernel

/-- R124: a NaN compares unequal and unordered. -/
theorem test_witness_float_compare :
    Fp.f32 ∈ [Fp.f32, Fp.f16, Fp.bf16] ∧ 0x7FC00000 < 2 ^ Fp.f32.width ∧ (Fp.compare Fp.f32 7 0x7FC00000 0).1 = true ∧
    (Fp.compare Fp.f32 7 0x3F800000 0).1 = false ∧ (Fp.compare Fp.f32 1 0x7FC00000 0).1 = true ∧
    (Fp.compare Fp.f32 2 0x7FC00000 0) = (false, 1) := by decide +kernel

theorem test_witness_canonical_nan : (Fp.add Fp.f32 0 0 0x7F800000 0xFF800000).1 = 0x7FC00000 ∧
    (Fp.mul Fp.f16 0 0 0 0x7C00).1 = 0x7E00 ∧ (Fp.fma Fp.bf16 0 0 0x7F80 0 0).1 = 0x7FC0 := by decide +kernel

/-- R131, R132: a sum of the lanes, the ballot of lanes 1 to 7, and an election. -/
theorem test_across_lanes :
    lane (.redx 0 2 (lo 8 4 0 0)) (lab group0) 8 0 = some 68 ∧ lane (.scanx 0 true 2 (lo 8 4 0 0)) (lab group0) 8 2 = some 11 ∧
    ((after (.ballot (lo 49 105 0 0)) (lab group0)).map fun g => cellGet g.p 1) = some 0xFE ∧
    ((after (.elect (lo 49 0 0 0)) (lab { group0 with exec := 0xF0 })).map fun g => cellGet g.p 1) = some 0x10 ∧
    ((after (.vote 2 (lo 49 5 0 0)) (lab group0)).map fun g => cellGet g.p 1) = some 0xFF := by decide +kernel

theorem test_masks :
    ((after (.exsetAnd 48) (lab group0)).map (·.exec)) = some 5 ∧ ((after (.exsetAndn 48) (lab group0)).map (·.exec)) = some 0xFA ∧
    ((after (.exset 74) (lab group0)).map (·.exec)) = some 11 ∧ ((after (.plop 49 0 0 12 0x30) (lab group0)).map fun g => cellGet g.p 1) = some 0xFA ∧
    ((after (.pmov 50 0) (lab group0)).map fun g => cellGet g.p 2) = some 5 := by decide +kernel

theorem test_uniform :
    ((after (.uadd 3 4 66 67) (lab group0)).map fun g => cellGet g.s 4) = some 7 ∧
    ((after (.ushrImm true 15 4 66 32) (lab { group0 with s := [(2, 0x80000000)] })).map fun g => cellGet g.s 4) = some 0xFFFFFFFF ∧
    ((after (.ucmp 2 0 15 49 66 67) (lab group0)).map fun g => cellGet g.p 1) = some 0xFF ∧
    ((after (.ulane true false 15 4 4 0) (lab { group0 with exec := 0xF0 })).map fun g => cellGet g.s 4) = some 9 ∧
    ((after (.usel false true 0 15 4 66 67) (lab group0)).map fun g => cellGet g.s 4) = some 3 ∧
    ((after (.movsr 15 4 1) (lab group0)).isSome) = true := by decide +kernel

/-- R30: with no feed program a read of f1 is the underrun trap; of a running one that still loads f1, it waits. -/
def running1 : Feed := freshFeed 0x20000 [0x04000000, 0x40000000] 2 [] 0

theorem test_witness_underrun :
    mmaTakes (lab group0) group0 1 = false ∧ feedQueue group0 1 = [] ∧ group0.feed = none ∧
    mmaTakes (lab { group0 with feed := some running1 }) { group0 with feed := some running1 } 1 = false ∧
    cannotReceive { group0 with feed := some running1 } 1 = false ∧
    ((after (.mov 15 8 97) (lab group0)).map fun g => (g.trapcause, g.trapinfo)) = some (5, 1) := by decide +kernel

/-! ### Control -/

theorem test_witness_branches :
    (Instr.br 0 1 true 5).WellFormed ∧ ((after (.br 0 1 true 5) (lab group0)).map fun g => (g.trapcause, g.trapinfo)) = some (3, 5) ∧
    ((after (.br 0 1 false 5) (lab group0)).map (·.pc)) = some 0x1001C ∧ ((after (.br 0 2 false 5) (lab group0)).map (·.idx)) = some 1 ∧
    ((after (.br 15 0 false 0xFFFE) (lab group0)).map (·.pc)) = some 0x10000 := by decide +kernel

theorem test_control :
    ((after (.call 5 4) (lab group0)).map fun g => (cellGet g.s 10, g.pc)) = some (0x10008, 0x10018) ∧
    ((after (.ret 64) (lab { group0 with s := [(0, 0x10040)] })).map (·.pc)) = some 0x10040 ∧
    ((after (.ret 64) (lab group0)).map (·.trapcause)) = some 4 ∧
    ((after (.jmpx 64) (lab { group0 with s := [(1, 0xFC0000)] })).map (·.trapcause)) = some 4 ∧
    ((after (.loop 1 0xFFFF) (lab group0)).map fun g => (cellGet g.s 1, g.pc)) = some (1, 0x10004) ∧
    ((after (.loop 0 0xFFFF) (lab group0)).map fun g => (cellGet g.s 0, g.idx)) = some (0, 1) ∧
    ((after (.loop 20 0xFFFF) (lab group0)).map fun g => (cellGet g.s 20, g.idx)) = some (0, 1) := by decide +kernel

theorem test_movsr_clr : ((after (.movsrClr 15 4) (lab { group0 with fpflags := 9 })).map fun g => (cellGet g.s 4, g.fpflags)) = some (9, 0) := by
  decide +kernel

/-! ### Memory -/

/-- v6 and v7 hold a byte address in each lane: 64 and four times the lane number; v10 the same in the window of the team's own stash. -/
def group1 : Group :=
  { group0 with
    hdr := clause .mem
    v := (List.range 8).map (fun l => (256 + l, BitVec.ofNat 32 (l + 5))) ++ (List.range 8).map (fun l => (320 + l, 7)) ++
      (List.range 8).map (fun l => (384 + l, BitVec.ofNat 32 (64 + 4 * l))) }

def ldOp : Op := longOp .ld (.load 4 false false 8) (ml 8 6 0)

theorem test_witness_loads_issue :
    (∀ l ∈ lanesOf 8 (active group1 15), checkWindow (lab group1) group1 4 l (baseOf (lab group1) group1 0 6 l)
      (genericWindow (baseOf (lab group1) group1 0 6 l)) true true = []) ∧
    counter group1 (counterFor ldOp ((lanesOf 8 (active group1 15)).map fun l => { lane := l, addr := baseOf (lab group1) group1 0 6 l })).ident < 63 ∧
    next (.ldLong 0 false (ml 8 6 0)) (lab group1) = some (issued (lab group1) group1 (.ldLong 0 false (ml 8 6 0)) ldOp
      ((lanesOf 8 (active group1 15)).map fun l => { lane := l, addr := baseOf (lab group1) group1 0 6 l })
      (loadDests group1 false 8 4 (lanesOf 8 (active group1 15)))) := by decide +kernel

theorem test_short_store_issues : next (.st 15 5 6 2) (lab group1) = some (issued (lab group1) group1 (.st 15 5 6 2) (shortOp .st (.store 4))
    ((lanesOf 8 (active group1 15)).map fun l =>
      { lane := l, addr := baseOf (lab group1) group1 0 6 l + 8, data := storeBytes (lab group1) group1 1 false 5 4 l }) []) := by decide +kernel

/-- R162: a load of global memory waits for its translations, which the next move makes. -/
theorem test_witness_issue_waits :
    releases (longOp .ld (.load 4 false false 8) (ml 8 6 0)).order = false ∧ (∀ p ∈ group1.ops, p.uid < (lab group1).fresh) ∧
    genericWindow (baseOf (lab group1) group1 0 6 0) = some (.global 64) ∧ (lab group1).cores = [(0, freshCore)] ∧ freshCore.l1 = [] ∧
    ((after (.ldLong 0 false (ml 8 6 0)) (lab group1)).map fun g => (g.wait, g.pc, counter g 1)) = some (.translate 100, 0x10000, 1) := by
  decide +kernel

/-- R148 to R150: in lane 0 an address in no window, beyond the stash (at its end and one byte before a word there), and off its alignment. -/
theorem test_witness_memory_traps :
    let trap (lo hi : Word) (off : BitVec 21) : Option (Word × Word64) :=
      (after (.ldLong 0 false (ml 8 6 off)) (lab { group1 with exec := 1, v := [(384, lo), (448, hi)] })).map fun g => (g.trapcause, g.trapinfo)
    trap 0 0xFF0000 0 = some (0x10, 0xFF000000000000) ∧ trap 4096 0xFE0000 0 = some (0x11, 0xFE000000001000) ∧
    trap 4092 0xFE0000 1 = some (0x11, 0xFE000000000FFD) ∧ trap 6 0 0 = some (0x12, 6) := by decide +kernel

/-- The hypotheses of the stash statements, for stores and loads of each size at the last place of the stash that holds them. -/
theorem test_witness_stash :
    group1.tx = none ∧ orderedMode (lab group1) group1 = false ∧ group1.ctr.length = 7 ∧ counter group1 Counter.st.ident < 63 ∧
    (((tblGet (lab group1).teams group1.team).map (·.binds)).getD []) = [] ∧ (lab group1).ueUnits = [] ∧ (lab group1).fabOut = [] ∧
    stashSize (lab group1) 1 = 4096 ∧
    (∀ l ∈ lanesOf 8 (active group1 15), 64 + 4 * l < 2 ^ 24 ∧ 64 + 4 * l + 4 ≤ 4096 ∧ (64 + 4 * l) % 4 = 0) := by decide +kernel

/-- R158: each lane's word stands at its offset, the operation is complete, and no other byte has changed. -/
theorem test_stash_store :
    ((next (.stsLong 0 false (ml 4 6 0)) (lab group1)).map fun t =>
      ((List.range 8).map fun l => readByte t.mem (stashLoc 1 (64 + 4 * l)), readByte t.mem (stashLoc 1 63), readByte t.mem (stashLoc 1 96))) =
    some ([5, 6, 7, 8, 9, 10, 11, 12], 0, 0) := by decide +kernel

theorem test_stash_store_completes :
    ((after (.stsLong 0 false (ml 4 6 0)) (lab group1)).map fun g => (counter g 2, g.ops.map (·.stage), g.idx, g.wait)) =
    some (1, [Stage.complete], 2, Wait.none) := by decide +kernel

theorem test_stash_load :
    ((after (.ldsLong 0 false (ml 8 6 0)) { lab group1 with mem := writeBytes (lab group1).mem (stashLoc 1 68) [1, 2, 3, 4] }).map fun g =>
      g.ops.map fun o => (o.stage, o.writes.find? fun w => w.1 == Reg.v 8 1)) =
    some [(Stage.complete, some (Reg.v 8 1, 0x04030201))] := by decide +kernel

/-- R170: one lane, at stash offset 64, which holds 9; v4 holds 5 in lane 0. Add, signed minimum, compare-and-swap of an unequal value, and the
two wrapping counters. -/
def atomLab : State :=
  { lab { group1 with exec := 1 } with mem := writeBytes (lab group1).mem (stashLoc 1 64) [9, 0, 0, 0] }

def atomGives (aop : BitVec 4) (t : BitVec 3) : Option (Byte × Word) :=
  (next (.atoms aop t (ml 4 6 0)) atomLab).map fun u =>
    (readByte u.mem (stashLoc 1 64), (((tblGet u.groups 1).bind fun g => (g.ops.flatMap (·.writes)).head?).map (·.2)).getD 0)

theorem test_stash_atomics :
    atomGives 0 1 = some (14, 9) ∧ atomGives 1 0 = some (5, 9) ∧ atomGives 7 1 = some (9, 9) ∧ atomGives 8 1 = some (0, 9) ∧
    atomGives 9 1 = some (5, 9) := by decide +kernel

theorem test_witness_stash_atomic :
    lanesOf 8 (active { group1 with exec := 1 } 15) = [0] ∧ counter group1 Counter.ld.ident < 63 ∧ (4 : BitVec 6).toNat < 47 ∧
    (baseOf atomLab { group1 with exec := 1 } 0 6 0).setWidth 32 = (64 : BitVec 32) ∧ stashSize atomLab 1 = 4096 := by decide +kernel

theorem test_witness_atomics_issue :
    let data (l : Nat) : List Byte := wordsBytes (dataWords (lab group1) group1 1 false 4 4 l)
    let lanes : List LaneAcc := (List.range 8).map fun l => { lane := l, addr := baseOf (lab group1) group1 0 6 l, data := data l }
    next (.atom 0 1 (ml 4 6 0)) (lab group1) = some (issued (lab group1) group1 (.atom 0 1 (ml 4 6 0))
      (longOp .ld (.atomic 0 1 (some 4)) (ml 4 6 0)) lanes (loadDests group1 false 4 4 (List.range 8))) ∧
    ((after (.red 0 1 (ml 4 6 0)) (lab group1)).map fun g => (counter g 2, g.ops.map (·.dests))) = some (1, [[]]) := by decide +kernel

/-- R174: two words of one lane that do not overlap. -/
theorem test_witness_two_word_atomics :
    let g := { group1 with exec := 1, v := [(384, 64), (512, 72)] }
    baseOf (lab g) g 0 6 0 = 64 ∧ baseOf (lab g) g 2 8 0 = 72 ∧
    ((after (.atom2Dcas 15 12 6 8 false 0 0) (lab g)).map fun h => h.ops.map fun o => (o.lanes.map (·.addr2), o.dests)) =
      some [([72], [Reg.v 12 0, Reg.v 13 0, Reg.v 14 0])] ∧
    ((after (.atom2Amov 15 12 6 8 false 0 0) (lab g)).map fun h => h.ops.map fun o => o.dests) = some [[Reg.v 12 0]] := by decide +kernel

/-- R177 to R181: names 0 and 47; members 0 alone of a cluster of one, with a step of 4; a flag at s4:s5. -/
theorem test_witness_multicast :
    let die (hi : Word) := lab { group1 with s := [(2, 1), (3, hi)] }
    ((after (.stm 15 4 6 66 0 true 0 0 false 0) (die 0x8000)).map fun g => (counter g 2, g.ops.length)) = some (1, 1) ∧
    ((after (.stm 15 4 6 66 0 true 0 0 false 0) (die 0x10000)).map (·.ops.length)) = some 0 ∧
    ((after (.stm 15 4 6 66 0 false 0 0 false 0) (lab { group1 with s := [(2, 0x40001)] })).map fun g => (counter g 6, g.ops.length)) =
      some (1, 1) ∧
    ((after (.stf 15 4 6 68 0 0 0) (lab { group1 with s := [(4, 0x800)] })).map fun g => g.ops.map fun o => o.lanes.getLast?) =
      some [some { lane := 64, addr := 0x800 }] := by decide +kernel

/-- R166, R168: with ACTIVE empty an operation without lanes; with a descriptor of zeros the descriptor trap. -/
theorem test_witness_tensor :
    ((after (.ldt 15 8 4 64 0 0 0 0 false false) (lab { group1 with exec := 0 })).map fun g => (counter g 1, g.ops.map (·.lanes))) =
      some (1, [[]]) ∧
    ((after (.stt 15 8 4 64 0 0 0 0 false false) (lab { group1 with exec := 0 })).map fun g => (counter g 2, g.ops.map (·.lanes))) =
      some (1, [[]]) ∧
    ((after (.ldt 15 8 4 64 0 0 0 0 false false) (lab group1)).map fun g => (g.trapcause, g.trapinfo)) = some (0x13, 0xFF) ∧
    ((after (.pref 0 15 6 0) (lab group1)).map fun g => (g.idx, counter g 1)) = some (2, 0) := by decide +kernel

/-- R183: nothing outstanding and LEASECLK at 1000 ticks past CHZ, and not past it. -/
theorem test_witness_fences :
    group1.wcb = [] ∧ ((after (.fence 15 2 2 false) (lab { group1 with chz := 998 })).map fun g => (g.idx, g.wait)) = some (1, .none) ∧
    ((after (.fence 15 2 2 false) (lab { group1 with chz := 999 })).map (·.idx)) = some 0 ∧
    ((after (.fence 15 2 0 false) (lab { group1 with chz := 999 })).map (·.idx)) = some 1 ∧
    ((after (.fence 15 1 3 true) (lab { group1 with engChz := 999 })).map (·.idx)) = some 0 ∧
    ((after (.fence 15 1 3 true) (lab { group1 with readC := 70 })).map fun g => (g.idx, g.chz)) = some (1, 70) := by decide +kernel

def open0 : Tx := { dst := 2, savedExec := 0xF, resume := 0x10020, lines := [7], written := [7], site := some 0, bytes := [(900, 3)], stores := [] }

theorem test_witness_transactions :
    ((after (.txbegin 2) (lab group1)).bind fun g => g.tx.map fun t => (t.dst, t.savedExec, g.pc, cellGet g.s 2)) =
      some (2, 0xFF, 0x10014, 0) ∧
    ((after .txend (lab group1)).map (·.idx)) = some 1 ∧ ((after (.txabort 9) (lab group1)).map (·.idx)) = some 1 ∧
    ((after (.txabort 9) (lab { group1 with tx := some open0 })).map fun g => (cellGet g.s 2, g.exec, g.pc, g.tx)) =
      some (0x10905, 0xF, 0x10020, none) ∧
    orderedMode (lab group1) group1 = false ∧ (∀ l ∈ open0.written, tblGet (lab group1).hostHolds l = none) ∧
    ((next .txend (lab { group1 with tx := some open0 })).map fun t => (readByte t.mem 900, (tblGet t.groups 1).map (·.tx))) =
      some (3, some none) := by decide +kernel

/-- R185 to R187: 128 bytes of stash at 0 and at the end; a length of 0, a range past the stash, an address past the window, an overlap. -/
theorem test_witness_binding :
    let g (ga so n : Word) : Group := { group1 with s := [(0, ga), (2, so), (3, n)] }
    let bind (ga so n : Word) := ((after (.sbind 1 64 66 67) (lab (g ga so n))).map fun h => (h.trapcause, h.idx))
    bind 0x20000 0 128 = some (0, 2) ∧ bind 0x20000 3968 128 = some (0, 2) ∧ bind 0x20000 0 0 = some (0x10, 0) ∧
    bind 0x20000 3968 256 = some (0x10, 0) ∧ bind 0x20040 0 128 = some (0x10, 0) := by decide +kernel

def boundLab : State :=
  { lab { group1 with s := [(0, 0x20000), (2, 0), (3, 128)] } with
    teams := [(1, { team0 with binds := [(0, { gaddr := 0x30000, soff := 0, len := 128, lines := [0x600] })] })] }

theorem test_witness_binding_overlap :
    ((after (.sbind 1 64 66 67) boundLab).map fun h => (h.trapcause, h.trapinfo)) = some (0x14, 1) ∧
    (writeBackSlot boundLab 1 0 true).1.snoops = [] ∧ (writeBackSlot boundLab 1 0 true).1.cur = 1 ∧
    ((next (.sunbind 0) boundLab).map fun t => (tblGet t.teams 1).map (·.binds.length)) = some (some 0) ∧
    ((next (.sflush 0) boundLab).map fun t => (tblGet t.teams 1).map (·.binds.length)) = some (some 1) := by decide +kernel

/-! ### The matrix engine and the feed unit -/

/-- A group of 64 lanes, member j of the quartet. -/
def member (j : Nat) : Group :=
  { freshGroup 1 j 64 0x10000 [0, 0, 0, 0, 0, 0xFE0000, 0, 0, 0, 0, 0, 0] with hdr := clause .mtx, entered := true }

def quartet0 (i : Instr) : Quartet :=
  { freshQuartet with latch := [(0, wordsOf i), (1, wordsOf i), (2, wordsOf i)] }

def quartetTeam (i : Instr) : Team :=
  { freshTeam 1 0 0 0 0 0 64 8192 true false [1, 2, 3, 4] [0] with
    acc := [(70, 3), (4096 + 70, 5)]
    accErr := [0, 1]
    quartets := [(0, quartet0 i)] }

/-- Three members of a quartet wait with instruction i, and the fourth, group 4, moves. -/
def quartetLab (i : Instr) : State :=
  { lab group0 with
    cur := 4
    teams := [(1, quartetTeam i)]
    groups := (List.range 3).map (fun j => (j + 1, { member j with wait := .rendezvous })) ++ [(4, member 3)] }

theorem test_witness_tiles_clear :
    tblSet (quartet0 (.accz 1)).latch 3 (wordsOf (.accz 1)) = (List.range 4).map (fun j => (j, wordsOf (.accz 1))) ∧
    (quartetTeam (.accz 1)).groups.Nodup ∧ (quartet0 (.accz 1)).checking = none ∧ (quartet0 (.accz 1)).ops = [] ∧
    (∀ n ∈ [1, 2, 3, 4], (tblGet (quartetLab (.accz 1)).groups n).isSome) := by decide +kernel

/-- R213: ACCZ of tile 0 clears its element and its error bit; tile 1 keeps both. -/
theorem test_tiles_clear :
    ((next (.accz 1) (quartetLab (.accz 1))).bind fun u => (tblGet u.teams 1).map fun t =>
      (accGet t.acc 0 1 6, accGet t.acc 1 1 6, t.accErr)) = some (0, 5, [1]) ∧
    ((next (.accz 1) (quartetLab (.accz 1))).map fun u => u.groups.map fun e => (e.2.wait, e.2.idx)) =
      some [(.none, 1), (.none, 1), (.none, 1), (.none, 1)] := by decide +kernel

/-- R196: a group of 32 lanes, one of a quartet that has lost members 1 and 2, and the second of four. -/
theorem test_witness_rendezvous :
    ((after (.accz 1) { quartetLab (.accz 1) with groups := [(4, { member 3 with width := 32 })] }).map (·.trapcause)) = some 0x20 ∧
    ((after (.accz 1) { quartetLab (.accz 1) with
      teams := [(1, { quartetTeam (.accz 1) with quartets := [(0, { freshQuartet with lost := [2, 1] })] })] }).map fun g =>
        (g.trapcause, g.trapinfo)) = some (0x22, 1) ∧
    ((after (.accz 1) { quartetLab (.accz 1) with
      teams := [(1, { quartetTeam (.accz 1) with quartets := [(0, { freshQuartet with latch := [(0, wordsOf (.accz 1))] })] })] }).map
        (·.wait)) = some .rendezvous := by decide +kernel

/-- R199, R200: ACCLD of one row of the stash: its check needs no translation. -/
def accld0 : Instr := .accld 0 0 68 104

theorem test_witness_matrix_check :
    decodeWords ((wordsOf accld0).toNat % 2 ^ 32) ((wordsOf accld0).toNat / 2 ^ 32) = .ok accld0 ∧
    mxCounter accld0 = some .mx ∧
    ((next accld0 (quartetLab accld0)).map fun u => (tblGet u.teams 1).map fun t => t.quartets.map fun q => (q.2.checking.isSome, q.2.ops.length)) =
      some (some [(false, 0)]) ∧ ((after accld0 (quartetLab accld0)).map fun g => counter g 4) = some 1 := by decide +kernel

/-- ACCLD from global memory is checked when MATRIX_CHECK_END comes. -/
def accldLab : State :=
  let m (j : Nat) : Group := { member j with s := [(4, 0x20000)] }
  { quartetLab accld0 with groups := (List.range 3).map (fun j => (j + 1, { m j with wait := .rendezvous })) ++ [(4, m 3)] }

theorem test_witness_slow_check :
    ((next accld0 accldLab).map fun u => (u.groups.map fun e => e.2.wait, (tblGet u.teams 1).map fun t => t.quartets.map fun q => q.2.checking.isSome)) =
      some ([.matrixCheck, .matrixCheck, .matrixCheck, .matrixCheck], some [true]) ∧
    (((next accld0 accldLab).bind (next (.matrixCheckEnd 1 0))).map fun u => (u.groups.map fun e => (e.2.wait, counter e.2 4))) =
      some [(.none, 1), (.none, 1), (.none, 1), (.none, 1)] := by decide +kernel

/-- R219, R220: a program that begins with word w at 0x20000. -/
def programLab (prog : Word) (w : Nat) : State :=
  { lab { group0 with hdr := clause .mov, s := [(0, prog), (2, 0x500)] } with mem := writeNum (placedMem [0] 0) 0x20000 4 w }

theorem test_witness_feed :
    ((after (.feed 64 66 0 1) (programLab 0x20000 0x40000000)).bind fun g => g.feed.map fun f => (f.words.length, f.place.a.getD 0 0, f.running)) =
      some (1, 0x500, true) ∧
    ((after (.feed 64 66 0 1) (programLab 0x20002 0x40000000)).map fun g => (g.trapcause, g.trapinfo)) = some (0x12, 0x20002) ∧
    ((after (.feed 64 66 0 1) (programLab 0x20000 0x60000000)).map fun g => (g.trapcause, g.trapinfo)) = some (0x06, 0) ∧
    ((after .fstop (programLab 0x20000 0)).map fun g => (g.feed, g.idx)) = some (none, 1) := by decide +kernel

/-- A program that runs, at its word 1, with a loop level open at word 0. -/
def feed1 : Feed :=
  let f := freshFeed 0x20000 [0x20000002, 0x30000020, 0x40000000, 0x40000000] 15 [0x100, 8] 0
  { f with place := { f.place with pos := 1, loops := [(0, 0, 2)] } }

def feedGroupLab (f : Feed) : State := lab { group1 with feed := some f }

def fedPlace (i : Instr) (f : Feed) : Option (Nat × Nat × Word64) :=
  (after i (feedGroupLab f)).bind fun g => g.feed.map fun f => (f.place.pos, f.place.loops.length, f.place.a.getD 0 0)

theorem test_witness_feed_words :
    fedPlace (.fstep 0 32) feed1 = some (2, 1, 0x120) ∧ fedPlace (.fstep 0 0x1FFFFF) feed1 = some (2, 1, 0xFF) ∧
    fedPlace (.fstepReg 0 1) feed1 = some (2, 1, 0x108) ∧ fedPlace .fend feed1 = some (1, 1, 0x100) ∧
    fedPlace (.floop 3) feed1 = some (2, 2, 0x100) ∧ fedPlace (.floopReg 2) feed1 = some (3, 1, 0x100) := by decide +kernel

theorem test_witness_feed_ends :
    fedPlace .fsync feed1 = some (2, 1, 0x100) ∧ fedPlace (.fstep 0 32) { feed1 with parked := true } = some (1, 1, 0x100) ∧
    ((after .fend (feedGroupLab { feed1 with place := { feed1.place with loops := [] } })).bind fun g => g.feed.map (·.running)) = some false := by
  decide +kernel

/-- R221: FLD of 32 bits a lane from 0x100 on, one word in a row of 2^0 lanes with a stride of 8; and FLDS. -/
theorem test_witness_feed_loads :
    ((after (.fld 1 0 0 1 0 0) (feedGroupLab feed1)).map fun g => (feedQueue g 1).length) = some 1 ∧
    ((after (.flds 1 1 0 0) (feedGroupLab feed1)).map fun g => (feedQueue g 1).length) = some 2 ∧
    feedAddrOk (feedGroupLab feed1) 1 0x100 4 = true := by decide +kernel

/-! ### Copies, barriers, queues and waits -/

/-- s0:s1 is the destination 0x20000, s2:s3 the source 0x30000, s4 the row's bytes and s5 the rows. -/
def copyGroup (rowb nrow : Word) : Group := { group1 with hdr := clause .mov, s := [(0, 0x20000), (2, 0x30000), (4, rowb), (5, nrow)] }

def copyWait (rowb nrow : Word) : Option (Wait × Word) :=
  (after (.cpy 64 66 68 104 0 false false false 0) (lab (copyGroup rowb nrow))).map fun g => (g.wait, g.trapcause)

/-- R251: the limits of a shape, and a probe that passes. -/
theorem test_witness_copies :
    copyWait 4 1 = some (.probe 100, 0) ∧ copyWait 0x1000000 0x10000 = some (.probe 100, 0) ∧ copyWait 0x1000004 1 = some (.none, 0x30) ∧
    copyWait 0 1 = some (.none, 0x30) ∧ copyWait 4 0 = some (.none, 0x30) ∧ copyWait 4 0x10001 = some (.none, 0x30) ∧
    (((next (.cpy 64 66 68 104 0 false false false 0) (lab (copyGroup 64 1))).bind (next (.copyProbeEnd 1))).map fun u =>
      (tblGet u.groups 1).map fun g => (g.wait, g.openCopies, g.idx)) = some (some (.none, [100], 2)) ∧
    ((after .cmit (lab { copyGroup 64 1 with openCopies := [7] })).map fun g => (counter g 5, g.openCopies, g.ops.map (·.copies))) =
      some (1, [], [[7]]) := by decide +kernel

/-- A descriptor of sixteen 32-bit elements in one dimension at 0x40000, whose one shard stands at 0x50000 of name 0. -/
def descMem : Cells 8 :=
  [(0, 0x81800000), (8, 16), (12, 1), (16, 1), (20, 1), (24, 16), (28, 1), (32, 1), (36, 1), (40, 0x41000)].foldl
    (fun m e => writeNum m (0x40000 + e.1) 4 e.2) (writeNum (placedMem [0] 0) 0x41000 8 (2 ^ 57 + 0x50000))

def descLab : State := { lab { group1 with s := [(2, 256), (3, 0xFE0000), (4, 8), (5, 1)] } with mem := descMem }

theorem test_witness_tile_copies :
    ((after (.cpytLoad 112 64 66 68 0 false false false false false) descLab).map fun g => (g.wait, g.copies.map fun c => (c.kind, c.coords))) =
      some (.probe 100, [(1, [0])]) ∧
    ((after (.cpytStore 112 64 66 68 0 false false false false false) descLab).map fun g => (g.wait, g.copies.map fun c => (c.kind, c.e0))) =
      some (.probe 100, [(2, 8)]) := by decide +kernel

/-- R168: each lane's element, from coordinate 5 in lane 0 on. -/
theorem test_witness_tensor_loads :
    ((after (.ldt 15 8 4 112 0 0 0 0 false false) descLab).map fun g => (g.trapcause, g.ops.map fun o => o.lanes.map (·.addr))) =
      some (0, [(List.range 8).map fun l => BitVec.ofNat 64 (0x50000 + 4 * (l + 5))]) ∧
    ((after (.stt 15 5 4 112 0 0 0 0 false false) descLab).map fun g => g.ops.map fun o => (o.lanes.map (·.data)).head?) =
      some [some [7, 0, 0, 0]] := by decide +kernel

/-- A landing barrier at stash offset 64: QUOTA 8, PEND 8, COUNT 2, LEFT 1, GEN 5. -/
def barrierMem (pend left gen flags : Nat) : Cells 8 :=
  writeNum (writeNum (writeNum (writeNum (writeNum (writeNum (placedMem [0] 0) (stashLoc 1 88) 8 8) (stashLoc 1 80) 8 pend) (stashLoc 1 78) 2 2)
    (stashLoc 1 76) 2 left) (stashLoc 1 72) 4 gen) (stashLoc 1 64) 8 flags

/-- s0 is 64, and s1 is x. -/
def barrierLab (x : Word) (pend left gen flags : Nat) : State :=
  { lab { group1 with hdr := clause .sys, s := [(0, 64), (1, x)] } with mem := barrierMem pend left gen flags }

/-- PEND, LEFT, GEN and the flags after an instruction. -/
def barrierAfter (i : Instr) (s : State) : Option (Nat × Nat × Nat × Nat) :=
  (next i s).map fun u => (leNat (readBytes u.mem (stashLoc 1 80) 8), leNat (readBytes u.mem (stashLoc 1 76) 2),
    leNat (readBytes u.mem (stashLoc 1 72) 4), leNat (readBytes u.mem (stashLoc 1 64) 8))

/-- R263: BINIT with COUNT at 1 and 65535 and past both ends. -/
theorem test_witness_binit :
    barrierAfter (.binit 64 65 112) (barrierLab 1 7 7 7 3) = some (0, 1, 0, 0) ∧ barrierAfter (.binit 64 65 112) (barrierLab 65535 7 7 7 3) = some (0, 65535, 0, 0) ∧
    ((after (.binit 64 65 112) (barrierLab 0 7 7 7 3)).map fun g => (g.trapcause, g.trapinfo)) = some (0x31, 64) ∧
    ((after (.binit 64 65 112) (barrierLab 65536 7 7 7 3)).map (·.trapcause)) = some 0x31 := by decide +kernel

/-- R261 to R263: BEXP; BARV that leaves bytes pending, that closes the phase, and of a barrier whose LEFT is 0. -/
theorem test_witness_barv :
    barrierAfter (.bexp 64 65) (barrierLab 3 8 1 5 0) = some (11, 1, 5, 0) ∧ barrierAfter (.barv 4 64 65) (barrierLab 3 8 1 5 0) = some (11, 0, 5, 0) ∧
    barrierAfter (.barv 4 64 65) (barrierLab 0 0 1 5 1) = some (8, 2, 6, 2) ∧
    ((after (.barv 4 64 65) (barrierLab 0 0 1 5 0)).map fun g => (cellGet g.s 4, g.idx)) = some (5, 1) ∧
    ((after (.barv 4 64 65) (barrierLab 0 8 0 5 0)).map fun g => (g.trapcause, g.trapinfo)) = some (0x31, 64) := by decide +kernel

/-- R263: no phase closed, one, two with an error, and 2^31. -/
theorem test_witness_bwait :
    ((after (.bwait 4 64 65) (barrierLab 5 8 1 5 0)).map (·.idx)) = some 0 ∧
    ((after (.bwait 4 64 65) (barrierLab 4 8 1 5 0)).map fun g => (g.idx, cellGet g.s 4)) = some (1, 0) ∧
    ((after (.bwait 4 64 65) (barrierLab 3 8 1 5 2)).map fun g => (g.idx, cellGet g.s 4)) = some (1, 3) ∧
    ((after (.bwait 4 64 65) (barrierLab 0x80000005 8 1 5 0)).map (·.idx)) = some 0 ∧
    ((after (.bwait 4 64 65) (barrierLab 0x80000006 8 1 5 0)).map (·.idx)) = some 1 := by decide +kernel

/-- Two groups of one team. -/
def pairLab (arrived : List Nat) (w : Wait) : State :=
  { lab group1 with
    teams := [(1, { freshTeam 1 0 0 0 0 0 8 4096 false false [1, 2] [0] with bart := if arrived = [] then [] else [(0, arrived)] })]
    groups := [(1, group1), (2, { group1 with grpid := 1, wait := w })] }

theorem test_witness_bart :
    ((next (.bart 0) (pairLab [] .none)).map fun u => ((tblGet u.groups 1).map (·.wait), (tblGet u.teams 1).map (·.bart))) =
      some (some (.bart 0), some [(0, [1])]) ∧
    ((next (.bart 0) (pairLab [2] (.bart 0))).map fun u => (u.groups.map fun e => (e.2.wait, e.2.idx))) = some [(.none, 1), (.none, 1)] ∧
    ((next (.barc 1) (lab group1)).map fun u => (u.groups.map fun e => (e.2.wait, e.2.idx))) = some [(.none, 1)] ∧
    clusterTeam (lab group1) 1 0 = some 1 ∧ clusterSize (lab group1) 1 = 1 := by decide +kernel

/-- R260: a counter at its threshold and above it, and an error that pends on it. -/
theorem test_witness_waitc :
    let g (n : Nat) : Group := { group1 with ctr := [n, 0, 0, 0, 0, 0, 0] }
    let err : RepErr := { cause := some { code := 0x1A, info := 1 }, more := 0 }
    ((after (.waitc 1 3 0 0) (lab (g 3))).map fun g => (g.wait, g.idx)) = some (.none, 1) ∧
    ((after (.waitc 1 3 0 0) (lab (g 4))).map fun g => (g.wait, g.idx)) = some (.waitc [(1, 3)], 0) ∧
    ((after (.waitc 1 3 0 0) (lab { g 3 with repErr := [(1, err)] })).map fun g => g.trapcause) = some 0x11A := by decide +kernel

/-- A schedule table at 0x44000 whose first set is 21, 22. -/
def schedLab (cursor : Nat) : State :=
  { lab group1 with
    mem := writeNum (writeNum (placedMem [0] 0) 0x44000 4 21) 0x44004 4 22
    grids := [(1, { grid0 with launch := { launch0 with sched := 0x44000, schlen := 2 }, cursors := [(0, cursor)] })] }

theorem test_witness_schnext :
    ((after (.schnext 4) (lab group1)).map fun g => cellGet g.s 4) = some 0xFFFFFFFF ∧
    ((after (.schnext 4) (schedLab 2)).map fun g => cellGet g.s 4) = some 0xFFFFFFFF ∧
    ((next (.schnext 4) (schedLab 1)).map fun u => ((tblGet u.groups 1).map fun g => cellGet g.s 4, (tblGet u.grids 1).map (·.cursors))) =
      some (some 22, some [(0, 2)]) := by decide +kernel

/-- A queue at 0x46000 of SIZE n with WIDX w, RIDX 0 and its ring at 0x48000, and a packet of kind 4 at stash offset 0. -/
def queueLab (w n : Nat) : State :=
  { lab { group1 with s := [(2, 0x46000)] } with
    mem := writeNum (writeNum (writeNum (writeNum (placedMem [0] 0) 0x46000 8 w) 0x46048 4 n) 0x46050 8 0x48000) (stashLoc 1 0) 4 0x80000004 }

/-- R268: sizes 4 and 65536 and one past each end, a full queue, and a claim of slot 1. -/
theorem test_witness_qput :
    ((next (.qput 4 66 112 false) (queueLab 1 4)).map fun u => ((tblGet u.groups 1).map (·.wait), readNum u.mem 0x46000 8, readNum u.mem 0x48040 4)) =
      some (some (.qputValid 4 0x48040 1 4), 2, 4) ∧
    ((next (.groupWaitMet 1) (lab { group1 with wait := .qputValid 4 0x48040 1 4 })).map fun u =>
      ((tblGet u.groups 1).map fun g => (g.idx, cellGet g.s 4), readNum u.mem 0x48040 4)) = some (some (2, 1), 0x80000004) ∧
    ((after (.qput 4 66 112 false) (queueLab 4 4)).map fun g => (g.idx, cellGet g.s 4)) = some (2, 0xFFFFFFFF) ∧
    ((after (.qput 4 66 112 true) (queueLab 4 4)).map fun g => (g.idx, g.wait)) = some (0, .qputFull 4 0x46000 0) ∧
    ((after (.qput 4 66 112 true) (queueLab 3 65536)).map fun g => g.wait) = some (.qputValid 4 0x480C0 3 4) ∧
    ((after (.qput 4 66 112 true) (queueLab 3 131072)).map fun g => g.trapcause) = some 0x32 ∧
    ((after (.qput 4 66 112 true) (queueLab 1 2)).map fun g => g.trapcause) = some 0x32 := by decide +kernel

/-- s0:s1 is the address, s2:s3 the compare value and s4:s5 the deadline. -/
def waitaLab (a cmp dl : Word) : State :=
  { lab { group1 with s := [(0, a), (2, cmp), (4, dl)] } with mem := writeNum (placedMem [0] 0) 0x20000 8 9 }

/-- R269: a value that differs, one that is equal before the deadline (LEASECLK is 1000) and at it, and two addresses that trap. -/
theorem test_witness_waita :
    ((after (.waita 8 64 66) (waitaLab 0x20000 8 2000)).map fun g => (g.idx, cellGet g.s 8)) = some (1, 9) ∧
    ((after (.waita 8 64 66) (waitaLab 0x20000 9 1001)).map fun g => (g.idx, g.wait)) = some (0, .waita 8 0x20000 9 1001 0) ∧
    ((after (.waita 8 64 66) (waitaLab 0x20000 9 1000)).map fun g => (g.idx, cellGet g.s 8)) = some (1, 9) ∧
    ((after (.waita 8 64 66) (waitaLab 0x20004 9 1000)).map fun g => (g.trapcause, g.trapinfo)) = some (0x12, 0x20004) ∧
    ((after (.waita 8 64 66) (lab { group1 with s := [(1, 0xFE0000)] })).map fun g => g.trapcause) = some 0x10 := by decide +kernel

/-! ### Graphics and sequences -/

/-- R224, R228: a descriptor at 0x20000 named by s2:s3, and the record addresses of v6 and v7 moved to multiples of 128. -/
def gfxGroup : Group :=
  { group1 with hdr := clause .gfx, s := [(2, 0x20000)], v := (List.range 8).map (fun l => (384 + l, BitVec.ofNat 32 (128 * l + 0x20000))) }

theorem test_witness_textures :
    ((after (.texf 15 8 12 66) (lab gfxGroup)).map fun g => (counter g 3, g.ops.map fun o => (o.lanes.length, o.dests.length))) = some (1, [(8, 32)]) ∧
    ((after (.texs 15 8 12 66 68 20) (lab gfxGroup)).map fun g => (counter g 3, g.ops.map fun o => o.lanes.length)) = some (1, [8]) ∧
    ((after (.texq 15 8 112 66) (lab gfxGroup)).map fun g => g.ops.map fun o => o.dests.length) = some [32] ∧
    ((after (.rtbox 15 8 12 6) (lab gfxGroup)).map fun g => g.ops.map fun o => o.dests.length) = some [40] ∧
    ((after (.rttri 15 8 12 6 true 0) (lab gfxGroup)).map fun g => g.ops.map fun o => o.lanes.map fun a => a.data.length) =
      some [List.replicate 8 48] := by decide +kernel

theorem test_witness_generators :
    lane (.rng 15 8 66 4) (lab gfxGroup) 8 0 = some (Fp.rng32 0x20000 0) ∧ ((after (.rng 15 8 66 4) (lab gfxGroup)).map fun g => (g.idx, g.q)) = some (1, []) := by
  decide +kernel

/-- A slot 1 that group 1 has open, with a member in each of lanes 0 to 3, whose GEN is 7; EXEC names those lanes. -/
def seqLane0 (l : Nat) : SeqLane :=
  { member := true, seqid := BitVec.ofNat 64 (40 + l), next := 5, gen := 7, gen0 := 6, replay := false, pending := false, opener := 0, forcedRoute := 0,
    forcedDigest := 0, keep := false }

def seqLab (e : Word64) : State :=
  { lab { group1 with hdr := clause .gfx, exec := e } with
    teams := [(1, { team0 with seqs := [(1, { isOpen := true, owner := 1, lanes := (List.range 4).map fun l => (l, seqLane0 l) })] })] }

/-- R239: RNG.seq with its members, with a lane that is none, of a slot that is not open, and with ACTIVE empty. -/
theorem test_witness_rng_seq :
    ((next (.rngSeq 15 8 66 1) (seqLab 0xF)).map fun u =>
      ((tblGet u.groups 1).map fun g => cellGet g.v (laneCell 8 2), (tblGet u.teams 1).bind fun t => (tblGet t.seqs 1).bind fun x =>
        (tblGet x.lanes 3).map (·.gen))) = some (some (Fp.rng32 0x400000003 7), some 8) ∧
    ((after (.rngSeq 15 8 66 1) (seqLab 0x1F)).map fun g => (g.trapcause, g.trapinfo)) = some (0x29, 1) ∧
    ((after (.rngSeq 15 8 66 2) (seqLab 0xF)).map fun g => (g.trapcause, g.trapinfo)) = some (0x29, 2) ∧
    ((after (.rngSeq 15 8 66 1) (seqLab 0)).map fun g => g.idx) = some 1 := by decide +kernel

/-- R240: v10 to v15 hold SEQID, NEXT and GEN: distinct in lanes 0 to 3 by lane number. -/
def opening (e : Word64) (same : Bool) : Group :=
  { group1 with
    hdr := clause .gfx
    exec := e
    v := (List.range 8).map fun l => (640 + l, if same then 9 else BitVec.ofNat 32 (l + 50)) }

theorem test_witness_sopen :
    ((next (.sopen 15 2 10) (lab (opening 0xF false))).map fun u =>
      ((tblGet u.groups 1).map fun g => (counter g 7, g.idx), (tblGet u.teams 1).bind fun t => (tblGet t.seqs 2).map fun x => (x.isOpen, x.lanes.length))) =
      some (some (1, 2), some (true, 4)) ∧
    ((after (.sopen 15 2 10) (lab (opening 0xF true))).map fun g => (g.trapcause, g.trapinfo)) = some (0x29, 2) ∧
    ((after (.sopen 15 1 10) (seqLab 0xF)).map fun g => g.trapcause) = some 0x29 ∧
    ((next (.sopenReplay 15 2 10) (lab (opening 1 false))).map fun u => (tblGet u.teams 1).bind fun t => (tblGet t.seqs 2).map fun x =>
      x.lanes.map fun e => e.2.pending) = some (some [true]) := by decide +kernel

theorem test_witness_sequences :
    ((after (.sopenFetch 15 1 20) (seqLab 0xF)).map fun g => g.ops.map fun o => (o.stage, o.writes.length)) = some [(.complete, 4)] ∧
    ((after (.sopenFetch 15 2 20) (seqLab 0xF)).map fun g => g.trapcause) = some 0x29 ∧
    ((after (.sopenFetch 15 2 20) (seqLab 0)).map fun g => (g.trapcause, counter g 7)) = some (0, 1) ∧
    ((after (.sclose 1) (seqLab 0xF)).map fun g => (counter g 7, g.ops.map (·.need))) = some (1, [4]) ∧
    ((after (.sclose 0) (seqLab 0xF)).map fun g => g.trapcause) = some 0x29 := by decide +kernel

/-- R244: a route to ring sink 1 of name 0, and R246: a mark with the bound 4, below NEXT. -/
theorem test_witness_semit_smark :
    ((next (.semit 15 1 0 20 112 false) (seqLab 0xF)).map fun u => ((tblGet u.groups 1).map fun g => (g.trapcause, counter g 7), u.emissions.length)) =
      some (some (0, 1), 4) ∧
    ((after (.smark 15 1 66) { seqLab 0xF with groups := [(1, { group1 with hdr := clause .gfx, exec := 0xF, s := [(2, 4)] })] }).map fun g =>
      (g.trapcause, g.ops.map (·.need))) = some (0, [4]) ∧
    ((after (.semit 15 0 0 20 113 false) (seqLab 0xF)).map fun g => g.trapcause) = some 0x29 ∧
    ((after (.smark 15 0 66) (seqLab 0xF)).map fun g => g.trapcause) = some 0x29 := by decide +kernel

/-! ### Traps and system registers -/

theorem test_witness_trap_entry :
    group1.handler = false ∧ group1.tx = none ∧ trapVec (lab group1) 0 0 = 0x10000 ∧
    ((tblGet (trapAt (lab { group1 with exec := 0xF0, idx := 2 }) 1 0x12 9).groups 1).map fun g =>
      ([cellGet g.k 0, cellGet g.k 1, cellGet g.k 2, cellGet g.k 3, cellGet g.k 4], g.exec, g.pc)) =
      some ([0x10000, 0, 2, 0x12, 0xF0], 0xFF, 0x10000) := by decide +kernel

/-- R276: with a TRAPVEC of 0 a trap is a double fault, and the group ends. -/
theorem test_double_fault : ((after (.trap 15 7) { lab group1 with trapvec := [] }).map fun g => g.ended) = some true := by decide +kernel

theorem test_witness_software_traps :
    ((after (.trap 15 7) (lab group1)).map fun g => (g.trapcause, g.trapinfo, cellGet g.k 2)) = some (0x38, 7, 1) ∧
    ((after (.trap 15 7) (lab { group1 with exec := 0 })).map fun g => g.idx) = some 1 ∧
    ((after (.bkpt 15 7) (lab group1)).map fun g => (g.trapcause, g.trapinfo)) = some (0x39, 7) ∧
    ((after (.bkpt 15 7) { lab group1 with trapctl := [] }).map fun g => (g.trapcause, g.idx)) = some (0, 1) ∧
    bkEnabled (lab group1) 0 0 = true := by decide +kernel

/-- A handler whose k registers return to word k2 of the clause at 0x10000, whose COUNT is 1, with an EXEC of 0x10F. -/
def handlerGroup (a k2 : Word) : Group := { group1 with handler := true, k := [(0, a), (2, k2), (4, 0x10F)] }

theorem test_witness_trap_return :
    ((after .tret (lab (handlerGroup 0x10000 1))).map fun g => (g.handler, g.exec, g.pc, g.hdr)) = some (false, 0xF, 0x10008, none) ∧
    ((after .tret (lab (handlerGroup 0x10000 0))).map fun g => (g.handler, g.pc, g.idx)) = some (false, 0x10000, 0) ∧
    ((after .tret (lab (handlerGroup 0x10000 2))).map fun g => g.ended) = some true ∧
    ((after .tret (lab (handlerGroup 0x10002 0))).map fun g => g.ended) = some true ∧
    ((after .tret (lab (handlerGroup 0x20000 0))).map fun g => g.ended) = some true ∧
    ((after .tret (lab group1)).map fun g => (g.trapcause, g.trapinfo)) = some (0x02, 0x72F00000) := by decide +kernel

/-- The same package with a context that is not privileged. -/
def userLab (g : Group) : State := { lab g with mem := writeNum (placedMem [0] 0) 0x100A 1 1 }

theorem test_witness_control_registers :
    ctxPriv (lab group1) 0 0 = true ∧ ctxPriv (userLab group1) 0 0 = false ∧
    ((after (.csrr 4 0) (lab group1)).map fun g => cellGet g.s 4) = some 0x10000 ∧
    ((after (.csrr 4 0x10) (lab group1)).map fun g => cellGet g.s 4) = some 256 ∧
    ((after (.csrr 4 0x20) (userLab group1)).map fun g => (g.trapcause, g.trapinfo)) = some (0x3A, 0x20) ∧
    ((after (.csrw 66 0x10) (userLab group1)).map fun g => g.trapcause) = some 0x3A ∧
    ((next (.csrw 66 0x10) (lab group1)).map fun u => (tblGet u.dies 0).map (·.leaselen)) = some (some 3) ∧
    ((next (.csrw 66 0) (userLab group1)).map fun u => cellGet u.trapvec 0) = some 0x400000003 ∧
    ((next (.csrw 67 1) (lab group1)).map fun u => cellGet u.trapctl 0) = some 0 ∧
    ((next (.csrw 66 0x30) (lab group1)).map fun u => (tblGet u.cores 0).map (·.test)) = some (some true) := by decide +kernel

/-- A core in test mode with word 0 of row 3 of its register file written. -/
def diagLab : State :=
  { lab group1 with cores := [(0, { freshCore with test := true, rf := [(diagCell 0 [] 0 3 0, 0xABCD)] })] }

theorem test_witness_diagnostics :
    diagRowOk 0 3 = true ∧ ((after (.diagrd 4 66 0 0) diagLab).map fun g => cellGet g.s 4) = some 0xABCD ∧
    ((after (.diagrd 4 66 0 0) (lab group1)).map fun g => (g.trapcause, g.trapinfo)) = some (0x3B, 3) ∧
    ((after (.diagwr 66 67 0 0) (lab group1)).map fun g => g.trapcause) = some 0x3B ∧
    ((next (.diagwr 66 67 1 0) diagLab).map fun u => (tblGet u.cores 0).map fun c => tblGet c.stashRaw (diagCell 0 [] 1 3 0)) = some (some (some 4)) ∧
    ((next (.diagwr 66 67 2 0) diagLab).map fun u => (tblGet u.cores 0).map fun c => cellGet c.repair 3) = some (some (repairEntry 4)) := by
  decide +kernel

theorem test_witness_exit :
    ((next .exit (pairLab [] .none)).map fun u => (u.groups.map fun e => e.2.ended)) = some [true, false] ∧
    (freshTeam 1 0 0 0 0 0 8 4096 false false [1, 2] [0]).hist = false ∧ group1.repErr = [] := by decide +kernel

/-! ### Events of running groups and engines -/

/-- A load that returns 0xAB into v9 of lane 2 and orders flag 0x81, behind a store that is not performed. -/
def doneLoad : Op :=
  { ldOp with uid := 11, stage := .complete, dests := [.v 9 2], writes := [(.v 9 2, 0xAB)], flags := 0x81 }

def retireGroup (st : Stage) : Group :=
  { group1 with
    ctr := [1, 1, 0, 0, 0, 0, 0]
    fpflags := 0x10
    ops := [{ ldOp with uid := 10, ctr := .st, kind := none }, { doneLoad with stage := st }] }

theorem test_witness_retire :
    (retireGroup .complete).ended = false ∧ (retireGroup .complete).ctr.length = 7 ∧ (retireGroup .complete).contested = [] ∧
    ((next (.operationRetire 1 1) (lab (retireGroup .complete))).bind fun u => (tblGet u.groups 1).map fun g =>
      (g.ops.map (·.uid), counter g 1, counter g 2, g.fpflags)) = some ([10], 0, 1, 0x11) ∧
    ((next (.operationRetire 1 1) (lab (retireGroup .complete))).bind fun u => (tblGet u.groups 1).map fun g =>
      cellGet g.v (64 * 9 + 2)) = some 0xAB ∧
    next (.operationRetire 1 1) (lab (retireGroup .issued)) = some (lab (retireGroup .issued)) ∧
    next (.operationRetire 1 7) (lab (retireGroup .complete)) = some (lab (retireGroup .complete)) := by decide +kernel

/-- A group between clauses, whose header word at 0x10000 is w. -/
def betweenLab (w : Nat) (g : Group) : State := { lab { g with hdr := none, idx := 0 } with mem := writeNum (placedMem [0] 0) 0x10000 4 w }

/-- An error that pends on a counter. -/
def pendErr : RepErr := { cause := some { code := 0x1A, info := 1 }, more := 0 }

def betweenGroup : Group := { group1 with hdr := none, idx := 0 }

def betweenFetch : State × Option Nat := fetchWord (betweenLab 0x0101 group1) 1 betweenGroup 0x10000

theorem test_witness_dispatch_premises :
    Selected (betweenLab 0x0101 group1) betweenGroup ∧ orderedMode (betweenLab 0x0101 group1) betweenGroup = false ∧
    betweenFetch.2 = some 0x0101 ∧ betweenFetch.1.cur = 1 ∧ tblGet betweenFetch.1.groups 1 = some betweenGroup ∧
    decodeHeader 0x0101 = some { cls := .alu, count := 1, waits := [(1, 0)] } ∧ decodeHeader 0x61 = none := by
  unfold Selected; decide +kernel

/-- R41, R43, R276, R370: an ALU clause of one word that waits for LD to be 0; the same after a restore at its end; and a header of a reserved
class. -/
theorem test_witness_dispatch :
    ((after .clauseDispatch (betweenLab 0x0101 group1)).map fun g => (g.hdr.isSome, g.trapcause)) = some (true, 0) ∧
    ((next .clauseDispatch { betweenLab 0x0101 group1 with groups := [(1, { group1 with hdr := none, idx := 1 })] }).bind fun u =>
      (tblGet u.groups 1).map fun g => (g.hdr, g.idx, g.pc)) = some (none, 0, 0x10008) ∧
    ((after .clauseDispatch (betweenLab 0x61 group1)).map fun g => g.trapcause) = some 1 := by decide +kernel

/-- R302: at a visit the error that pends on LD is raised; while the counter is 1 it is not. -/
def pendingGroup (c : Nat) : Group := { stepGroup with repErr := [(1, pendErr)], ctr := [c, 0, 0, 0, 0, 0, 0] }

theorem test_witness_pending_error :
    let h : Header := { cls := .alu, count := 1, waits := [(1, 0)] }
    onAccess h.cls = (visit0 stepGroup).access ∧
    ((tblGet (visitWord (lab (pendingGroup 0)) (visit0 stepGroup) (pendingGroup 0) h).state.groups 1).map (·.trapcause)) = some 0x11A ∧
    ((tblGet (visitWord (lab (pendingGroup 1)) (visit0 stepGroup) (pendingGroup 1) h).state.groups 1).map (·.trapcause)) = some 0 := by
  decide +kernel

/-- A performed store whose write of line 900 has no snoop outstanding. -/
def openStore : Op := { ldOp with uid := 10, ctr := .st, kind := none, stage := .performed, ctime := 77 }

theorem test_witness_acknowledge :
    findOp { group1 with ops := [openStore] } 10 = some openStore ∧ openStore.ctr ≠ .cp ∧ acquires openStore.order = false ∧
    quiet (lab { group1 with ops := [openStore] }) { group1 with ops := [openStore] } openStore = true ∧
    ((next (.writeAcknowledge 1 10) (lab { group1 with ops := [openStore] })).bind fun u => (tblGet u.groups 1).map fun g =>
      (g.ops.map (·.stage), g.chz)) = some ([Stage.complete], 77) := by decide +kernel

/-- R162: the load of group1 after its translations have ended. -/
theorem test_witness_translation :
    (((next (.ldLong 0 false (ml 8 6 0)) (lab group1)).bind (next (.translationComplete 1))).bind fun u => (tblGet u.groups 1).map fun g =>
      (g.wait, g.idx, g.ops.map (·.stage))) = some (.none, 2, [Stage.complete]) := by decide +kernel

/-- R297, R288, R317: a special-function result at clock 4000 that is due then and one that is not; the buffered line of a store of clock 3936; a
lease of tick 1000 and one of tick 1001; a rotation of an empty core, and its access half. -/
theorem test_witness_timers :
    ((next (.sfuResult 1) (lab { group1 with sfuUntil := 4000 })).bind fun u => (tblGet u.groups 1).map (·.sfuUntil)) = some 0 ∧
    ((next (.sfuResult 1) (lab { group1 with sfuUntil := 4001 })).bind fun u => (tblGet u.groups 1).map (·.sfuUntil)) = some 4001 ∧
    ((next (.wcbTimeout 1 5) (lab { group1 with wcb := [{ line := 5, bytes := [], last := 3936 }] })).bind fun u =>
      (tblGet u.groups 1).map (·.wcb.length)) = some 0 ∧
    ((next (.wcbTimeout 1 5) (lab { group1 with wcb := [{ line := 5, bytes := [], last := 3937 }] })).bind fun u =>
      (tblGet u.groups 1).map (·.wcb.length)) = some 1 := by decide +kernel

def leasedLab (expiry : Nat) : State :=
  { lab group1 with cores := [(0, { freshCore with l1 := [{ asid := 1, va := 7, pa := 900, bytes := [], expiry := expiry, ctime := 0, writable := true }] })] }

theorem test_witness_leases :
    ((next (.l1LeaseExpiry 0 900) (leasedLab 1000)).bind fun u => (tblGet u.cores 0).map (·.l1.length)) = some 0 ∧
    ((next (.l1LeaseExpiry 0 900) (leasedLab 1001)).bind fun u => (tblGet u.cores 0).map (·.l1.length)) = some 1 := by decide +kernel

def rotatedLab : State := { lab group1 with cores := [(0, { freshCore with compute := [(0, { start := 3998, length := 4, slots := [(0, 1)] })] })] }

theorem test_witness_rotations :
    computeDue (tblGet freshCore.compute 0) 4000 = true ∧
    ((next (.rotationStart 0 0 false) (lab group1)).bind fun u => (tblGet u.cores 0).map fun c => c.compute.map fun e => (e.2.start, e.2.length)) =
      some [(4000, 4)] ∧
    ((next (.rotationStart 0 0 true) rotatedLab).bind fun u => (tblGet u.cores 0).map fun c => c.access.map fun e => (e.2.start, e.2.length)) =
      some [(4000, 4)] := by decide +kernel

/-- R425: at clock 4 · 60000 an expander that has been silent since tick 0 gives the load up. -/
def silentLoad : Op := { ldOp with uid := 10, stage := .performed, since := some 0, dests := [.v 9 2] }

theorem test_witness_tier2_timeout :
    ((next (.tier2Timeout 1 10) { lab { group1 with ops := [silentLoad] } with clock := 240000 }).bind fun u => (tblGet u.groups 1).map fun g =>
      g.ops.map fun o => (o.stage, o.err, o.writes.map (·.1))) =
      some [(Stage.complete, some { code := 0x1A, info := 1 }, [.v 9 2])] ∧
    next (.tier2Timeout 1 10) { lab { group1 with ops := [silentLoad] } with clock := 239999 } =
      some { lab { group1 with ops := [silentLoad] } with clock := 239999 } := by decide +kernel

/-- R320: an acquire whose access is complete lets its group go on. -/
theorem test_witness_acquire :
    ((next (.groupWaitMet 1) (lab { group1 with wait := .acquire 10, ops := [{ openStore with stage := .complete }] })).bind fun u =>
      (tblGet u.groups 1).map (·.wait)) = some .none ∧
    ((next (.groupWaitMet 1) (lab { group1 with wait := .acquire 10, ops := [openStore] })).bind fun u =>
      (tblGet u.groups 1).map (·.wait)) = some (.acquire 10) := by decide +kernel

/-- R181: a performed STF whose flag is at location 0x20000: at tick ctime + 2 the flag counts. -/
def flagOp (c : Nat) : Op := { ldOp with uid := 10, ctr := .st, kind := some (.flagged 4 0), stage := .performed, need := 1, slot := 0x20000, ctime := c }

theorem test_witness_flag :
    linesAcked { group1 with ops := [flagOp 998] } (flagOp 998) = true ∧
    fabricOpen (lab { group1 with ops := [flagOp 998] }) 10 = false ∧
    (loadAt (lab { group1 with ops := [flagOp 998] }) (some 1) 0x20000 8).2.bad = false ∧
    ((next (.stfFlagUpdate 1 10) (lab { group1 with ops := [flagOp 998] })).map fun u => readNum u.mem 0x20000 8) = some 1 ∧
    ((next (.stfFlagUpdate 1 10) (lab { group1 with ops := [flagOp 999] })).map fun u => readNum u.mem 0x20000 8) = some 0 := by decide +kernel

/-! ### Faults, bindings and aborts -/

/-- Fault 5 of group 1 of a party, whose record stands at 0x20000 with a RESP. -/
def faultLab (party resp : Nat) (w : Wait) : State :=
  { lab { group1 with wait := w, feed := some { feed1 with parked := true }, ops := [{ openStore with stage := .issued }] } with
    mem := writeNum (placedMem [0] 0) 0x20020 4 resp
    faults := [(5, { group := 1, party := party, va := 0x700, write := true, cause := 0, level := 1, die := 0, site := 0, pte := 0, mask := 0xF, slot := some 0x20000 })] }

def answered (party resp : Nat) (w : Wait) : Option (Wait × Word) :=
  (next (.faultResponse 5) (faultLab party resp w)).bind fun u => (tblGet u.groups 1).map fun g => (g.wait, g.trapcause)

theorem test_witness_fault_response :
    answered 0 0 (.parked 10 5) = some (.parked 10 5, 0) ∧ answered 0 1 (.parked 10 5) = some (.translate 10, 0) ∧
    (answered 0 2 (.parked 10 5)).map (·.2) = some 0x15 ∧ answered 1 1 (.parkedWhole 5) = some (.none, 0) ∧
    atHandler (faultLab 1 1 (.parkedWhole 5)) group1 = false ∧ (answered 1 2 (.parkedWhole 5)).map (·.2) = some 0x15 ∧
    ((next (.faultResponse 5) (faultLab 2 1 .none)).bind fun u => (tblGet u.groups 1).map fun g => (g.feed.map (·.parked), u.faults.length)) =
      some (some false, 0) := by decide +kernel

theorem test_witness_fault_retry :
    next (.faultQueueRetry 5) (faultLab 0 0 (.parked 10 5)) = some (faultLab 0 0 (.parked 10 5)) ∧
    ((tblGet (faultLab 0 0 (.parked 10 5)).faults 5).map fun r => { r with slot := none }).isSome = true := by decide +kernel

/-- R186: the first touch of a line of boundLab, and its recall clean and dirty. -/
theorem test_witness_first_touch :
    ((next (.bindFirstTouch 1 0 0) { boundLab with mem := writeNum boundLab.mem (128 * 0x600) 4 77 }).map fun u =>
      (readNum u.mem (stashLoc 1 0) 4, (tblGet u.owners 0x600).map (·.dirty))) = some (77, some false) ∧
    ((next (.bindRecall 0x600) { boundLab with mem := writeNum boundLab.mem (stashLoc 1 0) 4 78
                                               owners := [(0x600, { team := 1, slot := 0, off := 0, dirty := true })] }).map fun u =>
      (readNum u.mem (128 * 0x600) 4, u.owners.length)) = some (78, 0) ∧
    ((next (.bindRecall 0x600) { boundLab with mem := writeNum boundLab.mem (stashLoc 1 0) 4 78
                                               owners := [(0x600, { team := 1, slot := 0, off := 0, dirty := false })] }).map fun u =>
      (readNum u.mem (128 * 0x600) 4, u.owners.length)) = some (0, 0) := by decide +kernel

/-- R190, R191: an abort of cause 1 and one of cause 5. -/
theorem test_witness_abort :
    ((next (.txAbort 1 1) (lab { group1 with tx := some open0 })).bind fun u => (tblGet u.groups 1).map fun g =>
      (g.tx, g.exec, g.pc, g.hdr, cellGet g.s 2)) = some (none, 0xF, 0x10020, none, 0x10001) ∧
    ((next (.txAbort 1 5) (lab { group1 with tx := some open0 })).bind fun u => (tblGet u.groups 1).map fun g => cellGet g.s 2) = some 0x10005 := by
  decide +kernel

/-! ### Engines -/

/-- The MMA of format 9 on tile 0, at pass 2. -/
def passOp : MxOp :=
  { uid := 10, instr := .mma 0 4 6 9 false true 0 104, vals := [0, 0, 0, 0], a := some { bytes := [], fmt := 9, ns := true, words := 0 }, pass := 2, b := some [] }

def passTeam : Team := { quartetTeam passOp.instr with quartets := [(0, { quartet0 passOp.instr with latch := [], ops := [passOp] })] }

theorem test_witness_pass : isMma passOp.instr = true ∧ nextPass passTeam = some 0 ∧ passOp.step < mmaSteps passOp := by decide +kernel

/-- The long MMA that takes A from the queue of f1 of a member each; each feeds twice two words. -/
def takeOp : MxOp := { uid := 10, instr := .mmaLong 0 1 2 9 true 0 0 104 105 106, vals := [0, 0, 1], a := none }

def feeding (present : Bool) : Feed :=
  let e : FeedEntry := { lanes := [], present := present, word := 0, at_ := feed1.place }
  { feed1 with queues := [[], [e, e], [], []] }

def takeLab (present : Bool) : State :=
  { quartetLab takeOp.instr with
    teams := [(1, { passTeam with quartets := [(0, { freshQuartet with ops := [takeOp] })] })]
    groups := (List.range 4).map fun j => (j + 1, { member j with feed := some (feeding present) }) }

theorem test_witness_take : takeGate (takeLab true) 1 0 takeOp.instr = .all ∧ takeGate (takeLab false) 1 0 takeOp.instr = .wait ∧
    next (.mmaFeedTake 1 0) (takeLab false) = some (takeLab false) := by decide +kernel

theorem test_witness_feed_return :
    ((next (.feedLoadReturn 1 1) (takeLab false)).bind fun u => (tblGet u.groups 1).map fun g => (feedQueue g 1).map (·.present)) = some [true, false] ∧
    decodeFeed 0x30000020 = .ok (.fstep 0 32) ∧
    ((next (.fennelServe 1) (feedGroupLab feed1)).bind fun u => (tblGet u.groups 1).bind fun g => g.feed.map fun f =>
      (f.place.pos, f.place.a.getD 0 0)) = some (2, 0x120) := by decide +kernel

/-- A send of quartet 0 whose payload is written at tick c, with its flag at 0x20000 of name 0. -/
def sendLab (c : Nat) : State :=
  let o : Op := { ldOp with uid := 10, ctr := .mx, kind := none, stage := .performed, need := 1, engC := c }
  { quartetLab (.accz 1) with
    groups := (List.range 4).map fun j => (j + 1, { member j with ops := [o], ctr := [0, 0, 0, 1, 0, 0, 0] })
    sends := [(3, { team := 1, quartet := 0, op := 10, name := 0, addr := 0x20000, bytes := [], written := true })] }

theorem test_witness_send :
    ((next (.sendFlagUpdate 3) (sendLab 998)).map fun u => (readNum u.mem 0x20000 8, u.sends.length, (u.groups.map fun e => e.2.ops.map (·.stage)).head?)) =
      some (1, 0, some [Stage.complete]) ∧
    next (.sendFlagUpdate 3) (sendLab 999) = some (sendLab 999) := by decide +kernel

/-- A probed copy of one row of 256 bytes, of which 128 are written. -/
def copying : Copy :=
  { uid := 20, words := 0, kind := 0, da := 0x20000, sa := 0x30000, rowb := 256, nrow := 1, sstr := 256, dstr := 256, probed := true, offset := 128 }

def copyLab : State := { lab { group1 with copies := [copying], openCopies := [20] } with mem := writeNum (placedMem [0] 0) 0x30080 4 91 }

theorem test_witness_copy_moves :
    copying.total = 256 ∧
    ((next (.barrierPendLower 1 20 4) copyLab).bind fun u => (tblGet u.groups 1).map fun g => (g.copies.map (·.offset), readNum u.mem 0x20080 4)) =
      some ([132], 91) ∧
    ((next (.copyErrorStop 1 20 0) copyLab).bind fun u => (tblGet u.groups 1).map fun g => g.copies.map fun c => (c.done, c.err.map (·.code)))
      = some [(true, some 0x1A)] := by decide +kernel

/-- R178, R256: a multicast of 8 bytes to member 0 whose barrier stands at offset 64. -/
def multicast : Op :=
  { ldOp with uid := 10, ctr := .st, kind := some (.multicast false 4 1 (some 64)), stage := .performed, need := 8, copies := [0], ctime := 5 }

theorem test_witness_multicast_lowers :
    ((next (.barrierPendLower 1 10 0) { lab { group1 with ops := [multicast] } with mem := barrierMem 8 1 5 0 }).bind fun u =>
      (tblGet u.groups 1).map fun g => (g.ops.map (·.need), readNum u.mem (stashLoc 1 80) 8)) = some ([0], 0) := by decide +kernel

/-! ### Ordered mode -/

/-- Groups 1 and 2 of an ordered grid, whose quanta have ended; turns is whose turn of the commit phase is over. -/
def orderedLab (c : Bool) (turns : List Nat) (t : Nat) : State :=
  { pairLab [] .none with
    grids := [(1, { grid0 with launch := { launch0 with ordered := true }, committing := c, turns := turns, commitTime := t })]
    groups := [(1, { group1 with wait := .quantum true, clauses := 64 }), (2, { group1 with wait := .quantum true, clauses := 64, grpid := 1 })] }

theorem test_witness_ordered :
    ((orderedLab false [] 0).groups.all fun e => quantumOver e.2 && e.2.turn == .idle) = true ∧
    ((next (.orderedCommitPhase 1) (orderedLab false [] 0)).map fun u =>
      (u.groups.map fun e => e.2.turn, u.grids.map fun e => (e.2.committing, e.2.turns))) = some ([.granted, .idle], [(true, [])]) ∧
    ((next (.orderedCommitPhase 1) (orderedLab true [0] 0)).map fun u => u.groups.map fun e => e.2.turn) = some [.idle, .granted] ∧
    ((next (.orderedRoundStart 1) (orderedLab true [0, 1] 998)).map fun u => u.grids.map fun e => (e.2.committing, e.2.turns, e.2.round)) =
      some [(false, [], 1)] ∧
    next (.orderedRoundStart 1) (orderedLab true [0, 1] 999) = some (orderedLab true [0, 1] 999) ∧
    commitOpen (orderedLab true [0, 1] 998) 1 = false ∧
    next (.orderedRoundStart 1) (orderedLab true [0] 998) = some (orderedLab true [0] 998) := by decide +kernel

/-! ### Across launches -/

/-- Fields of so many bytes written at a location. -/
def putFields (m : Cells 8) (a : Nat) (fs : List (Nat × Nat × Nat)) : Cells 8 := fs.foldl (fun m f => writeNum m (a + f.1) f.2.1 f.2.2) m

/-- Context 0 and queue 0 of a QTABLE at 0, whose header at 0x46000 has SIZE 4 and a ring at 0x48000, with a packet of a kind in slot 1. -/
def packetMem (kind : Nat) (body : List (Nat × Nat × Nat)) : Cells 8 :=
  let m0 := putFields (placedMem [0] 0) 0 [(0, 8, 2 ^ 63 + 0x2000), (8, 2, 1), (10, 1, 3), (0x1000, 8, 0x46000), (0x1008, 2, 0x300), (0x100A, 2, 0x100)]
  let m1 := putFields m0 0x46000 [(0, 8, 2), (64, 8, 1), (72, 4, 4), (80, 8, 0x48000)]
  putFields m1 0x48040 ((0, 4, 2 ^ 31 + kind) :: (8, 8, 0x55000) :: body)

def packetLab (kind : Nat) (body : List (Nat × Nat × Nat)) : State :=
  { lab group1 with
    mem := packetMem kind body
    dies := [(0, { placedDie with qtable := 0 })] }

/-- The queue's next packet is ready and its queue the chosen one. -/
def packetReady (s : State) : Bool :=
  (match (viewQueue s 0 0).2 with
    | .ready p => p.num == 1 && p.slot == 0x48040 && p.head == 0x46000
    | _ => false) && servingSite s 0 == some 0 && chosenQueue s 0 == some 0 && s.phase == .running

/-- Whether packet 100 is done, with RIDX and the slot's first word. -/
def packetGoes (i : Instr) (s : State) : Option (Bool × Nat × Nat) :=
  (next i s).bind fun u => (tblGet u.packets 100).map fun k => (k.finished, readNum u.mem 0x46040 8, readNum u.mem 0x48040 4)

/-- STATUS of the queue after a packet. -/
def packetStatus (i : Instr) (s : State) : Option Nat := (next i s).map fun u => readNum u.mem 0x4604C 4

def copyPacket (dst : Nat) : List (Nat × Nat × Nat) := [(16, 8, dst), (24, 8, 0x51000), (32, 8, 8)]

theorem test_witness_packets :
    packetReady (packetLab 0 []) = true ∧ packetGoes (.nopad 0) (packetLab 0 []) = some (true, 2, 0) ∧
    packetGoes (.copy 0) (packetLab 2 (copyPacket 0x50000)) = some (true, 2, 0) ∧
    packetStatus (.copy 0) (packetLab 2 (copyPacket 0x50002)) = some 0x80000101 := by decide +kernel

/-- R355: SIGNAL adds 7 to the 5 at 0x50000; WAITMEM waits until the 0 there is 1, which is not at least 1. -/
theorem test_witness_signal_waitmem :
    ((next (.signal 0) (packetLab 4 [(16, 8, 0x50000), (24, 8, 7), (32, 1, 1), (0x7FC0, 8, 5)])).map fun u => readNum u.mem 0x50000 8) = some 12 ∧
    packetGoes (.waitmem 0) (packetLab 3 [(16, 8, 0x50000), (24, 8, 1), (32, 1, 2)]) = some (false, 2, 0) ∧
    packetGoes (.waitmem 0) (packetLab 3 [(16, 8, 0x50000), (24, 8, 1), (32, 1, 3)]) = some (true, 2, 0) := by decide +kernel

theorem test_witness_table_packets :
    ((next (.bind 0) (packetLab 5 [(16, 1, 63), (24, 8, 0x80)])).map fun u => readNum u.mem (0x8000 + 504) 8) = some 0x80 ∧
    packetStatus (.bind 0) (packetLab 5 [(16, 1, 63), (24, 8, 0x81)]) = some 0x80000101 ∧
    packetGoes (.tdset 0) (packetLab 8 [(16, 8, 0x50000), (24, 4, 2), (28, 4, 1), (32, 8, 0x46000)]) = some (true, 2, 0) ∧
    packetGoes (.tlbinv 0) (packetLab 9 [(16, 8, 0), (24, 8, 0x1000), (32, 2, 1)]) = some (true, 2, 0) := by decide +kernel

/-- A legal launch record at 0x52000: one team of one group of 64 lanes on the die of name 0. -/
def launchFields : List (Nat × Nat × Nat) :=
  [(0x9FC0, 8, 0x10000), (0x9FC8, 2, 1), (0x9FCA, 2, 1), (0x9FCC, 2, 1), (0x9FCE, 1, 1), (0x9FCF, 1, 1), (0x9FD8, 8, 1), (0x9FEC, 2, 1),
    (0xA000, 8, 0x100000)]

/-- R357 to R360: a LAUNCH begins its grid. -/
theorem test_witness_launch :
    ((next (.launch 0) (packetLab 1 ((16, 8, 0x52000) :: launchFields))).map fun u =>
      (u.grids.map fun e => (e.1, e.2.names, e.2.launch.teams), u.packets.map fun e => e.2.finished)) =
      some ([(1, [0], 2), (101, [0], 1)], [false]) := by decide +kernel

/-- A CKPT of the 4096 bytes at 0x60000, whose dirty bit is set, to host memory. -/
def ckptLab : State :=
  let s : State := packetLab 6 [(16, 8, 0x52000), (24, 4, 1), (32, 8, 0x55008), (0x9FC0, 8, 0x60000), (0x9FC8, 8, 4096), (0x9FD0, 8, 0x40000000)]
  { s with
    mem := putFields s.mem 0x4008 [(0, 8, 2 ^ 63 + 2 ^ 61 + 2 ^ 60 + 2 ^ 59 + 2 ^ 58 + 2 ^ 57), (0x6C004, 1, 1)]
    dies := [(0, { placedDie with qtable := 0, dirtytbl := 0x70000 })] }

/-- R384, R440, R445: a CKPT of a region of 4096 bytes listed at 0x52000, and the three JCTL operations. -/
theorem test_witness_ckpt_jctl :
    ((next (.ckpt 0) ckptLab).map fun u => (u.held.map (·.1), u.drains.length, u.packets.map fun e => e.2.finished)) = some ([0x60], 1, [true]) ∧
    packetGoes (.jctlExport 0) (packetLab 7 [(24, 8, 0x53000)]) = some (true, 2, 0) ∧
    packetGoes (.jctlRestart 0) (packetLab 7 [(16, 4, 1)]) = some (true, 2, 0) ∧
    packetGoes (.jctlForget 0) (packetLab 7 [(16, 4, 2)]) = some (true, 2, 0) := by decide +kernel

/-- R355: a finished packet of completion time c, whose CADDR is 0x55000 or 0. -/
def finishedLab (c caddr : Nat) : State :=
  { packetLab 0 [] with packets := [(100, { site := 0, queue := 0, num := 1, kind := 0, ctx := 0, caddr := BitVec.ofNat 64 caddr, body := [], finished := true, ctime := c })] }

theorem test_witness_packet_complete :
    ctxFlags (finishedLab 998 0x55000) 0 0 / 16 % 2 = 0 ∧
    ((next (.packetComplete 100) (finishedLab 998 0x55000)).map fun u => (u.packets.length, readNum u.mem 0x55000 8)) = some (0, 1) ∧
    ((next (.packetComplete 100) (finishedLab 998 0)).map fun u => u.packets.length) = some 0 ∧
    next (.packetComplete 100) (finishedLab 999 0x55000) = some (finishedLab 999 0x55000) := by decide +kernel

/-! ### Teams and contexts -/

/-- The grid of grid0, whose second of two teams comes next, on a package whose queue 0 has priority 3. -/
theorem test_witness_place :
    ctxHeld (lab group1) 0 0 = false ∧ chosenGrid (lab group1) 0 = some 1 ∧ (placeNext (lab group1) 1 grid0 0).isSome = true ∧
    ((next (.teamPlace 1 0) (lab group1)).map fun u => (u.teams.map fun e => (e.2.teamid, e.2.core), u.groups.length, u.grids.map fun e => e.2.next)) =
      some ([(0, 0), (1, 0)], 2, [2]) ∧
    next (.teamPlace 1 0) { lab group1 with stopping := [0] } = some { lab group1 with stopping := [0] } := by decide +kernel

/-- R362: a grid whose two teams have ended. -/
theorem test_witness_grid_complete :
    let s : State := { lab group1 with
      teams := []
      groups := []
      grids := [(1, { grid0 with endedTeams := [0, 1], chz := 7 })]
      packets := [(1, { site := 0, queue := 0, num := 0, kind := 1, ctx := 0, caddr := 0, body := [], finished := false, ctime := 0 })] }
    ((next (.gridComplete 1) s).map fun u => (u.grids.length, u.packets.map fun e => (e.2.finished, e.2.ctime))) = some (0, [(true, 7)]) := by
  decide +kernel

/-- Context 0 with FLAGS x: PREQ is bit 2, SAVED bit 3. -/
def flagsLab (x : Nat) : State := { lab { group1 with hdr := none } with mem := writeNum (placedMem [0] 0) 0x100A 1 x }

theorem test_witness_preempt :
    preempting (flagsLab 7) 0 = true ∧ preempting (flagsLab 3) 0 = false ∧
    ((next (.preemptRequest 0) (flagsLab 7)).map fun u => (u.stopping, u.groups.map fun e => e.2.stopped)) = some ([0], [true]) ∧
    (((next (.preemptRequest 0) (flagsLab 7)).map fun u => u.teams.all fun e => teamReady u e.2)) = some true ∧
    ((next (.preemptSave 0) { flagsLab 7 with teams := [], groups := [], stopping := [0] }).map fun u => (u.stopping, readNum u.mem 0x100A 1)) =
      some ([], 15) := by decide +kernel

theorem test_witness_context_error :
    ((next (.contextErrorStop 0) { flagsLab 0x13 with discarding := [0] }).map fun u =>
      (u.discarding, u.groups.length, u.teams.length, u.grids.length)) = some ([], 0, 0, 0) := by decide +kernel

theorem test_witness_restore :
    restorable (flagsLab 0xB) 0 = true ∧ restorable (flagsLab 0xF) 0 = false ∧
    ((next (.restore 0) (flagsLab 0xB)).map fun u => readNum u.mem 0x100A 1) = some 3 := by decide +kernel

/-- R268, R269: QPUT's retry on a queue that is no longer full, WAITA's wake, and its deadline at tick 1000 and one tick before. -/
theorem test_witness_waiters :
    ((next (.qputBlockRetry 1) { queueLab 1 4 with groups := [(1, { group1 with s := [(2, 0x46000)], wait := .qputFull 4 0x46000 0 })] }).bind fun u =>
      (tblGet u.groups 1).map (·.wait)) = some (.qputValid 4 0x48040 1 4) ∧
    ((next (.waitaWake 1) (lab { group1 with wait := .waita 4 0x50000 5 2000 0 })).bind fun u => (tblGet u.groups 1).map fun g =>
      (g.wait, g.idx, cellGet g.s 4)) = some (.none, 1, 0) ∧
    ((next (.waitaDeadline 1) (lab { group1 with wait := .waita 4 0x50000 5 1000 0 })).bind fun u => (tblGet u.groups 1).map fun g =>
      (g.wait, g.idx, cellGet g.s 4)) = some (.none, 1, 5) ∧
    ((next (.waitaDeadline 1) (lab { group1 with wait := .waita 4 0x50000 5 1001 0 })).bind fun u => (tblGet u.groups 1).map (·.wait)) =
      some (.waita 4 0x50000 5 1001 0) := by decide +kernel

/-! ### Memory, the package and the world outside -/

theorem test_witness_name_cache :
    ((next (.nameCacheMiss 0 0) (lab group1)).bind fun u => (tblGet u.trays 0).map fun t => t.names) = some [(0, 0x8000000000000000)] ∧
    next (.nameCacheMiss 0 0) { lab group1 with trays := [(0, { freshTray with names := [(0, 5)] })] } =
      some { lab group1 with trays := [(0, { freshTray with names := [(0, 5)] })] } := by decide +kernel

/-- R383: line 0xC00 is dirty in the cache; its block's bit stands in a table at 0x70000. -/
def dirtyLab : State := { lab group1 with dies := [(0, { placedDie with dirtytbl := 0x70000 })], hbmOld := [(0xC00, [])] }

theorem test_witness_write_back : inDirtyTable dirtyLab (128 * 0xC00) = false ∧
    ((next (.mscWriteback 0xC00) dirtyLab).map fun u => (tblGet u.hbmOld 0xC00, readNum u.mem 0x7000C 1)) = some (none, 1) := by decide +kernel

/-- R450: an error of a line at a live site. -/
theorem test_witness_scrub :
    isHbm (128 * 7) = true ∧ (liveSites (lab group1)).contains (locSite (128 * 7)) = true ∧
    ((next (.patrolScrub 7 true) (lab group1)).map fun u => u.ueUnits) = some [] := by decide +kernel

/-- Sites 0 and 1 are live. -/
def twoSites : State := { lab group1 with dies := [(0, placedDie), (1, { placedDie with lost := 1 })] }

theorem test_witness_sites :
    liveSites twoSites = [0, 1] ∧ silent twoSites 0 = true ∧
    silent { twoSites with dies := [(0, placedDie), (1, { placedDie with heard := [(0, 401)] })] } 0 = false ∧
    ((next (.heartbeatSend 0) twoSites).bind fun u => (tblGet u.dies 1).map (·.heard)) = some [(0, 1000)] := by decide +kernel

/-- R334: the host writes and reads four bytes of the line at 0x50000, and its write waits while a lease has not passed. -/
theorem test_witness_host :
    hdmLoc (lab group1) 0x50000 = some 0x50000 ∧
    ((next (.hostAccess 1 0x50000 [1, 2, 3, 4]) (lab group1)).map fun u => (u.hostWrites.length, tblGet u.hostHolds 0xA00)) = some (1, some .exclusive) ∧
    ((next (.hostAccess 0 0x50000 [0, 0]) (lab group1)).map fun u => u.outputs) = some [.hostData [0, 0]] := by decide +kernel

def hostLab (lease kind : Nat) (bs : List Byte) : State := { lab group1 with hostWrites := [(9, { addr := 0x50000, bytes := bs, kind := kind })], leases := [(0xA00, lease)] }

theorem test_witness_host_write :
    ((next (.hostWritePerform 9) (hostLab 998 1 [1, 2])).map fun u => (readNum u.mem 0x50000 2, tblGet u.hostHolds 0xA00, tblGet u.lineC 0xA00, u.outputs)) =
      some (0x201, some .shared, some 1000, [.hostDone]) ∧
    next (.hostWritePerform 9) (hostLab 999 1 [1, 2]) = some (hostLab 999 1 [1, 2]) ∧
    ((next (.hostWritePerform 9) (hostLab 998 2 [5, 0, 0, 0])).map fun u => (readNum u.mem 0x50000 4, u.outputs)) =
      some (5, [.hostData [0, 0, 0, 0]]) ∧ hostTakes 2 0x50000 [5, 0, 0, 0] = true ∧ hostTakes 2 0x50000 [5] = false ∧
    ((next (.birspArrive 0xA00 []) { lab group1 with snoops := [0xA00], hostHolds := [(0xA00, .exclusive)] }).map fun u =>
      (u.snoops.length, u.hostHolds.length)) = some (0, 0) := by decide +kernel

/-- R419 to R422: a write of a peer out of order waits, and in order is performed; one of number 0 comes again. -/
theorem test_witness_fabric :
    ((next (.fabricRequestArrive 2 1 0x50000 1 1 [7]) (lab group1)).map fun u => (u.fabIn.length, readNum u.mem 0x50000 1)) = some (1, 0) ∧
    ((next (.fabricRequestArrive 2 1 0x50000 0 1 [7]) (lab group1)).map fun u => (u.fabIn.length, readNum u.mem 0x50000 1)) = some (0, 7) ∧
    ((next (.fabricRequestArrive 2 1 (2 ^ 41 + 0x50000) 0 1 [7]) (lab group1)).map fun u => readNum u.mem 0x50000 1) = some 7 ∧
    next (.fabricRequestArrive 2 1 0x50000 0 1 [7]) { lab group1 with fabNext := [(131073, 1)] } =
      some { lab group1 with fabNext := [(131073, 1)] } := by decide +kernel

def requestLab (t : Nat) : State :=
  { lab group1 with
    clock := 4 * 768000
    fabOut := [(9, { group := 1, op := 10, lane := 0, peer := 2, fa := 0, asid := 1, kind := 1, size := 4, data := [], seq := 0, sent := true, tick := t, keep := false })] }

theorem test_witness_fabric_end :
    ((next (.fabricAck 9 5 [] false) (requestLab 0)).map fun u => u.fabOut.length) = some 0 ∧
    ((next (.fabricTimeout 9) (requestLab 0)).map fun u => u.fabOut.length) = some 0 ∧
    next (.fabricTimeout 9) (requestLab 1) = some (requestLab 1) ∧
    ((next .rotorMatching { lab group1 with matching := 63 }).map fun u => u.matching) = some 0 := by decide +kernel

/-! ### Records, emissions, frames and collectives -/

def record0 : Record := { seqid := 5, kind := 0, token := 0, gen := 0, route := 0, digest := 0, site := 0, asid := 1 }

/-- Site 0, with a record of group 1's operation 10 in its shadow, and its partner site 1. -/
def journalLab (arrived resending : Bool) : State :=
  { lab { group1 with ops := [{ openStore with ctr := .sq, need := 1 }], ctr := [0, 0, 0, 0, 0, 0, 1] } with
    dies := [(0, { placedDie with fixer := { partner := some 1, resending := resending, shadow := [(3, { record := record0, group := 1, op := 10, arrived := arrived, acked := false })] } }),
             (1, placedDie)] }

theorem test_witness_journal :
    (tblGet (journalLab false false).dies 0).map (fun d => inShadow d.fixer.shadow 3 { record := record0, group := 1, op := 10, arrived := false, acked := false }) = some true ∧
    ((next (.contactLogRecordArrive 0 3) (journalLab false false)).map fun u => u.dies.map fun e => (e.2.log.length, e.2.fixer.shadow.map fun r => r.2.arrived)) =
      some [(0, [true]), (1, [])] ∧
    ((next (.journalRecordAck 0 3) (journalLab true false)).map fun u => (u.groups.map fun e => e.2.ops.map (·.stage), u.dies.map fun e => e.2.fixer.shadow.map fun r => r.2.acked)) =
      some ([[.complete]], [[true], []]) := by decide +kernel

/-- Site 1 is lost, and site 0 knows. -/
def widowed : State :=
  { twoSites with
    siteLost := [1]
    dies := [(0, { placedDie with lost := 2, fixer := { partner := some 1, resending := false, shadow := [] } }), (1, placedDie)] }

def resendLab : State := { twoSites with dies := [(0, { placedDie with fixer := { partner := some 1, resending := true, shadow := [] } })] }

theorem test_witness_partners :
    ((next (.partnerLost 0) widowed).map fun u => u.dies.map fun e => e.2.fixer.partner) = some [none, none] ∧
    ((next (.partnerResendDone 0) resendLab).map fun u => u.dies.map fun e => e.2.fixer.resending) = some [false] := by decide +kernel

/-- Emission 8 of group 1 to sink 0 of name 0. -/
def emission0 : Emission :=
  { site := 0, group := 1, op := 10, slot := 0, ctx := 0, rnum := 3, record := record0, payload := [], relOps := [], relChz := none,
    recordAcked := true, sent := false, written := false, atSink := false }

def idleRaster : Raster :=
  { cur := none, drawing := false, desc := [], map := [], c := 0, reorder := [], marks := [], pass := [], held := [], ctime := 0 }

/-- Its ring of eight slots stands at 0x50000. -/
def sink0 (raster : Bool) : Sink :=
  { die := 0, ctx := 0, number := 0, raster := raster, slots := 8, base := 0x50000, dcap := 16, dedup := [], frame := idleRaster }

def emitLab (e : Emission) (sinks : Table Sink) : State :=
  { journalLab true false with emissions := [(8, e)], sinks := sinks }

theorem test_witness_emissions :
    maySend (emitLab emission0 []) 8 emission0 = true ∧ maySend (emitLab emission0 []) 8 { emission0 with recordAcked := false } = false ∧
    ((next (.sinkEmissionArrive 8) (emitLab emission0 [])).map fun u => (u.emissions.length, u.groups.map fun e => e.2.ops.map fun o => o.err.map (·.code))) =
      some (0, [[some 0x2A]]) ∧
    ((next (.sinkEmissionArrive 8) (emitLab emission0 [(4, sink0 false)])).map fun u => u.emissions.map fun e => (e.2.sent, e.2.atSink)) = some [(true, true)] ∧
    ((next (.sinkEmissionArrive 8) (emitLab emission0 [(4, sink0 true)])).map fun u => u.emissions.map fun e => (e.2.sent, e.2.atSink)) = some [(true, false)] := by
  decide +kernel

def atRing (written : Bool) (c : Option Nat) : State :=
  emitLab { emission0 with sent := true, atSink := true, written := written, relChz := c } [(4, sink0 false)]

/-- R438: the slot, then its write index two ticks later; a full ring waits. -/
theorem test_witness_ring :
    ((next (.ringSinkDeliver 8) (atRing false none)).map fun u => u.emissions.map fun e => e.2.written) = some [true] ∧
    ((next (.ringSinkDeliver 8) (atRing true (some 998))).map fun u => (u.emissions.length, readNum u.mem 0x50000 8)) = some (0, 1) ∧
    ((next (.ringSinkDeliver 8) (atRing true (some 999))).map fun u => (u.emissions.length, readNum u.mem 0x50000 8)) = some (1, 0) ∧
    ((next (.ringSinkDeliver 8) { atRing false none with mem := writeNum (placedMem [0] 0) 0x50000 8 8 }).map fun u => u.emissions.map fun e => e.2.written) =
      some [false] := by decide +kernel

/-- The sink draws frame 0 of eight sequences, of which sequence 5 comes now. -/
def drawing0 (c : Nat) : Raster := { idleRaster with cur := some 0, drawing := true, desc := [0, 0, 0, 0, 8], c := c }

def rasterLab (e : Emission) (f : Raster) : State := emitLab { e with sent := true } [(4, { sink0 true with frame := f })]

/-- R402, R403: a packet of the sequence that is drawn passes on; one of a later sequence is buffered; one of seven words is refused. -/
theorem test_witness_raster :
    let took (e : Emission) := (next (.rasterPacketArrive 8) (rasterLab e (drawing0 5))).map fun u => (u.emissions.length, u.sinks.map fun x => (x.2.frame.pass.length, x.2.frame.reorder.length))
    took { emission0 with payload := [1, 2, 3, 4, 5, 6, 7, 8] } = some (0, [(1, 0)]) ∧
    took { emission0 with payload := [1, 2, 3, 4, 5, 6, 7, 8], record := { record0 with seqid := 6 } } = some (0, [(0, 1)]) ∧
    took { emission0 with payload := [1, 2, 3, 4, 5, 6, 7] } = some (0, [(0, 0)]) := by decide +kernel

/-- R403: the watermark of sequence 5 arrives at a sink that draws it. -/
def markLab : State :=
  { rasterLab emission0 (drawing0 5) with
    emissions := []
    watermarks := [(9, { die := 0, ctx := 0, sink := 0, seqid := 5, group := 1, op := 10 })] }

theorem test_witness_watermark :
    (markSink markLab { die := 0, ctx := 0, sink := 0, seqid := 5, group := 1, op := 10 }).isSome = true ∧
    ((next (.rasterWatermarkArrive 9) markLab).map fun u => (u.watermarks.length, u.sinks.map fun x => x.2.frame.c)) = some (0, [6]) := by decide +kernel

/-- R409: the frame is complete once its eight watermarks have been handled and nothing is left to draw. -/
theorem test_witness_frames :
    frameDone (rasterLab emission0 (drawing0 8)) (drawing0 8) = true ∧ frameDone (rasterLab emission0 (drawing0 7)) (drawing0 7) = false ∧
    ((next (.frameComplete 4) (rasterLab emission0 (drawing0 8))).map fun u => (readNum u.mem 0 8, u.sinks.map fun x => x.2.frame.drawing)) = some (1, [false]) ∧
    ((next (.rasterisePacket 4) (rasterLab emission0 { drawing0 8 with pass := [{ u := 5, token := 0, words := [] }] })).map fun u =>
      u.sinks.map fun x => x.2.frame.pass.length) = some [0] := by decide +kernel

/-- R371, R443: lane 2 of the slot looks its forced record up, with no sequence log: nothing is found. -/
def forcedLab : State :=
  { lab group1 with
    teams := [(1, { team0 with seqs := [(1, { isOpen := true, owner := 1, lanes := [(2, { seqLane0 2 with replay := true, pending := true })] })] })] }

theorem test_witness_forced :
    ((next (.forcedRecordFetch 1 1 2) forcedLab).bind fun u => (tblGet u.teams 1).bind fun t => (tblGet t.seqs 1).bind fun x =>
      (tblGet x.lanes 2).map fun e => (e.pending, e.replay)) = some (false, false) := by decide +kernel

/-- An all-reduce of two chunks over the one die of name 0, into 0x51000. -/
def coll0 : Coll :=
  { kind := 1, fmt := 0, op := 0, rsel := 0, csel := 1, stream := false, cdesc := 0x54000, names := [0], src := 0x50000, dst := 0x51000, rstr := 0,
    chbytes := 4, nchunk := 2, done := 0x55000 }

def collLab : State :=
  { lab group1 with
    grids := [(1, { grid0 with launch := { launch0 with colls := [(0, coll0)] }, openChunks := 1 })]
    contribs := [(6, { grid := 1, team := 1, binding := 0, rank := 0, chunk := 1, bytes := some [0, 0, 0x80, 0x3F], quartet := none })] }

def ackLab (c : Nat) : State :=
  { collLab with
    contribs := []
    chunks := [(7, { grid := 1, binding := 0, chunk := 1, inputs := [], ops := [], written := true, failed := false, acked := false, ctime := c })] }

/-- R414 to R416: the one rank's contribution completes chunk 1, whose result is acknowledged two ticks after its completion time. -/
theorem test_witness_collective :
    ((next (.collectiveContribution 6 0 false true) collLab).map fun u =>
      (u.contribs.length, u.chunks.map fun x => x.2.written, readNum u.mem 0x51004 4)) = some (0, [true], 0x3F800000) ∧
    ((next (.chunkResultAck 7) (ackLab 998)).map fun u => (u.chunks.map fun x => x.2.acked, u.grids.map fun x => x.2.openChunks, readNum u.mem 0x55000 8)) =
      some ([true], [0], 1) := by decide +kernel

/-! ### Power, Safelight and measurement -/

/-- A package whose firmware image has no magic number. -/
def brokenLab : State := { State.reset with flash := (List.range 16).map fun i => (i, 0) }

theorem test_witness_power :
    imageOk (flashImage brokenLab) = false ∧ ((next .powerOn brokenLab).map fun u => u.phase) = some .safelight ∧
    next .powerOn (lab group1) = some (lab group1) ∧
    ((next .powerLoss (lab group1)).map fun u => (u.phase, u.groups.length, u.teams.length, u.mem)) = some (.unbooted, 0, 0, []) := by decide +kernel

/-- R470 to R475: a candidate of no bytes is refused; algorithms are selected or not; and measurement 5 is given in Safelight. -/
theorem test_witness_measure :
    let s : State := { brokenLab with phase := .safelight }
    candidateOk s false [] = false ∧ ((next (.safelightCandidateWrite false []) s).map fun u => u.outputs) = some [.candidateRefused] ∧
    spdmOpen s 0 = true ∧ ((next (.spdmNegotiateAlgorithms 0 [1, algAsym] [algHash]) s).map fun u => u.outputs) = some [.spdmAlgorithms algAsym algHash] ∧
    ((next (.spdmNegotiateAlgorithms 0 [1] [algHash]) s).map fun u => (u.outputs, u.spdmClosed)) = some ([.spdmUnsupported], [0]) ∧
    measurement s 5 = some [0, 0, 0, 0, 0, 0, 0, 0, 0] ∧ measurement s 6 = none ∧
    ((next (.spdmGetMeasurements 0 5) s).map fun u => u.outputs.length) = some 1 := by decide +kernel

/-! ### Shared registers, barrels and the march test -/

/-- R27, R28: group 1 of partition 1 and group 6 of partition 2 write 5 and 9 to h3 in clock 4000, and 9 remains; groups 1 and 2 are of one
team, and only group 1 has written. -/
theorem test_witness_shared_writes :
    let a : Group := { group1 with grpid := 1 }
    let b : Group := { group1 with grpid := 6 }
    let w : HWrite := { value := 9, rank := 256, groups := [1] }
    let t : Team := { team0 with h := [(3, 4)], hNew := [(16 * 4000 + 3, w)] }
    let s : State := { pairLab [] .none with teams := [(1, t)] }
    hJoin (some (hJoin none 6 (hRank b false) 9)) 1 (hRank a false) 5 = { value := 9, rank := hRank b false, groups := [1, 6] } ∧
    ((tblGet (settleH s 1 t).teams 1).map fun t => (cellGet t.h 3, t.hNew.length)) = some (9, 0) ∧
    ((settleH s 1 t).groups.map fun e => (e.1, tblGet e.2.hSeen 3)) = [(1, none), (2, some [4])] := by decide +kernel

/-- R289, R295: at clock 4000 the access barrel is at the second place of a rotation that began at 3999; group 2 was served last. -/
theorem test_witness_visits :
    let r : Rotation := { start := 3999, length := 4, slots := [(5, 1), (0, 1)] }
    let c : Core := { freshCore with access := [(0, r)], served := [(0, 2)] }
    let s : State := lab group1
    (barrelVisits s 0 0 true c).map (fun v => (v.slot, v.group)) = [(0, 1)] ∧ barrelVisits s 0 0 false c = [] ∧
    servedOrder (some 2) [1, 2, 5] = [5, 1, 2] ∧
    (noteServed (visit0 group1) { s with visits := [visit0 group1] }).visits = [] := by decide +kernel

/-- R472, R473: two failing rows of bank 3, and five of bank 4. -/
theorem test_witness_march :
    statusOf { ent := 256, retire := true, ovbank := 127 } = 0x81007F00 ∧ statusOf {} = 0x0000FF00 := by decide +kernel

/-- What the statements about accesses, copies and queues ask of the group that moves: no access in flight, no operands kept from a parked
try, nothing in the write-combining buffer, and no stores held back in ordered mode. -/
theorem test_witness_quiet_group :
    ∀ g ∈ [group0, group1, member 3, betweenGroup, gfxGroup], flying g = false ∧ g.captured = none ∧ g.wcb = [] ∧ g.sbuf = [] ∧
      (lab g).late.contains (lab g).cur = false ∧ (lab g).needs = [] ∧ (lab g).fabGot = [] ∧ orderedMode (lab g) g = false := by decide +kernel

end Sys2Proof.Tests.Slice0
end

namespace Sys2Proof.Machine

/-! ### A group at its start (R15) -/

theorem cellGet_foldl_range {w : Nat} (f : Nat → BitVec w) (j : Nat) : ∀ n,
    cellGet ((List.range n).foldl (fun c i => cellSet c i (f i)) []) j = if j < n then f j else 0
  | 0 => rfl
  | n + 1 => by
    rw [List.range_succ, List.foldl_append, List.foldl_cons, List.foldl_nil, cellGet_cellSet, cellGet_foldl_range f j n]
    by_cases h : n = j
    · subst h; simp
    · by_cases h2 : j < n
      · simp [h, h2, Nat.lt_succ_of_lt h2]
      · simp [h, h2, show ¬ j < n + 1 by omega]

theorem cellGet_argCells (args : List Word) (i : Nat) : cellGet (argCells args) i = args.getD i 0 := by
  rw [argCells, cellGet_foldl_range]
  by_cases h : i < args.length
  · rw [if_pos h]
  · rw [if_neg h, List.getD_eq_default _ _ (by omega)]

end Sys2Proof.Machine

namespace Sys2Proof
open Machine

/-- Settles O7: every field of a fresh group is given; EXEC and the argument registers are read cell by cell. -/
theorem groupStartState : Obligations.GroupStartState := by
  intro team grpid width pc args
  have ctr : ∀ i, counter (freshGroup team grpid width pc args) i = 0 := by
    intro i
    have h : ∀ k, ([0, 0, 0, 0, 0, 0, 0] : List Nat).getD k 0 = 0 := by
      intro k
      by_cases hk : k < 7
      · interval_cases k <;> rfl
      · exact List.getD_eq_default _ _ (by simpa using hk)
    exact h (i - 1)
  exact ⟨fun l hl => getLsbD_onesBelow width l hl, fun _ => rfl, fun _ => rfl, fun _ _ => rfl, cellGet_argCells args, fun _ => rfl,
    fun _ => rfl, rfl, ctr, rfl, rfl, rfl, rfl, rfl, rfl⟩

end Sys2Proof

namespace Sys2Proof.Machine

/-! ### Instructions without vector sources -/

/-- An instruction with no source fields finds its feed queues ready (R30). -/
theorem feedsReady_nil (s : State) (g : Group) : FeedsReady s g [] := by
  have need : ∀ q, needOf [] q = 0 := fun _ => rfl
  refine ⟨by simp [need], ?_⟩
  have none_missing : (List.range 4).find? (fun q => decide ((feedQueue g q).length < needOf [] q) && cannotReceive g q) = none := by
    simp [need]
  rw [feedGate, feedGateOf, none_missing]
  simp [need, entriesPresent]

/-- What going on to the next word leaves in the group. -/
@[simp] theorem advance_fields (n : Nat) (g : Group) :
    (advance n g).team = g.team ∧ (advance n g).grpid = g.grpid ∧ (advance n g).width = g.width ∧ (advance n g).exec = g.exec ∧
    (advance n g).p = g.p ∧ (advance n g).v = g.v ∧ (advance n g).q = g.q ∧ (advance n g).hq = g.hq ∧ (advance n g).s = g.s ∧
    (advance n g).k = g.k ∧ (advance n g).feed = g.feed ∧ (advance n g).chz = g.chz ∧ (advance n g).fpflags = g.fpflags ∧
    (advance n g).handler = g.handler ∧ (advance n g).wait = g.wait ∧ (advance n g).hSeen = g.hSeen ∧ (advance n g).ops = g.ops ∧
    (advance n g).contested = g.contested ∧ (advance n g).ctr = g.ctr ∧ (advance n g).repErr = g.repErr ∧ (advance n g).wcb = g.wcb ∧
    (advance n g).tx = g.tx ∧ (advance n g).sbuf = g.sbuf ∧ (advance n g).turn = g.turn ∧ (advance n g).ended = g.ended ∧
    (advance n g).captured = none ∧ (advance n g).words = g.words ∧ (advance n g).stopped = g.stopped := by
  rw [advance_frame]; simp only [and_self]

@[simp] theorem popAll_nil (g : Group) : popAll [] g = g := rfl

/-- The bits that MaskDone speaks of are those below GWIDTH. -/
theorem maskDone_congr {s t : State} {g : Group} {words : Nat} {d : BitVec 6} {srcs : List SrcCode} {f f' : Nat → Bool}
    (h : ∀ l, l < g.width → f l = f' l) (hm : MaskDone s t g words d srcs f) : MaskDone s t g words d srcs f' := by
  obtain ⟨g', ht, hf, ⟨hp, hq⟩, rest⟩ := hm
  refine ⟨g', ht, hf, ⟨fun l hl => ?_, hq⟩, rest⟩
  rw [hp l hl]
  by_cases c : l < g.width
  · rw [h l c]
  · simp [c]

/-- A whole mask with no vector source is written (R18). -/
theorem putMask_done {s : State} {g : Group} (hs : Selected s g) (d : BitVec 6) (m : Word64) (b : Nat → Bool)
    (hb : ∀ l, l < 64 → m.getLsbD l = b l) :
    MaskDone s (s.putGroup s.cur (advance 2 (writeP g (d.toNat - 48) m))) g 2 d [] b := by
  obtain ⟨t, h1, h2⟩ := wholeMask_done hs d (feedsReady_nil s g) (fun _ => m) b hb
  rw [wholeMask, onGroup_of_some hs, withFeeds_of_ready (feedsReady_nil s g), popAll_nil] at h1
  cases h1
  exact h2

/-- One truth value over the lanes below GWIDTH. -/
theorem getLsbD_ite_onesBelow (b : Bool) (w l : Nat) (h : l < 64) :
    (if b then onesBelow w else 0 : Word64).getLsbD l = (b && decide (l < w)) := by
  cases b
  · simp
  · simpa using getLsbD_onesBelow w l h

/-- The lowest lane of a mask below GWIDTH. -/
theorem lowestLane_eq_some {w : Nat} {m : Word64} {l : Nat} :
    lowestLane w m = some l ↔ l < w ∧ m.getLsbD l = true ∧ ∀ k, k < l → m.getLsbD k = false := by
  have e : lowestLane w m = (List.range w).find? fun l => m.getLsbD l := by
    rw [lowestLane, lanesOf, List.head?_filter]
  rw [e, List.find?_range_eq_some]
  simp only [List.mem_range, Bool.not_eq_eq_eq_not, Bool.not_true]
  tauto

/-! ### Uniform shifts -/

/-- USHR, logical or arithmetic, with the counts of 32 and above apart (R138). -/
theorem ushr_eq (sx : Bool) (x : Word) (n : Nat) : (if sx then sar 32 x n else shr 32 x n) =
    if 32 ≤ n then (if sx && x.msb then BitVec.allOnes 32 else 0) else if sx then x.sshiftRight n else x >>> n := by
  cases sx
  · simp [shr]
  · by_cases h : 32 ≤ n
    · simp only [sar, Nat.min_eq_right h, if_true, if_pos h, Bool.true_and]
      cases hm : x.msb
      · simp [BitVec.sshiftRight_eq_of_msb_false hm, BitVec.ushiftRight_eq_zero]
      · simp [BitVec.sshiftRight_eq_of_msb_true hm, BitVec.ushiftRight_eq_zero]
    · simp [sar, h, Nat.min_eq_left (by omega : n ≤ 32)]

/-- The wide selectors of MOVSR by number (R38). -/
theorem wideSelector_eq_contains : ∀ a : BitVec 7, Legal.wideSelector a = [10, 11, 12, 13, 16, 20].contains a.toNat := by decide

end Sys2Proof.Machine

namespace Sys2Proof
open Machine

/-- Settles O22: each instruction is `uni32` of its operation, and what `uni32` does is said once. -/
theorem uniformArithmetic : Obligations.UniformArithmetic := by
  intro s g gd d a hs
  dsimp only
  have sh (words : Nat) (sx : Bool) (y : Group → Word) :
      ∃ t, uni32 s words d (fun g => if sx then sar 32 (usrc s g tInt 0 a) (y g).toNat else shr 32 (usrc s g tInt 0 a) (y g).toNat) = .next t ∧
        UniformDone s t g words d (if 32 ≤ (y g).toNat then (if sx && (usrc s g tInt 0 a).msb then BitVec.allOnes 32 else 0)
          else if sx then (usrc s g tInt 0 a).sshiftRight (y g).toNat else usrc s g tInt 0 a >>> (y g).toNat) := by
    rw [← ushr_eq]; exact uni32_done hs words d _
  refine ⟨fun b => ⟨?_, ?_, ?_, ?_, ?_, ?_, ?_, ?_, ?_, ?_, fun sx => sh 2 sx fun g => usrc s g tInt 1 b⟩,
    fun y => ⟨?_, ?_, ?_, ?_, ?_, ?_, ?_, fun sx => sh 2 sx fun _ => y, ?_, ?_, ?_, ?_⟩⟩
  all_goals exact uni32_done hs _ d _


/-- What the group's flags are after MOVSR.clr, whatever register takes them. -/
theorem fpflags_movsrClr {s : State} {g : Group} (hs : Selected s g) (r : Nat) (x : Word) :
    ((tblGet ((writeU s s.cur r x).upGroup s.cur fun g => advance 1 { g with fpflags := 0 }).groups s.cur).map (·.fpflags)) = some 0 := by
  have cur : ∃ g', tblGet (writeU s s.cur r x).groups s.cur = some g' := by
    unfold writeU
    split_ifs
    · exact ⟨_, by rw [State.upGroup_of_some hs]; simp; rfl⟩
    · obtain ⟨-, -, -, h, -⟩ := sharedWritten_writeH hs 1 (r - 32) x
      simp only [State.upGroup_fields, tblGet_tblUp, if_true, Option.map_eq_some_iff] at h
      exact ⟨_, h.choose_spec.1⟩
  obtain ⟨g', h⟩ := cur
  simp [h]

/-- Settles O23: UADD64, UCMP, USEL, ULANE and MOVSR are `uni32`, `uni64`, `vec32` or a whole mask; what is left is the choice each makes. -/
theorem uniformComparesAndReads : Obligations.UniformComparesAndReads := by
  refine ⟨fun s g gd d a b hs => ⟨uni64_done hs 2 d _, fun cmp T => ?ucmp, fun pneg pr takes ht => ?usel, fun first lane hl => ?ulane⟩,
    fun s g gd d hs => ⟨?laneid, fun a ha => ?movsr, fun hd => ?clr, ?clrAny⟩⟩
  case ucmp =>
    split_ifs with hd
    · obtain ⟨t, h1, h2⟩ := uni32_done hs 2 d fun g => if ucmpHolds s g cmp T a b then 1 else 0
      refine ⟨t, ?_, h2⟩
      rw [← h1]
      exact if_neg (by omega)
    · refine ⟨_, ?_, maskDone_congr (f := fun l => ucmpHolds s g cmp T a b && decide (l < g.width)) (fun l hl => ?_)
        (putMask_done hs d _ _ fun l => getLsbD_ite_onesBelow (ucmpHolds s g cmp T a b) g.width l)⟩
      · exact (if_pos (by omega)).trans (onGroup_of_some hs _)
      · simp only [hl, decide_true, Bool.and_true]
        rfl
  case usel =>
    have e : takes = uselTakes g pneg pr := by
      rw [Bool.eq_iff_iff, ht]
      simp [uselTakes, selBit, bne_comm]
    rw [e]
    exact ⟨uni32_done hs 2 d fun g => if uselTakes g pneg pr then usrc s g tInt 0 a else usrc s g tInt 1 b,
      uni64_done hs 2 d fun g => if uselTakes g pneg pr then usrc64 s g 0 a else usrc64 s g 1 b⟩
  case ulane =>
    have e : lane = ulaneLane s g first gd b := by
      cases first
      · exact hl
      · exact Option.ext fun l => (hl l).trans lowestLane_eq_some.symm
    have pick (α : Type) [Zero α] (f : Nat → α) : (lane.map f).getD 0 = match ulaneLane s g first gd b with | some l => f l | none => 0 := by
      rw [e]; cases ulaneLane s g first gd b <;> rfl
    rw [pick, pick]
    exact ⟨uni32_done hs 2 d _, uni64_done hs 2 d _⟩
  case laneid => exact plain_done hs 1 gd d (feedsReady_nil s g) fun _ l => BitVec.ofNat 32 l
  case movsr =>
    rw [← wideSelector_eq_contains]
    have e : exec (.movsr gd d a) s = if Legal.wideSelector a then uni64 s 1 d fun gr => specialReg s gr a.toNat
        else uni32 s 1 d fun gr => lo32 (specialReg s gr a.toNat) := if_neg ha
    refine ⟨fun h => ?_, fun h => ?_⟩
    · rw [e, h]; exact uni32_done hs 1 d _
    · rw [e, h]; exact uni64_done hs 1 d _
  case clr =>
    refine (onGroup_of_some hs _).trans ?_
    rw [writeU, if_pos hd, State.upGroup_of_some hs, State.upGroup_putGroup]
  case clrAny => exact ⟨_, onGroup_of_some hs _, fpflags_movsrClr hs _ _⟩

end Sys2Proof

namespace Sys2Proof.Machine

/-- One bit of a word below GWIDTH. -/
theorem getLsbD_ofNat_two_pow (l k : Nat) (h : k < 64) : (BitVec.ofNat 64 (2 ^ l)).getLsbD k = decide (l = k) := by
  rw [BitVec.getLsbD_ofNat, Nat.testBit_two_pow]; simp [h]

/-- The bits of a mask operand of PLOP (R134). -/
theorem getLsbD_plopMask (g : Group) (c : BitVec 4) (l : Nat) (h : l < 64) : (plopMask g c).getLsbD l =
    if c.toNat < 12 then (cellGet g.p c.toNat).getLsbD l else if c = 12 then g.exec.getLsbD l else c == 13 := by
  unfold plopMask
  split_ifs with h1 h2 h3
  · rfl
  · rfl
  · subst h3; rw [BitVec.getLsbD_allOnes]; simp [h]
  · exact (BitVec.getLsbD_zero).trans (beq_eq_false_iff_ne.2 h3).symm

theorem getLsbD_onesBelow_allOnes (g : Group) (l : Nat) (hw : l < g.width) (hl : l < 64) :
    (onesBelow g.width).getLsbD l = (BitVec.allOnes 64).getLsbD l := by
  rw [getLsbD_onesBelow _ _ hl, BitVec.getLsbD_allOnes]; simp [hw, hl]

/-- A clipped mask holds the bits below GWIDTH of any mask that agrees there. -/
theorem getLsbD_clip_of_agree {g : Group} {m m' : Word64} (h : ∀ l, l < g.width → l < 64 → m'.getLsbD l = m.getLsbD l) (l : Nat)
    (hl : l < 64) : (clip g m').getLsbD l = (decide (l < g.width) && m.getLsbD l) := by
  rw [getLsbD_clip, Bool.and_comm]
  by_cases hw : l < g.width
  · rw [h l hw hl]
  · simp [hw]

/-- What an instruction that writes EXEC leaves (R136). -/
theorem exset_done {s : State} {g : Group} (hs : Selected s g) {i : Instr} {m : Word64} {m' : Group → Word64}
    (hi : exec i s = onGroup s fun g => s.putGroup s.cur (advance 1 (writeExec g (m' g))))
    (h : ∀ l, l < g.width → l < 64 → (m' g).getLsbD l = m.getLsbD l) :
    ∃ e : Word64, (∀ l, l < 64 → e.getLsbD l = (decide (l < g.width) && m.getLsbD l)) ∧
      exec i s = .next (s.putGroup s.cur (advance 1 { g with exec := e })) :=
  ⟨clip g (m' g), getLsbD_clip_of_agree h, hi.trans (onGroup_of_some hs _)⟩

/-- The group that a whole mask leaves in destination d, whose predicate or pair takes the bits below GWIDTH (R135, R136). -/
theorem writeMask_done {s : State} {g : Group} (hs : Selected s g) (d : BitVec 6) (m : Word64) :
    if 48 ≤ d.toNat then s.putGroup s.cur (advance 1 (writeMask g d m)) =
      s.putGroup s.cur (advance 1 { g with p := cellSet g.p (d.toNat - 48) (clip g m) })
    else UniformDone64 s (s.putGroup s.cur (advance 1 (writeMask g d m))) g 1 d (clip g m) := by
  unfold writeMask
  split_ifs with h
  · rfl
  · obtain ⟨t, h1, h2⟩ := uni64_done hs 1 d fun g => clip g m
    rw [uni64, onGroup_of_some hs] at h1
    cases h1
    exact h2

theorem voteHolds_any (s : State) (g : Group) (o : LOps) :
    voteHolds s g 0 o = true ↔ ∃ l, (l < g.width ∧ (active g o.g).getLsbD l = true) ∧ opA s g tInt o l ≠ 0 := by
  show ((lanesOf g.width (active g o.g)).any fun l => opA s g tInt o l != 0) = true ↔ _
  simp only [List.any_eq_true, mem_lanesOf, bne_iff_ne]

theorem voteHolds_all (s : State) (g : Group) (o : LOps) :
    voteHolds s g 1 o = true ↔ ∀ l, (l < g.width ∧ (active g o.g).getLsbD l = true) → opA s g tInt o l ≠ 0 := by
  show ((lanesOf g.width (active g o.g)).all fun l => opA s g tInt o l != 0) = true ↔ _
  simp only [List.all_eq_true, mem_lanesOf, bne_iff_ne]

theorem voteHolds_eq (s : State) (g : Group) (o : LOps) :
    voteHolds s g 2 o = true ↔ ∀ l j, (l < g.width ∧ (active g o.g).getLsbD l = true) → (j < g.width ∧ (active g o.g).getLsbD j = true) →
      opA s g tInt o l = opA s g tInt o j := by
  show ((lanesOf g.width (active g o.g)).all fun l => (lanesOf g.width (active g o.g)).all fun j =>
    opA s g tInt o l == opA s g tInt o j) = true ↔ _
  simp only [List.all_eq_true, mem_lanesOf, beq_iff_eq]
  exact ⟨fun h l j hl hj => h l hl j hj, fun h l hl j hj => h l j hl hj⟩

/-- What PMOV and EXGET leave (R135, R136). -/
theorem maskTo_done {s : State} {g : Group} (hs : Selected s g) {i : Instr} (d : BitVec 6) {m : Word64} {m' : Group → Word64}
    (hi : exec i s = onGroup s fun g => s.putGroup s.cur (advance 1 (writeMask g d (m' g))))
    (h : ∀ l, l < g.width → l < 64 → (m' g).getLsbD l = m.getLsbD l) :
    ∃ e : Word64, (∀ l, l < 64 → e.getLsbD l = (decide (l < g.width) && m.getLsbD l)) ∧
      if 48 ≤ d.toNat then exec i s = .next (s.putGroup s.cur (advance 1 { g with p := cellSet g.p (d.toNat - 48) e }))
      else ∃ t : State, exec i s = .next t ∧ UniformDone64 s t g 1 d e := by
  have he := hi.trans (onGroup_of_some hs _)
  have hd := writeMask_done hs d (m' g)
  refine ⟨clip g (m' g), getLsbD_clip_of_agree h, ?_⟩
  split_ifs at hd ⊢
  · rw [he, hd]
  · exact ⟨_, he, hd⟩

/-- VOTE writes one truth value to the bits below GWIDTH (R132). -/
theorem vote_done {s : State} {g : Group} {o : LOps} (hs : Selected s g) (hf : FeedsReady s g [(o.a, false)]) (vk : BitVec 2) (b : Bool)
    (h : voteHolds s g vk o = true ↔ b = true) :
    ∃ t, exec (.vote vk o) s = .next t ∧ MaskDone s t g 2 o.d [(o.a, false)] fun _ => b := by
  obtain ⟨t, h1, h2⟩ := wholeMask_done hs o.d hf (fun g => if voteHolds s g vk o then onesBelow g.width else 0) _
    fun l => getLsbD_ite_onesBelow _ _ l
  refine ⟨t, h1, maskDone_congr (fun l hl => ?_) h2⟩
  simp only [hl, decide_true, Bool.and_true]
  exact Bool.eq_iff_iff.2 h

theorem maskSrc_uniformPair (s : State) (g : Group) {a : BitVec 7} (h1 : 64 ≤ a.toNat) (h2 : a.toNat < 96) :
    maskSrc s g a = Machine.pair (readS s.draws 0 g (a.toNat - 64)) (readS s.draws 0 g (a.toNat - 63)) := by
  rw [maskSrc, if_neg (by omega), usrc64]
  simp only [if_pos (And.intro h1 h2)]

end Sys2Proof.Machine

namespace Sys2Proof
open Machine

/-- Settles O21: BALLOT to PLOP are whole masks, and PMOV, EXSET and EXGET write one mask clipped to GWIDTH. -/
theorem predicatesAndMasks : Obligations.PredicatesAndMasks := by
  refine ⟨fun s g o hs => ⟨fun hf => ⟨?ballot, ?any, ?all, ?eq⟩, fun r hr => ?elect, fun d pc pb pa table => ?plop⟩,
    fun s g hs _ => ?_⟩
  case ballot =>
    obtain ⟨t, h1, h2⟩ := wholeMask_done hs o.d hf
      (fun g => maskOf g.width fun l => (active g o.g).getLsbD l && opA s g tInt o l != 0) _ fun l hl => getLsbD_maskOf _ _ l hl
    exact ⟨t, h1, maskDone_congr (fun l hl => by simp [hl]) h2⟩
  case plop =>
    obtain ⟨t, h1, h2⟩ := wholeMask_done hs d (feedsReady_nil s g) (fun g => maskOf g.width fun l =>
      table.getLsbD (4 * ((plopMask g pa).getLsbD l).toNat + 2 * ((plopMask g pb).getLsbD l).toNat + ((plopMask g pc).getLsbD l).toNat))
      (fun l => decide (l < g.width) && table.getLsbD _) fun l hl => by
        rw [getLsbD_maskOf _ _ l hl, getLsbD_plopMask g pa l hl, getLsbD_plopMask g pb l hl, getLsbD_plopMask g pc l hl]
    exact ⟨t, h1, maskDone_congr (fun l hl => by simp [hl]) h2⟩
  case elect =>
    refine wholeMask_done hs o.d (feedsReady_nil s g) (fun g => match lowestLane g.width (active g o.g) with
      | some l => BitVec.ofNat 64 (2 ^ l)
      | none => 0) r fun k hk => ?_
    have hrk : r k = true ↔ lowestLane g.width (active g o.g) = some k := by
      rw [hr k, lowestLane_eq_some, and_assoc]
      refine and_congr_right fun hw => and_congr_right fun _ => forall₂_congr fun j hj => ?_
      simp [Nat.lt_trans hj hw]
    rw [Bool.eq_iff_iff, hrk]
    cases lowestLane g.width (active g o.g) with
    | none => simp
    | some l => rw [getLsbD_ofNat_two_pow l k hk, decide_eq_true_iff, Option.some_inj]
  case any => exact fun b hb => vote_done hs hf 0 b ((voteHolds_any s g o).trans hb)
  case all => exact fun b hb => vote_done hs hf 1 b ((voteHolds_all s g o).trans hb)
  case eq => exact fun b hb => vote_done hs hf 2 b ((voteHolds_eq s g o).trans hb)
  have pair := fun (a : BitVec 7) h1 h2 => maskSrc_uniformPair s g (a := a) h1 h2
  have pmov (d : BitVec 6) (a : BitVec 7) (h : 64 ≤ a.toNat) :
      exec (.pmov d a) s = onGroup s fun g => s.putGroup s.cur (advance 1 (writeMask g d (maskSrc s g a))) := by
    refine congrArg (onGroup s) (funext fun g => ?_)
    rw [if_neg (by omega)]
  refine ⟨fun a h1 h2 => ⟨?_, fun d => ?_⟩, exset_done hs rfl fun _ _ _ => rfl, exset_done hs rfl (getLsbD_onesBelow_allOnes g),
    exset_done hs rfl fun _ _ _ => rfl, fun d => ⟨?_, ?_, ?_, ?_⟩, fun d a ha => ?_, fun d => ⟨?_, ?_⟩⟩
  · exact exset_done hs rfl fun l _ _ => by rw [pair a h1 h2]
  · exact maskTo_done hs d (pmov d a h1) fun l _ _ => by rw [pair a h1 h2]
  · exact maskTo_done hs d (pmov d 104 (by decide)) fun _ _ _ => rfl
  · exact maskTo_done hs d (pmov d 106 (by decide)) (getLsbD_onesBelow_allOnes g)
  · exact maskTo_done hs d (pmov d 110 (by decide)) fun _ _ _ => rfl
  · exact maskTo_done (m' := fun g => g.exec) hs d rfl fun _ _ _ => rfl
  · exact maskTo_done (m' := fun g => if a.toNat < 12 then cellGet g.p a.toNat else maskSrc s g a) hs d rfl fun l _ _ => by rw [if_pos ha]
  · exact exset_done (m' := fun g => g.exec &&& cellGet g.p (d.toNat - 48)) hs rfl fun _ _ _ => rfl
  · exact exset_done (m' := fun g => g.exec &&& ~~~(cellGet g.p (d.toNat - 48))) hs rfl fun _ _ _ => rfl

end Sys2Proof

namespace Sys2Proof.Machine

/-- Nothing outstanding writes a register: a read gives its value (R20). -/
theorem pendingRead_nil (draws : Nat) (r : Reg) (idx : Nat) (old : Word) : pendingRead draws [] r idx old = old := rfl

theorem feedLane_of_some {g : Group} {q i : Nat} {e : FeedEntry} (h : (feedQueue g q)[i]? = some e) (l : Nat) :
    feedLane g q i l = cellGet e.lanes l := by simp [feedLane, h]

/-- A popping source field of queue q asks for one entry of that queue alone (R29). -/
theorem needOf_pop {a : BitVec 7} {q : Nat} (h : a.toNat = 96 + q) (hq : q < 4) (j : Nat) (hj : j < 4) :
    needOf [(a, false)] j = if j = q then 1 else 0 := by
  simp only [needOf, List.foldl_cons, List.foldl_nil, entriesOf, h]
  by_cases e : j = q
  · subst e; simp
  · have n1 : ¬ 96 + q = 96 + j := by omega
    have n2 : ¬ 96 + q = 100 + j := by omega
    rw [if_neg n1, if_neg n2, if_neg e]

/-- What an instruction whose one source pops an empty queue does (R30). -/
theorem withFeeds_pop_empty {s : State} {g : Group} {a : BitVec 7} {q : Nat} (h : a.toNat = 96 + q) (hq : q < 4)
    (hm : mmaTakes s g q = false) (he : feedQueue g q = []) (k : State) :
    withFeeds s g [(a, false)] k = if cannotReceive g q then trapAt s s.cur (missingEntry g q).code (missingEntry g q).info else stall s := by
  have mma : ((List.range 4).any fun j => needOf [(a, false)] j != 0 && mmaTakes s g j) = false := by
    rw [List.any_eq_false]
    intro j hj
    rw [needOf_pop h hq j (List.mem_range.1 hj)]
    by_cases e : j = q
    · simp [e, hm]
    · simp [e]
  have miss : ∀ j < 4, (decide ((feedQueue g j).length < needOf [(a, false)] j) && cannotReceive g j) =
      (decide (j = q) && cannotReceive g q) := by
    intro j hj
    rw [needOf_pop h hq j hj]
    by_cases e : j = q
    · subst e; simp [he]
    · simp [e]
  have gate : feedGate g [(a, false)] = if cannotReceive g q then FeedGate.trap (missingEntry g q) else FeedGate.wait := by
    have first : (List.range 4).find? (fun j => decide ((feedQueue g j).length < needOf [(a, false)] j) && cannotReceive g j) =
        if cannotReceive g q then some q else none := by
      rw [List.find?_congr fun j hj => miss j (List.mem_range.1 hj)]
      cases cannotReceive g q <;> interval_cases q <;> rfl
    have absent : ((List.range 4).all fun j => entriesPresent g j (needOf [(a, false)] j)) = false := by
      rw [List.all_eq_false]
      refine ⟨q, List.mem_range.2 hq, ?_⟩
      simp [entriesPresent, needOf_pop h hq q hq, he]
    rw [feedGate, feedGateOf, first, absent]
    cases cannotReceive g q <;> rfl
  rw [withFeeds, if_neg (by rw [mma]; simp), gate]
  split_ifs <;> rfl

end Sys2Proof.Machine

namespace Sys2Proof
open Machine

/-- Settles O15: each range of source codes is one branch of `src32`, and the trap is that of an empty queue which cannot receive. -/
theorem sourceCodesAndUnderrun : Obligations.SourceCodesAndUnderrun := by
  refine ⟨fun s g before c l ho => ⟨?v, ?q, ?s, ?f, ?_⟩, fun s g gd d a q hs hq ha hm he => ⟨fun hf => ?trap, fun hc => ?wait⟩⟩
  case trap =>
    have e := withFeeds_pop_empty (s := s) ha hq hm he
    simp only [cannotReceive, missingEntry, feedFailed, hf, Option.bind_none, if_true] at e
    exact (onGroup_of_some hs _).trans (congrArg _ (e _))
  case wait =>
    have e := withFeeds_pop_empty (s := s) ha hq hm he
    simp only [hc, Bool.false_eq_true, if_false] at e
    exact (onGroup_of_some hs _).trans (congrArg _ (e _))
  case v =>
    intro h
    simp only [src32, if_pos h, readV, ho, pendingRead_nil]
    rfl
  case q =>
    intro h1 h2
    simp only [src32, if_neg (Nat.not_lt.2 h1), if_pos h2]
  case s =>
    intro h1 h2
    simp only [src32, if_neg (show ¬ c.toNat < 48 by omega), if_neg (Nat.not_lt.2 h1), if_pos h2, readS, ho, pendingRead_nil, readSRaw]
    simp only [Bool.and_eq_true, decide_eq_true_eq, show c.toNat - 64 < 8 ↔ c.toNat < 72 by omega]
  case f =>
    intro h1 h2 e he
    simp only [src32, if_neg (show ¬ c.toNat < 48 by omega), if_neg (show ¬ c.toNat < 64 by omega), if_neg (Nat.not_lt.2 h1), if_pos h2]
    exact feedLane_of_some he l
  have named : 104 ≤ c.toNat → c.toNat < 112 → src32 s g tInt before c l = lo32 (special s g c.toNat l) := by
    intro h1 h2
    simp only [src32, if_neg (show ¬ c.toNat < 48 by omega), if_neg (show ¬ c.toNat < 64 by omega), if_neg (show ¬ c.toNat < 96 by omega),
      if_neg (Nat.not_lt.2 h1), if_pos h2]
  have low : ∀ n, lo32 (BitVec.ofNat 64 n) = BitVec.ofNat 32 n := by
    intro n
    simp [lo32]
  have operand {n : Nat} (h : c.toNat = n) (h1 : 104 ≤ n) (h2 : n < 112) : src32 s g tInt before c l = lo32 (special s g n l) := by
    rw [named (by omega) (by omega), h]
  refine ⟨fun h => ?_, fun h => ?_, fun h => ?_, fun h => ?_, fun h => ?_, fun h => ?_, fun h => ?_, fun h => ?_, fun h1 h2 => ?_⟩
  · exact operand h (by decide) (by decide)
  · exact (operand h (by decide) (by decide)).trans (low l)
  · exact (operand h (by decide) (by decide)).trans (by decide : lo32 (BitVec.allOnes 64) = BitVec.allOnes 32)
  · exact (operand h (by decide) (by decide)).trans (low g.grpid)
  · exact (operand h (by decide) (by decide)).trans (low g.width)
  · exact (operand h (by decide) (by decide)).trans (low (clurankOf s g))
  · exact (operand h (by decide) (by decide)).trans (lo32_eq g.exec)
  · exact (operand h (by decide) (by decide)).trans (hi32_eq g.exec)
  · have e : src32 s g tInt before c l = constWord tInt c.toNat := by
      simp only [src32, if_neg (show ¬ c.toNat < 48 by omega), if_neg (show ¬ c.toNat < 64 by omega),
        if_neg (show ¬ c.toNat < 96 by omega), if_neg (show ¬ c.toNat < 104 by omega), if_neg (Nat.not_lt.2 h1)]
    rw [e]
    simp [constWord, constElem, tInt, Nat.mod_eq_of_lt (show c.toNat - 112 < 4294967296 by omega)]

end Sys2Proof

namespace Sys2Proof.Machine

/-! ### Writes to h registers (R26 to R28) -/

/-- A write of one clock: the group, its rank and its value. -/
abbrev SharedWrite := Nat × Nat × Word

/-- What stands after some writes join one that stands: the value of the highest rank, with every group that wrote. -/
theorem foldl_hJoin_some (ws : List SharedWrite) : ∀ w0 : HWrite, ∃ e : HWrite,
    ws.foldl (fun a y => some (hJoin a y.1 y.2.1 y.2.2)) (some w0) = some e ∧ w0.rank ≤ e.rank ∧ w0.groups ⊆ e.groups ∧
      (∀ y ∈ ws, y.2.1 ≤ e.rank ∧ y.1 ∈ e.groups) ∧
      ((e.value = w0.value ∧ e.rank = w0.rank) ∨ ∃ x ∈ ws, e.value = x.2.2 ∧ e.rank = x.2.1) := by
  induction ws with
  | nil => exact fun w0 => ⟨w0, rfl, le_rfl, List.Subset.refl _, by simp, .inl ⟨rfl, rfl⟩⟩
  | cons y ys ih =>
    intro w0
    obtain ⟨e, he, hr, hg, hall, hv⟩ := ih (hJoin (some w0) y.1 y.2.1 y.2.2)
    simp only [hJoin] at hr hg hv
    refine ⟨e, he, by omega, fun n hn => hg (by simp [hn]), ?_, ?_⟩
    · intro z hz
      rcases List.mem_cons.1 hz with rfl | hz
      · exact ⟨by omega, hg (by simp)⟩
      · exact hall z hz
    · rcases hv with ⟨v1, v2⟩ | ⟨x, hx, v⟩
      · by_cases c : w0.rank ≤ y.2.1
        · exact .inr ⟨y, by simp, by rw [v1, if_pos c], by omega⟩
        · exact .inl ⟨by rw [v1, if_neg c], by omega⟩
      · exact .inr ⟨x, by simp [hx], v⟩

/-- Of the writes of one clock the one of the highest rank remains (R27). -/
theorem foldl_hJoin_none {ws : List SharedWrite} (h : ws ≠ []) : ∃ e x,
    ws.foldl (fun a y => some (hJoin a y.1 y.2.1 y.2.2)) none = some e ∧ x ∈ ws ∧ e.value = x.2.2 ∧
      ∀ y ∈ ws, y.2.1 ≤ x.2.1 ∧ y.1 ∈ e.groups := by
  obtain ⟨y, ys, rfl⟩ := List.exists_cons_of_ne_nil h
  obtain ⟨e, he, hr, hg, hall, hv⟩ := foldl_hJoin_some ys (hJoin none y.1 y.2.1 y.2.2)
  simp only [hJoin] at hr hg hv
  have first : y.1 ∈ e.groups := hg (by simp)
  rcases hv with ⟨v1, v2⟩ | ⟨x, hx, v1, v2⟩
  · refine ⟨e, y, he, by simp, v1, fun z hz => ?_⟩
    rcases List.mem_cons.1 hz with rfl | hz
    · exact ⟨le_rfl, first⟩
    · exact v2 ▸ hall z hz
  · refine ⟨e, x, he, by simp [hx], v1, fun z hz => ?_⟩
    rcases List.mem_cons.1 hz with rfl | hz
    · exact ⟨v2 ▸ hr, first⟩
    · exact v2 ▸ hall z hz

/-- The rank of a write in its parts: landing, partition, barrel and group (R27). -/
theorem hRank_eq (g : Group) (landing : Bool) (h : g.grpid < 32) :
    hRank g landing = (if landing then 0 else 512) + 128 * (g.grpid % 4) + (if fromCompute g landing then 64 else 0) + g.grpid := by
  rw [hRank, Nat.mod_eq_of_lt (by omega : g.grpid < 64)]

theorem hRank_landing_lt (g g' : Group) (h : g.grpid < 32) (h' : g'.grpid < 32) : hRank g' true < hRank g false := by
  rw [hRank_eq g' true h', hRank_eq g false h]
  simp only [fromCompute, Bool.not_true, Bool.false_and, Bool.false_eq_true, if_false, if_true]
  omega

theorem hRank_lt_of_partition {g g' : Group} (landing : Bool) (h : g.grpid < 32) (c : g.grpid % 4 < g'.grpid % 4) (h' : g'.grpid < 32) :
    hRank g landing < hRank g' landing := by
  rw [hRank_eq g landing h, hRank_eq g' landing h']
  split_ifs <;> omega

/-- The values of h register r that a group may still read once write w stands (R28). -/
def seenAfter (w : HWrite) (n r : Nat) (old : Word) (seen : Table (List Word)) : Table (List Word) :=
  if w.groups.contains n then tblErase seen r else tblSet seen r (old :: (tblGet seen r).getD [])

/-- The clock ends in which one write stands: the register takes it, and each group of the team notes the value before. -/
theorem settleH_one {s : State} {n c r : Nat} {t : Team} {w : HWrite} (ht : tblGet s.teams n = some t) (hr : r < 16) (hc : c ≤ s.clock)
    (hn : t.hNew = [(16 * c + r, w)]) :
    settleH s n t = { s with
      teams := tblSet s.teams n { t with h := cellSet t.h r w.value, hNew := [] }
      groups := s.groups.map fun e => if e.2.team ≠ n then e else (e.1, { e.2 with
        hSeen := seenAfter w e.1 r (cellGet t.h r) e.2.hSeen, hHeld := seenAfter w e.1 r (cellGet t.h r) e.2.hHeld }) } := by
  have due : (16 * c + r) / 16 ≤ s.clock := by omega
  have reg : (16 * c + r) % 16 = r := by omega
  simp [settleH, hn, due, reg, State.upTeam, tblUp_of_some ht, hNote, seenAfter]

end Sys2Proof.Machine

namespace Sys2Proof
open Machine

/-- Settles O52: by induction over the writes of a clock, the arithmetic of ranks, and the one write that `settleH` makes stand. -/
theorem sharedRegisterWrites : Obligations.SharedRegisterWrites := by
  refine ⟨fun ws h => foldl_hJoin_none h, fun g g' h h' => ⟨hRank_landing_lt g g' h h', fun landing =>
    ⟨fun c => hRank_lt_of_partition landing h c h', fun c b b' => ?barrel, fun c b lt => ?group⟩⟩, fun s n c r t w ht hr hc hn => ?settle⟩
  case barrel =>
    rw [hRank_eq g landing h, hRank_eq g' landing h', c, b, b']
    simp only [Bool.false_eq_true, if_false, if_true]
    omega
  case group =>
    rw [hRank_eq g landing h, hRank_eq g' landing h', c, b]
    omega
  case settle =>
    rw [settleH_one ht hr hc hn]
    refine ⟨_, by rw [tblGet_tblSet, if_pos rfl], rfl, fun k => by simp only [cellGet_cellSet, eq_comm], fun m g hg hgt => ?_⟩
    rw [tblGet_map_group _ _ (fun e => by split_ifs <;> rfl), hg]
    refine ⟨_, rfl, fun hm => ?_, fun hm => ?_, fun k hk => ?_⟩
    · simp [hgt, seenAfter, hm]
    · simp [hgt, seenAfter, hm]
    · by_cases hm : m ∈ w.groups <;> simp [hgt, seenAfter, hm, Ne.symm hk]

end Sys2Proof

namespace Sys2Proof.Machine

/-! ### Retirement of an operation that writes vector registers (R20, R33) -/

theorem counterOf_ident (c : Counter) : counterOf c.ident = some c := by cases c <;> rfl

theorem ident_of_counterOf {i : Nat} {c : Counter} (h : counterOf i = some c) : c.ident = i := by
  unfold counterOf at h
  split at h <;> simp_all [Counter.ident] <;> subst h <;> rfl

theorem ident_injective {a b : Counter} (h : a.ident = b.ident) : a = b := by
  have := counterOf_ident a
  rw [h, counterOf_ident] at this
  exact (Option.some.inj this).symm

theorem ident_range (c : Counter) : 1 ≤ c.ident ∧ c.ident ≤ 7 := by cases c <;> decide

/-- The counters after one of the seven is set. -/
theorem counter_setCounter (g : Group) {i v j : Nat} (hi : 1 ≤ i) (hi7 : i ≤ 7) (hj : 1 ≤ j) (hl : g.ctr.length = 7) :
    counter (setCounter g i v) j = if i = j then v else counter g j := by
  simp only [counter, setCounter, List.getD_eq_getElem?_getD, List.getElem?_set]
  by_cases h : i = j
  · subst h
    rw [if_pos rfl, if_pos rfl, if_pos (by omega)]; rfl
  · rw [if_neg (by omega), if_neg h]

/-- The oldest operation on a counter. -/
theorem oldestOp_eq_some {g : Group} {o : Op} {older younger : List Op} (h : g.ops = older ++ o :: younger)
    (ho : ∀ p ∈ older, p.ctr ≠ o.ctr) : oldestOp g o.ctr = some o := by
  have e : older.find? (fun p => p.ctr == o.ctr) = none := by
    rw [List.find?_eq_none]
    intro p hp
    simpa using ho p hp
  simp [oldestOp, h, List.find?_append, e]

theorem oldestOp_eq_none {g : Group} {c : Counter} (h : ∀ o ∈ g.ops, o.ctr ≠ c) : oldestOp g c = none := by
  rw [oldestOp, List.find?_eq_none]
  intro o ho
  simpa using h o ho

/-- The flags that retirement sets, as a mask of the operation's (R37). -/
theorem orFlags_fpflags (fl : Word) (g : Group) : (orFlags fl.toNat g).fpflags = g.fpflags ||| (fl &&& 0x7F) := by
  have e : BitVec.ofNat 32 (fl.toNat % 128) = fl &&& 0x7F := by
    apply BitVec.eq_of_toNat_eq
    rw [BitVec.toNat_ofNat, BitVec.toNat_and]
    have : fl.toNat &&& (127 : Word).toNat = fl.toNat % 128 := Nat.and_two_pow_sub_one_eq_mod fl.toNat 7
    rw [this]
    omega
  rw [orFlags, e]

/-- The vector registers after an operation's values have landed in order. -/
def landVector (v : Cells 32) (ws : List (Reg × Word)) : Cells 32 :=
  ws.foldl (fun v w => match w.1 with
    | .v r l => cellSet v (laneCell r l) w.2
    | _ => v) v

/-- The values of an operation that writes vector registers which nothing else contests land in its group (R20, R21). -/
theorem foldl_landOne (s : State) (n : Nat) (o : Op) : ∀ (ws : List (Reg × Word)) (g : Group),
    (∀ w ∈ ws, ∃ r l, w.1 = Reg.v r l ∧ l < 64 ∧ g.contested.contains (o.uid, w.1) = false) →
    ws.foldl (fun s w => landOne s n o w.1 w.2) (s.putGroup n g) = s.putGroup n { g with v := landVector g.v ws }
  | [], g, _ => rfl
  | w :: ws, g, h => by
    obtain ⟨r, l, hw, -, hc⟩ := h w (by simp)
    have one : landOne (s.putGroup n g) n o w.1 w.2 = s.putGroup n { g with v := cellSet g.v (laneCell r l) w.2 } := by
      rw [landOne]
      simp only [State.putGroup_fields, tblGet_tblSet, if_true, hc, Bool.not_false]
      rw [hw, landReg, State.upGroup_putGroup]
    rw [List.foldl_cons, one, foldl_landOne s n o ws { g with v := cellSet g.v (laneCell r l) w.2 } fun w' hw' => h w' (by simp [hw'])]
    simp [landVector, hw]

/-- A cell that no write names keeps its value. -/
theorem cellGet_landVector_of_notMem (k : Nat) : ∀ (ws : List (Reg × Word)) (v : Cells 32),
    (∀ w ∈ ws, ∀ r l, w.1 = Reg.v r l → 64 * r + l ≠ k) → cellGet (landVector v ws) k = cellGet v k
  | [], _, _ => rfl
  | w :: ws, v, h => by
    have ih := cellGet_landVector_of_notMem k ws
    rw [landVector, List.foldl_cons]
    refine (ih _ fun w' hw' => h w' (by simp [hw'])).trans ?_
    split
    · rename_i r l e
      rw [cellGet_cellSet, laneCell, if_neg (h w (by simp) r l e)]
    · rfl

/-- Each of the values stands in its register. -/
theorem cellGet_landVector_of_mem : ∀ (ws : List (Reg × Word)) (v : Cells 32),
    (∀ w ∈ ws, ∃ r l, w.1 = Reg.v r l ∧ l < 64) → (ws.map (·.1)).Nodup →
    ∀ w ∈ ws, ∀ r l, w.1 = Reg.v r l → cellGet (landVector v ws) (64 * r + l) = w.2
  | [], _, _, _, w, hw, _, _, _ => absurd hw (by simp)
  | x :: ws, v, h, hnd, w, hw, r, l, e => by
    rw [List.map_cons, List.nodup_cons] at hnd
    obtain ⟨hx, hws⟩ := hnd
    rcases List.mem_cons.1 hw with rfl | hw
    · have fresh : ∀ w' ∈ ws, ∀ r' l', w'.1 = Reg.v r' l' → 64 * r' + l' ≠ 64 * r + l := by
        intro w' hw' r' l' e' c
        obtain ⟨r2, l2, e2, hl2⟩ := h w' (by simp [hw'])
        obtain ⟨r3, l3, e3, hl3⟩ := h w (by simp)
        have i2 : r2 = r' ∧ l2 = l' := by rw [e'] at e2; cases e2; exact ⟨rfl, rfl⟩
        have i3 : r3 = r ∧ l3 = l := by rw [e] at e3; cases e3; exact ⟨rfl, rfl⟩
        have : r' = r ∧ l' = l := by omega
        exact hx (List.mem_map.2 ⟨w', hw', by rw [e', e, this.1, this.2]⟩)
      have ih := cellGet_landVector_of_notMem (64 * r + l) ws (cellSet v (laneCell r l) w.2) fresh
      rw [landVector, List.foldl_cons, e]
      exact ih.trans (by simp [laneCell])
    · exact cellGet_landVector_of_mem ws _ (fun w' hw' => h w' (by simp [hw'])) hws w hw r l e

/-- The group that a retiring operation leaves: its counter lower, the operation gone, its values in their registers. -/
def retired (g : Group) (o : Op) : Group :=
  { orFlags o.flags.toNat (setCounter g o.ctr.ident (counter g o.ctr.ident - 1)) with
    ops := g.ops.filter fun x => x.uid != o.uid
    engChz := max g.engChz o.engC
    v := landVector g.v o.writes
    contested := g.contested.filter fun c => c.1 != o.uid }

/-- An operation without error that writes only uncontested vector registers retires (R20, R33, R37). -/
theorem retireOp_eq {s : State} {n : Nat} {g : Group} {o : Op} (hg : tblGet s.groups n = some g) (he : o.err = none)
    (hw : ∀ w ∈ o.writes, ∃ r l, w.1 = Reg.v r l ∧ l < 64 ∧ g.contested.contains (o.uid, w.1) = false) :
    retireOp s n o = s.putGroup n (retired g o) := by
  let g1 := orFlags o.flags.toNat { setCounter g o.ctr.ident (counter g o.ctr.ident - 1) with
    ops := g.ops.filter fun x => x.uid != o.uid
    engChz := max g.engChz o.engC }
  have landed := foldl_landOne s n o o.writes g1 hw
  rw [retireOp, State.upGroup_of_some hg, he]
  show State.upGroup (o.writes.foldl (fun s w => landOne s n o w.1 w.2) (s.putGroup n g1)) n _ = _
  rw [landed, State.upGroup_putGroup]
  rfl

end Sys2Proof.Machine

namespace Sys2Proof
open Machine

/-- Settles O50: the oldest operation is found on its counter, and what it leaves is `retired`. -/
theorem operationsRetire : Obligations.OperationsRetire := by
  intro s n g c hg h1 h7 h5
  have run : ∀ c' : Counter, c'.ident = c.toNat → exec (.operationRetire n c) s = .next (match oldestOp g c' with
      | some o => retireOldest s n g o
      | none => s) := by
    intro c' hc
    show execOperationRetire n c s = _
    rw [execOperationRetire, hg, ← hc, counterOf_ident]
    simp only [Option.bind_some]
    cases oldestOp g c' <;> rfl
  refine ⟨fun hnone => ?_, fun o older younger hops holder hctr => ?_⟩
  · obtain ⟨c', hc⟩ : ∃ c' : Counter, c'.ident = c.toNat := by
      have h : ∀ i, 1 ≤ i → i ≤ 7 → ∃ c', counterOf i = some c' := by
        intro i h1 h7; interval_cases i <;> exact ⟨_, rfl⟩
      obtain ⟨c', hc⟩ := h c.toNat h1 h7
      exact ⟨c', ident_of_counterOf hc⟩
    rw [run c' hc, oldestOp_eq_none fun o ho e => hnone o ho (by rw [e, hc])]
  have notCp : o.ctr ≠ .cp := fun e => h5 (by rw [← hctr, e]; rfl)
  have oldest : exec (.operationRetire n c) s = .next (if retireReady o then afterRetire (retireOp s n o) n else s) := by
    rw [run o.ctr hctr, oldestOp_eq_some hops fun p hp e => holder p hp (by rw [e, hctr])]
    simp only [retireOldest, if_neg notCp]
  refine ⟨fun hstage => ?_, fun hstage huid hend hlen herr hw hnd => ?_⟩
  · rw [oldest, if_neg (by simpa [retireReady] using hstage)]
  have others : (older ++ o :: younger).filter (fun x => x.uid != o.uid) = older ++ younger := by
    have keep : ∀ l : List Op, (∀ p ∈ l, p ∈ older ++ younger) → l.filter (fun x => x.uid != o.uid) = l := fun l hl =>
      List.filter_eq_self.2 fun p hp => by simpa using huid p (hl p hp)
    rw [List.filter_append, List.filter_cons_of_neg (by simp), keep older (by simp +contextual), keep younger (by simp +contextual)]
  have cnt : ∀ j, 1 ≤ j → counter (retired g o) j = if o.ctr.ident = j then counter g o.ctr.ident - 1 else counter g j := fun j hj =>
    counter_setCounter g (ident_range o.ctr).1 (ident_range o.ctr).2 hj hlen
  refine ⟨s.putGroup n (retired g o), retired g o, ?_, by simp, ?_, ?_, fun j hj _ hne => ?_, ?_, ?_, ?_, rfl, rfl, rfl, rfl, rfl, rfl, rfl,
    fun m hm => by simp [Ne.symm hm]⟩
  · rw [oldest, if_pos (by simp [retireReady, hstage]), retireOp_eq hg herr hw]
    have live : (retired g o).ended = false := hend
    simp [afterRetire, live]
  · rw [← others, ← hops]; rfl
  · rw [cnt c.toNat h1, if_pos hctr, hctr]
  · rw [cnt j hj, if_neg fun e => hne (by rw [← e, hctr])]
  · exact orFlags_fpflags o.flags _
  · exact cellGet_landVector_of_mem o.writes g.v (fun w h => by obtain ⟨r, l, e, hl, -⟩ := hw w h; exact ⟨r, l, e, hl⟩) hnd
  · exact fun k hk => cellGet_landVector_of_notMem k o.writes g.v hk

end Sys2Proof

namespace Sys2Proof.Machine

/-! ### The end of a group while its team lives (R144) -/

theorem mem_of_tblGet {α : Type} {t : Table α} {k : Nat} {x : α} (h : tblGet t k = some x) : (k, x) ∈ t := by
  induction t with
  | nil => simp at h
  | cons e t ih =>
    obtain ⟨j, y⟩ := e
    simp only [tblGet] at h
    split_ifs at h with c
    · cases h; simp [c]
    · exact List.mem_cons_of_mem _ (ih h)

theorem dropTx_frame (g : Group) : dropTx g = { g with tx := none, ops := (dropTx g).ops } := by
  unfold dropTx
  cases h : g.tx <;> simp [← h]

theorem dropTx_of_none {g : Group} (h : g.tx = none) : dropTx g = g := by simp [dropTx, h]

/-- A group outside a transaction that waits for no forced record keeps its operations as it ends (R243). -/
theorem endOps_eq {g : Group} (h : ∀ o ∈ g.ops, o.ctr = .sq → o.slot = 0) : endOps g = g.ops := by
  rw [endOps]
  refine (List.map_congr_left fun o ho => ?_).trans (List.map_id _)
  rw [if_neg fun c => c.2 (h o ho c.1)]; rfl

theorem drainWcb_of_nil {s : State} {n : Nat} {g : Group} (hg : tblGet s.groups n = some g) (h : g.wcb = []) : drainWcb s n = s := by
  simp [drainWcb, hg, h]

/-- A team without a divergence history updates none. -/
theorem histUpdate_of_not_hist {s : State} {g : Group} {t : Team} (ht : tblGet s.teams g.team = some t) (h : t.hist = false) :
    histUpdate s g = s := by
  unfold histUpdate
  rw [teamOf, ht]
  cases gridOf s g <;> simp [h]

theorem logPending_of_none {s : State} {n : Nat} {g : Group} (hg : tblGet s.groups n = some g)
    (h : ∀ c r, tblGet g.repErr c = some r → r.cause = none) : logPending s n = s := by
  have e : (List.range 8).findSome? (fun c => (tblGet g.repErr c).bind (·.cause)) = none := by
    rw [List.findSome?_eq_none_iff]
    intro c _
    cases hc : tblGet g.repErr c with
    | none => rfl
    | some r => exact h c r hc
  simp [logPending, hg, e]

/-- The group as it ends. -/
def endedGroup (g : Group) : Group :=
  { dropTx g with ended := true, wait := .none, handler := false, feed := none, ops := endOps (dropTx g) }

/-- Its team as it ends: its quartet has lost it, and its sequence slots are released. -/
def teamWithout (t : Team) (n : Nat) (g : Group) : Team :=
  { t with
    quartets := tblUp t.quartets (g.grpid / 4) fun q => { q with lost := g.grpid % 4 :: q.lost }
    seqs := t.seqs.filter fun e => e.2.owner != n }

/-- A group without history and without pending errors ends. -/
theorem endGroup_eq {s : State} {n : Nat} {g : Group} {t : Team} (hg : tblGet s.groups n = some g) (ht : tblGet s.teams g.team = some t)
    (hist : t.hist = false) (herr : ∀ c r, tblGet g.repErr c = some r → r.cause = none) :
    endGroup s n = { s.putGroup n (endedGroup g) with teams := tblSet s.teams g.team (teamWithout t n g) } := by
  have drop := dropTx_frame g
  unfold endGroup
  rw [hg]
  change logPending ((histUpdate (s.putGroup n (endedGroup g)) g).upTeam g.team _) n = _
  rw [histUpdate_of_not_hist (t := t) (by simpa using ht) hist, logPending_of_none (g := endedGroup g)]
  · simp only [State.upTeam, State.putGroup_fields, tblUp_of_some ht]
    rfl
  · simp [State.upTeam, endedGroup]
  · have e : (endedGroup g).repErr = g.repErr := by simp only [endedGroup]; rw [drop]
    rwa [e]

/-- A team with a live member does not end. -/
theorem settleTeam_of_live {s : State} {n m : Nat} {t : Team} {e : Group} (ht : tblGet s.teams n = some t) (hm : m ∈ t.groups)
    (he : tblGet s.groups m = some e) (live : e.ended = false) : settleTeam s n = s := by
  have h : liveMembers s n ≠ [] := by
    refine List.ne_nil_of_mem (a := m) ?_
    simp [liveMembers, ht, hm, he, live]
  simp [settleTeam, ht, h]

end Sys2Proof.Machine

namespace Sys2Proof
open Machine

/-- Settles O49: nothing drains and nothing is logged, and the live member keeps the team. -/
theorem groupsEnd : Obligations.GroupsEnd := by
  intro s g t m e hs ht hwcb hist herr hm hne he live
  have hg : tblGet s.groups s.cur = some g := hs
  have run : exec .exit s = .next { s.putGroup s.cur (endedGroup g) with teams := tblSet s.teams g.team (teamWithout t s.cur g) } := by
    refine (onGroup_of_some hs _).trans ?_
    rw [exitGroup, hg, drainWcb_of_nil hg hwcb]
    simp only
    rw [endGroup_eq hg ht hist herr, settleTeam_of_live (m := m) (t := teamWithout t s.cur g) (e := e)]
    · simp
    · exact hm
    · simp [he, Ne.symm hne]
    · exact live
  have drop := dropTx_frame g
  refine ⟨_, endedGroup g, teamWithout t s.cur g, run, by simp, by simp, rfl, rfl, ?_, rfl, rfl, ?_, fun htx hops => ?_, ?_, by simp,
    fun n hn => by simp [Ne.symm hn], rfl, rfl, fun j x hx => ?_, fun q hq => ?_⟩
  · simp only [endedGroup]; rw [drop]
  · simp only [endedGroup]; rw [drop]
  · show endOps (dropTx g) = g.ops
    rw [dropTx_of_none htx, endOps_eq hops]
  · simp only [endedGroup]; rw [drop]
  · have := (List.mem_filter.1 (mem_of_tblGet hx)).2
    simpa using this
  · exact ⟨_, by simp [teamWithout, hq]; rfl, by simp⟩

end Sys2Proof

namespace Sys2Proof.Machine

/-! ### Memory instructions issue (R33, R147 to R153) -/

/-- A memory instruction without a cause, whose counter has room, issues its operation. -/
theorem startMem_eq_issued {s : State} {g : Group} {i : Instr} {o : Op} {lanes : List LaneAcc} (h : CounterFree g o lanes)
    (dests : List Reg) : startMem s g i o none lanes dests = issued s g i o lanes dests := by
  have full : counterFull g (counterFor o lanes) = false := decide_eq_false (Nat.not_le.2 h)
  rw [startMem]
  simp only [full, Bool.false_eq_true, if_false]
  rfl

/-- An access whose lanes stand in their windows issues its operation. -/
theorem accessAt_eq_issued {s : State} {g : Group} {i : Instr} {o : Op} {ls : List Nat} {size : Nat} {glob stash : Bool}
    {raw : Nat → Word64} {win : Nat → Option Window} {data : Nat → List Byte}
    (hc : CounterFree g o (ls.map fun l => { lane := l, addr := ((win l).map windowAddr).getD (raw l), data := data l }))
    (hw : ∀ l ∈ ls, checkWindow s g size l (raw l) (win l) glob stash = []) (dests : List Reg) :
    accessAt s g i o ls size glob stash raw win data dests =
      issued s g i o (ls.map fun l => { lane := l, addr := ((win l).map windowAddr).getD (raw l), data := data l }) dests := by
  have none_found : ls.flatMap (fun l => checkWindow s g size l (raw l) (win l) glob stash) = [] := List.flatMap_eq_nil_iff.2 hw
  rw [accessAt, none_found]
  exact startMem_eq_issued hc dests

/-- LD, ST and LDC issue (R158, R159). -/
theorem genericAccess_issues {s : State} {g : Group} (hs : Selected s g) (i : Instr) (o : Op) (gd : BitVec 5) (d : BitVec 6) (b : BitVec 7)
    (off : Word64) (uni store stash : Bool) (size : Nat)
    (hc : CounterFree g o ((accessLanes g gd uni).map fun l =>
      { lane := l, addr := ((genericWindow (baseOf s g 0 b l + off)).map windowAddr).getD (baseOf s g 0 b l + off),
        data := if store then storeBytes s g 1 uni d.toNat size l else [] }))
    (hw : ∀ l ∈ accessLanes g gd uni, checkWindow s g size l (baseOf s g 0 b l + off) (genericWindow (baseOf s g 0 b l + off)) true stash = []) :
    genericAccess s i o gd d b off uni store stash size = .next (issued s g i o ((accessLanes g gd uni).map fun l =>
      { lane := l, addr := ((genericWindow (baseOf s g 0 b l + off)).map windowAddr).getD (baseOf s g 0 b l + off),
        data := if store then storeBytes s g 1 uni d.toNat size l else [] })
      (if store then [] else loadDests g uni d.toNat size (accessLanes g gd uni))) :=
  (onGroup_of_some hs _).trans (congrArg _ (accessAt_eq_issued hc hw _))

/-- LDS and STS issue (R158). -/
theorem stashAccess_issues {s : State} {g : Group} (hs : Selected s g) (i : Instr) (o : Op) (gd : BitVec 5) (d : BitVec 6) (b : BitVec 7)
    (off : Word64) (uni store : Bool) (size : Nat)
    (hc : CounterFree g o ((accessLanes g gd uni).map fun l =>
      { lane := l, addr := ((stashWindow (stashAddr s g 0 b off l)).map windowAddr).getD ((stashAddr s g 0 b off l).setWidth 64),
        data := if store then storeBytes s g 1 uni d.toNat size l else [] }))
    (hw : ∀ l ∈ accessLanes g gd uni,
      checkWindow s g size l ((stashAddr s g 0 b off l).setWidth 64) (stashWindow (stashAddr s g 0 b off l)) false true = []) :
    stashAccess s i o gd d b off uni store size = .next (issued s g i o ((accessLanes g gd uni).map fun l =>
      { lane := l, addr := ((stashWindow (stashAddr s g 0 b off l)).map windowAddr).getD ((stashAddr s g 0 b off l).setWidth 64),
        data := if store then storeBytes s g 1 uni d.toNat size l else [] })
      (if store then [] else loadDests g uni d.toNat size (accessLanes g gd uni))) :=
  (onGroup_of_some hs _).trans (congrArg _ (accessAt_eq_issued hc hw _))

/-! ### What issuing leaves before a translation is made (R31, R33, R162) -/

/-- The operation as it issues: the captured operands, its counter and its order. -/
def issuedOp (s : State) (g : Group) (i : Instr) (o : Op) (lanes : List LaneAcc) (dests : List Reg) : Op :=
  { o with
    uid := s.fresh, ctr := counterFor o lanes, words := wordsOf i, lanes := lanes, dests := dests
    order := if g.tx.isSome then .rlx else o.order }

/-- The group as the operation issues: its counter one higher, the operation its youngest. -/
def issuedGroup (s : State) (g : Group) (i : Instr) (o : Op) (lanes : List LaneAcc) (dests : List Reg) : Group :=
  { issueOp g (issuedOp s g i o lanes dests) with
    contested := g.contested ++ contestedDests g (counterFor o lanes) s.fresh dests }

theorem issued_eq_beginOp (s : State) (g : Group) (i : Instr) (o : Op) (lanes : List LaneAcc) (dests : List Reg) :
    issued s g i o lanes dests = beginOp (s.bump.putGroup s.cur (issuedGroup s g i o lanes dests)) s.cur s.fresh := rfl

/-- A fresh number names the youngest operation. -/
theorem findOp_append_of_fresh {g : Group} {o : Op} {ops : List Op} (hops : g.ops = ops ++ [o]) (h : ∀ p ∈ ops, p.uid < o.uid) :
    findOp g o.uid = some o := by
  have e : ops.find? (fun p => p.uid == o.uid) = none := by
    rw [List.find?_eq_none]
    intro p hp
    simpa using Nat.ne_of_lt (h p hp)
  simp [findOp, hops, List.find?_append, e]

/-- The operations of a group and its youngest, which the number `fresh` names. -/
theorem findOp_issuedGroup {s : State} {g : Group} (h : ∀ p ∈ g.ops, p.uid < s.fresh) (i : Instr) (o : Op) (lanes : List LaneAcc)
    (dests : List Reg) : findOp (issuedGroup s g i o lanes dests) s.fresh = some (issuedOp s g i o lanes dests) :=
  findOp_append_of_fresh (o := issuedOp s g i o lanes dests) rfl h

/-- An operation that releases nothing begins its access at once (R319). -/
theorem beginOp_of_not_releases {s : State} {n uid : Nat} {g : Group} {o : Op} (hg : tblGet s.groups n = some g) (ho : findOp g uid = some o)
    (hr : releases o.order = false) : beginOp s n uid = beginAccess s n uid := by
  simp [beginOp, hg, ho, hr]

/-- Where a lane needs a translation, the group waits for it (R162). -/
theorem beginAccess_waits {s : State} {n uid : Nat} {g : Group} {o : Op} (hg : tblGet s.groups n = some g) (ho : findOp g uid = some o)
    (hl : o.lanes ≠ []) (hf : allFree s n g o = false) : beginAccess s n uid = s.putGroup n { g with wait := .translate uid } := by
  simp [beginAccess, hg, ho, hf, hl]

/-- The kinds whose lanes in global memory nothing that the core holds serves (R155, R162): an atomic, a load performed at its home, and
with the L1 empty every load and store. -/
def needsTranslation (s : State) (g : Group) (o : Op) : Prop :=
  (∃ op ty d, o.kind = some (.atomic op ty d)) ∨
    (∃ n sg u d, o.kind = some (.load n sg u d)) ∧ (g.tx.isSome = true ∨ atHome o = true) ∨
    ((∃ n sg u d, o.kind = some (.load n sg u d)) ∨ ∃ n, o.kind = some (.store n)) ∧ ∀ c k, tblGet s.cores c = some k → k.l1 = []

theorem l1Hit_of_empty {s : State} (h : ∀ c k, tblGet s.cores c = some k → k.l1 = []) (c asid va : Nat) : l1Hit s c asid va = none := by
  unfold l1Hit
  cases e : tblGet s.cores c with
  | none => rfl
  | some k => simp [h c k e]

theorem l1Held_of_empty {s : State} (h : ∀ c k, tblGet s.cores c = some k → k.l1 = []) (c asid va : Nat) : l1Held s c asid va = none := by
  unfold l1Held
  cases e : tblGet s.cores c with
  | none => rfl
  | some k => simp [h c k e]

theorem freeSpot_global_eq_none {s : State} {g : Group} {o : Op} (h : needsTranslation s g o) (n lane : Nat) {a : Word64} {va : Nat}
    (ha : genericWindow a = some (.global va)) : freeSpot s n g o lane a = none := by
  unfold freeSpot
  rw [ha]
  simp only
  cases hc : (groupWho s n g).core with
  | none => rcases h with ⟨op, ty, d, hk⟩ | ⟨⟨m, sg, u, d, hk⟩, -⟩ | ⟨⟨m, sg, u, d, hk⟩ | ⟨m, hk⟩, -⟩ <;> simp [hk]
  | some c =>
    rcases h with ⟨op, ty, d, hk⟩ | ⟨⟨m, sg, u, d, hk⟩, ht⟩ | ⟨⟨m, sg, u, d, hk⟩ | ⟨m, hk⟩, hl⟩
    · simp [hk]
    · have e : (g.tx.isSome || atHome o) = true := by simpa using ht
      simp [hk, e]
    · simp [hk, l1Hit_of_empty hl]
    · simp [hk, l1Held_of_empty hl]

theorem allFree_eq_false {s : State} {n : Nat} {g : Group} {o : Op} (h : needsTranslation s g o)
    (hx : ∃ x ∈ o.lanes, ∃ va, genericWindow x.addr = some (.global va)) : allFree s n g o = false := by
  obtain ⟨x, hx, va, ha⟩ := hx
  have some_none : (o.lanes.all fun l => (freeSpot s n g o l.lane l.addr).isSome) = false := by
    rw [List.all_eq_false]
    exact ⟨x, hx, by simp [freeSpot_global_eq_none h n x.lane ha]⟩
  unfold allFree
  rcases h with ⟨op, ty, d, hk⟩ | ⟨⟨m, sg, u, d, hk⟩, -⟩ | ⟨⟨m, sg, u, d, hk⟩ | ⟨m, hk⟩, -⟩ <;> simp [hk, some_none]

/-- Issuing an operation that releases nothing and needs a translation leaves its group waiting, and nothing else changed. -/
theorem issued_waits {s : State} {g : Group} {i : Instr} {o : Op} {lanes : List LaneAcc} {dests : List Reg}
    (hr : releases o.order = false) (hf : ∀ p ∈ g.ops, p.uid < s.fresh) (hx : ∃ x ∈ lanes, ∃ va, genericWindow x.addr = some (.global va))
    (h : needsTranslation s g o) :
    issued s g i o lanes dests = s.bump.putGroup s.cur { issuedGroup s g i o lanes dests with wait := .translate s.fresh } := by
  set u := s.bump.putGroup s.cur (issuedGroup s g i o lanes dests) with hu
  have hg : tblGet u.groups s.cur = some (issuedGroup s g i o lanes dests) := by simp [hu]
  have ho := findOp_issuedGroup hf i o lanes dests
  have rel : releases (issuedOp s g i o lanes dests).order = false := by
    simp only [issuedOp]
    split_ifs
    · rfl
    · exact hr
  have need : needsTranslation u (issuedGroup s g i o lanes dests) (issuedOp s g i o lanes dests) := by
    refine h.imp id (Or.imp (fun hl => ⟨hl.1, ?_⟩) (fun hl => ⟨hl.1, by simpa [hu] using hl.2⟩))
    by_cases tx : g.tx.isSome = true
    · exact .inl tx
    · refine .inr ?_
      have order : (issuedOp s g i o lanes dests).order = o.order := if_neg tx
      have home := hl.2.resolve_left tx
      rwa [atHome, order]
  have nonempty : (issuedOp s g i o lanes dests).lanes ≠ [] := by
    obtain ⟨x, hx, -⟩ := hx
    exact List.ne_nil_of_mem hx
  rw [issued_eq_beginOp, beginOp_of_not_releases hg ho rel, beginAccess_waits hg ho nonempty (allFree_eq_false need hx), hu,
    State.putGroup_putGroup]

end Sys2Proof.Machine

namespace Sys2Proof
open Machine

/-- Settles O25: each form is a generic or a stash access, and an operation that needs a translation leaves its group waiting. -/
theorem loadsAndStoresIssue : Obligations.LoadsAndStoresIssue := by
  refine ⟨fun s g hs => ⟨fun gd d b x => ⟨?_, ?_, ?_, ?_, ?_⟩, fun t uni m => ⟨?_, ?_, ?_, ?_, ?_⟩⟩, ?_⟩
  · exact genericAccess_issues hs _ _ _ _ _ _ false false true 4
  · exact genericAccess_issues hs _ _ _ _ _ _ false true true 4
  · exact stashAccess_issues hs _ _ _ _ _ _ false false 4
  · exact stashAccess_issues hs _ _ _ _ _ _ false true 4
  · exact genericAccess_issues hs _ _ _ _ _ _ false false false 4
  · exact genericAccess_issues hs _ _ _ _ _ _ uni false true _
  · exact genericAccess_issues hs _ _ _ _ _ _ uni true true _
  · exact stashAccess_issues hs _ _ _ _ _ _ uni false _
  · exact stashAccess_issues hs _ _ _ _ _ _ uni true _
  · exact genericAccess_issues hs _ _ _ _ _ _ uni false false _
  intro s g i o lanes dests hs hr hf hctr hx hk
  have waits := issued_waits (i := i) (dests := dests) hr hf hx hk
  have range := ident_range (counterFor o lanes)
  have count : counter (issuedGroup s g i o lanes dests) (counterFor o lanes).ident = counter g (counterFor o lanes).ident + 1 :=
    (counter_setCounter g range.1 range.2 range.1 hctr).trans (if_pos rfl)
  dsimp only
  rw [waits]
  refine ⟨?_, ?_, ?_, { issuedGroup s g i o lanes dests with wait := .translate s.fresh }, ?_, rfl, rfl, rfl, rfl, rfl, rfl, rfl, rfl, count, ?_⟩
  · simp
  · simp
  · exact fun n hn => by simp [Ne.symm hn]
  · simp
  · rfl

end Sys2Proof

namespace Sys2Proof.Machine

/-! ### Atomics, multicasts and flagged stores issue (R169 to R181) -/

theorem atomBytes_eq : ∀ t : BitVec 3, atomBytes t.toNat = if t = 2 ∨ t = 3 then 8 else 4 := by decide

/-- A generic address below the windows is global (R148). -/
theorem genericWindow_of_lt {a : Word64} (h : a.toNat < 0xFC000000000000) : genericWindow a = some (.global a.toNat) :=
  if_pos h

theorem counterFree_iff (g : Group) {o : Op} {lanes : List LaneAcc} (h : counterFor o lanes = o.ctr) :
    CounterFree g o lanes ↔ counter g o.ctr.ident < 63 := by rw [CounterFree, h]

/-- A global address that is aligned gives no cause for ATOM2 (R176). -/
theorem checkAtom2_eq_nil {size l : Nat} {a : Word64} (h : a.toNat < 0xFC000000000000) (ha : a.toNat % size = 0) :
    checkAtom2 size l a = [] := by
  simp [checkAtom2, genericWindow_of_lt h, ha]

/-- Two different aligned words do not overlap (R176). -/
theorem overlapAtom2_eq_nil {size l : Nat} {a b : Word64} (ha : a.toNat % size = 0) (hb : b.toNat % size = 0) (hne : a ≠ b) :
    overlapAtom2 size l a b = [] := by
  have hn : a.toNat ≠ b.toNat := fun e => hne (BitVec.eq_of_toNat_eq e)
  refine if_neg fun ⟨h1, h2⟩ => hn ?_
  obtain ⟨x, hx⟩ := Nat.dvd_of_mod_eq_zero ha
  obtain ⟨y, hy⟩ := Nat.dvd_of_mod_eq_zero hb
  rw [hx, hy] at h1 h2
  have xy : x < y + 1 := lt_of_mul_lt_mul_left (by rw [Nat.mul_add, Nat.mul_one]; exact h1) (Nat.zero_le size)
  have yx : y < x + 1 := lt_of_mul_lt_mul_left (by rw [Nat.mul_add, Nat.mul_one]; exact h2) (Nat.zero_le size)
  rw [hx, hy, show x = y by omega]

/-- ATOM2 on two different aligned global words of each lane issues (R174 to R176). -/
theorem atom2_issues {s : State} {g : Group} (hs : Selected s g) {i : Instr} (gd : BitVec 5) (d : BitVec 6) (b1 b2 : BitVec 7) (w64 : Bool)
    (count results : Nat) (hctr : ∀ lanes, counterFor (opFields i) lanes = (opFields i).ctr) (hc : counter g (opFields i).ctr.ident < 63)
    (h : ∀ l ∈ lanesOf g.width (active g gd),
      ((baseOf s g 0 b1 l).toNat < 0xFC000000000000 ∧ (baseOf s g 0 b1 l).toNat % (if w64 then 8 else 4) = 0) ∧
      ((baseOf s g 2 b2 l).toNat < 0xFC000000000000 ∧ (baseOf s g 2 b2 l).toNat % (if w64 then 8 else 4) = 0) ∧
      baseOf s g 0 b1 l ≠ baseOf s g 2 b2 l) :
    atom2 s i gd d b1 b2 w64 count results = .next (issued s g i (opFields i)
      ((lanesOf g.width (active g gd)).map fun l =>
        { lane := l, addr := baseOf s g 0 b1 l, addr2 := baseOf s g 2 b2 l,
          data := wordsBytes (dataWords s g 1 false d.toNat ((if w64 then 8 else 4) * count) l) })
      (loadDests g false d.toNat ((if w64 then 8 else 4) * results) (lanesOf g.width (active g gd)))) := by
  have none_found : (lanesOf g.width (active g gd)).flatMap (fun l => checkAtom2 (if w64 then 8 else 4) l (baseOf s g 0 b1 l) ++
      checkAtom2 (if w64 then 8 else 4) l (baseOf s g 2 b2 l) ++
      overlapAtom2 (if w64 then 8 else 4) l (baseOf s g 0 b1 l) (baseOf s g 2 b2 l)) = [] := by
    refine List.flatMap_eq_nil_iff.2 fun l hl => ?_
    obtain ⟨⟨a1, a2⟩, ⟨b1, b2⟩, ne⟩ := h l hl
    rw [checkAtom2_eq_nil a1 a2, checkAtom2_eq_nil b1 b2, overlapAtom2_eq_nil a2 b2 ne]; rfl
  refine (onGroup_of_some hs _).trans (congrArg _ ?_)
  simp only [accessLanes, Bool.false_eq_true, if_false]
  rw [none_found]
  exact startMem_eq_issued ((counterFree_iff g (hctr _)).2 hc) _

end Sys2Proof.Machine

namespace Sys2Proof
open Machine

/-- Settles O28: ATOM, RED and ATOMS are accesses of one word for each lane, and ATOM2 finds no overlap. -/
theorem atomicsIssue : Obligations.AtomicsIssue := by
  intro s g hs
  refine ⟨fun aop t m => ?_, fun gd d b1 b2 w64 order scope => ?_⟩
  · dsimp only
    rw [← atomBytes_eq t]
    refine ⟨fun hw => ⟨fun hc => ?_, fun hc => ?_⟩, fun hw hc => ?_⟩
    · exact (onGroup_of_some hs _).trans (congrArg _ (accessAt_eq_issued hc hw _))
    · exact (onGroup_of_some hs _).trans (congrArg _ (accessAt_eq_issued hc hw _))
    · exact (onGroup_of_some hs _).trans (congrArg _ (accessAt_eq_issued hc hw _))
  · intro size ls a b aligned lanes h hc
    have amov := atom2_issues (i := .atom2Amov gd d b1 b2 w64 order scope) hs gd d b1 b2 w64 0 1 (fun _ => rfl) hc h
    rw [Nat.mul_one] at amov
    exact ⟨atom2_issues (i := .atom2Dcas gd d b1 b2 w64 order scope) hs gd d b1 b2 w64 4 3 (fun _ => rfl) hc h, amov⟩

end Sys2Proof

namespace Sys2Proof.Machine

/-- An aligned global address gives no cause (R148, R150). -/
theorem checkWindow_global_eq_nil {s : State} {g : Group} {n l : Nat} {a : Word64} (stash : Bool) (h : a.toNat < 0xFC000000000000)
    (ha : a.toNat % n = 0) : checkWindow s g n l a (genericWindow a) true stash = [] := by
  simp [checkWindow, genericWindow_of_lt h, ha]

/-- An aligned offset inside the stash gives no cause at a member (R149, R150). -/
theorem checkMember_eq_nil {s : State} {team size l : Nat} {a : Word64} {off : Nat} (h : off + size ≤ stashSize s team)
    (ha : off % size = 0) : checkMember s team size l a off = [] := by
  rw [checkMember, if_neg (Nat.not_lt.2 h), if_neg (by omega)]

theorem mem_membersOf {m : Word64} {top k : Nat} : k ∈ membersOf m top ↔ k < top ∧ m.getLsbD k = true := by simp [membersOf]

/-- STM.mdie of aligned global addresses to names below 48 finds no cause (R177). -/
theorem mdieTrap_eq_none {s : State} {g : Group} {size : Nat} {mask : Word64} {ls : List Nat} {a : Nat → Word64}
    (h : ∀ l ∈ ls, (a l).toNat < 0xFC000000000000 ∧ (a l).toNat % size = 0) (hm : ∀ k, 48 ≤ k → mask.getLsbD k = false) :
    mdieTrap s g size mask ls a = none := by
  have none_found : ls.flatMap (fun l => checkWindow s g size l (a l) (genericWindow (a l)) true false) = [] :=
    List.flatMap_eq_nil_iff.2 fun l hl => checkWindow_global_eq_nil false (h l hl).1 (h l hl).2
  have names : (List.range 16).find? (fun k => mask.getLsbD (48 + k)) = none := by
    rw [List.find?_eq_none]
    intro k _
    simp [hm (48 + k) (by omega)]
  rw [mdieTrap, none_found, names]
  simp [lowestFault]

/-- STM.mclu inside every member's stash finds no cause (R177). -/
theorem mcluFaults_eq_nil {s : State} {g : Group} {size : Nat} {mask : Word64} {bar : Option Word} {ls : List Nat} {a : Nat → Word64}
    (hstep : mask.toNat / 2 ^ 16 % 2 ^ 24 % 4 = 0) (hk : ∀ k, k < 16 → mask.getLsbD k = true → k < clusterSize s g.team)
    (ha : ∀ l ∈ ls, (a l).toNat < 2 ^ 24 ∧ ∀ k, k < 16 → mask.getLsbD k = true →
      (a l).toNat + k * (mask.toNat / 2 ^ 16 % 2 ^ 24) + size ≤ stashSize s g.team ∧
      ((a l).toNat + k * (mask.toNat / 2 ^ 16 % 2 ^ 24)) % size = 0)
    (hb : ∀ b, bar = some b → b.toNat < 2 ^ 24 ∧ b.toNat + 32 ≤ stashSize s g.team ∧ b.toNat % 32 = 0) :
    mcluFaults s g size mask bar ls a = [] := by
  refine List.flatMap_eq_nil_iff.2 fun l hl => ?_
  obtain ⟨hlow, hmem⟩ := ha l hl
  have low : ¬ (a l).toNat / 2 ^ 24 ≠ 0 := by omega
  have ranks : ((membersOf mask 16).any (fun k => clusterSize s g.team ≤ k) || mask.toNat / 2 ^ 16 % 2 ^ 24 % 4 != 0) = false := by
    rw [Bool.or_eq_false_iff, List.any_eq_false]
    refine ⟨fun k hmk => ?_, bne_eq_false_iff_eq.2 hstep⟩
    obtain ⟨h16, hbit⟩ := mem_membersOf.1 hmk
    simpa using hk k h16 hbit
  have members : ((membersOf mask 16).flatMap fun k =>
      checkMember s g.team size l (a l) ((a l).toNat + k * (mask.toNat / 2 ^ 16 % 2 ^ 24))) = [] := by
    refine List.flatMap_eq_nil_iff.2 fun k hmk => ?_
    obtain ⟨h16, hbit⟩ := mem_membersOf.1 hmk
    exact checkMember_eq_nil (hmem k h16 hbit).1 (hmem k h16 hbit).2
  simp only [if_neg low, ranks, members, Bool.false_eq_true, if_false, List.nil_append]
  cases bar with
  | none => rfl
  | some b =>
    obtain ⟨h1, h2, h3⟩ := hb b rfl
    have lowb : ¬ b.toNat / 2 ^ 24 ≠ 0 := by omega
    simp only [if_neg lowb]
    exact checkMember_eq_nil h2 h3

/-- STF to an aligned flag address in global memory finds no cause (R180). -/
theorem stfFlagFaults_eq_nil (ls : List Nat) {f : Word64} (h : f.toNat < 0xFC000000000000) :
    (match ls.head?, genericWindow f with
      | some _, some (.global _) => []
      | some l, _ => [({ code := 0x10, lane := l, addr := f } : LaneFault)]
      | none, _ => []) = [] := by
  rw [genericWindow_of_lt h]
  cases ls.head? <;> rfl

/-- An instruction whose checks find nothing issues. -/
theorem startMem_of_none {s : State} {g : Group} {i : Instr} {o : Op} {trap : Option Cause} {lanes : List LaneAcc} (ht : trap = none)
    (h : CounterFree g o lanes) (dests : List Reg) : startMem s g i o trap lanes dests = issued s g i o lanes dests := by
  rw [ht]; exact startMem_eq_issued h dests

/-! ### Tensor accesses (R166 to R168) -/

theorem counterFull_eq_false {g : Group} {c : Counter} (h : counter g c.ident < 63) : counterFull g c = false :=
  decide_eq_false (Nat.not_le.2 h)

/-- A tensor access of no lane issues an operation without lanes. -/
theorem tensorAccess_empty {s : State} {g : Group} (hs : Selected s g) {i : Instr} (gd : BitVec 5) (d : BitVec 6) (coord desc : BitVec 7)
    (t : BitVec 3) (clipping store : Bool) (hm : clip g (active g gd) = 0) (hk : counterFor (opFields i) [] = (opFields i).ctr)
    (hc : counter g (opFields i).ctr.ident < 63) :
    tensorAccess s i gd d coord desc t clipping store = .next (issued s g i (opFields i) [] []) := by
  refine (onGroup_of_some hs _).trans (congrArg _ ?_)
  simp only [counterFull_eq_false hc, hm, Bool.false_eq_true, if_false, if_true]
  exact startMem_eq_issued ((counterFree_iff g hk).2 hc) []

/-- The descriptor that a tensor access names, as it is fetched. -/
def tensorDesc (s : State) (g : Group) (desc : BitVec 7) : State × Except DescFault Desc :=
  fetchDesc s (groupWho s s.cur g) (((gridOf s g).map (·.launch)).map (·.desc.toNat) |>.getD 0)
    (((gridOf s g).map (·.launch)).map (·.ndesc) |>.getD 0) (usrc s g tInt 4 desc).toNat

/-- A descriptor that is invalid or out of the table is the descriptor trap. -/
theorem tensorAccess_invalid {s u : State} {g : Group} (hs : Selected s g) {i : Instr} (gd : BitVec 5) (d : BitVec 6) (coord desc : BitVec 7)
    (t : BitVec 3) (clipping store : Bool) (hm : clip g (active g gd) ≠ 0) (hc : counter g (opFields i).ctr.ident < 63)
    (hd : tensorDesc s g desc = (u, .error .desc)) :
    tensorAccess s i gd d coord desc t clipping store = .next (trapAt u u.cur 0x13 (clip g (active g gd))) := by
  refine (onGroup_of_some hs _).trans (congrArg _ ?_)
  unfold tensorDesc at hd
  simp only [counterFull_eq_false hc, hm, hd, Bool.false_eq_true, if_false]

theorem tensorTrap_eq_none {w : Nat} {lanes : List (Nat × TensorLane)} (h : ∀ x ∈ lanes, x.2.fault = none ∧ x.2.desc = false) :
    tensorTrap w lanes = none := by
  have faults : lanes.filterMap (fun x => x.2.fault) = [] := List.filterMap_eq_nil_iff.2 fun x hx => (h x hx).1
  have descs : (lanes.any fun x => x.2.desc) = false := by
    rw [List.any_eq_false]
    exact fun x hx => by simp [(h x hx).2]
  rw [tensorTrap, faults, descs]
  simp [lowestFault]

/-- The counter of an operation does not depend on the values it holds. -/
theorem counterFree_writes {g : Group} {o : Op} {lanes : List LaneAcc} (h : CounterFree g o lanes) (ws : List (Reg × Word)) :
    CounterFree g { o with writes := ws } lanes := h

/-- A tensor access whose lanes resolve without a cause issues, the clipped lanes of a load with the value 0. -/
theorem tensorAccess_issues {s u : State} {g : Group} {e : Desc} {lanes : List (Nat × TensorLane)} (hs : Selected s g) {i : Instr}
    (gd : BitVec 5) (d : BitVec 6) (coord desc : BitVec 7) (t : BitVec 3) (clipping store : Bool) (hm : clip g (active g gd) ≠ 0)
    (hc : counter g (opFields i).ctr.ident < 63) (hd : tensorDesc s g desc = (u, .ok e)) (hew : 8 * sizeOfTensor t % e.ew = 0)
    (hu : tblGet u.groups u.cur = some g) (hok : ∀ x ∈ lanes, x.2.eng = none ∧ x.2.fault = none ∧ x.2.desc = false)
    (hl : tensorLanes u g (groupWho s s.cur g) e coord (sizeOfTensor t) clipping
      (fun l => if store then storeBytes s g 5 false d.toNat (sizeOfTensor t) l else []) (lanesOf g.width (clip g (active g gd))) = (u, lanes))
    (hf : CounterFree g (opFields i) (lanes.filterMap fun x => x.2.acc)) :
    tensorAccess s i gd d coord desc t clipping store = .next (issued u g i
      { opFields i with writes := if store then [] else (lanes.filter fun x => x.2.clipped).flatMap fun x =>
        (loadDests g false d.toNat (sizeOfTensor t) [x.1]).map fun r => (r, (0 : Word)) }
      (lanes.filterMap fun x => x.2.acc)
      (if store then [] else loadDests g false d.toNat (sizeOfTensor t) (lanesOf g.width (clip g (active g gd))))) := by
  have engs : lanes.findSome? (fun x => x.2.eng) = none := List.findSome?_eq_none_iff.2 fun x hx => (hok x hx).1
  have trap : tensorTrap g.width lanes = none := tensorTrap_eq_none fun x hx => (hok x hx).2
  refine (onGroup_of_some hs _).trans (congrArg _ ?_)
  unfold tensorDesc at hd
  have even : ¬ 8 * sizeOfTensor t % e.ew ≠ 0 := not_not.2 hew
  simp only [counterFull_eq_false hc, if_neg hm, hd, if_neg even, hl, engs, trap, hu, Bool.false_eq_true, if_false]
  exact startMem_eq_issued (counterFree_writes hf _) _

end Sys2Proof.Machine

namespace Sys2Proof
open Machine

/-- Settles O30: the checks of each find nothing, and the tensor accesses are taken apart by what their descriptor gives. -/
theorem specialStoresAndTensors : Obligations.SpecialStoresAndTensors := by
  refine ⟨fun s g gd d b x t order scope hs => ⟨fun bar bars => ⟨fun hc ha hm => ?mdie, fun hc hstep hk ha hp => ?mclu⟩, fun hc ha hm => ?stf⟩,
    fun s g hs => ⟨fun lvl gd b off => onGroup_of_some hs _, fun gd d coord desc t order scope cache nt clipping => ?_⟩⟩
  case mdie =>
    refine (onGroup_of_some hs _).trans (congrArg _ (startMem_of_none (mdieTrap_eq_none ha hm) ?_ _))
    exact hc
  case mclu =>
    refine (onGroup_of_some hs _).trans (congrArg _ (startMem_of_none ?_ ?_ _))
    · refine congrArg lowestFault (mcluFaults_eq_nil hstep hk ha fun v hv => hp v.toNat ?_)
      cases bar
      · cases hv
      · cases hv; rfl
    · exact hc
  case stf =>
    have none_found : (lanesOf g.width (active g gd)).flatMap (fun l =>
        checkWindow s g (sizeOfType t) l (baseOf s g 0 b l) (genericWindow (baseOf s g 0 b l)) true false) = [] :=
      List.flatMap_eq_nil_iff.2 fun l hl => checkWindow_global_eq_nil false (ha l hl).1 (ha l hl).2
    refine (onGroup_of_some hs _).trans (congrArg _ (startMem_of_none ?_ ?_ _))
    · exact congrArg lowestFault (congrArg₂ _ none_found (stfFlagFaults_eq_nil _ hm))
    · exact hc
  let ld : Instr := .ldt gd d coord desc t order scope cache nt clipping
  let st : Instr := .stt gd d coord desc t order scope cache nt clipping
  refine ⟨fun hm => ⟨tensorAccess_empty (i := ld) hs gd d coord desc t clipping false hm rfl,
    tensorAccess_empty (i := st) hs gd d coord desc t clipping true hm rfl⟩, fun hm u e lanes => ?_⟩
  refine ⟨fun hd hc => tensorAccess_invalid (i := ld) hs gd d coord desc t clipping false hm hc hd,
    fun hd hc => tensorAccess_invalid (i := st) hs gd d coord desc t clipping true hm hc hd,
    fun hd hew hu hok => ⟨fun hl hc hf => ?_, fun hl hc hf => ?_⟩⟩
  · exact tensorAccess_issues (i := ld) hs gd d coord desc t clipping false hm hc hd hew hu hok hl hf
  · exact tensorAccess_issues (i := st) hs gd d coord desc t clipping true hm hc hd hew hu hok hl hf

end Sys2Proof

namespace Sys2Proof.Machine

/-! ### Operations of a group change (R33, R36) -/

/-- A change that keeps an operation's number is what a search for the number finds. -/
theorem findOp_upOp {g : Group} {uid : Nat} {o : Op} {f : Op → Op} (h : findOp g uid = some o) (hf : (f o).uid = o.uid) :
    findOp (upOp g uid f) uid = some (f o) := by
  simp only [findOp, upOp] at h ⊢
  generalize g.ops = ops at h ⊢
  induction ops with
  | nil => simp at h
  | cons p ps ih =>
    by_cases e : p.uid = uid
    · have hp : p = o := by simpa [List.find?_cons, e] using h
      subst hp
      simp [e, hf]
    · have h' : List.find? (fun x => x.uid == uid) ps = some o := by simpa [List.find?_cons, e] using h
      simpa [List.find?_cons, e] using ih h'

theorem uid_of_findOp {g : Group} {uid : Nat} {o : Op} (h : findOp g uid = some o) : o.uid = uid := by
  simpa using List.find?_some h

theorem upOperation_of_some {s : State} {n : Nat} {g : Group} (hg : tblGet s.groups n = some g) (uid : Nat) (f : Op → Op) :
    s.upOperation n uid f = s.putGroup n (upOp g uid f) := State.upGroup_of_some hg _

/-- An operation whose order acquires nothing completes: CHZ rises to its completion time (R36). -/
theorem completeOp_eq {s : State} {n uid : Nat} {g : Group} {o : Op} (hg : tblGet s.groups n = some g) (ho : findOp g uid = some o)
    (ha : acquires o.order = false) : completeOp s n uid =
      s.putGroup n { upOp g uid (fun o => { o with stage := .complete }) with chz := max g.chz o.ctime } := by
  rw [completeOp, State.upGroup_of_some hg]
  simp only [ho, ha, Bool.false_and, Bool.false_eq_true, if_false, Nat.max_zero]
  rfl

theorem writeAcknowledge_completes {s : State} {n : Nat} {g : Group} {o : Op} (hg : tblGet s.groups n = some g)
    (ho : findOp g o.uid = some o) (hstage : o.stage = .performed) (hctr : o.ctr ≠ .cp) (ha : acquires o.order = false)
    (hq : quiet s g o = true) : exec (.writeAcknowledge n o.uid) s = .next (s.putGroup n
      { upOp g o.uid (fun o => { o with stage := .complete }) with chz := max g.chz o.ctime }) := by
  show execWriteAcknowledge n o.uid s = _
  have ready : (o.stage == Stage.performed && o.ctr != Counter.cp && quiet s g o) = true := by simp [hstage, hctr, hq]
  simp only [execWriteAcknowledge, hg, ho, ready, if_true]
  rw [completeOp_eq hg ho ha]

/-- A memory instruction outside ordered mode runs its lanes once its translations end (R162). -/
theorem translationComplete_runs {s : State} {n uid : Nat} {g : Group} {o : Op} (hg : tblGet s.groups n = some g)
    (hw : g.wait = .translate uid) (ho : findOp g uid = some o) (hm : orderedMode s g = false) :
    exec (.translationComplete n) s = .next (afterRun (runLanes s n uid).1 n uid (runLanes s n uid).2) := by
  show execTranslationComplete n s = _
  have unbuffered : buffers s g = false := by simp [buffers, hm]
  simp only [execTranslationComplete, hg, Option.map_some, hw, runOp, ho, unbuffered, Bool.and_false, Bool.false_and, Bool.false_eq_true,
    if_false]

theorem wcbTimeout_sends {s : State} {n line : Nat} {g : Group} {x : BufLine} (hg : tblGet s.groups n = some g) (he : g.ended = false)
    (hx : g.wcb.find? (fun y => y.line.toNat == line) = some x) :
    exec (.wcbTimeout n line) s = .next (if x.last + 64 ≤ s.clock then sendWcb s n line else s) := by
  show execWcbTimeout n line s = _
  simp only [execWcbTimeout, hg, hx, he, Bool.false_eq_true, if_false]

/-- An operation that an expander leaves without an answer is given up (R425). -/
theorem tier2Timeout_givesUp {s : State} {n t : Nat} {g : Group} {o : Op} (hg : tblGet s.groups n = some g) (ho : findOp g o.uid = some o)
    (hstage : o.stage = .performed) (hs : o.since = some t) (ht : t + 60000 ≤ ticks s) :
    exec (.tier2Timeout n o.uid) s = .next (s.putGroup n (upOp g o.uid (giveUp s))) := by
  show execTier2Timeout n o.uid s = _
  rw [← upOperation_of_some hg]
  simp [execTier2Timeout, hg, ho, hstage, hs, ht]

/-- Every register of an operation that is given up has a value. -/
theorem giveUp_writes (s : State) (o : Op) {r : Reg} (hr : r ∈ o.dests) : ∃ w ∈ (giveUp s o).writes, w.1 = r := by
  by_cases h : ∃ w ∈ o.writes, w.1 = r
  · obtain ⟨w, hw, e⟩ := h
    exact ⟨w, List.mem_append_left _ hw, e⟩
  · refine ⟨(r, Config.freeWord s.draws (regIdx r)), List.mem_append_right _ (List.mem_map.2 ⟨r, List.mem_filter.2 ⟨hr, ?_⟩, rfl⟩), rfl⟩
    rw [Bool.not_eq_true', List.any_eq_false]
    exact fun w hw => by simpa using fun e => h ⟨w, hw, e⟩

/-- An acquire whose access is complete lets its group go on (R320). -/
theorem groupWaitMet_acquire {s : State} {n uid : Nat} {g : Group} {o : Op} (hg : tblGet s.groups n = some g) (he : g.ended = false)
    (hst : g.stopped = false) (hw : g.wait = .acquire uid) (ho : findOp g uid = some o) (hstage : o.stage = .complete) :
    exec (.groupWaitMet n) s = .next (s.putGroup n { g with wait := .none }) := by
  show execGroupWaitMet n s = _
  have looks : (g.ended || halted s g || looksAtTurn s g) = false := by simp [he, halted, hst, looksAtTurn, hw, longWait]
  simp [execGroupWaitMet, hg, looks, lookAgain, hw, ho, hstage]

/-- The flag of an STF is raised once every lane's data is visible (R181). -/
theorem stfFlagUpdate_raises {s : State} {n size : Nat} {f : Word64} {g : Group} {o : Op} (hg : tblGet s.groups n = some g)
    (ho : findOp g o.uid = some o) (hk : o.kind = some (.flagged size f)) (hstage : o.stage = .performed) (hneed : o.need = 1)
    (hfl : o.flight = []) (hrem : o.remote = []) (hl : linesAcked g o = true) (hfab : fabricOpen s o.uid = false)
    (hp : o.ctime + 2 ≤ ticks s) (hslot : o.slot < 2 ^ 60) (hbad : (loadAt s (some n) o.slot 8).2.bad = false) :
    exec (.stfFlagUpdate n o.uid) s =
      (let w := storeAt (dropOwnLine s n o.slot) (some n) o.slot (leBytes 8 ((leNat (loadAt s (some n) o.slot 8).2.bytes + 1) % 2 ^ 64))
      .next (landWrite (w.1.upOperation n o.uid fun o => { o with need := 0 }) n o.uid (lineOf o.slot) w.2)) := by
  show execStfFlagUpdate n o.uid s = _
  have ready : (o.stage != Stage.performed || o.need != 1 || o.flight != [] || o.remote != [] || !linesAcked g o || fabricOpen s o.uid ||
      !passes s o.ctime) = false := by
    simp [hstage, hneed, hfl, hrem, hl, hfab, passes, hp]
  simp only [execStfFlagUpdate, hg, ho, stfFlag, ready, hk, if_neg (Nat.not_le.2 hslot), hbad, Bool.false_eq_true, if_false]

/-! ### Rotations (R288, R289) -/

theorem rotationStart_compute {s : State} {core part : Nat} {c : Core} (hc : tblGet s.cores core = some c)
    (hd : computeDue (tblGet c.compute part) s.clock = true) :
    exec (.rotationStart core part false) s = .next (s.upCore core fun c =>
      { c with compute := tblSet c.compute part (rotationAt s.clock (occupiedSlots s core part)) }) := by
  show execRotationStart core part false s = _
  simp [execRotationStart, startRotation, hc, hd]

theorem rotationStart_access {s : State} {core part : Nat} {c : Core} {r : Rotation} (hc : tblGet s.cores core = some c)
    (hr : tblGet c.compute part = some r) (ho : rotationOver (tblGet c.access part) s.clock = true)
    (hd : r.start + r.length / 2 = s.clock) :
    ∃ u : State, exec (.rotationStart core part true) s = .next u ∧
      tblGet u.cores core = some { c with access := tblSet c.access part { r with start := s.clock } } ∧ u.groups = s.groups ∧ u.mem = s.mem := by
  have due : accessDue c part s.clock = true := by simp [accessDue, hr, ho, hd]
  have starts : startRotation core part true s = s.upCore core fun c =>
      { c with access := ((tblGet c.compute part).map fun r => tblSet c.access part { r with start := s.clock }).getD c.access } := by
    simp only [startRotation, hc, due, if_true]
  refine ⟨_, rfl, ?_⟩
  rw [starts]
  simp [hc, hr]

/-! ### Ordered rounds (R328 to R330) -/

/-- Of two, the one with the lower number, the earlier where they are equal. -/
def keepLeast {α : Type} (key : α → Nat) : Option α → α → Option α
  | none, e => some e
  | some z, e => if key e < key z then some e else some z

/-- A search for the least number finds the only one that has it. -/
theorem foldl_least {α : Type} (key : α → Nat) {x : α} : ∀ (l : List α) (m : Option α), (∀ y ∈ l, y ≠ x → key x < key y) →
    (m = some x ∨ x ∈ l ∧ ∀ y, m = some y → key x < key y) →
    l.foldl (keepLeast key) m = some x
  | [], m, _, h => by
    rcases h with h | ⟨h, -⟩
    · exact h
    · simp at h
  | e :: l, m, hl, h => by
    rw [List.foldl_cons]
    have rest : ∀ y ∈ l, y ≠ x → key x < key y := fun y hy => hl y (by simp [hy])
    refine foldl_least key l _ rest ?_
    by_cases ex : e = x
    · subst ex
      refine .inl ?_
      cases m with
      | none => rfl
      | some z =>
        rcases h with h | ⟨-, h⟩
        · cases h; simp [keepLeast]
        · simp [keepLeast, h z rfl]
    · have lt := hl e (by simp) ex
      rcases h with h | ⟨hx, h⟩
      · subst h
        exact .inl (by simp [keepLeast, Nat.not_lt.2 (Nat.le_of_lt lt)])
      · refine .inr ⟨by simpa [Ne.symm ex] using hx, fun y hy => ?_⟩
        cases m with
        | none => cases hy; exact lt
        | some z =>
          simp only [keepLeast] at hy
          split_ifs at hy
          · cases hy; exact lt
          · cases hy; exact h _ rfl

theorem nextTurn_eq_foldl (s : State) (r : Grid) (gs : List (Nat × Group)) : nextTurn s r gs =
    (gs.filter fun e => !r.turns.contains (globalIndex s e.2)).foldl (keepLeast fun e => globalIndex s e.2) none := by
  unfold nextTurn
  congr 1
  funext m e
  cases m <;> rfl

theorem nextTurn_eq_some {s : State} {r : Grid} {gs : List (Nat × Group)} {n : Nat} {g : Group} (h : (n, g) ∈ gs)
    (ht : r.turns.contains (globalIndex s g) = false)
    (hl : ∀ e ∈ gs, r.turns.contains (globalIndex s e.2) = false → e ≠ (n, g) → globalIndex s g < globalIndex s e.2) :
    nextTurn s r gs = some (n, g) := by
  rw [nextTurn_eq_foldl]
  refine foldl_least (fun e : Nat × Group => globalIndex s e.2) _ none (fun y hy hne => ?_) (.inr ⟨?_, by simp⟩)
  · obtain ⟨hm, hc⟩ := List.mem_filter.1 hy
    exact hl y hm (by simpa using hc) hne
  · rw [List.mem_filter]
    exact ⟨h, by rw [ht]; rfl⟩

/-- The next group in global order takes its turn (R328). -/
theorem orderedCommitPhase_turn {s : State} {grid n : Nat} {r : Grid} {g : Group} (hr : tblGet s.grids grid = some r) (hsv : r.saved = [])
    (ho : r.launch.ordered = true) (hst : s.stopping.contains r.ctx = false) (hne : gridGroups s grid ≠ [])
    (hall : ∀ e ∈ gridGroups s grid, e.2.stopped = false ∧ e.2.turn = .idle ∧ quantumOver e.2 = true)
    (hg : nextTurn s r (gridGroups s grid) = some (n, g)) :
    exec (.orderedCommitPhase grid) s =
      .next (takeTurn { s with grids := tblUp s.grids grid fun x => { x with committing := true } } grid n g) := by
  show execOrderedCommitPhase grid s = _
  have ended : ((gridGroups s grid).all fun e => quantumOver e.2) = true := List.all_eq_true.2 fun e he => (hall e he).2.2
  have moving : ((gridGroups s grid).any fun e => e.2.stopped) = false := List.any_eq_false.2 fun e he => by simp [(hall e he).1]
  have idle : ((gridGroups s grid).any fun e => e.2.turn != Turn.idle) = false := List.any_eq_false.2 fun e he => by simp [(hall e he).2.1]
  have some_ : (gridGroups s grid != []) = true := by simpa using hne
  have free : (!r.launch.ordered || !(r.committing || (gridGroups s grid != [] && (gridGroups s grid).all fun e => quantumOver e.2)) ||
      (r.saved != [] || s.stopping.contains r.ctx || (gridGroups s grid).any fun e => e.2.stopped) ||
      (gridGroups s grid).any fun e => e.2.turn != Turn.idle) = false := by
    rw [ho, some_, ended, hsv, hst, moving, idle]; simp
  simp only [execOrderedCommitPhase, hr, free, hg, Bool.false_eq_true, if_false]

/-- The condition on which a round of an ordered grid starts (R328). -/
def roundDue (s : State) (grid : Nat) (r : Grid) : Bool :=
  r.committing && r.saved == [] && ((gridGroups s grid).all fun e => r.turns.contains (globalIndex s e.2)) && !commitOpen s grid &&
    passes s r.commitTime

theorem orderedRoundStart_eq {s : State} {grid : Nat} {r : Grid} (hr : tblGet s.grids grid = some r) :
    exec (.orderedRoundStart grid) s = .next (if roundDue s grid r then
      { s with grids := tblUp s.grids grid fun x => { x with committing := false, turns := [], round := x.round + 1, commitTime := 0 } }
      else s) := by
  show execOrderedRoundStart grid s = _
  simp only [execOrderedRoundStart, hr]
  unfold roundDue
  split_ifs <;> rfl

end Sys2Proof.Machine

namespace Sys2Proof
open Machine

/-- Settles O53: one lemma for each event. -/
theorem operationsGoOn : Obligations.OperationsGoOn := by
  refine ⟨fun s n g hg => ⟨fun o ho hstage hctr ha hq => writeAcknowledge_completes hg ho hstage hctr ha hq,
    fun uid o hw ho hm => translationComplete_runs hg hw ho hm, congrArg _ (State.upGroup_of_some hg _),
    fun line x he hx => wcbTimeout_sends hg he hx, fun core line => rfl, fun o t ho hstage hs ht => ?tier2,
    fun core c part hc => ⟨rotationStart_compute hc, fun r hr ho hd => rotationStart_access hc hr ho hd⟩,
    fun uid o he hst hw ho hstage => groupWaitMet_acquire hg he hst hw ho hstage,
    fun o size f ho hk hstage hneed hfl hrem hl hfab hp hslot hbad =>
      stfFlagUpdate_raises hg ho hk hstage hneed hfl hrem hl hfab hp hslot hbad⟩, fun s grid r hr hsv => ?ordered⟩
  case tier2 =>
    refine ⟨_, upOp g o.uid (giveUp s), giveUp s o, tier2Timeout_givesUp hg ho hstage hs ht, by simp, findOp_upOp ho rfl, rfl,
      fun he => ?_, fun r hr => giveUp_writes s o hr, by simp⟩
    simp [giveUp, he, memError]
  case ordered =>
    refine ⟨fun ho hst hne hall n g hm ht hl =>
      orderedCommitPhase_turn hr hsv ho hst hne hall (nextTurn_eq_some hm ht hl), fun hc hall hopen hp => ?_, fun h => ?_⟩
    · have due : roundDue s grid r = true := by
        have turns : ((gridGroups s grid).all fun e => r.turns.contains (globalIndex s e.2)) = true := List.all_eq_true.2 hall
        have passed : passes s r.commitTime = true := decide_eq_true hp
        rw [roundDue, hc, turns, hopen, hsv, passed]; rfl
      rw [orderedRoundStart_eq hr, due]; rfl
    · have notDue : roundDue s grid r = false := by
        by_contra due
        simp only [roundDue, passes, Bool.not_eq_false, Bool.and_eq_true, List.all_eq_true, Bool.not_eq_true', decide_eq_true_eq] at due
        obtain ⟨⟨⟨⟨hc, -⟩, hall⟩, hopen⟩, hp⟩ := due
        rcases h with h | ⟨e, he, h⟩ | h | h
        · rw [hc] at h; exact absurd h (by decide)
        · exact absurd ((hall e he).symm.trans h) (by decide)
        · rw [hopen] at h; exact absurd h (by decide)
        · exact absurd hp (Nat.not_le.2 h)
      rw [orderedRoundStart_eq hr, notDue]; rfl

end Sys2Proof

namespace Sys2Proof.Machine

/-! ### A stash of which no slot binds a line (R147, R184) -/

/-- No slot of the team binds a line of its stash. -/
def Unbound (s : State) (team : Nat) : Prop := ((tblGet s.teams team).map (·.binds)).getD [] = []

theorem stashBinding_of_unbound {s : State} {team : Nat} (h : Unbound s team) (off : Nat) : stashBinding s team off = none := by
  unfold Unbound at h
  unfold stashBinding
  cases e : tblGet s.teams team with
  | none => rfl
  | some t =>
    have nil : t.binds = [] := by simpa [e] using h
    simp [nil, tblFind]

theorem boundLine_of_unbound {s : State} {team : Nat} (h : Unbound s team) (off : Nat) : boundLine s team off = none := by
  simp [boundLine, stashBinding_of_unbound h]

theorem touchStash_of_unbound {s : State} {team : Nat} (h : Unbound s team) (off : Nat) :
    touchStash s team off = (s, stashLoc team off, none) := by
  simp [touchStash, stashBinding_of_unbound h]

theorem enterStash_of_unbound {s : State} {team : Nat} (h : Unbound s team) (who : Option Nat) (off : Nat) (w : Bool) :
    enterStash s who team off w = s := by
  simp [enterStash, boundLine_of_unbound h]

theorem bindConflict_of_unbound {s : State} {team : Nat} (h : Unbound s team) (n uid off : Nat) : bindConflict s n uid team off = s := by
  have none_found : clashSlot s team off 1 = none := by
    rw [clashSlot, List.findSome?_eq_none_iff]
    exact fun p _ => by rw [touchStash_of_unbound h]
  rw [bindConflict, none_found]

theorem fillBad_of_unbound {s : State} {team : Nat} (h : Unbound s team) (off n : Nat) : fillBad s team off n = false := by
  simp [fillBad, boundLine_of_unbound h]

/-- Bytes within one line are one piece. -/
theorem pieces_within_line {off : Nat} {bs : List Byte} (h : off % 128 + bs.length ≤ 128) (hb : bs ≠ []) : pieces off bs = [(off, bs)] := by
  have whole : bs.length ≤ 128 - off % 128 := by omega
  simp [pieces, piecesFrom, hb, List.take_of_length_le whole, List.drop_of_length_le whole]

/-- The state with bytes stored in a stash: they stand in memory, and the errors of the units that they cover are gone. -/
def stashPut (s : State) (loc : Nat) (bs : List Byte) : State := { clearUnits s loc bs.length with mem := writeBytes s.mem loc bs }

theorem storeStash_of_unbound {s : State} {team off : Nat} {bs : List Byte} (h : Unbound s team) (n uid : Nat)
    (hl : off % 128 + bs.length ≤ 128) (hb : bs ≠ []) : storeStash s n uid team off bs = stashPut s (stashLoc team off) bs := by
  have kept : Unbound (stashPut s (stashLoc team off) bs) team := h
  have written : (stashWrite s (some n) team off bs).1 = stashPut s (stashLoc team off) bs := by
    simp only [stashWrite, pieces_within_line hl hb, List.foldl_cons, List.foldl_nil, enterStash_of_unbound h, touchStash_of_unbound h,
      boundLine_of_unbound h]
    rfl
  simp only [storeStash, bindConflict_of_unbound h, fillBad_of_unbound h, written, boundLine_of_unbound kept, Bool.false_eq_true, if_false]

/-- No unit of memory is lost: a read of stash bytes meets no error. -/
theorem badRead_stash {s : State} (h : s.ueUnits = []) (team off n : Nat) : badRead s (stashLoc team off) n = false := by
  have high : isHbm (stashLoc team off) = false := decide_eq_false (by unfold stashLoc; omega)
  simp [badRead, h, high]

theorem stashRead_of_unbound {s : State} {team : Nat} (h : Unbound s team) (hu : s.ueUnits = []) (who : Option Nat) (off n : Nat) :
    stashRead s who team off n =
      (s, { bytes := (List.range n).map fun i => readByte s.mem (stashLoc team (off + i)), ctime := 0, bad := false }) := by
  have entered : ∀ ps : List (Nat × Nat), ps.foldl (fun s p => enterStash s who team p.1 false) s = s := fun ps => by
    induction ps with
    | nil => rfl
    | cons p ps ih => rw [List.foldl_cons, enterStash_of_unbound h, ih]
  have zero : ∀ k : Nat, (List.replicate k 0).foldl max 0 = 0 := fun k => by
    induction k with
    | zero => rfl
    | succ k ih => simpa [List.replicate_succ] using ih
  simp [stashRead, entered, touchStash_of_unbound h, boundLine_of_unbound h, badRead_stash hu, zero]

/-! ### Windows of the team's own stash (R148) -/

theorem stashWindow_of_lt {a : Word} (h : a.toNat < 2 ^ 24) : stashWindow a = some (.stash none a.toNat) := by
  unfold stashWindow
  simp only
  rw [if_neg (by omega), if_neg (by omega), if_pos (by omega), Nat.mod_eq_of_lt h]

theorem windowAddr_own_toNat {off : Nat} (h : off < 2 ^ 24) : (windowAddr (.stash none off)).toNat = 0xFE * 2 ^ 48 + off := by
  rw [windowAddr, BitVec.toNat_ofNat]
  omega

theorem genericWindow_own {off : Nat} (h : off < 2 ^ 24) : genericWindow (windowAddr (.stash none off)) = some (.stash none off) := by
  have e := windowAddr_own_toNat h
  unfold genericWindow
  simp only
  rw [e, if_neg (by omega), if_pos (by omega)]
  congr 2
  omega

theorem isCluster_own {off : Nat} (h : off < 2 ^ 24) : isCluster (windowAddr (.stash none off)) = false := by
  rw [isCluster, windowAddr_own_toNat h]
  simp only [beq_eq_false_iff_ne]
  omega

theorem checkWindow_own_eq_nil {s : State} {g : Group} {n l off : Nat} (raw : Word64) (h : off + n ≤ stashSize s g.team) (ha : off % n = 0) :
    checkWindow s g n l raw (some (.stash none off)) false true = [] := by
  simp [checkWindow, ha, Nat.not_lt.2 h]

end Sys2Proof.Machine

namespace Sys2Proof.Machine

/-! ### Loads and stores of the team's own stash run at once (R153, R162) -/

theorem upOp_upOp (g : Group) (uid : Nat) {f : Op → Op} (f' : Op → Op) (hf : ∀ o, (f o).uid = o.uid) :
    upOp (upOp g uid f) uid f' = upOp g uid fun o => f' (f o) := by
  simp only [upOp, List.map_map]
  congr 1
  refine List.map_congr_left fun o _ => ?_
  by_cases e : o.uid = uid <;> simp [e, hf]

/-- A change of the youngest operation leaves the older ones. -/
theorem upOp_ops_of_youngest {g : Group} {o : Op} {older : List Op} (hops : g.ops = older ++ [o]) (h : ∀ p ∈ older, p.uid < o.uid)
    (f : Op → Op) : (upOp g o.uid f).ops = older ++ [f o] := by
  have keep : older.map (fun p => if p.uid = o.uid then f p else p) = older :=
    (List.map_congr_left fun p hp => if_neg (Nat.ne_of_lt (h p hp))).trans (List.map_id _)
  simp [upOp, hops, keep]

/-- The operation of a load or a store. -/
def Plain (k : MemKind) : Prop := (∃ size sg uni dst, k = .load size sg uni dst) ∨ ∃ size, k = .store size

theorem passLane_of_free {s : State} {n : Nat} {g : Group} {o : Op} {k : MemKind} {l : LaneAcc} {p : Spot} (hk : Plain k)
    (hl : l.lane < 64) (hf : freeSpot s n g o l.lane l.addr = some p) : passLane s n g o k l = (s, .ok { acc := l, spot := p }) := by
  have data : l.lane ≠ 64 := by omega
  rcases hk with ⟨size, sg, uni, dst, rfl⟩ | ⟨size, rfl⟩ <;> simp [passLane, passAddr, hf, data]

/-- The place of a lane whose address lies in the team's own stash. -/
def ownSpot (team : Nat) (l : LaneAcc) : Spot := .stash team (l.addr.toNat % 2 ^ 24)

/-- A lane stands in its own team's stash. -/
def OwnLane (l : LaneAcc) : Prop := l.lane < 64 ∧ genericWindow l.addr = some (.stash none (l.addr.toNat % 2 ^ 24))

theorem freeSpot_own {l : LaneAcc} (h : OwnLane l) (s : State) (n : Nat) (g : Group) (o : Op) :
    freeSpot s n g o l.lane l.addr = some (ownSpot g.team l) := by
  unfold freeSpot
  rw [h.2]
  rfl

/-- The lanes of an operation as they pass: each at its place in the stash. -/
def ownPassed (team : Nat) (ls : List LaneAcc) : List Passed := ls.map fun l => { acc := l, spot := ownSpot team l }

theorem passAll_own {k : MemKind} (hk : Plain k) (s : State) (n : Nat) (g : Group) (o : Op) : ∀ {ls : List LaneAcc},
    (∀ l ∈ ls, OwnLane l) → passAll s n g o k ls = (s, { ok := ownPassed g.team ls, stops := [] })
  | [], _ => rfl
  | l :: ls, h => by
    have head := h l (by simp)
    have tail := passAll_own hk s n g o fun x hx => h x (List.mem_cons_of_mem l hx)
    rw [passAll, passLane_of_free hk head.1 (freeSpot_own head s n g o)]
    simp only [tail]
    rfl

/-- Nothing of the group is in flight, and its accesses take no time (R308). Log entry 94. -/
def RunsAtOnce (s : State) (n : Nat) (g : Group) : Prop :=
  s.late.contains n = false ∧ g.tx = none ∧ orderedMode s g = false ∧ ∀ o ∈ g.ops, o.flight = []

theorem flies_eq_false {s : State} {n : Nat} {g : Group} (h : RunsAtOnce s n g) (uid : Nat) (k : MemKind) (p : Passed) :
    flies s n g uid k p = false := by
  obtain ⟨late, -, -, flight⟩ := h
  have empty : before s g uid p.acc.lane = [] := by
    refine List.flatMap_eq_nil_iff.2 fun o ho => ?_
    cases o.kind <;> simp [flight o ho]
  have clear : ∀ xs, meets xs [] = false := fun xs => by simp [meets]
  have now : takesTime s n g = false := by unfold takesTime; rw [late]; rfl
  simp [flies, now, heldUp, empty, clear]

theorem flyers_eq_nil {s : State} {n : Nat} {g : Group} (h : RunsAtOnce s n g) (uid : Nat) (k : MemKind) (ps : List Passed) :
    flyers s n g uid k ps = [] := by
  unfold flyers
  induction ps with
  | nil => rfl
  | cons p ps ih => simpa [flies_eq_false h, meets] using ih

/-- The operation as its lanes perform: none is left, and the place of the first is noted. -/
def lanesGone (place : Option Nat) (o : Op) : Op := { o with lanes := [], place := o.place.or place }

/-- The lanes of a load or store of the own stash perform at once, and none stops. -/
theorem runLanes_own {s : State} {n uid : Nat} {g : Group} {o : Op} {k : MemKind} (hg : tblGet s.groups n = some g)
    (ho : findOp g uid = some o) (hkind : o.kind = some k) (hk : Plain k) (hr : RunsAtOnce s n g) (hl : ∀ l ∈ o.lanes, OwnLane l) :
    ∃ place, runLanes s n uid =
      (performKind (s.putGroup n (upOp g uid (lanesGone place))) n uid k (ownPassed g.team o.lanes), []) := by
  have tx : g.tx.isSome = false := by rw [hr.2.1]; rfl
  have left : o.lanes.filter (fun l => !((ownPassed g.team o.lanes).any fun p => p.acc == l)) = [] := by
    rw [List.filter_eq_nil_iff]
    intro l hl
    simpa [ownPassed] using hl
  have stay : (ownPassed g.team o.lanes).filter (fun p => !([] : List Passed).contains p) = ownPassed g.team o.lanes := by simp
  let place := (ownPassed g.team o.lanes).head?.map fun p => placeOf p.spot
  have begun : (s.upOperation n uid (lanesGone place)).upOperation n uid (fun o => { o with flight := o.flight ++ [] }) =
      s.putGroup n (upOp g uid (lanesGone place)) := by
    rw [upOperation_of_some hg, upOperation_of_some (g := upOp g uid (lanesGone place)) (by simp), State.putGroup_putGroup,
      upOp_upOp g uid (f := lanesGone place) _ fun _ => rfl]
    simp only [List.append_nil]
  have gfx : isGfx k = false := by rcases hk with ⟨size, sg, uni, dst, rfl⟩ | ⟨size, rfl⟩ <;> rfl
  have passed := passAll_own hk s n g o hl
  refine ⟨place, ?_⟩
  unfold runLanes
  rcases hk with ⟨size, sg, uni, dst, rfl⟩ | ⟨size, rfl⟩ <;>
  · simp only [hg, ho, hkind, gfx, passed, Bool.false_eq_true, if_false, tx, flyers_eq_nil hr, left, stay]
    rw [← begun]
    rfl

theorem buffers_eq_false {s : State} {g : Group} (h : orderedMode s g = false) : buffers s g = false := by simp [buffers, h]

/-- A load or store of the own stash begins by running its lanes. -/
theorem beginAccess_own {s : State} {n uid : Nat} {g : Group} {o : Op} {k : MemKind} (hg : tblGet s.groups n = some g)
    (ho : findOp g uid = some o) (hkind : o.kind = some k) (hk : Plain k) (hr : RunsAtOnce s n g) (hl : ∀ l ∈ o.lanes, OwnLane l) :
    ∃ place, beginAccess s n uid =
      afterRun (performKind (s.putGroup n (upOp g uid (lanesGone place))) n uid k (ownPassed g.team o.lanes)) n uid [] := by
  obtain ⟨place, runs⟩ := runLanes_own hg ho hkind hk hr hl
  have free : allFree s n g o = true := by
    have lanes : (o.lanes.all fun l => (freeSpot s n g o l.lane l.addr).isSome) = true :=
      List.all_eq_true.2 fun l h => by rw [freeSpot_own (hl l h)]; rfl
    unfold allFree
    rw [hkind]
    rcases hk with ⟨size, sg, uni, dst, rfl⟩ | ⟨size, rfl⟩ <;> exact lanes
  refine ⟨place, ?_⟩
  simp only [beginAccess, runOp, hg, ho, free, buffers_eq_false hr.2.2.1, runs, Bool.or_true, Bool.and_false, Bool.false_and, if_true,
    Bool.false_eq_true, if_false]

/-- A relaxed load or store of the own stash that issues runs its lanes. -/
theorem issued_own {s : State} {g : Group} {i : Instr} {o : Op} {lanes : List LaneAcc} {dests : List Reg} {k : MemKind}
    (hf : ∀ p ∈ g.ops, p.uid < s.fresh) (hkind : o.kind = some k) (hk : Plain k) (hord : o.order = .rlx) (hfl : o.flight = [])
    (hr : RunsAtOnce s s.cur g) (hl : ∀ l ∈ lanes, OwnLane l) :
    ∃ place, issued s g i o lanes dests = afterRun (performKind (s.bump.putGroup s.cur
      (upOp (issuedGroup s g i o lanes dests) s.fresh (lanesGone place))) s.cur s.fresh k (ownPassed g.team lanes)) s.cur s.fresh [] := by
  have hg : tblGet (s.bump.putGroup s.cur (issuedGroup s g i o lanes dests)).groups s.cur = some (issuedGroup s g i o lanes dests) := by simp
  have ho := findOp_issuedGroup hf i o lanes dests
  have relaxed : (issuedOp s g i o lanes dests).order = .rlx := by simp [issuedOp, hord]
  have atOnce : RunsAtOnce (s.bump.putGroup s.cur (issuedGroup s g i o lanes dests)) s.cur (issuedGroup s g i o lanes dests) := by
    obtain ⟨late, tx, ordered, flight⟩ := hr
    refine ⟨late, tx, ordered, fun p hp => ?_⟩
    rcases List.mem_append.1 hp with hp | hp
    · exact flight p hp
    · rw [List.mem_singleton.1 hp]
      exact hfl
  obtain ⟨place, h⟩ := beginAccess_own hg ho hkind hk atOnce hl
  refine ⟨place, ?_⟩
  rw [issued_eq_beginOp, beginOp_of_not_releases hg ho (by rw [relaxed]; rfl), h, State.putGroup_putGroup]
  rfl

/-- Once its lanes have performed, an operation of which nothing is still to come is complete, and its group goes on (R36, R320). -/
theorem afterRun_completes {s : State} {n uid : Nat} {g : Group} {o : Op} (hg : tblGet s.groups n = some g) (ho : findOp g uid = some o)
    (hst : o.stage = .issued) (hord : o.order = .rlx) (htx : g.tx = none) (hfab : fabricOpen s o.uid = false)
    (hl : o.lanes = [] ∧ o.flight = [] ∧ o.remote = [] ∧ o.need = 0 ∧ o.lines = []) :
    afterRun s n uid [] = s.putGroup n { advance o.len { upOp g uid (fun o => { o with stage := .complete }) with
      chz := max g.chz o.ctime } with wait := .none } := by
  obtain ⟨lanes, flight, remote, need, lines⟩ := hl
  have going : performing s n uid = true := by simp [performing, hg, ho, hst]
  have still : quiet s g o = true := by simp [quiet, lanes, flight, remote, need, lines, hfab, inTx, htx, linesAcked]
  have finished : finishAccess s n uid = s.putGroup n { advance o.len { upOp g uid (fun o => { o with stage := .complete }) with
      chz := max g.chz o.ctime } with wait := .none } := by
    simp only [finishAccess, hg, ho, lines, still, decide_true, Bool.and_self, if_true]
    rw [completeOp_eq hg ho (by rw [hord]; rfl), State.upGroup_putGroup]
  rw [← finished]
  simp [afterRun, going, lowestTrap, hg, ho, lanes]

end Sys2Proof.Machine

namespace Sys2Proof.Machine

/-! ### What the lanes of a store and of a load of the own stash do (R151, R158) -/

/-- The offset of a lane in its stash. -/
def ownOff (l : LaneAcc) : Nat := l.addr.toNat % 2 ^ 24

/-- The lane's bytes lie within one line. -/
def WithinLine (l : LaneAcc) : Prop := ownOff l % 128 + l.data.length ≤ 128 ∧ l.data ≠ []

theorem storeLane_own {s : State} {n uid team : Nat} {g : Group} {o : Op} {l : LaneAcc} (hg : tblGet s.groups n = some g)
    (ho : findOp g uid = some o) (hm : orderedMode s g = false) (hb : Unbound s team) (hl : WithinLine l) :
    storeLane s n uid { acc := l, spot := ownSpot team l } = stashPut s (stashLoc team (ownOff l)) l.data := by
  rw [← storeStash_of_unbound hb n uid hl.1 hl.2]
  simp [storeLane, hg, ho, ownSpot, ownOff, buffers_eq_false hm]

/-- The lanes of a store of the own stash store their bytes in lane order, and change nothing else but the record of lost units. -/
theorem performStore_own {n uid team : Nat} {g : Group} {o : Op} (ho : findOp g uid = some o) (hst : o.stage = .issued) :
    ∀ (ls : List LaneAcc) (s : State), tblGet s.groups n = some g → orderedMode s g = false → Unbound s team → (∀ l ∈ ls, WithinLine l) →
      ∃ units, (ownPassed team ls).foldl (ifPerforming n uid fun s p => storeLane s n uid p) s =
        { s with ueUnits := units, mem := ls.foldl (fun m l => writeBytes m (stashLoc team (ownOff l)) l.data) s.mem }
  | [], s, _, _, _, _ => ⟨s.ueUnits, rfl⟩
  | l :: ls, s, hg, hm, hb, hl => by
    have going : performing s n uid = true := by simp [performing, hg, ho, hst]
    have first : ifPerforming n uid (fun s p => storeLane s n uid p) s { acc := l, spot := ownSpot team l } =
        stashPut s (stashLoc team (ownOff l)) l.data := by
      rw [ifPerforming, if_pos going]
      exact storeLane_own hg ho hm hb (hl l (by simp))
    obtain ⟨units, rest⟩ := performStore_own (team := team) ho hst ls (stashPut s (stashLoc team (ownOff l)) l.data) hg hm hb
      fun x hx => hl x (List.mem_cons_of_mem l hx)
    refine ⟨units, ?_⟩
    show (ownPassed team ls).foldl _ (ifPerforming n uid _ s { acc := l, spot := ownSpot team l }) = _
    rw [first, rest]
    rfl

/-- Bytes stored one lane after another leave every byte outside them. -/
theorem readByte_foldl_writeBytes {α : Type} (at_ : α → Nat) (data : α → List Byte) (a : Nat) : ∀ (ls : List α) (m : Cells 8),
    (∀ l ∈ ls, a < at_ l ∨ at_ l + (data l).length ≤ a) →
      readByte (ls.foldl (fun m l => writeBytes m (at_ l) (data l)) m) a = readByte m a
  | [], _, _ => rfl
  | l :: ls, m, h => by
    rw [List.foldl_cons, readByte_foldl_writeBytes at_ data a ls _ fun x hx => h x (List.mem_cons_of_mem l hx)]
    rcases h l (by simp) with lt | ge
    · exact readByte_writeBytes_of_lt _ _ _ _ lt
    · exact readByte_writeBytes_of_ge _ _ _ _ ge

/-- Values join those that the operation holds. -/
def takeWrites (ws : List (Reg × Word)) (o : Op) : Op := { o with writes := o.writes ++ ws }

theorem takeWrites_takeWrites (a b : List (Reg × Word)) (o : Op) : takeWrites b (takeWrites a o) = takeWrites (a ++ b) o := by
  simp only [takeWrites, List.append_assoc]

theorem landRead_good {s : State} {n uid : Nat} {g : Group} (hg : tblGet s.groups n = some g) (regs : List Reg) (l : Nat) (ws : List Word)
    (bs : List Byte) : landRead s n uid regs l ws { bytes := bs, ctime := 0, bad := false } =
      s.putGroup n (upOp g uid (takeWrites (regs.zip ws))) := by
  rw [landRead, State.upGroup_of_some hg]
  simp only [Nat.max_zero, Bool.false_eq_true, if_false]
  rfl

theorem overlay_nil (loc : Nat) (bs : List Byte) : overlay [] loc bs = bs := by
  apply List.ext_getElem <;> simp +contextual [overlay, bufByte]

theorem clipRead_whole {l : LaneAcc} (h : l.clipped = []) (bs : List Byte) : clipRead l bs = bs := by
  apply List.ext_getElem <;> simp +contextual [clipRead, h]

/-- Word k of some bytes given by a function, low byte first (R5). -/
def byteWord (f : Nat → Byte) (k : Nat) : Word :=
  BitVec.ofNat 32 ((f (4 * k)).toNat + 2 ^ 8 * (f (4 * k + 1)).toNat + 2 ^ 16 * (f (4 * k + 2)).toNat + 2 ^ 24 * (f (4 * k + 3)).toNat)

theorem bytesNum_eq (f : Nat → Byte) {size k : Nat} (h : 4 * k + 4 ≤ size) :
    bytesNum ((List.range size).map f) (4 * k) 4 =
      (f (4 * k)).toNat + 2 ^ 8 * (f (4 * k + 1)).toNat + 2 ^ 16 * (f (4 * k + 2)).toNat + 2 ^ 24 * (f (4 * k + 3)).toNat := by
  have four : (((List.range size).map f).drop (4 * k)).take 4 = [f (4 * k), f (4 * k + 1), f (4 * k + 2), f (4 * k + 3)] := by
    apply List.ext_getElem
    · simp; omega
    · intro i h1 h2
      have : i < 4 := by simpa using h2
      interval_cases i <;> simp
  rw [bytesNum, four]
  simp only [leNat]
  omega

/-- Loaded bytes of whole words, as the words that their registers take. -/
theorem loadWords_whole (f : Nat → Byte) (m : Nat) : loadWords false ((List.range (4 * m)).map f) = (List.range m).map (byteWord f) := by
  have words : regsFor ((List.range (4 * m)).map f).length = m := by simp [regsFor]; omega
  simp only [loadWords, Bool.false_and, Bool.false_eq_true, if_false, bytesWords, words]
  refine List.map_congr_left fun k hk => ?_
  have : k < m := List.mem_range.1 hk
  rw [bytesNum_eq f (by omega), byteWord]

/-- What a lane's load of m words gives its registers. -/
def laneWrites (mem : Cells 8) (team dst m : Nat) (l : LaneAcc) : List (Reg × Word) :=
  (List.range m).map fun k => (Reg.v (dst + k) l.lane, byteWord (fun i => readByte mem (stashLoc team (ownOff l + i))) k)

theorem loadLane_own {s : State} {n uid team m dst : Nat} {g : Group} {o : Op} {l : LaneAcc} (hg : tblGet s.groups n = some g)
    (ho : findOp g uid = some o) (hsb : g.sbuf = []) (hu : s.ueUnits = []) (hb : Unbound s team) (hc : l.clipped = []) :
    loadLane s n uid (4 * m) false false dst { acc := l, spot := ownSpot team l } =
      s.putGroup n (upOp g uid (takeWrites (laneWrites s.mem team dst m l))) := by
  have regs : regsFor (4 * m) = m := by unfold regsFor; omega
  have zipped : ((List.range m).map fun k => dataReg g false dst k l.lane).zip
      ((List.range m).map (byteWord fun i => readByte s.mem (stashLoc team (ownOff l + i)))) = laneWrites s.mem team dst m l := List.zip_map'
  simp only [loadLane, hg, ho, ownSpot, bindConflict_of_unbound hb, stashRead_of_unbound hb hu, hsb, overlay_nil, clipRead_whole hc,
    loadWords_whole, regs, landRead_good hg]
  rw [← zipped]
  rfl

theorem upOp_takeWrites_nil (g : Group) (uid : Nat) : upOp g uid (takeWrites []) = g := by
  have same : g.ops.map (fun o => if o.uid = uid then takeWrites [] o else o) = g.ops :=
    (List.map_congr_left fun o _ => by simp [takeWrites]).trans (List.map_id _)
  rw [upOp, same]

/-- The lanes of a load of the own stash give their registers' values to the operation, and change nothing else. -/
theorem performLoad_own {n uid team m dst : Nat} (s : State) (hu : s.ueUnits = []) (hb : Unbound s team) : ∀ (ls : List LaneAcc) (g : Group)
    (o : Op), findOp g uid = some o → o.stage = .issued → g.sbuf = [] → (∀ l ∈ ls, l.clipped = []) →
      (ownPassed team ls).foldl (ifPerforming n uid fun s p => loadLane s n uid (4 * m) false false dst p) (s.putGroup n g) =
        s.putGroup n (upOp g uid (takeWrites (ls.flatMap (laneWrites s.mem team dst m))))
  | [], g, _, _, _, _, _ => by rw [List.flatMap_nil, upOp_takeWrites_nil]; rfl
  | l :: ls, g, o, ho, hst, hsb, hc => by
    have hg : tblGet (s.putGroup n g).groups n = some g := by simp
    have going : performing (s.putGroup n g) n uid = true := by simp [performing, ho, hst]
    have first : ifPerforming n uid (fun s p => loadLane s n uid (4 * m) false false dst p) (s.putGroup n g)
        { acc := l, spot := ownSpot team l } = s.putGroup n (upOp g uid (takeWrites (laneWrites s.mem team dst m l))) := by
      rw [ifPerforming, if_pos going]
      show loadLane _ n uid (4 * m) false false dst _ = _
      rw [loadLane_own hg ho hsb hu hb (hc l (by simp)), State.putGroup_putGroup]
      rfl
    have rest := performLoad_own (n := n) (uid := uid) (m := m) (dst := dst) s hu hb ls (upOp g uid (takeWrites (laneWrites s.mem team dst m l)))
      (takeWrites (laneWrites s.mem team dst m l) o) (findOp_upOp ho rfl) hst hsb fun x hx => hc x (List.mem_cons_of_mem l hx)
    show (ownPassed team ls).foldl _ (ifPerforming n uid _ (s.putGroup n g) { acc := l, spot := ownSpot team l }) = _
    rw [first, rest, upOp_upOp g uid (f := takeWrites (laneWrites s.mem team dst m l)) _ fun _ => rfl]
    simp only [takeWrites_takeWrites, List.flatMap_cons]

end Sys2Proof.Machine

namespace Sys2Proof.Machine

/-! ### Long accesses to the team's own stash complete at once (R36, R153, R158) -/

/-- The lanes of an access to the own stash, with their data. -/
def ownLanes (ls : List Nat) (off : Nat → Nat) (data : Nat → List Byte) : List LaneAcc :=
  ls.map fun l => { lane := l, addr := windowAddr (.stash none (off l)), data := data l }

theorem ownOff_windowAddr {off : Nat} (h : off < 2 ^ 24) (l : Nat) (data : List Byte) :
    ownOff { lane := l, addr := windowAddr (.stash none off), data := data } = off := by
  rw [ownOff, windowAddr_own_toNat h]
  omega

theorem ownLane_windowAddr {off l : Nat} (h : off < 2 ^ 24) (hl : l < 64) (data : List Byte) :
    OwnLane { lane := l, addr := windowAddr (.stash none off), data := data } := by
  have e := ownOff_windowAddr h l data
  unfold ownOff at e
  exact ⟨hl, by rw [e]; exact genericWindow_own h⟩

theorem counterFor_ownLanes {c : Counter} {k : MemKind} {m : MLOps} {ls : List Nat} {off : Nat → Nat} (h : ∀ l ∈ ls, off l < 2 ^ 24)
    (data : Nat → List Byte) : counterFor (longOp c k m) (ownLanes ls off data) = c := by
  have none_cluster : ((ownLanes ls off data).any fun l => isCluster l.addr) = false := by
    rw [List.any_eq_false]
    intro x hx
    obtain ⟨l, hl, rfl⟩ := List.mem_map.1 hx
    simp [isCluster_own (h l hl)]
  unfold counterFor
  rw [none_cluster]
  split <;> rfl

/-- A long access whose lanes stand in the own stash, inside it and aligned, issues with these lanes. -/
theorem stashAccess_own {s : State} {g : Group} (hs : Selected s g) (i : Instr) {c : Counter} {k : MemKind} {m : MLOps} (store : Bool)
    {size : Nat} {off : Nat → Nat} (hoff : ∀ l, (stashAddr s g 0 m.b (m.offset.signExtend 64) l).toNat = off l)
    (hc : counter g c.ident < 63)
    (hl : ∀ l ∈ lanesOf g.width (active g m.g), off l < 2 ^ 24 ∧ off l + size ≤ stashSize s g.team ∧ off l % size = 0) :
    ∃ dests, stashAccess s i (longOp c k m) m.g m.d m.b (m.offset.signExtend 64) false store size =
      .next (issued s g i (longOp c k m) (ownLanes (lanesOf g.width (active g m.g)) off fun l =>
        if store then storeBytes s g 1 false m.d.toNat size l else []) dests) := by
  have window : ∀ l ∈ lanesOf g.width (active g m.g),
      stashWindow (stashAddr s g 0 m.b (m.offset.signExtend 64) l) = some (.stash none (off l)) := fun l h => by
    rw [← hoff l]
    exact stashWindow_of_lt (by rw [hoff l]; exact (hl l h).1)
  have lanes : ((accessLanes g m.g false).map fun l => ({
      lane := l
      addr := ((stashWindow (stashAddr s g 0 m.b (m.offset.signExtend 64) l)).map windowAddr).getD
        ((stashAddr s g 0 m.b (m.offset.signExtend 64) l).setWidth 64)
      data := if store then storeBytes s g 1 false m.d.toNat size l else [] } : LaneAcc)) =
      ownLanes (lanesOf g.width (active g m.g)) off fun l => if store then storeBytes s g 1 false m.d.toNat size l else [] :=
    List.map_congr_left fun l h => by rw [window l h]; rfl
  rw [← lanes]
  refine ⟨_, stashAccess_issues hs i _ m.g m.d m.b _ false store size ?_ fun l h => ?_⟩
  · rw [lanes, CounterFree, counterFor_ownLanes fun l h => (hl l h).1]
    exact hc
  · rw [window l h]
    exact checkWindow_own_eq_nil _ (hl l h).2.1 (hl l h).2.2

/-- What a performed access holds: no lane left, and the values that its lanes gave. -/
def performed (place : Option Nat) (ws : List (Reg × Word)) (o : Op) : Op := takeWrites ws (lanesGone place o)

/-- The group of a long access that has performed and completed at once. -/
structure AccessDone (g g' : Group) (c : Counter) (ws : List (Reg × Word)) : Prop where
  atNext : AtNext 2 g g'
  regs : g'.v = g.v ∧ g'.s = g.s ∧ g'.p = g.p ∧ g'.exec = g.exec ∧ g'.q = g.q ∧ g'.fpflags = g.fpflags ∧ g'.chz = g.chz
  wait : g'.wait = .none
  count : counter g' c.ident = counter g c.ident + 1
  op : ∃ o : Op, g'.ops = g.ops ++ [o] ∧ o.ctr = c ∧ o.stage = .complete ∧ o.err = none ∧ o.writes = ws

/-- A group whose counter, operations and contested registers alone have changed goes on to the next word. -/
theorem accessDone_advance {g h : Group} {c : Counter} {ws : List (Reg × Word)}
    (hh : h = { g with chz := h.chz, ctr := h.ctr, ops := h.ops, contested := h.contested }) (hz : h.chz = g.chz)
    (hc : counter h c.ident = counter g c.ident + 1)
    (hops : ∃ o : Op, h.ops = g.ops ++ [o] ∧ o.ctr = c ∧ o.stage = .complete ∧ o.err = none ∧ o.writes = ws) :
    AccessDone g { advance 2 h with wait := .none } c ws where
  atNext := by
    have next : AtNext 2 g (advance 2 h) := by rw [hh]; exact atNext_advance 2 rfl rfl rfl rfl rfl
    exact next
  regs := by
    simp only [advance_fields, hz, and_true]
    rw [hh]
    simp only [and_self]
  wait := rfl
  count := by simpa [counter] using hc
  op := by simpa using hops

/-- The operation of a performed access completes. -/
def completed (place : Option Nat) (ws : List (Reg × Word)) (o : Op) : Op := { performed place ws o with stage := .complete }

/-- What completion leaves in the group whose youngest operation has performed. -/
theorem accessDone_completed {g h : Group} {o : Op} {c : Counter} (place : Option Nat) (ws : List (Reg × Word))
    (hh : h = { g with ctr := h.ctr, ops := h.ops, contested := h.contested }) (hops : h.ops = g.ops ++ [o])
    (hf : ∀ p ∈ g.ops, p.uid < o.uid) (hc : counter h c.ident = counter g c.ident + 1)
    (ho : o.ctr = c ∧ o.err = none ∧ o.writes = [] ∧ o.ctime = 0) :
    AccessDone g { advance 2 { upOp h o.uid (completed place ws) with chz := max h.chz o.ctime } with wait := .none } c ws := by
  obtain ⟨ctr, err, writes, ctime⟩ := ho
  have chz : h.chz = g.chz := by rw [hh]
  refine accessDone_advance ?_ ?_ hc ⟨completed place ws o, upOp_ops_of_youngest hops hf _, ctr, rfl, err, ?_⟩
  · rw [hh]
    rfl
  · simp only [ctime, Nat.max_zero, chz]
  · simp [completed, performed, takeWrites, lanesGone, writes]

/-- A long access that has performed, of which nothing is still to come, completes. -/
theorem afterRun_accessDone {s v : State} {g : Group} {i : Instr} {c : Counter} {k : MemKind} {m : MLOps} {lanes : List LaneAcc}
    {dests : List Reg} {place : Option Nat} {ws : List (Reg × Word)} (hf : ∀ p ∈ g.ops, p.uid < s.fresh)
    (hfab : ∀ q ∈ s.fabOut, q.2.op < s.fresh) (hv : v.fabOut = s.fabOut) (htx : g.tx = none) (hord : m.order = 0) (hctr : g.ctr.length = 7)
    (hc : counterFor (longOp c k m) lanes = c)
    (hg : tblGet v.groups s.cur = some (upOp (issuedGroup s g i (longOp c k m) lanes dests) s.fresh (performed place ws))) :
    ∃ g', afterRun v s.cur s.fresh [] = v.putGroup s.cur g' ∧ AccessDone g g' c ws := by
  have relaxed : (issuedOp s g i (longOp c k m) lanes dests).order = .rlx := by simp [issuedOp, longOp, opFor, hord, orderOf]
  have ho := findOp_upOp (f := performed place ws) (findOp_issuedGroup hf i (longOp c k m) lanes dests) rfl
  have fab : fabricOpen v s.fresh = false := by
    rw [fabricOpen, hv, List.any_eq_false]
    intro q hq
    simpa using Nat.ne_of_lt (hfab q hq)
  have len : (performed place ws (issuedOp s g i (longOp c k m) lanes dests)).len = 2 := rfl
  have done := afterRun_completes hg ho rfl relaxed htx fab ⟨rfl, rfl, rfl, rfl, rfl⟩
  rw [upOp_upOp _ _ (f := performed place ws) _ fun _ => rfl, len] at done
  have count : counter (issuedGroup s g i (longOp c k m) lanes dests) c.ident = counter g c.ident + 1 := by
    have raised := counter_setCounter g (v := counter g c.ident + 1) (ident_range c).1 (ident_range c).2 (ident_range c).1 hctr
    rw [if_pos rfl] at raised
    rw [← raised]
    simp only [issuedGroup, issueOp, issuedOp, hc, counter, setCounter]
  exact ⟨_, done, accessDone_completed (h := issuedGroup s g i (longOp c k m) lanes dests) (o := issuedOp s g i (longOp c k m) lanes dests)
    place ws rfl rfl hf count ⟨hc, rfl, rfl, rfl⟩⟩

end Sys2Proof.Machine

namespace Sys2Proof.Machine

/-! ### STS and LDS of the team's own stash (R158) -/

/-- The conditions under which a relaxed access of the group on a counter to its own stash runs at once: no transaction, no ordered mode,
nothing in flight, room in the counter, and no slot that binds a line. -/
structure OwnAccess (s : State) (g : Group) (c : Counter) (m : MLOps) : Prop where
  selected : Selected s g
  order : m.order = 0
  atOnce : RunsAtOnce s s.cur g
  fresh : ∀ p ∈ g.ops, p.uid < s.fresh
  fabric : ∀ q ∈ s.fabOut, q.2.op < s.fresh
  counters : g.ctr.length = 7
  room : counter g c.ident < 63
  unbound : Unbound s g.team

/-- The lanes' offsets lie inside the stash, aligned. -/
def InStash (s : State) (g : Group) (ls : List Nat) (off : Nat → Nat) (size : Nat) : Prop :=
  ∀ l ∈ ls, off l < 2 ^ 24 ∧ off l + size ≤ stashSize s g.team ∧ off l % size = 0

theorem runsAtOnce_of_not_flying {s : State} {n : Nat} {g : Group} (hl : s.late.contains n = false) (ht : g.tx = none)
    (ho : orderedMode s g = false) (hf : flying g = false) : RunsAtOnce s n g := by
  refine ⟨hl, ht, ho, fun o hm => ?_⟩
  simpa using List.any_eq_false.1 hf o hm

theorem length_leBytes (n v : Nat) : (leBytes n v).length = n := by
  induction n generalizing v with
  | zero => rfl
  | succ n ih => simp [leBytes, ih]

theorem length_storeBytes (s : State) (g : Group) (pos : Nat) (uni : Bool) (d n l : Nat) : (storeBytes s g pos uni d n l).length = n := by
  have words : (wordsBytes (dataWords s g pos uni d n l)).length = regsFor n * 4 := by
    simp [wordsBytes, dataWords, List.length_flatMap, length_leBytes, Function.comp_def]
  rw [storeBytes, List.length_take, words]
  unfold regsFor
  omega

/-- Aligned bytes of a size that divides a line lie within one line. -/
theorem within_line_of_aligned {off size : Nat} (hd : size ∣ 128) (ha : off % size = 0) : off % 128 + size ≤ 128 := by
  obtain ⟨a, ha'⟩ := hd
  obtain ⟨b, hb⟩ : size ∣ off % 128 := (Nat.dvd_mod_iff ⟨a, ha'⟩).2 (Nat.dvd_of_mod_eq_zero ha)
  have lt : size * b < size * a := by omega
  have le : size * (b + 1) ≤ size * a := Nat.mul_le_mul_left size (Nat.lt_of_mul_lt_mul_left lt)
  rw [Nat.mul_add] at le
  omega

theorem sizeOfType_dvd_line : ∀ t : BitVec 3, sizeOfType t ∣ 128 ∧ 0 < sizeOfType t := by decide

/-- The types of whole words: their sizes, and that they do not extend a sign (R157). -/
theorem sizeOfType_of_words : ∀ t : BitVec 3, t.toNat < 3 → sizeOfType t = [4, 8, 16].getD t.toNat 4 ∧
    sizeOfType t = 4 * ([4, 8, 16].getD t.toNat 4 / 4) ∧ signedType t = false := by decide

theorem performed_nil (place : Option Nat) : performed place [] = lanesGone place := by
  funext o
  simp [performed, takeWrites, lanesGone]

theorem ownLanes_ownLane {s : State} {g : Group} {ls : List Nat} {off : Nat → Nat} {size : Nat} (h : InStash s g ls off size)
    (hl : ∀ l ∈ ls, l < 64) (data : Nat → List Byte) : ∀ x ∈ ownLanes ls off data, OwnLane x := by
  intro x hx
  obtain ⟨l, hm, rfl⟩ := List.mem_map.1 hx
  exact ownLane_windowAddr (h l hm).1 (hl l hm) _

/-- Where the lanes of an access that issues perform at once and leave memory as `mem`, the access is complete in the state that the issue
leaves, and no other group has changed. -/
theorem issued_accessDone {s : State} {g : Group} {i : Instr} {c : Counter} {k : MemKind} {m : MLOps} {ls : List Nat} {off : Nat → Nat}
    {data : Nat → List Byte} {dests : List Reg} {ws : List (Reg × Word)} {size : Nat} {mem : Cells 8} (ha : OwnAccess s g c m) (hk : Plain k)
    (hin : InStash s g ls off size) (hl : ∀ l ∈ ls, l < 64)
    (hp : ∀ place, ∃ w : State, performKind (s.bump.putGroup s.cur
        (upOp (issuedGroup s g i (longOp c k m) (ownLanes ls off data) dests) s.fresh (lanesGone place))) s.cur s.fresh k
          (ownPassed g.team (ownLanes ls off data)) =
        w.putGroup s.cur (upOp (issuedGroup s g i (longOp c k m) (ownLanes ls off data) dests) s.fresh (performed place ws)) ∧
      w.fabOut = s.fabOut ∧ w.groups = s.groups ∧ w.mem = mem) :
    ∃ (w : State) (g' : Group), issued s g i (longOp c k m) (ownLanes ls off data) dests = w.putGroup s.cur g' ∧ w.groups = s.groups ∧
      w.mem = mem ∧ AccessDone g g' c ws := by
  have relaxed : (longOp c k m).order = .rlx := by simp [longOp, opFor, ha.order, orderOf]
  obtain ⟨place, runs⟩ := issued_own (i := i) (dests := dests) ha.fresh rfl hk relaxed rfl ha.atOnce (ownLanes_ownLane hin hl data)
  obtain ⟨w, performs, fab, groups, hmem⟩ := hp place
  let h := upOp (issuedGroup s g i (longOp c k m) (ownLanes ls off data) dests) s.fresh (performed place ws)
  have stands : tblGet (w.putGroup s.cur h).groups s.cur = some h := by simp
  obtain ⟨g', completes, done⟩ := afterRun_accessDone (v := w.putGroup s.cur h) ha.fresh ha.fabric fab ha.atOnce.2.1 ha.order ha.counters
    (counterFor_ownLanes (fun l h => (hin l h).1) data) stands
  refine ⟨w, g', runs.trans ?_, groups, hmem, done⟩
  rw [performs, completes, State.putGroup_putGroup]

/-- The lanes of a store perform on a state in which the group stands. -/
theorem performStore_putGroup {s : State} {n uid team size : Nat} {g : Group} {o : Op} (ho : findOp g uid = some o) (hst : o.stage = .issued)
    (hm : orderedMode s g = false) (hb : Unbound s team) {ls : List LaneAcc} (hl : ∀ l ∈ ls, WithinLine l) :
    ∃ w : State, performKind (s.putGroup n g) n uid (.store size) (ownPassed team ls) = w.putGroup n g ∧ w.fabOut = s.fabOut ∧
      w.groups = s.groups ∧ w.mem = ls.foldl (fun m l => writeBytes m (stashLoc team (ownOff l)) l.data) s.mem := by
  obtain ⟨units, stores⟩ := performStore_own (n := n) ho hst ls (s.putGroup n g) (by simp) hm hb hl
  exact ⟨{ s with ueUnits := units, mem := ls.foldl (fun m l => writeBytes m (stashLoc team (ownOff l)) l.data) s.mem },
    stores, rfl, rfl, rfl⟩

/-- The data of a lane's store of type t. -/
def storeData (s : State) (g : Group) (m : MLOps) (t : BitVec 3) (l : Nat) : List Byte := storeBytes s g 1 false m.d.toNat (sizeOfType t) l

section
variable {s : State} {g : Group} {m : MLOps} {off : Nat → Nat}
  (hoff : ∀ l, (stashAddr s g 0 m.b (m.offset.signExtend 64) l).toNat = off l)
include hoff

/-- A store to the own stash stores its lanes' bytes in lane order and is complete. -/
theorem stsLong_own (ha : OwnAccess s g .st m) {t : BitVec 3} (hin : InStash s g (lanesOf g.width (active g m.g)) off (sizeOfType t)) :
    ∃ (w : State) (g' : Group), exec (.stsLong t false m) s = .next (w.putGroup s.cur g') ∧ w.groups = s.groups ∧
      w.mem = (lanesOf g.width (active g m.g)).foldl (fun mem l => writeBytes mem (stashLoc g.team (off l)) (storeData s g m t l)) s.mem ∧
      AccessDone g g' .st [] := by
  obtain ⟨dests, issues⟩ := stashAccess_own ha.selected (.stsLong t false m) (k := .store (sizeOfType t)) true hoff ha.room hin
  have line : ∀ x ∈ ownLanes (lanesOf g.width (active g m.g)) off (storeData s g m t), WithinLine x := by
    intro x hx
    obtain ⟨l, hm, rfl⟩ := List.mem_map.1 hx
    have size := length_storeBytes s g 1 false m.d.toNat (sizeOfType t) l
    have dvd := sizeOfType_dvd_line t
    refine ⟨?_, List.ne_nil_of_length_pos (by rw [storeData, size]; exact dvd.2)⟩
    rw [ownOff_windowAddr (hin l hm).1, storeData, size]
    exact within_line_of_aligned dvd.1 (hin l hm).2.2
  have stored : (ownLanes (lanesOf g.width (active g m.g)) off (storeData s g m t)).foldl
      (fun mem l => writeBytes mem (stashLoc g.team (ownOff l)) l.data) s.mem =
        (lanesOf g.width (active g m.g)).foldl (fun mem l => writeBytes mem (stashLoc g.team (off l)) (storeData s g m t l)) s.mem := by
    rw [ownLanes, List.foldl_map]
    exact List.foldl_ext _ _ _ fun mem l h => by rw [ownOff_windowAddr (hin l h).1]
  obtain ⟨w, g', issue, done⟩ := issued_accessDone (i := .stsLong t false m) (k := .store (sizeOfType t)) (data := storeData s g m t)
    (dests := dests) (ws := []) ha (.inr ⟨_, rfl⟩) hin (fun l h => lt_of_mem_lanesOf h) fun place => by
      have ho := findOp_upOp (f := lanesGone place) (findOp_issuedGroup ha.fresh (.stsLong t false m)
        (longOp .st (.store (sizeOfType t)) m) (ownLanes (lanesOf g.width (active g m.g)) off (storeData s g m t)) dests) rfl
      rw [performed_nil]
      exact performStore_putGroup (s := s.bump) ho rfl ha.atOnce.2.2.1 ha.unbound line
  exact ⟨w, g', by rw [← issue]; exact issues, done.1, done.2.1.trans stored, done.2.2⟩

/-- A load of whole words from the own stash is complete and holds the words of each lane. -/
theorem ldsLong_own (ha : OwnAccess s g .ld m) (hu : s.ueUnits = []) (hsb : g.sbuf = []) {t : BitVec 3} {n : Nat} (ht : sizeOfType t = 4 * n)
    (hsign : signedType t = false) (hin : InStash s g (lanesOf g.width (active g m.g)) off (sizeOfType t)) :
    ∃ (w : State) (g' : Group), exec (.ldsLong t false m) s = .next (w.putGroup s.cur g') ∧ w.groups = s.groups ∧ w.mem = s.mem ∧
      AccessDone g g' .ld ((lanesOf g.width (active g m.g)).flatMap fun l => (List.range n).map fun k =>
        (Reg.v (m.d.toNat + k) l, byteWord (fun i => readByte s.mem (stashLoc g.team (off l + i))) k)) := by
  obtain ⟨dests, issues⟩ := stashAccess_own ha.selected (.ldsLong t false m) (k := .load (sizeOfType t) (signedType t) false m.d.toNat) false
    hoff ha.room hin
  have whole : ∀ x ∈ ownLanes (lanesOf g.width (active g m.g)) off fun _ => [], x.clipped = [] := by
    intro x hx
    obtain ⟨l, -, rfl⟩ := List.mem_map.1 hx
    rfl
  have read : (ownLanes (lanesOf g.width (active g m.g)) off fun _ => []).flatMap (laneWrites s.mem g.team m.d.toNat n) =
      (lanesOf g.width (active g m.g)).flatMap fun l => (List.range n).map fun k =>
        (Reg.v (m.d.toNat + k) l, byteWord (fun i => readByte s.mem (stashLoc g.team (off l + i))) k) := by
    rw [ownLanes, List.flatMap_map]
    exact List.flatMap_congr fun l h => by rw [laneWrites, ownOff_windowAddr (hin l h).1]
  obtain ⟨w, g', issue, done⟩ := issued_accessDone (i := .ldsLong t false m) (k := .load (sizeOfType t) (signedType t) false m.d.toNat)
    (data := fun _ => []) (dests := dests)
    (ws := (ownLanes (lanesOf g.width (active g m.g)) off fun _ => []).flatMap (laneWrites s.mem g.team m.d.toNat n))
    ha (.inl ⟨_, _, _, _, rfl⟩) hin (fun l h => lt_of_mem_lanesOf h) fun place => by
      have ho := findOp_upOp (f := lanesGone place) (findOp_issuedGroup ha.fresh (.ldsLong t false m)
        (longOp .ld (.load (sizeOfType t) (signedType t) false m.d.toNat) m)
        (ownLanes (lanesOf g.width (active g m.g)) off fun _ => []) dests) rfl
      have performs := performLoad_own (n := s.cur) (m := n) (dst := m.d.toNat) s.bump hu ha.unbound _ _ _ ho rfl hsb whole
      rw [upOp_upOp _ _ (f := lanesGone place) _ fun _ => rfl] at performs
      refine ⟨s.bump, ?_, rfl, rfl, rfl⟩
      rw [hsign, ht]
      rw [hsign, ht] at performs
      exact performs
  exact ⟨w, g', by rw [← issue]; exact issues, done.1, done.2.1, by rw [← read]; exact done.2.2⟩

end

end Sys2Proof.Machine

namespace Sys2Proof
open Machine

/-- Settles O27: an access to the own stash runs its lanes as it issues; the lanes of a store write memory in order, those of a load give
the operation its values, and nothing is left to come. -/
theorem stashAccesses : Obligations.StashAccesses := by
  refine ⟨?store, ?load⟩
  case store =>
    intro s g t m hs hord htx hmode hfly hlate hf hfab hctr room hb size ls off data hin
    have ha : OwnAccess s g .st m := ⟨hs, hord, runsAtOnce_of_not_flying hlate htx hmode hfly, hf, hfab, hctr, room, hb⟩
    obtain ⟨w, g', run, groups, mem, done⟩ := stsLong_own (off := off) (fun l => rfl) ha (t := t) hin
    obtain ⟨next, ⟨v, sr, p, exec, q, flags, chz⟩, wait, count, o, ops, ctr, stage, err, -⟩ := done
    refine ⟨_, g', run, mem, fun a ha => ?_, fun n hn => by simp [groups, Ne.symm hn], by simp, next, v, sr, p, exec, q, flags, chz, wait,
      count, o, ops, ctr, stage, err⟩
    show readByte w.mem a = _
    rw [mem]
    refine readByte_foldl_writeBytes _ _ a ls _ fun l h => ?_
    rw [storeData, length_storeBytes]
    exact ha l h
  case load =>
    intro s g m hs hord htx hmode hfly hlate hf hfab hctr room hb hu hsb ls off byte word t ht size hin
    have ha : OwnAccess s g .ld m := ⟨hs, hord, runsAtOnce_of_not_flying hlate htx hmode hfly, hf, hfab, hctr, room, hb⟩
    obtain ⟨same, whole, unsigned⟩ := sizeOfType_of_words t ht
    obtain ⟨w, g', run, groups, mem, done⟩ := ldsLong_own (off := off) (fun l => rfl) ha hu hsb (t := t) whole unsigned
      (by rw [same]; exact hin)
    obtain ⟨next, ⟨v, sr, p, exec, q, flags, -⟩, wait, count, o, ops, ctr, stage, err, writes⟩ := done
    exact ⟨_, g', run, mem, fun n hn => by simp [groups, Ne.symm hn], by simp, next, v, sr, p, exec, q, flags, wait, count,
      o, ops, ctr, stage, err, writes⟩

end Sys2Proof

/-! ## The encoding of instructions (R48 to R54) -/

namespace Sys2Proof.Laws.Fields

-- One proof after another: elaborated side by side, the many proofs below hold more threads than the check's memory allows.
set_option Elab.async false

theorem num_fld (w lo n : Nat) : (fld w lo n).toNat = num w lo n := BitVec.toNat_ofNat _ _

theorem num_bit (w lo : Nat) : (bit w lo).toNat = num w lo 1 := by
  rcases Nat.mod_two_eq_zero_or_one (w / 2 ^ lo) with h | h <;> simp [bit, num, h]

@[simp] theorem fld_eq_iff {w lo n : Nat} {x : BitVec n} : fld w lo n = x ↔ num w lo n = x.toNat := by
  rw [← BitVec.toNat_inj, num_fld]

@[simp] theorem bit_eq_iff {w lo : Nat} {b : Bool} : bit w lo = b ↔ num w lo 1 = b.toNat := by
  rw [← num_bit]; cases bit w lo <;> cases b <;> decide

/-- The words of the instruction give its fields back, and the first says how many there are (R48). -/
def Decodes (i : Instr) : Prop := ∀ w0 w1,
  (encode i = [w0, w1] → isLong w0 = true ∧ decodeFields w0 w1 = some i) ∧
    (encode i = [w0] → isLong w0 = false ∧ decodeFields w0 0 = some i)

theorem isLong_eq (w : Nat) : isLong w = decide (64 ≤ num w 25 7) := by
  rw [isLong, bit, Bool.eq_iff_iff, beq_iff_eq, decide_eq_true_iff, num]; omega

section
variable {i : Instr} (op : Nat)

/-- An instruction of one word, whose opcode's part of the map decodes it. -/
theorem decodes_short {w : Nat} (dec : Nat → Option Instr) (hd : dec w = some i) (he : encode i = [w] := by rfl)
    (hop : num w 25 7 = op := by unfold num; omega) (hs : op < 64 := by decide)
    (sel : ∀ v, num v 25 7 = op → decodeFields v 0 = dec v := by intro v h; unfold decodeFields; rw [h]; rfl) : Decodes i := by
  intro w0 w1
  simp only [he, List.cons.injEq, reduceCtorEq, and_false, false_imp_iff, and_true, true_and]
  rintro rfl
  exact ⟨by rw [isLong_eq, hop]; exact decide_eq_false (by omega), (sel w hop).trans hd⟩

/-- An instruction of two words. -/
theorem decodes_long {a b : Nat} (dec : Nat → Nat → Option Instr) (hd : dec a b = some i) (he : encode i = [a, b] := by rfl)
    (hop : num a 25 7 = op := by unfold num; omega) (hl : 64 ≤ op := by decide)
    (sel : ∀ v w, num v 25 7 = op → decodeFields v w = dec v w := by intro v w h; unfold decodeFields; rw [h]; rfl) : Decodes i := by
  intro w0 w1
  simp only [he, List.cons.injEq, reduceCtorEq, and_false, false_imp_iff, and_true]
  rintro ⟨rfl, rfl⟩
  exact ⟨by rw [isLong_eq, hop]; exact decide_eq_true hl, (sel a b hop).trans hd⟩

/-- A short instruction with two sources and no field that selects it beside the opcode (R49). -/
theorem decodes_sources {mk : BitVec 5 → BitVec 6 → BitVec 7 → BitVec 7 → Instr} {g : BitVec 5} {d : BitVec 6} {a b : BitVec 7} {w : Nat}
    (he : encode (mk g d a b) = [w] := by rfl)
    (hw : w = op * 2 ^ 25 + g.toNat * 2 ^ 20 + d.toNat * 2 ^ 14 + a.toNat * 2 ^ 7 + b.toNat := by omega) (hs : op < 64 := by decide)
    (sel : ∀ v, num v 25 7 = op → decodeFields v 0 = some (mk (fld v 20 5) (fld v 14 6) (fld v 7 7) (fld v 0 7)) := by
      intro v h; unfold decodeFields; rw [h]; rfl) : Decodes (mk g d a b) := by
  have hg : fld w 20 5 = g := by rw [fld_eq_iff, num]; omega
  have hd : fld w 14 6 = d := by rw [fld_eq_iff, num]; omega
  have ha : fld w 7 7 = a := by rw [fld_eq_iff, num]; omega
  have hb : fld w 0 7 = b := by rw [fld_eq_iff, num]; omega
  have hop : num w 25 7 = op := by unfold num; omega
  exact decodes_short op (fun v => decodeFields v 0) (by rw [sel w hop, hg, hd, ha, hb]) he hop hs fun _ _ => rfl

/-! ### Formats L and ML (R49 to R52): word 0 is k, the opcode and the selecting bits below bit 7, and the operand fields -/

variable {k : Nat}

theorem num_add_mul {m lo n : Nat} (h : lo + n ≤ 7) : num (k + 2 ^ 7 * m) lo n = num k lo n := by
  rw [num, num, show 7 = lo + (n + (7 - lo - n)) by omega, pow_add, pow_add, mul_assoc, mul_assoc, Nat.add_mul_div_left _ _ (by positivity),
    Nat.add_mul_mod_self_left]

theorem num_opcode {m : Nat} (hk : k % 2 ^ 25 < 128) (hm : m < 2 ^ 18) : num (k + 2 ^ 7 * m) 25 7 = num k 25 7 := by
  unfold num; omega

theorem lWord0_mul (o : LOps) : ∃ m, m < 2 ^ 18 ∧ lWord0 o = 2 ^ 7 * m :=
  ⟨o.g.toNat * 2 ^ 13 + o.d.toNat * 2 ^ 7 + o.a.toNat, by omega, by unfold lWord0; omega⟩

theorem mlWord0_mul (m : MLOps) : ∃ n, n < 2 ^ 18 ∧ mlWord0 m = 2 ^ 7 * n :=
  ⟨m.g.toNat * 2 ^ 13 + m.d.toNat * 2 ^ 7 + m.b.toNat, by omega, by unfold mlWord0; omega⟩

/-- The bits of the operand word (R50) are at most 1. -/
theorem lOps_bits (o : LOps) :
    o.absC.toNat < 2 ∧ o.absB.toNat < 2 ∧ o.absA.toNat < 2 ∧ o.negC.toNat < 2 ∧ o.negB.toNat < 2 ∧ o.negA.toNat < 2 :=
  ⟨Bool.toNat_lt _, Bool.toNat_lt _, Bool.toNat_lt _, Bool.toNat_lt _, Bool.toNat_lt _, Bool.toNat_lt _⟩

theorem lOps_lWords (hk : k % 2 ^ 25 < 128) (o : LOps) : lOps (k + lWord0 o) (lWord1 o) = o := by
  have bits := lOps_bits o
  cases o
  simp only [lOps, LOps.mk.injEq, fld_eq_iff, bit_eq_iff, lWord0, lWord1, num] at *
  and_intros <;> omega

theorem mlOps_mlWords (hk : k % 2 ^ 25 < 128) (m : MLOps) : mlOps (k + mlWord0 m) (mlWord1 m) = m := by
  have := Bool.toNat_lt m.nt
  cases m
  simp only [mlOps, MLOps.mk.injEq, fld_eq_iff, bit_eq_iff, mlWord0, mlWord1, num] at *
  and_intros <;> omega

theorem num_lWord1 (o : LOps) : num (lWord1 o) 6 1 = 0 := by
  have := lOps_bits o
  unfold num lWord1; omega

theorem num_mlWord1 (m : MLOps) : num (mlWord1 m) 0 2 = 0 := by unfold num mlWord1; omega

/-- An instruction of format L. -/
theorem decodes_lops {o : LOps} (dec : Nat → Nat → Option Instr)
    (hd : ∀ w0 w1, num w1 6 1 = 0 → (∀ lo n, lo + n ≤ 7 → num w0 lo n = num k lo n) → lOps w0 w1 = o → dec w0 w1 = some i)
    (he : encode i = [k + lWord0 o, lWord1 o] := by rfl) (hop : num k 25 7 = op := by unfold num; omega) (hl : 64 ≤ op := by decide)
    (hk : k % 2 ^ 25 < 128 := by omega)
    (sel : ∀ v w, num v 25 7 = op → decodeFields v w = dec v w := by intro v w h; unfold decodeFields; rw [h]; rfl) : Decodes i := by
  obtain ⟨m, hm, e⟩ := lWord0_mul o
  refine decodes_long op dec (hd _ _ (num_lWord1 o) (fun lo n h => ?_) (lOps_lWords hk o)) he (by rw [e, num_opcode hk hm, hop]) hl sel
  rw [e, num_add_mul h]

/-- An instruction of format ML. -/
theorem decodes_mlops {m : MLOps} (dec : Nat → Nat → Option Instr)
    (hd : ∀ w0 w1, num w1 0 2 = 0 → (∀ lo n, lo + n ≤ 7 → num w0 lo n = num k lo n) → mlOps w0 w1 = m → dec w0 w1 = some i)
    (he : encode i = [k + mlWord0 m, mlWord1 m] := by rfl) (hop : num k 25 7 = op := by unfold num; omega) (hl : 64 ≤ op := by decide)
    (hk : k % 2 ^ 25 < 128 := by omega)
    (sel : ∀ v w, num v 25 7 = op → decodeFields v w = dec v w := by intro v w h; unfold decodeFields; rw [h]; rfl) : Decodes i := by
  obtain ⟨n, hn, e⟩ := mlWord0_mul m
  refine decodes_long op dec (hd _ _ (num_mlWord1 m) (fun lo n h => ?_) (mlOps_mlWords hk m)) he (by rw [e, num_opcode hk hn, hop]) hl sel
  rw [e, num_add_mul h]

end

/-! ### Each opcode's words decode to the instruction (R53, R54) -/

/-- The short instructions with two sources, or with a base and an offset. -/
theorem decodes_twoSource (g : BitVec 5) (d : BitVec 6) (a b : BitVec 7) : ∀ i ∈ [Instr.iadd g d a b, .isub g d a b, .imul g d a b,
    .imin g d a b, .imax g d a b, .and g d a b, .or g d a b, .xor g d a b, .andn g d a b, .shl g d a b, .shr g d a b, .sar g d a b,
    .fadd g d a b, .fsub g d a b, .fmul g d a b, .fmin g d a b, .fmax g d a b, .hadd2 g d a b, .hmul2 g d a b, .uadd g d a b, .usub g d a b,
    .uand g d a b, .ld g d a b, .st g d a b, .lds g d a b, .sts g d a b, .ldc g d a b], Decodes i := by
  intro i hi; fin_cases hi
  exacts [decodes_sources 0x00, decodes_sources 0x01, decodes_sources 0x02, decodes_sources 0x03, decodes_sources 0x04, decodes_sources 0x05,
    decodes_sources 0x06, decodes_sources 0x07, decodes_sources 0x08, decodes_sources 0x09, decodes_sources 0x0A, decodes_sources 0x0B,
    decodes_sources 0x0E, decodes_sources 0x0F, decodes_sources 0x10, decodes_sources 0x11, decodes_sources 0x12, decodes_sources 0x14,
    decodes_sources 0x15, decodes_sources 0x16, decodes_sources 0x17, decodes_sources 0x18, decodes_sources 0x20, decodes_sources 0x21,
    decodes_sources 0x22, decodes_sources 0x23, decodes_sources 0x24]

theorem decodes_moves (g : BitVec 5) (d : BitVec 6) (a : BitVec 7) : ∀ i ∈ [Instr.mov g d a, .umov g d a], Decodes i := by
  refine List.forall_iff_forall_mem.1 ⟨decodes_short 0x0C decodeOp0C ?_, decodes_short 0x19 decodeOp19 ?_⟩
  all_goals simp [decodeOp0C, decodeOp19, ite_eq_iff]; unfold num; omega

theorem decodes_opcode0D (g : BitVec 5) (d : BitVec 6) (a : BitVec 7) :
    ∀ i ∈ [Instr.iabs g d a, .not g d a, .popc g d a, .clz g d a, .brev g d a], Decodes i := by
  intro i hi; fin_cases hi
  all_goals
    refine decodes_short 0x0D decodeOp0D ?_
    simp [decodeOp0D, ite_eq_iff]; unfold num; omega

theorem decodes_opcode13 (g : BitVec 5) (d : BitVec 6) (a : BitVec 7) : ∀ i ∈ [Instr.frcp g d a, .frsq g d a, .fsqrt g d a, .fexp2 g d a,
    .flog2 g d a, .fsin g d a, .fcos g d a, .fclass g d a], Decodes i := by
  intro i hi; fin_cases hi
  all_goals
    refine decodes_short 0x13 decodeOp13 ?_
    simp [decodeOp13, ite_eq_iff]; unfold num; omega

/-- A mask goes to a predicate or a uniform pair. -/
theorem maskDestination_ne (a : BitVec 7) {d : BitVec 6} :
    ∀ i ∈ [Instr.exsetAnd d, .exsetAndn d, .exget d, .pmov d a], i.WellFormed → d.toNat ≠ 63 := by
  intro i hi wf
  fin_cases hi <;> simp [Instr.WellFormed, Legal.instr, Legal.pdst, Legal.udst64, Legal.evenUpTo] at wf <;> omega

/-- EXSET's own destination field, 63, is no predicate. -/
theorem decodes_opcode1A (a : BitVec 7) {d : BitVec 6} (hd : d.toNat ≠ 63) :
    ∀ i ∈ [Instr.exset a, .exsetAnd d, .exsetAndn d, .exget d, .pmov d a], Decodes i := by
  intro i hi; fin_cases hi
  all_goals
    refine decodes_short 0x1A decodeOp1A ?_
    simp [decodeOp1A, ite_eq_iff]; unfold num; omega

theorem decodes_opcode1B (g : BitVec 5) (d : BitVec 6) (a : BitVec 7) : ∀ i ∈ [Instr.movsr g d a, .movsrClr g d], Decodes i := by
  intro i hi; fin_cases hi
  all_goals
    refine decodes_short 0x1B decodeOp1B ?_
    simp [decodeOp1B, ite_eq_iff]; unfold num; omega

theorem decodes_br (p : BitVec 5) (c : BitVec 3) (u : Bool) (off : BitVec 16) : Decodes (.br p c u off) := by
  have := Bool.toNat_lt u
  refine decodes_short 0x1C decodeOp1C ?_
  simp [decodeOp1C]; unfold num; omega

theorem decodes_call (l : BitVec 4) (off : BitVec 16) : Decodes (.call l off) := by
  refine decodes_short 0x1D decodeOp1D ?_
  simp [decodeOp1D, ite_eq_iff]; unfold num; omega

theorem decodes_loop (n : BitVec 5) (off : BitVec 16) : Decodes (.loop n off) := by
  refine decodes_short 0x1E decodeOp1E ?_
  simp [decodeOp1E, ite_eq_iff]; unfold num; omega

theorem decodes_opcode1F (g : BitVec 5) (a : BitVec 7) : ∀ i ∈ [Instr.nop g, .ret a, .exit, .jmpx a], Decodes i := by
  intro i hi; fin_cases hi
  all_goals
    refine decodes_short 0x1F decodeOp1F ?_
    simp [decodeOp1F, ite_eq_iff]; unfold num; omega

theorem decodes_fence (g : BitVec 5) (order scope : BitVec 3) (xp : Bool) : Decodes (.fence g order scope xp) := by
  have := Bool.toNat_lt xp
  refine decodes_short 0x25 decodeOp25 ?_
  simp [decodeOp25, ite_eq_iff]; unfold num; omega

theorem decodes_opcode26 (d : BitVec 6) (code : BitVec 8) : ∀ i ∈ [Instr.txbegin d, .txend, .txabort code], Decodes i := by
  intro i hi; fin_cases hi
  all_goals
    refine decodes_short 0x26 decodeOp26 ?_
    simp [decodeOp26, ite_eq_iff]; unfold num; omega

theorem decodes_accz (m : BitVec 8) : Decodes (.accz m) := by
  refine decodes_short 0x28 decodeOp28 ?_
  simp [decodeOp28, ite_eq_iff]; unfold num; omega

theorem decodes_setrt (n : BitVec 2) (a : BitVec 7) : Decodes (.setrt n a) := by
  refine decodes_short 0x29 decodeOp29 ?_
  simp [decodeOp29, ite_eq_iff]; unfold num; omega

theorem decodes_noOperands : ∀ i ∈ [Instr.cmit, .fstop, .tret], Decodes i := by
  refine List.forall_iff_forall_mem.1 ⟨decodes_short 0x2A decodeOp2A ?_, decodes_short 0x2C decodeOp2C ?_, decodes_short 0x39 decodeOp39 ?_⟩
  all_goals decide

theorem decodes_waitc (id1 : BitVec 3) (t1 : BitVec 6) (id2 : BitVec 3) (t2 : BitVec 6) : Decodes (.waitc id1 t1 id2 t2) := by
  refine decodes_short 0x2B decodeOp2B ?_
  simp [decodeOp2B, ite_eq_iff]; unfold num; omega

theorem decodes_barriers (d : BitVec 6) (b n : BitVec 7) : ∀ i ∈ [Instr.barv d b n, .bwait d b n], Decodes i := by
  refine List.forall_iff_forall_mem.1 ⟨decodes_short 0x2D decodeOp2D ?_, decodes_short 0x2F decodeOp2F ?_⟩
  all_goals simp [decodeOp2D, decodeOp2F, ite_eq_iff]; unfold num; omega

theorem decodes_bexp (b n : BitVec 7) : Decodes (.bexp b n) := by
  refine decodes_short 0x2E decodeOp2E ?_
  simp [decodeOp2E, ite_eq_iff]; unfold num; omega

theorem decodes_teamBarriers (id : BitVec 2) : ∀ i ∈ [Instr.bart id, .barc id], Decodes i := by
  refine List.forall_iff_forall_mem.1 ⟨decodes_short 0x30 decodeOp30 ?_, decodes_short 0x31 decodeOp31 ?_⟩
  all_goals simp [decodeOp30, decodeOp31, ite_eq_iff]; unfold num; omega

theorem decodes_schnext (d : BitVec 6) : Decodes (.schnext d) := by
  refine decodes_short 0x32 decodeOp32 ?_
  simp [decodeOp32, ite_eq_iff]; unfold num; omega

theorem decodes_waita (d : BitVec 6) (a r : BitVec 7) : Decodes (.waita d a r) := by
  refine decodes_short 0x33 decodeOp33 ?_
  simp [decodeOp33, ite_eq_iff]; unfold num; omega

theorem decodes_rngSeq (g : BitVec 5) (d : BitVec 6) (k : BitVec 7) (n : BitVec 2) : Decodes (.rngSeq g d k n) := by
  refine decodes_short 0x34 decodeOp34 ?_
  simp [decodeOp34, ite_eq_iff]; unfold num; omega

theorem rngCounter_le {g : BitVec 5} {d : BitVec 6} {k c : BitVec 7} (wf : (Instr.rng g d k c).WellFormed) : c.toNat ≤ 94 := by
  simp [Instr.WellFormed, Legal.instr, Legal.vpair, Legal.upair, Legal.evenUpTo] at wf
  omega

/-- The codes that RNG.seq takes for source c are no pairs (R239). -/
theorem decodes_rng (g : BitVec 5) (d : BitVec 6) (k : BitVec 7) {c : BitVec 7} (hc : c.toNat ≤ 94) : Decodes (.rng g d k c) := by
  refine decodes_short 0x34 decodeOp34 ?_
  simp [decodeOp34, ite_eq_iff]; unfold num; omega

theorem decodes_smark (g : BitVec 5) (slot : BitVec 2) (p : BitVec 7) : Decodes (.smark g slot p) := by
  refine decodes_short 0x35 decodeOp35 ?_
  simp [decodeOp35, ite_eq_iff]; unfold num; omega

theorem decodes_sclose (slot : BitVec 2) : Decodes (.sclose slot) := by
  refine decodes_short 0x36 decodeOp36 ?_
  simp [decodeOp36, ite_eq_iff]; unfold num; omega

theorem decodes_traps (g : BitVec 5) (code : BitVec 16) : ∀ i ∈ [Instr.trap g code, .bkpt g code], Decodes i := by
  refine List.forall_iff_forall_mem.1 ⟨decodes_short 0x38 decodeOp38 ?_, decodes_short 0x3A decodeOp3A ?_⟩
  all_goals simp [decodeOp38, decodeOp3A, ite_eq_iff]; unfold num; omega

theorem decodes_csrr (d : BitVec 6) (n : BitVec 10) : Decodes (.csrr d n) := by
  refine decodes_short 0x3B decodeOp3B ?_
  simp [decodeOp3B, ite_eq_iff]; unfold num; omega

theorem decodes_csrw (src : BitVec 7) (n : BitVec 10) : Decodes (.csrw src n) := by
  refine decodes_short 0x3C decodeOp3C ?_
  simp [decodeOp3C, ite_eq_iff]; unfold num; omega

theorem decodes_opcode40 (t : BitVec 2) (sat : Bool) (o : LOps) : ∀ i ∈ [Instr.iaddLong t sat o, .isubLong t sat o, .imulLong t sat o,
    .imulh t o, .iminLong t o, .imaxLong t o, .iabsLong sat o, .imad t sat o], Decodes i := by
  have := Bool.toNat_lt sat
  intro i hi; fin_cases hi
  all_goals
    refine decodes_lops 0x40 decodeOp40 fun w0 w1 h low ho => ?_
    simp [decodeOp40, h, low, ho, ite_eq_iff]; unfold num; omega

theorem decodes_opcode41 (o : LOps) : ∀ i ∈ [Instr.andLong o, .orLong o, .xorLong o, .andnLong o, .notLong o, .shlLong o, .shrLong o, .sarLong o,
    .rot o], Decodes i := by
  intro i hi; fin_cases hi
  all_goals
    refine decodes_lops 0x41 decodeOp41 fun w0 w1 h low ho => ?_
    simp [decodeOp41, h, low, ho, ite_eq_iff]; unfold num; omega

theorem decodes_opcode42 (sx : Bool) (o : LOps) : ∀ i ∈ [Instr.bfe sx o, .bfi o, .popcLong o, .clzLong o, .brevLong o], Decodes i := by
  have := Bool.toNat_lt sx
  intro i hi; fin_cases hi
  all_goals
    refine decodes_lops 0x42 decodeOp42 fun w0 w1 h low ho => ?_
    simp [decodeOp42, h, low, ho, ite_eq_iff]; unfold num; omega

theorem decodes_compares (cmp : BitVec 3) (t : BitVec 2) (o : LOps) : ∀ i ∈ [Instr.icmp cmp t o, .fcmp cmp t o], Decodes i := by
  refine List.forall_iff_forall_mem.1 ⟨decodes_lops 0x43 decodeOp43 fun w0 w1 h low ho => ?_,
    decodes_lops 0x48 decodeOp48 fun w0 w1 h low ho => ?_⟩
  all_goals simp [decodeOp43, decodeOp48, h, low, ho, ite_eq_iff]; unfold num; omega

theorem decodes_sel (w64 pneg : Bool) (pr : BitVec 4) (o : LOps) : Decodes (.sel w64 pneg pr o) := by
  have := Bool.toNat_lt w64; have := Bool.toNat_lt pneg
  refine decodes_lops 0x44 decodeOp44 fun w0 w1 h low ho => ?_
  simp [decodeOp44, h, low, ho, ite_eq_iff]; unfold num; omega

theorem decodes_movi (g : BitVec 5) (d : BitVec 6) (imm : BitVec 32) : Decodes (.movi g d imm) := by
  refine decodes_long 0x45 decodeOp45 ?_
  simp [decodeOp45, ite_eq_iff]; unfold num; omega

theorem decodes_opcode46 (o : LOps) (sx : Bool) : ∀ i ∈ [Instr.iadd64 o, .isub64 o, .imul64 o, .shl64 o, .shr64 sx o], Decodes i := by
  have := Bool.toNat_lt sx
  intro i hi; fin_cases hi
  all_goals
    refine decodes_lops 0x46 decodeOp46 fun w0 w1 h low ho => ?_
    simp [decodeOp46, h, low, ho, ite_eq_iff]; unfold num; omega

theorem decodes_opcode47 (rm : BitVec 3) (o : LOps) : ∀ i ∈ [Instr.faddLong rm o, .fsubLong rm o, .fmulLong rm o, .ffma rm o, .fminLong o,
    .fmaxLong o], Decodes i := by
  intro i hi; fin_cases hi
  all_goals
    refine decodes_lops 0x47 decodeOp47 fun w0 w1 h low ho => ?_
    simp [decodeOp47, h, low, ho, ite_eq_iff]; unfold num; omega

theorem decodes_opcode49 (rm : BitVec 3) (o : LOps) : ∀ i ∈ [Instr.frcpLong rm o, .frsqLong rm o, .fsqrtLong rm o, .fexp2Long rm o,
    .flog2Long rm o, .fsinLong rm o, .fcosLong rm o, .frint rm o, .fclassLong o], Decodes i := by
  intro i hi; fin_cases hi
  all_goals
    refine decodes_lops 0x49 decodeOp49 fun w0 w1 h low ho => ?_
    simp [decodeOp49, h, low, ho, ite_eq_iff]; unfold num; omega

theorem decodes_fldexp (rm : BitVec 3) (o : LOps) : Decodes (.fldexp rm o) := by
  refine decodes_lops 0x4A decodeOp4A fun w0 w1 h low ho => ?_
  simp [decodeOp4A, h, low, ho, ite_eq_iff]; unfold num; omega

theorem decodes_cvt (pair : BitVec 4) (rm : BitVec 3) (o : LOps) : Decodes (.cvt pair rm o) := by
  refine decodes_lops 0x4B decodeOp4B fun w0 w1 h low ho => ?_
  simp [decodeOp4B, h, low, ho]; unfold num; omega

theorem decodes_opcode4C (bf : Bool) (rm : BitVec 3) (o : LOps) : ∀ i ∈ [Instr.hadd2Long bf rm o, .hmul2Long bf rm o, .hfma2 bf rm o], Decodes i := by
  have := Bool.toNat_lt bf
  intro i hi; fin_cases hi
  all_goals
    refine decodes_lops 0x4C decodeOp4C fun w0 w1 h low ho => ?_
    simp [decodeOp4C, h, low, ho, ite_eq_iff]; unfold num; omega

theorem decodes_opcode4D (t : BitVec 2) (rm : BitVec 3) (sat : Bool) (o : LOps) : ∀ i ∈ [Instr.dot4 t rm sat o, .dot8 t rm sat o], Decodes i := by
  have := Bool.toNat_lt sat
  intro i hi; fin_cases hi
  all_goals
    refine decodes_lops 0x4D decodeOp4D fun w0 w1 h low ho => ?_
    simp [decodeOp4D, h, low, ho, ite_eq_iff]; unfold num; omega

theorem decodes_opcode4E (w64 : Bool) (o : LOps) (ifill : BitVec 2) : ∀ i ∈ [Instr.xlane w64 o, .xlaneIdx w64 ifill o], Decodes i := by
  have := Bool.toNat_lt w64
  intro i hi; fin_cases hi
  all_goals
    refine decodes_lops 0x4E decodeOp4E fun w0 w1 h low ho => ?_
    simp [decodeOp4E, h, low, ho, ite_eq_iff]; unfold num; omega

theorem decodes_redx (rop t : BitVec 3) (o : LOps) : Decodes (.redx rop t o) := by
  refine decodes_lops 0x4F decodeOp4F fun w0 w1 h low ho => ?_
  simp [decodeOp4F, h, low, ho, ite_eq_iff]; unfold num; omega

theorem decodes_scanx (rop : BitVec 3) (excl : Bool) (t : BitVec 3) (o : LOps) : Decodes (.scanx rop excl t o) := by
  have := Bool.toNat_lt excl
  refine decodes_lops 0x50 decodeOp50 fun w0 w1 h low ho => ?_
  simp [decodeOp50, h, low, ho]; unfold num; omega

theorem decodes_opcode51 (o : LOps) (vk : BitVec 2) (w64 : Bool) : ∀ i ∈ [Instr.ballot o, .vote vk o, .matchx w64 o, .elect o], Decodes i := by
  have := Bool.toNat_lt w64
  intro i hi; fin_cases hi
  all_goals
    refine decodes_lops 0x51 decodeOp51 fun w0 w1 h low ho => ?_
    simp [decodeOp51, h, low, ho, ite_eq_iff]; unfold num; omega

theorem decodes_plop (d : BitVec 6) (pc pb pa : BitVec 4) (table : BitVec 8) : Decodes (.plop d pc pb pa table) := by
  refine decodes_long 0x52 decodeOp52 ?_
  simp [decodeOp52, ite_eq_iff]; unfold num; omega

theorem decodes_opcode53 (g : BitVec 5) (d : BitVec 6) (a b : BitVec 7) (sx : Bool) : ∀ i ∈ [Instr.uaddLong g d a b, .usubLong g d a b,
    .umul g d a b, .uandLong g d a b, .uor g d a b, .uxor g d a b, .ushl g d a b, .ushr sx g d a b, .umovLong g d a], Decodes i := by
  have := Bool.toNat_lt sx
  intro i hi; fin_cases hi
  all_goals
    refine decodes_long 0x53 decodeOp53 ?_
    simp [decodeOp53, ite_eq_iff]; unfold num; omega

theorem decodes_opcode54 (g : BitVec 5) (d : BitVec 6) (a : BitVec 7) (imm : BitVec 32) (sx : Bool) : ∀ i ∈ [Instr.uaddImm g d a imm,
    .usubImm g d a imm, .umulImm g d a imm, .uandImm g d a imm, .uorImm g d a imm, .uxorImm g d a imm, .ushlImm g d a imm, .ushrImm sx g d a imm,
    .umovImm g d imm, .umovi g d imm], Decodes i := by
  have := Bool.toNat_lt sx
  intro i hi; fin_cases hi
  all_goals
    refine decodes_long 0x54 decodeOp54 ?_
    simp [decodeOp54, ite_eq_iff]; unfold num; omega

theorem decodes_ucmp (cmp : BitVec 3) (t : BitVec 2) (g : BitVec 5) (d : BitVec 6) (a b : BitVec 7) : Decodes (.ucmp cmp t g d a b) := by
  refine decodes_long 0x55 decodeOp55 ?_
  simp [decodeOp55, ite_eq_iff]; unfold num; omega

theorem decodes_usel (w64 pneg : Bool) (pr : BitVec 4) (g : BitVec 5) (d : BitVec 6) (a b : BitVec 7) : Decodes (.usel w64 pneg pr g d a b) := by
  have := Bool.toNat_lt w64; have := Bool.toNat_lt pneg
  refine decodes_long 0x56 decodeOp56 ?_
  simp [decodeOp56, ite_eq_iff]; unfold num; omega

theorem decodes_uadd64 (g : BitVec 5) (d : BitVec 6) (a b : BitVec 7) : Decodes (.uadd64 g d a b) := by
  refine decodes_long 0x57 decodeOp57 ?_
  simp [decodeOp57, ite_eq_iff]; unfold num; omega

theorem decodes_ulane (first w64 : Bool) (g : BitVec 5) (d : BitVec 6) (a b : BitVec 7) : Decodes (.ulane first w64 g d a b) := by
  have := Bool.toNat_lt first; have := Bool.toNat_lt w64
  refine decodes_long 0x58 decodeOp58 ?_
  simp [decodeOp58, ite_eq_iff]; unfold num; omega

theorem decodes_accesses (t : BitVec 3) (uni : Bool) (m : MLOps) : ∀ i ∈ [Instr.ldLong t uni m, .stLong t uni m, .ldsLong t uni m,
    .stsLong t uni m, .ldcLong t uni m], Decodes i := by
  have := Bool.toNat_lt uni
  refine List.forall_iff_forall_mem.1 ⟨decodes_mlops 0x5A decodeOp5A fun w0 w1 h low ho => ?_,
    decodes_mlops 0x5B decodeOp5B fun w0 w1 h low ho => ?_, decodes_mlops 0x5C decodeOp5C fun w0 w1 h low ho => ?_,
    decodes_mlops 0x5D decodeOp5D fun w0 w1 h low ho => ?_, decodes_mlops 0x5E decodeOp5E fun w0 w1 h low ho => ?_⟩
  all_goals simp [decodeOp5A, decodeOp5B, decodeOp5C, decodeOp5D, decodeOp5E, h, low, ho, ite_eq_iff]; unfold num; omega

theorem decodes_tensors (g : BitVec 5) (d : BitVec 6) (coord desc : BitVec 7) (t order scope : BitVec 3) (cache : BitVec 2) (nt clip : Bool) :
    ∀ i ∈ [Instr.ldt g d coord desc t order scope cache nt clip, .stt g d coord desc t order scope cache nt clip], Decodes i := by
  have := Bool.toNat_lt nt; have := Bool.toNat_lt clip
  refine List.forall_iff_forall_mem.1 ⟨decodes_long 0x5F decodeOp5F ?_, decodes_long 0x60 decodeOp60 ?_⟩
  all_goals simp [decodeOp5F, decodeOp60, ite_eq_iff]; unfold num; omega

theorem decodes_pref (lvl : BitVec 2) (g : BitVec 5) (b : BitVec 7) (offset : BitVec 21) : Decodes (.pref lvl g b offset) := by
  refine decodes_long 0x61 decodeOp61 ?_
  simp [decodeOp61, ite_eq_iff]; unfold num; omega

theorem decodes_atomics (aop : BitVec 4) (t : BitVec 3) (m : MLOps) : ∀ i ∈ [Instr.atom aop t m, .red aop t m, .atoms aop t m], Decodes i := by
  refine List.forall_iff_forall_mem.1 ⟨decodes_mlops 0x62 decodeOp62 fun w0 w1 h low ho => ?_,
    decodes_mlops 0x63 decodeOp63 fun w0 w1 h low ho => ?_, decodes_mlops 0x64 decodeOp64 fun w0 w1 h low ho => ?_⟩
  all_goals simp [decodeOp62, decodeOp63, decodeOp64, h, low, ho]; unfold num; omega

theorem decodes_opcode65 (g : BitVec 5) (d : BitVec 6) (b1 b2 : BitVec 7) (w64 : Bool) (order scope : BitVec 3) : ∀ i ∈ [
    Instr.atom2Dcas g d b1 b2 w64 order scope, .atom2Amov g d b1 b2 w64 order scope], Decodes i := by
  have := Bool.toNat_lt w64
  intro i hi; fin_cases hi
  all_goals
    refine decodes_long 0x65 decodeOp65 ?_
    simp [decodeOp65, ite_eq_iff]; unfold num; omega

theorem decodes_stm (g : BitVec 5) (d : BitVec 6) (b mask : BitVec 7) (t : BitVec 3) (mdie : Bool) (order scope : BitVec 3) (bar : Bool)
    (bars : BitVec 7) : Decodes (.stm g d b mask t mdie order scope bar bars) := by
  have := Bool.toNat_lt mdie; have := Bool.toNat_lt bar
  refine decodes_long 0x66 decodeOp66 ?_
  simp [decodeOp66, ite_eq_iff]; unfold num; omega

theorem decodes_stf (g : BitVec 5) (d : BitVec 6) (b flag : BitVec 7) (t order scope : BitVec 3) : Decodes (.stf g d b flag t order scope) := by
  refine decodes_long 0x67 decodeOp67 ?_
  simp [decodeOp67, ite_eq_iff]; unfold num; omega

theorem decodes_opcode68 (slot : BitVec 3) (gaddr soff len : BitVec 7) :
    ∀ i ∈ [Instr.sbind slot gaddr soff len, .sunbind slot, .sflush slot], Decodes i := by
  intro i hi; fin_cases hi
  all_goals
    refine decodes_long 0x68 decodeOp68 ?_
    simp [decodeOp68, ite_eq_iff]; unfold num; omega

theorem decodes_mma (tile : BitVec 3) (areg sreg : BitVec 6) (fmt : BitVec 4) (r ns : Bool) (h : BitVec 2) (bs : BitVec 7) :
    Decodes (.mma tile areg sreg fmt r ns h bs) := by
  have := Bool.toNat_lt r; have := Bool.toNat_lt ns
  refine decodes_long 0x6A decodeOp6A ?_
  simp [decodeOp6A, ite_eq_iff]; unfold num; omega

theorem decodes_mmaLong (tile : BitVec 3) (aq sq : BitVec 2) (fmt : BitVec 4) (ns : Bool) (h nt : BitVec 2) (bs bstr ks : BitVec 7) :
    Decodes (.mmaLong tile aq sq fmt ns h nt bs bstr ks) := by
  have := Bool.toNat_lt ns
  refine decodes_long 0x6A decodeOp6A ?_
  simp [decodeOp6A, ite_eq_iff]; unfold num; omega

theorem decodes_accld (tile t : BitVec 3) (addr str : BitVec 7) : Decodes (.accld tile t addr str) := by
  refine decodes_long 0x6B decodeOp6B ?_
  simp [decodeOp6B, ite_eq_iff]; unfold num; omega

theorem decodes_accst (tile t : BitVec 3) (addr str : BitVec 7) (rm : BitVec 3) : Decodes (.accst tile t addr str rm) := by
  refine decodes_long 0x6C decodeOp6C ?_
  simp [decodeOp6C, ite_eq_iff]; unfold num; omega

theorem decodes_accepi (tile t : BitVec 3) (addr str : BitVec 7) (rm : BitVec 3) (act : BitVec 2) (alpha bias : BitVec 7) (biason : Bool) :
    Decodes (.accepi tile t addr str rm act alpha bias biason) := by
  have := Bool.toNat_lt biason
  refine decodes_long 0x6D decodeOp6D ?_
  simp [decodeOp6D, ite_eq_iff]; unfold num; omega

theorem decodes_accepiSend (tile t rm : BitVec 3) (act rte : BitVec 2) (alpha bias : BitVec 7) (biason : Bool) :
    Decodes (.accepiSend tile t rm act rte alpha bias biason) := by
  have := Bool.toNat_lt biason
  refine decodes_long 0x6D decodeOp6D ?_
  simp [decodeOp6D, ite_eq_iff]; unfold num; omega

theorem decodes_matrixRecords (addr : BitVec 7) : ∀ i ∈ [Instr.mxsave addr, .mxres addr], Decodes i := by
  refine List.forall_iff_forall_mem.1 ⟨decodes_long 0x6E decodeOp6E ?_, decodes_long 0x6F decodeOp6F ?_⟩
  all_goals simp [decodeOp6E, decodeOp6F, ite_eq_iff]; unfold num; omega

theorem decodes_hadt (tile src : BitVec 3) (n : BitVec 2) (dir : Bool) : Decodes (.hadt tile src n dir) := by
  have := Bool.toNat_lt dir
  refine decodes_long 0x70 decodeOp70 ?_
  simp [decodeOp70, ite_eq_iff]; unfold num; omega

theorem decodes_opcode71 (tile fmt rm : BitVec 3) (tr : Bool) (s : BitVec 7) :
    ∀ i ∈ [Instr.qblk tile fmt rm tr s, .dqblk tile fmt tr s], Decodes i := by
  have := Bool.toNat_lt tr
  intro i hi; fin_cases hi
  all_goals
    refine decodes_long 0x71 decodeOp71 ?_
    simp [decodeOp71, ite_eq_iff]; unfold num; omega

theorem decodes_feed (prog args : BitVec 7) (na : BitVec 3) (qmask : BitVec 4) : Decodes (.feed prog args na qmask) := by
  refine decodes_long 0x72 decodeOp72 ?_
  simp [decodeOp72, ite_eq_iff]; unfold num; omega

theorem decodes_cpy (dsta srca shape str bar : BitVec 7) (baron rel res : Bool) (tw : BitVec 3) :
    Decodes (.cpy dsta srca shape str bar baron rel res tw) := by
  have := Bool.toNat_lt baron; have := Bool.toNat_lt rel; have := Bool.toNat_lt res
  refine decodes_long 0x73 decodeOp73 ?_
  simp [decodeOp73, ite_eq_iff]; unfold num; omega

theorem decodes_opcode74 (desc coord buf ext bar : BitVec 7) (baron rel res tr clip : Bool) : ∀ i ∈ [
    Instr.cpytLoad desc coord buf ext bar baron rel res tr clip, .cpytStore desc coord buf ext bar baron rel res tr clip], Decodes i := by
  have := Bool.toNat_lt baron; have := Bool.toNat_lt rel; have := Bool.toNat_lt res; have := Bool.toNat_lt tr; have := Bool.toNat_lt clip
  intro i hi; fin_cases hi
  all_goals
    refine decodes_long 0x74 decodeOp74 ?_
    simp [decodeOp74, ite_eq_iff]; unfold num; omega

theorem decodes_qput (d : BitVec 6) (q pkt : BitVec 7) (blk : Bool) : Decodes (.qput d q pkt blk) := by
  have := Bool.toNat_lt blk
  refine decodes_long 0x75 decodeOp75 ?_
  simp [decodeOp75, ite_eq_iff]; unfold num; omega

theorem decodes_binit (b count quota : BitVec 7) : Decodes (.binit b count quota) := by
  refine decodes_long 0x76 decodeOp76 ?_
  simp [decodeOp76, ite_eq_iff]; unfold num; omega

theorem decodes_texs (g : BitVec 5) (d : BitVec 6) (coord tex key ctr : BitVec 7) : Decodes (.texs g d coord tex key ctr) := by
  refine decodes_long 0x77 decodeOp77 ?_
  simp [decodeOp77, ite_eq_iff]; unfold num; omega

theorem decodes_textureReads (g : BitVec 5) (d : BitVec 6) (coord tex : BitVec 7) :
    ∀ i ∈ [Instr.texf g d coord tex, .texq g d coord tex], Decodes i := by
  refine List.forall_iff_forall_mem.1 ⟨decodes_long 0x78 decodeOp78 ?_, decodes_long 0x79 decodeOp79 ?_⟩
  all_goals simp [decodeOp78, decodeOp79, ite_eq_iff]; unfold num; omega

theorem decodes_rtbox (g : BitVec 5) (d : BitVec 6) (ray addr : BitVec 7) : Decodes (.rtbox g d ray addr) := by
  refine decodes_long 0x7A decodeOp7A ?_
  simp [decodeOp7A, ite_eq_iff]; unfold num; omega

theorem decodes_rttri (g : BitVec 5) (d : BitVec 6) (ray addr : BitVec 7) (minf : Bool) (cull : BitVec 2) :
    Decodes (.rttri g d ray addr minf cull) := by
  have := Bool.toNat_lt minf
  refine decodes_long 0x7B decodeOp7B ?_
  simp [decodeOp7B, ite_eq_iff]; unfold num; omega

theorem decodes_opcode7C (g : BitVec 5) (slot : BitVec 2) (v d : BitVec 7) : ∀ i ∈ [Instr.sopen g slot v, .sopenReplay g slot v,
    .sopenFetch g slot d], Decodes i := by
  intro i hi; fin_cases hi
  all_goals
    refine decodes_long 0x7C decodeOp7C ?_
    simp [decodeOp7C, ite_eq_iff]; unfold num; omega

theorem decodes_semit (g : BitVec 5) (slot : BitVec 2) (cnt : BitVec 3) (p route : BitVec 7) (rel : Bool) :
    Decodes (.semit g slot cnt p route rel) := by
  have := Bool.toNat_lt rel
  refine decodes_long 0x7D decodeOp7D ?_
  simp [decodeOp7D, ite_eq_iff]; unfold num; omega

theorem decodes_diagrd (d : BitVec 6) (row : BitVec 7) (arr : BitVec 4) (word : BitVec 5) : Decodes (.diagrd d row arr word) := by
  refine decodes_long 0x7E decodeOp7E ?_
  simp [decodeOp7E, ite_eq_iff]; unfold num; omega

theorem decodes_diagwr (row src : BitVec 7) (arr : BitVec 4) (word : BitVec 5) : Decodes (.diagwr row src arr word) := by
  refine decodes_long 0x7F decodeOp7F ?_
  simp [decodeOp7F, ite_eq_iff]; unfold num; omega

theorem decodes_of_wellFormed (i : Instr) (wf : i.WellFormed) (hf : isFeedWord i = false) : Decodes i := by
  cases i with
  | iadd g d a b | isub g d a b | imul g d a b | imin g d a b | imax g d a b | and g d a b | or g d a b | xor g d a b | andn g d a b
  | shl g d a b | shr g d a b | sar g d a b | fadd g d a b | fsub g d a b | fmul g d a b | fmin g d a b | fmax g d a b | hadd2 g d a b
  | hmul2 g d a b | uadd g d a b | usub g d a b | uand g d a b | ld g d a b | st g d a b | lds g d a b | sts g d a b | ldc g d a b =>
    exact decodes_twoSource g d a b _ (by simp)
  | mov g d a | umov g d a => exact decodes_moves g d a _ (by simp)
  | iabs g d a | not g d a | popc g d a | clz g d a | brev g d a => exact decodes_opcode0D g d a _ (by simp)
  | frcp g d a | frsq g d a | fsqrt g d a | fexp2 g d a | flog2 g d a | fsin g d a | fcos g d a | fclass g d a =>
    exact decodes_opcode13 g d a _ (by simp)
  | movsr g d a => exact decodes_opcode1B g d a _ (by simp)
  | movsrClr g d => exact decodes_opcode1B g d 0 _ (by simp)
  | br p c u off => exact decodes_br p c u off
  | call l off => exact decodes_call l off
  | loop n off => exact decodes_loop n off
  | nop g => exact decodes_opcode1F g 0 _ (by simp)
  | ret a | jmpx a => exact decodes_opcode1F 0 a _ (by simp)
  | exit => exact decodes_opcode1F 0 0 _ (by simp)
  | fence g order scope xp => exact decodes_fence g order scope xp
  | txbegin d => exact decodes_opcode26 d 0 _ (by simp)
  | txend => exact decodes_opcode26 0 0 _ (by simp)
  | txabort code => exact decodes_opcode26 0 code _ (by simp)
  | accz m => exact decodes_accz m
  | setrt n a => exact decodes_setrt n a
  | cmit | fstop | tret => exact decodes_noOperands _ (by simp)
  | waitc id1 t1 id2 t2 => exact decodes_waitc id1 t1 id2 t2
  | barv d b n | bwait d b n => exact decodes_barriers d b n _ (by simp)
  | bexp b n => exact decodes_bexp b n
  | bart id | barc id => exact decodes_teamBarriers id _ (by simp)
  | schnext d => exact decodes_schnext d
  | waita d a r => exact decodes_waita d a r
  | smark g slot p => exact decodes_smark g slot p
  | sclose slot => exact decodes_sclose slot
  | trap g code | bkpt g code => exact decodes_traps g code _ (by simp)
  | csrr d n => exact decodes_csrr d n
  | csrw src n => exact decodes_csrw src n
  | iaddLong t sat o | isubLong t sat o | imulLong t sat o | imad t sat o => exact decodes_opcode40 t sat o _ (by simp)
  | imulh t o | iminLong t o | imaxLong t o => exact decodes_opcode40 t false o _ (by simp)
  | iabsLong sat o => exact decodes_opcode40 0 sat o _ (by simp)
  | andLong o | orLong o | xorLong o | andnLong o | notLong o | shlLong o | shrLong o | sarLong o | rot o =>
    exact decodes_opcode41 o _ (by simp)
  | bfe sx o => exact decodes_opcode42 sx o _ (by simp)
  | bfi o | popcLong o | clzLong o | brevLong o => exact decodes_opcode42 false o _ (by simp)
  | icmp cmp t o | fcmp cmp t o => exact decodes_compares cmp t o _ (by simp)
  | sel w64 pneg pr o => exact decodes_sel w64 pneg pr o
  | movi g d imm => exact decodes_movi g d imm
  | iadd64 o | isub64 o | imul64 o | shl64 o => exact decodes_opcode46 o false _ (by simp)
  | shr64 sx o => exact decodes_opcode46 o sx _ (by simp)
  | faddLong rm o | fsubLong rm o | fmulLong rm o | ffma rm o => exact decodes_opcode47 rm o _ (by simp)
  | fminLong o | fmaxLong o => exact decodes_opcode47 0 o _ (by simp)
  | frcpLong rm o | frsqLong rm o | fsqrtLong rm o | fexp2Long rm o | flog2Long rm o | fsinLong rm o | fcosLong rm o | frint rm o =>
    exact decodes_opcode49 rm o _ (by simp)
  | fclassLong o => exact decodes_opcode49 0 o _ (by simp)
  | fldexp rm o => exact decodes_fldexp rm o
  | cvt pair rm o => exact decodes_cvt pair rm o
  | hadd2Long bf rm o | hmul2Long bf rm o | hfma2 bf rm o => exact decodes_opcode4C bf rm o _ (by simp)
  | dot4 t rm sat o | dot8 t rm sat o => exact decodes_opcode4D t rm sat o _ (by simp)
  | xlane w64 o => exact decodes_opcode4E w64 o 0 _ (by simp)
  | xlaneIdx w64 ifill o => exact decodes_opcode4E w64 o ifill _ (by simp)
  | redx rop t o => exact decodes_redx rop t o
  | scanx rop excl t o => exact decodes_scanx rop excl t o
  | ballot o | elect o => exact decodes_opcode51 o 0 false _ (by simp)
  | vote vk o => exact decodes_opcode51 o vk false _ (by simp)
  | matchx w64 o => exact decodes_opcode51 o 0 w64 _ (by simp)
  | plop d pc pb pa table => exact decodes_plop d pc pb pa table
  | uaddLong g d a b | usubLong g d a b | umul g d a b | uandLong g d a b | uor g d a b | uxor g d a b | ushl g d a b =>
    exact decodes_opcode53 g d a b false _ (by simp)
  | ushr sx g d a b => exact decodes_opcode53 g d a b sx _ (by simp)
  | umovLong g d a => exact decodes_opcode53 g d a 0 false _ (by simp)
  | uaddImm g d a imm | usubImm g d a imm | umulImm g d a imm | uandImm g d a imm | uorImm g d a imm | uxorImm g d a imm | ushlImm g d a imm =>
    exact decodes_opcode54 g d a imm false _ (by simp)
  | ushrImm sx g d a imm => exact decodes_opcode54 g d a imm sx _ (by simp)
  | umovImm g d imm | umovi g d imm => exact decodes_opcode54 g d 0 imm false _ (by simp)
  | ucmp cmp t g d a b => exact decodes_ucmp cmp t g d a b
  | usel w64 pneg pr g d a b => exact decodes_usel w64 pneg pr g d a b
  | uadd64 g d a b => exact decodes_uadd64 g d a b
  | ulane first w64 g d a b => exact decodes_ulane first w64 g d a b
  | ldLong t uni m | stLong t uni m | ldsLong t uni m | stsLong t uni m | ldcLong t uni m => exact decodes_accesses t uni m _ (by simp)
  | ldt g d coord desc t order scope cache nt clip | stt g d coord desc t order scope cache nt clip =>
    exact decodes_tensors g d coord desc t order scope cache nt clip _ (by simp)
  | pref lvl g b offset => exact decodes_pref lvl g b offset
  | atom aop t m | red aop t m | atoms aop t m => exact decodes_atomics aop t m _ (by simp)
  | atom2Dcas g d b1 b2 w64 order scope | atom2Amov g d b1 b2 w64 order scope => exact decodes_opcode65 g d b1 b2 w64 order scope _ (by simp)
  | stm g d b mask t mdie order scope bar bars => exact decodes_stm g d b mask t mdie order scope bar bars
  | stf g d b flag t order scope => exact decodes_stf g d b flag t order scope
  | sbind slot gaddr soff len => exact decodes_opcode68 slot gaddr soff len _ (by simp)
  | sunbind slot | sflush slot => exact decodes_opcode68 slot 0 0 0 _ (by simp)
  | mma tile areg sreg fmt r ns h bs => exact decodes_mma tile areg sreg fmt r ns h bs
  | mmaLong tile aq sq fmt ns h nt bs bstr ks => exact decodes_mmaLong tile aq sq fmt ns h nt bs bstr ks
  | accld tile t addr str => exact decodes_accld tile t addr str
  | accst tile t addr str rm => exact decodes_accst tile t addr str rm
  | accepi tile t addr str rm act alpha bias biason => exact decodes_accepi tile t addr str rm act alpha bias biason
  | accepiSend tile t rm act rte alpha bias biason => exact decodes_accepiSend tile t rm act rte alpha bias biason
  | mxsave addr | mxres addr => exact decodes_matrixRecords addr _ (by simp)
  | hadt tile src n dir => exact decodes_hadt tile src n dir
  | qblk tile fmt rm tr s => exact decodes_opcode71 tile fmt rm tr s _ (by simp)
  | dqblk tile fmt tr s => exact decodes_opcode71 tile fmt 0 tr s _ (by simp)
  | feed prog args na qmask => exact decodes_feed prog args na qmask
  | cpy dsta srca shape str bar baron rel res tw => exact decodes_cpy dsta srca shape str bar baron rel res tw
  | cpytLoad desc coord buf ext bar baron rel res tr clip | cpytStore desc coord buf ext bar baron rel res tr clip =>
    exact decodes_opcode74 desc coord buf ext bar baron rel res tr clip _ (by simp)
  | qput d q pkt blk => exact decodes_qput d q pkt blk
  | binit b count quota => exact decodes_binit b count quota
  | texs g d coord tex key ctr => exact decodes_texs g d coord tex key ctr
  | texf g d coord tex | texq g d coord tex => exact decodes_textureReads g d coord tex _ (by simp)
  | rtbox g d ray addr => exact decodes_rtbox g d ray addr
  | rttri g d ray addr minf cull => exact decodes_rttri g d ray addr minf cull
  | sopen g slot v | sopenReplay g slot v => exact decodes_opcode7C g slot v 0 _ (by simp)
  | sopenFetch g slot d => exact decodes_opcode7C g slot 0 d _ (by simp)
  | semit g slot cnt p route rel => exact decodes_semit g slot cnt p route rel
  | diagrd d row arr word => exact decodes_diagrd d row arr word
  | diagwr row src arr word => exact decodes_diagwr row src arr word
  | exset a => exact decodes_opcode1A a (d := 0) (by decide) _ (by simp)
  | exsetAnd d | exsetAndn d | exget d => exact decodes_opcode1A 0 (d := d) (maskDestination_ne 0 (d := d) _ (by simp) wf) _ (by simp)
  | pmov d a => exact decodes_opcode1A a (d := d) (maskDestination_ne a (d := d) _ (by simp) wf) _ (by simp)
  | rngSeq g d k n => exact decodes_rngSeq g d k n
  | rng g d k c => exact decodes_rng g d k (rngCounter_le wf)
  | fld _ _ _ _ _ _ | flds _ _ _ _ | floop _ | floopReg _ | fstep _ _ | fstepReg _ _ | fend | fsync => exact nomatch hf
  | clauseDispatch | rotationStart _ _ _ | sfuResult _ | groupWaitMet _ | translationComplete _ | faultQueueRetry _ | faultResponse _
  | operationRetire _ _ | writeAcknowledge _ _ | wcbTimeout _ _ | l1LeaseExpiry _ _ | bindFirstTouch _ _ _ | bindRecall _ | txAbort _ _
  | orderedCommitPhase _ | orderedRoundStart _ | matrixCheckEnd _ _ | mmaPassEnd _ _ _ | mmaFeedTake _ _ | fennelServe _ | feedLoadReturn _ _
  | copyProbeEnd _ | copyErrorStop _ _ _ | barrierPendLower _ _ _ | stfFlagUpdate _ _ | sendFlagUpdate _ | waitaWake _ | waitaDeadline _
  | qputBlockRetry _ | teamPlace _ _ | gridComplete _ | contextErrorStop _ | preemptRequest _ | preemptSave _ | restore _ | nopad _ | launch _
  | copy _ | waitmem _ | signal _ | bind _ | ckpt _ | jctlExport _ | jctlRestart _ | jctlForget _ | tdset _ | tlbinv _ | packetComplete _
  | nameCacheMiss _ _ | mscWriteback _ | rinseDrain _ | patrolScrub _ _ | flitCrcReplay _ _ _ _ | oscillatorLockLoss _ _ | heartbeatSend _
  | siteLostTimeout _ | siteLostDeclared _ | fabricRequestArrive _ _ _ _ _ _ | fabricAck _ _ _ _ | fabricTimeout _ | rotorMatching
  | hostAccess _ _ _ | hostWritePerform _ | birspArrive _ _ | tier2Timeout _ _ | collectiveContribution _ _ _ _ | chunkResultAck _
  | rasterPacketArrive _ | rasterWatermarkArrive _ | rasterisePacket _ | frameComplete _ | contactLogRecordArrive _ _ | journalRecordAck _ _
  | sinkEmissionArrive _ | ringSinkDeliver _ | forcedRecordFetch _ _ _ | partnerLost _ | partnerResendDone _ | powerOn
  | safelightCandidateWrite _ _ | spdmNegotiateAlgorithms _ _ _ | spdmGetMeasurements _ _ | waitmemMonitorWake _ | powerLoss
  | hostPortTraining _ _ =>
    exact fun _ _ => ⟨nofun, nofun⟩

/-- R71: what decodes is the instruction of the fields, where it is legal. -/
theorem checked_eq_ok {e : Reject} {i j : Instr} :
    (if Legal.instr j then .ok j else .error e : Except Reject Instr) = .ok i ↔ j = i ∧ i.WellFormed := by
  unfold Instr.WellFormed
  split
  · next legal => exact ⟨fun h => by cases h; exact ⟨rfl, legal⟩, fun h => by rw [h.1]⟩
  · next illegal => exact ⟨nofun, fun ⟨same, legal⟩ => absurd legal (same ▸ illegal)⟩

theorem decodeWords_eq_ok {w0 w1 : Nat} {i : Instr} : decodeWords w0 w1 = .ok i ↔ decodeFields w0 w1 = some i ∧ i.WellFormed := by
  cases h : decodeFields w0 w1 with
  | none => simp [decodeWords, h]
  | some j => rw [decodeWords, h]; exact checked_eq_ok.trans (by simp)

theorem decodeFeed_eq_ok {w : Nat} {i : Instr} : decodeFeed w = .ok i ↔ decodeFeedFields w = some i ∧ i.WellFormed := by
  cases h : decodeFeedFields w with
  | none => simp [decodeFeed, h]
  | some j => rw [decodeFeed, h]; exact checked_eq_ok.trans (by simp)

theorem feedWord_one_word {i : Instr} (hf : isFeedWord i = true) (w0 w1 : Nat) : encode i ≠ [w0, w1] := by
  cases i with
  | fld _ _ _ _ _ _ | flds _ _ _ _ | floop _ | floopReg _ | fstep _ _ | fstepReg _ _ | fend | fsync => exact nofun
  | _ => exact nomatch hf

end Sys2Proof.Laws.Fields

namespace Sys2Proof
open Laws.Fields

/-- Settles O4: format by format, each opcode's own part of the map gives the fields back. -/
theorem decodeInvertsEncode : Obligations.DecodeInvertsEncode := by
  intro i wf
  have decodes (hf : isFeedWord i = false) : Decodes i := decodes_of_wellFormed i wf hf
  refine ⟨fun w0 w1 he => ?_, fun w he hf => ?_⟩
  · have hf : isFeedWord i = false := Bool.eq_false_iff.mpr fun h => feedWord_one_word h w0 w1 he
    obtain ⟨long, fields⟩ := (decodes hf w0 w1).1 he
    exact ⟨long, decodeWords_eq_ok.2 ⟨fields, wf⟩⟩
  · obtain ⟨short, fields⟩ := (decodes hf w 0).2 he
    exact ⟨short, decodeWords_eq_ok.2 ⟨fields, wf⟩⟩

end Sys2Proof

/-! ### Words that decode give back their bits: a field times its weight is the difference of two remainders -/

namespace Sys2Proof.Laws.Fields

-- As above: the proofs over whole parts of the opcode map are long.
set_option Elab.async false

/-- The low k bits of a word. -/
def low (w k : Nat) : Int := (w % 2 ^ k : Nat)

theorem low_zero (w : Nat) : low w 0 = 0 := by simp [low, Nat.mod_one]
theorem low_whole {w : Nat} (h : w < 2 ^ 32) : low w 32 = w := by rw [low, Nat.mod_eq_of_lt h]

theorem low_add (w lo n : Nat) : low w (lo + n) = low w lo + num w lo n * 2 ^ lo := by
  rw [low, low, num, pow_add, Nat.mod_mul]; push_cast; ring

theorem num_mul {w lo n : Nat} {c : Int} (h : 2 ^ lo = c) : (num w lo n : Int) * c = low w (lo + n) - low w lo := by
  rw [low_add, ← h]; ring
theorem num_zero (w n : Nat) : (num w 0 n : Int) = low w n := by
  have := low_add w 0 n; simp [low_zero] at this; exact this.symm
theorem num_eq_iff {w lo n v : Nat} : num w lo n = v ↔ low w (lo + n) = low w lo + v * 2 ^ lo := by
  rw [low_add, add_right_inj, mul_left_inj' (by positivity), Int.natCast_inj]

theorem lWord0_lOps (w0 w1 : Nat) : (lWord0 (lOps w0 w1) : Int) = low w0 25 - low w0 7 := by
  unfold lWord0 lOps; push_cast [num_fld]; simp only [num_mul, Int.reducePow, Nat.reduceAdd]; omega
theorem lWord1_lOps (w0 w1 : Nat) : (lWord1 (lOps w0 w1) : Int) = low w1 32 - low w1 7 + low w1 6 := by
  unfold lWord1 lOps; push_cast [num_fld, num_bit]; simp only [num_mul, num_zero, Int.reducePow, Nat.reduceAdd]; omega
theorem mlWord0_mlOps (w0 w1 : Nat) : (mlWord0 (mlOps w0 w1) : Int) = low w0 25 - low w0 7 := by
  unfold mlWord0 mlOps; push_cast [num_fld]; simp only [num_mul, Int.reducePow, Nat.reduceAdd]; omega
theorem mlWord1_mlOps (w0 w1 : Nat) : (mlWord1 (mlOps w0 w1) : Int) = low w1 32 - low w1 2 := by
  unfold mlWord1 mlOps; push_cast [num_fld, num_bit]; simp only [num_mul, Int.reducePow, Nat.reduceAdd]; omega

theorem word_eq {a w : Nat} (h : (a : Int) = w) : [a] = [w] := by rw [Int.natCast_inj.1 h]
theorem words_eq {a b w0 w1 : Nat} (h0 : (a : Int) = w0) (h1 : (b : Int) = w1) : [a, b] = [w0, w1] := by
  rw [Int.natCast_inj.1 h0, Int.natCast_inj.1 h1]

/-- What a decoder makes of words of its opcode encodes to the words of its format (R48). -/
def Reencodes (op : Nat) (dec : Nat → Nat → Option Instr) : Prop :=
  ∀ w0 w1 i, w0 < 2 ^ 32 → w1 < 2 ^ 32 → num w0 25 7 = op → dec w0 w1 = some i → encode i = if op < 64 then [w0] else [w0, w1]

/-- One row of a decoder answers, or the rows below it do. -/
theorem of_ite_eq_some {p q : Prop} [Decidable p] {a b : Option Instr} {i : Instr} (row : p → a = some i → q) (below : b = some i → q) :
    (if p then a else b) = some i → q := by
  split
  · exact row ‹p›
  · exact below

/-- The short opcodes and the decoders of their words (R67). -/
def shortMap : List (Nat × (Nat → Nat → Option Instr)) :=
  [(0x00, fun w _ => decodeOp00 w), (0x01, fun w _ => decodeOp01 w), (0x02, fun w _ => decodeOp02 w), (0x03, fun w _ => decodeOp03 w),
    (0x04, fun w _ => decodeOp04 w), (0x05, fun w _ => decodeOp05 w), (0x06, fun w _ => decodeOp06 w), (0x07, fun w _ => decodeOp07 w),
    (0x08, fun w _ => decodeOp08 w), (0x09, fun w _ => decodeOp09 w), (0x0A, fun w _ => decodeOp0A w), (0x0B, fun w _ => decodeOp0B w),
    (0x0C, fun w _ => decodeOp0C w), (0x0D, fun w _ => decodeOp0D w), (0x0E, fun w _ => decodeOp0E w), (0x0F, fun w _ => decodeOp0F w),
    (0x10, fun w _ => decodeOp10 w), (0x11, fun w _ => decodeOp11 w), (0x12, fun w _ => decodeOp12 w), (0x13, fun w _ => decodeOp13 w),
    (0x14, fun w _ => decodeOp14 w), (0x15, fun w _ => decodeOp15 w), (0x16, fun w _ => decodeOp16 w), (0x17, fun w _ => decodeOp17 w),
    (0x18, fun w _ => decodeOp18 w), (0x19, fun w _ => decodeOp19 w), (0x1A, fun w _ => decodeOp1A w), (0x1B, fun w _ => decodeOp1B w),
    (0x1C, fun w _ => decodeOp1C w), (0x1D, fun w _ => decodeOp1D w), (0x1E, fun w _ => decodeOp1E w), (0x1F, fun w _ => decodeOp1F w),
    (0x20, fun w _ => decodeOp20 w), (0x21, fun w _ => decodeOp21 w), (0x22, fun w _ => decodeOp22 w), (0x23, fun w _ => decodeOp23 w),
    (0x24, fun w _ => decodeOp24 w), (0x25, fun w _ => decodeOp25 w), (0x26, fun w _ => decodeOp26 w), (0x28, fun w _ => decodeOp28 w),
    (0x29, fun w _ => decodeOp29 w), (0x2A, fun w _ => decodeOp2A w), (0x2B, fun w _ => decodeOp2B w), (0x2C, fun w _ => decodeOp2C w),
    (0x2D, fun w _ => decodeOp2D w), (0x2E, fun w _ => decodeOp2E w), (0x2F, fun w _ => decodeOp2F w), (0x30, fun w _ => decodeOp30 w),
    (0x31, fun w _ => decodeOp31 w), (0x32, fun w _ => decodeOp32 w), (0x33, fun w _ => decodeOp33 w), (0x34, fun w _ => decodeOp34 w),
    (0x35, fun w _ => decodeOp35 w), (0x36, fun w _ => decodeOp36 w), (0x38, fun w _ => decodeOp38 w), (0x39, fun w _ => decodeOp39 w),
    (0x3A, fun w _ => decodeOp3A w), (0x3B, fun w _ => decodeOp3B w), (0x3C, fun w _ => decodeOp3C w)]

/-- The long opcodes of vector and uniform instructions (R68). -/
def aluMap : List (Nat × (Nat → Nat → Option Instr)) :=
  [(0x40, decodeOp40), (0x41, decodeOp41), (0x42, decodeOp42), (0x43, decodeOp43), (0x44, decodeOp44), (0x45, decodeOp45), (0x46, decodeOp46),
    (0x47, decodeOp47), (0x48, decodeOp48), (0x49, decodeOp49), (0x4A, decodeOp4A), (0x4B, decodeOp4B), (0x4C, decodeOp4C), (0x4D, decodeOp4D),
    (0x4E, decodeOp4E), (0x4F, decodeOp4F), (0x50, decodeOp50), (0x51, decodeOp51), (0x52, decodeOp52), (0x53, decodeOp53), (0x54, decodeOp54),
    (0x55, decodeOp55), (0x56, decodeOp56), (0x57, decodeOp57), (0x58, decodeOp58)]

/-- The other long opcodes (R68). -/
def longMap : List (Nat × (Nat → Nat → Option Instr)) :=
  [(0x5A, decodeOp5A), (0x5B, decodeOp5B), (0x5C, decodeOp5C), (0x5D, decodeOp5D), (0x5E, decodeOp5E), (0x5F, decodeOp5F), (0x60, decodeOp60),
    (0x61, decodeOp61), (0x62, decodeOp62), (0x63, decodeOp63), (0x64, decodeOp64), (0x65, decodeOp65), (0x66, decodeOp66), (0x67, decodeOp67),
    (0x68, decodeOp68), (0x6A, decodeOp6A), (0x6B, decodeOp6B), (0x6C, decodeOp6C), (0x6D, decodeOp6D), (0x6E, decodeOp6E), (0x6F, decodeOp6F),
    (0x70, decodeOp70), (0x71, decodeOp71), (0x72, decodeOp72), (0x73, decodeOp73), (0x74, decodeOp74), (0x75, decodeOp75), (0x76, decodeOp76),
    (0x77, decodeOp77), (0x78, decodeOp78), (0x79, decodeOp79), (0x7A, decodeOp7A), (0x7B, decodeOp7B), (0x7C, decodeOp7C), (0x7D, decodeOp7D),
    (0x7E, decodeOp7E), (0x7F, decodeOp7F)]

/-- The opcode map (R67, R68). -/
def opcodeMap : List (Nat × (Nat → Nat → Option Instr)) := shortMap ++ aluMap ++ longMap

theorem decodeFields_of_mem {op : Nat} {dec : Nat → Nat → Option Instr} (h : (op, dec) ∈ opcodeMap) {w0 w1 : Nat}
    (hop : num w0 25 7 = op) : decodeFields w0 w1 = dec w0 w1 := by
  have all : ∀ r ∈ opcodeMap, ∀ w0 w1, num w0 25 7 = r.1 → decodeFields w0 w1 = r.2 w0 w1 := by
    simp only [opcodeMap, shortMap, aluMap, longMap, List.cons_append, List.nil_append]
    intro r hr
    fin_cases hr
    all_goals
      intro w0 w1 h
      rw [decodeFields, h]
      rfl
  exact all _ h w0 w1 hop

/-- The opcodes outside the map are unassigned (R71). -/
theorem opcode_mem_or : ∀ op < 128, op ∈ opcodeMap.map (·.1) ∨ op ∈ [0x27, 0x37, 0x3D, 0x3E, 0x3F, 0x59, 0x69] := by decide

theorem decodeFields_unassigned {op w0 w1 : Nat} (h : op ∈ [0x27, 0x37, 0x3D, 0x3E, 0x3F, 0x59, 0x69]) (hop : num w0 25 7 = op) :
    decodeFields w0 w1 = none := by
  fin_cases h
  all_goals
    rw [decodeFields, hop]
    rfl

/-- Each row checks its constant bits; the fields, times their weights, telescope to the word (`num_mul`). -/
theorem reencodes_shortMap : ∀ r ∈ shortMap, Reencodes r.1 r.2 := by
  intro r hr w0 w1 i h0 h1 hop
  have e0 := low_whole h0
  have e1 := low_whole h1
  have z0 := low_zero w0
  have z1 := low_zero w1
  unfold shortMap at hr
  fin_cases hr
  all_goals
    simp only [decodeOp00, decodeOp01, decodeOp02, decodeOp03, decodeOp04, decodeOp05, decodeOp06, decodeOp07, decodeOp08, decodeOp09,
      decodeOp0A, decodeOp0B, decodeOp0C, decodeOp0D, decodeOp0E, decodeOp0F, decodeOp10, decodeOp11, decodeOp12, decodeOp13, decodeOp14,
      decodeOp15, decodeOp16, decodeOp17, decodeOp18, decodeOp19, decodeOp1A, decodeOp1B, decodeOp1C, decodeOp1D, decodeOp1E, decodeOp1F,
      decodeOp20, decodeOp21, decodeOp22, decodeOp23, decodeOp24, decodeOp25, decodeOp26, decodeOp28, decodeOp29, decodeOp2A, decodeOp2B,
      decodeOp2C, decodeOp2D, decodeOp2E, decodeOp2F, decodeOp30, decodeOp31, decodeOp32, decodeOp33, decodeOp34, decodeOp35, decodeOp36,
      decodeOp38, decodeOp39, decodeOp3A, decodeOp3B, decodeOp3C]
    repeat' apply of_ite_eq_some
    all_goals
      intros
      rename_i h
      cases h
    all_goals
      simp only [num_eq_iff, Nat.reduceAdd] at *
      refine word_eq ?_
      simp only [Nat.cast_add, Nat.cast_mul, Nat.cast_ofNat, num_fld, num_bit, num_mul, num_zero, Int.reducePow, Nat.reduceAdd]
      omega

theorem reencodes_aluMap : ∀ r ∈ aluMap, Reencodes r.1 r.2 := by
  intro r hr w0 w1 i h0 h1 hop
  have e0 := low_whole h0
  have e1 := low_whole h1
  have z0 := low_zero w0
  have z1 := low_zero w1
  unfold aluMap at hr
  fin_cases hr
  all_goals
    simp only [decodeOp40, decodeOp41, decodeOp42, decodeOp43, decodeOp44, decodeOp45, decodeOp46, decodeOp47, decodeOp48, decodeOp49,
      decodeOp4A, decodeOp4B, decodeOp4C, decodeOp4D, decodeOp4E, decodeOp4F, decodeOp50, decodeOp51, decodeOp52, decodeOp53, decodeOp54,
      decodeOp55, decodeOp56, decodeOp57, decodeOp58]
    repeat' apply of_ite_eq_some
    all_goals
      intros
      rename_i h
      cases h
    all_goals
      simp only [num_eq_iff, Nat.reduceAdd] at *
      refine words_eq ?_ ?_ <;>
        simp only [Nat.cast_add, Nat.cast_mul, Nat.cast_ofNat, Nat.cast_zero, num_fld, num_bit, num_mul, num_zero, lWord0_lOps, lWord1_lOps,
          Int.reducePow, Nat.reduceAdd] <;>
        omega

theorem reencodes_longMap : ∀ r ∈ longMap, Reencodes r.1 r.2 := by
  intro r hr w0 w1 i h0 h1 hop
  have e0 := low_whole h0
  have e1 := low_whole h1
  have z0 := low_zero w0
  have z1 := low_zero w1
  unfold longMap at hr
  fin_cases hr
  all_goals
    simp only [decodeOp5A, decodeOp5B, decodeOp5C, decodeOp5D, decodeOp5E, decodeOp5F, decodeOp60, decodeOp61, decodeOp62, decodeOp63,
      decodeOp64, decodeOp65, decodeOp66, decodeOp67, decodeOp68, decodeOp6A, decodeOp6B, decodeOp6C, decodeOp6D, decodeOp6E, decodeOp6F,
      decodeOp70, decodeOp71, decodeOp72, decodeOp73, decodeOp74, decodeOp75, decodeOp76, decodeOp77, decodeOp78, decodeOp79, decodeOp7A,
      decodeOp7B, decodeOp7C, decodeOp7D, decodeOp7E, decodeOp7F]
    repeat' apply of_ite_eq_some
    all_goals
      intros
      rename_i h
      cases h
    all_goals
      simp only [num_eq_iff, Nat.reduceAdd] at *
      refine words_eq ?_ ?_ <;>
        simp only [Nat.cast_add, Nat.cast_mul, Nat.cast_ofNat, Nat.cast_zero, num_fld, num_bit, num_mul, num_zero, mlWord0_mlOps, mlWord1_mlOps,
          Int.reducePow, Nat.reduceAdd] <;>
        omega

theorem reencodes_opcodeMap : ∀ r ∈ opcodeMap, Reencodes r.1 r.2 := by
  simp only [opcodeMap, List.forall_mem_append]
  exact ⟨⟨reencodes_shortMap, reencodes_aluMap⟩, reencodes_longMap⟩

theorem encode_of_decodeFields {w0 w1 : Nat} {i : Instr} (h0 : w0 < 2 ^ 32) (h1 : w1 < 2 ^ 32) (h : decodeFields w0 w1 = some i) :
    encode i = if isLong w0 then [w0, w1] else [w0] := by
  rcases opcode_mem_or _ (show num w0 25 7 < 128 from Nat.mod_lt _ (by decide)) with assigned | unassigned
  · obtain ⟨⟨op, dec⟩, mem, rfl⟩ := List.mem_map.1 assigned
    rw [decodeFields_of_mem mem rfl] at h
    rw [reencodes_opcodeMap _ mem w0 w1 i h0 h1 rfl h, isLong_eq]
    by_cases short : num w0 25 7 < 64 <;> simp [short, Nat.not_le.mpr, Nat.not_lt.mp]
  · rw [decodeFields_unassigned unassigned rfl] at h
    cases h

/-! ### Feed words (R70, R220) -/

theorem decodeFeedFields_of_encode {i : Instr} (hf : isFeedWord i = true) {w : Nat} (he : encode i = [w]) : decodeFeedFields w = some i := by
  cases i with
  | fld _ _ _ _ _ _ | flds _ _ _ _ | floop _ | floopReg _ | fstep _ _ | fstepReg _ _ | fend | fsync =>
    obtain rfl := List.singleton_inj.1 he
    simp [decodeFeedFields, ite_eq_iff]
    unfold num; omega
  | _ => exact nomatch hf

theorem feed_of_decodeFeedFields {w : Nat} (hw : w < 2 ^ 32) {i : Instr} : decodeFeedFields w = some i → isFeedWord i = true ∧ encode i = [w] := by
  have whole := low_whole hw
  have zero := low_zero w
  unfold decodeFeedFields
  repeat' apply of_ite_eq_some
  all_goals
    intros
    rename_i h
    cases h
  all_goals
    refine ⟨rfl, word_eq ?_⟩
    simp only [num_eq_iff, Nat.reduceAdd] at *
    simp only [Nat.cast_add, Nat.cast_mul, Nat.cast_ofNat, num_fld, num_mul, num_zero, Int.reducePow, Nat.reduceAdd]
    omega

end Sys2Proof.Laws.Fields

namespace Sys2Proof
open Laws.Fields

/-- Settles O5: each opcode's decoder keeps every bit of its words in the fields or checks it. -/
theorem encodeInvertsDecode : Obligations.EncodeInvertsDecode := by
  refine ⟨fun w0 w1 i h0 h1 _ h => ?_, fun i w wf hf he => ?_, fun w i hw h => ?_⟩
  · obtain ⟨fields, wf⟩ := decodeWords_eq_ok.1 h
    exact ⟨wf, encode_of_decodeFields h0 h1 fields⟩
  · exact decodeFeed_eq_ok.2 ⟨decodeFeedFields_of_encode hf he, wf⟩
  · exact feed_of_decodeFeedFields hw (decodeFeed_eq_ok.1 h).1

end Sys2Proof

/-! ## Clause headers (R42 to R44) -/

namespace Sys2Proof.Laws.Headers
open Machine

theorem classOfCode_of_le {c : Nat} (h : c ≤ 5) : ∃ cls, classOfCode c = some cls ∧ cls.code = c := by
  interval_cases c
  exacts [⟨.alu, rfl, rfl⟩, ⟨.mem, rfl, rfl⟩, ⟨.mtx, rfl, rfl⟩, ⟨.mov, rfl, rfl⟩, ⟨.gfx, rfl, rfl⟩, ⟨.sys, rfl, rfl⟩]

theorem classOfCode_of_lt : ∀ {c : Nat}, 5 < c → classOfCode c = none
  | _ + 6, _ => rfl

/-- The counter and the threshold in byte k of a word. -/
theorem num_waitByte (w k : Nat) :
    num (num w (8 * k) 8) 0 3 = w / 2 ^ (8 * k) % 8 ∧ num (num w (8 * k) 8) 3 5 = w / 2 ^ (8 * k + 3) % 32 := by
  unfold num
  rw [pow_add, ← Nat.div_div_eq_div_mul]
  omega

theorem waitOf_eq_filter (b : Nat) : waitOf b = [(num b 0 3, num b 3 5)].filter fun x => x.1 != 0 := by
  unfold waitOf
  split <;> simp [*]

theorem waitOk_iff (b : Nat) : waitOk b = true ↔ (num b 0 3 = 0 → num b 3 5 = 0) := by
  simp [waitOk, or_iff_not_imp_left]

theorem waitsOf_eq_filter (a b c : Nat) : waitOf a ++ waitOf b ++ waitOf c =
    [(num a 0 3, num a 3 5), (num b 0 3, num b 3 5), (num c 0 3, num c 3 5)].filter fun x => x.1 != 0 := by
  rw [waitOf_eq_filter, waitOf_eq_filter, waitOf_eq_filter, ← List.filter_append, ← List.filter_append]; rfl

end Sys2Proof.Laws.Headers

namespace Sys2Proof
open Machine Laws.Headers

/-- Settles O6: the header's class, count and wait bytes, each taken apart. -/
theorem legalHeaders : Obligations.LegalHeaders := by
  intro w _ wait legal
  have bytes (k : Nat) : wait k = (num (num w (8 * k) 8) 0 3, num (num w (8 * k) 8) 3 5) := by
    rw [(num_waitByte w k).1, (num_waitByte w k).2]
  have class_ : num w 4 3 = w / 16 % 8 := rfl
  have count : num w 0 4 = w % 16 := by simp [num]
  have spare : bit w 7 = false ↔ w / 128 % 2 = 0 := by simp [bit]
  have waitsOk : (∀ k, 1 ≤ k → k ≤ 3 → (wait k).1 = 0 → (wait k).2 = 0) ↔
      waitOk (num w 8 8) ∧ waitOk (num w 16 8) ∧ waitOk (num w 24 8) := by
    simp only [waitOk_iff, bytes]
    refine ⟨fun h => ⟨h 1 (by simp) (by simp), h 2 (by simp) (by simp), h 3 (by simp) (by simp)⟩, fun ⟨h1, h2, h3⟩ k lo hi => ?_⟩
    interval_cases k
    exacts [h1, h2, h3]
  have legal_iff : legal ↔ w / 16 % 8 ≤ 5 ∧ num w 0 4 ≠ 0 ∧ bit w 7 = false ∧
      waitOk (num w 8 8) ∧ waitOk (num w 16 8) ∧ waitOk (num w 24 8) := by
    rw [count, spare, ← waitsOk]
  rw [legal_iff]
  unfold decodeHeader
  rw [class_]
  by_cases hc : w / 16 % 8 ≤ 5
  · obtain ⟨cls, some_, code⟩ := classOfCode_of_le hc
    rw [some_]
    refine ⟨fun h => if_neg fun rest => h ⟨hc, rest⟩, fun ⟨_, rest⟩ => ⟨_, if_pos rest, code, count, ?_⟩⟩
    rw [waitsOf_eq_filter, bytes 1, bytes 2, bytes 3]
  · rw [classOfCode_of_lt (by omega)]
    exact ⟨fun _ => rfl, fun h => absurd h.1 hc⟩

/-- Settles O3: the decoder evaluated on each word. -/
theorem specWordsDecode : Obligations.SpecWordsDecode := by
  unfold Obligations.SpecWordsDecode
  and_intros <;> rfl

end Sys2Proof

/-! ## The next move, and what a visited group does with its word (R71, R289, R290) -/

namespace Sys2Proof.Laws.Visits
open Machine

theorem nextMove_visit {s : State} {k : Nat} {rest : List Action} {v : Visit} {vs : List Visit} (ha : s.agenda = .visit k :: rest)
    (hp : popVisit s.visits k = some (v, vs)) : nextMove s = visitMove { draw s with agenda := rest } v vs := by
  simp only [nextMove, draw, ha, askedMove, hp]

theorem nextMove_first {s : State} {v : Visit} {vs : List Visit} (ha : s.agenda = []) (boot : s.phase ≠ .unbooted)
    (hp : popVisit s.visits 0 = some (v, vs)) : nextMove s = visitMove (draw s) v vs := by
  simp only [nextMove, draw, ha, boot, if_false, firstVisit, hp]

/-- A move in which nothing holds Fennel back (R221). -/
theorem nextMove_feed {s : State} {n : Nat} {rest : List Action} (ha : s.agenda = .feed n :: rest) (hv : s.visits = []) {b : State}
    (hb : b = { draw s with agenda := rest }) :
    nextMove s = { base := b, state := (moveFeed b n).1, instr := (moveFeed b n).2 } := by
  subst hb
  simp only [nextMove, draw, ha, askedMove, firstVisit, hv]; rfl

section
variable {s : State} {v : Visit} {g : Group} {h : Header}

/-- A group that waits for nothing, stands in a clause of its own and is not held goes on to its next word. -/
theorem lookAt_of_free {u : State} (hu : u = { s with cur := v.group }) (hg : tblGet s.groups v.group = some g) (alive : g.ended = false)
    (runs : g.stopped = false) (stays : stopping u g = false) (fresh : v.waits = false ∨ v.stage ≠ 0) (free : g.wait = .none)
    (idle : g.turn = .idle) (sfu : g.sfuUntil ≤ s.clock) (hdr : g.hdr = some h) (held : heldByPhase u g = false) :
    lookAt s v = visitWord u v g h := by
  have notOver : (v.waits && v.stage == 0 && g.wait == .none) = false := by
    rcases fresh with w | w <;> simp [w]
  have notHalted : halted u g = false := by simp [halted, runs]
  have notAgain : again g = none := by simp [again, hdr]
  have ready : ¬ s.clock < g.sfuUntil := Nat.not_lt.mpr sfu
  simp only [lookAt, hg, ← hu]
  rw [if_neg (by simp [alive, notHalted, notOver]), if_neg (by simp [stays]), if_neg (by simp [idle]), if_neg (by simp [free]),
    if_neg (by simp [notAgain]), if_neg (by simp [held, ready])]
  simp only [hdr]

theorem visitWord_of_met (barrel : onAccess h.cls = v.access)
    (met : g.entered = true ∨ waitsMet g h = true ∧ raiseAtHeader s v.group g h = none) :
    visitWord s v g h = { state := (issueWord s v.group g h).1, instr := (issueWord s v.group g h).2 } := by
  rcases met with e | ⟨e, r⟩
  · simp [visitWord, barrel, e]
  · by_cases he : g.entered = true <;> simp [visitWord, barrel, e, r, he]

end

section
variable {s s1 s2 : State} {n len w0 w1 : Nat} {g : Group} {h : Header} {i : Instr}
  (first : fetchWord s n g (wordAddr g g.idx).toNat = (s1, some w0)) (here : wordsHere g w0 = some len)
  (second : fetchSecond s1 n g len = (s2, some w1))
include first here second

/-- R48, R190, R328: outside a transaction and an ordered quantum the decoded instruction issues. -/
theorem issueWord_of_ok (decoded : decodeWords w0 w1 = .ok i) (place : placeOk g h w0 len i = true) (tx : g.tx = none)
    (ordered : orderedMode s2 g = false) (idle : g.turn = .idle) :
    issueWord s n g h = (s2.putGroup n (enter i g), some i) := by
  simp [issueWord, first, here, second, decoded, place, letIssue, tx, ordered, idle]

/-- R46, R71: any other word traps. -/
theorem issueWord_of_illegal (illegal : ∀ i, decodeWords w0 w1 = .ok i → placeOk g h w0 len i = false) :
    issueWord s n g h = (trapAt s2 n 0x02 (wordInfo w0 w1), none) := by
  simp only [issueWord, first, here, second]
  cases decoded : decodeWords w0 w1 with
  | error e => rfl
  | ok i => simp [illegal i decoded]

end

theorem visitMove_of_look {s u t : State} {v : Visit} {vs : List Visit} {oi : Option Instr} (hu : u = { s with visits := vs })
    (look : lookAt u v = { state := t, instr := oi }) : visitMove s v vs = { base := u, state := t, instr := oi, visit := some (v, none) } := by
  unfold visitMove
  simp only [← hu, look]

theorem step_of_still {s : State} {m : Move} (hm : nextMove s = m) (still : m.instr = none) : step s = finishMove m (.next m.state) := by
  unfold step
  simp only [hm, still]

theorem step_of_instr {s : State} {m : Move} {i : Instr} (hm : nextMove s = m) (runs : m.instr = some i) :
    step s = finishMove m (exec i m.state) := by
  unfold step
  simp only [hm, runs]

end Sys2Proof.Laws.Visits

namespace Sys2Proof
open Machine Laws.Visits Laws.Fields

/-- Settles O2: the fetched words trap at the issue, and the trap's entry is the move. -/
theorem stepTrapsOnIllegalWord : Obligations.StepTrapsOnIllegalWord := by
  intro s b u s1 s2 v vs len w0 w1 g h hm hu hg alive runs stays fresh free idle sfu hdr barrel entered held first here second illegal at_
  subst hu
  have look : lookAt { b with visits := vs } v = { state := at_ } := by
    rw [lookAt_of_free (s := { b with visits := vs }) rfl hg alive runs stays fresh free idle sfu hdr held, visitWord_of_met barrel (.inl entered),
      issueWord_of_illegal first here second illegal]
    rfl
  exact step_of_still (hm.trans (visitMove_of_look rfl look)) rfl

/-- Settles O1: the move is chosen, the visited group is free to issue, and the issue answers the decoded instruction. -/
theorem stepRunsTheDecodedInstruction : Obligations.StepRunsTheDecodedInstruction := by
  refine ⟨⟨fun s k rest v vs => nextMove_visit, fun s v vs => nextMove_first, ?_⟩, ?_⟩
  · intro s b u s1 s2 v vs len w0 w1 g h i hm hu hg alive runs stays fresh free idle sfu hdr barrel met tx held first here second decoded place
      ordered at_
    subst hu
    have look : lookAt { b with visits := vs } v = { state := at_, instr := some i } := by
      rw [lookAt_of_free (s := { b with visits := vs }) rfl hg alive runs stays fresh free idle sfu hdr held, visitWord_of_met barrel met,
        issueWord_of_ok first here second decoded place tx ordered idle]
    exact ⟨(decodeWords_eq_ok.1 decoded).2, step_of_instr (hm.trans (visitMove_of_look rfl look)) rfl⟩
  · intro s b n rest g f i ha hv hb turn hg hf decoded at_
    have move : moveFeed b n = (at_, some i) := by
      simp only [moveFeed, turn, hg, Option.bind_some, hf, decoded]; rfl
    have hm := nextMove_feed ha hv hb
    rw [move] at hm
    exact ⟨(decodeFeed_eq_ok.1 decoded).2, step_of_instr hm rfl⟩

end Sys2Proof

/-! ## Control (R141 to R145) -/

namespace Sys2Proof.Laws.Control
open Machine

theorem signExtend_shiftLeft_two (off : BitVec 16) : off.signExtend 64 <<< 2 = BitVec.ofInt 64 (4 * off.toInt) := by
  have e : off.signExtend 64 = BitVec.ofInt 64 off.toInt := rfl
  rw [e, BitVec.shiftLeft_eq_mul_twoPow, BitVec.mul_comm, BitVec.ofInt_mul]
  rfl

/-- R53: the target lies OFF words after the next word. -/
theorem branchTarget_eq (g : Group) (off : BitVec 16) :
    branchTarget g off = g.pc + 4 + BitVec.ofNat 64 (4 * g.idx) + 4 + BitVec.ofInt 64 (4 * off.toInt) := by
  rw [branchTarget, wordAddr, signExtend_shiftLeft_two]; rfl

theorem branchMask_eq (g : Group) (p : BitVec 5) : branchMask g p =
    if p = 0b01111 then g.exec else (if p.getLsbD 4 then ~~~(cellGet g.p (p.toNat % 16)) else cellGet g.p (p.toNat % 16)) &&& g.exec := by
  unfold branchMask guardMask
  split
  · exact BitVec.allOnes_and
  · rfl

theorem branchTaken_eq (g : Group) {c : BitVec 3} (hc : c.toNat < 4) (m : Word64) :
    branchTaken g c m = (c = 0 || (c = 1 && m != 0) || (c = 2 && m == g.exec) || (c = 3 && m == 0)) := by
  have cases : c = 0 ∨ c = 1 ∨ c = 2 ∨ c = 3 := by bv_omega
  rcases cases with rfl | rfl | rfl | rfl <;> simp [branchTaken]

theorem badTarget_iff (a : Word64) : badTarget a = true ↔ ¬ (a.toNat % 4 = 0 ∧ a.toNat < 0xFC000000000000) := by
  simp [badTarget, badTarget.inGlobalWindow, imp_iff_not_or]

theorem br_condition {p : BitVec 5} {c : BitVec 3} {u : Bool} {off : BitVec 16} (wf : (Instr.br p c u off).WellFormed) : c.toNat < 4 := by
  simp [Instr.WellFormed, Legal.instr, Legal.br] at wf
  omega

section
variable {s : State} {g : Group} (hs : Selected s g)
include hs

/-- R141: a mask that U forbids traps; otherwise only the group's place and its record of branches change. -/
theorem execBr_of_selected (p : BitVec 5) (c : BitVec 3) (u : Bool) (off : BitVec 16) : execBr p c u off s =
    .next (if u ∧ branchMask g p ≠ 0 ∧ branchMask g p ≠ g.exec then trapAt s s.cur 0x03 (branchMask g p)
      else s.putGroup s.cur
        (if branchTaken g c (branchMask g p) then transfer (branchTarget g off) (countBranch g) else advance 1 (countBranch g))) := by
  rw [execBr, onGroup_of_some hs]
  simp only [apply_ite (s.putGroup s.cur), Bool.and_eq_true, bne_iff_ne, and_assoc]

/-- R142: RET and JMPX. -/
theorem jumpTo_of_selected (a : BitVec 7) : jumpTo a s =
    .next (if (usrc64 s g 0 a).toNat % 4 = 0 ∧ (usrc64 s g 0 a).toNat < 0xFC000000000000 then s.putGroup s.cur (transfer (usrc64 s g 0 a) g)
      else trapAt s s.cur 0x04 (usrc64 s g 0 a)) := by
  rw [jumpTo, onGroup_of_some hs]
  simp only [badTarget_iff, ite_not]

/-- R143: LOOP writes its register only where it held something. -/
theorem execLoop_of_selected (n : BitVec 5) (off : BitVec 16) : execLoop n off s =
    .next (s.putGroup s.cur (
      if readS s.draws 0 g n.toNat = 0 then advance 1 g
      else if readS s.draws 0 g n.toNat = 1 then advance 1 (writeS g n.toNat 0)
      else transfer (branchTarget g off) (writeS g n.toNat (readS s.draws 0 g n.toNat - 1)))) := by
  rw [execLoop, onGroup_of_some hs]
  generalize readS s.draws 0 g n.toNat = v
  by_cases h0 : v = 0
  · simp [h0]
  · by_cases h1 : v = 1
    · subst h1; rfl
    · rw [if_neg h0, if_neg h0, if_neg h1, if_neg h1]

end

end Sys2Proof.Laws.Control

namespace Sys2Proof
open Machine Laws.Control

/-- Settles O24: BR, CALL, RET, JMPX, LOOP and NOP, each from its equation over the selected group. -/
theorem branchesAndCalls : Obligations.BranchesAndCalls := by
  constructor
  · intro s g p c u off hs wf inverted pred m target counted taken
    have mask : branchMask g p = m := branchMask_eq g p
    have goes : branchTaken g c m = taken := branchTaken_eq g (br_condition wf) m
    refine (execBr_of_selected hs p c u off).trans ?_
    rw [mask, goes, branchTarget_eq]; rfl
  · intro s g hs here target
    refine ⟨?_, ?_, ?_, fun gd => onGroup_of_some hs _⟩
    · intro l off
      refine (onGroup_of_some hs _).trans ?_
      rw [branchTarget_eq]; rfl
    · intro a x r
      exact ⟨jumpTo_of_selected hs a, jumpTo_of_selected hs a⟩
    · intro n off v
      refine (execLoop_of_selected hs n off).trans ?_
      rw [branchTarget_eq]

end Sys2Proof

/-! ## Dispatch and the visits of a clock (R41 to R44, R286 to R295) -/

namespace Sys2Proof.Laws.Dispatching
open Machine

section
variable {s u : State} {g : Group} (hs : Selected s g) (alive : g.ended = false) (runs : g.stopped = false) (between : g.hdr = none)
  (free : g.wait = .none) (own : g.handler = false) (ordered : orderedMode s g = false) {w : Nat}
  (fetched : fetchWord s s.cur g g.pc.toNat = (u, some w))
include hs alive runs between free own ordered fetched

/-- R44: an illegal header. -/
theorem execClauseDispatch_of_illegal (illegal : decodeHeader w = none) : execClauseDispatch s = .next (trapAt u s.cur 0x01 0) := by
  rw [execClauseDispatch, onGroup_of_some hs, if_neg (by simp [alive, runs, between, free]), if_neg (by simp [ordered])]
  simp [fetchHeader, atHandler, own, fetched, illegal]

theorem execClauseDispatch_of_legal (cur : u.cur = s.cur) (kept : tblGet u.groups s.cur = some g) {h : Header}
    (legal : decodeHeader w = some h) : execClauseDispatch s = .next (u.putGroup s.cur (beginClause h g)) := by
  rw [execClauseDispatch, onGroup_of_some hs, if_neg (by simp [alive, runs, between, free]), if_neg (by simp [ordered])]
  simp [fetchHeader, atHandler, own, fetched, legal, cur, State.upGroup_of_some kept]

end

theorem beginClause_of_lt {h : Header} {g : Group} (inside : g.idx < h.count) : beginClause h g = { g with hdr := some h, entered := false } :=
  if_neg fun past => absurd past.2 (Nat.not_le.mpr inside)

/-- R370: a group that resumes behind the clause's last word. -/
theorem beginClause_of_le {h : Header} {g : Group} (resumed : g.idx ≠ 0) (past : h.count ≤ g.idx) :
    beginClause h g = transfer (g.pc + 4 + BitVec.ofNat 64 (4 * h.count)) { g with hdr := some h, entered := false } :=
  if_pos ⟨resumed, past⟩

/-- The counters on which a reported error pends, from the lowest (R277). -/
theorem pendingErr_eq_some {g : Group} {ids : List Nat} {c : Nat} (small : c < 8) (named : c ∈ ids)
    (pends : ∃ r e, tblGet g.repErr c = some r ∧ r.cause = some e)
    (lowest : ∀ x ∈ ids, (∃ r e, tblGet g.repErr x = some r ∧ r.cause = some e) → c ≤ x) : pendingErr g ids = some c := by
  have pends_iff (x : Nat) : ((tblGet g.repErr x).bind (·.cause)).isSome = true ↔ ∃ r e, tblGet g.repErr x = some r ∧ r.cause = some e := by
    simp [Option.isSome_iff_exists, Option.bind_eq_some_iff, exists_comm]
  rw [pendingErr, List.find?_range_eq_some]
  refine ⟨by simp [named, (pends_iff c).2 pends], by simpa using small, fun x below => ?_⟩
  by_contra both
  simp only [Bool.not_eq_true', Bool.not_eq_false, Bool.and_eq_true, List.contains_iff_mem] at both
  obtain ⟨namedX, pendsX⟩ := both
  exact absurd (lowest x namedX ((pends_iff x).1 pendsX)) (Nat.not_le.mpr below)

theorem visitWord_of_pending {s s1 : State} {v : Visit} {g : Group} {h : Header} (fresh : g.entered = false) (barrel : onAccess h.cls = v.access)
    (met : waitsMet g h = true) (raised : raiseAtHeader s v.group g h = some s1) : visitWord s v g h = { state := s1 } := by
  simp [visitWord, barrel, fresh, met, raised]

theorem visited_eq_some {r : Rotation} {clock : Nat} {x : Nat × Nat} (h : visited r clock = some x) :
    r.start ≤ clock ∧ r.slots[clock - r.start]? = some x := by
  unfold visited at h
  split at h
  · next started => exact ⟨started, h⟩
  · cases h

/-- R286: the groups of a slot are those of the team that the slot holds in the partition, and live. -/
theorem mem_groupsAt {s : State} {team part slot n : Nat} (h : n ∈ groupsAt s team part slot) : ∃ t g, tblGet s.teams team = some t ∧
    (∃ i, t.groups[i]? = some n ∧ i % 4 = part ∧ t.slots[i]? = some slot) ∧ tblGet s.groups n = some g ∧ g.ended = false := by
  unfold groupsAt at h
  split at h
  · cases h
  · next t ht =>
    simp only [List.mem_filterMap, List.mem_range, Option.ite_none_right_eq_some, Option.some.injEq] at h
    obtain ⟨i, hi, ⟨part_, slot_, live⟩, rfl⟩ := h
    cases hg : tblGet s.groups (t.groups.getD i 0) with
    | none => rw [hg] at live; cases live
    | some g =>
      rw [hg] at live
      exact ⟨t, g, ht, ⟨i, by simp [hi], part_, slot_⟩, rfl, by simpa using live⟩

theorem servedOrder_perm (last : Option Nat) (ns : List Nat) : (servedOrder last ns).Perm ns := by
  cases last with
  | none => exact .refl _
  | some m => exact List.filter_append_perm _ ns

theorem servedOrder_head {last : Nat} {ns : List Nat} (h : ∃ n ∈ ns, last < n) : ∃ m rest, servedOrder (some last) ns = m :: rest ∧ last < m := by
  obtain ⟨n, hn, above⟩ := h
  cases later : ns.filter (fun n => decide (last < n)) with
  | nil => exact absurd above (by simpa using List.filter_eq_nil_iff.1 later n hn)
  | cons m rest =>
    have hm : m ∈ ns.filter fun n => decide (last < n) := by rw [later]; exact List.mem_cons_self
    exact ⟨m, rest ++ ns.filter fun n => !decide (last < n), by simp only [servedOrder, later]; rfl, by simpa using (List.mem_filter.1 hm).2⟩

end Sys2Proof.Laws.Dispatching

namespace Sys2Proof
open Machine Laws.Dispatching

/-- Settles O51: the dispatch by whether the header is legal, the error that pends at the header, and the visits of a barrel. -/
theorem clausesDispatch : Obligations.ClausesDispatch := by
  refine ⟨⟨?_, ?_⟩, ?_, ?_, ?_⟩
  · intro s g hs alive runs between free own ordered u w fetched cur kept
    refine ⟨execClauseDispatch_of_illegal hs alive runs between free own ordered fetched, fun h legal => ?_⟩
    refine ⟨_, execClauseDispatch_of_legal hs alive runs between free own ordered fetched cur kept legal, ?_⟩
    refine ⟨rfl, fun m hm => by simp [hm.symm], fun inside => ?_, fun resumed past => ?_⟩
    · simp [beginClause_of_lt inside]
    · exact ⟨beginClause h g, by simp, by simp [beginClause_of_le resumed past, transfer, goto]⟩
  · intro s v g h c fresh barrel met named small pends lowest
    have allMet : waitsMet g h = true := by simpa [waitsMet] using met
    have pending : pendingErr g (h.waits.map (·.1)) = some c.1 :=
      pendingErr_eq_some small (List.mem_map_of_mem named) pends fun x hx => by
        obtain ⟨y, hy, rfl⟩ := List.mem_map.1 hx
        exact lowest y hy
    exact visitWord_of_pending fresh barrel allMet (by simp [raiseAtHeader, allMet, pending])
  · intro s core part access c v hv
    unfold barrelVisits at hv
    split at hv
    · cases hv
    · next slot team turn =>
      obtain ⟨r, rotation, place⟩ := Option.bind_eq_some_iff.1 turn
      obtain ⟨started, at_⟩ := visited_eq_some place
      obtain ⟨n, hn, rfl⟩ := List.mem_map.1 hv
      have mem : n ∈ groupsAt s team part slot := by
        cases access with
        | false => exact hn
        | true => exact (servedOrder_perm _ _).mem_iff.1 hn
      obtain ⟨t, g, ht, seat, hg, live⟩ := mem_groupsAt mem
      exact ⟨r, slot, team, t, g, rotation, started, at_, rfl, rfl, rfl, rfl, rfl, ht, seat, hg, live, by simp [hg]⟩
  · exact fun last ns => ⟨servedOrder_perm _ ns, servedOrder_head⟩
  · intro s v access x hx
    simp only [noteServed, access, restVisits, if_true, List.mem_filter] at hx
    rintro ⟨same, core, part, slot⟩
    simp [same, core, part, slot] at hx

end Sys2Proof

/-! ## Across lanes -/

namespace Sys2Proof.Laws.Trees
open Machine

/-! ### A reduction over a commutative operation (R103, R131) -/

/-- The nodes of an operation compute f, with identity e, on what r reads of their numbers, and raise no flags. -/
structure Combines {α : Type} (op : Nat) (t : Fp.Elem) (r : Nat → α) (f : α → α → α) (e : α) : Prop where
  assoc : ∀ x y z, f (f x y) z = f x (f y z)
  comm : ∀ x y, f x y = f y x
  right : ∀ x, f x e = x
  value : ∀ x y, r (Fp.node op t x y).1 = f (r x) (r y)
  quiet : ∀ x y, (Fp.node op t x y).2 = 0
  ident : r (Fp.identity op t) = e

section
variable {α : Type} {op : Nat} {t : Fp.Elem} {r : Nat → α} {f : α → α → α} {e : α}

theorem length_pairUp : ∀ xs : List Nat, (Fp.pairUp op t xs).1.length = (xs.length + 1) / 2
  | x :: y :: rest => by simp [Fp.pairUp, length_pairUp rest]; omega
  | [] | [_] => by simp [Fp.pairUp]

variable (c : Combines op t r f e)
include c

theorem foldr_pairUp : ∀ xs : List Nat, ((Fp.pairUp op t xs).1.map r).foldr f e = (xs.map r).foldr f e
  | x :: y :: rest => by simp [Fp.pairUp, c.value, c.assoc, foldr_pairUp rest]
  | [] | [_] => by simp [Fp.pairUp]

theorem pairUp_quiet : ∀ xs : List Nat, (Fp.pairUp op t xs).2 = 0
  | x :: y :: rest => by simp [Fp.pairUp, c.quiet, pairUp_quiet rest]
  | [] | [_] => by simp [Fp.pairUp]

/-- Each level of the tree halves the list, keeps what it combines to and raises no flags. -/
theorem tree_eq : ∀ (j : Nat) (xs : List Nat), xs.length = 2 ^ j → ∃ x, Fp.tree op t j xs = ([x], 0) ∧ r x = (xs.map r).foldr f e
  | 0, xs, h => by
    obtain ⟨x, rfl⟩ := List.length_eq_one_iff.1 h
    exact ⟨x, rfl, (c.right _).symm⟩
  | j + 1, xs, h => by
    obtain ⟨x, root, combined⟩ := tree_eq j (Fp.pairUp op t xs).1 (by rw [length_pairUp, h]; omega)
    exact ⟨x, by simp [Fp.tree, root, pairUp_quiet c], by rw [combined, foldr_pairUp c]⟩

theorem treeRoot_eq {j : Nat} {xs : List Nat} (h : xs.length = 2 ^ j) :
    r (Fp.treeRoot op t j xs).1 = (xs.map r).foldr f e ∧ (Fp.treeRoot op t j xs).2 = 0 := by
  obtain ⟨x, root, combined⟩ := tree_eq c j xs h
  rw [Fp.treeRoot, List.take_of_length_le h.le, root]
  exact ⟨combined, rfl⟩

/-- The lanes that take no part hold the identity. -/
theorem foldr_lanes (p : Nat → Bool) (x : Nat → α) (ls : List Nat) :
    (ls.map fun l => if p l then x l else e).foldr f e = ((ls.filter p).map x).foldr f e := by
  induction ls with
  | nil => rfl
  | cons l ls ih => cases h : p l <;> simp [h, ih, c.comm e, c.right]

theorem foldl_eq_foldr (xs : List α) : xs.foldl f e = xs.foldr f e :=
  haveI : Std.Associative f := ⟨c.assoc⟩
  haveI : Std.Commutative f := ⟨c.comm⟩
  List.foldl_eq_foldr

end

theorem two_pow_log2_width {w : Nat} (hw : w ∈ [8, 16, 32, 64]) : 2 ^ w.log2 = w := by
  fin_cases hw <;> decide

theorem redGroup_n32 (s : State) (g : Group) (rop : BitVec 3) (o : LOps) :
    redGroup s g rop 2 o = redValues rop.toNat (.uint 32) g.width (active g o.g) fun l => (opA s g tInt o l).toNat := rfl

/-- R131: what the lanes of ACTIVE combine to. -/
theorem treeRoot_redGroup {s : State} {g : Group} {o : LOps} (hw : g.width ∈ [8, 16, 32, 64]) {rop : BitVec 3} {f : Word → Word → Word} {e : Word}
    (c : Combines rop.toNat (.uint 32) (BitVec.ofNat 32) f e) :
    BitVec.ofNat 32 (Fp.treeRoot rop.toNat (.uint 32) g.width.log2 (redGroup s g rop 2 o)).1 =
        ((lanesOf g.width (active g o.g)).map (opA s g tInt o)).foldr f e ∧
      (Fp.treeRoot rop.toNat (.uint 32) g.width.log2 (redGroup s g rop 2 o)).2 = 0 := by
  obtain ⟨combined, quiet⟩ := treeRoot_eq c (xs := redGroup s g rop 2 o) (j := g.width.log2) (by
    rw [redGroup_n32, redValues, List.length_map, List.length_range, two_pow_log2_width hw])
  have words : (redGroup s g rop 2 o).map (BitVec.ofNat 32) =
      (List.range g.width).map fun l => if (active g o.g).getLsbD l then opA s g tInt o l else e := by
    simp only [redGroup_n32, redValues, List.map_map]
    refine List.map_congr_left fun l _ => ?_
    by_cases h : (active g o.g).getLsbD l <;> simp [h, c.ident]
  exact ⟨by rw [combined, words, foldr_lanes c]; rfl, quiet⟩

theorem combines_add : Combines 0 (.uint 32) (BitVec.ofNat 32) (· + ·) 0 where
  assoc := BitVec.add_assoc
  comm := BitVec.add_comm
  right := BitVec.add_zero
  value x y := by rw [← BitVec.ofNat_add]; exact BitVec.eq_of_toNat_eq (by simp [Fp.node])
  quiet _ _ := rfl
  ident := rfl

theorem combines_and : Combines 3 (.uint 32) (BitVec.ofNat 32) (· &&& ·) (BitVec.allOnes 32) where
  assoc := BitVec.and_assoc
  comm := BitVec.and_comm
  right _ := BitVec.and_allOnes
  value _ _ := BitVec.ofNat_and
  quiet _ _ := rfl
  ident := rfl

theorem combines_or : Combines 4 (.uint 32) (BitVec.ofNat 32) (· ||| ·) 0 where
  assoc := BitVec.or_assoc
  comm := BitVec.or_comm
  right _ := BitVec.or_zero
  value _ _ := BitVec.ofNat_or
  quiet _ _ := rfl
  ident := rfl

theorem combines_xor : Combines 5 (.uint 32) (BitVec.ofNat 32) (· ^^^ ·) 0 where
  assoc := BitVec.xor_assoc
  comm := BitVec.xor_comm
  right _ := BitVec.xor_zero
  value _ _ := BitVec.ofNat_xor
  quiet _ _ := rfl
  ident := rfl

/-! ### The instructions (R130, R131) -/

section
variable {s : State} {g : Group} (hs : Selected s g) (o : LOps)
include hs

/-- A reduction or scan with a 32-bit result. -/
theorem redInstr_word (hf : FeedsReady s g [(o.a, false)]) {t3 : BitVec 3} (short : t3.toNat ≤ 2) (f : Group → Nat → Nat × Fp.Flags) :
    ∃ t, redInstr s t3 o f = .next t ∧
      VectorDone s t g 2 o.g o.d [(o.a, false)] (fun l => BitVec.ofNat 32 (f g l).1) fun l => (f g l).2 := by
  rw [redInstr, if_pos short]
  exact vec32_done hs 2 o.g o.d hf _

theorem redInstr_wide (hf : FeedsReady s g [(o.a, true)]) {t3 : BitVec 3} (long : 3 ≤ t3.toNat) (f : Group → Nat → Nat × Fp.Flags) :
    ∃ t, redInstr s t3 o f = .next t ∧ WideDone s t g 2 o.g o.d [(o.a, true)] fun l => BitVec.ofNat 64 (f g l).1 := by
  rw [redInstr, if_neg (by omega)]
  exact vec64_done hs 2 o.g o.d hf _

/-- R130: XLANE.idx, which reads 0 where it names no lane. -/
theorem xlaneIdx_word (ifill : BitVec 2) (hf : FeedsReady s g [(o.a, false), (o.b, false)]) :
    ∃ t, exec (.xlaneIdx false ifill o) s = .next t ∧ PlainDone s t g 2 o.g o.d [(o.a, false), (o.b, false)] fun l =>
      ((idxLane ifill g.width l (opB s g tInt false o l).toNat).map fun j => src32 s g tInt [] o.a j).getD 0 := by
  have run : exec (.xlaneIdx false ifill o) s = vec32 s 2 o.g o.d [(o.a, false), (o.b, false)] fun g l =>
      plain (((idxLane ifill g.width l (opB s g tInt false o l).toNat).map fun j => src32 s g tInt [] o.a j).getD 0) := by
    refine congrArg (vec32 s 2 o.g o.d _) (funext₂ fun g l => ?_)
    cases idxLane ifill g.width l (opB s g tInt false o l).toNat <;> rfl
  rw [run]
  exact plain_done hs 2 o.g o.d hf _

theorem xlaneIdx_wide (ifill : BitVec 2) (hf : FeedsReady s g [(o.a, true), (o.b, false)]) :
    ∃ t, exec (.xlaneIdx true ifill o) s = .next t ∧ WideDone s t g 2 o.g o.d [(o.a, true), (o.b, false)] fun l =>
      ((idxLane ifill g.width l (opB s g tInt true o l).toNat).map fun j => src64 s g [] o.a j).getD 0 := by
  have run : exec (.xlaneIdx true ifill o) s = vec64 s 2 o.g o.d [(o.a, true), (o.b, false)] fun g l =>
      ((idxLane ifill g.width l (opB s g tInt true o l).toNat).map fun j => src64 s g [] o.a j).getD 0 := by
    refine congrArg (vec64 s 2 o.g o.d _) (funext₂ fun g l => ?_)
    cases idxLane ifill g.width l (opB s g tInt true o l).toNat <;> rfl
  rw [run]
  exact vec64_done hs 2 o.g o.d hf _

/-- R131: an integer reduction of 32 bits over a commutative operation. -/
theorem redx_of_combines (hf : FeedsReady s g [(o.a, false)]) (hw : g.width ∈ [8, 16, 32, 64]) {rop : BitVec 3} {f : Word → Word → Word} {e : Word}
    (c : Combines rop.toNat (.uint 32) (BitVec.ofNat 32) f e) {r : Word}
    (fold : r = ((lanesOf g.width (active g o.g)).map (opA s g tInt o)).foldr f e) :
    ∃ t, exec (.redx rop 2 o) s = .next t ∧ PlainDone s t g 2 o.g o.d [(o.a, false)] fun _ => r := by
  obtain ⟨combined, quiet⟩ := treeRoot_redGroup (s := s) (o := o) hw c
  obtain ⟨t, run, done⟩ := redInstr_word hs o hf (t3 := 2) (by decide)
    fun g _ => Fp.treeRoot rop.toNat (.uint 32) g.width.log2 (redGroup s g rop 2 o)
  simp only [combined, quiet, ← fold] at done
  obtain ⟨g', h1, h2, h3, h4, h5, h6⟩ := done
  exact ⟨t, run, g', h1, h2, h3, by rw [h4, laneFlags_zero]; simp, h5, h6⟩

end

theorem idxLane_eq (ifill : BitVec 2) (w l j : Nat) :
    idxLane ifill w l j = if j < w then some j else if ifill = 0 then none else if ifill = 1 then some l else some (j % w) := by
  unfold idxLane
  split
  · rfl
  · have cases : ifill = 0 ∨ ifill = 1 ∨ ifill = 2 ∨ ifill = 3 := by bv_omega
    rcases cases with rfl | rfl | rfl | rfl <;> rfl

end Sys2Proof.Laws.Trees

namespace Sys2Proof
open Machine Laws.Trees

/-- Settles O20: each instruction by the shape of its result, and the integer reductions by what the nodes of the tree compute. -/
theorem acrossLanes : Obligations.AcrossLanes := by
  constructor
  · intro s g o hs
    refine ⟨fun hf => ⟨?_, ?_, ?_⟩, fun hf => ⟨?_, ?_, ?_⟩, ?_⟩
    · exact plain_done hs 2 o.g o.d hf fun g l => opA s g tInt o l
    · exact vec64_done hs 2 o.g o.d hf _
    · intro rop t3 excl short vals scan
      exact ⟨redInstr_word hs o hf short _, redInstr_word hs o hf short _⟩
    · exact vec64_done hs 2 o.g o.d hf _
    · exact vec64_done hs 2 o.g o.d hf _
    · intro rop t3 excl long vals scan
      exact ⟨redInstr_wide hs o hf long _, redInstr_wide hs o hf long _⟩
    · intro ifill lane
      have chosen (l j : Nat) : lane l j = idxLane ifill g.width l j := (idxLane_eq ifill g.width l j).symm
      simp only [chosen]
      exact ⟨xlaneIdx_word hs o ifill, xlaneIdx_wide hs o ifill⟩
  · intro s g o hs hw hf xs done
    exact ⟨redx_of_combines hs o hf hw (rop := 0) combines_add rfl,
      redx_of_combines hs o hf hw (rop := 3) combines_and (foldl_eq_foldr combines_and xs),
      redx_of_combines hs o hf hw (rop := 4) combines_or (foldl_eq_foldr combines_or xs),
      redx_of_combines hs o hf hw (rop := 5) combines_xor (foldl_eq_foldr combines_xor xs)⟩

end Sys2Proof

/-! ## Number formats -/

namespace Sys2Proof.Laws.Formats
open Machine Machine.Fp

/-! ### The codes that are NaNs (R82, R83) -/

/-- R83: the code d of format f, if it is a NaN at all, is the canonical one. -/
def NaNIsCanon (f : Fmt) (d : Nat) : Prop := isNan (value f d) = true → d = f.canon

section
variable {f : Fmt} {d : Nat}

@[simp] theorem isNan_scaled (neg : Bool) (num den : Nat) (e : Int) : isNan (scaled neg num den e) = false := by
  unfold scaled
  split <;> rfl

/-- R82: the NaNs of an IEEE format have the top exponent and a fraction that is not 0. -/
theorem isNan_value (ieee : f.ieee = true) :
    isNan (value f d) = true ↔ d / 2 ^ f.frac % 2 ^ f.exp = 2 ^ f.exp - 1 ∧ d % 2 ^ f.frac ≠ 0 := by
  by_cases top : d / 2 ^ f.frac % 2 ^ f.exp = 2 ^ f.exp - 1
  · by_cases zero : d % 2 ^ f.frac = 0 <;> simp [value, ieee, top, zero, isNan]
  · simp only [value, ieee, top, Bool.true_and, beq_iff_eq, if_false, false_and, iff_false]
    split <;> simp

theorem NaNIsCanon.eq_canon (h : NaNIsCanon f d) (ieee : f.ieee = true) (top : d / 2 ^ f.frac % 2 ^ f.exp = 2 ^ f.exp - 1)
    (fraction : d % 2 ^ f.frac ≠ 0) : d = f.canon := h ((isNan_value ieee).2 ⟨top, fraction⟩)

theorem nanIsCanon_canon : NaNIsCanon f f.canon := fun _ => rfl

theorem nanIsCanon_of_number (number : isNan (value f d) = false) : NaNIsCanon f d := fun nan => by
  rw [number] at nan
  cases nan

variable (ieee : f.ieee = true) (wide : 0 < f.exp)
include ieee wide

theorem succ_maxMag : f.maxMag + 1 = (2 ^ f.exp - 1) * 2 ^ f.frac := by
  have top : 0 < 2 ^ f.exp - 1 := Nat.sub_pos_of_lt (Nat.one_lt_two_pow wide.ne')
  have := Nat.mul_pos top (Nat.two_pow_pos f.frac)
  simp only [Fmt.maxMag, ieee, if_true]
  omega

/-- No magnitude up to the infinity's is a NaN: one with the top exponent is the infinity, whose fraction is 0. -/
theorem isNan_value_withSign {mag : Nat} (small : mag ≤ f.maxMag + 1) (neg : Bool) : isNan (value f (withSign f neg mag)) = false := by
  rw [succ_maxMag ieee wide] at small
  have bound : mag / 2 ^ f.frac ≤ 2 ^ f.exp - 1 := Nat.div_le_of_le_mul (by rwa [Nat.mul_comm])
  have powPos : 0 < 2 ^ f.exp := Nat.two_pow_pos _
  have fields : withSign f neg mag / 2 ^ f.frac % 2 ^ f.exp = mag / 2 ^ f.frac ∧ withSign f neg mag % 2 ^ f.frac = mag % 2 ^ f.frac := by
    have expField : mag / 2 ^ f.frac % 2 ^ f.exp = mag / 2 ^ f.frac := Nat.mod_eq_of_lt (by omega)
    cases neg with
    | false => exact ⟨expField, rfl⟩
    | true =>
      simp only [withSign, if_true, Nat.pow_add]
      refine ⟨?_, Nat.mul_add_mod_self_right _ _ _⟩
      rw [Nat.mul_comm, Nat.mul_add_div (Nat.two_pow_pos _), Nat.add_mod_left, expField]
  rw [Bool.eq_false_iff, Ne, isNan_value ieee, fields.1, fields.2]
  rintro ⟨top, fraction⟩
  have split := Nat.div_add_mod mag (2 ^ f.frac)
  rw [top, Nat.mul_comm] at split
  omega

theorem nanIsCanon_withSign {mag : Nat} (small : mag ≤ f.maxMag + 1) (neg : Bool) : NaNIsCanon f (withSign f neg mag) :=
  nanIsCanon_of_number (isNan_value_withSign ieee wide small neg)

/-! ### The operations (R83, R84, R93, R94) -/

omit ieee wide in
theorem overflowMag_le (rm : Nat) (neg : Bool) : overflowMag f rm neg ≤ f.maxMag + 1 := by
  simp only [overflowMag]
  split <;> omega

/-- Every conversion into an IEEE format: a NaN becomes the canonical one, and every other branch gives a magnitude up to the infinity's. -/
theorem nanIsCanon_cvt (x : Val) (rm r : Nat) : NaNIsCanon f (cvt f x rm r).1 := by
  have number {mag : Nat} (small : mag ≤ f.maxMag + 1) (neg : Bool) := nanIsCanon_withSign ieee wide small neg
  cases x with
  | nan s => simpa [cvt, ieee] using nanIsCanon_canon
  | inf n => simpa [cvt, ieee] using number (Nat.le_refl _) n
  | fin n num den =>
    by_cases zero : num = 0
    · simpa [cvt, zero] using number (Nat.zero_le _) n
    · simp only [cvt, zero, if_false, ieee, if_true]
      split
      · exact number (overflowMag_le rm n) n
      · next fits => exact number (by omega) n

theorem nanIsCanon_add (rm r a b : Nat) : NaNIsCanon f (add f rm r a b).1 := nanIsCanon_cvt ieee wide _ rm r

theorem nanIsCanon_sub (rm r a b : Nat) : NaNIsCanon f (sub f rm r a b).1 := nanIsCanon_cvt ieee wide _ rm r

theorem nanIsCanon_mul (rm r a b : Nat) : NaNIsCanon f (mul f rm r a b).1 := nanIsCanon_cvt ieee wide _ rm r

theorem nanIsCanon_fma (rm r a b c : Nat) : NaNIsCanon f (fma f rm r a b c).1 := nanIsCanon_cvt ieee wide _ rm r

/-- The operations of HADD2, HMUL2 and HFMA2 on one element. -/
theorem nanIsCanon_packed (rm r a b c : Nat) (h : d ∈ [(add f rm r a b).1, (mul f rm r a b).1, (fma f rm r a b c).1]) : NaNIsCanon f d := by
  simp only [List.mem_cons, List.not_mem_nil, or_false] at h
  rcases h with rfl | rfl | rfl
  · exact nanIsCanon_add ieee wide rm r a b
  · exact nanIsCanon_mul ieee wide rm r a b
  · exact nanIsCanon_fma ieee wide rm r a b c

omit ieee wide in
/-- A minimum or maximum is one of its operands that is a number, or the canonical NaN. -/
theorem nanIsCanon_minmax (isMax : Bool) (a b : Nat) : NaNIsCanon f (minmax f isMax a b).1 := by
  cases ha : isNan (value f a) <;> cases hb : isNan (value f b)
  · have chosen : (minmax f isMax a b).1 = a ∨ (minmax f isMax a b).1 = b := by
      simp only [minmax, ha, hb, Bool.false_eq_true, if_false]
      exact ite_eq_or_eq _ a b
    obtain h | h := chosen <;> rw [h]
    · exact nanIsCanon_of_number ha
    · exact nanIsCanon_of_number hb
  · simpa [minmax, ha, hb] using nanIsCanon_of_number ha
  · simpa [minmax, ha, hb] using nanIsCanon_of_number hb
  · simpa [minmax, ha, hb] using nanIsCanon_canon

end

/-- A square root is the operand itself where that is 0 or +∞, the canonical NaN, or a conversion. -/
theorem nanIsCanon_fsqrt (rm r a : Nat) : NaNIsCanon f32 (fsqrt rm r a).1 := by
  cases h : value f32 a with
  | nan s => simpa [fsqrt, h] using nanIsCanon_canon
  | inf n =>
    cases n with
    | true => simpa [fsqrt, h] using nanIsCanon_canon
    | false => simpa [fsqrt, h] using nanIsCanon_of_number (f := f32) (by rw [h]; rfl)
  | fin n num den =>
    by_cases zero : num = 0
    · simpa [fsqrt, h, zero] using nanIsCanon_of_number (f := f32) (by rw [h]; rfl)
    · cases n with
      | true => simpa [fsqrt, h, zero] using nanIsCanon_canon
      | false => simpa [fsqrt, h, zero] using nanIsCanon_cvt rfl (by decide) (sqrtV num den) rm r

/-! ### Special functions (R96, R111, R125, R293) -/

section
variable {s : State} {g : Group} (hs : Selected s g)
include hs

/-- R111: the draw of a group that reads s28 to s31. -/
theorem drawFor_of_selected (rm : BitVec 3) (e l : Nat) : drawFor s rm e l = if rm = 4 then
    (rsDraw (Machine.pair (readS s.draws 3 g 28) (readS s.draws 3 g 29)) (Machine.pair (readS s.draws 3 g 30) (readS s.draws 3 g 31)) e l).toNat
    else 0 := by
  unfold Selected at hs
  simp only [drawFor, aluDraw, hs]

theorem shortSfu_done (gd : BitVec 5) (d : BitVec 6) {a : BitVec 7} (hf : FeedsReady s g [(a, false)]) (f : Nat → Nat × Flags) :
    ∃ t, shortSfu s gd d a f = .next t ∧ SfuDone s t g 1 gd d [(a, false)]
      (fun l => BitVec.ofNat 32 (f (src32 s g tF32 [] a l).toNat).1) fun l => (f (src32 s g tF32 [] a l).toNat).2 :=
  vecSfu_done hs 1 gd d hf _

theorem longSfu_done {o : LOps} (hf : FeedsReady s g [(o.a, false)]) (f : Nat → Nat → Nat × Flags) :
    ∃ t, longSfu s o f = .next t ∧ SfuDone s t g 2 o.g o.d [(o.a, false)]
      (fun l => BitVec.ofNat 32 (f l (opA s g tF32 o l).toNat).1) fun l => (f l (opA s g tF32 o l).toNat).2 :=
  vecSfu_done hs 2 o.g o.d hf _

end

end Sys2Proof.Laws.Formats

namespace Sys2Proof
open Machine Laws.Formats

/-- Settles O16: each result is a conversion, an operand that is a number, or the canonical NaN itself. -/
theorem canonicalNaN : Obligations.CanonicalNaN := by
  refine ⟨?_, ?_, ?_⟩
  · intro rm r x y z _ _ _ d hd
    refine NaNIsCanon.eq_canon (f := Fp.f32) ?_ rfl
    simp only [List.mem_cons, List.not_mem_nil, or_false] at hd
    rcases hd with rfl | rfl | rfl | rfl | rfl | rfl | rfl
    · exact nanIsCanon_add rfl (by decide) rm r x y
    · exact nanIsCanon_sub rfl (by decide) rm r x y
    · exact nanIsCanon_mul rfl (by decide) rm r x y
    · exact nanIsCanon_fma rfl (by decide) rm r x y z
    · exact nanIsCanon_minmax false x y
    · exact nanIsCanon_minmax true x y
    · exact nanIsCanon_fsqrt rm r x
  · exact fun rm r x y z _ _ _ d hd => (nanIsCanon_packed (f := Fp.f16) rfl (by decide) rm r x y z hd).eq_canon rfl
  · exact fun rm r x y z _ _ _ d hd => (nanIsCanon_packed (f := Fp.bf16) rfl (by decide) rm r x y z hd).eq_canon rfl

/-- Settles O19: each instruction is `shortSfu` or `longSfu` of its function, and what these do is said once. -/
theorem specialFunctions : Obligations.SpecialFunctions := by
  intro s g hs
  refine ⟨fun gd d a hf => ?_, fun rm o hf => ?_⟩
  · have run := shortSfu_done hs gd d hf
    exact ⟨run Fp.frcp, run Fp.frsq, run (Fp.fsqrt 0 0), run Fp.fexp2, run Fp.flog2, run Fp.fsin, run Fp.fcos⟩
  · have run := longSfu_done hs hf
    simp only [← drawFor_of_selected hs]
    exact ⟨run fun _ => Fp.frcp, run fun _ => Fp.frsq, run fun l => Fp.fsqrt rm.toNat (drawFor s rm 0 l), run fun _ => Fp.fexp2,
      run fun _ => Fp.flog2, run fun _ => Fp.fsin, run fun _ => Fp.fcos⟩

end Sys2Proof

/-! ## Integers, logic and bits -/

namespace Sys2Proof.Laws.Integers
open Machine

/-! ### Shapes without flags (R109, R116) -/

section
variable {s : State} {g : Group} (hs : Selected s g)
include hs

theorem short1_plain (gd : BitVec 5) (d : BitVec 6) {a : BitVec 7} (hf : FeedsReady s g [(a, false)]) {f r : Word → Word}
    (h : ∀ x, f x = r x) :
    ∃ t, short1 s gd d tInt a (fun x => plain (f x)) = .next t ∧ PlainDone s t g 1 gd d [(a, false)] fun l => r (src32 s g tInt [] a l) := by
  obtain rfl : f = r := funext h
  exact plain_done hs 1 gd d hf fun g l => f (src32 s g tInt [] a l)

theorem short2_plain (gd : BitVec 5) (d : BitVec 6) {a b : BitVec 7} (hf : FeedsReady s g [(a, false), (b, false)]) {f r : Word → Word → Word}
    (h : ∀ x y, f x y = r x y) :
    ∃ t, short2 s gd d tInt a b (fun x y => plain (f x y)) = .next t ∧ PlainDone s t g 1 gd d [(a, false), (b, false)] fun l =>
      r (src32 s g tInt [] a l) (src32 s g tInt [(a, false)] b l) := by
  obtain rfl : f = r := funext₂ h
  exact plain_done hs 1 gd d hf fun g l => f (src32 s g tInt [] a l) (src32 s g tInt [(a, false)] b l)

variable (o : LOps)

theorem long1_plain (hf : FeedsReady s g [(o.a, false)]) {f r : Word → Word} (h : ∀ x, f x = r x) :
    ∃ t, long1 s o tInt (fun _ x => plain (f x)) = .next t ∧ PlainDone s t g 2 o.g o.d [(o.a, false)] fun l => r (opA s g tInt o l) := by
  obtain rfl : f = r := funext h
  exact plain_done hs 2 o.g o.d hf fun g l => f (opA s g tInt o l)

theorem long2_plain (hf : FeedsReady s g [(o.a, false), (o.b, false)]) {f r : Word → Word → Word} (h : ∀ x y, f x y = r x y) :
    ∃ t, long2 s o tInt (fun _ x y => plain (f x y)) = .next t ∧ PlainDone s t g 2 o.g o.d [(o.a, false), (o.b, false)] fun l =>
      r (opA s g tInt o l) (opB s g tInt false o l) := by
  obtain rfl : f = r := funext₂ h
  exact plain_done hs 2 o.g o.d hf fun g l => f (opA s g tInt o l) (opB s g tInt false o l)

theorem long3_plain (ta tc : SrcType) (hf : FeedsReady s g [(o.a, false), (o.b, false), (o.c, false)]) {f r : Word → Word → Word → Word}
    (h : ∀ x y z, f x y z = r x y z) :
    ∃ t, long3 s o ta tc (fun _ x y z => plain (f x y z)) = .next t ∧
      PlainDone s t g 2 o.g o.d [(o.a, false), (o.b, false), (o.c, false)] fun l =>
        r (opA s g ta o l) (opB s g ta false o l) (opC s g tc o l) := by
  obtain rfl : f = r := funext₃ h
  exact plain_done hs 2 o.g o.d hf fun g l => f (opA s g ta o l) (opB s g ta false o l) (opC s g tc o l)

end

/-! ### Integers (R116) -/

theorem ofInt_intOf (T : BitVec 2) (x : Word) : BitVec.ofInt 32 (intOf T x) = x := by
  unfold intOf
  split
  · exact BitVec.ofInt_toInt
  · rw [BitVec.ofInt_natCast, BitVec.ofNat_toNat, BitVec.setWidth_eq]

theorem intMin_ite (T : BitVec 2) (x y : Word) : intMin T x y = if intOf T x ≤ intOf T y then x else y := by
  simp only [intMin, ← not_le, ite_not]

theorem intMax_ite (T : BitVec 2) (x y : Word) : intMax T x y = if intOf T y ≤ intOf T x then x else y := by
  simp only [intMax, ← not_le, ite_not]

theorem intMin_eq (T : BitVec 2) (x y : Word) : intMin T x y = BitVec.ofInt 32 (min (intOf T x) (intOf T y)) := by
  rw [intMin_ite, min_def, apply_ite (BitVec.ofInt 32), ofInt_intOf, ofInt_intOf]

theorem intMax_eq (T : BitVec 2) (x y : Word) : intMax T x y = BitVec.ofInt 32 (max (intOf T x) (intOf T y)) := by
  rw [intMax_ite, max_comm, max_def, apply_ite (BitVec.ofInt 32), ofInt_intOf, ofInt_intOf]

theorem intMax_i32 (x y : Word) : intMax 0 x y = if x.toInt ≤ y.toInt then y else x := by
  rw [intMax_eq, max_def, apply_ite (BitVec.ofInt 32), ofInt_intOf, ofInt_intOf]
  rfl

theorem mulHigh_eq (T : BitVec 2) (x y : Word) : mulHigh T x y = BitVec.ofInt 32 (intOf T x * intOf T y / 2 ^ 32) := by
  rw [mulHigh]
  norm_num

/-- R116: the result fitted to its type, clamped to the type's range under .sat. -/
theorem intResult_eq (T : BitVec 2) (sat : Bool) (e : Int) : intResult T sat e =
    if sat then (if T = 0 then BitVec.ofInt 32 (max (-2 ^ 31) (min (2 ^ 31 - 1) e)) else BitVec.ofInt 32 (max 0 (min (2 ^ 32 - 1) e)))
    else BitVec.ofInt 32 e := by
  cases sat
  · rfl
  · simp only [intResult, if_true]
    split <;> rfl

theorem intAbs_i32 (x : Word) : intResult 0 false x.toInt.natAbs = BitVec.ofInt 32 |x.toInt| := by
  rw [Int.natCast_natAbs]
  rfl

theorem intAbs_sat (sat : Bool) (x : Word) :
    intResult 0 sat x.toInt.natAbs = BitVec.ofInt 32 (if sat then min (2 ^ 31 - 1) |x.toInt| else |x.toInt|) := by
  rw [Int.natCast_natAbs, intResult_eq]
  cases sat
  · rfl
  · have above : (-2 ^ 31 : Int) ≤ min (2 ^ 31 - 1) |x.toInt| := le_min (by norm_num) (le_trans (by norm_num) (abs_nonneg _))
    simp only [if_true, max_eq_right above]

/-! ### Shifts and rotations (R116, R118) -/

theorem sar_eq (w : Nat) (x : BitVec w) (n : Nat) :
    sar w x n = if w ≤ n then (if x.msb then BitVec.allOnes w else 0) else x.sshiftRight n := by
  by_cases h : w ≤ n
  · simp only [sar, Nat.min_eq_right h, if_pos h]
    cases hm : x.msb
    · simp [BitVec.sshiftRight_eq_of_msb_false hm, BitVec.ushiftRight_eq_zero]
    · simp [BitVec.sshiftRight_eq_of_msb_true hm, BitVec.ushiftRight_eq_zero]
  · rw [sar, if_neg h, Nat.min_eq_left (Nat.le_of_not_le h)]

theorem rotl_eq (x : Word) (n : Nat) : rotl x n = x.rotateLeft (n % 32) := by
  rw [BitVec.rotateLeft_mod_eq_rotateLeft, BitVec.rotateLeft_def]
  rfl

/-! ### Bit counts and reversal (R118) -/

theorem popcount_eq (x : Word) : popcount x = BitVec.ofNat 32 ((List.range 32).countP fun i => x.getLsbD i) := by
  rw [popcount, List.countP_eq_length_filter]

/-- The leading zeros stand above the highest set bit. -/
theorem leadingZeros_eq_clz (x : Word) : leadingZeros x = x.clz := by
  by_cases h : x = 0
  · rw [leadingZeros, if_pos h]
    exact (BitVec.clz_eq_iff_eq_zero.2 h).symm
  · have inside : x.clz.toNat < 32 := BitVec.clz_lt_iff_ne_zero.2 h
    have top : x.toNat.log2 = 31 - x.clz.toNat := by
      rw [Nat.log2_eq_iff fun zero => h (BitVec.eq_of_toNat_eq zero), show 31 - x.clz.toNat + 1 = 32 - x.clz.toNat by omega]
      exact ⟨BitVec.two_pow_sub_clz_le_toNat_of_ne_zero (by decide) h, BitVec.toNat_lt_two_pow_sub_clz⟩
    rw [leadingZeros, if_neg h, top, show 31 - (31 - x.clz.toNat) = x.clz.toNat by omega, BitVec.ofNat_toNat, BitVec.setWidth_eq]

theorem foldl_add_ite (p : Nat → Bool) (v : Nat → Nat) (ls : List Nat) (a : Nat) :
    ls.foldl (fun a i => if p i then a + v i else a) a = a + (ls.map fun i => if p i then v i else 0).sum := by
  induction ls generalizing a with
  | nil => simp
  | cons i ls ih => cases h : p i <;> simp [h, ih, Nat.add_assoc]

/-- The bits of a word added up from the top are those of the reversed word added up from the bottom. -/
theorem bitReverse_eq (x : Word) : bitReverse x = x.reverse := by
  have mirror : ((List.range 32).map fun i => 31 - i).Perm (List.range 32) := by decide
  have sums : (List.range 32).foldl (fun a i => if x.getLsbD i then a + 2 ^ (31 - i) else a) 0 =
      (List.range 32).foldl (fun a i => if x.getLsbD (31 - i) then a + 2 ^ i else a) 0 := by
    rw [foldl_add_ite x.getLsbD (fun i => 2 ^ (31 - i)), foldl_add_ite (fun i => x.getLsbD (31 - i)),
      ← (mirror.map fun i => if x.getLsbD (31 - i) then 2 ^ i else 0).sum_eq, List.map_map]
    refine congrArg (0 + List.sum ·) (List.map_congr_left fun i hi => ?_)
    have low : i < 32 := List.mem_range.1 hi
    simp [show 31 - (31 - i) = i by omega]
  refine BitVec.eq_of_getLsbD_eq fun i hi => ?_
  rw [bitReverse, sums, BitVec.getLsbD_ofNat, (testBit_foldl_mask _ i 32).1, BitVec.getLsbD_reverse, BitVec.getMsbD]
  simp [hi]

/-! ### Bit fields (R119) -/

theorem setWidth_ofInt {w v : Nat} (e : Int) : (BitVec.ofInt w e).setWidth v = BitVec.ofInt v (e % (2 ^ w : Nat)) := by
  rw [← BitVec.ofNat_toNat, BitVec.toNat_ofInt, ← BitVec.ofInt_natCast, Int.toNat_of_nonneg (Int.emod_nonneg e (by positivity))]

theorem signExtend_ofInt {w v : Nat} (e : Int) : (BitVec.ofInt w e).signExtend v = BitVec.ofInt v (e.bmod (2 ^ w)) := by
  rw [BitVec.signExtend, BitVec.toInt_ofInt]

theorem bmod_two_pow {w : Nat} (pos : w ≠ 0) (e : Int) : e.bmod (2 ^ w) =
    if (2 ^ (w - 1) : Nat) ≤ e % (2 ^ w : Nat) then e % (2 ^ w : Nat) - (2 ^ w : Nat) else e % (2 ^ w : Nat) := by
  obtain ⟨k, rfl⟩ := Nat.exists_eq_succ_of_ne_zero pos
  have half : (((2 ^ (k + 1) : Nat) : Int) + 1) / 2 = (2 ^ k : Nat) := by rw [pow_succ]; omega
  simp only [Int.bmod_def, Nat.succ_eq_add_one, Nat.add_sub_cancel, half, ← not_le, ite_not]

/-- BFE: the field is the low bits of the source moved down, read as signed or unsigned. -/
theorem bitExtract_eq (sx : Bool) (x spec : Word) : bitExtract sx x spec =
    let w := min (spec.toNat / 256 % 256) 32
    let v : Int := if sx then x.toInt else x.toNat
    let r : BitVec w := BitVec.ofInt w (v / 2 ^ (spec.toNat % 256))
    if sx then r.signExtend 32 else r.setWidth 32 := by
  simp only [bitExtract]
  generalize min (spec.toNat / 256 % 256) 32 = w
  rw [show ((2 : Int) ^ (spec.toNat % 256)) = ((2 ^ (spec.toNat % 256) : Nat) : Int) by norm_cast]
  generalize ((2 ^ (spec.toNat % 256) : Nat) : Int) = p
  cases sx
  · rw [setWidth_ofInt]
    split
    · next empty => subst empty; simp
    · rfl
  · rw [signExtend_ofInt]
    split
    · next empty => subst empty; simp [Int.bmod_one]
    · next pos => simp [bmod_two_pow pos]

/-- BFI: bit by bit, the field from the first operand and the rest from the second. -/
theorem getLsbD_bitInsert (x y spec : Word) (i : Nat) (hi : i < 32) : (bitInsert x y spec).getLsbD i =
    let n := spec.toNat % 256
    let w := min (spec.toNat / 256 % 256) 32
    if n ≤ i ∧ i < n + w then x.getLsbD (i - n) else y.getLsbD i := by
  simp only [bitInsert, BitVec.getLsbD_or, BitVec.getLsbD_and, BitVec.getLsbD_not, BitVec.getLsbD_ofNat, Nat.testBit_mul_two_pow,
    Nat.testBit_two_pow_sub_one, Nat.testBit_mod_two_pow, hi, decide_true, Bool.true_and]
  generalize spec.toNat % 256 = n
  generalize min (spec.toNat / 256 % 256) 32 = w
  by_cases above : n ≤ i
  · have inside : i < n + w ↔ i - n < w := by omega
    by_cases field : i - n < w <;> simp [above, inside, field, BitVec.getLsbD]
  · simp [above]

/-! ### Comparisons (R120) -/

/-- Whether two integers stand in the relation of ICMP's field. -/
def Compares (cmp : Nat) (x y : Int) : Prop :=
  match cmp with
  | 0 => x = y
  | 1 => x ≠ y
  | 2 => x < y
  | 3 => x ≤ y
  | 4 => x > y
  | _ => x ≥ y

theorem intCmp_iff (cmp : Nat) (x y : Int) : intCmp cmp x y = true ↔ Compares cmp x y := by
  rcases cmp with _ | _ | _ | _ | _ | _ <;> exact decide_eq_true_iff

end Sys2Proof.Laws.Integers

namespace Sys2Proof
open Machine Laws.Integers

/-- Settles O11: each instruction has a shape whose effect is said once, and what is left is what its function computes. -/
theorem integerArithmetic : Obligations.IntegerArithmetic := by
  refine ⟨fun s g hs => ⟨fun gd d a b hf => ?short, fun gd d a hf => ?iabs,
    fun T sat o => ⟨fun hf => ?long, fun hf => ?imad, fun hf => ?iabsLong⟩, fun o hf => ⟨?_, ?_, ?_⟩⟩,
    fun s g o hs hf => ⟨?_, ?_, ?sar⟩⟩
  case short =>
    have run := fun {f r} => short2_plain hs gd d hf (f := f) (r := r)
    have direct (f : Word → Word → Word) := run (f := f) fun _ _ => rfl
    exact ⟨direct (· + ·), direct (· - ·), direct (· * ·), (run (intMin_ite 0) :), (run intMax_i32 :)⟩
  case iabs => exact (short1_plain hs gd d hf intAbs_i32 :)
  case long =>
    have run := fun {f r} => long2_plain hs o hf (f := f) (r := r)
    have fitted (op : Int → Int → Int) :=
      run (f := fun x y => intResult T sat (op (intOf T x) (intOf T y))) fun _ _ => intResult_eq T sat _
    exact ⟨fitted (· + ·), fitted (· - ·), fitted (· * ·), (run (mulHigh_eq T) :), (run (intMin_eq T) :), (run (intMax_eq T) :)⟩
  case imad =>
    simp only [← intResult_eq T sat]
    exact plain_done hs 2 o.g o.d hf _
  case iabsLong => exact (long1_plain hs o hf (intAbs_sat sat) :)
  case sar =>
    simp only [← sar_eq]
    exact vec64_done hs 2 o.g o.d hf _
  all_goals exact vec64_done hs 2 o.g o.d hf _

/-- Settles O12: the operations are those of words, and the shifts, counts and the reversal are as R118 says. -/
theorem logicShiftsAndBits : Obligations.LogicShiftsAndBits := by
  intro s g hs
  refine ⟨fun gd d a b hf => ?short2, fun gd d a hf => ?short1, fun o hf => ?long2, fun o hf => ?long1⟩
  case short2 =>
    have run := fun {f r} => short2_plain hs gd d hf (f := f) (r := r)
    have direct (f : Word → Word → Word) := run (f := f) fun _ _ => rfl
    exact ⟨direct (· &&& ·), direct (· ||| ·), direct (· ^^^ ·), direct (· &&& ~~~ ·), direct fun x y => shl 32 x y.toNat,
      direct fun x y => shr 32 x y.toNat, (run fun x y => sar_eq 32 x y.toNat :)⟩
  case short1 =>
    have run := fun {f r} => short1_plain hs gd d hf (f := f) (r := r)
    exact ⟨run (f := (~~~ ·)) fun _ => rfl, (run popcount_eq :), (run leadingZeros_eq_clz :), (run bitReverse_eq :)⟩
  case long2 =>
    have run := fun {f r} => long2_plain hs o hf (f := f) (r := r)
    have direct (f : Word → Word → Word) := run (f := f) fun _ _ => rfl
    exact ⟨direct (· &&& ·), direct (· ||| ·), direct (· ^^^ ·), direct (· &&& ~~~ ·), direct fun x y => shl 32 x y.toNat,
      direct fun x y => shr 32 x y.toNat, (run fun x y => sar_eq 32 x y.toNat :), (run fun x y => rotl_eq x y.toNat :)⟩
  case long1 =>
    have run := fun {f r} => long1_plain hs o hf (f := f) (r := r)
    exact ⟨run (f := (~~~ ·)) fun _ => rfl, (run popcount_eq :), (run leadingZeros_eq_clz :), (run bitReverse_eq :)⟩

/-- Settles O13: BFE by the value of its field, BFI by its bits. -/
theorem bitFields : Obligations.BitFields := by
  intro s g o hs
  refine ⟨fun hf sx => (long2_plain hs o hf (bitExtract_eq sx) :), fun hf r hr => ?_⟩
  have inserted : r = fun l => bitInsert (opA s g tInt o l) (opB s g tInt false o l) (opC s g tInt o l) :=
    funext fun l => BitVec.eq_of_getLsbD_eq fun i hi => (hr l i hi).trans (getLsbD_bitInsert _ _ _ i hi).symm
  subst inserted
  exact plain_done hs 2 o.g o.d hf _

/-- Settles O14: ICMP answers 1 exactly in the lanes whose operands stand in the relation, and the others move bits. -/
theorem compareSelectMove : Obligations.CompareSelectMove := by
  intro s g hs
  refine ⟨fun cmp T o => ?icmp, fun pneg pr o => ⟨fun hf => ?sel, fun hf => ?sel64⟩, fun gd d a hf => ?mov, fun gd d imm => ?movi⟩
  case icmp =>
    intro wide hf holds r hr
    have answer (l : Nat) : icmpLane s g cmp T o l = true ↔ holds l := by
      simp only [icmpLane, holds]
      generalize T.toNat = t
      rcases t with _ | _ | _ | _ <;> exact intCmp_iff _ _ _
    have result : r = fun l => if icmpLane s g cmp T o l then 1 else 0 := by
      funext l
      by_cases h : icmpLane s g cmp T o l = true
      · rw [if_pos h, (hr l).1 ((answer l).1 h)]
      · rw [if_neg h, (hr l).2 fun c => h ((answer l).2 c)]
    subst result
    exact plain_done hs 2 o.g o.d hf _
  case sel => exact plain_done hs 2 o.g o.d hf _
  case sel64 => exact vec64_done hs 2 o.g o.d hf _
  case mov => exact plain_done hs 1 gd d hf _
  case movi => exact plain_done hs 2 gd d (feedsReady_nil s g) _

end Sys2Proof

/-! ## Floating point -/

namespace Sys2Proof.Laws.Floats
open Machine Machine.Fp

/-! ### Comparisons (R84, R124) -/

theorem ltV_asymm {x y : Val} (h : ltV x y = true) : ltV y x = false := by
  cases x with
  | nan s => cases h
  | inf m => cases y <;> simp_all [ltV]
  | fin n1 a1 b1 =>
    cases y with
    | nan s => cases h
    | inf n => simp_all [ltV]
    | fin n2 a2 b2 =>
      cases n1 <;> cases n2 <;> simp only [ltV, Bool.false_eq_true, if_true, if_false, Bool.not_true, Bool.not_false, Bool.true_and,
        Bool.false_and, decide_eq_true_eq, decide_eq_false_iff_not, not_lt] at h ⊢
      · exact h.le
      · exact h.le

section
variable {f : Fmt} {x y : Nat}

theorem compare_uno : (Fp.compare f 7 x y).1 = (isNan (value f x) || isNan (value f y)) := by
  simp only [Fp.compare]
  split <;> simp_all

/-- A NaN among the operands: only ne and uno hold. -/
theorem compare_of_nan (nan : (Fp.compare f 7 x y).1 = true) (cmp : Nat) : (Fp.compare f cmp x y).1 = (cmp == 1 || cmp == 7) := by
  rw [compare_uno] at nan
  simp only [Fp.compare, nan, if_true]

/-- R124: lt, le, gt and ge signal on any NaN. -/
theorem compare_signals (nan : (Fp.compare f 7 x y).1 = true) {cmp : Nat} (low : 2 ≤ cmp) (high : cmp ≤ 5) : (Fp.compare f cmp x y).2 = NV := by
  rw [compare_uno] at nan
  simp only [Fp.compare, nan, low, high, decide_true, Bool.and_self, if_true]

theorem isSig_of_not_isNan {v : Val} (h : isNan v = false) : isSig v = false := by
  cases v with
  | nan s => cases h
  | inf n => rfl
  | fin n a b => rfl

section
variable (number : (Fp.compare f 7 x y).1 = false)
include number

theorem operands_number : isNan (value f x) = false ∧ isNan (value f y) = false := by
  rwa [compare_uno, Bool.or_eq_false_iff] at number

theorem compare_quiet (cmp : Nat) : (Fp.compare f cmp x y).2 = 0 := by
  obtain ⟨hx, hy⟩ := operands_number number
  simp [Fp.compare, hx, hy, sigNV, isSig_of_not_isNan hx, isSig_of_not_isNan hy]

/-- What each comparison answers on numbers. -/
theorem compare_number : (Fp.compare f 0 x y).1 = (!ltV (value f x) (value f y) && !ltV (value f y) (value f x)) ∧
    (Fp.compare f 1 x y).1 = !(Fp.compare f 0 x y).1 ∧ (Fp.compare f 2 x y).1 = ltV (value f x) (value f y) ∧
    (Fp.compare f 3 x y).1 = !ltV (value f y) (value f x) ∧ (Fp.compare f 4 x y).1 = ltV (value f y) (value f x) ∧
    (Fp.compare f 5 x y).1 = !ltV (value f x) (value f y) ∧ (Fp.compare f 6 x y).1 = true := by
  obtain ⟨hx, hy⟩ := operands_number number
  simp [Fp.compare, hx, hy, eqV]

/-- le is lt or eq: no two values are below each other. -/
theorem compare_le_eq : (Fp.compare f 3 x y).1 = ((Fp.compare f 2 x y).1 || (Fp.compare f 0 x y).1) := by
  obtain ⟨eq, -, lt, le, -⟩ := compare_number number
  rw [eq, lt, le]
  cases below : ltV (value f x) (value f y)
  · rfl
  · rw [ltV_asymm below]; rfl

end
end

theorem width_fcmpFmt (T : BitVec 2) : (fcmpFmt T).width = if T = 0 then 32 else 16 := by
  unfold fcmpFmt
  split_ifs <;> rfl

/-! ### Dot products (R129) -/

theorem toInt_elem {w : Nat} (pos : 0 < w) (x : Word) (e : Nat) : Fp.toInt w (elem w x e) = (BitVec.ofNat w (x.toNat / 2 ^ (w * e))).toInt := by
  obtain ⟨k, rfl⟩ := Nat.exists_eq_succ_of_ne_zero pos.ne'
  have half (n : Nat) : 2 * n < 2 ^ (k + 1) ↔ n < 2 ^ k := by rw [pow_succ]; omega
  simp only [Fp.toInt, elem, Nat.mod_mod, BitVec.toInt_eq_toNat_cond, BitVec.toNat_ofNat, Nat.succ_eq_add_one, Nat.add_sub_cancel, half]

theorem dotInt_eq {w : Nat} (pos : 0 < w) (n : Nat) (sat : Bool) (x y c : Word) : dotInt w n sat x y c =
    let e := ((List.range n).map fun e =>
      (BitVec.ofNat w (x.toNat / 2 ^ (w * e))).toInt * (BitVec.ofNat w (y.toNat / 2 ^ (w * e))).toInt).sum + c.toInt
    BitVec.ofInt 32 (if sat then max (-2 ^ 31) (min (2 ^ 31 - 1) e) else e) := by
  rw [dotInt, Integers.intResult_eq, List.sum_eq_foldl, List.foldl_map]
  simp only [toInt_elem pos]
  cases sat <;> rfl

section
variable {T : BitVec 2} (int : T ≠ 0) (s : State) (rm : BitVec 3) (sat : Bool) (o : LOps)
include int

theorem exec_dot4_int : exec (.dot4 T rm sat o) s = long3 s o tI8x4 tInt fun _ x y z => plain (dotInt 8 4 sat x y z) := if_neg int

theorem exec_dot8_int : exec (.dot8 T rm sat o) s = long3 s o tI4x8 tInt fun _ x y z => plain (dotInt 4 8 sat x y z) := if_neg int

end

end Sys2Proof.Laws.Floats

namespace Sys2Proof
open Machine Laws.Floats Laws.Formats

/-- Settles O17: each instruction rounds in every lane of ACTIVE, with the lane's draw where its mode is .rs. -/
theorem floatArithmetic : Obligations.FloatArithmetic := by
  intro s g hs
  refine ⟨fun gd d a b hf => ?short, fun rm o hf => ?long, fun cmp T o hf => ?fcmp⟩
  case short =>
    have run (f : Nat → Nat → Nat × Fp.Flags) := vec32_done hs 1 gd d hf fun g l =>
      fpWord (f (src32 s g tF32 [] a l).toNat (src32 s g tF32 [(a, false)] b l).toNat)
    exact ⟨run (Fp.add Fp.f32 0 0), run (Fp.sub Fp.f32 0 0), run (Fp.mul Fp.f32 0 0), run (Fp.minmax Fp.f32 false), run (Fp.minmax Fp.f32 true)⟩
  case long =>
    have run (f : Nat → Nat → Nat → Nat × Fp.Flags) := vec32_done hs 2 o.g o.d hf fun g l =>
      fpWord (f l (opA s g tF32 o l).toNat (opB s g tF32 false o l).toNat)
    simp only [← drawFor_of_selected hs]
    exact ⟨run fun l => Fp.add Fp.f32 rm.toNat (drawFor s rm 0 l), run fun l => Fp.sub Fp.f32 rm.toNat (drawFor s rm 0 l),
      run fun l => Fp.mul Fp.f32 rm.toNat (drawFor s rm 0 l), run fun _ => Fp.minmax Fp.f32 false, run fun _ => Fp.minmax Fp.f32 true,
      fun hf => vec32_done hs 2 o.g o.d hf _⟩
  case fcmp =>
    simp only [← width_fcmpFmt]
    exact vec32_done hs 2 o.g o.d hf _

/-- Settles O18: the comparisons by what they answer on numbers and on NaNs, each other instruction by its shape. -/
theorem floatComparesAndConversions : Obligations.FloatComparesAndConversions := by
  refine ⟨fun f cmp x y _ _ _ _ => ⟨fun nan => ?unordered, fun nan low high => ?signals, fun number => ?ordered⟩, fun s g hs =>
    ⟨fun gd d a hf => ?fclass, fun gd d a b hf => ?short, fun rm o => ⟨fun hf => ?one, fun hf => ?two, fun hf T sat => ?dots⟩⟩⟩
  case unordered =>
    rw [compare_of_nan nan]
    simp
  case signals =>
    rw [compare_signals nan low high]
    rfl
  case ordered =>
    obtain ⟨-, ne, lt, le, gt, ge, ord⟩ := compare_number number
    refine ⟨ord, ne, compare_le_eq number, ?_, ?_, compare_quiet number cmp⟩
    · rw [gt, le, Bool.not_not]
    · rw [ge, lt]
  case fclass => exact plain_done hs 1 gd d hf _
  case short => exact ⟨vec32_done hs 1 gd d hf _, vec32_done hs 1 gd d hf _⟩
  all_goals simp only [← drawFor_of_selected hs]
  case one => exact ⟨vec32_done hs 2 o.g o.d hf _, vec32_done hs 2 o.g o.d hf _, fun pair => vec32_done hs 2 o.g o.d hf _⟩
  case two =>
    exact ⟨vec32_done hs 2 o.g o.d hf _,
      fun bf => ⟨vec32_done hs 2 o.g o.d hf _, vec32_done hs 2 o.g o.d hf _, fun hf => vec32_done hs 2 o.g o.d hf _⟩⟩
  case dots =>
    refine ⟨fun int => ?_, fun float => ?_⟩
    · simp only [exec_dot4_int int, exec_dot8_int int, ← dotInt_eq (show 0 < 8 by decide), ← dotInt_eq (show 0 < 4 by decide)]
      exact ⟨vec32_done hs 2 o.g o.d hf _, vec32_done hs 2 o.g o.d hf _⟩
    · subst float
      exact ⟨vec32_done hs 2 o.g o.d hf _, vec32_done hs 2 o.g o.d hf _⟩

end Sys2Proof

/-! ## Fences (R183, R318 to R320) -/

namespace Sys2Proof.Laws.Fencing
open Machine

theorem orderOf_eq_getD : ∀ o : BitVec 3, Machine.orderOf o = [Order.rlx, .acq, .rel, .ar, .sc].getD o.toNat .sc := by decide

theorem wideScope_scopeOf : ∀ x : BitVec 3, wideScope (scopeOf x) = decide (2 ≤ x.toNat) := by decide

theorem releases_iff {o : Order} : releases o = true ↔ o = .rel ∨ o = .ar ∨ o = .sc := by
  cases o <;> simp [releases]

theorem acquires_iff {o : Order} : acquires o = true ↔ o = .acq ∨ o = .ar ∨ o = .sc := by
  cases o <;> simp [acquires]

/-- R319: every memory operation older than uid is complete. -/
theorem opsDone_iff {g : Group} {uid : Nat} :
    opsDone g uid = true ↔ ∀ p ∈ g.ops, p.uid < uid ∧ p.kind ≠ none → p.stage = .complete := by
  rw [opsDone, List.all_eq_true]
  refine forall₂_congr fun p _ => ?_
  simp only [Bool.or_eq_true, decide_eq_true_eq, Option.isNone_iff_eq_none, beq_iff_eq, ← Nat.not_lt]
  tauto

/-- R319: the loads older than uid have returned, and its stores have performed. -/
theorem opsPerformed_iff {g : Group} {uid : Nat} : opsPerformed g uid = true ↔ ∀ p ∈ g.ops, p.uid < uid ∧ p.kind ≠ none →
    p.stage ≠ .issued ∧ p.flight = [] ∧ (p.kind.map loads = some true → p.remote = []) := by
  rw [opsPerformed, List.all_eq_true]
  refine forall₂_congr fun p _ => ?_
  cases p.kind with
  | none => simp
  | some k =>
    cases h : loads k <;> simp [h, and_assoc, or_iff_not_imp_left]

theorem passes_iff {s : State} {t : Nat} : passes s t = true ↔ t + 2 ≤ s.clock / 4 := decide_eq_true_iff

/-- What a fence with a release component waits for. -/
theorem releaseMet_fence_iff {s : State} {g : Group} {sc : Scope} {xp : Bool} (h : g.wcb = []) :
    (releaseMet s g sc s.fresh && (!xp || opsDone g s.fresh)) = true ↔
      if wideScope sc then (∀ p ∈ g.ops, p.uid < s.fresh ∧ p.kind ≠ none → p.stage = .complete) ∧ g.chz + 2 ≤ s.clock / 4
      else ∀ p ∈ g.ops, p.uid < s.fresh ∧ p.kind ≠ none →
        p.stage ≠ .issued ∧ p.flight = [] ∧ (p.kind.map loads = some true → p.remote = []) ∧ (xp = true → p.stage = .complete) := by
  have empty : (g.wcb == []) = true := by simp [h]
  rw [releaseMet]
  split_ifs with wide
  · simp only [empty, Bool.and_true, Bool.and_eq_true, Bool.or_eq_true, opsDone_iff, passes_iff]
    exact ⟨fun ⟨done, _⟩ => done, fun done => ⟨done, .inr done.1⟩⟩
  · simp only [empty, Bool.and_true, Bool.and_eq_true, Bool.or_eq_true, opsDone_iff, opsPerformed_iff, Bool.not_eq_true', ← Bool.not_eq_true,
      ← imp_iff_not_or]
    refine ⟨fun ⟨performed, done⟩ p hp old => ?_, fun all => ⟨fun p hp old => ?_, fun hx p hp old => (all p hp old).2.2.2 hx⟩⟩
    · obtain ⟨stage, flight, remote⟩ := performed p hp old
      exact ⟨stage, flight, remote, fun hx => done hx p hp old⟩
    · obtain ⟨stage, flight, remote, -⟩ := all p hp old
      exact ⟨stage, flight, remote⟩

theorem fenceMet_iff {s : State} {g : Group} {o : Order} {sc : Scope} {xp : Bool} (h : g.wcb = []) : fenceMet s g o sc xp = true ↔
    ((o = .rel ∨ o = .ar ∨ o = .sc) →
      if wideScope sc then (∀ p ∈ g.ops, p.uid < s.fresh ∧ p.kind ≠ none → p.stage = .complete) ∧ g.chz + 2 ≤ s.clock / 4
      else ∀ p ∈ g.ops, p.uid < s.fresh ∧ p.kind ≠ none →
        p.stage ≠ .issued ∧ p.flight = [] ∧ (p.kind.map loads = some true → p.remote = []) ∧ (xp = true → p.stage = .complete)) ∧
    ((o = .acq ∨ o = .ar ∨ o = .sc) → readsDone g = true ∧ (xp = true → g.engChz + 2 ≤ s.clock / 4)) := by
  rw [← releaseMet_fence_iff h, ← releases_iff, ← acquires_iff, fenceMet]
  cases releases o <;> cases acquires o <;> cases xp <;> simp [passes_iff]

theorem advance_raiseChz (n c : Nat) (g : Group) : advance n (raiseChz c g) = { advance n g with chz := max g.chz c } := by
  have same : (raiseChz c g).hdr = g.hdr ∧ clauseCount (raiseChz c g) = clauseCount g ∧ (raiseChz c g).idx = g.idx := ⟨rfl, rfl, rfl⟩
  simp only [advance, same]
  split_ifs <;> rfl

theorem afterFence_of_wide_acquire {o : Order} {sc : Scope} (ha : acquires o = true) (hw : wideScope sc = true) (g : Group) :
    afterFence o sc g = raiseChz g.readC g := by simp [afterFence, ha, hw]

theorem afterFence_of_not {o : Order} {sc : Scope} (h : ¬ (acquires o = true ∧ wideScope sc = true)) (g : Group) :
    afterFence o sc g = g := if_neg (by simpa using h)

/-- With nothing in the write-combining buffer a FENCE goes on or waits, by whether its ordering holds (R183). -/
theorem execFence_eq {s : State} {g : Group} (hs : Selected s g) (h : g.wcb = []) (gd : BitVec 5) (order scope : BitVec 3) (xp : Bool) :
    exec (.fence gd order scope xp) s = .next (
      if fenceMet s g (Machine.orderOf order) (scopeOf scope) xp then
        s.putGroup s.cur { advance 1 (afterFence (Machine.orderOf order) (scopeOf scope) g) with wait := .none }
      else s.putGroup s.cur { g with wait := .fence (Machine.orderOf order) (scopeOf scope) xp }) := by
  have drained : (if releases (Machine.orderOf order) then drainWcb s s.cur else s) = s := by rw [drainWcb_of_nil hs h, ite_self]
  have selected : tblGet s.groups s.cur = some g := hs
  refine (onGroup_of_some hs _).trans (congrArg _ ?_)
  rw [drained, tryFence, selected]

end Sys2Proof.Laws.Fencing

namespace Sys2Proof
open Machine Laws.Fencing

/-- Settles O31: the fence's condition, part by part, and what going on changes. -/
theorem fences : Obligations.Fences := by
  intro s g gd order scope xp hs hw o rel acq wide older released holds
  have order_ : Machine.orderOf order = o := orderOf_eq_getD order
  have wide_ : wideScope (scopeOf scope) = true ↔ wide := by rw [wideScope_scopeOf, decide_eq_true_eq]
  have met : fenceMet s g (Machine.orderOf order) (scopeOf scope) xp = true ↔ holds := by
    rw [fenceMet_iff hw, order_, if_congr wide_ rfl rfl]
  have acq_ : acquires (Machine.orderOf order) = true ∧ wideScope (scopeOf scope) = true ↔ acq ∧ wide := by
    rw [acquires_iff, order_, wide_]
  rw [execFence_eq hs hw]
  refine ⟨fun h => ?goes, fun h => ?waits⟩
  case goes =>
    refine ⟨_, by rw [if_pos (met.2 h)], ?_⟩
    by_cases raises : acq ∧ wide
    · obtain ⟨ha, hwide⟩ := acq_.2 raises
      rw [afterFence_of_wide_acquire ha hwide, advance_raiseChz]
      exact ⟨rfl, fun _ => rfl, fun no => absurd raises no⟩
    · rw [afterFence_of_not (acq_.not.2 raises)]
      have chz : (advance 1 g).chz = g.chz := by simp
      exact ⟨rfl, fun yes => absurd yes raises, fun _ => chz⟩
  case waits => exact ⟨_, by rw [if_neg (met.not.2 h)], by simp⟩

end Sys2Proof

/-! ## Transactions (R188 to R192) -/

namespace Sys2Proof.Laws.Transacting
open Machine

/-- R191: the group after an abort. Its transaction is over, EXEC restored, the code in its register, and it stands at the recorded
header. -/
theorem abortTx_of_some {g : Group} {t : Tx} (h : g.tx = some t) (cause detail : Nat) : abortTx cause detail g =
    goto (writeS { dropTx g with exec := t.savedExec, wait := .none } t.dst (abortCode t cause detail)) t.resume := by
  simp only [abortTx, h]

/-- R191: the stores of an aborted transaction are complete, and none of their lanes is left. -/
theorem dropTx_stores {g : Group} {t : Tx} (h : g.tx = some t) {o : Op} (ho : o ∈ (dropTx g).ops) (hu : o.uid ∈ t.stores) :
    o.stage = .complete ∧ o.lanes = [] := by
  simp only [dropTx, h, List.mem_map] at ho
  obtain ⟨p, -, rfl⟩ := ho
  have uid : (if t.stores.contains p.uid || (p.stage == .issued && p.kind.isSome) then { p with stage := .complete, lanes := [] } else p).uid =
      p.uid := by split_ifs <;> rfl
  rw [uid] at hu
  simp [hu]

/-- What an aborted group keeps of what it held, and what it has lost (R190, R191). -/
structure Aborted (g g' : Group) (t : Tx) (code : Word) : Prop where
  tx : g'.tx = none
  exec : g'.exec = t.savedExec
  place : g'.pc = t.resume ∧ g'.hdr = none ∧ g'.idx = 0
  kept : g'.v = g.v ∧ g'.p = g.p ∧ g'.q = g.q
  code : UniformTakes g g' fun k => if k = t.dst then some code else none
  stores : ∀ o ∈ g'.ops, o.uid ∈ t.stores → o.stage = .complete ∧ o.lanes = []

theorem aborted_abortTx {g : Group} {t : Tx} (h : g.tx = some t) (cause detail : Nat) :
    Aborted g (abortTx cause detail g) t (abortCode t cause detail) := by
  have drop := dropTx_frame g
  have stores : ∀ o ∈ (dropTx g).ops, o.uid ∈ t.stores → o.stage = .complete ∧ o.lanes = [] := fun o => dropTx_stores h
  rw [abortTx_of_some h]
  generalize (dropTx g).ops = ops at drop stores
  rw [drop, goto, writeS_frame]
  exact ⟨rfl, rfl, ⟨rfl, rfl, rfl⟩, ⟨rfl, rfl, rfl⟩,
    uniformTakes_writeS { g with tx := none, ops := ops, exec := t.savedExec, wait := .none } t.dst (abortCode t cause detail), stores⟩

theorem txLoadsDone_iff {g : Group} {t : Tx} :
    txLoadsDone g t = true ↔ ∀ o ∈ g.ops, o.kind ≠ none → o.uid ∉ t.stores → o.stage = .complete := by
  rw [txLoadsDone, List.all_eq_true]
  refine forall₂_congr fun o _ => ?_
  simp only [Bool.or_eq_true, Option.isNone_iff_eq_none, beq_iff_eq, List.contains_iff_mem]
  tauto

/-- R189: TXEND outside a transaction has no effect. -/
theorem execTxend_of_none {s : State} {g : Group} (hs : Selected s g) (h : g.tx = none) :
    exec .txend s = .next (s.putGroup s.cur { advance 1 g with wait := .none }) := by
  have selected : tblGet s.groups s.cur = some g := hs
  refine (onGroup_of_some hs _).trans (congrArg _ ?_)
  simp only [tryTxend, selected, h]

/-- R192: TXEND commits once the transaction's loads are complete. -/
theorem execTxend_commits {s : State} {g : Group} {t : Tx} (hs : Selected s g) (h : g.tx = some t) (unordered : orderedMode s g = false)
    (loads : txLoadsDone g t = true) :
    exec .txend s = .next ((commitTx s s.cur g t).upGroup s.cur fun g => { advance 1 g with wait := .none }) := by
  have selected : tblGet s.groups s.cur = some g := hs
  refine (onGroup_of_some hs _).trans (congrArg _ ?_)
  simp only [tryTxend, selected, h, unordered, loads, Bool.false_and, Bool.not_true, Bool.false_eq_true, if_false]

theorem execTxabort_eq {s : State} {g : Group} (hs : Selected s g) (c : BitVec 8) :
    exec (.txabort c) s = .next (s.putGroup s.cur (if g.tx.isSome then abortTx 5 c.toNat g else advance 1 g)) :=
  onGroup_of_some hs _

end Sys2Proof.Laws.Transacting

namespace Sys2Proof
open Machine Laws.Transacting

/-- Settles O32: TXBEGIN as it is, TXEND and TXABORT by whether the group is in a transaction. -/
theorem transactions : Obligations.Transactions := by
  intro s g hs
  refine ⟨fun d => onGroup_of_some hs _, fun none_ => ⟨?_, fun c => ?_⟩, fun t some_ => ⟨fun c => ?_, fun unordered complete => ?_⟩⟩
  · exact execTxend_of_none hs none_
  · rw [execTxabort_eq hs, none_]; rfl
  · obtain ⟨tx, exec, ⟨pc, hdr, idx⟩, ⟨v, p, q⟩, code, stores⟩ := aborted_abortTx some_ 5 c.toNat
    exact ⟨_, by rw [execTxabort_eq hs, some_]; rfl, tx, exec, pc, hdr, idx, v, p, q, code, stores⟩
  · exact execTxend_commits hs some_ unordered (txLoadsDone_iff.2 complete)

end Sys2Proof

/-! ## Waits for counters and for a word (R164, R260, R269) -/

namespace Sys2Proof.Laws.Waiting
open Machine

theorem condsMet_iff {g : Group} {cs : List (Nat × Nat)} : condsMet g cs = true ↔ ∀ c ∈ cs, counter g c.1 ≤ c.2 := by
  simp [condsMet]

theorem pendingErr_eq_none {g : Group} {ids : List Nat} (h : ∀ c ∈ ids, ¬ ∃ r e, tblGet g.repErr c = some r ∧ r.cause = some e) :
    pendingErr g ids = none := by
  rw [pendingErr, List.find?_eq_none]
  intro c _ pends
  simp only [Bool.and_eq_true, List.contains_iff_mem, Option.isSome_iff_exists, Option.bind_eq_some_iff] at pends
  obtain ⟨named, e, r, hr, he⟩ := pends
  exact h c named ⟨r, e, hr, he⟩

section
variable {s : State} {g : Group} (hs : Selected s g) {cs : List (Nat × Nat)}
include hs

theorem tryWaitc_of_unmet (h : ¬ ∀ c ∈ cs, counter g c.1 ≤ c.2) : tryWaitc s s.cur cs = s.putGroup s.cur { g with wait := .waitc cs } := by
  have selected : tblGet s.groups s.cur = some g := hs
  simp only [tryWaitc, selected, if_neg (condsMet_iff.not.2 h)]

theorem tryWaitc_of_none (h : ∀ c ∈ cs, counter g c.1 ≤ c.2) (quiet : pendingErr g (cs.map (·.1)) = none) :
    tryWaitc s s.cur cs = s.putGroup s.cur { advance 1 g with wait := .none } := by
  have selected : tblGet s.groups s.cur = some g := hs
  simp only [tryWaitc, selected, if_pos (condsMet_iff.2 h), quiet]

theorem tryWaitc_of_some (h : ∀ c ∈ cs, counter g c.1 ≤ c.2) {c : Nat} (pends : pendingErr g (cs.map (·.1)) = some c) :
    tryWaitc s s.cur cs = raiseReported s s.cur c := by
  have selected : tblGet s.groups s.cur = some g := hs
  simp only [tryWaitc, selected, if_pos (condsMet_iff.2 h), pends]

end

/-! ### The watched word (R269) -/

theorem homePlace_of_ge {s : State} {w : Who} {a : Nat} {isWrite : Bool} (h : 0xFC000000000000 ≤ a) :
    homePlace s w a isWrite = (s, .forbidden) := by
  have outside : inGlobal a = false := decide_eq_false (by omega)
  simp [homePlace, outside]

theorem homePlace_of_mem {s u : State} {w : Who} {a loc : Nat} {isWrite : Bool} {p : Phys} (h : a < 0xFC000000000000)
    (translated : engTranslate s w a isWrite = (u, .ok p)) (target : p.target = .mem loc) (attr : p.attr ≤ 1) :
    homePlace s w a isWrite = (u, .loc loc) := by
  have inside : inGlobal a = true := decide_eq_true (by omega)
  simp [homePlace, inside, translated, target, Nat.not_lt.2 attr]

section
variable {s : State} {g : Group} (hs : Selected s g) {d : Nat} {a cmp : Word64} {deadline : Nat}
include hs

theorem tryWaita_of_ge (h : 0xFC000000000000 ≤ a.toNat) :
    tryWaita s s.cur d a cmp deadline = trapAt s s.cur 0x10 (laddr (uniLane g) a) := by
  have selected : tblGet s.groups s.cur = some g := hs
  simp only [tryWaita, selected, homePlace_of_ge h, windowTrap, BitVec.ofNat_toNat, BitVec.setWidth_eq]

section
variable {u : State} {loc : Nat} (place : homePlace s (groupWho s s.cur g) a.toNat false = (u, .loc loc))
include place

theorem tryWaita_of_misaligned (h : a.toNat % 8 ≠ 0) :
    tryWaita s s.cur d a cmp deadline = trapAt u s.cur 0x12 (laddr (uniLane g) a) := by
  have selected : tblGet s.groups s.cur = some g := hs
  simp only [tryWaita, selected, place, if_pos h]

/-- An aligned word at a home that reads without an error: the group waits at the compare value before its deadline, else the wait ends. -/
theorem tryWaita_of_aligned (h : a.toNat % 8 = 0) {got : State × Got}
    (read : got = loadAt (sendWcb u s.cur (lineOf loc)) (some s.cur) loc 8) (good : got.2.bad = false) :
    tryWaita s s.cur d a cmp deadline =
      if BitVec.ofNat 64 (leNat got.2.bytes) = cmp ∧ ticks s < deadline then
        got.1.upGroup s.cur fun g => { g with wait := .waita d a cmp deadline got.2.ctime }
      else endWaita got.1 s.cur d (BitVec.ofNat 64 (leNat got.2.bytes)) got.2.ctime := by
  have selected : tblGet s.groups s.cur = some g := hs
  simp only [tryWaita, selected, place, if_neg (not_not.2 h), ← read, good, Bool.false_eq_true, if_false]

end
end

/-- WAITA of a group that captured no operands and has nothing in flight. -/
theorem execWaita_eq {s : State} {g : Group} (hs : Selected s g) (fresh : g.captured = none) (still : flying g = false) (d : BitVec 6)
    (a r : BitVec 7) : exec (.waita d a r) s =
      .next (tryWaita s s.cur d.toNat (usrc64 s g 0 a) (usrc64 s g 2 r) (usrc64 s g 4 (r + 2)).toNat) := by
  refine (onGroup_of_some hs _).trans (congrArg _ ?_)
  simp only [operands, fresh, still, Bool.false_eq_true, if_false]
  rfl

end Sys2Proof.Laws.Waiting

namespace Sys2Proof
open Machine Laws.Dispatching Laws.Waiting

/-- Settles O41: WAITC by its conditions and the errors that pend, WAITA by where its address leads. -/
theorem counterAndAddressWaits : Obligations.CounterAndAddressWaits := by
  refine ⟨fun s g id1 id2 t1 t2 hs => ?waitc, fun s g d a r hs fresh still => ?waita⟩
  case waitc =>
    intro named met pends
    have run : exec (.waitc id1 t1 id2 t2) s = .next (tryWaitc s s.cur named) := onGroup_of_some hs _
    refine ⟨fun unmet => ?_, fun hm quiet => ?_, fun hm c hc hp lowest => ?_⟩
    · rw [run, tryWaitc_of_unmet hs unmet]
    · rw [run, tryWaitc_of_none hs hm (pendingErr_eq_none fun x hx => ?_)]
      obtain ⟨c, hc, rfl⟩ := List.mem_map.1 hx
      exact quiet c hc
    · have small : c.1 < 8 := by
        have among := List.mem_of_mem_filter hc
        rcases List.mem_pair.1 among with rfl | rfl
        exacts [id1.isLt, id2.isLt]
      rw [run, tryWaitc_of_some hs hm (pendingErr_eq_some small (List.mem_map_of_mem hc) hp fun x hx => ?_)]
      obtain ⟨c', hc', rfl⟩ := List.mem_map.1 hx
      exact lowest c' hc'
  case waita =>
    intro x lane deadline
    rw [execWaita_eq hs fresh still]
    refine ⟨fun outside => by rw [tryWaita_of_ge hs outside]; rfl, fun inside u p loc translated target attr => ?_⟩
    have place := homePlace_of_mem inside translated target attr
    refine ⟨fun odd => by rw [tryWaita_of_misaligned hs place odd]; rfl, fun aligned => ?_⟩
    intro got good v
    rw [tryWaita_of_aligned hs place aligned rfl good]
    rfl

end Sys2Proof

/-! ## Stash binding (R185 to R187) -/

namespace Sys2Proof.Laws.Binding
open Machine

/-- A range that SBIND takes: n bytes, whole lines, inside the stash from so on and in the global window from ga on (R185). -/
def Bindable (s : State) (team so ga n : Nat) : Prop :=
  so % 128 = 0 ∧ ga % 128 = 0 ∧ n % 128 = 0 ∧ n ≠ 0 ∧ so + n ≤ stashSize s team ∧ ga + n ≤ 0xFC000000000000

/-- No other slot of the team binds a byte of the range (R185). -/
def Apart (s : State) (team slot so ga n : Nat) : Prop :=
  ∀ e ∈ ((tblGet s.teams team).map (·.binds)).getD [], e.1 ≠ slot →
    ¬ (so < e.2.soff + e.2.len ∧ e.2.soff < so + n) ∧ ¬ (ga < e.2.gaddr.toNat + e.2.len ∧ e.2.gaddr.toNat < ga + n)

section
variable {s : State} {g : Group} {slot ga so n : Nat}

theorem bindable_iff : Bindable s g.team so ga n ↔
    ¬ (so % 128 ≠ 0 ∨ ga % 128 ≠ 0 ∨ n % 128 ≠ 0 ∨ n = 0 ∨ stashSize s g.team < so + n ∨ 0xFC * 2 ^ 48 < ga + n) := by
  rw [Bindable]
  omega

theorem apart_iff : Apart s g.team slot so ga n ↔
    ((((tblGet s.teams g.team).map (·.binds)).getD []).filter fun e => e.1 != slot).any (fun e =>
      overlaps so n e.2.soff e.2.len || overlaps ga n e.2.gaddr.toNat e.2.len) = false := by
  simp only [Apart, List.any_eq_false, List.mem_filter, bne_iff_ne, overlaps, Bool.or_eq_true, Bool.and_eq_true, decide_eq_true_eq, not_or,
    and_imp]

theorem sbindTrap_of_not_bindable (h : ¬ Bindable s g.team so ga n) : sbindTrap s g slot ga so n =
    some { code := 0x10, info := laddr ((lowestLane g.width g.exec).getD 0) (BitVec.ofNat 64 ga) } :=
  if_pos (not_not.1 (bindable_iff.not.1 h))

theorem sbindTrap_of_overlap (h : Bindable s g.team so ga n) (clash : ¬ Apart s g.team slot so ga n) :
    sbindTrap s g slot ga so n = some { code := 0x14, info := small slot } :=
  (if_neg (bindable_iff.1 h)).trans (if_pos (by simpa only [Bool.not_eq_false] using apart_iff.not.1 clash))

theorem sbindTrap_eq_none (h : Bindable s g.team so ga n) (apart : Apart s g.team slot so ga n) : sbindTrap s g slot ga so n = none :=
  (if_neg (bindable_iff.1 h)).trans (if_neg (by simpa only [Bool.not_eq_true] using apart_iff.1 apart))

end

section
variable {s : State} {g : Group} (hs : Selected s g)
include hs

section
variable (fresh : g.captured = none) {slot : BitVec 3} {gaddr soff len : BitVec 7} {ga so n : Nat} (hga : (usrc64 s g 0 gaddr).toNat = ga)
  (hso : (usrc s g tInt 2 soff).toNat = so) (hn : (usrc s g tInt 3 len).toNat = n)
include fresh hga hso hn

/-- R185: SBIND's own causes. -/
theorem execSbind_traps {c : Cause} (trap : sbindTrap s g slot.toNat ga so n = some c) :
    exec (.sbind slot gaddr soff len) s = .next (trapAt s s.cur c.code c.info) := by
  refine (onGroup_of_some hs _).trans (congrArg _ ?_)
  simp only [operands, fresh, Option.getD_none, List.getD_cons_zero, List.getD_cons_succ, BitVec.toNat_setWidth_of_le (show 32 ≤ 64 by decide),
    hga, hso, hn, trap]

/-- R185, R186: SBIND writes back what the slot held and binds the range to it. -/
theorem execSbind_binds (still : flying g = false) (free : sbindTrap s g slot.toNat ga so n = none) {u : State} {lines : List Nat}
    (found : bindLines s (groupWho s s.cur g) ((lowestLane g.width g.exec).getD 0) ga (n / 128) = (u, .ok lines)) :
    exec (.sbind slot gaddr soff len) s = .next (afterWriteBack
      ((writeBackSlot u g.team slot.toNat true).1.upTeam g.team fun t =>
        { t with binds := tblSet t.binds slot.toNat { gaddr := BitVec.ofNat 64 ga, soff := so, len := n, lines := lines } })
      s.cur (writeBackSlot u g.team slot.toNat true).2) := by
  refine (onGroup_of_some hs _).trans (congrArg _ ?_)
  simp only [operands, fresh, Option.getD_none, List.getD_cons_zero, List.getD_cons_succ, BitVec.toNat_setWidth_of_le (show 32 ≤ 64 by decide),
    hga, hso, hn, free, still, found, Bool.false_eq_true, if_false]

end

/-- R187: SUNBIND and SFLUSH write the slot's lines back. -/
theorem execSunbind_eq (still : flying g = false) (slot : BitVec 3) : exec (.sunbind slot) s =
    .next (afterWriteBack (writeBackSlot s g.team slot.toNat true).1 s.cur (writeBackSlot s g.team slot.toNat true).2) := by
  refine (onGroup_of_some hs _).trans (congrArg _ ?_)
  rw [still]; rfl

theorem execSflush_eq (still : flying g = false) (slot : BitVec 3) : exec (.sflush slot) s =
    .next (afterWriteBack (writeBackSlot s g.team slot.toNat false).1 s.cur (writeBackSlot s g.team slot.toNat false).2) := by
  refine (onGroup_of_some hs _).trans (congrArg _ ?_)
  rw [still]; rfl

end

end Sys2Proof.Laws.Binding

namespace Sys2Proof
open Machine Laws.Binding

/-- Settles O33: SBIND by the cause that its range gives, and each write-back with the CHZ that follows it. -/
theorem stashBinding : Obligations.StashBinding := by
  intro s g slot hs fresh still after
  have written (u : State) (c : Nat) (cur : u.cur = s.cur) : afterWriteBack u s.cur c = after u c := by rw [← cur]; rfl
  refine ⟨?sbind, ?sunbind, ?sflush⟩
  case sbind =>
    intro gaddr soff len ga so n lane legal clear
    refine ⟨fun bad => ?_, fun good clash => ?_, fun good apart u lines found cur => ?_⟩
    · rw [execSbind_traps hs fresh rfl rfl rfl (sbindTrap_of_not_bindable bad)]
    · rw [execSbind_traps hs fresh rfl rfl rfl (sbindTrap_of_overlap good clash)]
    · intro w wcur
      rw [execSbind_binds hs fresh rfl rfl rfl still (sbindTrap_eq_none good apart) found, written _ _ (by simpa using wcur)]
  case sunbind =>
    intro w wcur
    rw [execSunbind_eq hs still, written _ _ wcur]
  case sflush =>
    intro w wcur
    rw [execSflush_eq hs still, written _ _ wcur]

end Sys2Proof

/-! ## The memory traps of a load (R148 to R150, R161, R272, R277) -/

namespace Sys2Proof.Laws.LaneTraps
open Machine

/-! ### The lowest cause -/

/-- A cause comes before another: it has the lower code, or of equal codes the lower lane (R277). -/
def Before (x y : LaneFault) : Prop := x.code < y.code ∨ (x.code = y.code ∧ x.lane < y.lane)

/-- Of two causes the one that comes before, the earlier found where neither does. -/
def keepFirst : Option LaneFault → LaneFault → Option LaneFault
  | none, f => some f
  | some x, f => if f.code < x.code ∨ (f.code = x.code ∧ f.lane < x.lane) then some f else some x

theorem lowestFault_eq_foldl (fs : List LaneFault) :
    lowestFault fs = (fs.foldl keepFirst none).map fun f => { code := f.code, info := laddr f.lane f.addr } := by
  unfold lowestFault
  congr 1
  exact List.foldl_ext _ _ _ fun m f _ => by cases m <;> rfl

theorem keepFirst_of_not_before {x f : LaneFault} (h : ¬ Before f x) : keepFirst (some x) f = some x := if_neg h

theorem keepFirst_of_before {x f : LaneFault} (h : Before f x) : keepFirst (some x) f = some f := if_pos h

theorem not_before_of_first {f x : LaneFault} (h : x = f ∨ Before f x) : ¬ Before x f := by
  rcases h with rfl | h
  · simp [Before]
  · unfold Before at h ⊢
    omega

theorem foldl_keepFirst_self {f : LaneFault} : ∀ {xs : List LaneFault}, (∀ x ∈ xs, x = f ∨ Before f x) → xs.foldl keepFirst (some f) = some f
  | [], _ => rfl
  | x :: xs, h => by
    rw [List.foldl_cons, keepFirst_of_not_before (not_before_of_first (h x (by simp)))]
    exact foldl_keepFirst_self fun y hy => h y (List.mem_cons_of_mem x hy)

theorem foldl_keepFirst_of_mem {f : LaneFault} : ∀ {xs : List LaneFault} {m : Option LaneFault}, (∀ x ∈ xs, x = f ∨ Before f x) → f ∈ xs →
    (∀ y, m = some y → Before f y) → xs.foldl keepFirst m = some f
  | x :: xs, m, h, hf, hm => by
    have rest : ∀ y ∈ xs, y = f ∨ Before f y := fun y hy => h y (List.mem_cons_of_mem x hy)
    rw [List.foldl_cons]
    by_cases same : x = f
    · have taken : keepFirst m x = some f := by
        subst same
        cases m with
        | none => rfl
        | some y => exact keepFirst_of_before (hm y rfl)
      rw [taken, foldl_keepFirst_self rest]
    · have first := (h x (by simp)).resolve_left same
      refine foldl_keepFirst_of_mem rest ((List.mem_cons.1 hf).resolve_left (Ne.symm same)) fun y hy => ?_
      cases m with
      | none => cases hy; exact first
      | some z =>
        by_cases earlier : Before x z
        · rw [keepFirst_of_before earlier] at hy
          cases hy; exact first
        · rw [keepFirst_of_not_before earlier] at hy
          exact hm y hy

/-- The cause that an instruction raises is the one before which none of its lanes' comes (R277). -/
theorem lowestFault_eq_some {fs : List LaneFault} {f : LaneFault} (hf : f ∈ fs) (first : ∀ x ∈ fs, x = f ∨ Before f x) :
    lowestFault fs = some { code := f.code, info := laddr f.lane f.addr } := by
  rw [lowestFault_eq_foldl, foldl_keepFirst_of_mem first hf (by simp)]
  rfl

/-! ### The cause in one lane -/

/-- A generic address stands in no window (R148). -/
def outside (n : Nat) : Bool := 0xFC000000000000 ≤ n && !(n / 2 ^ 24 == 0xFE000000) && !(n / 2 ^ 28 == 0xFD00000)

/-- It stands in a stash's window and outside the stash, or names no member of the cluster (R149). -/
def beyond (s : State) (team size n : Nat) : Bool :=
  0xFC000000000000 ≤ n && (stashSize s team < n % 2 ^ 24 + size || (n / 2 ^ 28 == 0xFD00000 && clusterSize s team ≤ n / 2 ^ 24 % 16))

/-- The code of the cause that an access of some bytes finds at a generic address, 0 for none (R148 to R150). -/
def accessCode (s : State) (team size n : Nat) : Nat :=
  if outside n then 0x10 else if beyond s team size n then 0x11 else if n % size ≠ 0 then 0x12 else 0

section
variable {a : Word64}

theorem outside_of_lt (h : a.toNat < 0xFC000000000000) : outside a.toNat = false := by
  simp [outside, Nat.not_le.2 h]

theorem beyond_of_lt (s : State) (team size : Nat) (h : a.toNat < 0xFC000000000000) : beyond s team size a.toNat = false := by
  simp [beyond, Nat.not_le.2 h]

/-- R148: the three windows of a generic address, and what lies outside them. -/
theorem genericWindow_cases (a : Word64) :
    (a.toNat < 0xFC000000000000 ∧ genericWindow a = some (.global a.toNat)) ∨
    (a.toNat / 2 ^ 24 = 0xFE000000 ∧ genericWindow a = some (.stash none (a.toNat % 2 ^ 24))) ∨
    (a.toNat / 2 ^ 28 = 0xFD00000 ∧ genericWindow a = some (.stash (some (a.toNat / 2 ^ 24 % 16)) (a.toNat % 2 ^ 24))) ∨
    (outside a.toNat = true ∧ genericWindow a = none) := by
  unfold genericWindow outside
  simp only [Bool.and_eq_true, decide_eq_true_eq, Bool.not_eq_true', beq_eq_false_iff_ne]
  split_ifs with global own member
  · exact .inl ⟨by omega, rfl⟩
  · exact .inr (.inl ⟨by omega, rfl⟩)
  · exact .inr (.inr (.inl ⟨by omega, rfl⟩))
  · exact .inr (.inr (.inr ⟨by omega, rfl⟩))

theorem outside_of_own (h : a.toNat / 2 ^ 24 = 0xFE000000) : outside a.toNat = false := by
  simp only [outside, h, beq_self_eq_true, Bool.not_true, Bool.and_false, Bool.false_and]

theorem beyond_of_own (s : State) (team size : Nat) (h : a.toNat / 2 ^ 24 = 0xFE000000) :
    beyond s team size a.toNat = decide (stashSize s team < a.toNat % 2 ^ 24 + size) := by
  have high : decide (0xFC000000000000 ≤ a.toNat) = true := decide_eq_true (by omega)
  have notMember : (a.toNat / 2 ^ 28 == 0xFD00000) = false := beq_eq_false_iff_ne.2 (by omega)
  rw [beyond, high, notMember, Bool.false_and, Bool.or_false, Bool.true_and]

theorem outside_of_member (h : a.toNat / 2 ^ 28 = 0xFD00000) : outside a.toNat = false := by
  simp only [outside, h, beq_self_eq_true, Bool.not_true, Bool.and_false]

theorem beyond_of_member (s : State) (team size : Nat) (h : a.toNat / 2 ^ 28 = 0xFD00000) : beyond s team size a.toNat =
    (decide (stashSize s team < a.toNat % 2 ^ 24 + size) || decide (clusterSize s team ≤ a.toNat / 2 ^ 24 % 16)) := by
  have high : decide (0xFC000000000000 ≤ a.toNat) = true := decide_eq_true (by omega)
  rw [beyond, high, h, beq_self_eq_true, Bool.true_and, Bool.true_and]

/-- A lane's list of causes: none for the code 0, else the one with the code. -/
def laneFaults (code l : Nat) (a : Word64) : List LaneFault := if code = 0 then [] else [{ code := code, lane := l, addr := a }]

theorem laneFaults_limits (past : Bool) (n size l : Nat) (a : Word64) :
    laneFaults (if past then 0x11 else if n % size ≠ 0 then 0x12 else 0) l a =
      if past then [{ code := 0x11, lane := l, addr := a }] else if n % size ≠ 0 then [{ code := 0x12, lane := l, addr := a }] else [] := by
  unfold laneFaults
  split_ifs <;> simp_all

/-- An access of a size that divides the stash's window has in each lane the cause of its address, or none. -/
theorem checkWindow_generic {s : State} {g : Group} {size : Nat} (hd : size ∣ 2 ^ 24) (l : Nat) :
    checkWindow s g size l a (genericWindow a) true true = laneFaults (accessCode s g.team size a.toNat) l a := by
  have low : a.toNat % 2 ^ 24 % size = a.toNat % size := Nat.mod_mod_of_dvd _ hd
  rcases genericWindow_cases a with ⟨h, window⟩ | ⟨h, window⟩ | ⟨h, window⟩ | ⟨h, window⟩
  · rw [accessCode, outside_of_lt h, beyond_of_lt s g.team size h, if_neg Bool.false_ne_true, laneFaults_limits, window]
    rfl
  · rw [accessCode, outside_of_own h, beyond_of_own s g.team size h, if_neg Bool.false_ne_true, laneFaults_limits, window, ← low]
    simp [checkWindow]
  · rw [accessCode, outside_of_member h, beyond_of_member s g.team size h, if_neg Bool.false_ne_true, laneFaults_limits, window, ← low]
    rfl
  · rw [accessCode, h, window]
    rfl

end

theorem sizeOfType_dvd_window : ∀ t : BitVec 3, sizeOfType t ∣ 2 ^ 24 := by decide

/-! ### The instruction -/

/-- An instruction whose counter has room raises the cause found in its lanes (R161). -/
theorem startMem_of_some {s : State} {g : Group} {i : Instr} {o : Op} {lanes : List LaneAcc} (room : counter g (counterFor o lanes).ident < 63)
    (c : Cause) (dests : List Reg) : startMem s g i o (some c) lanes dests = trapAt s s.cur c.code c.info := by
  simp only [startMem, counterFull_eq_false room, Bool.false_eq_true, if_false]

/-- A load whose lanes find a cause raises the first of them. -/
theorem ldLong_traps {s : State} {g : Group} (hs : Selected s g) {t : BitVec 3} {m : MLOps} {f : LaneFault}
    (hf : f.lane ∈ lanesOf g.width (active g m.g)) (addr : f.addr = baseOf s g 0 m.b f.lane + m.offset.signExtend 64)
    (code : f.code = accessCode s g.team (sizeOfType t) f.addr.toNat) (some_ : f.code ≠ 0)
    (first : ∀ l ∈ lanesOf g.width (active g m.g),
      let c := accessCode s g.team (sizeOfType t) (baseOf s g 0 m.b l + m.offset.signExtend 64).toNat
      c = 0 ∨ f.code < c ∨ (c = f.code ∧ f.lane ≤ l))
    (room : ∀ ls, counter g (counterFor (opFields (.ldLong t false m)) ls).ident < 63) :
    exec (.ldLong t false m) s = .next (trapAt s s.cur f.code (laddr f.lane f.addr)) := by
  have found : ∀ x, x ∈ (lanesOf g.width (active g m.g)).flatMap (fun l => checkWindow s g (sizeOfType t) l
      (baseOf s g 0 m.b l + m.offset.signExtend 64) (genericWindow (baseOf s g 0 m.b l + m.offset.signExtend 64)) true true) ↔
      x.lane ∈ lanesOf g.width (active g m.g) ∧ x.addr = baseOf s g 0 m.b x.lane + m.offset.signExtend 64 ∧
        x.code = accessCode s g.team (sizeOfType t) x.addr.toNat ∧ x.code ≠ 0 := by
    intro x
    rw [List.mem_flatMap]
    simp only [checkWindow_generic (sizeOfType_dvd_window t)]
    constructor
    · rintro ⟨l, hl, hx⟩
      unfold laneFaults at hx
      split_ifs at hx with zero
      · simp at hx
      · obtain rfl := List.mem_singleton.1 hx
        exact ⟨hl, rfl, rfl, zero⟩
    · rintro ⟨lane, addr, code, some_⟩
      refine ⟨x.lane, lane, ?_⟩
      rw [← addr, ← code, laneFaults, if_neg some_]
      exact List.mem_singleton.2 rfl
  have lowest := lowestFault_eq_some ((found f).2 ⟨hf, addr, code, some_⟩) fun x hx => by
    obtain ⟨lane, addrX, codeX, someX⟩ := (found x).1 hx
    have place := first x.lane lane
    rw [← addrX, ← codeX] at place
    rcases place with none_ | higher | ⟨same, le⟩
    · exact absurd none_ someX
    · exact .inr (.inl higher)
    · rcases Nat.eq_or_lt_of_le le with lanes | lower
      · refine .inl ?_
        cases x; cases f
        simp_all
      · exact .inr (.inr ⟨same.symm, lower⟩)
  refine (onGroup_of_some hs _).trans (congrArg _ ?_)
  refine (congrArg (fun trap => startMem s g _ _ trap _ _) lowest).trans (startMem_of_some (room _) _ _)

end Sys2Proof.Laws.LaneTraps

namespace Sys2Proof
open Machine Laws.LaneTraps

/-- Settles O26: the cause in each lane, and the search for the first. -/
theorem memoryTraps : Obligations.MemoryTraps := by
  intro s g t m f hs size a stash out bey code lanes hf first room
  obtain ⟨⟨lane, active_⟩, code_, some_, addr⟩ := hf
  refine ldLong_traps hs (mem_lanesOf.2 ⟨lane, active_⟩) addr ?_ some_ (fun l hl => first l (mem_lanesOf.1 hl)) room
  rw [code_, addr]; rfl

end Sys2Proof

/-! ## Answers to faults (R163, R387, R389) -/

namespace Sys2Proof.Laws.FaultAnswers
open Machine

section
variable {s : State} {f : Nat} {r : FaultRec} {g : Group}

/-- The runtime's answer to a fault whose record stands in the queue: none yet, resolved, or refused (R389). -/
theorem execFaultResponse_eq {loc : Nat} (hf : tblGet s.faults f = some r) (slot : r.slot = some loc) (hg : tblGet s.groups r.group = some g) :
    exec (.faultResponse f) s = .next (
      if peekNum s (loc + 32) 4 = 0 then s
      else if peekNum s (loc + 32) 4 = 1 then resolveFault { s with faults := tblErase s.faults f } f r g
      else refuseFault { s with faults := tblErase s.faults f } f r g) := by
  show execFaultResponse f s = _
  simp only [execFaultResponse, hf, slot, hg]
  split_ifs <;> rfl

theorem resolveFault_of_parked {uid : Nat} (hp : r.party = 0) (hw : g.wait = .parked uid f) :
    resolveFault s f r g = s.putGroup r.group { g with wait := .translate uid } := by
  simp only [resolveFault, hp, hw, if_true]

theorem refuseFault_of_parked {uid : Nat} (hp : r.party = 0) (hw : g.wait = .parked uid f) :
    refuseFault s f r g = trapAt (abandonOp s r.group uid) r.group 0x15 r.mask := by
  simp only [refuseFault, hp, hw, if_true]

theorem resolveFault_of_parkedWhole (hp : r.party = 1) (hw : g.wait = .parkedWhole f) :
    resolveFault s f r g = s.putGroup r.group { g with wait := .none } := by
  simp only [resolveFault, hp, hw, if_true]

theorem refuseFault_of_parkedWhole (hp : r.party = 1) (hw : g.wait = .parkedWhole f) (outside : atHandler s g = false) :
    refuseFault s f r g = trapAt (s.putGroup r.group { g with wait := .none }) r.group 0x15 r.mask := by
  simp only [refuseFault, hp, hw, if_true, outside, Bool.false_and, Bool.false_eq_true, if_false]

theorem resolveFault_of_feed (hp : r.party = 2) (hg : tblGet s.groups r.group = some g) {p : Feed} (feed : g.feed = some p) :
    resolveFault s f r g = s.putGroup r.group { g with feed := some { p with parked := false } } := by
  simp only [resolveFault, hp, State.upFeed, State.upGroup_of_some hg, feed, Option.map_some]

/-- A claim that has its record is not made again (R387). -/
theorem claimFault_of_slot (hf : tblGet s.faults f = some r) (slot : r.slot.isSome) : claimFault s f = s := by
  simp only [claimFault, hf, slot, if_true]

end

end Sys2Proof.Laws.FaultAnswers

/-! ## Fills and recalls of bound lines (R186) -/

namespace Sys2Proof.Laws.Recalls
open Machine

theorem needLine_fields (s : State) (line : Nat) (w : Bool) : (needLine s line w).mem = s.mem ∧ (needLine s line w).groups = s.groups ∧
    (needLine s line w).owners = s.owners := by
  unfold needLine
  split
  · simp
  · split_ifs <;> simp
  · simp

theorem readByte_of_readBytes_eq {m m' : Cells 8} {a b n : Nat} (h : readBytes m a n = readBytes m' b n) {j : Nat} (hj : j < n) :
    readByte m (a + j) = readByte m' (b + j) := by
  have same := congrArg (fun bs => bs[j]?) h
  simpa [readBytes, hj] using same

theorem length_readBytes (m : Cells 8) (a n : Nat) : (readBytes m a n).length = n := by simp [readBytes]

/-- Bytes copied from one place to another. -/
theorem readByte_writeBytes_readBytes (m m' : Cells 8) (a b n : Nat) {j : Nat} (hj : j < n) :
    readByte (writeBytes m a (readBytes m' b n)) (a + j) = readByte m' (b + j) := by
  have copied := readBytes_writeBytes (readBytes m' b n) m a
  rw [length_readBytes] at copied
  exact readByte_of_readBytes_eq copied hj

/-- R186: the first access to an unfilled line of a slot. -/
theorem fillBound_of_unfilled {s : State} {team slot k gl : Nat} {b : BindSlot} (hl : b.lines[k]? = some gl) (ho : tblGet s.owners gl = none) :
    fillBound s team slot b k = { needLine s gl false with
      mem := writeBytes s.mem (stashLoc team (b.soff + 128 * k)) (readBytes s.mem (128 * gl) 128)
      owners := tblSet s.owners gl { team := team, slot := slot, off := b.soff + 128 * k, dirty := false } } := by
  obtain ⟨mem, -, owners⟩ := needLine_fields s gl false
  simp only [fillBound, hl, ho, mem, owners, Option.isSome_none, Bool.false_eq_true, if_false, slotStash]

theorem bindFirstTouch_fills {s : State} {team slot k gl : Nat} {t : Team} {b : BindSlot} (ht : tblGet s.teams team = some t)
    (hb : tblGet t.binds slot = some b) (hl : b.lines[k]? = some gl) (ho : tblGet s.owners gl = none) :
    exec (.bindFirstTouch team slot k) s = .next { needLine s gl false with
      mem := writeBytes s.mem (stashLoc team (b.soff + 128 * k)) (readBytes s.mem (128 * gl) 128)
      owners := tblSet s.owners gl { team := team, slot := slot, off := b.soff + 128 * k, dirty := false } } := by
  show execBindFirstTouch team slot k s = _
  simp only [execBindFirstTouch, ht, Option.bind_some, hb, fillBound_of_unfilled hl ho]

/-! ### A write at a home changes no group and gives no stash a line -/

/-- The groups are the same, and a line that no stash owned is owned by none. -/
def Unowned (line : Nat) (s u : State) : Prop := u.groups = s.groups ∧ (tblGet s.owners line = none → tblGet u.owners line = none)

section
variable {line : Nat} {s u v : State}

theorem Unowned.refl (line : Nat) (s : State) : Unowned line s s := ⟨rfl, id⟩

theorem Unowned.trans (h : Unowned line s u) (h' : Unowned line u v) : Unowned line s v := ⟨h'.1.trans h.1, h'.2 ∘ h.2⟩

theorem unowned_of_same (hg : u.groups = s.groups) (ho : u.owners = s.owners) : Unowned line s u := ⟨hg, fun h => by rw [ho, h]⟩

theorem unowned_needLine (l : Nat) (w : Bool) : Unowned line s (needLine s l w) :=
  have kept := needLine_fields s l w
  unowned_of_same kept.2.1 kept.2.2

theorem unowned_writeHere (loc : Nat) (bs : List Byte) : Unowned line s (writeHere s loc bs).1 := by
  refine ⟨?_, fun h => ?_⟩
  · unfold writeHere
    simp only [clearUnits]
    split_ifs <;> rfl
  · unfold writeHere
    simp only [clearUnits]
    split_ifs
    · exact h
    · simp [dirtyOwner, h]

theorem unowned_setDirty (block : Nat) (v : Bool) : Unowned line s (setDirty s block v) := by
  unfold setDirty
  split
  · exact (unowned_needLine _ _).trans (unowned_writeHere _ _)
  · exact .refl line s

theorem unowned_writeBack (l : Nat) : Unowned line s (writeBack s l) := by
  have erased : Unowned line s { s with hbmOld := tblErase s.hbmOld l } := unowned_of_same rfl rfl
  unfold writeBack
  split_ifs
  · exact .refl line s
  · exact erased
  · exact erased.trans (unowned_setDirty _ _)

theorem unowned_keepHbm (l : Nat) : Unowned line s (keepHbm s l) := by
  unfold keepHbm
  split_ifs
  · exact .refl line s
  · cases victimOf s l with
    | none => exact unowned_of_same rfl rfl
    | some v => exact (unowned_writeBack v).trans (unowned_of_same rfl rfl)

end

/-- A line that no stash owns is written at its home, whatever the memory-side cache writes back for it. -/
theorem performWrite_home {s : State} {line : Nat} (h : tblGet s.owners line = none) (bs : List Byte) :
    Unowned line s (performWrite s (128 * line) bs).1 ∧
      ∃ m, (performWrite s (128 * line) bs).1.mem = writeBytes m (128 * line) bs := by
  have line_ : lineOf (128 * line) = line := by unfold lineOf; omega
  have home (u : State) (hu : tblGet u.owners line = none) : locate u (128 * line) = 128 * line := by simp [locate, line_, hu]
  have kept : Unowned line s (keepHbm s line) := unowned_keepHbm line
  rw [performWrite, if_pos (home s h), line_]
  refine ⟨kept.trans (unowned_writeHere _ _), (keepHbm s line).mem, ?_⟩
  simp only [writeHere, home _ (kept.2 h), if_true, clearUnits]

/-- R186, R187: a recalled line has no owner; written since its fill, it stands at its home. -/
theorem recallLine_of_owned {s : State} {line : Nat} {o : Owner} (h : tblGet s.owners line = some o) :
    tblGet (recallLine s line).1.owners line = none ∧ (recallLine s line).1.groups = s.groups ∧
      (o.dirty = true → ∀ j, j < 128 → readByte (recallLine s line).1.mem (128 * line + j) = readByte s.mem (stashLoc o.team o.off + j)) ∧
      (o.dirty = false → (recallLine s line).1.mem = s.mem) := by
  let s1 : State := { s with owners := tblErase s.owners line }
  have erased : tblGet s1.owners line = none := by simp [s1]
  cases dirty : o.dirty with
  | false =>
    have recalled : recallLine s line = (s1, 0) := by simp only [recallLine, h, dirty, Bool.false_eq_true, if_false, s1]
    rw [recalled]
    exact ⟨erased, rfl, fun no => absurd no (by simp), fun _ => rfl⟩
  | true =>
    have recalled : recallLine s line = performWrite (needLine s1 line true) (128 * line) (readBytes s.mem (stashLoc o.team o.off) 128) := by
      simp only [recallLine, h, dirty, if_true, s1]
    have need : Unowned line s1 (needLine s1 line true) := unowned_needLine line true
    obtain ⟨kept, m, mem⟩ := performWrite_home (need.2 erased) (readBytes s.mem (stashLoc o.team o.off) 128)
    rw [recalled]
    refine ⟨kept.2 (need.2 erased), kept.1.trans need.1, fun _ j hj => ?_, fun no => absurd no (by simp)⟩
    rw [mem, readByte_writeBytes_readBytes _ _ _ _ _ hj]

end Sys2Proof.Laws.Recalls

namespace Sys2Proof
open Machine Laws.FaultAnswers Laws.Recalls Laws.Transacting

/-- Settles O54: the answers by the party that faulted, the fill and the recall of a line, and the abort. -/
theorem faultsBindingsAndAborts : Obligations.FaultsBindingsAndAborts := by
  intro s
  refine ⟨fun f r loc g hf slot hg => ?answers, fun f r hf => ⟨fun slot => ?_, fun _ => rfl⟩, fun team slot t b k gl ht hb hl ho => ?touch,
    fun line o ho => ?recalled, fun n g t c hg tx lo hi => ?abort⟩
  case answers =>
    intro resp v
    have run := execFaultResponse_eq hf slot hg
    have resolved (one : resp = 1) : exec (.faultResponse f) s = .next (resolveFault v f r g) := by
      rw [run, if_neg (by omega), if_pos one]
    have refused (more : 1 < resp) : exec (.faultResponse f) s = .next (refuseFault v f r g) := by
      rw [run, if_neg (by omega), if_neg (by omega)]
    refine ⟨fun zero => by rw [run, if_pos zero], fun party uid wait => ⟨fun one => ?_, fun more => ?_⟩,
      fun party wait outside => ⟨fun one => ?_, fun more => ?_⟩, fun party one p feed => ?_⟩
    · rw [resolved one, resolveFault_of_parked party wait]
    · rw [refused more, refuseFault_of_parked party wait]
    · rw [resolved one, resolveFault_of_parkedWhole party wait]
    · rw [refused more, refuseFault_of_parkedWhole party wait outside]
    · rw [resolved one, resolveFault_of_feed (s := v) party hg feed]
  · exact congrArg Host.Outcome.next (claimFault_of_slot hf slot)
  case touch =>
    refine ⟨_, bindFirstTouch_fills ht hb hl ho, fun j hj => readByte_writeBytes_readBytes _ _ _ _ _ hj, by simp, (needLine_fields s gl false).2.1⟩
  case recalled =>
    obtain ⟨owners, groups, written, clean⟩ := recallLine_of_owned ho
    exact ⟨_, rfl, owners, groups, written, clean⟩
  case abort =>
    obtain ⟨tx', exec', ⟨pc, hdr, -⟩, ⟨v, p, -⟩, code, -⟩ := aborted_abortTx tx c.toNat 0
    refine ⟨_, ?_, tx', exec', pc, hdr, v, p, code⟩
    show execTxAbort n c s = _
    simp [execTxAbort, hg, tx, lo, hi]

end Sys2Proof

/-! ## A 32-bit integer atomic on the team's own stash (R170 to R172) -/

namespace Sys2Proof.Laws.OwnAtomics
open Machine

/-! ### Bytes and words (R5) -/

theorem leNat_leBytes : ∀ n v : Nat, leNat (leBytes n v) = v % 256 ^ n
  | 0, v => (Nat.mod_one v).symm
  | n + 1, v => by
    rw [leBytes, leNat, leNat_leBytes n, BitVec.toNat_ofNat, show 256 ^ (n + 1) = 256 * 256 ^ n from Nat.pow_succ', Nat.mod_mul]

theorem leNat_leBytes_word (x : Word) : leNat (leBytes 4 x.toNat) = x.toNat := by
  rw [leNat_leBytes]
  omega

theorem byte_word (x : Word) (k : Nat) : BitVec.ofNat 8 (x.toNat / 2 ^ k) = x.extractLsb' k 8 := by
  apply BitVec.eq_of_toNat_eq
  rw [BitVec.toNat_ofNat, BitVec.extractLsb'_toNat, Nat.shiftRight_eq_div_pow]

/-- The four bytes of a word, low byte first. -/
theorem leBytes_word (x : Word) :
    leBytes 4 x.toNat = [x.extractLsb' 0 8, x.extractLsb' 8 8, x.extractLsb' 16 8, x.extractLsb' 24 8] := by
  simp only [← byte_word, leBytes, Nat.div_div_eq_div_mul]
  norm_num

theorem toNat_append_byte {w : Nat} (x : BitVec w) (b : Byte) : (x ++ b).toNat = 256 * x.toNat + b.toNat := by
  rw [BitVec.toNat_append, ← Nat.shiftLeft_add_eq_or_of_lt b.isLt, Nat.shiftLeft_eq]
  omega

theorem leNat_four (b0 b1 b2 b3 : Byte) : leNat [b0, b1, b2, b3] = (b3 ++ b2 ++ b1 ++ b0 : BitVec 32).toNat := by
  simp only [leNat, toNat_append_byte]
  omega

/-! ### The new value (R170) -/

theorem toInt_word (x : Word) : Fp.toInt 32 x.toNat = x.toInt := by
  simp only [Fp.toInt, BitVec.toInt_eq_toNat_cond, Nat.mod_eq_of_lt x.isLt]
  split_ifs <;> omega

/-- The order of an integer type: signed for code 0, else unsigned. -/
def leWord (ty : Nat) (x y : Word) : Bool := if ty = 0 then decide (x.toInt ≤ y.toInt) else decide (x.toNat ≤ y.toNat)

/-- The new value of a 32-bit integer word for one lane's operands, in an order of words (R170). -/
def updateBy (le : Word → Word → Bool) (op : Nat) (old v v2 : Word) : Word :=
  match op with
  | 0 => old + v | 1 => if le old v then old else v | 2 => if le old v then v else old
  | 3 => old &&& v | 4 => old ||| v | 5 => old ^^^ v | 6 => v
  | 7 => if old = v then v2 else old
  | 8 => if v.toNat ≤ old.toNat then 0 else old + 1
  | _ => if old = 0 ∨ v.toNat < old.toNat then v else old - 1

/-- The new value in the order of the type. -/
def update (op ty : Nat) : Word → Word → Word → Word := updateBy (leWord ty) op

/-- The lesser of two words by a key, the first where they are equal. -/
theorem least_word {α : Type} [LinearOrder α] (key : Word → α) (x y : Word) :
    (if key y < key x then y.toNat else x.toNat) = (if key x ≤ key y then x else y).toNat := by
  rw [apply_ite BitVec.toNat, ← ite_not]
  simp only [not_lt]

theorem greatest_word {α : Type} [LinearOrder α] {key : Word → α} (inj : Function.Injective key) (x y : Word) :
    (if key x < key y then y.toNat else x.toNat) = (if key x ≤ key y then y else x).toNat := by
  by_cases same : key x = key y
  · simp [inj same]
  · rw [apply_ite BitVec.toNat]
    exact if_congr ⟨le_of_lt, fun le => lt_of_le_of_ne le same⟩ rfl rfl

/-- A node of two 32-bit integers (R99). -/
theorem atomNode_word {op ty : Nat} (hop : op ≤ 6) (ht : ty < 2) (old v v2 : Word) :
    atomNode op ty old.toNat v.toNat = ((update op ty old v v2).toNat, 0) := by
  have types : ty = 0 ∨ ty = 1 := by omega
  rcases types with rfl | rfl <;> interval_cases op
  all_goals simp [atomNode, atomElem, Fp.node, update, updateBy, leWord, toInt_word, BitVec.toNat_add, least_word BitVec.toInt, least_word BitVec.toNat,
    greatest_word fun _ _ => BitVec.eq_of_toInt_eq, greatest_word fun _ _ => BitVec.eq_of_toNat_eq]

/-- R170: .cas, .inc and .dec. -/
theorem atomStep_word {op : Nat} (lo : 7 ≤ op) (hi : op < 10) (ty : Nat) (old v v2 : Word) {n2 : Nat} (h2 : op = 7 → n2 = v2.toNat) :
    atomStep op old.toNat v.toNat n2 = (update op ty old v v2).toNat := by
  have codes : op = 7 ∨ op = 8 ∨ op = 9 := by omega
  rcases codes with rfl | rfl | rfl
  · simp only [atomStep, update, updateBy, h2 rfl, apply_ite BitVec.toNat, BitVec.toNat_inj]
  · simp only [atomStep, update, updateBy]
    split_ifs
    · rfl
    · bv_omega
  · simp only [atomStep, update, updateBy, show old = 0 ↔ old.toNat = 0 by bv_omega]
    split_ifs
    · rfl
    · bv_omega

/-- One lane's atomic on a 32-bit integer: the new value, the old value for the lane, and no flags. -/
theorem atomLanes_word {op ty : Nat} (hop : op < 10) (ht : ty < 2) (old v v2 : Word) {n2 : Nat} (h2 : op = 7 → n2 = v2.toNat) :
    atomLanes op ty old.toNat [(v.toNat, n2)] = ((update op ty old v v2).toNat, [old.toNat], 0) := by
  by_cases low : op ≤ 6
  · simp only [atomLanes, if_pos low, List.map_cons, List.map_nil, Fp.agg, Fp.aggFrom, atomNode_word low ht old v v2]
    rfl
  · simp only [atomLanes, if_neg low, List.foldl_cons, List.foldl_nil, atomStep_word (by omega) hop ty old v v2 h2]
    rfl

/-! ### The operands (R171) -/

/-- The words that an atomic of 32 bits captures in a lane: one, or two for .cas. -/
theorem atomData_word {s : State} {g : Group} {d : Nat} (hd : d < 47) (cas : Prop) [Decidable cas] (l : Nat) :
    wordsBytes (dataWords s g 1 false d (if cas then 2 * 4 else 4) l) =
      leBytes 4 (readV s.draws 1 g d l).toNat ++ if cas then leBytes 4 (readV s.draws 1 g (d + 1) l).toNat else [] := by
  have register : d < 48 := by omega
  by_cases h : cas
  · simp [h, wordsBytes, dataWords, regsFor, register, List.range_succ]
  · simp [h, wordsBytes, dataWords, regsFor, register, List.range_succ]

theorem atomOperands_word {ty : Nat} (ht : ty < 2) {x : LaneAcc} (cas : Prop) [Decidable cas] {v v2 : Word}
    (data : x.data = leBytes 4 v.toNat ++ if cas then leBytes 4 v2.toNat else []) :
    (atomOperands ty x).1 = v.toNat ∧ (cas → (atomOperands ty x).2 = v2.toNat) := by
  have size : atomBytes ty = 4 := if_neg (by omega)
  have first : (leBytes 4 v.toNat ++ if cas then leBytes 4 v2.toNat else []).take 4 = leBytes 4 v.toNat :=
    List.take_left' (length_leBytes 4 _)
  have rest : (leBytes 4 v.toNat ++ if cas then leBytes 4 v2.toNat else []).drop 4 = if cas then leBytes 4 v2.toNat else [] :=
    List.drop_left' (length_leBytes 4 _)
  simp only [atomOperands, size, data, bytesNum, List.drop_zero, first, rest, leNat_leBytes_word, true_and]
  intro h
  rw [if_pos h, List.take_of_length_le (length_leBytes 4 _).le, leNat_leBytes_word]

/-! ### The lane performs as the instruction issues (R153, R162, R172) -/

/-- The group is in no transaction, nothing of it is in flight, and its accesses take no time. Log entry 94. -/
structure AtOnce (s : State) (n : Nat) (g : Group) : Prop where
  late : s.late.contains n = false
  tx : g.tx = none
  flight : ∀ o ∈ g.ops, o.flight = []

theorem flyers_one_of_atOnce {s : State} {n : Nat} {g : Group} (h : AtOnce s n g) (uid : Nat) (k : MemKind) (p : Passed) :
    flyers s n g uid k [p] = [] := by
  have empty : before s g uid p.acc.lane = [] := by
    refine List.flatMap_eq_nil_iff.2 fun o ho => ?_
    cases o.kind <;> simp [h.flight o ho]
  have clear : ∀ xs, meets xs [] = false := fun xs => by simp [meets]
  have now : takesTime s n g = false := by rw [takesTime, h.late]; rfl
  simp [flyers, flies, now, heldUp, empty, clear]

theorem atomPerform_one (s : State) (n uid op ty : Nat) (dst : Option Nat) (p : Passed) :
    atomPerform s n uid op ty dst [p] = atomPlace s n uid op ty dst [p] := by
  simp [atomPerform]

section
variable {s : State} {n uid op ty d : Nat} {g : Group} {o : Op} {l : LaneAcc}

theorem passLane_atomic {p : Spot} (lane : l.lane < 64) (free : freeSpot s n g o l.lane l.addr = some p) :
    passLane s n g o (.atomic op ty (some d)) l = (s, .ok { acc := l, spot := p }) := by
  have data : l.lane ≠ 64 := by omega
  simp [passLane, passAddr, free, data]

section
variable (hg : tblGet s.groups n = some g) (ho : findOp g uid = some o) (kind : o.kind = some (.atomic op ty (some d)))
  (lanes : o.lanes = [l]) (own : OwnLane l) (now : AtOnce s n g)
include hg ho kind lanes own now

/-- The one lane of an atomic on the own stash performs at once. -/
theorem runLanes_atomic : ∃ place, runLanes s n uid =
    (atomPlace (s.putGroup n (upOp g uid (lanesGone place))) n uid op ty (some d) [{ acc := l, spot := ownSpot g.team l }], []) := by
  let p : Passed := { acc := l, spot := ownSpot g.team l }
  have passed : passAll s n g o (.atomic op ty (some d)) [l] = (s, { ok := [p], stops := [] }) := by
    simp only [passAll, passLane_atomic own.1 (freeSpot_own own s n g o)]
    rfl
  have tx : g.tx.isSome = false := by rw [now.tx]; rfl
  have begun : (s.upOperation n uid (lanesGone (some (placeOf p.spot)))).upOperation n uid (fun o => { o with flight := o.flight ++ [] }) =
      s.putGroup n (upOp g uid (lanesGone (some (placeOf p.spot)))) := by
    rw [upOperation_of_some hg, upOperation_of_some (g := upOp g uid (lanesGone (some (placeOf p.spot)))) (by simp), State.putGroup_putGroup,
      upOp_upOp g uid (f := lanesGone (some (placeOf p.spot))) _ fun _ => rfl]
    simp only [List.append_nil]
  refine ⟨some (placeOf p.spot), ?_⟩
  rw [← begun]
  have left : [l].filter (fun l => !([p].any fun p => p.acc == l)) = [] := by simp [p]
  have stay : [p].filter (fun p => !([] : List Passed).contains p) = [p] := by simp
  simp only [runLanes, hg, ho, kind, lanes, isGfx, passed, tx, flyers_one_of_atOnce now, Bool.false_eq_true, if_false, left, stay]
  rw [← atomPerform_one]
  rfl

theorem beginAccess_atomic : ∃ place, beginAccess s n uid =
    afterRun (atomPlace (s.putGroup n (upOp g uid (lanesGone place))) n uid op ty (some d) [{ acc := l, spot := ownSpot g.team l }]) n uid [] := by
  obtain ⟨place, runs⟩ := runLanes_atomic hg ho kind lanes own now
  have free : allFree s n g o = true := by
    simp [allFree, kind, lanes, isGfx, freeSpot_own own]
  refine ⟨place, ?_⟩
  simp only [beginAccess, runOp, hg, ho, kind, free, runs, Bool.or_true, if_true, Bool.false_and, Bool.false_eq_true, if_false]

end
end

/-! ### What the lane does (R170, R172) -/

theorem landAtomic_good {s : State} {n uid d : Nat} {g : Group} (hg : tblGet s.groups n = some g) (l : LaneAcc) (old : Word) (bs : List Byte) :
    landAtomic s n uid (some d) 4 [(l, old.toNat)] 0 { bytes := bs, ctime := 0, bad := false } =
      s.putGroup n (upOp g uid (takeWrites [(.v d l.lane, old)])) := by
  have word : bytesWords (leBytes 4 old.toNat) = [old] := by
    simp [bytesWords, regsFor, length_leBytes, bytesNum, leNat_leBytes_word, List.take_of_length_le]
  have kept : upOp (upOp g uid (takeWrites [(.v d l.lane, old)])) uid (fun o => { o with
      flags := o.flags ||| BitVec.ofNat 32 0, readC := max o.readC 0, err := o.err }) = upOp g uid (takeWrites [(.v d l.lane, old)]) := by
    rw [upOp_upOp g uid (f := takeWrites [(.v d l.lane, old)]) _ fun _ => rfl]
    simp only [BitVec.or_zero, Nat.max_zero]
  have read : landRead s n uid ((List.range (regsFor 4)).map fun k => .v (d + k) l.lane) l.lane (bytesWords (leBytes 4 old.toNat))
      { bytes := bs, ctime := 0, bad := false } = s.putGroup n (upOp g uid (takeWrites [(.v d l.lane, old)])) := by
    rw [word]
    exact landRead_good hg _ _ _ bs
  simp only [landAtomic, List.foldl_cons, List.foldl_nil, read, State.upGroup_putGroup, Bool.false_eq_true, if_false, kept]
  rw [Nat.max_zero]

/-- The word at an offset of a stash. -/
def stashWord (s : State) (team off : Nat) : Word :=
  let place := stashLoc team off
  (readByte s.mem (place + 3) ++ readByte s.mem (place + 2) ++ readByte s.mem (place + 1) ++ readByte s.mem place : BitVec 32)

theorem leNat_stashWord (s : State) (team off : Nat) :
    leNat ((List.range 4).map fun i => readByte s.mem (stashLoc team (off + i))) = (stashWord s team off).toNat := by
  have bytes : (List.range 4).map (fun i => readByte s.mem (stashLoc team (off + i))) =
      [readByte s.mem (stashLoc team off), readByte s.mem (stashLoc team off + 1), readByte s.mem (stashLoc team off + 2),
        readByte s.mem (stashLoc team off + 3)] := rfl
  rw [bytes, leNat_four]
  rfl

/-- The lane's word is updated in its stash, and its old value is what the lane's register will take. -/
theorem atomPlace_own {s : State} {n uid team op ty d : Nat} {g : Group} {l : LaneAcc} {v v2 : Word} (hg : tblGet s.groups n = some g)
    (unbound : Unbound s team) (good : s.ueUnits = []) (hop : op < 10) (ht : ty < 2) (first : (atomOperands ty l).1 = v.toNat)
    (second : op = 7 → (atomOperands ty l).2 = v2.toNat) (aligned : ownOff l % 4 = 0) :
    atomPlace s n uid op ty (some d) [{ acc := l, spot := ownSpot team l }] =
      (stashPut s (stashLoc team (ownOff l)) (leBytes 4 (update op ty (stashWord s team (ownOff l)) v v2).toNat)).putGroup n
        (upOp g uid (takeWrites [(.v d l.lane, stashWord s team (ownOff l))])) := by
  have size : atomBytes ty = 4 := if_neg (by omega)
  have operands : atomOperands ty l = (v.toNat, (atomOperands ty l).2) := by rw [← first]
  have lanes := atomLanes_word hop ht (stashWord s team (ownOff l)) v v2 second
  have line : ownOff l % 128 + (leBytes 4 (update op ty (stashWord s team (ownOff l)) v v2).toNat).length ≤ 128 := by
    rw [length_leBytes]
    exact within_line_of_aligned (by decide) aligned
  have stands : tblGet (stashPut s (stashLoc team (ownOff l))
      (leBytes 4 (update op ty (stashWord s team (ownOff l)) v v2).toNat)).groups n = some g := hg
  rw [← landAtomic_good stands l (stashWord s team (ownOff l))
    ((List.range 4).map fun i => readByte s.mem (stashLoc team (ownOff l + i)))]
  have offset : l.addr.toNat % 2 ^ 24 = ownOff l := rfl
  simp only [atomPlace, ownSpot, offset, size, bindConflict_of_unbound unbound, stashRead_of_unbound unbound good, leNat_stashWord,
    List.map_cons, List.map_nil, Bool.false_eq_true, if_false]
  rw [operands, lanes, storeStash_of_unbound unbound n uid line (List.cons_ne_nil _ _)]
  rfl

/-! ### The whole instruction (R36, R153, R170 to R172) -/

@[simp] theorem bump_stashPut_groups (s : State) (loc : Nat) (bs : List Byte) : (stashPut s.bump loc bs).groups = s.groups := rfl

/-- The lane of ATOMS in the own stash. -/
def atomsLane (s : State) (g : Group) (cas : Prop) [Decidable cas] (d off l : Nat) : LaneAcc :=
  { lane := l, addr := windowAddr (.stash none off), data := wordsBytes (dataWords s g 1 false d (if cas then 2 * 4 else 4) l) }

/-- The operation of ATOMS. -/
abbrev atomsOp (aop : BitVec 4) (t : BitVec 3) (m : MLOps) : Op := longOp .ld (.atomic aop.toNat t.toNat (some m.d.toNat)) m

section
variable {s : State} {g : Group} {cas : Prop} [Decidable cas] {d off l : Nat} (small : off < 2 ^ 24)
include small

theorem ownLane_atomsLane (lane : l < 64) : OwnLane (atomsLane s g cas d off l) := ownLane_windowAddr small lane _

theorem ownOff_atomsLane : ownOff (atomsLane s g cas d off l) = off := ownOff_windowAddr small l _

theorem counterFor_atomsLane (aop : BitVec 4) (t : BitVec 3) (m : MLOps) :
    counterFor (atomsOp aop t m) [atomsLane s g cas d off l] = .ld :=
  counterFor_ownLanes (ls := [l]) (off := fun _ => off) (by simpa using small)
    fun l => wordsBytes (dataWords s g 1 false d (if cas then 2 * 4 else 4) l)

end

section
variable {s : State} {g : Group} {aop : BitVec 4} {t : BitVec 3} {m : MLOps} {l : Nat}

/-- ATOMS of one lane at an aligned offset inside the own stash issues. -/
theorem atoms_own (hs : Selected s g) (room : counter g Counter.ld.ident < 63) (lane : lanesOf g.width (active g m.g) = [l]) (ht : t.toNat < 2)
    {off : Nat} (hoff : (stashAddr s g 0 m.b (m.offset.signExtend 64) l).toNat = off) (small : off < 2 ^ 24)
    (inside : off + 4 ≤ stashSize s g.team) (aligned : off % 4 = 0) :
    ∃ dests, exec (.atoms aop t m) s = .next (issued s g (.atoms aop t m) (atomsOp aop t m) [atomsLane s g (aop = 7) m.d.toNat off l] dests) := by
  have size : ¬(t = 2 ∨ t = 3) := by rintro (rfl | rfl) <;> exact absurd ht (by decide)
  have window : stashWindow ((baseOf s g 0 m.b l).setWidth 32 + (m.offset.signExtend 64).setWidth 32) = some (.stash none off) := by
    rw [← hoff] at small ⊢
    exact stashWindow_of_lt small
  have issues := ((atomicsIssue s g hs).1 aop t m).2
  simp only [size, if_false, lane, List.map_cons, List.map_nil, List.mem_singleton, forall_eq] at issues
  rw [window] at issues
  have checks := issues (checkWindow_own_eq_nil _ inside aligned)
  have free : CounterFree g (atomsOp aop t m) [atomsLane s g (aop = 7) m.d.toNat off l] :=
    (counterFree_iff g (counterFor_atomsLane small aop t m)).2 room
  exact ⟨_, checks free⟩

/-- The conditions under which a relaxed ATOMS of the group on its own stash runs at once: no transaction, nothing in flight, and no slot that
binds a line. Log entry 94. -/
structure AtomsAtOnce (s : State) (g : Group) (m : MLOps) : Prop where
  order : m.order = 0
  atOnce : AtOnce s s.cur g
  fresh : ∀ p ∈ g.ops, p.uid < s.fresh
  fabric : ∀ q ∈ s.fabOut, q.2.op < s.fresh
  counters : g.ctr.length = 7
  unbound : Unbound s g.team
  units : s.ueUnits = []

/-- ATOMS that issues runs its lane. -/
theorem issued_atomic (h : AtomsAtOnce s g m) {x : LaneAcc} (own : OwnLane x) (i : Instr) (dests : List Reg) :
    ∃ place, issued s g i (atomsOp aop t m) [x] dests = afterRun (atomPlace (s.bump.putGroup s.cur
      (upOp (issuedGroup s g i (atomsOp aop t m) [x] dests) s.fresh (lanesGone place))) s.cur s.fresh aop.toNat t.toNat (some m.d.toNat)
        [{ acc := x, spot := ownSpot g.team x }]) s.cur s.fresh [] := by
  have hg : tblGet (s.bump.putGroup s.cur (issuedGroup s g i (atomsOp aop t m) [x] dests)).groups s.cur =
      some (issuedGroup s g i (atomsOp aop t m) [x] dests) := by simp
  have ho := findOp_issuedGroup h.fresh i (atomsOp aop t m) [x] dests
  have relaxed : (issuedOp s g i (atomsOp aop t m) [x] dests).order = .rlx := by simp [issuedOp, longOp, opFor, h.order, Machine.orderOf]
  have now : AtOnce (s.bump.putGroup s.cur (issuedGroup s g i (atomsOp aop t m) [x] dests)) s.cur
      (issuedGroup s g i (atomsOp aop t m) [x] dests) := by
    obtain ⟨late, tx, flight⟩ := h.atOnce
    refine ⟨late, tx, fun p hp => ?_⟩
    rcases List.mem_append.1 hp with hp | hp
    · exact flight p hp
    · rw [List.mem_singleton.1 hp]
      rfl
  obtain ⟨place, runs⟩ := beginAccess_atomic hg ho rfl rfl own now
  refine ⟨place, ?_⟩
  rw [issued_eq_beginOp, beginOp_of_not_releases hg ho (by rw [relaxed]; rfl), runs, State.putGroup_putGroup]
  rfl

theorem putGroup_injective {v : State} {n : Nat} {a b : Group} (h : v.putGroup n a = v.putGroup n b) : a = b := by
  have same : tblGet (v.putGroup n a).groups n = tblGet (v.putGroup n b).groups n := by rw [h]
  simpa using same

/-- A long access that has performed completes with the values that its lanes gave, and with no flags but those it had. -/
theorem afterRun_completed {v : State} {i : Instr} {c : Counter} {k : MemKind} {lanes : List LaneAcc} {dests : List Reg}
    {place : Option Nat} {ws : List (Reg × Word)} (h : AtomsAtOnce s g m) (hv : v.fabOut = s.fabOut)
    (one : counterFor (longOp c k m) lanes = c)
    (hg : tblGet v.groups s.cur = some (upOp (issuedGroup s g i (longOp c k m) lanes dests) s.fresh (performed place ws))) :
    ∃ g', afterRun v s.cur s.fresh [] = v.putGroup s.cur g' ∧ AccessDone g g' c ws ∧
      g'.ops = g.ops ++ [completed place ws (issuedOp s g i (longOp c k m) lanes dests)] := by
  have relaxed : (performed place ws (issuedOp s g i (longOp c k m) lanes dests)).order = .rlx := by
    simp [performed, takeWrites, lanesGone, issuedOp, longOp, opFor, h.order, Machine.orderOf]
  have ho := findOp_upOp (f := performed place ws) (findOp_issuedGroup h.fresh i (longOp c k m) lanes dests) rfl
  have fab : fabricOpen v s.fresh = false := by
    rw [fabricOpen, hv, List.any_eq_false]
    intro q hq
    simpa using Nat.ne_of_lt (h.fabric q hq)
  have tx : (upOp (issuedGroup s g i (longOp c k m) lanes dests) s.fresh (performed place ws)).tx = none := by
    simp only [upOp, issuedGroup, issueOp, setCounter, h.atOnce.tx]
  have len : (performed place ws (issuedOp s g i (longOp c k m) lanes dests)).len = 2 := rfl
  have done := afterRun_completes hg ho rfl relaxed tx fab ⟨rfl, rfl, rfl, rfl, rfl⟩
  rw [upOp_upOp _ _ (f := performed place ws) _ fun _ => rfl, len] at done
  obtain ⟨g', completes, access⟩ := afterRun_accessDone h.fresh h.fabric hv h.atOnce.tx h.order h.counters one hg
  refine ⟨g', completes, access, ?_⟩
  rw [putGroup_injective (completes.symm.trans done)]
  have youngest : (issuedGroup s g i (longOp c k m) lanes dests).ops = g.ops ++ [issuedOp s g i (longOp c k m) lanes dests] := rfl
  simp only [advance_fields]
  exact upOp_ops_of_youngest youngest h.fresh (completed place ws)

/-- ATOMS of one lane updates the word in its stash, and completes with the old word for the lane's register. -/
theorem issued_atoms (h : AtomsAtOnce s g m) (hop : aop.toNat < 10) (ht : t.toNat < 2) {x : LaneAcc} (own : OwnLane x)
    (one : counterFor (atomsOp aop t m) [x] = .ld) (aligned : ownOff x % 4 = 0) {v v2 : Word} (first : (atomOperands t.toNat x).1 = v.toNat)
    (second : aop = 7 → (atomOperands t.toNat x).2 = v2.toNat) (i : Instr) (dests : List Reg) :
    ∃ g', issued s g i (atomsOp aop t m) [x] dests = (stashPut s.bump (stashLoc g.team (ownOff x))
        (leBytes 4 (update aop.toNat t.toNat (stashWord s g.team (ownOff x)) v v2).toNat)).putGroup s.cur g' ∧
      AccessDone g g' .ld [(.v m.d.toNat x.lane, stashWord s g.team (ownOff x))] ∧
      ∃ o : Op, g'.ops = g.ops ++ [o] ∧ o.ctr = .ld ∧ o.stage = .complete ∧
        o.writes = [(.v m.d.toNat x.lane, stashWord s g.team (ownOff x))] ∧ o.flags = 0 := by
  let old := stashWord s g.team (ownOff x)
  let ws : List (Reg × Word) := [(.v m.d.toNat x.lane, old)]
  let w := stashPut s.bump (stashLoc g.team (ownOff x)) (leBytes 4 (update aop.toNat t.toNat old v v2).toNat)
  obtain ⟨place, runs⟩ := issued_atomic (aop := aop) (t := t) h own i dests
  have performs := atomPlace_own (s := s.bump.putGroup s.cur (upOp (issuedGroup s g i (atomsOp aop t m) [x] dests) s.fresh (lanesGone place)))
    (n := s.cur) (uid := s.fresh) (team := g.team) (d := m.d.toNat)
    (g := upOp (issuedGroup s g i (atomsOp aop t m) [x] dests) s.fresh (lanesGone place)) (by simp)
    h.unbound h.units hop ht first (fun e => second (BitVec.eq_of_toNat_eq e)) aligned
  rw [upOp_upOp _ _ (f := lanesGone place) _ fun _ => rfl] at performs
  let g1 := upOp (issuedGroup s g i (atomsOp aop t m) [x] dests) s.fresh (performed place ws)
  obtain ⟨g', completes, access, ops⟩ := afterRun_completed (v := w.putGroup s.cur g1) (i := i) (dests := dests) (place := place) (ws := ws) h rfl one
    (by simp [g1])
  refine ⟨g', ?_, access, _, ops, one, rfl, rfl, rfl⟩
  have landed := performs.trans (State.putGroup_putGroup w s.cur _ g1)
  rw [runs, landed, completes, State.putGroup_putGroup]

/-- The order of the type as the statement writes it. -/
theorem leWord_toNat (t : BitVec 3) :
    leWord t.toNat = fun x y => if t = 0 then decide (x.toInt ≤ y.toInt) else decide (x.toNat ≤ y.toNat) := by
  funext x y
  exact if_congr ⟨fun e => BitVec.eq_of_toNat_eq e, fun e => by rw [e]; rfl⟩ rfl rfl

end

end Sys2Proof.Laws.OwnAtomics

namespace Sys2Proof
open Machine Laws.OwnAtomics

/-- Settles O29: the one lane performs as ATOMS issues, the word in its stash becomes `update` of the old one and the lane's operands, and the
operation is complete with the old word for the lane's register. -/
theorem stashAtomicUpdates : Obligations.StashAtomicUpdates := by
  intro s g aop t m l hs order tx fly late fresh fabric counters room unbound units lane hop ht hd off small inside aligned place old v v2 le new
  have now : AtomsAtOnce s g m :=
    ⟨order, ⟨late, tx, fun o ho => by simpa using List.any_eq_false.1 fly o ho⟩, fresh, fabric, counters, unbound, units⟩
  have lt : l < 64 := lt_of_mem_lanesOf (lane ▸ List.mem_singleton_self l : l ∈ lanesOf g.width (active g m.g))
  have offset : ownOff (atomsLane s g (aop = 7) m.d.toNat off l) = off := ownOff_atomsLane small
  obtain ⟨first, second⟩ := atomOperands_word ht (aop = 7) (x := atomsLane s g (aop = 7) m.d.toNat off l) (v := v) (v2 := v2)
    (atomData_word hd (aop = 7) l)
  obtain ⟨dests, issues⟩ := atoms_own hs room lane ht rfl small inside aligned (aop := aop) (t := t)
  obtain ⟨g', completes, ⟨next, ⟨vr, sr, p, exec, q, flags, -⟩, wait, -, -⟩, o, ops, ctr, stage, writes, noFlags⟩ :=
    issued_atoms now hop ht (ownLane_atomsLane small lt) (counterFor_atomsLane small aop t m) (by rw [offset]; exact aligned) first second
      (.atoms aop t m) dests
  have updated : update aop.toNat t.toNat old v v2 = new := by
    rw [update, leWord_toNat]
    rfl
  rw [offset] at completes writes
  refine ⟨_, g', issues.trans (congrArg _ completes), ?_, fun n hn => by simp [Ne.symm hn], by simp, next, vr, sr, p, exec, q, flags, wait,
    o, ops, ctr, stage, writes, noFlags⟩
  show writeBytes s.mem place (leBytes 4 (update aop.toNat t.toNat old v v2).toNat) = _
  rw [updated, leBytes_word]

end Sys2Proof

/-! ## Feed programs (R218 to R221) -/

namespace Sys2Proof.Laws.Feeding
open Machine

/-- R220: a feed word acts for the program of the selected group. -/
theorem feedWord_onFeed {i : Instr} (word : isFeedWord i = true) (s : State) : ∃ k, exec i s = onFeed s k := by
  cases i with
  | fld q t n m sh off => exact ⟨fun c g f => feedFld s c g f q t n m sh off, rfl⟩
  | flds q t n off => exact ⟨fun c g f => feedFlds s c g f q t n off, rfl⟩
  | floop n => exact ⟨fun c _ _ => s.upFeed c (feedLoop n.toNat), rfl⟩
  | floopReg n => exact ⟨fun c _ f => s.upFeed c (feedLoop ((feedReg f n).toNat % 2 ^ 32)), rfl⟩
  | fstep n x => exact ⟨fun c _ _ => s.upFeed c (feedStep n (x.signExtend 64)), rfl⟩
  | fstepReg n m => exact ⟨fun c _ f => s.upFeed c (feedStep n (feedReg f m)), rfl⟩
  | fend => exact ⟨fun c _ _ => s.upFeed c feedEnd, rfl⟩
  | fsync => exact ⟨fun c g _ => s.upFeed c (feedSync g), rfl⟩
  | _ => exact nomatch word

section
variable {s : State} {g : Group} {f : Feed}

/-- A change of the program is its new value in its place. -/
theorem upFeed_of_some {n : Nat} (hg : tblGet s.groups n = some g) (hf : g.feed = some f) (change : Feed → Feed) :
    s.upFeed n change = s.putGroup n { g with feed := some (change f) } := by
  rw [State.upFeed, State.upGroup_of_some hg, hf, Option.map_some]

section
variable (hs : Selected s g) (hf : g.feed = some f) (runs : f.running = true)
include hs hf

theorem upFeed_selected (change : Feed → Feed) :
    s.upFeed s.cur change = s.upGroup s.cur fun g => { g with feed := g.feed.map fun _ => change f } := by
  rw [upFeed_of_some hs hf, State.upGroup_of_some hs, hf, Option.map_some]

include runs

theorem onFeed_of_parked (parked : f.parked = true) (k : Nat → Group → Feed → State) : onFeed s k = .next s := by
  have hs : tblGet s.groups s.cur = some g := hs
  simp only [onFeed, hs, hf, runs, parked, if_true]

theorem onFeed_of_running (free : f.parked = false) (k : Nat → Group → Feed → State) : onFeed s k = .next (k s.cur g f) := by
  have hs : tblGet s.groups s.cur = some g := hs
  simp only [onFeed, hs, hf, runs, free, if_true, Bool.false_eq_true, if_false]

/-- R221: a parked program stands still. -/
theorem feedWord_of_parked (parked : f.parked = true) {i : Instr} (word : isFeedWord i = true) : exec i s = .next s := by
  obtain ⟨k, meaning⟩ := feedWord_onFeed word s
  rw [meaning, onFeed_of_parked hs hf runs parked]

/-- A word that only changes the program. -/
theorem onFeed_upFeed (free : f.parked = false) (change : Group → Feed → Feed → Feed) :
    (onFeed s fun c g f => s.upFeed c (change g f)) =
      .next (s.upGroup s.cur fun h => { h with feed := h.feed.map fun _ => change g f f }) := by
  rw [onFeed_of_running hs hf runs free, upFeed_selected hs hf]

end

theorem feedSync_eq (g : Group) (f : Feed) : feedSync g f = match f.syncStores with
    | none => if ∀ x ∈ f.queues, x = [] then
        (if openStores g = [] then feedGoto (f.place.pos + 1) f else { f with syncStores := some (openStores g) }) else f
    | some us => if ∀ x ∈ us, x ∉ openStores g then { feedGoto (f.place.pos + 1) f with syncStores := none } else f := by
  unfold feedSync
  cases f.syncStores with
  | none => simp
  | some us => simp [feedGoto]

/-- R221: loads that the queue has room for, at legal addresses that can be read, append their entries. -/
theorem feedLoad_of_reads {u : State} {n q size : Nat} {signed copy : Bool} {addrs : List (Nat × Nat)} {ws : List (Nat × List Word)}
    (room : (feedQueue g q).length + regsFor size ≤ 8) (legal : ∀ x ∈ addrs, feedAddrOk s g.team x.2 size = true)
    (reads : feedReads (fennelWho s n g) g.team size signed addrs s = (u, .ok ws)) :
    feedLoad s n g q size signed addrs copy = u.upFeed n (appendEntries q (laneEntries (regsFor size)
      (if copy then (List.range g.width).map fun l => (l, (ws.headD (0, [])).2) else ws))) := by
  have allLegal : addrs.all (fun x => feedAddrOk s g.team x.2 size) = true := List.all_eq_true.2 legal
  simp only [feedLoad, Nat.not_lt.2 room, if_false, allLegal, Bool.not_true, Bool.false_eq_true, reads]

end

/-- The arguments that FEED reads for a0 onward (R219). -/
def feedArgs (s : State) (g : Group) (args : BitVec 7) (na : BitVec 3) : List Word64 :=
  if args = 104 then [] else (List.range (na.toNat + 1)).map fun i => usrc64 s g 1 (args + BitVec.ofNat 7 (2 * i))

theorem feedArgs_getD (s : State) (g : Group) (args : BitVec 7) (na : BitVec 3) (j : Nat) : (feedArgs s g args na).getD j 0 =
    if args ≠ 104 ∧ j ≤ na.toNat then usrc64 s g 1 (args + BitVec.ofNat 7 (2 * j)) else 0 := by
  by_cases absent : args = 104
  · rw [feedArgs, if_pos absent, if_neg fun named => named.1 absent]
    rfl
  · rw [feedArgs, if_neg absent]
    by_cases named : j ≤ na.toNat
    · simp [named, Nat.lt_succ_of_le named, show ¬ args = 104#7 from absent]
    · simp [named, Nat.lt_succ_iff.not.2 named]

section
variable {s : State} {g : Group} (hs : Selected s g) (fresh : g.captured = none) {prog args : BitVec 7} {na : BitVec 3} {qmask : BitVec 4}
include hs fresh

/-- R219: a program stands at a multiple of 4. Log entry 41. -/
theorem feed_misaligned (odd : (usrc64 s g 0 prog).toNat % 4 ≠ 0) :
    exec (.feed prog args na qmask) s = .next (trapAt (stopFeed s s.cur) s.cur 0x12 (laddr 0 (usrc64 s g 0 prog))) := by
  show execFeed prog args na qmask s = _
  rw [execFeed, onGroup_of_some hs]
  simp only [operands, fresh, Option.getD_none, List.headD_cons, if_pos odd]

variable (aligned : (usrc64 s g 0 prog).toNat % 4 = 0)
include aligned

/-- R219, R220: a word that breaks R220. -/
theorem feed_illegal {u : State} {n : Nat} (scan : scanProgram g (fennelWho s s.cur g) (usrc64 s g 0 prog).toNat qmask.toNat 64 0 0
    (stopFeed s s.cur) = (u, .error (.word n))) : exec (.feed prog args na qmask) s = .next (trapAt u s.cur 0x06 (small n)) := by
  show execFeed prog args na qmask s = _
  rw [execFeed, onGroup_of_some hs]
  simp only [operands, fresh, Option.getD_none, List.headD_cons, aligned, ne_eq, not_true, if_false, scan]

theorem feed_starts {u : State} {ws : List Word} (scan : scanProgram g (fennelWho s s.cur g) (usrc64 s g 0 prog).toNat qmask.toNat 64 0 0
    (stopFeed s s.cur) = (u, .ok ws)) : exec (.feed prog args na qmask) s = .next (u.upGroup s.cur fun h => advance 2
      { h with feed := some (freshFeed (usrc64 s g 0 prog) ws qmask.toNat (feedArgs s g args na) (s.clock + 1)) }) := by
  show execFeed prog args na qmask s = _
  rw [execFeed, onGroup_of_some hs]
  simp only [operands, fresh, Option.getD_none, List.headD_cons, List.tail_cons, aligned, ne_eq, not_true, if_false, scan, feedArgs]

end

/-- Every address register of a program at its start (R219). -/
theorem freshFeed_reg (prog : Word64) (ws : List Word) (qmask : Nat) (args : List Word64) (since : Nat) {j : Nat} (hj : j < 8) :
    (freshFeed prog ws qmask args since).place.a.getD j 0 = args.getD j 0 := by
  simp [freshFeed, hj]

theorem freshFeed_queue (prog : Word64) (ws : List Word) (qmask : Nat) (args : List Word64) (since : Nat) {j : Nat} (hj : j < 4) :
    (freshFeed prog ws qmask args since).queues.getD j [] = [] := by
  interval_cases j <;> rfl

/-! ### Fennel's events (R221, R300) -/

/-- The oldest entry whose load has not returned is the next to be present. -/
theorem arriveFirst_append {xs : List FeedEntry} (present : ∀ x ∈ xs, x.present = true) {e : FeedEntry} (absent : e.present = false)
    (ys : List FeedEntry) : arriveFirst (xs ++ e :: ys) = xs ++ { e with present := true } :: ys := by
  induction xs with
  | nil => simp [arriveFirst, absent]
  | cons x xs ih =>
    obtain ⟨here, rest⟩ := List.forall_mem_cons.1 present
    simp [arriveFirst, here, ih rest]

@[simp] theorem noteFed_groups (s : State) (n : Nat) : (noteFed s n).groups = s.groups := by
  unfold noteFed
  split
  · rfl
  · simp

theorem serveWord_fstep {s : State} {n : Nat} {g : Group} {f : Feed} {i : BitVec 3} {x : BitVec 21}
    (word : decodeFeed (f.words.getD f.place.pos 0).toNat = .ok (.fstep i x)) :
    serveWord s n g f = s.upFeed n (feedStep i (x.signExtend 64)) := by
  simp only [serveWord, word]

/-- R221: at its turn a program has its next word run. -/
theorem fennelServe_eq {s : State} {n : Nat} {g : Group} {f : Feed} (hg : tblGet s.groups n = some g) (hf : g.feed = some f) :
    exec (.fennelServe n) s = .next (if feedTurn s n = true then serveWord (noteFed s n) n g f else s) := by
  show execFennelServe n s = _
  simp only [execFennelServe, hg, hf]

theorem feedLoadReturn_eq {s : State} {n : Nat} {g : Group} {f : Feed} (hg : tblGet s.groups n = some g) (hf : g.feed = some f) (j : Nat) :
    exec (.feedLoadReturn n j) s = .next (s.putGroup n { g with feed := some { f with
      queues := f.queues.set j (arriveFirst (f.queues.getD j [])) } }) :=
  congrArg Host.Outcome.next (upFeed_of_some hg hf _)

end Sys2Proof.Laws.Feeding

namespace Sys2Proof
open Machine Laws.Feeding

/-- Settles O37: a parked program stands still; FLOOP, FSTEP, FEND and FSYNC change the program alone, and the loads append what they read. -/
theorem feedWordsRun : Obligations.FeedWordsRun := by
  intro s g f hs hf runs put at_ loop reg step
  refine ⟨fun parked i word => feedWord_of_parked hs hf runs parked word, fun free => ?_⟩
  have changes (change : Group → Feed → Feed → Feed) : (onFeed s fun c g f => s.upFeed c (change g f)) = put (change g f f) :=
    onFeed_upFeed hs hf runs free change
  refine ⟨fun n => changes fun _ _ => feedLoop n.toNat, fun n => changes fun _ f => feedLoop ((feedReg f n).toNat % 2 ^ 32),
    fun n x => changes fun _ _ => feedStep n (x.signExtend 64), fun n m => changes fun _ f => feedStep n (feedReg f m),
    changes fun _ _ => feedEnd, ?sync, fun q t n m sh off => ?loads⟩
  case sync =>
    intro stores
    have same : stores = openStores g := congrArg (List.map _) (List.filter_congr fun o _ => (beq_eq_decide _ _).symm)
    refine (changes fun g _ => feedSync g).trans (congrArg put ?_)
    rw [same]
    exact feedSync_eq g f
  case loads =>
    intro size signed who a one room
    refine ⟨fun u ws legal reads => ?_, fun u x legal reads => ?_⟩
    · refine (onFeed_of_running hs hf runs free fun c g f => feedFld s c g f q t n m sh off).trans (congrArg _ ?_)
      exact feedLoad_of_reads room (List.forall_mem_map.2 fun l hl => legal l (List.mem_range.1 hl)) reads
    · refine (onFeed_of_running hs hf runs free fun c g f => feedFlds s c g f q t n off).trans (congrArg _ ?_)
      exact feedLoad_of_reads room (List.forall_mem_singleton.2 legal) reads

/-- Settles O36: FEED by what stands at the program's address, with the registers and queues of the program that starts. -/
theorem feedStartsAndStops : Obligations.FeedStartsAndStops := by
  intro s g hs fresh stopped
  refine ⟨onGroup_of_some hs _, fun prog args na qmask => ⟨feed_misaligned hs fresh, fun aligned u n scan => feed_illegal hs fresh aligned scan,
    fun aligned u ws e scan he => ?_⟩⟩
  exact ⟨freshFeed _ ws _ (feedArgs s g args na) _, feed_starts hs fresh aligned scan, rfl, rfl, rfl, rfl, rfl, rfl, rfl,
    fun j hj => freshFeed_queue _ _ _ _ _ hj,
    fun j hj => (freshFeed_reg _ _ _ _ _ hj).trans (feedArgs_getD s g args na j)⟩

end Sys2Proof

/-! ## Quartets: their rendezvous, and the engine's queues (R194 to R199) -/

namespace Sys2Proof.Laws.Quartets
open Machine

/-! ### Tables -/

theorem tblGet_foldl_tblUp {α : Type} (f : α → α) (j : Nat) : ∀ (ns : List Nat) (t : Table α), ns.Nodup →
    tblGet (ns.foldl (fun t n => tblUp t n f) t) j = if j ∈ ns then (tblGet t j).map f else tblGet t j
  | [], _, _ => by simp
  | n :: ns, t, once => by
    obtain ⟨fresh, once⟩ := List.nodup_cons.1 once
    rw [List.foldl_cons, tblGet_foldl_tblUp f j ns _ once, tblGet_tblUp]
    by_cases here : n = j
    · subst here
      simp [fresh]
    · simp [here, Ne.symm here]

/-- The first entry that has a property is still the first once it takes a value that has it. -/
theorem tblFind_tblSet {α : Type} {p : Nat → α → Bool} {k : Nat} {v : α} (has : p k v = true) :
    ∀ {t : Table α}, (tblFind t p).map (·.1) = some k → (tblFind (tblSet t k v) p).map (·.1) = some k
  | [], found => by simp [tblFind] at found
  | (j, x) :: t, found => by
    by_cases first : p j x = true
    · have here : j = k := by simpa [tblFind, first] using found
      simp [here, tblSet, tblFind, has]
    · have later : (tblFind t p).map (·.1) = some k := by simpa [tblFind, first] using found
      have kept := tblFind_tblSet has later
      unfold tblSet
      split_ifs
      · simp [tblFind, has]
      · simp [tblFind, has]
      · simpa [tblFind, first] using kept

theorem mem_tblSet {α : Type} {k : Nat} {v : α} {e : Nat × α} : ∀ {t : Table α}, e ∈ tblSet t k v → e = (k, v) ∨ e ∈ t
  | [], h => .inl (by simpa [tblSet] using h)
  | (j, x) :: t, h => by
    unfold tblSet at h
    split_ifs at h
    · simpa using h
    · rcases List.mem_cons.1 h with h | h
      · exact .inl h
      · exact .inr (List.mem_cons_of_mem _ h)
    · rcases List.mem_cons.1 h with h | h
      · exact .inr (h ▸ List.mem_cons_self)
      · exact (mem_tblSet h).imp_right (List.mem_cons_of_mem _)

/-! ### The members and the queue of a quartet -/

section
variable (s : State) (team k : Nat)

theorem upMembers_eq (f : Group → Group) :
    s.upMembers team k f = { s with groups := (quartetGroups s team k).foldl (fun t n => tblUp t n f) s.groups } := by
  have all : ∀ (ns : List Nat) (s : State), ns.foldl (fun s n => s.upGroup n f) s =
      { s with groups := ns.foldl (fun t n => tblUp t n f) s.groups } := by
    intro ns
    induction ns with
    | nil => exact fun s => rfl
    | cons n ns ih =>
      intro s
      rw [List.foldl_cons, ih]
      rfl
  exact all _ s

@[simp] theorem upMembers_fields (f : Group → Group) : (s.upMembers team k f).teams = s.teams ∧ (s.upMembers team k f).mem = s.mem ∧
    (s.upMembers team k f).cores = s.cores ∧ (s.upMembers team k f).cur = s.cur ∧ (s.upMembers team k f).fresh = s.fresh := by
  simp only [upMembers_eq, and_self]

@[simp] theorem upQuartet_fields (f : Quartet → Quartet) :
    (s.upQuartet team k f).teams = tblUp s.teams team (fun t => { t with quartets := tblUp t.quartets k f }) ∧
    (s.upQuartet team k f).groups = s.groups ∧ (s.upQuartet team k f).mem = s.mem ∧ (s.upQuartet team k f).cores = s.cores ∧
    (s.upQuartet team k f).cur = s.cur ∧ (s.upQuartet team k f).fresh = s.fresh := by
  simp [State.upQuartet]

theorem quartetAt_congr {s u : State} (same : u.teams = s.teams) (team k : Nat) : quartetAt u team k = quartetAt s team k := by
  simp only [quartetAt, same]

theorem quartetGroups_congr {s u : State} {team : Nat} (same : (tblGet u.teams team).map (·.groups) = (tblGet s.teams team).map (·.groups))
    (k : Nat) : quartetGroups u team k = quartetGroups s team k := by
  simp only [quartetGroups, same]

@[simp] theorem quartetAt_upMembers (f : Group → Group) (j : Nat) : quartetAt (s.upMembers team k f) team j = quartetAt s team j :=
  quartetAt_congr (by simp) team j

@[simp] theorem quartetAt_upGroup (n : Nat) (f : Group → Group) : quartetAt (s.upGroup n f) team k = quartetAt s team k :=
  quartetAt_congr (by simp) team k

@[simp] theorem quartetAt_upQuartet (f : Quartet → Quartet) : quartetAt (s.upQuartet team k f) team k = (quartetAt s team k).map f := by
  simp only [quartetAt, upQuartet_fields, tblGet_tblUp, if_true]
  cases tblGet s.teams team with
  | none => rfl
  | some t => simp

@[simp] theorem quartetGroups_upQuartet (f : Quartet → Quartet) (j : Nat) :
    quartetGroups (s.upQuartet team k f) team j = quartetGroups s team j := by
  refine quartetGroups_congr ?_ j
  simp only [upQuartet_fields, tblGet_tblUp, if_true, Option.map_map]
  rfl

@[simp] theorem quartetGroups_upMembers (f : Group → Group) (j : Nat) :
    quartetGroups (s.upMembers team k f) team j = quartetGroups s team j :=
  quartetGroups_congr (by simp) j

@[simp] theorem quartetGroups_upGroup (n : Nat) (f : Group → Group) : quartetGroups (s.upGroup n f) team k = quartetGroups s team k :=
  quartetGroups_congr (by simp) k

end

/-! ### The rendezvous (R194 to R196, R199, R200) -/

/-- The instructions that meet at the latch (R194). -/
def IsMatrix : Instr → Prop
  | .accz .. | .setrt .. | .mma .. | .mmaLong .. | .accld .. | .accst .. | .accepi .. | .accepiSend .. | .mxsave .. | .mxres ..
  | .hadt .. | .qblk .. | .dqblk .. => True
  | _ => False

theorem exec_of_isMatrix {i : Instr} (h : IsMatrix i) (s : State) : exec i s = arriveMtx i s := by
  cases i with
  | accz _ | setrt _ _ | mma _ _ _ _ _ _ _ _ | mmaLong _ _ _ _ _ _ _ _ _ _ | accld _ _ _ _ | accst _ _ _ _ _ | accepi _ _ _ _ _ _ _ _ _
  | accepiSend _ _ _ _ _ _ _ _ | mxsave _ | mxres _ | hadt _ _ _ _ | qblk _ _ _ _ _ | dqblk _ _ _ _ => rfl
  | _ => exact h.elim

theorem mxBarred_iff (t : Team) (g : Group) : mxBarred t g = true ↔
    ¬ (64 ≤ g.width ∧ t.tiles = true ∧ 4 * (g.grpid / 4) + 4 ≤ t.groups.length ∧ g.handler = false) := by
  simp only [mxBarred, Bool.or_eq_true, decide_eq_true_eq, Bool.not_eq_true', not_and_or, Nat.not_le, Bool.not_eq_true, Bool.not_eq_false,
    or_assoc, mul_comm 4 (g.grpid / 4)]

theorem abandoned_eq_some {q : Quartet} {m : Nat} (seat : m < 4) (lost : m ∈ q.lost) (lowest : ∀ j, j < m → j ∉ q.lost) :
    abandoned q = some m := by
  rw [abandoned, List.find?_range_eq_some]
  exact ⟨by simpa using lost, by simpa using seat, fun j below => by simpa using lowest j below⟩

theorem abandoned_eq_none {q : Quartet} (whole : ∀ m, m < 4 → m ∉ q.lost) : abandoned q = none := by
  rw [abandoned, List.find?_eq_none]
  exact fun m seat => by simpa using whole m (List.mem_range.1 seat)

/-- The state in which a group has come to the latch, which then holds `latch`. -/
def arrived (s : State) (g : Group) (latch : Table Word64) : State :=
  (s.upQuartet g.team (g.grpid / 4) fun q => { q with latch := latch }).upGroup s.cur fun g => { g with wait := .rendezvous }

theorem quartetAt_of_some {s : State} {team k : Nat} {t : Team} {q : Quartet} (ht : tblGet s.teams team = some t)
    (hq : tblGet t.quartets k = some q) : quartetAt s team k = some q := by
  simp [quartetAt, ht, hq]

theorem upQuartet_congr {s : State} {team k : Nat} {t : Team} {q : Quartet} (ht : tblGet s.teams team = some t)
    (hq : tblGet t.quartets k = some q) {f f' : Quartet → Quartet} (same : f q = f' q) : s.upQuartet team k f = s.upQuartet team k f' := by
  simp only [State.upQuartet, State.upTeam, tblUp_of_some ht, tblUp_of_some hq, same]

section
variable {s : State} {g : Group} {t : Team} {q : Quartet} (hs : Selected s g) (ht : tblGet s.teams g.team = some t)
  (hq : tblGet t.quartets (g.grpid / 4) = some q)
include ht hq

theorem quartetAt_arrived (latch : Table Word64) :
    quartetAt (arrived s g latch) g.team (g.grpid / 4) = some { q with latch := latch } := by
  simp [arrived, quartetAt_of_some ht hq]

variable (i : Instr)
include hs

/-- R195. -/
theorem arriveMtx_of_barred (barred : mxBarred t g = true) : arriveMtx i s = .next (trapAt s s.cur 0x20 0) := by
  rw [arriveMtx, onGroup_of_some hs]
  simp only [teamOf, ht, quartetAt_of_some ht hq, barred, if_true]

variable (may : mxBarred t g = false)
include may

/-- R196. -/
theorem arriveMtx_of_abandoned {m : Nat} (lost : abandoned q = some m) : arriveMtx i s = .next (trapAt s s.cur 0x22 (small m)) := by
  rw [arriveMtx, onGroup_of_some hs]
  simp only [teamOf, ht, quartetAt_of_some ht hq, may, Bool.false_eq_true, if_false, lost]

theorem arriveMtx_of_whole (whole : abandoned q = none) : arriveMtx i s =
    .next (meet (arrived s g (tblSet q.latch (g.grpid % 4) (wordsOf i))) g.team (g.grpid / 4)) := by
  rw [arriveMtx, onGroup_of_some hs]
  simp only [teamOf, ht, quartetAt_of_some ht hq, may, Bool.false_eq_true, if_false, whole]
  rw [upQuartet_congr ht hq (f' := fun q' => { q' with latch := tblSet q.latch (g.grpid % 4) (wordsOf i) }) rfl]
  rfl

end

section
variable {v : State} {team k : Nat} {q : Quartet} (hq : quartetAt v team k = some q)
include hq

/-- R196: before the fourth word the latch waits. -/
theorem meet_of_short (short : q.latch.length ≠ 4) : meet v team k = v := by
  unfold meet
  simp only [hq]
  split
  · next four => exact absurd (by rw [four]; rfl) short
  · rfl

variable {lead : Group} {i : Instr} {w : Word64} (same : q.latch = [(0, w), (1, w), (2, w), (3, w)])
  (decoded : decodeWords (w.toNat % 2 ^ 32) (w.toNat / 2 ^ 32) = .ok i)
  (first : (quartetGroups v team k).head?.bind (tblGet v.groups) = some lead) (may : mayMeet v team k q i = true)

/-- The operation that four words make when they meet, with the operands of member 0. -/
def metOp (v : State) (team k : Nat) (lead : Group) (i : Instr) : MxOp :=
  { uid := v.fresh, instr := i, vals := operands lead (mxVals v lead i), a := issueA v team k i }

/-- The state in which an operation is under check. -/
def underCheck (v : State) (team k : Nat) (o : MxOp) : State :=
  (({ v with fresh := v.fresh + 1 }).upQuartet team k fun q => { q with latch := [], checking := some o }).upMembers team k fun g =>
    { g with wait := .matrixCheck }

/-- A cause that needs no memory stands against the operation (R200). -/
def failsAtOnce (v : State) (team : Nat) (q : Quartet) (o : MxOp) : Bool :=
  ((tblGet v.teams team).map fun t => (lowestCause (mxCauses v team t q o)).isSome).getD false

theorem quartetAt_underCheck (o : MxOp) : quartetAt (underCheck v team k o) team k = some { q with latch := [], checking := some o } := by
  rw [underCheck, quartetAt_upMembers, quartetAt_upQuartet, show quartetAt { v with fresh := v.fresh + 1 } team k = some q from hq]
  rfl

include same decoded first may

/-- Four words that may issue go under check; one that reads no memory, or has a cause that needs none, is made at once (R196, R299). -/
theorem meet_of_same : meet v team k =
    if slowCheck (metOp v team k lead i) && !failsAtOnce v team q (metOp v team k lead i) then underCheck v team k (metOp v team k lead i)
    else runCheck (underCheck v team k (metOp v team k lead i)) team k (metOp v team k lead i) := by
  unfold meet
  simp only [hq, same, ne_eq, not_true, or_self, if_false, decoded, first, may, if_true]
  cases ht : tblGet v.teams team with
  | none =>
    simp only [failsAtOnce, ht, Option.map_none, Option.getD_none]
    rfl
  | some t =>
    simp only [failsAtOnce, ht, Option.map_some, Option.getD_some]
    rfl

end

theorem failsAtOnce_eq_false {v : State} {team : Nat} {q : Quartet} {o : MxOp}
    (passes : ∀ t, tblGet v.teams team = some t → lowestCause (mxCauses v team t q o) = none) : failsAtOnce v team q o = false := by
  unfold failsAtOnce
  cases ht : tblGet v.teams team with
  | none => rfl
  | some t => simp [passes t ht]

theorem mayMeet_of_room {v : State} {team k : Nat} {q : Quartet} {i : Instr}
    (room : ∀ c, mxCounter i = some c → ∀ n ∈ quartetGroups v team k, ∀ e, tblGet v.groups n = some e → counter e c.ident < 63)
    (unchecked : q.checking = none) (noLong : (∃ a, i = .mxsave a) ∨ ∀ o ∈ q.ops, isLongMma o.instr = false) :
    mayMeet v team k q i = true := by
  have notFull : ∀ c, mxCounter i = some c →
      ((quartetGroups v team k).any fun n => ((tblGet v.groups n).map fun g => counterFull g c).getD false) = false := by
    intro c hc
    rw [List.any_eq_false]
    intro n hn
    cases he : tblGet v.groups n with
    | none => simp
    | some e => simp [counterFull_eq_false (room c hc n hn e he)]
  have noneLong : (∀ o ∈ q.ops, isLongMma o.instr = false) → (q.ops.any fun o => isLongMma o.instr) = false :=
    fun h => List.any_eq_false.2 fun o ho => by simp [h o ho]
  unfold mayMeet
  rcases noLong with ⟨a, rfl⟩ | noLong
  · have room' := notFull .mx rfl
    simp [mxCounter, room', unchecked]
  · cases hc : mxCounter i with
    | none => simp [unchecked, noneLong noLong]
    | some c => simp [notFull c hc, unchecked, noneLong noLong]

theorem runCheck_of_ok {u u' : State} {team k : Nat} {o o' : MxOp} (passes : checkMtx u team k o = (u', .ok o')) :
    runCheck u team k o = acceptMtx u' team k o.instr o' := by
  simp only [runCheck, passes, endCheck]

/-- MATRIX_CHECK_END of an operation that is not parked at a page fault (R200). -/
theorem matrixCheckEnd_of_checking {u : State} {team k : Nat} {q : Quartet} {o : MxOp} (hq : quartetAt u team k = some q)
    (checking : q.checking = some o) (unparked : q.checkRec = none) : exec (.matrixCheckEnd team k) u = .next (runCheck u team k o) := by
  show execMatrixCheckEnd team k u = _
  simp only [execMatrixCheckEnd, hq, checking, unparked]

end Sys2Proof.Laws.Quartets

namespace Sys2Proof
open Machine Laws.Quartets

/-- Settles O34: the arrival by whether the group may issue, whether the quartet is whole, and whether it is the fourth; the four words then go
under check, and a check that passes accepts the operation. -/
theorem matrixInstructionsMeet : Obligations.MatrixInstructionsMeet := by
  intro s g lead t q i hs ht k hq matrix may w latch v
  have arrives : exec i s = arriveMtx i s := exec_of_isMatrix (i := i) matrix s
  have allowed (h : may) : mxBarred t g = false := Bool.eq_false_iff.2 fun barred => (mxBarred_iff t g).1 barred h
  have meets (h : may) (whole : ∀ m, m < 4 → m ∉ q.lost) : exec i s = .next (meet v g.team k) :=
    arrives.trans (arriveMtx_of_whole hs ht hq i (allowed h) (abandoned_eq_none whole))
  have stands : quartetAt v g.team k = some { q with latch := latch } := quartetAt_arrived ht hq latch
  refine ⟨fun barred => arrives.trans (arriveMtx_of_barred hs ht hq i ((mxBarred_iff t g).2 barred)),
    fun h m seat lost lowest => arrives.trans (arriveMtx_of_abandoned hs ht hq i (allowed h) (abandoned_eq_some seat lost lowest)),
    fun h whole early => by rw [meets h whole, meet_of_short stands early],
    fun h whole four decoded first room unchecked noLong => ?_⟩
  intro o u
  have met : meet v g.team k = if slowCheck o && !failsAtOnce v g.team { q with latch := latch } o then u else runCheck u g.team k o :=
    meet_of_same stands four decoded first (mayMeet_of_room room unchecked noLong)
  refine ⟨fun quick u' o' passes => ?_, fun slow clear => ⟨?_, fun unparked u' o' passes => ?_⟩⟩
  · rw [meets h whole, met, quick, Bool.false_and, if_neg Bool.false_ne_true, runCheck_of_ok passes]
  · rw [meets h whole, met, slow, failsAtOnce_eq_false clear]
    rfl
  · have under : quartetAt u g.team k = some { q with latch := [], checking := some o } := quartetAt_underCheck stands o
    rw [matrixCheckEnd_of_checking under rfl unparked, runCheck_of_ok passes]

end Sys2Proof

/-! ## The engine's queues and passes (R198, R204 to R209, R213) -/

namespace Sys2Proof.Laws.Engine
open Machine Laws.Quartets

/-! ### What stays in a quartet's queue (R198) -/

section
variable {s : State} {team k : Nat} {t : Team} {q : Quartet}

/-- A quartet whose queue is empty, or that the team has not, performs nothing. -/
theorem drainQuartet_of_idle (ht : tblGet s.teams team = some t) (idle : ∀ q, tblGet t.quartets k = some q → q.ops = []) (fuel : Nat) :
    drainQuartet team k fuel s = s := by
  cases fuel with
  | zero => rfl
  | succ fuel =>
    have there : quartetAt s team k = tblGet t.quartets k := by simp [quartetAt, ht]
    unfold drainQuartet
    simp only [ht, there]
    cases hq : tblGet t.quartets k with
    | none => rfl
    | some q => simp only [idle q hq]

/-- An MMA behind which nothing waits is not stopped. -/
theorem drainQuartet_of_mma (hq : quartetAt s team k = some q) {o : MxOp} (alone : q.ops = [o]) (mma : isMma o.instr = true) (fuel : Nat) :
    drainQuartet team k fuel s = s := by
  cases fuel with
  | zero => rfl
  | succ fuel =>
    unfold drainQuartet
    split
    · next t' q' _ hq' =>
      obtain rfl : q = q' := Option.some.inj (hq.symm.trans hq')
      simp only [alone, mma, if_true]
    · rfl

/-- While another quartet is in the middle of a tile step, none performs. -/
theorem drainQuartet_of_midStep (ht : tblGet s.teams team = some t) {j : Nat} (mid : midStep t = some j) (other : j ≠ k) (fuel : Nat) :
    drainQuartet team k fuel s = s := by
  cases fuel with
  | zero => rfl
  | succ fuel =>
    have elsewhere : ((midStep t).getD k == k) = false := by simpa [mid] using other
    have busy : (midStep t).isSome = true := by simp [mid]
    unfold drainQuartet
    simp only [ht]
    cases quartetAt s team k with
    | none => rfl
    | some q =>
      cases hops : q.ops with
      | nil => simp only [hops]
      | cons o rest =>
        by_cases mma : isMma o.instr = true
        · cases rest with
          | nil => simp only [hops, mma, if_true]
          | cons m rest =>
            simp only [hops, mma, if_true, elsewhere, Bool.and_false, Bool.false_eq_true, if_false]
            split <;> rfl
        · simp only [hops, mma, Bool.false_eq_true, if_false, busy, if_true]

end

theorem drainTeam_of_still {s : State} {team : Nat} (still : ∀ k, drainQuartet team k 64 s = s) : drainTeam s team = s := by
  have once : drainQuartets s team = s := by
    unfold drainQuartets
    generalize tblKeys _ = ks
    induction ks with
    | nil => rfl
    | cons k ks ih => rw [List.foldl_cons, still, ih]
  rw [drainTeam, once, once]

/-- A team in the middle of a tile step whose MMA no MXSAVE stops goes on with it. -/
theorem drainTeam_of_midStep {s : State} {team k : Nat} {t : Team} {q : Quartet} {o : MxOp} (ht : tblGet s.teams team = some t)
    (hq : tblGet t.quartets k = some q) (alone : q.ops = [o]) (mma : isMma o.instr = true) (mid : midStep t = some k) :
    drainTeam s team = s := by
  refine drainTeam_of_still fun j => ?_
  by_cases here : j = k
  · rw [here]
    exact drainQuartet_of_mma (quartetAt_of_some ht hq) alone mma 64
  · exact drainQuartet_of_midStep ht mid (Ne.symm here) 64

/-- Where only one quartet has something to perform, it performs that, and the others leave everything as it then stands. -/
theorem drainTeam_of_one {s u : State} {team k : Nat} {t : Team} (ht : tblGet s.teams team = some t) (named : k ∈ tblKeys t.quartets)
    (others : ∀ j, j ≠ k → drainQuartet team j 64 s = s) (performs : drainQuartet team k 64 s = u)
    (still : ∀ j, drainQuartet team j 64 u = u) : drainTeam s team = u := by
  have rest : ∀ ks : List Nat, ks.foldl (fun s k => drainQuartet team k 64 s) u = u := by
    intro ks
    induction ks with
    | nil => rfl
    | cons j ks ih => rw [List.foldl_cons, still, ih]
  have all : ∀ ks : List Nat, k ∈ ks → ks.foldl (fun s k => drainQuartet team k 64 s) s = u := by
    intro ks
    induction ks with
    | nil => exact fun h => nomatch h
    | cons j ks ih =>
      intro h
      rw [List.foldl_cons]
      by_cases here : j = k
      · rw [here, performs, rest]
      · rw [others j here]
        exact ih ((List.mem_cons.1 h).resolve_left (Ne.symm here))
  have first : drainQuartets s team = u := by
    rw [drainQuartets, ht]
    exact all _ named
  rw [drainTeam, first, drainQuartets]
  exact rest _

/-! ### A pass (R204) -/

theorem midStep_of_mem {t : Team} {k : Nat} {q : Quartet} {o : MxOp} (hq : tblGet t.quartets k = some q) (alone : q.ops = [o])
    (mma : isMma o.instr = true) (begun : o.b.isSome = true) (turn : nextPass t = some k) : midStep t = some k := by
  cases mid : midStep t with
  | some j =>
    rw [nextPass, mid] at turn
    exact turn
  | none =>
    have found : (tblFind t.quartets fun _ q => (q.ops.head?.map fun o => isMma o.instr && o.b.isSome).getD false) = none :=
      Option.map_eq_none_iff.1 mid
    have idle := List.find?_eq_none.1 found (k, q) (mem_of_tblGet hq)
    simp [alone, mma, begun] at idle

/-- The quartet in the middle of a tile step is still in it while its operation holds its B image. -/
theorem midStep_tblSet {t t' : Team} {k : Nat} {q : Quartet} {o : MxOp} (mid : midStep t = some k) (same : t'.quartets = tblSet t.quartets k q)
    (first : q.ops = [o]) (mma : isMma o.instr = true) (begun : o.b.isSome = true) : midStep t' = some k := by
  unfold midStep
  rw [same]
  exact tblFind_tblSet (by simp [first, mma, begun]) mid

/-- What a pass that is not the last of its tile step leaves, before the engine goes on: the rows, the members' flags, the queue, and for a
long MMA the progress registers. -/
def afterPass (s : State) (team k : Nat) (o n : MxOp) (rows : Cells 32 × Fp.Flags) : State :=
  let s1 := (s.upTeam team fun t => { t with acc := rows.1, mxLast := k }).upMembers team k fun g => upOp g o.uid fun x =>
    { x with flags := x.flags ||| BitVec.ofNat 32 rows.2, err := x.err.or none }
  let s2 := s1.upQuartet team k fun q => { q with ops := n :: q.ops.drop 1 }
  if isLongMma o.instr then s2.upQuartet team k fun q => { q with mxrow := 16 * n.pass, mxcol := 64 * n.tile, mxdep := n.step } else s2

section
variable {s : State} {team k : Nat} {t : Team} {q : Quartet} {o : MxOp} (ht : tblGet s.teams team = some t) (hq : tblGet t.quartets k = some q)
  (alone : q.ops = [o])
include ht hq alone

theorem afterPass_fields (n : MxOp) (rows : Cells 32 × Fp.Flags) : ∃ q', q'.ops = [n] ∧
    tblGet (afterPass s team k o n rows).teams team = some { t with acc := rows.1, mxLast := k, quartets := tblSet t.quartets k q' } ∧
    (afterPass s team k o n rows).mem = s.mem ∧ (afterPass s team k o n rows).cores = s.cores := by
  unfold afterPass
  by_cases long : isLongMma o.instr = true
  · refine ⟨{ q with ops := [n], mxrow := 16 * n.pass, mxcol := 64 * n.tile, mxdep := n.step }, rfl, ?_⟩
    simp [long, tblUp_of_some, ht, hq, alone]
  · refine ⟨{ q with ops := [n] }, rfl, ?_⟩
    simp [long, tblUp_of_some, ht, hq, alone]

/-- R204: a pass that begins with its A and its B image, and is not the last of its tile step. -/
theorem mmaPassEnd_eq {a : AOperand} {b : Cells 8} (ha : o.a = some a) (hb : o.b = some b) (mma : isMma o.instr = true)
    (turn : nextPass t = some k) (pass : o.pass < 3) (step : o.step < mmaSteps o) (ok : Bool) :
    exec (.mmaPassEnd team k ok) s = .next (drainTeam (afterPass s team k o { o with pass := o.pass + 1, b := some b }
      (mmaPass (mmaShape o.instr).form a.bytes b t.acc ((mmaShape o.instr).tile + o.tile) o.pass)) team) := by
  show execMmaPassEnd team k ok s = _
  have image (w : Who) : imageOf s w team o = (s, b, false) := by simp only [imageOf, hb]
  have goes : nextPosition o b = { o with pass := o.pass + 1, b := some b } := if_pos pass
  have other : (decide (nextPass t ≠ some k) || !isMma o.instr) = false := by simp [turn, mma]
  simp only [execMmaPassEnd, ht, quartetAt_of_some ht hq, alone, ha, other, image, goes, Bool.false_eq_true, if_false, pass.ne, step.ne]
  rfl

end

/-- R204: a pass that is not the last of its tile step leaves sixteen rows changed and the operation at its next pass. -/
theorem mmaPassEnd_goesOn {s : State} {team k : Nat} {t : Team} {q : Quartet} {o : MxOp} {a : AOperand} {b : Cells 8}
    (ht : tblGet s.teams team = some t) (hq : tblGet t.quartets k = some q) (alone : q.ops = [o]) (ha : o.a = some a) (hb : o.b = some b)
    (mma : isMma o.instr = true) (turn : nextPass t = some k) (pass : o.pass < 3) (step : o.step < mmaSteps o) (ok : Bool) :
    ∃ u q', exec (.mmaPassEnd team k ok) s = .next u ∧ q'.ops = [{ o with pass := o.pass + 1, b := some b }] ∧
      tblGet u.teams team = some { t with
        acc := (mmaPass (mmaShape o.instr).form a.bytes b t.acc ((mmaShape o.instr).tile + o.tile) o.pass).1
        mxLast := k, quartets := tblSet t.quartets k q' } ∧
      u.mem = s.mem ∧ u.cores = s.cores := by
  have ran := mmaPassEnd_eq ht hq alone ha hb mma turn pass step ok
  obtain ⟨q', first, team', mem, cores⟩ := afterPass_fields ht hq alone { o with pass := o.pass + 1, b := some b }
    (mmaPass (mmaShape o.instr).form a.bytes b t.acc ((mmaShape o.instr).tile + o.tile) o.pass)
  have mid := midStep_of_mem hq alone mma (by simp [hb]) turn
  rw [drainTeam_of_midStep team' (by simp) first mma (midStep_tblSet mid rfl first mma rfl)] at ran
  exact ⟨_, q', ran, first, team', mem, cores⟩

/-! ### The elements that a pass leaves -/

theorem tblGet_filter {α : Type} (p : Nat → Bool) (k : Nat) : ∀ t : Table α,
    tblGet (t.filter fun e => p e.1) k = if p k = true then tblGet t k else none
  | [] => by simp
  | (j, x) :: t => by
    have ih := tblGet_filter p k t
    by_cases here : j = k
    · subst here
      by_cases kept : p j = true
      · simp [kept, tblGet]
      · simp [kept, ih]
    · by_cases kept : p j = true
      · simp [kept, tblGet, here, ih]
      · simp [kept, tblGet, here, ih]

theorem cellGet_filter {w : Nat} (p : Nat → Bool) (k : Nat) (c : Cells w) :
    cellGet (c.filter fun e => p e.1) k = if p k = true then cellGet c k else 0 := by
  unfold cellGet
  rw [tblGet_filter]
  split_ifs <;> rfl

theorem tblGet_eq_none {α : Type} {k : Nat} {t : Table α} (absent : ∀ e ∈ t, e.1 ≠ k) : tblGet t k = none := by
  cases h : tblGet t k with
  | none => rfl
  | some x => exact absurd rfl (absent _ (mem_of_tblGet h))

/-- A cell outside a range keeps its value. -/
theorem cellGet_setRange_of_outside {w : Nat} (c : Cells w) {lo n k : Nat} (f : Nat → BitVec w) (outside : k < lo ∨ lo + n ≤ k) :
    cellGet (setRange c lo n f) k = cellGet c k := by
  have inside : tblGet ((List.range n).filterMap fun i => if f i = 0 then none else some (lo + i, f i)) k = none := by
    refine tblGet_eq_none fun e he => ?_
    obtain ⟨i, hi, he⟩ := List.mem_filterMap.1 he
    have below : i < n := List.mem_range.1 hi
    split_ifs at he
    obtain rfl := Option.some.inj he
    show lo + i ≠ k
    omega
  unfold cellGet setRange
  simp only [tblGet_append, inside, tblGet_filter (fun j => decide (j < lo)) k c, tblGet_filter (fun j => decide (lo + n ≤ j)) k c,
    decide_eq_true_eq]
  rcases outside with below | above
  · have notAbove : ¬ lo + n ≤ k := by omega
    cases h : tblGet c k <;> simp [below, notAbove]
  · have notBelow : ¬ k < lo := by omega
    simp [above, notBelow]

/-- R204: pass p writes rows 16p to 16p + 15 of its tile alone. -/
theorem accGet_mmaPass_of_outside (form : MmaForm) (a b : Cells 8) (acc : Cells 32) {tile p tile' r c : Nat} (hp : p < 4) (hr : r < 64)
    (hc : c < 64) (outside : ¬ (tile' = tile ∧ r / 16 = p)) : accGet (mmaPass form a b acc tile p).1 tile' r c = accGet acc tile' r c := by
  refine congrArg BitVec.toNat (cellGet_setRange_of_outside acc _ ?_)
  unfold accCell
  omega

/-! ### The A of a step from the feed queues (R207) -/

theorem isMma_of_isLongMma {i : Instr} (long : isLongMma i = true) : isMma i = true := by
  cases i with
  | mmaLong _ _ _ _ _ _ _ _ _ _ => rfl
  | _ => exact nomatch long

section
variable {s : State} {team k : Nat} {t : Team} {q : Quartet} {o : MxOp} (ht : tblGet s.teams team = some t) (hq : tblGet t.quartets k = some q)
  (alone : q.ops = [o]) (long : isLongMma o.instr = true) (lacks : o.a = none)
include ht hq alone long lacks

theorem mmaFeedTake_of_wait (gate : takeGate s team k o.instr = .wait) : exec (.mmaFeedTake team k) s = .next s := by
  show execMmaFeedTake team k s = _
  simp only [execMmaFeedTake, quartetAt_of_some ht hq, alone, long, lacks, gate, Option.isSome_none, Bool.not_true, Bool.or_self,
    Bool.false_eq_true, if_false]

/-- The entries leave, and the operation holds their A. -/
theorem mmaFeedTake_takes (idle : ∀ e ∈ t.quartets, e.1 ≠ k → e.2.ops = []) (gate : takeGate s team k o.instr = .all) :
    ∃ u q', exec (.mmaFeedTake team k) s = .next u ∧ q'.ops = [{ o with a := some (takeA s team k o.instr) }] ∧
      tblGet u.teams team = some { t with quartets := tblSet t.quartets k q' } ∧ u.mem = s.mem := by
  let o' : MxOp := { o with a := some (takeA s team k o.instr) }
  let u : State := (s.upMembers team k (popTaken o.instr)).upQuartet team k fun q => { q with ops := o' :: q.ops.drop 1 }
  have team' : tblGet u.teams team = some { t with quartets := tblSet t.quartets k { q with ops := [o'] } } := by
    simp [u, ht, tblUp_of_some hq, alone]
  have still : ∀ j, drainQuartet team j 64 u = u := by
    intro j
    by_cases here : k = j
    · subst here
      exact drainQuartet_of_mma (o := o') (quartetAt_of_some team' (by simp; rfl)) rfl (isMma_of_isLongMma long) 64
    · exact drainQuartet_of_idle team' (fun p hp => idle _ (mem_of_tblGet (by simpa [here] using hp)) (Ne.symm here)) 64
  refine ⟨u, _, ?_, rfl, team', by simp [u]⟩
  show execMmaFeedTake team k s = _
  simp only [execMmaFeedTake, quartetAt_of_some ht hq, alone, long, lacks, gate, Option.isSome_none, Bool.not_true, Bool.or_self,
    Bool.false_eq_true, if_false]
  exact congrArg Host.Outcome.next (drainTeam_of_still still)

end

/-! ### Sends and copies (R178, R214, R256, R257) -/

section
variable {s : State} {n m : Nat} {d : Send} {g : Group} {o : Op} (hd : tblGet s.sends n = some d)
  (first : (quartetGroups s d.team d.quartet).head? = some m) (hg : tblGet s.groups m = some g) (ho : findOp g d.op = some o)
include hd first hg ho

theorem sendFlagUpdate_early (early : s.clock / 4 < o.engC + 2) : exec (.sendFlagUpdate n) s = .next s := by
  have unseen : passes s o.engC = false := decide_eq_false (Nat.not_le.2 early)
  show execSendFlagUpdate n s = _
  simp only [execSendFlagUpdate, hd, first, Option.bind_some, hg, ho, unseen, Bool.not_false, if_true]

/-- R214: the flag of a sent tile rises once the tile's bytes are visible on its die. -/
theorem sendFlagUpdate_raises (visible : o.engC + 2 ≤ s.clock / 4) {u v : State} {b : NameBind} {r : Nat × Nat}
    (name : resolveName { s with sends := tblErase s.sends n } (engineOf s d.team d.quartet d.op) d.name = (u, .ok b))
    (adds : engAdd u { engineOf s d.team d.quartet d.op with site := b.site, core := none, tray := none } d.addr.toNat 1 = (v, .ok r)) :
    exec (.sendFlagUpdate n) s = .next (noteDone v d.team d.quartet d.op { ctime := r.2 }) := by
  have seen : passes s o.engC = true := decide_eq_true visible
  show execSendFlagUpdate n s = _
  simp only [execSendFlagUpdate, hd, first, Option.bind_some, hg, ho, seen, Bool.not_true, Bool.false_eq_true, if_false, name, adds]

end

section
variable {s : State} {n : Nat} {g : Group} (hg : tblGet s.groups n = some g)
include hg

theorem copyErrorStop_stops {c : Copy} (hc : findCopy g c.uid = some c) (probed : c.probed = true) (runs : c.done = false) (good : c.err = none)
    (left : c.offset < c.total) (x : BitVec 8) : exec (.copyErrorStop n c.uid x) s = .next (stopCopy s n c.uid c.offset) := by
  show execCopyErrorStop n c.uid x s = _
  simp [execCopyErrorStop, hg, hc, probed, runs, good, left]

theorem barrierPendLower_copy {c : Nat} (noOp : findOp g c = none) (k : Nat) :
    exec (.barrierPendLower n c k) s = .next (dropEnded (moveCopy (attributeBytes s n c) n c k) n c) := by
  show execBarrierPendLower n c k s = _
  simp only [execBarrierPendLower, hg, Option.bind_some, noOp]

theorem barrierPendLower_multicast {o : Op} (ho : findOp g o.uid = some o) (k : Nat) :
    exec (.barrierPendLower n o.uid k) s = .next (lowerMulticast s n o.uid o) := by
  show execBarrierPendLower n o.uid k s = _
  simp only [execBarrierPendLower, hg, Option.bind_some, ho]

end

end Sys2Proof.Laws.Engine

namespace Sys2Proof
open Machine Laws.Quartets Laws.Feeding Laws.Engine

/-- Settles O55: a pass and what it writes, the A of the next step, an entry that arrives, Fennel's turn, and the events of sends and copies. -/
theorem enginesGoOn : Obligations.EnginesGoOn := by
  intro s
  refine ⟨fun team k t q o a b ok ht hq alone ha hb mma turn pass step => ?pass,
    fun form a b acc tile p tile' r c hp hr hc outside => accGet_mmaPass_of_outside form a b acc hp hr hc outside,
    fun team k t q o ht hq alone long lacks idle => ⟨mmaFeedTake_of_wait ht hq alone long lacks, fun gate => ?take⟩,
    fun n g f j hg hf => feedLoadReturn_eq hg hf j, fun xs ys e present absent => arriveFirst_append present absent ys,
    fun n g f i x hg hf runs free alive word => ?serve, fun n d hd m g o first hg ho => ⟨sendFlagUpdate_early hd first hg ho, ?send⟩,
    fun n g c x hg hc probed runs good left => copyErrorStop_stops hg hc probed runs good left x,
    fun n g c k hg noOp => barrierPendLower_copy hg noOp k, fun n g o k hg ho => barrierPendLower_multicast hg ho k⟩
  case pass =>
    obtain ⟨u, q', ran, ops, team', mem, cores⟩ := mmaPassEnd_goesOn ht hq alone ha hb mma turn pass step ok
    exact ⟨u, _, q', _, ran, team', by simp, ops, rfl, rfl, rfl, mem, cores⟩
  case take =>
    obtain ⟨u, q', ran, ops, team', mem⟩ := mmaFeedTake_takes ht hq alone long lacks idle gate
    exact ⟨u, _, q', ran, team', by simp, ops, mem⟩
  case serve =>
    have served : serveWord (noteFed s n) n g f = _ := serveWord_fstep word
    rw [fennelServe_eq hg hf, served, upFeed_of_some (by simpa using hg) hf]
    rfl
  case send =>
    exact fun visible u v b r name adds => sendFlagUpdate_raises hd first hg ho visible name adds

end Sys2Proof

/-! ## ACCZ: the empty mask, and every other (R195, R205, R211, R213) -/

namespace Sys2Proof.Laws.Clearing
open Machine Laws.Quartets Laws.Engine

/-! ### The empty mask, which ACCZ may not have (R212) -/

/-- Words that decode to nothing do not meet. -/
theorem meet_of_undecodable {v : State} {team k : Nat} {q : Quartet} {w : Word64} {e : Reject} (hq : quartetAt v team k = some q)
    (same : q.latch = [(0, w), (1, w), (2, w), (3, w)]) (undecoded : decodeWords (w.toNat % 2 ^ 32) (w.toNat / 2 ^ 32) = .error e) :
    meet v team k = v := by
  unfold meet
  simp only [hq, same, ne_eq, not_true, or_self, if_false, undecoded]

theorem emptyMask_undecodable :
    decodeWords ((wordsOf (.accz 0)).toNat % 2 ^ 32) ((wordsOf (.accz 0)).toNat / 2 ^ 32) = .error .illegalField := by decide

/-- A quartet of whose members all but the last have come to the latch with ACCZ of the empty mask. -/
def emptyMaskQuartet : Quartet :=
  { freshQuartet with latch := [(0, wordsOf (.accz 0)), (1, wordsOf (.accz 0)), (2, wordsOf (.accz 0))] }

def emptyMaskTeam : Team := { freshTeam 0 0 0 0 0 0 64 0 true false [1, 2, 3, 4] [0] with quartets := [(0, emptyMaskQuartet)] }

/-- Groups 1 to 4 are the quartet, and group 4 moves. -/
def emptyMaskState : State :=
  { State.reset with cur := 4, teams := [(0, emptyMaskTeam)], groups := (List.range 4).map fun j => (j + 1, freshGroup 0 j 64 0 []) }

/-- The fourth word of ACCZ with the empty mask only waits with the others. -/
theorem emptyMask_waits : exec (.accz 0) emptyMaskState =
    .next (arrived emptyMaskState (freshGroup 0 3 64 0 []) (tblSet emptyMaskQuartet.latch 3 (wordsOf (.accz 0)))) := by
  have ht : tblGet emptyMaskState.teams 0 = some emptyMaskTeam := rfl
  have hq : tblGet emptyMaskTeam.quartets 0 = some emptyMaskQuartet := rfl
  have arrives := arriveMtx_of_whole (s := emptyMaskState) (g := freshGroup 0 3 64 0 []) rfl ht hq (.accz 0) (by decide) (by decide)
  exact arrives.trans (congrArg _ (meet_of_undecodable (quartetAt_arrived (g := freshGroup 0 3 64 0 []) ht hq _) rfl emptyMask_undecodable))

/-! ### Every other mask -/

theorem tblGet_tblSet_self {α : Type} (t : Table α) (k : Nat) (v : α) : tblGet (tblSet t k v) k = some v := by simp

theorem wordsOf_of_short {i : Instr} {w : Nat} (words : encode i = [w]) (small : w < 2 ^ 32) : (wordsOf i).toNat = w := by
  have bytes : encodeBytes i = leBytes 4 w := by simp [encodeBytes, words]
  rw [wordsOf, bytes, OwnAtomics.leNat_leBytes, BitVec.toNat_ofNat]
  omega

/-- The word of a well-formed instruction of one word decodes to it (R48). -/
theorem decodeWords_wordsOf_of_short {i : Instr} {w : Nat} (wf : i.WellFormed) (clause : isFeedWord i = false) (words : encode i = [w])
    (small : w < 2 ^ 32) : decodeWords ((wordsOf i).toNat % 2 ^ 32) ((wordsOf i).toNat / 2 ^ 32) = .ok i := by
  rw [wordsOf_of_short words small, Nat.mod_eq_of_lt small, Nat.div_eq_of_lt small]
  exact ((decodeInvertsEncode i wf).2 w words clause).2

theorem decodeWords_accz {m : BitVec 8} (nonempty : m ≠ 0) :
    decodeWords ((wordsOf (.accz m)).toNat % 2 ^ 32) ((wordsOf (.accz m)).toNat / 2 ^ 32) = .ok (.accz m) :=
  decodeWords_wordsOf_of_short (bne_iff_ne.2 nonempty) rfl rfl (by omega)

/-- R200: ACCZ has nothing to check. -/
theorem checkMtx_accz {s : State} {team k : Nat} {o : MxOp} {m : BitVec 8} (ho : o.instr = .accz m) : checkMtx s team k o = (s, .ok o) := by
  have ranges : mxRanges o = [] := by simp only [mxRanges, ho]
  have causes (t : Team) (q : Quartet) : mxCauses s team t q o = [] := by simp only [mxCauses, ranges, ho, List.map_nil, List.append_nil]
  have name (w : Who) (q : Quartet) : sendName s w q o = (s, none) := by simp only [sendName, ho]
  unfold checkMtx
  split
  · simp only [causes, name, ranges, lowestCause, List.filterMap_nil, List.foldl_nil, probeAll, ho]
  · rfl

/-- The tiles of a mask and their error bits cleared (R211, R213). -/
def clearTiles (m : BitVec 8) (t : Team) : Team :=
  { t with acc := t.acc.filter fun e => !m.getLsbD (e.1 / 4096), accErr := t.accErr.filter fun x => !m.getLsbD x }

/-- The state in which a quartet's members have gone on and its queue holds an accepted operation that is on no counter. -/
def queued (s : State) (team k : Nat) (o : MxOp) : State :=
  (s.upMembers team k fun g => { advance 1 g with wait := .none }).upQuartet team k fun q =>
    { q with checking := none, checkRec := none, ops := q.ops ++ [o] }

theorem acceptMtx_accz {s : State} {team k : Nat} {o : MxOp} {m : BitVec 8} (ho : o.instr = .accz m) :
    acceptMtx s team k (.accz m) o = drainTeam (queued s team k o) team := by
  simp only [acceptMtx, ho, isLongMma, Bool.false_eq_true, if_false]
  rfl

/-- The state in which the engine has performed ACCZ. -/
def performedAccz (s : State) (team k uid : Nat) (m : BitVec 8) : State :=
  noteDone ((s.upTeam team (clearTiles m)).upQuartet team k fun q => { q with ops := [] }) team k uid {}

section
variable {s : State} {team k : Nat} {t : Team} {q : Quartet} {o : MxOp} {m : BitVec 8} (ht : tblGet s.teams team = some t)
  (hq : tblGet t.quartets k = some q) (alone : q.ops = [o]) (ho : o.instr = .accz m)
include ht hq

theorem performedAccz_team (uid : Nat) : tblGet (performedAccz s team k uid m).teams team =
    some { clearTiles m t with quartets := tblSet t.quartets k { q with ops := [] } } := by
  simp [performedAccz, noteDone, clearTiles, ht, tblUp_of_some hq]

include alone ho

theorem drainQuartet_accz (outside : midStep t = none) (fuel : Nat) :
    drainQuartet team k (fuel + 1) s = performedAccz s team k o.uid m := by
  have empty : ∀ p, tblGet (tblSet t.quartets k { q with ops := [] }) k = some p → p.ops = [] := by simp
  rw [← drainQuartet_of_idle (performedAccz_team ht hq o.uid) empty fuel, drainQuartet]
  simp only [ht, quartetAt_of_some ht hq, alone, ho, isMma, outside, Option.isSome_none, Bool.false_eq_true, if_false, performMtx]
  rfl

omit alone ho

theorem queued_team (o : MxOp) : tblGet (queued s team k o).teams team =
    some { t with quartets := tblSet t.quartets k { q with checking := none, checkRec := none, ops := q.ops ++ [o] } } := by
  simp [queued, ht, tblUp_of_some hq]

include ho

/-- Where every queue of the team is empty, the engine performs an accepted ACCZ at once. -/
theorem acceptMtx_accz_of_idle (idle : ∀ e ∈ t.quartets, e.2.ops = []) :
    acceptMtx s team k (.accz m) o = performedAccz (queued s team k o) team k o.uid m := by
  let q' : Quartet := { q with checking := none, checkRec := none, ops := q.ops ++ [o] }
  have alone : q'.ops = [o] := by simp [q', show q.ops = [] from idle _ (mem_of_tblGet hq)]
  have queued_ : tblGet (queued s team k o).teams team = some { t with quartets := tblSet t.quartets k q' } := queued_team ht hq o
  have hq' : tblGet (tblSet t.quartets k q') k = some q' := tblGet_tblSet_self _ _ _
  have outside : midStep { t with quartets := tblSet t.quartets k q' } = none := by
    refine Option.map_eq_none_iff.2 (List.find?_eq_none.2 fun e he => ?_)
    rcases mem_tblSet he with rfl | he
    · simp [alone, ho, isMma]
    · simp [idle e he]
  have others (j : Nat) (other : j ≠ k) : drainQuartet team j 64 (queued s team k o) = queued s team k o :=
    drainQuartet_of_idle queued_ (fun p hp => idle _ (mem_of_tblGet (by simpa [Ne.symm other] using hp))) 64
  have still (j : Nat) : drainQuartet team j 64 (performedAccz (queued s team k o) team k o.uid m) =
      performedAccz (queued s team k o) team k o.uid m := by
    refine drainQuartet_of_idle (performedAccz_team queued_ hq' o.uid) (fun p hp => ?_) 64
    by_cases here : k = j
    · obtain rfl : { q' with ops := [] } = p := by simpa [here] using hp
      rfl
    · exact idle _ (mem_of_tblGet (by simpa [clearTiles, here] using hp))
  rw [acceptMtx_accz ho]
  exact drainTeam_of_one queued_ (List.mem_map_of_mem (mem_of_tblGet hq')) others
    (drainQuartet_accz queued_ hq' alone ho outside 63) still

end

/-- R211, R213: element by element and bit by bit. -/
theorem accGet_clearTiles (m : BitVec 8) (t : Team) {tile r c : Nat} (hr : r < 64) (hc : c < 64) :
    accGet (clearTiles m t).acc tile r c = if m.getLsbD tile then 0 else accGet t.acc tile r c := by
  have place : accCell tile r c / 4096 = tile := by unfold accCell; omega
  unfold accGet clearTiles
  rw [cellGet_filter (fun j => !m.getLsbD (j / 4096)), place]
  cases m.getLsbD tile <;> rfl

theorem mem_accErr_clearTiles (m : BitVec 8) (t : Team) (tile : Nat) :
    tile ∈ (clearTiles m t).accErr ↔ tile ∈ t.accErr ∧ m.getLsbD tile = false := by
  simp [clearTiles]

theorem tblGet_upMembers {s : State} {team k n : Nat} (once : (quartetGroups s team k).Nodup) (member : n ∈ quartetGroups s team k)
    (f : Group → Group) : tblGet (s.upMembers team k f).groups n = (tblGet s.groups n).map f := by
  rw [upMembers_eq]
  exact (tblGet_foldl_tblUp f n _ _ once).trans (if_pos member)

/-- A member that waited for ACCZ goes on to its next word, and keeps its registers and counters. -/
theorem performedAccz_member {s : State} {team k n : Nat} {o : MxOp} {m : BitVec 8} (once : (quartetGroups s team k).Nodup)
    (member : n ∈ quartetGroups s team k) {e : Group} {w : Wait} (he : tblGet s.groups n = some { e with wait := w }) :
    ∃ e', tblGet (performedAccz (queued s team k o) team k o.uid m).groups n = some e' ∧ AtNext 1 e e' ∧ e'.wait = .none ∧ e'.v = e.v ∧
      e'.s = e.s ∧ e'.ctr = e.ctr := by
  let cleared : State := ((queued s team k o).upTeam team (clearTiles m)).upQuartet team k fun q => { q with ops := [] }
  have members : quartetGroups cleared team k = quartetGroups s team k := by
    have same : quartetGroups (queued s team k o) team k = quartetGroups s team k := by simp [queued]
    rw [quartetGroups_upQuartet, ← same]
    exact quartetGroups_congr (by simp [clearTiles, Function.comp_def]) k
  have gone : tblGet cleared.groups n = some { advance 1 { e with wait := w } with wait := .none } := by
    simp only [cleared, queued, upQuartet_fields, State.upTeam_fields]
    rw [tblGet_upMembers once member, he, Option.map_some]
  refine ⟨_, (tblGet_upMembers (s := cleared) (members ▸ once) (members ▸ member) _).trans (congrArg _ gone),
    atNext_advance 1 rfl rfl rfl rfl rfl, rfl, ?_⟩
  simp [upOp]

/-! The state in which ACCZ is accepted: the quartet is under check, and its members differ from before only in what they wait for. -/

section
variable (s : State) (g : Group) (latch : Table Word64)

theorem quartetGroups_arrived (k : Nat) : quartetGroups (arrived s g latch) g.team k = quartetGroups s g.team k := by simp [arrived]

theorem arrived_member {n : Nat} {e : Group} (he : tblGet s.groups n = some e) :
    ∃ w, tblGet (arrived s g latch).groups n = some { e with wait := w } := by
  by_cases here : s.cur = n
  · exact ⟨.rendezvous, by simp [arrived, here, he]⟩
  · exact ⟨e.wait, by simp [arrived, here, he]⟩

end

theorem quartetGroups_underCheck (v : State) (team k : Nat) (o : MxOp) : quartetGroups (underCheck v team k o) team k = quartetGroups v team k := by
  rw [underCheck, quartetGroups_upMembers, quartetGroups_upQuartet]
  rfl

theorem underCheck_member {v : State} {team k n : Nat} {e : Group} {w : Wait} (once : (quartetGroups v team k).Nodup)
    (member : n ∈ quartetGroups v team k) (he : tblGet v.groups n = some { e with wait := w }) (o : MxOp) :
    tblGet (underCheck v team k o).groups n = some { e with wait := .matrixCheck } := by
  have members := quartetGroups_underCheck v team k o
  rw [underCheck, quartetGroups_upMembers] at members
  exact (tblGet_upMembers (members ▸ once) (members ▸ member) _).trans (congrArg (Option.map _) he)

section
variable {s : State} {g : Group} {t : Team} {q : Quartet} (ht : tblGet s.teams g.team = some t)
  (hq : tblGet t.quartets (g.grpid / 4) = some q)
include ht hq

theorem underCheck_arrived_team (latch : Table Word64) (o : MxOp) :
    tblGet (underCheck (arrived s g latch) g.team (g.grpid / 4) o).teams g.team =
      some { t with quartets := tblSet t.quartets (g.grpid / 4) { q with latch := [], checking := some o } } := by
  simp [underCheck, arrived, ht, tblUp_of_some hq, tblUp_of_some]

variable {m : BitVec 8} (nonempty : m ≠ 0) (hs : Selected s g) (may : mxBarred t g = false) (whole : q.lost = []) (unchecked : q.checking = none)
  (idle : ∀ e ∈ t.quartets, e.2.ops = []) (first : ((quartetGroups s g.team (g.grpid / 4)).head?.bind (tblGet s.groups)).isSome)
  (last : tblSet q.latch (g.grpid % 4) (wordsOf (.accz m)) =
    [(0, wordsOf (.accz m)), (1, wordsOf (.accz m)), (2, wordsOf (.accz m)), (3, wordsOf (.accz m))])
include nonempty hs may whole unchecked idle first last

/-- R195, R198, R205: the fourth ACCZ is accepted and performed at once. -/
theorem accz_performs : ∃ o, exec (.accz m) s = .next (performedAccz (queued
    (underCheck (arrived s g (tblSet q.latch (g.grpid % 4) (wordsOf (.accz m)))) g.team (g.grpid / 4) o) g.team (g.grpid / 4) o)
      g.team (g.grpid / 4) o.uid m) := by
  let latch : Table Word64 := tblSet q.latch (g.grpid % 4) (wordsOf (.accz m))
  let v : State := arrived s g latch
  obtain ⟨lead, lead_⟩ : ∃ lead, (quartetGroups v g.team (g.grpid / 4)).head?.bind (tblGet v.groups) = some lead := by
    obtain ⟨e, he⟩ := Option.isSome_iff_exists.1 first
    obtain ⟨n, hn, he⟩ := Option.bind_eq_some_iff.1 he
    obtain ⟨w, hw⟩ := arrived_member s g latch he
    exact ⟨_, by rw [quartetGroups_arrived, hn]; exact hw⟩
  let o : MxOp := metOp v g.team (g.grpid / 4) lead (.accz m)
  have noLong : ∀ p ∈ q.ops, isLongMma p.instr = false := by simp [show q.ops = [] from idle _ (mem_of_tblGet hq)]
  have met : meet v g.team (g.grpid / 4) = runCheck (underCheck v g.team (g.grpid / 4) o) g.team (g.grpid / 4) o :=
    (meet_of_same (quartetAt_arrived ht hq latch) last (decodeWords_accz nonempty) lead_
      (mayMeet_of_room (by simp [mxCounter]) unchecked (.inr noLong))).trans (if_neg Bool.false_ne_true)
  have accepted : runCheck (underCheck v g.team (g.grpid / 4) o) g.team (g.grpid / 4) o = _ := runCheck_of_ok (checkMtx_accz rfl)
  have idle' : ∀ e ∈ tblSet t.quartets (g.grpid / 4) { q with latch := [], checking := some o }, e.2.ops = [] := by
    intro e he
    rcases mem_tblSet he with rfl | he
    · exact idle (_, q) (mem_of_tblGet hq)
    · exact idle e he
  refine ⟨o, (arriveMtx_of_whole hs ht hq (.accz m) may (abandoned_eq_none (by simp [whole]))).trans (congrArg _ ?_)⟩
  exact met.trans (accepted.trans
    (acceptMtx_accz_of_idle (underCheck_arrived_team ht hq latch o) (tblGet_tblSet_self _ _ _) rfl idle'))

end

end Sys2Proof.Laws.Clearing

namespace Sys2Proof
open Machine Laws.Quartets Laws.Engine Laws.Clearing

/-- Refutes O35: it asks its effect of every mask, and ACCZ of the empty mask is no instruction (R212): the four words of it decode to nothing,
and the last member waits with the others. -/
theorem not_tilesClear : ¬ Obligations.TilesClear := by
  intro claim
  obtain ⟨u, t', ran, -, -, -, -, members⟩ := claim emptyMaskState (freshGroup 0 3 64 0 []) emptyMaskTeam emptyMaskQuartet 0 rfl rfl rfl
    (by decide) rfl (by decide) rfl rfl rfl (by decide) (by decide) (by decide) rfl
  obtain ⟨e, he, -, goesOn, -⟩ := members 4 (by decide) (freshGroup 0 3 64 0 []) rfl
  obtain rfl := Host.Outcome.next.inj (ran.symm.trans emptyMask_waits)
  obtain rfl : { freshGroup 0 3 64 0 [] with wait := .rendezvous } = e := Option.some.inj he
  exact nomatch goesOn

/-- The effect that the refuted claim asks of every mask, for every mask that ACCZ may have (R195, R205, R211 to R213). -/
theorem tilesClear_of_ne_zero (s : State) (g : Group) (t : Team) (q : Quartet) (m : BitVec 8) (nonempty : m ≠ 0) (hs : Selected s g)
    (ht : tblGet s.teams g.team = some t) (hq : tblGet t.quartets (g.grpid / 4) = some q) (may : mxBarred t g = false) (whole : q.lost = [])
    (unchecked : q.checking = none) (idle : ∀ e ∈ t.quartets, e.2.ops = []) (once : (quartetGroups s g.team (g.grpid / 4)).Nodup)
    (first : ((quartetGroups s g.team (g.grpid / 4)).head?.bind (tblGet s.groups)).isSome)
    (last : tblSet q.latch (g.grpid % 4) (wordsOf (.accz m)) =
      [(0, wordsOf (.accz m)), (1, wordsOf (.accz m)), (2, wordsOf (.accz m)), (3, wordsOf (.accz m))]) :
    ∃ u t', exec (.accz m) s = .next u ∧ tblGet u.teams g.team = some t' ∧ u.mem = s.mem ∧
      (∀ tile r c, r < 64 → c < 64 → accGet t'.acc tile r c = if m.getLsbD tile then 0 else accGet t.acc tile r c) ∧
      (∀ tile, tile ∈ t'.accErr ↔ tile ∈ t.accErr ∧ m.getLsbD tile = false) ∧
      ∀ n ∈ quartetGroups s g.team (g.grpid / 4), ∀ e, tblGet s.groups n = some e →
        ∃ e', tblGet u.groups n = some e' ∧ AtNext 1 e e' ∧ e'.wait = .none ∧ e'.v = e.v ∧ e'.s = e.s ∧ e'.ctr = e.ctr := by
  let latch : Table Word64 := tblSet q.latch (g.grpid % 4) (wordsOf (.accz m))
  obtain ⟨o, performs⟩ := accz_performs ht hq nonempty hs may whole unchecked idle first last
  have team_ := performedAccz_team (m := m) (queued_team (underCheck_arrived_team ht hq latch o) (tblGet_tblSet_self _ _ _) o)
    (tblGet_tblSet_self _ _ _) o.uid
  refine ⟨_, _, performs, team_, ?_, fun tile r c hr hc => accGet_clearTiles m _ hr hc, mem_accErr_clearTiles m _, fun n member e he => ?_⟩
  · simp [performedAccz, noteDone, queued, underCheck, arrived]
  · obtain ⟨w, hw⟩ := arrived_member s g latch he
    have came := quartetGroups_arrived s g latch (g.grpid / 4)
    have checked := quartetGroups_underCheck (arrived s g latch) g.team (g.grpid / 4) o
    rw [← came] at once member
    have stands := underCheck_member once member hw o
    rw [← checked] at once member
    exact performedAccz_member once member stands

end Sys2Proof

/-! ## Slots of sequences, and what the instructions on a slot can do (R224, R240, R246) -/

namespace Sys2Proof.Laws.Slots
open Machine

theorem nodup_lanesOf (w : Nat) (m : Word64) : (lanesOf w m).Nodup := List.nodup_range.filter _

/-- Slot k is x, open and the selected group's own. -/
def Owns (s : State) (g : Group) (k : Nat) (x : SeqSlot) : Prop := seqSlot s g k = some x ∧ x.isOpen = true ∧ x.owner = s.cur

/-- Slot k is the group's own x with every lane of ls a member. -/
def Usable (s : State) (g : Group) (k : Nat) (ls : List Nat) (x : SeqSlot) : Prop :=
  Owns s g k x ∧ ∀ l ∈ ls, (tblGet x.lanes l).isSome

/-- A lane of ls awaits its forced record. -/
def Awaits (x : SeqSlot) (ls : List Nat) : Prop := ∃ l ∈ ls, ∃ e, tblGet x.lanes l = some e ∧ e.pending = true

theorem seqSlot_of_team {s : State} {g : Group} {t : Team} (ht : tblGet s.teams g.team = some t) (k : Nat) :
    seqSlot s g k = tblGet t.seqs k := by rw [seqSlot, teamOf, ht, Option.bind_some]

theorem ownSlot_eq_some {s : State} {g : Group} {k : Nat} {x : SeqSlot} : ownSlot s g k = some x ↔ Owns s g k x := by
  unfold ownSlot Owns
  cases seqSlot s g k with
  | none => simp
  | some y =>
    by_cases own : y.isOpen = true ∧ y.owner = s.cur
    · simp only [Bool.and_eq_true, beq_iff_eq, if_pos own, Option.some.injEq]
      exact ⟨fun e => ⟨e, e ▸ own⟩, fun h => h.1⟩
    · simp only [Bool.and_eq_true, beq_iff_eq, if_neg own, Option.some.injEq]
      refine ⟨nofun, ?_⟩
      rintro ⟨rfl, own'⟩
      exact absurd own' own

theorem allMembers_iff {x : SeqSlot} {ls : List Nat} : allMembers x ls = true ↔ ∀ l ∈ ls, (tblGet x.lanes l).isSome := List.all_eq_true

theorem slotUse_of_usable {s : State} {g : Group} {k : Nat} {ls : List Nat} {x : SeqSlot} (some_ : ls ≠ []) (h : Usable s g k ls x) :
    slotUse s g k ls = .ok x := by
  simp only [slotUse, if_neg some_, ownSlot_eq_some.2 h.1, if_pos (allMembers_iff.2 h.2)]

theorem slotUse_of_unusable {s : State} {g : Group} {k : Nat} {ls : List Nat} (some_ : ls ≠ []) (h : ∀ x, ¬ Usable s g k ls x) :
    slotUse s g k ls = .bad := by
  rw [slotUse, if_neg some_]
  cases own : ownSlot s g k with
  | none => rfl
  | some x => exact if_neg fun members => h x ⟨ownSlot_eq_some.1 own, allMembers_iff.1 members⟩

theorem not_recordPending {x : SeqSlot} {ls : List Nat} (h : ¬ Awaits x ls) : ¬ recordPending x ls = true := by
  rw [recordPending, List.any_eq_true]
  rintro ⟨l, hl, pending⟩
  cases he : tblGet x.lanes l with
  | none => simp [he] at pending
  | some e => exact h ⟨l, hl, e, he, by simpa [he] using pending⟩

/-- What an instruction on a slot does by the use that it can make of it: with no lane only what `idle` is, on a slot that it cannot use the
sequence-state trap, and else its own act (R224, R246). -/
def byUse (s : State) (k : Nat) (idle : State) (act : SeqSlot → State) : SlotUse → State
  | .empty => idle
  | .bad => seqTrap s k
  | .ok x => act x

/-- Instruction i acts with the lanes ls on slot k of the selected group. -/
def ActsOnSlot (s : State) (g : Group) (i : Instr) (k : Nat) (ls : List Nat) (idle : State) (act : SeqSlot → State) : Prop :=
  exec i s = .next (byUse s k idle act (slotUse s g k ls))

section
variable {s : State} {g : Group} {i : Instr} {k : Nat} {ls : List Nat} {idle : State} {act : SeqSlot → State}
  (h : ActsOnSlot s g i k ls idle act)
include h

theorem ActsOnSlot.idles (none_ : ls = []) : exec i s = .next idle := by
  rw [h, slotUse, if_pos none_]
  rfl

theorem ActsOnSlot.traps (some_ : ls ≠ []) (unusable : ∀ x, ¬ Usable s g k ls x) : exec i s = .next (trapAt s s.cur 0x29 (small k)) := by
  rw [h, slotUse_of_unusable some_ unusable]
  rfl

theorem ActsOnSlot.acts (some_ : ls ≠ []) {x : SeqSlot} (usable : Usable s g k ls x) : exec i s = .next (act x) := by
  rw [h, slotUse_of_usable some_ usable]
  rfl

end

end Sys2Proof.Laws.Slots

/-! ## Texture and ray instructions, and the generators (R224, R228 to R239) -/

namespace Sys2Proof.Laws.Graphics
open Machine Laws.Slots

/-! ### An operation on TX issues (R224, R228, R238) -/

/-- No operation of the texture unit addresses a cluster stash: it counts on TX (R153, R224). -/
theorem counterFor_gfxOp {k : MemKind} (gfx : isGfx k = true) (lanes : List LaneAcc) : counterFor (gfxOp k) lanes = .tx := by
  cases k with
  | load | store | atomic => exact nomatch gfx
  | _ => rfl

theorem counterFree_gfxOp {g : Group} (room : counter g Counter.tx.ident < 63) {k : MemKind} (gfx : isGfx k = true) (lanes : List LaneAcc) :
    CounterFree g (gfxOp k) lanes :=
  (counterFree_iff g (counterFor_gfxOp gfx lanes)).2 room

section
variable {s : State} {g : Group} (hs : Selected s g) (room : counter g Counter.tx.ident < 63) {i : Instr} {gd : BitVec 5} {d : BitVec 6}
include hs room

/-- A texture instruction whose descriptor lies in the global window issues: four registers a lane. -/
theorem texture_issues {tex : BitVec 7} {kind : Group → Word64 → MemKind} (gfx : isGfx (kind g (usrc64 s g 1 tex)) = true)
    (global : (usrc64 s g 1 tex).toNat < 0xFC000000000000) (data : Group → Nat → List Byte) (ctr : Group → Nat → Word64) :
    texture s i gd d tex kind data ctr = .next (issued s g i (gfxOp (kind g (usrc64 s g 1 tex)))
      ((lanesOf g.width (active g gd)).map fun l => { lane := l, addr := usrc64 s g 1 tex, data := data g l, addr2 := ctr g l })
      (gfxDests d.toNat 4 (lanesOf g.width (active g gd)))) := by
  have noFault : (lanesOf g.width (active g gd)).flatMap
      (fun l => checkWindow s g 1 l (usrc64 s g 1 tex) (genericWindow (usrc64 s g 1 tex)) true false) = [] :=
    List.flatMap_eq_nil_iff.2 fun _ _ => checkWindow_global_eq_nil false global (Nat.mod_one _)
  exact (onGroup_of_some hs _).trans
    (congrArg _ (startMem_of_none (congrArg lowestFault noFault) (counterFree_gfxOp room gfx _) _))

/-- A ray instruction whose records lie aligned in the global window issues: k registers a lane. -/
theorem rayTest_issues {x : BitVec 7} {align : Nat} {kind : MemKind} (gfx : isGfx kind = true)
    (global : ∀ l ∈ lanesOf g.width (active g gd), (baseOf s g 1 x l).toNat < 0xFC000000000000 ∧ (baseOf s g 1 x l).toNat % align = 0)
    (k : Nat) (data : Group → Nat → List Byte) :
    rayTest s i gd d x align k kind data = .next (issued s g i (gfxOp kind)
      ((lanesOf g.width (active g gd)).map fun l => { lane := l, addr := baseOf s g 1 x l, data := data g l })
      (gfxDests d.toNat k (lanesOf g.width (active g gd)))) := by
  have noFault : (lanesOf g.width (active g gd)).flatMap
      (fun l => checkWindow s g align l (baseOf s g 1 x l) (genericWindow (baseOf s g 1 x l)) true false) = [] :=
    List.flatMap_eq_nil_iff.2 fun l hl => checkWindow_global_eq_nil false (global l hl).1 (global l hl).2
  exact (onGroup_of_some hs _).trans
    (congrArg _ (startMem_of_none (congrArg lowestFault noFault) (counterFree_gfxOp room gfx _) _))

end

/-! ### The generators (R239) -/

/-- What the generators leave of a group: d takes the values in the lanes of m with no push, and the group goes on. -/
def Generated (g g' : Group) (m : Word64) (d : Nat) (f : Nat → Word) : Prop :=
  LanesTake g g' m d f ∧ AtNext 1 g g' ∧ g'.q = g.q ∧ g'.hq = g.hq ∧ g'.s = g.s ∧ g'.p = g.p ∧ g'.exec = g.exec

theorem generated_writeNoPush (g : Group) {d : BitVec 6} (register : d.toNat < 48) (m : Word64) (f : Nat → Word) :
    Generated g (advance 1 (writeNoPush g d m f)) m d.toNat f := by
  have written : writeNoPush g d m f = writeV g d.toNat m f := if_pos register
  have next : AtNext 1 g (advance 1 (writeV g d.toNat m f)) := atNext_advance 1 rfl rfl rfl rfl rfl
  rw [written]
  refine ⟨?_, next, ?_⟩
  · rw [advance_frame]
    exact lanesTake_writeV g m d.toNat f
  · rw [advance_frame]
    exact ⟨rfl, rfl, rfl, rfl, rfl⟩

theorem lanes_foldl_upLane (f : SeqLane → SeqLane) (ls : List Nat) (x : SeqSlot) :
    (ls.foldl (fun x l => upLane l f x) x).lanes = ls.foldl (fun t l => tblUp t l f) x.lanes := by
  induction ls generalizing x with
  | nil => rfl
  | cons l ls ih => exact ih (upLane l f x)

/-- The slot whose lanes of ls have drawn: the GEN of each has gone up by one. -/
def drawn (ls : List Nat) (x : SeqSlot) : SeqSlot := ls.foldl (fun x l => upLane l (fun e => { e with gen := e.gen + 1 }) x) x

theorem drawn_lane {ls : List Nat} (once : ls.Nodup) (x : SeqSlot) (l : Nat) :
    tblGet (drawn ls x).lanes l = (tblGet x.lanes l).map fun e => if l ∈ ls then { e with gen := e.gen + 1 } else e := by
  rw [drawn, lanes_foldl_upLane, Laws.Quartets.tblGet_foldl_tblUp _ l _ _ once]
  by_cases here : l ∈ ls <;> simp [here]

/-- RNG.seq acts on a slot with no record awaited: the results, and GEN of each lane goes up. -/
theorem rngSeq_actsOnSlot {s : State} {g : Group} (hs : Selected s g) (gd : BitVec 5) (d : BitVec 6) (k : BitVec 7) (n : BitVec 2) :
    ∃ act, ActsOnSlot s g (.rngSeq gd d k n) n.toNat (lanesOf g.width (active g gd)) (s.putGroup s.cur (advance 1 g)) act ∧
      ∀ x, ¬ Awaits x (lanesOf g.width (active g gd)) → act x =
        (s.putGroup s.cur (advance 1 (writeNoPush g d (active g gd) fun l =>
          Fp.rng32 (usrc64 s g 0 k) (((tblGet x.lanes l).map (·.gen)).getD 0)))).upSlot g.team n.toNat
            (drawn (lanesOf g.width (active g gd))) :=
  ⟨_, onGroup_of_some hs _, fun _ ready => if_neg (not_recordPending ready)⟩

end Sys2Proof.Laws.Graphics

namespace Sys2Proof
open Machine Laws.Slots Laws.Graphics

/-- Settles O43: a texture or ray instruction finds no fault in its lanes and issues on TX; the generators write one register, RNG.seq by the
use that it can make of its slot. -/
theorem texturesRaysAndGenerators : Obligations.TexturesRaysAndGenerators := by
  refine ⟨fun s g gd d hs room => ?units, fun s g gd d hs register => ⟨fun k c => ⟨_, onGroup_of_some hs _, ?rng⟩, fun k n t ht => ?seq⟩⟩
  case units =>
    constructor
    · intro c x y z desc lanes global
      exact ⟨texture_issues hs room (kind := fun gr a => .texs d.toNat a (usrc64 s gr 2 y)) rfl global.1
          (fun gr => captured s gr 0 c.toNat 4) fun gr => counterSrc s gr 3 z,
        texture_issues hs room (kind := fun _ a => .texf d.toNat a) rfl global.1 (fun gr => captured s gr 0 c.toNat 4) fun _ _ => 0,
        texture_issues hs room (kind := fun gr a => .texq d.toNat a (usrc s gr tInt 0 c)) rfl global.1 (fun _ _ => []) fun _ _ => 0⟩
    · intro r x a lanes
      exact ⟨fun global => rayTest_issues hs room rfl global 5 _, fun best cull global => rayTest_issues hs room rfl global 4 _⟩
  case rng => exact generated_writeNoPush g register _ _
  case seq =>
    have slot := seqSlot_of_team ht n.toNat
    obtain ⟨act, onSlot, generates⟩ := rngSeq_actsOnSlot hs gd d k n
    refine ⟨onSlot.idles, fun some_ lacks => onSlot.traps some_ ?_, fun some_ x hx opened own members => ?_⟩
    · rintro x ⟨⟨hx, opened, own⟩, members⟩
      obtain ⟨l, hl, missing⟩ := lacks x (slot ▸ hx) opened own
      simpa [missing] using members l hl
    · have usable : Usable s g n.toNat (lanesOf g.width (active g gd)) x :=
        ⟨⟨slot.trans hx, opened, own⟩, fun l hl => by obtain ⟨e, he, -⟩ := members l hl; simp [he]⟩
      have ready : ¬ Awaits x (lanesOf g.width (active g gd)) := by
        rintro ⟨l, hl, e, he, pending⟩
        obtain ⟨e', he', settled⟩ := members l hl
        cases he.symm.trans he'
        exact Bool.false_ne_true (settled.symm.trans pending)
      refine ⟨_, _, drawn (lanesOf g.width (active g gd)) x,
        (onSlot.acts some_ usable).trans (congrArg _ (generates x ready)), rfl, ?_,
        generated_writeNoPush g register _ _, ?_, drawn_lane (nodup_lanesOf _ _) x⟩
      · simp [State.upSlot]
      · simp [State.upSlot, ht, hx]

end Sys2Proof

/-! ## Sequences (R240 to R246) -/

namespace Sys2Proof.Laws.Sequences
open Machine Laws.Slots

theorem counter_not_full {g : Group} (room : counter g Counter.sq.ident < 63) : ¬ counterFull g .sq = true :=
  Bool.eq_false_iff.1 (counterFull_eq_false room)

/-! ### SOPEN (R240, R243, R245) -/

/-- SEQID, NEXT and GEN of a lane: the register pairs from v, low half first (R240). -/
def lanePair (s : State) (g : Group) (v l j : Nat) : Word64 := pair (readV s.draws 0 g (v + j) l) (readV s.draws 0 g (v + j + 1) l)

/-- Slot k is open. -/
def SlotOpen (s : State) (g : Group) (k : Nat) : Prop := ∃ x, seqSlot s g k = some x ∧ x.isOpen = true

/-- What the sequence-state trap of SOPEN needs: the slot is open, two members have one SEQID, or a SEQID is open on the die (R243). -/
def Clashes (s : State) (g : Group) (k v : Nat) (ls : List Nat) : Prop :=
  SlotOpen s g k ∨ ¬ (ls.map fun l => lanePair s g v l 0).Nodup ∨ ∃ l ∈ ls, seqidOpen s (siteOf s g) (lanePair s g v l 0) = true

theorem dedup_length_eq_iff {ids : List Word64} : ids.dedup.length = ids.length ↔ ids.Nodup :=
  ⟨fun h => List.dedup_eq_self.1 ((List.dedup_sublist ids).eq_of_length h), fun h => by rw [List.dedup_eq_self.2 h]⟩

theorem slotOpen_iff {s : State} {g : Group} {k : Nat} : ((seqSlot s g k).map (·.isOpen)).getD false = true ↔ SlotOpen s g k := by
  unfold SlotOpen
  cases seqSlot s g k <;> simp

/-- The test that SOPEN makes of its slot and of the SEQIDs of its members. -/
theorem clashTest_iff {s : State} {g : Group} {k v : Nat} {ls : List Nat} {replay : Bool} :
    let ids := (opened s g v ls replay).lanes.map (·.2.seqid)
    (((seqSlot s g k).map (·.isOpen)).getD false || ids.dedup.length != ids.length || ids.any (seqidOpen s (siteOf s g))) = true ↔
      Clashes s g k v ls := by
  intro ids
  have same : ids = ls.map fun l => lanePair s g v l 0 := List.map_map ..
  rw [Bool.or_eq_true, Bool.or_eq_true, slotOpen_iff, bne_iff_ne, ne_eq, dedup_length_eq_iff, same, or_assoc, Clashes]
  simp only [List.any_map, List.any_eq_true, Function.comp]

/-- The state in which SOPEN leaves its slot open, before any record. -/
def afterOpening (s : State) (g : Group) (i : Instr) (k v : Nat) (ls : List Nat) (replay : Bool) : State :=
  (seqOp s g i 2 ls.length (if replay then k + 1 else 0)).upTeam g.team fun t => { t with seqs := tblSet t.seqs k (opened s g v ls replay) }

theorem stage_of_length (ls : List Nat) :
    (if ls.length = 0 then Stage.complete else .performed) = if ls = [] then .complete else .performed := by
  cases ls <;> rfl

section
variable {s : State} {g : Group} (room : counter g Counter.sq.ident < 63) {i : Instr} {gd : BitVec 5} {k v : Nat} {replay : Bool}
include room

/-- SOPEN in both forms, with a lane of ACTIVE and a clash. -/
theorem openSlot_of_clash (some_ : lanesOf g.width (active g gd) ≠ []) (clash : Clashes s g k v (lanesOf g.width (active g gd))) :
    openSlot s g i gd k v replay = trapAt s s.cur 0x29 (small k) := by
  refine (if_neg (counter_not_full room)).trans ((if_neg ?_).trans (if_pos ?_))
  · simp [some_]
  · rw [Bool.and_eq_true, bne_iff_ne]
    exact ⟨some_, clashTest_iff.2 clash⟩

/-- SOPEN in both forms: the slot is open, and in the live form each member has its record. -/
theorem openSlot_of_free (closed : ¬ SlotOpen s g k)
    (free : lanesOf g.width (active g gd) ≠ [] → ¬ Clashes s g k v (lanesOf g.width (active g gd))) :
    openSlot s g i gd k v replay = if replay then afterOpening s g i k v (lanesOf g.width (active g gd)) replay else
      (opened s g v (lanesOf g.width (active g gd)) replay).lanes.foldl (fun u e => journal u (siteOf s g) u.cur s.fresh
        { seqid := e.2.seqid, kind := 0, token := e.2.next.toNat % 2 ^ 60, gen := e.2.gen, route := 0, digest := 0, site := siteOf s g,
          asid := asidOf u (siteOf s g) (ctxOf u g) }) (afterOpening s g i k v (lanesOf g.width (active g gd)) replay) := by
  refine (if_neg (counter_not_full room)).trans ((if_neg ?_).trans (if_neg ?_))
  · rw [Bool.and_eq_true, slotOpen_iff]
    exact fun h => closed h.2
  · rw [Bool.and_eq_true, bne_iff_ne]
    exact fun h => free h.1 (clashTest_iff.1 h.2)

end

/-- Records that are journalled for the selected group leave it selected. -/
theorem foldl_journal_cur {α : Type} (site op : Nat) (r : State → α → Record) : ∀ (xs : List α) (u : State),
    xs.foldl (fun v x => journal v site v.cur op (r v x)) u = xs.foldl (fun v x => journal v site u.cur op (r v x)) u
  | [], _ => rfl
  | x :: xs, u => foldl_journal_cur site op r xs (journal u site u.cur op (r u x))

/-! ### An operation on SQ -/

theorem advance_ops (n : Nat) (g : Group) : (advance n g).ops = g.ops := by rw [advance_frame]

/-- A change of the youngest operation, which a fresh number names, changes no other. -/
theorem ops_upOp_of_youngest {g : Group} {older : List Op} {o : Op} (ops : g.ops = older ++ [o]) (fresh : ∀ p ∈ older, p.uid < o.uid)
    (f : Op → Op) : (upOp g o.uid f).ops = older ++ [f o] := by
  have kept : older.map (fun p => if p.uid = o.uid then f p else p) = older :=
    (List.map_congr_left fun p hp => if_neg (Nat.ne_of_lt (fresh p hp))).trans (List.map_id _)
  simp [upOp, ops, kept]

/-- A complete operation on SQ, as it issues. -/
def completeSq (s : State) (i : Instr) (len : Nat) : Op :=
  { uid := s.fresh, ctr := .sq, words := wordsOf i, len := len, stage := .complete }

/-- The group goes on with this operation the youngest, and what then changes in it. -/
theorem seqOp_upOperation {s : State} {g : Group} (fresh : ∀ o ∈ g.ops, o.uid < s.fresh) (c : List (Nat × Reg)) (i : Instr) (len : Nat)
    (f : Op → Op) : ∃ g', (seqOp s { g with contested := c } i len 0 0).upOperation s.cur s.fresh f = s.bump.putGroup s.cur g' ∧
      g'.ops = g.ops ++ [f (completeSq s i len)] ∧ AtNext len g g' :=
  ⟨_, State.upGroup_putGroup _ _ _ _,
    ops_upOp_of_youngest (o := completeSq s i len) (advance_ops len (issueOp { g with contested := c } (completeSq s i len))) fresh f,
    atNext_advance len rfl rfl rfl rfl rfl⟩

section
variable {s : State} {g : Group} (hs : Selected s g) (room : counter g Counter.sq.ident < 63) (gd : BitVec 5) (k : BitVec 2)
include hs room

/-- SOPEN.fetch issues complete, with the forced routes or all ones for its register (R243, R245). -/
theorem sopenFetch_actsOnSlot (d : BitVec 7) :
    ∃ act, ActsOnSlot s g (.sopenFetch gd k d) k.toNat (lanesOf g.width (active g gd)) (seqOp s g (.sopenFetch gd k d) 2 0 0) act ∧
      ∀ x, ¬ Awaits x (lanesOf g.width (active g gd)) → (∀ o ∈ g.ops, o.uid < s.fresh) →
        ∃ g' o, act x = s.bump.putGroup s.cur g' ∧ g'.ops = g.ops ++ [o] ∧ AtNext 2 g g' ∧ o.ctr = .sq ∧ o.stage = .complete ∧
          o.writes = (lanesOf g.width (active g gd)).map fun l => (Reg.v d.toNat l,
            match tblGet x.lanes l with
            | some e => if e.replay then e.forcedRoute else 0xFFFFFFFF
            | none => 0xFFFFFFFF) := by
  refine ⟨_, (onGroup_of_some hs _).trans (congrArg _ (if_neg (counter_not_full room))), fun x ready fresh => ?_⟩
  obtain ⟨g', changed, ops, next⟩ := seqOp_upOperation fresh _ _ 2 _
  exact ⟨g', _, (if_neg (not_recordPending ready)).trans changed, ops, next, rfl, rfl, rfl⟩

/-- SEMIT emits in each lane once no lane diverges and every route translates (R243, R246, R442). -/
theorem semit_actsOnSlot (cnt : BitVec 3) (p route : BitVec 7) (rel : Bool) :
    ∃ act, ActsOnSlot s g (.semit gd k cnt p route rel) k.toNat (lanesOf g.width (active g gd))
        (seqOp s g (.semit gd k cnt p route rel) 2 0 0) act ∧
      ∀ x u, (∀ l ∈ lanesOf g.width (active g gd), ∀ e, tblGet x.lanes l = some e → e.next.toNat < 2 ^ 60) →
        ¬ Awaits x (lanesOf g.width (active g gd)) →
        diverging s g x p.toNat (cnt.toNat + 1) (lanesOf g.width (active g gd)) = none →
        routeFault s (groupWho s s.cur g) ((lanesOf g.width (active g gd)).map (laneRoute s g x route)) = (u, none) →
        act x = (lanesOf g.width (active g gd)).foldl (fun v l => emitLane s.cur u.fresh k.toNat rel g (laneRoute s g x route l)
            (lanePayload s g p.toNat (cnt.toNat + 1) l) l v)
          (seqOp u g (.semit gd k cnt p route rel) 2 (lanesOf g.width (active g gd)).length 0) := by
  refine ⟨_, (onGroup_of_some hs _).trans (congrArg _ (if_neg (counter_not_full room))), fun x u low ready agree routes => ?_⟩
  refine (if_neg ?_).trans ((if_neg (not_recordPending ready)).trans ?_)
  · rw [List.any_eq_true]
    rintro ⟨l, hl, high⟩
    cases he : tblGet x.lanes l with
    | none => simp [he] at high
    | some e => exact absurd (low l hl e he) (Nat.not_lt.2 (by simpa [he] using high))
  · simp only [agree, routes]

/-- SMARK journals a mark for each lane where every bound is below NEXT (R243, R246). -/
theorem smark_actsOnSlot (p : BitVec 7) :
    ∃ act, ActsOnSlot s g (.smark gd k p) k.toNat (lanesOf g.width (active g gd)) (seqOp s g (.smark gd k p) 1 0 0) act ∧
      ∀ x, (∀ l ∈ lanesOf g.width (active g gd), (baseOf s g 0 p l).toNat < ((tblGet x.lanes l).map (·.next.toNat)).getD 0) →
        act x = (lanesOf g.width (active g gd)).foldl (fun v l => journal v (siteOf s g) s.cur s.fresh
            { seqid := ((tblGet x.lanes l).map (·.seqid)).getD 0, kind := 2, token := (baseOf s g 0 p l).toNat, gen := 0, route := 0
              digest := 0, site := siteOf s g, asid := asidOf s (siteOf s g) (ctxOf s g) })
          (seqOp s g (.smark gd k p) 1 (lanesOf g.width (active g gd)).length 0) := by
  refine ⟨_, (onGroup_of_some hs _).trans (congrArg _ (if_neg (counter_not_full room))), fun x below => if_neg ?_⟩
  rw [List.any_eq_true]
  rintro ⟨l, hl, high⟩
  exact absurd (below l hl) (Nat.not_lt.2 (of_decide_eq_true high))

/-! ### SCLOSE (R243) -/

theorem sclose_traps (lacks : ∀ x, Owns s g k.toNat x → ∃ l ∈ lanesOf g.width g.exec, tblGet x.lanes l = none) :
    exec (.sclose k) s = .next (trapAt s s.cur 0x29 (small k.toNat)) := by
  refine (onGroup_of_some hs _).trans (congrArg _ ((if_neg (counter_not_full room)).trans ?_))
  cases own : ownSlot s g k.toNat with
  | none => rfl
  | some x =>
    obtain ⟨l, hl, missing⟩ := lacks x (ownSlot_eq_some.1 own)
    refine if_pos ?_
    rw [Bool.not_eq_true', Bool.eq_false_iff, ne_eq, allMembers_iff]
    exact fun members => by simpa [missing] using members l hl

theorem sclose_closes {x : SeqSlot} (own : Owns s g k.toNat x) (members : ∀ l ∈ lanesOf g.width g.exec, (tblGet x.lanes l).isSome) :
    exec (.sclose k) s = .next (x.lanes.foldl (fun v e =>
        journal (closeMarks v (siteOf s g) (ctxOf s g) e.2.seqid s.cur s.fresh) (siteOf s g) s.cur s.fresh
          { seqid := e.2.seqid, kind := 3, token := e.2.next.toNat % 2 ^ 60, gen := 0, route := 0, digest := 0, site := siteOf s g
            asid := asidOf s (siteOf s g) (ctxOf s g) })
      ((endLookups s.cur x (seqOp s g (.sclose k) 1 x.lanes.length 0)).upTeam g.team fun t =>
        { t with seqs := tblErase t.seqs k.toNat })) := by
  refine (onGroup_of_some hs _).trans (congrArg _ ((if_neg (counter_not_full room)).trans ?_))
  simp only [ownSlot_eq_some.2 own]
  exact if_neg (by simp [allMembers_iff.2 members])

end

end Sys2Proof.Laws.Sequences

namespace Sys2Proof
open Machine Laws.Slots Laws.Sequences

/-- Settles O44: SOPEN by the test that it makes of its slot and its members, the others by the use that they can make of theirs. -/
theorem sequences : Obligations.Sequences := by
  refine ⟨fun s g gd k v hs room => ?opens, fun s g gd k hs room => ?uses⟩
  case opens =>
    intro ls rd lane slot isOpen clash op issue
    have issues (i : Instr) (replay : Bool) :
        afterOpening s g i k.toNat v.toNat ls replay = issue i (if replay then k.toNat + 1 else 0) replay := by
      simp only [afterOpening, seqOp, stage_of_length]
      rfl
    refine ⟨fun some_ clash => ⟨?_, ?_⟩, fun closed free => ⟨?_, ?_⟩⟩
    · exact (onGroup_of_some hs _).trans (congrArg _ (openSlot_of_clash room some_ clash))
    · exact (onGroup_of_some hs _).trans (congrArg _ (openSlot_of_clash room some_ clash))
    · exact (onGroup_of_some hs _).trans (congrArg _ ((openSlot_of_free room closed free).trans (issues _ true)))
    · refine (onGroup_of_some hs _).trans (congrArg _ ((openSlot_of_free room closed free).trans ?_))
      refine (if_neg Bool.false_ne_true).trans ((foldl_journal_cur _ _ _ _ _).trans ?_)
      rw [issues]
      exact List.foldl_map
  case uses =>
    refine ⟨fun d => ?fetch, fun cnt p route rel => ?emit, fun p => ?mark, sclose_traps hs room k, fun x own => sclose_closes hs room k own⟩
    case fetch =>
      obtain ⟨act, onSlot, fetches⟩ := sopenFetch_actsOnSlot hs room gd k d
      refine ⟨onSlot.traps, onSlot.idles, fun some_ x usable ready fresh => ?_⟩
      obtain ⟨g', o, acted, ops, next, ctr, stage, writes⟩ := fetches x ready fresh
      exact ⟨_, g', o, (onSlot.acts some_ usable).trans (congrArg _ acted), by simp, ops, next, ctr, stage, rfl, writes⟩
    case emit =>
      obtain ⟨act, onSlot, emits⟩ := semit_actsOnSlot hs room gd k cnt p route rel
      exact ⟨onSlot.traps, onSlot.idles, fun some_ x u usable low ready agree routes =>
        (onSlot.acts some_ usable).trans (congrArg _ (emits x u low ready agree routes))⟩
    case mark =>
      obtain ⟨act, onSlot, marks⟩ := smark_actsOnSlot hs room gd k p
      refine ⟨onSlot.traps, onSlot.idles, fun some_ x usable below => (onSlot.acts some_ usable).trans (congrArg _ (marks x fun l hl => ?_))⟩
      obtain ⟨e, he⟩ := Option.isSome_iff_exists.1 (usable.2 l hl)
      simpa [he] using below l hl e he

end Sys2Proof

/-! ## The entry of a trap, and the return from it (R271 to R276) -/

namespace Sys2Proof.Laws.Trapping
open Machine

theorem hi32_append_lo32 (x : Word64) : hi32 x ++ lo32 x = x := by
  rw [hi32_eq, lo32_eq]
  exact BitVec.extractLsb'_append_extractLsb'_eq_extractLsb' rfl |>.trans BitVec.extractLsb'_eq_self

theorem vecOk_eq_true {v : Word64} (named : v ≠ 0) (aligned : v.toNat % 4 = 0) (inside : v.toNat < 0xFC000000000000) : vecOk v = true := by
  have named' : ¬ v = 0#64 := named
  simpa [vecOk, aligned, named'] using inside

/-- R273: outside handler mode and outside a transaction the group enters the handler that its TRAPVEC names. -/
theorem trapWord_enters {s : State} {n : Nat} {g : Group} (hg : tblGet s.groups n = some g) (outside : g.handler = false)
    (noTx : g.tx = none) (named : vecOk (trapVec s (siteOf s g) (ctxOf s g)) = true) (word : Word) (info : Word64) (idx : Nat) :
    trapWord s n word info idx = s.putGroup n (enterHandler (trapVec s (siteOf s g) (ctxOf s g)) word info idx g) := by
  simp [trapWord, hg, noTx, outside, named]

/-- R273: the registers k as a handler finds them. -/
theorem cellGet_enterHandler_k (vec : Word64) (word : Word) (info : Word64) (idx : Nat) (g : Group) (j : Nat) :
    cellGet (enterHandler vec word info idx g).k j =
      match j with
      | 0 => lo32 g.pc
      | 1 => hi32 g.pc
      | 2 => BitVec.ofNat 32 idx
      | 3 => word
      | 4 => lo32 g.exec
      | 5 => hi32 g.exec
      | _ => cellGet g.k j := by
  unfold enterHandler goto
  simp only [cellGet_cellSet]
  match j with
  | 0 | 1 | 2 | 3 | 4 | 5 => rfl
  | n + 6 => rfl

/-! ### TRAP and BKPT (R275) -/

theorem clip_eq_zero_iff (g : Group) (m : Word64) : clip g m = 0 ↔ ¬ ∃ l, l < g.width ∧ l < 64 ∧ m.getLsbD l = true := by
  constructor
  · rintro empty ⟨l, inWidth, _, set⟩
    have bit := getLsbD_clip g m l
    simp [empty, set, inWidth] at bit
  · intro none_
    refine BitVec.eq_of_getLsbD_eq fun l small => ?_
    rw [getLsbD_clip, show (0 : Word64).getLsbD l = false from BitVec.getLsbD_zero, Bool.and_eq_false_iff, decide_eq_false_iff_not,
      ← Bool.not_eq_true]
    exact not_and_or.1 fun ⟨set, inWidth⟩ => none_ ⟨l, inWidth, small, set⟩

section
variable {s : State} {g : Group} (hs : Selected s g)
include hs

theorem trapAfter_of_selected (code : Nat) (info : Word64) :
    trapAfter s s.cur code info = trapWord s s.cur (BitVec.ofNat 32 code) info (g.idx + 1) := by
  rw [trapAfter, show tblGet s.groups s.cur = some g from hs]
  rfl

theorem trap_of_selected (gd : BitVec 5) (code : BitVec 16) : exec (.trap gd code) s = .next (
    if clip g (active g gd) = 0 then s.putGroup s.cur (advance 1 g)
    else trapWord s s.cur (BitVec.ofNat 32 0x38) (small code.toNat) (g.idx + 1)) := by
  refine (onGroup_of_some hs _).trans ?_
  rw [trapAfter_of_selected hs]

theorem bkpt_of_selected (gd : BitVec 5) (code : BitVec 16) : exec (.bkpt gd code) s = .next (
    if clip g (active g gd) = 0 ∨ bkEnabled s (siteOf s g) (ctxOf s g) = false then s.putGroup s.cur (advance 1 g)
    else trapWord s s.cur (BitVec.ofNat 32 0x39) (small code.toNat) (g.idx + 1)) := by
  refine (onGroup_of_some hs _).trans ?_
  simp only [trapAfter_of_selected hs, Bool.or_eq_true, decide_eq_true_eq, Bool.not_eq_true']

end

/-! ### TRET (R274) -/

theorem append_toNat_mod_four (hi lo : Word) : (hi ++ lo).toNat % 4 = lo.toNat % 4 := by
  rw [BitVec.toNat_append, ← Nat.shiftLeft_add_eq_or_of_lt lo.isLt, Nat.shiftLeft_eq]
  omega

theorem returnBad_of_aligned {g : Group} (aligned : (cellGet g.k 1 ++ cellGet g.k 0).toNat % 4 = 0) (h : Header) :
    returnBad h g = decide (h.count < (cellGet g.k 2).toNat) := by
  rw [append_toNat_mod_four] at aligned
  simp [returnBad, aligned]

/-- R274: EXEC comes from k4:k5, and the registers stay. -/
theorem returnFrom_fields (h : Header) (g : Group) :
    (returnFrom h g).handler = false ∧ (returnFrom h g).exec = clip g (cellGet g.k 5 ++ cellGet g.k 4) ∧ (returnFrom h g).v = g.v ∧
      (returnFrom h g).s = g.s ∧ (returnFrom h g).p = g.p ∧ (returnFrom h g).q = g.q ∧ (returnFrom h g).k = g.k := by
  simp only [returnFrom, goto]
  split_ifs <;> exact ⟨rfl, rfl, rfl, rfl, rfl, rfl, rfl⟩

theorem returnFrom_of_eq {h : Header} {g : Group} (last : (cellGet g.k 2).toNat = h.count) :
    (returnFrom h g).pc = cellGet g.k 1 ++ cellGet g.k 0 + 4 + BitVec.ofNat 64 (4 * h.count) ∧ (returnFrom h g).hdr = none ∧
      (returnFrom h g).idx = 0 := by
  have next : returnFrom h g = goto _ _ := if_pos last
  rw [next]
  exact ⟨rfl, rfl, rfl⟩

theorem returnFrom_of_lt {h : Header} {g : Group} (inside : (cellGet g.k 2).toNat < h.count) :
    (returnFrom h g).pc = cellGet g.k 1 ++ cellGet g.k 0 ∧ (returnFrom h g).hdr = some h ∧ (returnFrom h g).idx = (cellGet g.k 2).toNat ∧
      (returnFrom h g).entered = false := by
  have again : returnFrom h g = _ := if_neg (Nat.ne_of_lt inside)
  rw [again]
  exact ⟨rfl, rfl, rfl, rfl⟩

section
variable {s : State} {g : Group} (hs : Selected s g)
include hs

theorem tret_outside (outside : g.handler = false) : exec .tret s = .next (trapAt s s.cur 0x02 0x72F00000) := by
  refine (onGroup_of_some hs _).trans ?_
  rw [outside]
  rfl

section
variable (inside : g.handler = true)
include inside

theorem tret_misaligned (odd : (cellGet g.k 1 ++ cellGet g.k 0).toNat % 4 ≠ 0) :
    exec .tret s = .next (trapAt s s.cur 0x04 (cellGet g.k 1 ++ cellGet g.k 0)) := by
  refine (onGroup_of_some hs _).trans (congrArg _ ?_)
  simp only [inside, Bool.not_true, Bool.false_eq_true, if_false]
  exact if_pos odd

section
variable (aligned : (cellGet g.k 1 ++ cellGet g.k 0).toNat % 4 = 0) {u : State} {w : Nat}
  (fetched : fetchWord s s.cur g (cellGet g.k 1 ++ cellGet g.k 0).toNat = (u, some w)) (cur : u.cur = s.cur)
include aligned fetched cur

theorem tret_of_illegal (illegal : decodeHeader w = none) : exec .tret s = .next (trapAt u s.cur 0x01 0) := by
  refine (onGroup_of_some hs _).trans (congrArg _ ?_)
  simp only [inside, Bool.not_true, Bool.false_eq_true, if_false, pair, aligned, ne_eq, not_true, fetched, cur, illegal]

theorem tret_of_legal (kept : tblGet u.groups s.cur = some g) {h : Header} (legal : decodeHeader w = some h) : exec .tret s = .next (
    if h.count < (cellGet g.k 2).toNat then trapAt u s.cur 0x01 0 else u.putGroup s.cur (returnFrom h g)) := by
  refine (onGroup_of_some hs _).trans (congrArg _ ?_)
  simp only [inside, Bool.not_true, Bool.false_eq_true, if_false, pair, aligned, ne_eq, not_true, fetched, cur, legal,
    returnBad_of_aligned aligned, decide_eq_true_eq, State.upGroup_of_some kept]

end
end
end

end Sys2Proof.Laws.Trapping

namespace Sys2Proof
open Machine Laws.Trapping

/-- Settles O45, from what the entry of a handler leaves in the group. -/
theorem trapEntry : Obligations.TrapEntry := by
  intro s g n code info hg outside noTx vec named aligned inside u
  have entered : u = s.putGroup n (enterHandler vec (BitVec.ofNat 32 code) info g.idx g) := by
    show trapWord s n _ info (((tblGet s.groups n).map (·.idx)).getD 0) = _
    rw [hg]
    exact trapWord_enters hg outside noTx (vecOk_eq_true named aligned inside) _ info g.idx
  have k := cellGet_enterHandler_k vec (BitVec.ofNat 32 code) info g.idx g
  rw [entered]
  refine ⟨rfl, rfl, fun m other => by simp [Ne.symm other], enterHandler vec (BitVec.ofNat 32 code) info g.idx g, by simp, rfl, rfl, rfl,
    rfl, rfl, rfl, rfl, rfl, ?_, k 2, k 3, ?_, k 6, k 7, fun l small => getLsbD_onesBelow g.width l small, rfl, rfl, rfl, rfl, rfl, rfl, rfl⟩
  · rw [k 1, k 0]
    exact hi32_append_lo32 g.pc
  · rw [k 5, k 4]
    exact hi32_append_lo32 g.exec

/-- Settles O46: TRAP, BKPT and TRET, each from its equation over the selected group. -/
theorem softwareTrapsAndReturn : Obligations.SoftwareTrapsAndReturn := by
  refine ⟨fun s g gd code hs => ?raise, fun s g hs => ⟨tret_outside hs, fun inside => ?tret⟩⟩
  case raise =>
    intro some_ enabled enter skip
    have empty : clip g (active g gd) = 0 ↔ ¬ some_ := clip_eq_zero_iff g _
    have info : small code.toNat = BitVec.ofNat 64 code.toNat := by
      rw [small, Nat.mod_eq_of_lt (by omega)]
    have disabled : bkEnabled s (siteOf s g) (ctxOf s g) = false ↔ ¬ enabled := Bool.not_eq_true _ |>.symm.to_iff
    rw [trap_of_selected hs, bkpt_of_selected hs, info]
    simp only [empty, disabled, ← not_and_or]
    exact ⟨fun h => by rw [if_neg (not_not.2 h)], fun h => by rw [if_pos h], fun h => by rw [if_neg (not_not.2 h)], fun h => by rw [if_pos h]⟩
  case tret =>
    intro a
    refine ⟨tret_misaligned hs inside, fun aligned u w fetched cur kept => ?_⟩
    refine ⟨tret_of_illegal hs inside aligned fetched cur, fun h legal => ?_⟩
    rw [tret_of_legal hs inside aligned fetched cur kept legal]
    intro k2
    refine ⟨fun beyond => congrArg _ (if_pos beyond), fun within_ => ⟨returnFrom h g, congrArg _ (if_neg (Nat.not_lt.2 within_)), ?_⟩⟩
    obtain ⟨left, mask, v, sr, p, q, k⟩ := returnFrom_fields h g
    exact ⟨left, fun l _ => by rw [mask, getLsbD_clip, Bool.and_comm], returnFrom_of_eq, returnFrom_of_lt, v, sr, p, q, k⟩

end Sys2Proof

/-! ## Control registers and diagnostic arrays (R278 to R284) -/

namespace Sys2Proof.Laws.SystemRegisters
open Machine

theorem privRead_iff (n : Nat) : privRead n = true ↔ n = 0x012 ∨ n = 0x020 ∨ n = 0x021 ∨ n = 0x022 := by
  simp [privRead, or_assoc]

theorem freeWrite_iff (n : Nat) : freeWrite n = true ↔ n < 3 := by
  simp [freeWrite]
  omega

section
variable {s : State} {g : Group} (hs : Selected s g)
include hs

/-- R278, R279: a read that its context may not make traps; any other is a uniform instruction. -/
theorem csrr_of_selected (d : BitVec 6) (n : BitVec 10) : exec (.csrr d n) s =
    if privRead n.toNat ∧ ctxPriv s (siteOf s g) (ctxOf s g) = false then .next (trapAt s s.cur 0x3A (small n.toNat))
    else if Legal.csrWide n then uni64 s 1 d fun g => csrValue s g n.toNat
    else uni32 s 1 d fun g => lo32 (csrValue s g n.toNat) := by
  refine (onGroup_of_some hs _).trans ?_
  simp only [uni64, uni32, onGroup_of_some hs, Bool.and_eq_true, Bool.not_eq_true']
  split_ifs <;> rfl

theorem csrw_of_selected (src : BitVec 7) (n : BitVec 10) : exec (.csrw src n) s =
    .next (if freeWrite n.toNat = false ∧ ctxPriv s (siteOf s g) (ctxOf s g) = false then trapAt s s.cur 0x3A (small n.toNat)
      else (csrWrite s g n.toNat (if Legal.csrWide n then usrc64 s g 0 src else (usrc s g tInt 0 src).setWidth 64)).upGroup s.cur
        (advance 1)) := by
  refine (onGroup_of_some hs _).trans ?_
  simp only [Bool.and_eq_true, Bool.not_eq_true']

end

theorem csrWrite_test {s : State} {g : Group} {k : Nat} (core : (groupWho s s.cur g).core = some k) (x : Word64) :
    csrWrite s g 0x030 x = s.upCore k fun e => { e with test := x.getLsbD 0 } := by
  simp only [csrWrite, core]

end Sys2Proof.Laws.SystemRegisters

namespace Sys2Proof.Laws.DiagnosticAccess
open Machine

/-- The core that a diagnostic access of the group reaches: its own. -/
def ownCore (s : State) (g : Group) : Option Nat := (groupWho s s.cur g).core

theorem diagOk_iff (s : State) (g : Group) (arr row : Nat) : diagOk s g arr row = true ↔
    (∃ k e, ownCore s g = some k ∧ tblGet s.cores k = some e ∧ e.test = true) ∧ diagRowOk arr row = true := by
  unfold diagOk ownCore
  rw [Bool.and_eq_true, and_congr_left_iff]
  intro _
  cases (groupWho s s.cur g).core with
  | none => simp
  | some k => cases he : tblGet s.cores k <;> simp [he]

/-- What a DIAGWR of a word to row r, at cell k of its array, leaves of a core (R282, R283). -/
def diagWritten (arr r k : Nat) (x : Word) (c : Core) : Core :=
  match arr with
  | 0 => { c with rf := tblSet c.rf k x }
  | 1 => { c with stashRaw := tblSet c.stashRaw k x }
  | _ => { c with repair := cellSet c.repair r (repairEntry x) }

/-- DIAGWR changes the group's core by f: a write to the register file or the stash loses what the core's groups hold there (R284). -/
def afterDiagwr (s : State) (g : Group) (arr : BitVec 4) (k : Nat) (f : Core → Core) : State :=
  (if arr = 2 then s.upCore k f
    else scrambleCore (s.upCore k f) (groupWho s s.cur g).site (((teamOf s g).map (·.core)).getD 0)).upGroup s.cur (advance 2)

section
variable {s : State} {g : Group} (hs : Selected s g) (row : BitVec 7) (arr : BitVec 4) (word : BitVec 5)
include hs

section
variable (bad : diagOk s g arr.toNat (usrc s g tInt 0 row).toNat = false)
include bad

theorem diagrd_traps (d : BitVec 6) : exec (.diagrd d row arr word) s = .next (trapAt s s.cur 0x3B (small (usrc s g tInt 0 row).toNat)) := by
  refine (onGroup_of_some hs _).trans ?_
  simp only [bad, Bool.not_false, if_true]

theorem diagwr_traps (x : BitVec 7) : exec (.diagwr row x arr word) s = .next (trapAt s s.cur 0x3B (small (usrc s g tInt 0 row).toNat)) := by
  refine (onGroup_of_some hs _).trans ?_
  simp only [bad, Bool.not_false, if_true]

end

section
variable {k : Nat} {e : Core} (core : ownCore s g = some k) (he : tblGet s.cores k = some e)
  (ok : diagOk s g arr.toNat (usrc s g tInt 0 row).toNat = true)
include core he ok

theorem diagrd_reads (d : BitVec 6) : exec (.diagrd d row arr word) s = .next (s.putGroup s.cur (advance 2 (writeS g d.toNat (
    if arr = 2 then cellGet e.repair (usrc s g tInt 0 row).toNat
    else (tblGet (if arr = 0 then e.rf else e.stashRaw) (diagCell s.draws e.repair arr.toNat (usrc s g tInt 0 row).toNat word.toNat)).getD
      (Config.freeWord s.draws (readIdx 12 0)))))) := by
  refine (onGroup_of_some hs _).trans ?_
  unfold ownCore at core
  simp only [ok, core, he, Bool.not_true, Bool.false_eq_true, if_false, Option.bind_some, Option.map_some, Option.getD_some]

theorem diagwr_writes (x : BitVec 7) : exec (.diagwr row x arr word) s = .next (afterDiagwr s g arr k (
    diagWritten arr.toNat (usrc s g tInt 0 row).toNat (diagCell s.draws e.repair arr.toNat (usrc s g tInt 0 row).toNat word.toNat)
      (usrc s g tInt 1 x))) := by
  refine (onGroup_of_some hs _).trans ?_
  unfold ownCore at core
  simp only [ok, core, he, Bool.not_true, Bool.false_eq_true, if_false, Option.bind_some, Option.map_some, Option.getD_some]
  rfl

end
end

/-! ### What a core loses (R284) -/

theorem foldl_writes_mem {α : Type} (p : α → Bool) (f : State → α → Cells 8) : ∀ (xs : List α) (s : State),
    ∃ m, xs.foldl (fun s x => if p x then { s with mem := f s x } else s) s = { s with mem := m }
  | [], s => ⟨s.mem, rfl⟩
  | x :: xs, s => by
    obtain ⟨m, rest⟩ := foldl_writes_mem p f xs (if p x then { s with mem := f s x } else s)
    refine ⟨m, rest.trans ?_⟩
    split_ifs <;> rfl

/-- A group of the core loses its vector registers and its queues, and nothing else; the core itself stays. -/
theorem scrambleCore_keeps (s : State) (site core : Nat) : (scrambleCore s site core).cores = s.cores ∧
    ∀ n g, tblGet s.groups n = some g → ∃ g', tblGet (scrambleCore s site core).groups n = some g' ∧
      g' = { g with v := g'.v, q := g'.q, hq := g'.hq, feed := g'.feed } := by
  unfold scrambleCore
  extract_lets onCore mine lose s1
  obtain ⟨m, only⟩ := foldl_writes_mem (fun e : Nat × Team => onCore e.2)
    (fun s2 e => writeBytes s2.mem (stashLoc e.1 0) ((List.range e.2.stash).map fun k => (scrambled s e.1 3 k).truncate 8)) s1.teams s1
  rw [only]
  refine ⟨rfl, fun n g hg => ⟨(lose (n, g)).2, ?_, ?_⟩⟩
  · refine (tblGet_map_group s.groups lose (fun e => ?_) n).trans (by rw [hg]; rfl)
    exact (apply_ite Prod.fst _ _ _).trans (ite_self _)
  · by_cases here : mine g = true
    · rw [show lose (n, g) = _ from if_pos here]
    · rw [show lose (n, g) = _ from if_neg here]

section
variable {s : State} {g : Group} (hs : Selected s g) {k : Nat} {e : Core} (he : tblGet s.cores k = some e) (f : Core → Core)
include hs he

theorem afterDiagwr_repair : tblGet (afterDiagwr s g 2 k f).cores k = some (f e) ∧ (afterDiagwr s g 2 k f).mem = s.mem ∧
    tblGet (afterDiagwr s g 2 k f).groups s.cur = some (advance 2 g) := by
  have selected : tblGet s.groups s.cur = some g := hs
  rw [afterDiagwr, if_pos rfl]
  simp [he, selected]

theorem afterDiagwr_group (arr : BitVec 4) : tblGet (afterDiagwr s g arr k f).cores k = some (f e) ∧
    ∃ g', tblGet (afterDiagwr s g arr k f).groups s.cur = some g' ∧ AtNext 2 g g' ∧ g'.s = g.s ∧ g'.p = g.p ∧ g'.exec = g.exec := by
  by_cases repair : arr = 2
  · subst repair
    obtain ⟨cores, _, group⟩ := afterDiagwr_repair hs he f
    exact ⟨cores, advance 2 g, group, atNext_advance 2 rfl rfl rfl rfl rfl, by simp⟩
  · obtain ⟨cores, groups⟩ := scrambleCore_keeps (s.upCore k f) (groupWho s s.cur g).site (((teamOf s g).map (·.core)).getD 0)
    obtain ⟨g', group, frame⟩ := groups s.cur g hs
    rw [afterDiagwr, if_neg repair]
    refine ⟨by simp [cores, he], advance 2 g', by simp [group], atNext_advance 2 ?_ ?_ ?_ ?_ ?_, ?_⟩
    all_goals
      rw [frame]
    simp

end

end Sys2Proof.Laws.DiagnosticAccess

namespace Sys2Proof
open Machine Laws.SystemRegisters Laws.DiagnosticAccess

/-- Settles O47: CSRR as a uniform instruction, CSRW by the register that it names. -/
theorem controlRegisters : Obligations.ControlRegisters := by
  intro s g n hs site c privileged wide
  have unprivileged : ctxPriv s site c = false ↔ ¬ privileged := Bool.not_eq_true _ |>.symm.to_iff
  have wide_eq : Legal.csrWide n = wide := rfl
  refine ⟨fun d => ?read, fun src => ?write⟩
  case read =>
    intro secret
    have refused : privRead n.toNat = true ∧ ctxPriv s site c = false ↔ secret ∧ ¬ privileged := and_congr (privRead_iff _) unprivileged
    rw [csrr_of_selected hs]
    refine ⟨fun h => if_pos (refused.2 h), fun allowed => ?_⟩
    rw [if_neg (refused.not.2 allowed), wide_eq]
    refine ⟨fun w => ?_, fun w => ?_⟩
    · rw [if_pos w]
      exact uni64_done hs 1 d _
    · rw [if_neg (Bool.not_eq_true _ ▸ w)]
      exact uni32_done hs 1 d _
  case write =>
    intro free x next
    have refused : freeWrite n.toNat = false ∧ ctxPriv s site c = false ↔ ¬ free ∧ ¬ privileged :=
      and_congr ((Bool.not_eq_true _).symm.to_iff.trans (freeWrite_iff _).not) unprivileged
    rw [csrw_of_selected hs]
    refine ⟨fun locked user => congrArg _ (if_pos (refused.2 ⟨locked, user⟩)), fun may => ?_⟩
    rw [if_neg (refused.not.2 (not_and_or.2 (may.imp not_not.2 not_not.2)))]
    refine ⟨?_, ?_, ?_, ?_, ?_, ?_, ?_, ?_, ?_, fun number k core => ?test⟩
    case test =>
      rw [number, csrWrite_test core]
      rfl
    all_goals
      intro number
      rw [number]
      rfl

/-- Settles O48: the trap outside test mode or range, the word that DIAGRD gives, and what DIAGWR leaves. -/
theorem diagnosticArrays : Obligations.DiagnosticArrays := by
  intro s g row arr word hs small_ r core
  refine ⟨fun refused => ?traps, fun k e hk he test inRange => ?runs⟩
  case traps =>
    have bad : diagOk s g arr.toNat r = false := by
      rw [← Bool.not_eq_true, diagOk_iff, not_and_or, Bool.not_eq_true]
      exact refused
    exact ⟨diagrd_traps hs row arr word bad, diagwr_traps hs row arr word bad⟩
  case runs =>
    have ok : diagOk s g arr.toNat r = true := (diagOk_iff s g arr.toNat r).2 ⟨⟨k, e, hk, he, test⟩, inRange⟩
    have arrays : arr = 0 ∨ arr = 1 ∨ arr = 2 := by bv_omega
    intro cell
    refine ⟨fun d v inRf inStash inRepair => ?_, fun x => ?_⟩
    · rw [diagrd_reads hs row arr word hk he ok]
      refine congrArg (fun w => Host.Outcome.next (s.putGroup s.cur (advance 2 (writeS g d.toNat w)))) ?_
      rcases arrays with rfl | rfl | rfl
      · exact congrArg (Option.getD · _) (inRf rfl)
      · exact congrArg (Option.getD · _) (inStash rfl)
      · exact inRepair rfl
    · intro y
      have group := afterDiagwr_group hs he (diagWritten arr.toNat r cell y) arr
      refine ⟨_, diagWritten arr.toNat r cell y e, diagwr_writes hs row arr word hk he ok x, group.1, ?_, ?_, ?_, group.2⟩
      · rintro rfl
        rfl
      · rintro rfl
        rfl
      · rintro rfl
        exact ⟨rfl, (afterDiagwr_repair hs he _).2⟩

end Sys2Proof

/-! ## Landing barriers (R261 to R265) -/

namespace Sys2Proof.Laws.Landing
open Machine Laws.OwnAtomics

/-! ### Numbers in bytes (R5) -/

theorem leNat_lt : ∀ bs : List Byte, leNat bs < 256 ^ bs.length
  | [] => by simp [leNat]
  | b :: bs => by
    have rest := leNat_lt bs
    have byte := b.isLt
    rw [leNat, List.length_cons, Nat.pow_succ']
    omega

theorem drop_take_readBytes (m : Cells 8) (a : Nat) {k o n : Nat} (h : o + n ≤ k) :
    ((readBytes m a k).drop o).take n = readBytes m (a + o) n := by
  apply List.ext_getElem
  · simp [readBytes]
    omega
  · intro i h1 h2
    simp [readBytes, Nat.add_assoc]

theorem readBytes_writeBytes_within (m : Cells 8) (a : Nat) (bs : List Byte) {o n : Nat} (h : o + n ≤ bs.length) :
    readBytes (writeBytes m a bs) (a + o) n = (bs.drop o).take n := by
  rw [← drop_take_readBytes _ a h, readBytes_writeBytes]

theorem bytesNum_readBytes (m : Cells 8) (a : Nat) {k o n : Nat} (h : o + n ≤ k) :
    bytesNum (readBytes m a k) o n = leNat (readBytes m (a + o) n) :=
  congrArg leNat (drop_take_readBytes m a h)

theorem leNat_readBytes_lt (m : Cells 8) (a n : Nat) : leNat (readBytes m a n) < 256 ^ n := by
  have bound := leNat_lt (readBytes m a n)
  simpa [readBytes] using bound

/-- The lowest byte of a number of eight. -/
theorem leNat_readBytes_one (m : Cells 8) (a : Nat) : leNat (readBytes m a 1) = leNat (readBytes m a 8) % 256 := by
  have byte := (readByte m (a + 0)).isLt
  show (readByte m (a + 0)).toNat + 256 * 0 = ((readByte m (a + 0)).toNat + 256 * _) % 256
  omega

/-! ### A barrier and its 32 bytes (R262) -/

/-- The fields that the 32 bytes at a place hold. -/
def Holds (m : Cells 8) (place quota pend count left gen flags : Nat) : Prop :=
  leNat (readBytes m (place + 24) 8) = quota ∧ leNat (readBytes m (place + 16) 8) = pend ∧ leNat (readBytes m (place + 14) 2) = count ∧
    leNat (readBytes m (place + 12) 2) = left ∧ leNat (readBytes m (place + 8) 4) = gen ∧ leNat (readBytes m (place + 0) 8) = flags

/-- The fields after an update, which closes the phase where LEFT and PEND are both 0 (R264). -/
def Settles (m : Cells 8) (place quota pend count left gen flags : Nat) : Prop :=
  if left = 0 ∧ pend = 0 then Holds m place quota quota count count ((gen + 1) % 2 ^ 32) (2 * (flags % 2))
  else Holds m place quota pend count left gen flags

/-- The barrier with these fields. -/
def held (quota pend count left gen flags : Nat) : Barrier :=
  { quota := quota, pend := pend, count := count, left := left, gen := gen, cerr := flags / 2 % 2 == 1, err := flags % 2 == 1 }

/-- The fields have room in their bytes. -/
def Fits (b : Barrier) : Prop := b.quota < 2 ^ 64 ∧ b.pend < 2 ^ 64 ∧ b.count < 2 ^ 16 ∧ b.left < 2 ^ 16 ∧ b.gen < 2 ^ 32

/-- ERR in bit 0, CERR in bit 1. -/
def flagBits (b : Barrier) : Nat := (if b.err then 1 else 0) + (if b.cerr then 2 else 0)

theorem flagBits_held {flags : Nat} (small : flags < 4) (quota pend count left gen : Nat) :
    flagBits (held quota pend count left gen flags) = flags := by
  interval_cases flags <;> rfl

theorem length_toBytes (b : Barrier) : b.toBytes.length = 32 := by simp [Barrier.toBytes, length_leBytes]

theorem holds_toBytes (m : Cells 8) (place : Nat) {b : Barrier} (fits : Fits b) :
    Holds (writeBytes m place b.toBytes) place b.quota b.pend b.count b.left b.gen (flagBits b) := by
  obtain ⟨quota, pend, count, left, gen⟩ := fits
  have flags : flagBits b < 256 ^ 8 := by
    unfold flagBits
    split_ifs <;> omega
  have field {o n v : Nat} (inside : o + n ≤ 32) (bytes : (b.toBytes.drop o).take n = leBytes n v) (room : v < 256 ^ n) :
      leNat (readBytes (writeBytes m place b.toBytes) (place + o) n) = v := by
    rw [readBytes_writeBytes_within m place _ (inside.trans_eq (length_toBytes b).symm), bytes, leNat_leBytes, Nat.mod_eq_of_lt room]
  exact ⟨field (by omega) rfl (by omega), field (by omega) rfl (by omega), field (by omega) rfl (by omega), field (by omega) rfl (by omega),
    field (by omega) rfl (by omega), field (by omega) rfl flags⟩

section
variable {m : Cells 8} {place quota pend count left gen flags : Nat} (h : Holds m place quota pend count left gen flags)
include h

theorem ofBytes_of_holds (small : flags < 4) : Barrier.ofBytes (readBytes m place 32) = held quota pend count left gen flags := by
  obtain ⟨rfl, rfl, rfl, rfl, rfl, rfl⟩ := h
  have byte : bytesNum (readBytes m place 32) 0 1 = leNat (readBytes m (place + 0) 8) := by
    rw [bytesNum_readBytes m place (by omega), leNat_readBytes_one, Nat.mod_eq_of_lt (by omega)]
  simp only [Barrier.ofBytes, held, byte]
  simp only [bytesNum_readBytes m place (k := 32) (o := 24) (n := 8) (by omega), bytesNum_readBytes m place (k := 32) (o := 16) (n := 8) (by omega),
    bytesNum_readBytes m place (k := 32) (o := 14) (n := 2) (by omega), bytesNum_readBytes m place (k := 32) (o := 12) (n := 2) (by omega),
    bytesNum_readBytes m place (k := 32) (o := 8) (n := 4) (by omega)]

theorem fits_of_holds : Fits (held quota pend count left gen flags) := by
  obtain ⟨rfl, rfl, rfl, rfl, rfl, rfl⟩ := h
  exact ⟨leNat_readBytes_lt m _ 8, leNat_readBytes_lt m _ 8, leNat_readBytes_lt m _ 2, leNat_readBytes_lt m _ 2, leNat_readBytes_lt m _ 4⟩

end

theorem settle_held_of_zero (quota count gen flags : Nat) :
    Barrier.settle (held quota 0 count 0 gen flags) = held quota quota count count ((gen + 1) % 2 ^ 32) (2 * (flags % 2)) := by
  rcases Nat.mod_two_eq_zero_or_one flags with even | odd
  · simp [Barrier.settle, held, even]
  · simp [Barrier.settle, held, odd]

theorem settle_held_of_ne {quota pend count left gen flags : Nat} (stays : ¬ (left = 0 ∧ pend = 0)) :
    Barrier.settle (held quota pend count left gen flags) = held quota pend count left gen flags := if_neg stays

/-- An update is written as it settles. -/
theorem settles_toBytes (m : Cells 8) (place : Nat) {quota pend count left gen flags : Nat} (fits : Fits (held quota pend count left gen flags))
    (small : flags < 4) :
    Settles (writeBytes m place (Barrier.settle (held quota pend count left gen flags)).toBytes) place quota pend count left gen flags := by
  obtain ⟨hq, hp, hc, hl, hg⟩ := fits
  unfold Settles
  split_ifs with closes
  · obtain ⟨rfl, rfl⟩ := closes
    have next : (gen + 1) % 2 ^ 32 < 2 ^ 32 := Nat.mod_lt _ (by omega)
    have written := holds_toBytes m place (b := held quota quota count count ((gen + 1) % 2 ^ 32) (2 * (flags % 2))) ⟨hq, hq, hc, hc, next⟩
    rw [flagBits_held (by omega)] at written
    rwa [settle_held_of_zero]
  · have written := holds_toBytes m place (b := held quota pend count left gen flags) ⟨hq, hp, hc, hl, hg⟩
    rw [flagBits_held small] at written
    rwa [settle_held_of_ne closes]

theorem readByte_toBytes_of_outside (m : Cells 8) {place a : Nat} (b : Barrier) (outside : a < place ∨ place + 32 ≤ a) :
    readByte (writeBytes m place b.toBytes) a = readByte m a :=
  outside.elim (readByte_writeBytes_of_lt _ m place a) fun h => readByte_writeBytes_of_ge _ m place a (by rwa [length_toBytes])

/-! ### A barrier of the team's own stash -/

theorem stashRead_state_of_unbound {s : State} {team : Nat} (free : Unbound s team) (who : Option Nat) (off n : Nat) :
    (stashRead s who team off n).1 = s ∧ (stashRead s who team off n).2.bytes = readBytes s.mem (stashLoc team off) n ∧
      (stashRead s who team off n).2.ctime = 0 := by
  have entered : ∀ ps : List (Nat × Nat), ps.foldl (fun s p => enterStash s who team p.1 false) s = s := fun ps => by
    induction ps with
    | nil => rfl
    | cons p ps ih => rw [List.foldl_cons, enterStash_of_unbound free, ih]
  have zero : ∀ k : Nat, (List.replicate k 0).foldl max 0 = 0 := fun k => by
    induction k with
    | zero => rfl
    | succ k ih => exact ih
  simp [stashRead, entered, touchStash_of_unbound free, boundLine_of_unbound free, readBytes, stashLoc, Nat.add_assoc, zero]

theorem readBarrier_of_unbound {s : State} {team : Nat} (free : Unbound s team) (who : Option Nat) (off : Nat) :
    readBarrier s who team off = (s, Barrier.ofBytes (readBytes s.mem (stashLoc team off) 32), 0) := by
  obtain ⟨state, bytes, ctime⟩ := stashRead_state_of_unbound free who off 32
  rw [readBarrier, state, bytes, ctime]

theorem writeBarrier_of_unbound {s : State} {team off : Nat} (free : Unbound s team) (aligned : off % 32 = 0) (who : Option Nat) (b : Barrier) :
    writeBarrier s who team off b = stashPut s (stashLoc team off) b.toBytes := by
  have line : off % 128 + b.toBytes.length ≤ 128 := by rw [length_toBytes]; omega
  have some_ : b.toBytes ≠ [] := List.ne_nil_of_length_pos (by rw [length_toBytes]; omega)
  simp only [writeBarrier, stashWrite, pieces_within_line line some_, List.foldl_cons, List.foldl_nil, enterStash_of_unbound free,
    touchStash_of_unbound free, boundLine_of_unbound free]
  rfl

theorem barrierPlace_own {s : State} {g : Group} {a : Word} (near : a.toNat < 2 ^ 24) : barrierPlace s g a = some (g.team, a.toNat) := by
  rw [barrierPlace, stashWindow_of_lt near]

theorem barrierFaults_own_eq_nil {s : State} {g : Group} {a : Word} (near : a.toNat < 2 ^ 24) (inside : a.toNat + 32 ≤ stashSize s g.team)
    (aligned : a.toNat % 32 = 0) (own : Bool) : barrierFaults s g a own = [] := by
  have fine := checkWindow_own_eq_nil (s := s) (g := g) (l := uniLane g) (a.setWidth 64) inside aligned
  unfold barrierFaults
  rw [stashWindow_of_lt near]
  cases own <;> exact fine

/-! ### The instructions (R263) -/

/-- A release to the cluster has nothing to wait for once every operation is complete and CHZ has passed (R319). -/
theorem releaseMet_clu {s : State} {g : Group} (drained : g.wcb = []) (done : ∀ o ∈ g.ops, o.stage = .complete)
    (passed : g.chz + 2 ≤ s.clock / 4) (uid : Nat) : releaseMet s g .clu uid = true := by
  have opsDone_ : opsDone g uid = true := by
    rw [opsDone, List.all_eq_true]
    exact fun o ho => by simp [done o ho]
  simp [releaseMet, wideScope, opsDone_, drained, passes, ticks, passed]

/-- The writes of a barrier and of its group change nothing else. -/
theorem stashPut_putGroup (s : State) (loc n : Nat) (bs : List Byte) (g' : Group) :
    (∀ m, m ≠ n → tblGet ((stashPut s loc bs).putGroup n g').groups m = tblGet s.groups m) ∧
      tblGet ((stashPut s loc bs).putGroup n g').groups n = some g' := by
  refine ⟨fun m other => ?_, by simp⟩
  simp [Ne.symm other, stashPut, clearUnits]

section
variable {s : State} {g : Group} {x : BitVec 7} (hs : Selected s g) (still : flying g = false) (free : Unbound s g.team)
  (near : (usrc s g tInt 0 x).toNat < 2 ^ 24) (inside : (usrc s g tInt 0 x).toNat + 32 ≤ stashSize s g.team)
  (aligned : (usrc s g tInt 0 x).toNat % 32 = 0)
include hs near inside aligned

section
include still free

theorem binit_own (count quota : BitVec 7) : exec (.binit x count quota) s = .next (
    if (usrc s g tInt 1 count).toNat = 0 ∨ 65535 < (usrc s g tInt 1 count).toNat then
      trapAt s s.cur 0x31 (small (usrc s g tInt 0 x).toNat)
    else
      (stashPut s (stashLoc g.team (usrc s g tInt 0 x).toNat)
        (Barrier.init (usrc s g tInt 1 count).toNat (usrc s g tInt 2 quota).toNat).toBytes).putGroup s.cur (advance 2 g)) := by
  refine (onGroup_of_some hs _).trans (congrArg _ ?_)
  simp only [barrierFaults_own_eq_nil near inside aligned, still, barrierPlace_own near, writeBarrier_of_unbound free aligned]
  have selected : tblGet (stashPut s (stashLoc g.team (usrc s g tInt 0 x).toNat)
    (Barrier.init (usrc s g tInt 1 count).toNat (usrc s g tInt 2 quota).toNat).toBytes).groups s.cur = some g := hs
  rw [State.upGroup_of_some selected]
  rfl

theorem bexp_own (n : BitVec 7) : exec (.bexp x n) s = .next (
    (stashPut s (stashLoc g.team (usrc s g tInt 0 x).toNat)
      ((Barrier.ofBytes (readBytes s.mem (stashLoc g.team (usrc s g tInt 0 x).toNat) 32)).expect (usrc s g tInt 1 n).toNat).toBytes).putGroup
        s.cur (advance 1 g)) := by
  refine (onGroup_of_some hs _).trans (congrArg _ ?_)
  simp only [barrierFaults_own_eq_nil near inside aligned, still, barrierPlace_own near, writeBarrier_of_unbound free aligned,
    readBarrier_of_unbound free]
  exact State.upGroup_of_some (s := stashPut s _ _) hs _

end

section
include free

theorem barv_own {d : BitVec 6} (register : d.toNat < 32) (n : BitVec 7) (drained : g.wcb = []) (met : releaseMet s g .clu s.fresh = true)
    {b : Barrier} (hb : Barrier.ofBytes (readBytes s.mem (stashLoc g.team (usrc s g tInt 0 x).toNat) 32) = b) :
    exec (.barv d x n) s = .next (
      if b.left = 0 then trapAt (s.upGroup s.cur fun g => { g with wait := .none }) s.cur 0x31 (small (usrc s g tInt 0 x).toNat)
      else (stashPut s (stashLoc g.team (usrc s g tInt 0 x).toNat) (b.arrive (usrc s g tInt 1 n).toNat).toBytes).putGroup s.cur
        { advance 1 (writeS g d.toNat (BitVec.ofNat 32 b.gen)) with wait := .none }) := by
  have selected : tblGet s.groups s.cur = some g := hs
  refine (onGroup_of_some hs _).trans (congrArg _ ?_)
  simp only [barrierFaults_own_eq_nil near inside aligned, drainWcb_of_nil selected drained]
  show tryBarv s s.cur _ _ _ = _
  simp only [tryBarv, arriveBarv, selected, met, if_true, barrierPlace_own near, readBarrier_of_unbound free,
    writeBarrier_of_unbound free aligned, hb, barrierState, writeU, register]
  refine congrArg (ite _ _) ?_
  rw [State.upGroup_of_some (s := stashPut _ _ _) (g := g) selected, State.upGroup_putGroup]

end

section
include still

theorem bwait_own (d : BitVec 6) (n : BitVec 7) :
    exec (.bwait d x n) s = .next (tryBwait s s.cur d.toNat (usrc s g tInt 0 x) (usrc s g tInt 1 n)) := by
  refine (onGroup_of_some hs _).trans (congrArg _ ?_)
  simp only [barrierFaults_own_eq_nil near inside aligned, still]
  rfl

end
end

/-- With every read returned and the engine's writes passed, a group leaves its wait at once (R320). -/
theorem leaveWait_clu {s : State} {n : Nat} {g : Group} (hg : tblGet s.groups n = some g) (done : ∀ o ∈ g.ops, o.stage = .complete)
    (passed : g.engChz + 2 ≤ s.clock / 4) :
    leaveWait s n .clu true = s.putGroup n { advance 1 { g with chz := max g.chz g.readC } with wait := .none } := by
  have read : readsDone g = true := by
    rw [readsDone, List.all_eq_true]
    exact fun o ho => by simp [done o ho]
  rw [leaveWait, State.upGroup_of_some hg]
  simp [read, passes, ticks, passed]
  rfl

theorem writeS_fields (g : Group) (r : Nat) (x : Word) : (writeS g r x).ops = g.ops ∧ (writeS g r x).engChz = g.engChz ∧
    (writeS g r x).chz = g.chz ∧ (writeS g r x).readC = g.readC := by
  rw [writeS_frame]
  exact ⟨rfl, rfl, rfl, rfl⟩

/-! ### BWAIT's look at the barrier (R263) -/

section
variable {s : State} {g : Group} (hs : Selected s g) (free : Unbound s g.team) {a : Word} (near : a.toNat < 2 ^ 24) (d : Nat) (gen : Word)
  {b : Barrier} (hb : Barrier.ofBytes (readBytes s.mem (stashLoc g.team a.toNat) 32) = b)
include hs free near hb

theorem tryBwait_waits (early : ¬ (1 ≤ b.phases gen ∧ b.phases gen < 2 ^ 31)) :
    tryBwait s s.cur d a gen = s.putGroup s.cur { g with wait := .bwait d a gen } := by
  have selected : tblGet s.groups s.cur = some g := hs
  simp only [tryBwait, selected, barrierPlace_own near, readBarrier_of_unbound free, hb, if_neg early]

theorem tryBwait_leaves (closed : 1 ≤ b.phases gen ∧ b.phases gen < 2 ^ 31) (register : d < 32) (done : ∀ o ∈ g.ops, o.stage = .complete)
    (passed : g.engChz + 2 ≤ s.clock / 4) : tryBwait s s.cur d a gen = s.putGroup s.cur
      { advance 1 { writeS g d (BitVec.ofNat 32 ((if b.cerr then 1 else 0) + if 1 < b.phases gen then 2 else 0)) with
        chz := max g.chz g.readC } with wait := .none } := by
  have selected : tblGet s.groups s.cur = some g := hs
  have same : s.upGroup s.cur (fun g => { g with readC := max g.readC 0 }) = s.putGroup s.cur g := by
    rw [State.upGroup_of_some selected]
    simp only [Nat.max_zero]
  simp only [tryBwait, selected, barrierPlace_own near, readBarrier_of_unbound free, hb, if_pos closed, same, writeU, if_pos register,
    State.upGroup_putGroup]
  obtain ⟨ops, engChz, chz, readC⟩ := writeS_fields g d (BitVec.ofNat 32 ((if b.cerr then 1 else 0) + if 1 < b.phases gen then 2 else 0))
  generalize writeS g d (BitVec.ofNat 32 ((if b.cerr then 1 else 0) + if 1 < b.phases gen then 2 else 0)) = g1 at *
  have own : tblGet (s.putGroup s.cur g1).groups s.cur = some g1 := by simp
  rw [leaveWait_clu own (by rwa [ops]) (by rwa [engChz]), State.putGroup_putGroup, chz, readC]

end

end Sys2Proof.Laws.Landing

namespace Sys2Proof
open Machine Laws.Landing

/-- Settles O39: each instruction's update of the barrier's 32 bytes, and BWAIT's look at them. -/
theorem landingBarriers : Obligations.LandingBarriers := by
  refine ⟨?updates, ?bwait⟩
  case updates =>
    intro s g x hs still free off near inside aligned place field holds apart settles others
    have outside (b : Barrier) : apart (writeBytes s.mem place b.toBytes) := fun a h => readByte_toBytes_of_outside s.mem b h
    refine ⟨fun count quota => ?_, fun n quota pend count left gen flags here small_ => ?_⟩
    · intro c q
      rw [binit_own hs still free near inside aligned count quota]
      refine ⟨fun ok => ?_, fun bad => congrArg _ (if_pos (by omega))⟩
      have fits : Fits (Barrier.init c q) := by
        have word : q < 2 ^ 32 := (usrc s g tInt 2 quota).isLt
        simp only [Fits, Barrier.init]
        omega
      obtain ⟨rest, own⟩ := stashPut_putGroup s place s.cur (Barrier.init c q).toBytes (advance 2 g)
      exact ⟨_, congrArg _ (if_neg (by omega)), holds_toBytes s.mem place fits, outside _, rest, own⟩
    · intro bytes
      have read := ofBytes_of_holds here small_
      obtain ⟨hq, hp, hc, hl, hg⟩ := fits_of_holds here
      have sum : (pend + bytes) % 2 ^ 64 < 2 ^ 64 := Nat.mod_lt _ (by omega)
      refine ⟨?_, fun d register drained done passed => ?_⟩
      · rw [bexp_own hs still free near inside aligned n, read]
        obtain ⟨rest, own⟩ := stashPut_putGroup s place s.cur ((held quota pend count left gen flags).expect bytes).toBytes (advance 1 g)
        exact ⟨_, rfl, settles_toBytes s.mem place (pend := (pend + bytes) % 2 ^ 64) ⟨hq, sum, hc, hl, hg⟩ small_, outside _, rest, own⟩
      · rw [barv_own hs free near inside aligned register n drained (releaseMet_clu drained done passed _) read]
        refine ⟨fun none_ => congrArg _ (if_pos none_), fun some_ => ?_⟩
        obtain ⟨rest, own⟩ := stashPut_putGroup s place s.cur ((held quota pend count left gen flags).arrive bytes).toBytes
          { advance 1 (writeS g d.toNat (BitVec.ofNat 32 gen)) with wait := .none }
        have fewer : left - 1 < 2 ^ 16 := (Nat.sub_le left 1).trans_lt hl
        exact ⟨_, congrArg _ (if_neg some_), settles_toBytes s.mem place (pend := (pend + bytes) % 2 ^ 64) (left := left - 1)
          ⟨hq, sum, hc, fewer, hg⟩ small_, outside _, rest, own⟩
  case bwait =>
    intro s g x n d hs still free off near inside aligned register place gen k cerr
    rw [bwait_own hs still near inside aligned d n]
    have phases : (Barrier.ofBytes (readBytes s.mem place 32)).phases (usrc s g tInt 1 n) = k := by
      have stored : (Barrier.ofBytes (readBytes s.mem place 32)).gen = gen := bytesNum_readBytes s.mem place (by omega)
      rw [Barrier.phases, stored]
    have error : (if (Barrier.ofBytes (readBytes s.mem place 32)).cerr then 1 else 0) = cerr := by
      have low : bytesNum (readBytes s.mem place 32) 0 1 = (readByte s.mem place).toNat := Nat.add_zero _
      simp only [Barrier.ofBytes, low, beq_iff_eq]
      split_ifs <;> omega
    refine ⟨fun early => ⟨_, congrArg _ (tryBwait_waits hs free near _ _ rfl (by rw [phases]; omega)), nofun⟩, fun closed done passed => congrArg _ ?_⟩
    rw [tryBwait_leaves hs free near d.toNat _ rfl (by rwa [phases]) register done passed, phases, error]

end Sys2Proof

/-! ## Barriers of a team and of a cluster (R266) -/

namespace Sys2Proof.Laws.Meeting
open Machine

/-! ### A table whose numbers rise -/

theorem tblUp_eq_map {α : Type} (k : Nat) (f : α → α) : ∀ {t : Table α}, (tblKeys t).Pairwise (· < ·) →
    tblUp t k f = t.map fun e => (e.1, if e.1 = k then f e.2 else e.2)
  | [], _ => rfl
  | (j, x) :: t, rise => by
    obtain ⟨first, rest⟩ := List.pairwise_cons.1 rise
    have above : ∀ e ∈ t, j < e.1 := fun e he => first e.1 (List.mem_map_of_mem he)
    have ih := tblUp_eq_map k f rest
    by_cases here : j = k
    · subst here
      have others : t.map (fun e => (e.1, if e.1 = j then f e.2 else e.2)) = t :=
        (List.map_congr_left fun e he => by rw [if_neg (above e he).ne']; rfl).trans t.map_id
      simp [tblUp, tblGet, tblSet, others]
    · rw [List.map_cons, ← ih]
      cases found : tblGet t k with
      | none => simp [tblUp, tblGet, here, found]
      | some y =>
        have later : j < k := above _ (mem_of_tblGet found)
        simp [tblUp, tblGet, tblSet, here, found, later.not_gt, Ne.symm here]

/-- A change that a search does not look at leaves the number that it finds. -/
theorem number_tblFind_tblUp {α : Type} {t : Table α} (rise : (tblKeys t).Pairwise (· < ·)) (k : Nat) {f : α → α} {p : Nat → α → Bool}
    (unseen : ∀ x, p k (f x) = p k x) : (tblFind (tblUp t k f) p).map (·.1) = (tblFind t p).map (·.1) := by
  have same : ((fun e : Nat × α => p e.1 e.2) ∘ fun e : Nat × α => (e.1, if e.1 = k then f e.2 else e.2)) = fun e => p e.1 e.2 := by
    funext e
    by_cases h : e.1 = k
    · simp [h, unseen]
    · simp [h]
  rw [tblFind, tblUp_eq_map k f rise, List.find?_map, same, Option.map_map]
  rfl

/-! ### Arrivals -/

/-- The wait at barrier id of the team or of the cluster. -/
def waitAt (cluster : Bool) (id : Nat) : Wait := if cluster then .barc id else .bart id

theorem waitAt_ne_none (cluster : Bool) (id : Nat) : waitAt cluster id ≠ .none := by cases cluster <;> exact nofun

section
variable (s : State) (cluster : Bool) (id : Nat) (ns : List Nat) (team : Nat)

theorem setArrived_groups : (setArrived s cluster id ns team).groups = s.groups := rfl

theorem setArrived_mem : (setArrived s cluster id ns team).mem = s.mem := rfl

theorem arrivedAt_setArrived (t : Nat) : arrivedAt (setArrived s cluster id ns team) cluster id t =
    if team = t ∧ (tblGet s.teams t).isSome then ns else arrivedAt s cluster id t := by
  unfold arrivedAt setArrived State.upTeam
  rw [tblGet_tblUp]
  cases tblGet s.teams t with
  | none => simp
  | some x => by_cases h : team = t <;> cases cluster <;> simp [h]

theorem members_setArrived (t : Nat) :
    (tblGet (setArrived s cluster id ns team).teams t).map (·.groups) = (tblGet s.teams t).map (·.groups) := by
  unfold setArrived State.upTeam
  rw [tblGet_tblUp]
  cases tblGet s.teams t with
  | none => simp
  | some x => by_cases h : team = t <;> cases cluster <;> simp [h]

end

/-- The arrival of the group that moves (R266). -/
def came (s : State) (g : Group) (cluster : Bool) (id : Nat) : State :=
  setArrived (s.putGroup s.cur { g with wait := waitAt cluster id }) cluster id
    (s.cur :: (arrivedAt s cluster id g.team).filter (· != s.cur)) g.team

theorem releaseMet_of_idle {s : State} {g : Group} (drained : g.wcb = []) (idle : g.ops = []) (passed : g.chz + 2 ≤ s.clock / 4) (sc : Scope)
    (uid : Nat) : releaseMet s g sc uid = true := by
  simp [releaseMet, opsDone, opsPerformed, passes, ticks, drained, idle, passed]

/-- An arrival whose release holds is recorded, and the barrier looks whether it opens. -/
theorem barrier_arrives {s : State} {g : Group} (id : BitVec 2) (cluster : Bool) (hs : Selected s g) (drained : g.wcb = []) (idle : g.ops = [])
    (passed : g.chz + 2 ≤ s.clock / 4) : exec (if cluster then .barc id else .bart id) s =
      .next (openBarrier (came s g cluster id.toNat) g.team cluster id.toNat) := by
  have met : ∀ sc uid, releaseMet s g sc uid = true := releaseMet_of_idle drained idle passed
  have arrives : ∀ c, arriveBar (drainWcb s s.cur) s.cur c id.toNat = openBarrier (came s g c id.toNat) g.team c id.toNat := fun c => by
    rw [drainWcb_of_nil hs drained, arriveBar]
    simp only [show tblGet s.groups s.cur = some g from hs, met, if_true]
    rfl
  cases cluster with
  | false => exact (onGroup_of_some hs _).trans (congrArg _ (arrives false))
  | true => exact (onGroup_of_some hs _).trans (congrArg _ (arrives true))

/-- A live group of the barrier's teams has yet to arrive. -/
theorem openBarrier_of_missing {s : State} {team id t n : Nat} {cluster : Bool} (part : t ∈ barrierTeams s team cluster)
    (member : n ∈ liveMembers s t) (missing : n ∉ arrivedAt s cluster id t) : openBarrier s team cluster id = s := by
  refine if_neg fun all => missing ?_
  have whole := List.all_eq_true.1 (List.all_eq_true.1 all t part) n member
  simpa using whole

/-- An arrived group leaves, where it waits at the barrier. -/
def leaves (cluster : Bool) (id : Nat) (s : State) (n : Nat) : State :=
  if ((tblGet s.groups n).map (waitsAt cluster id)).getD false then leaveWait s n (if cluster then .clu else .team) false else s

theorem openBarrier_of_all {s : State} {team id : Nat} {cluster : Bool}
    (all : ∀ t ∈ barrierTeams s team cluster, ∀ n ∈ liveMembers s t, n ∈ arrivedAt s cluster id t) :
    openBarrier s team cluster id = ((barrierTeams s team cluster).flatMap (arrivedAt s cluster id)).foldl (leaves cluster id)
      ((barrierTeams s team cluster).foldl (fun s t => setArrived s cluster id [] t) s) :=
  if_pos (List.all_eq_true.2 fun t part => List.all_eq_true.2 fun n member => by simpa using all t part n member)

/-! ### The barrier opens -/

/-- The group as it leaves the barrier: it acquires, and goes on after its instruction. -/
def gone (cluster : Bool) (e : Group) : Group :=
  { advance 1 { e with chz := if cluster then max e.chz e.readC else e.chz } with wait := .none }

theorem gone_wait (cluster : Bool) (e : Group) (w : Wait) : gone cluster { e with wait := w } = gone cluster e := by
  let chz := if cluster then max e.chz e.readC else e.chz
  have same : ({ e with chz := chz, wait := w } : Group).hdr = e.hdr ∧ clauseCount { e with chz := chz, wait := w } = clauseCount e ∧
      ({ e with chz := chz, wait := w } : Group).idx = e.idx ∧ ({ e with chz := chz } : Group).hdr = e.hdr ∧
      clauseCount { e with chz := chz } = clauseCount e ∧ ({ e with chz := chz } : Group).idx = e.idx := ⟨rfl, rfl, rfl, rfl, rfl, rfl⟩
  show ({ advance 1 { e with chz := chz, wait := w } with wait := .none } : Group) = { advance 1 { e with chz := chz } with wait := .none }
  simp only [advance, same]
  split_ifs <;> rfl

theorem leaveWait_of_done {s : State} {n : Nat} {e : Group} (he : tblGet s.groups n = some e) (done : ∀ o ∈ e.ops, o.stage = .complete)
    (cluster : Bool) : leaveWait s n (if cluster then .clu else .team) false = s.putGroup n (gone cluster e) := by
  have read : readsDone e = true := List.all_eq_true.2 fun o ho => by simp [done o ho]
  have acquired : afterFence .acq (if cluster then .clu else .team) e = { e with chz := if cluster then max e.chz e.readC else e.chz } := by
    cases cluster <;> rfl
  rw [leaveWait, State.upGroup_of_some he, gone, ← acquired, if_pos (by simp [read])]

theorem waitsAt_iff {cluster : Bool} {id : Nat} {e : Group} : waitsAt cluster id e = true ↔ e.wait = waitAt cluster id := by
  simp [waitsAt, waitAt]

theorem leaves_frame (cluster : Bool) (id : Nat) (s : State) (n : Nat) :
    (leaves cluster id s n).mem = s.mem ∧ (leaves cluster id s n).teams = s.teams ∧
      ∀ m, m ≠ n → tblGet (leaves cluster id s n).groups m = tblGet s.groups m := by
  unfold leaves
  split
  · exact ⟨rfl, rfl, fun m other => by simp [leaveWait, State.upGroup, Ne.symm other]⟩
  · exact ⟨rfl, rfl, fun _ _ => rfl⟩

theorem leaves_self {s : State} {n : Nat} {e : Group} (he : tblGet s.groups n = some e) {cluster : Bool} {id : Nat}
    (done : e.wait = waitAt cluster id → ∀ o ∈ e.ops, o.stage = .complete) :
    tblGet (leaves cluster id s n).groups n = some (if e.wait = waitAt cluster id then gone cluster e else e) := by
  unfold leaves
  by_cases waits : e.wait = waitAt cluster id
  · rw [if_pos (by simp [he, waitsAt_iff, waits]), leaveWait_of_done he (done waits), if_pos waits]
    simp
  · rw [if_neg (by simp [he, waitsAt_iff, waits]), he, if_neg waits]

/-- Of the arrived groups those that wait at the barrier leave, and nothing else changes. -/
theorem groups_foldl_leaves {cluster : Bool} {id : Nat} : ∀ (ns : List Nat) {s : State} {n : Nat} {e : Group}, tblGet s.groups n = some e →
    (n ∈ ns → e.wait = waitAt cluster id → ∀ o ∈ e.ops, o.stage = .complete) →
    tblGet (ns.foldl (leaves cluster id) s).groups n = some (if n ∈ ns ∧ e.wait = waitAt cluster id then gone cluster e else e)
  | [], _, _, _, he, _ => he
  | m :: ns, s, n, e, he, done => by
    rw [List.foldl_cons]
    by_cases here : n = m
    · subst here
      have self := leaves_self he (done List.mem_cons_self)
      by_cases waits : e.wait = waitAt cluster id
      · rw [if_pos waits] at self
        have left : (gone cluster e).wait ≠ waitAt cluster id := (waitAt_ne_none cluster id).symm
        rw [groups_foldl_leaves ns self fun _ again => absurd again left]
        simp [waits, left]
      · rw [if_neg waits] at self
        rw [groups_foldl_leaves ns self fun _ again => absurd again waits]
        simp [waits]
    · rw [groups_foldl_leaves ns (((leaves_frame cluster id s m).2.2 n here).trans he) fun h => done (List.mem_cons_of_mem m h)]
      simp [here]

theorem frame_foldl_leaves (cluster : Bool) (id : Nat) : ∀ (ns : List Nat) (s : State),
    (ns.foldl (leaves cluster id) s).mem = s.mem ∧ (ns.foldl (leaves cluster id) s).teams = s.teams
  | [], _ => ⟨rfl, rfl⟩
  | n :: ns, s => by
    obtain ⟨mem, teams⟩ := frame_foldl_leaves cluster id ns (leaves cluster id s n)
    obtain ⟨mem', teams', -⟩ := leaves_frame cluster id s n
    exact ⟨mem.trans mem', teams.trans teams'⟩

/-- The arrivals of the teams are cleared. -/
theorem foldl_setArrived (cluster : Bool) (id : Nat) : ∀ (ts : List Nat) (s : State),
    (ts.foldl (fun s t => setArrived s cluster id [] t) s).mem = s.mem ∧
    (ts.foldl (fun s t => setArrived s cluster id [] t) s).groups = s.groups ∧
    ∀ t, t ∈ ts ∨ arrivedAt s cluster id t = [] → arrivedAt (ts.foldl (fun s t => setArrived s cluster id [] t) s) cluster id t = []
  | [], _ => ⟨rfl, rfl, fun _ h => h.resolve_left List.not_mem_nil⟩
  | a :: ts, s => by
    obtain ⟨mem, groups, cleared⟩ := foldl_setArrived cluster id ts (setArrived s cluster id [] a)
    refine ⟨mem, groups, fun t h => cleared t ?_⟩
    rw [arrivedAt_setArrived]
    rcases h with h | h
    · rcases List.mem_cons.1 h with rfl | h
      · right
        split_ifs with known
        · rfl
        · cases ht : tblGet s.teams t with
          | none => simp [arrivedAt, ht]
          | some x => exact absurd ⟨rfl, by simp [ht]⟩ known
      · exact .inl h
    · exact .inr (by simp [h])

/-! ### The teams of the barrier and their members -/

section
variable {s : State} {g : Group} {cluster : Bool} {id : Nat}

/-- An arrival leaves who belongs to the cluster. -/
theorem barrierTeams_came (rise : cluster = true → (tblKeys s.teams).Pairwise (· < ·)) :
    barrierTeams (came s g cluster id) g.team cluster = barrierTeams s g.team cluster := by
  cases cluster with
  | false => rfl
  | true =>
    let f : Team → Team := fun t => { t with barc := tblSet t.barc id (s.cur :: (arrivedAt s true id g.team).filter (· != s.cur)) }
    have after : (came s g true id).teams = tblUp s.teams g.team f := rfl
    have grids : (came s g true id).grids = s.grids := rfl
    have team : tblGet (came s g true id).teams g.team = (tblGet s.teams g.team).map f := by simp [after]
    have size : clusterSize (came s g true id) g.team = clusterSize s g.team := by
      unfold clusterSize
      rw [team, grids]
      cases tblGet s.teams g.team <;> rfl
    have rank : ∀ r, clusterTeam (came s g true id) g.team r = clusterTeam s g.team r := fun r => by
      unfold clusterTeam
      rw [team, grids, after]
      cases tblGet s.teams g.team with
      | none => rfl
      | some t =>
        have found := number_tblFind_tblUp (rise rfl) g.team (f := f) (p := fun _ x =>
          x.grid == t.grid && x.teamid == t.teamid / (((tblGet s.grids t.grid).map (·.launch.csize)).getD 1) *
            (((tblGet s.grids t.grid).map (·.launch.csize)).getD 1) + r) fun _ => rfl
        exact if_congr Iff.rfl rfl found
    simp [barrierTeams, size, rank]

theorem arrivedAt_came (t : Nat) : arrivedAt (came s g cluster id) cluster id t =
    if g.team = t ∧ (tblGet s.teams t).isSome then s.cur :: (arrivedAt s cluster id g.team).filter (· != s.cur)
    else arrivedAt s cluster id t := arrivedAt_setArrived _ _ _ _ _ _

theorem mem_arrivedAt_came {t n : Nat} (other : n ≠ s.cur) :
    n ∈ arrivedAt (came s g cluster id) cluster id t ↔ n ∈ arrivedAt s cluster id t := by
  rw [arrivedAt_came]
  split_ifs with here
  · simp [other, here.1]
  · rfl

theorem cur_mem_arrivedAt_came (known : (tblGet s.teams g.team).isSome) : s.cur ∈ arrivedAt (came s g cluster id) cluster id g.team := by
  rw [arrivedAt_came, if_pos ⟨rfl, known⟩]
  exact List.mem_cons_self

theorem group_came : tblGet (came s g cluster id).groups s.cur = some { g with wait := waitAt cluster id } := by
  rw [came, setArrived_groups]
  simp

theorem groups_came {n : Nat} (other : n ≠ s.cur) : tblGet (came s g cluster id).groups n = tblGet s.groups n := by
  rw [came, setArrived_groups]
  simp [Ne.symm other]

theorem liveMembers_came (hs : Selected s g) (t : Nat) : liveMembers (came s g cluster id) t = liveMembers s t := by
  have members : (tblGet (came s g cluster id).teams t).map (·.groups) = (tblGet s.teams t).map (·.groups) := members_setArrived ..
  rw [liveMembers, liveMembers, members]
  refine List.filter_congr fun n _ => ?_
  by_cases here : n = s.cur
  · subst here
    rw [group_came, hs]
    rfl
  · rw [groups_came here]

end

/-! ### What R266 says of a group that no other team of the barrier lists -/

section
variable {s : State} {g : Group} (id : BitVec 2) (cluster : Bool) (hs : Selected s g) (drained : g.wcb = []) (idle : g.ops = [])
  (passed : g.chz + 2 ≤ s.clock / 4) (rise : cluster = true → (tblKeys s.teams).Pairwise (· < ·))
include hs drained idle passed rise

/-- While a live group has yet to arrive, the arrival is recorded and the group waits. -/
theorem barrier_waits {t n : Nat} (part : t ∈ barrierTeams s g.team cluster) (member : n ∈ liveMembers s t) (other : n ≠ s.cur)
    (missing : n ∉ arrivedAt s cluster id.toNat t) :
    exec (if cluster then .barc id else .bart id) s = .next (came s g cluster id.toNat) := by
  rw [barrier_arrives id cluster hs drained idle passed, openBarrier_of_missing (t := t) (n := n)]
  · rwa [barrierTeams_came rise]
  · rwa [liveMembers_came hs]
  · rwa [mem_arrivedAt_came other]

/-- With the last arrival every group that waits at the barrier leaves it in one step, and the arrivals are cleared. -/
theorem barrier_opens (part : g.team ∈ barrierTeams s g.team cluster) (known : (tblGet s.teams g.team).isSome)
    (own : ∀ t ∈ barrierTeams s g.team cluster, s.cur ∈ liveMembers s t → t = g.team)
    (last : ∀ t ∈ barrierTeams s g.team cluster, ∀ n ∈ liveMembers s t, n = s.cur ∨ n ∈ arrivedAt s cluster id.toNat t)
    (done : ∀ t ∈ barrierTeams s g.team cluster, ∀ n ∈ arrivedAt s cluster id.toNat t, ∀ e, tblGet s.groups n = some e →
      e.wait = waitAt cluster id.toNat → ∀ o ∈ e.ops, o.stage = .complete) :
    ∃ u, exec (if cluster then .barc id else .bart id) s = .next u ∧ u.mem = s.mem ∧
      (∀ t ∈ barrierTeams s g.team cluster, arrivedAt u cluster id.toNat t = []) ∧ tblGet u.groups s.cur = some (gone cluster g) ∧
      ∀ n e, n ≠ s.cur → tblGet s.groups n = some e → tblGet u.groups n = some (
        if n ∈ (barrierTeams s g.team cluster).flatMap (arrivedAt s cluster id.toNat) ∧ e.wait = waitAt cluster id.toNat then gone cluster e
        else e) := by
  let v := came s g cluster id.toNat
  let ts := barrierTeams s g.team cluster
  let ns := ts.flatMap (arrivedAt v cluster id.toNat)
  let cleared := ts.foldl (fun s t => setArrived s cluster id.toNat [] t) v
  have teams : barrierTeams v g.team cluster = ts := barrierTeams_came rise
  have all : ∀ t ∈ barrierTeams v g.team cluster, ∀ n ∈ liveMembers v t, n ∈ arrivedAt v cluster id.toNat t := by
    intro t ht n hn
    rw [teams] at ht
    rw [liveMembers_came hs] at hn
    by_cases here : n = s.cur
    · subst here
      exact own t ht hn ▸ cur_mem_arrivedAt_came known
    · exact (mem_arrivedAt_came here).2 ((last t ht n hn).resolve_left here)
  have opened : openBarrier v g.team cluster id.toNat = ns.foldl (leaves cluster id.toNat) cleared := by
    rw [openBarrier_of_all all, teams]
  obtain ⟨clearedMem, clearedGroups, clearedTeams⟩ := foldl_setArrived cluster id.toNat ts v
  obtain ⟨leftMem, leftTeams⟩ := frame_foldl_leaves cluster id.toNat ns cleared
  refine ⟨_, (barrier_arrives id cluster hs drained idle passed).trans (congrArg _ opened), leftMem.trans clearedMem, fun t ht => ?_, ?_,
    fun n e other he => ?_⟩
  · rw [arrivedAt, leftTeams]
    exact clearedTeams t (.inl ht)
  · have waits : tblGet cleared.groups s.cur = some { g with wait := waitAt cluster id.toNat } := by rw [clearedGroups, group_came]
    have came_ : s.cur ∈ ns := List.mem_flatMap.2 ⟨_, part, cur_mem_arrivedAt_came known⟩
    rw [groups_foldl_leaves ns waits fun _ _ o ho => absurd ho (by simp [idle]), if_pos ⟨came_, rfl⟩, gone_wait]
  · have stands : tblGet cleared.groups n = some e := by rw [clearedGroups, groups_came other, he]
    have same : n ∈ ns ↔ n ∈ ts.flatMap (arrivedAt s cluster id.toNat) := by
      simp only [ns, List.mem_flatMap, v, mem_arrivedAt_came other]
    rw [groups_foldl_leaves ns stands, if_congr (and_congr same Iff.rfl) rfl rfl]
    intro member waits
    obtain ⟨t, ht, arrived⟩ := List.mem_flatMap.1 (same.1 member)
    exact done t ht n arrived e he waits

end

/-! ### One group listed in two teams -/

/-- A team of a cluster of two whose only group is group 1. -/
def sharingTeam (rank : Nat) : Team := freshTeam 0 0 rank 0 0 0 64 0 true false [1] [0]

def pairGrid : Grid where
  queue := 0
  pkt := 0
  ctx := 0
  launch := { readLaunch [] with csize := 2 }
  names := [0]
  next := 2
  endedTeams := []
  saved := []
  quanta := []
  stood := []
  branches := []
  cursors := []
  setCore := []
  round := 0
  commitTime := 0
  committing := false
  turns := []
  openChunks := 0
  chz := 0

/-- Both teams of the cluster list group 1, which stands in team 0 and moves. -/
def sharedGroupState : State :=
  { State.reset with
    cur := 1, clock := 8, grids := [(0, pairGrid)], teams := [(0, sharingTeam 0), (1, sharingTeam 1)]
    groups := [(1, freshGroup 0 0 64 0 [])] }

theorem sharedGroup_only {n : Nat} {e : Group} (known : tblGet sharedGroupState.groups n = some e) : n = 1 := by
  by_contra other
  have unknown : tblGet sharedGroupState.groups n = none := if_neg (Ne.symm other)
  exact nomatch unknown.symm.trans known

theorem sharedGroup_nobody (t : Nat) : arrivedAt sharedGroupState true 0 t = [] := by
  match t with
  | 0 => rfl
  | 1 => rfl
  | _ + 2 => rfl

/-- The arrival of the group in team 0 is none in team 1, and so the group waits. -/
theorem sharedGroup_waits : exec (.barc 0) sharedGroupState = .next (came sharedGroupState (freshGroup 0 0 64 0 []) true 0) :=
  (barrier_arrives (s := sharedGroupState) (g := freshGroup 0 0 64 0 []) (cluster := true) 0 rfl rfl rfl (by decide)).trans (congrArg _
    (openBarrier_of_missing (t := 1) (n := 1) (by decide) (by decide) (by decide)))

end Sys2Proof.Laws.Meeting

namespace Sys2Proof
open Machine Laws.Meeting

/-- Refutes O40: a group that two teams of a cluster list comes with BARC as the last of both, but its arrival is recorded in its own team
only, and it waits. `barrier_waits` and `barrier_opens` hold what R266 says of a group that no other team lists. -/
theorem not_teamBarriers : ¬ Obligations.TeamBarriers := by
  intro claim
  obtain ⟨-, opens⟩ := claim sharedGroupState (freshGroup 0 0 64 0 []) 0 true rfl rfl rfl rfl (by decide) (by decide) (by decide) (by decide)
    ⟨by decide, _, rfl, rfl⟩
  obtain ⟨u, ran, -, -, leavers, -⟩ := opens (fun _ _ _ ⟨_, _, known, _⟩ => .inl (sharedGroup_only known)) fun t _ n before => by
    have before : n ∈ arrivedAt sharedGroupState true 0 t := before
    rw [sharedGroup_nobody] at before
    exact nomatch before
  obtain rfl := Host.Outcome.next.inj (ran.symm.trans sharedGroup_waits)
  have stands := leavers 1 _ rfl (.inl rfl)
  exact absurd (congrArg (Option.map (·.wait)) stands) (by decide)

end Sys2Proof

/-! ## Schedules and queues (R267, R268, R361) -/

namespace Sys2Proof.Laws.Queueing
open Machine Laws.Waiting

/-! ### SCHNEXT (R267) -/

section
variable {s : State} {g : Group} {t : Team} {r : Grid} (hs : Selected s g) (ht : teamOf s g = some t) (hr : gridOf s g = some r) (d : BitVec 6)
include hs ht hr

theorem schnext_of_exhausted
    (exhausted : r.launch.sched = 0 ∨ r.launch.schlen ≤ (tblGet r.cursors (setOf r.launch t.teamid)).getD 0) :
    exec (.schnext d) s = .next ((writeU s s.cur d.toNat 0xFFFFFFFF).upGroup s.cur (advance 1)) := by
  refine (onGroup_of_some hs _).trans (congrArg _ ?_)
  simp only [ht, hr, if_pos exhausted]

/-- R361: the entry at the cursor of the team's set, which moves on. -/
theorem schnext_of_entry {cur : Nat} (at_ : (tblGet r.cursors (setOf r.launch t.teamid)).getD 0 = cur) (scheduled : r.launch.sched ≠ 0)
    (more : cur < r.launch.schlen) {u : State} {x : Nat}
    (read : engReadNum s (groupWho s s.cur g) (r.launch.sched.toNat + 4 * (r.launch.schlen * setOf r.launch t.teamid + cur)) 4 = (u, .ok x)) :
    exec (.schnext d) s = .next (
      let v := bumpCursor u t.grid (setOf r.launch t.teamid) cur
      (writeU v v.cur d.toNat (BitVec.ofNat 32 x)).upGroup v.cur (advance 1)) := by
  have left : ¬ (r.launch.sched = 0 ∨ r.launch.schlen ≤ cur) := not_or.2 ⟨scheduled, Nat.not_le.2 more⟩
  refine (onGroup_of_some hs _).trans (congrArg _ ?_)
  simp only [ht, hr, at_, if_neg left, read]

end

/-! ### QPUT up to its claim (R268) -/

theorem sizeOk_iff (n : Nat) : sizeOk n = true ↔ ∃ k, 2 ≤ k ∧ k ≤ 16 ∧ n = 2 ^ k := by
  simp only [sizeOk, List.any_eq_true, List.mem_range, beq_iff_eq]
  constructor
  · rintro ⟨k, small, rfl⟩
    exact ⟨k + 2, by omega, by omega, rfl⟩
  · rintro ⟨k, two, top, rfl⟩
    exact ⟨k - 2, by omega, by rw [Nat.sub_add_cancel two]⟩

/-- QPUT of a group that captured no operands and has nothing in flight or buffered. -/
theorem execQput_eq {s : State} {g : Group} (hs : Selected s g) (fresh : g.captured = none) (drained : g.wcb = []) (still : flying g = false)
    (d : BitVec 6) (q pkt : BitVec 7) (blk : Bool) : exec (.qput d q pkt blk) s =
      .next (tryQput s s.cur d.toNat (usrc64 s g 0 q) (usrc s g tInt 2 pkt).toNat blk) := by
  have packet : ((usrc s g tInt 2 pkt).setWidth 64).toNat = (usrc s g tInt 2 pkt).toNat := by
    rw [BitVec.toNat_setWidth]
    omega
  refine (onGroup_of_some hs _).trans (congrArg _ ?_)
  simp only [operands, fresh, still, Bool.false_eq_true, if_false, drainWcb_of_nil hs drained]
  exact congrArg (tryQput s s.cur d.toNat (usrc64 s g 0 q) · blk) packet

/-- With its packet aligned inside the stash and its header aligned at a home, QPUT comes to its claim. -/
theorem tryQput_of_home {s u : State} {n : Nat} {g : Group} (hg : tblGet s.groups n = some g) {hdr : Word64} {pkt loc : Nat}
    (place : homePlace s (groupWho s n g) hdr.toNat true = (u, .loc loc)) (inside : pkt + 64 ≤ stashSize s g.team) (aligned : pkt % 64 = 0)
    (line : hdr.toNat % 128 = 0) (d : Nat) (blk : Bool) : tryQput s n d hdr pkt blk = claimQueue u n g d hdr pkt blk loc := by
  have faultless : qputFaults s g pkt = [] := by simp [qputFaults, Nat.not_lt.2 inside, aligned]
  have notOdd : ¬ hdr.toNat % 128 ≠ 0 := not_not.2 line
  simp only [tryQput, hg, place, faultless]
  exact if_neg notOdd

/-- The location of the slot that a claim takes. -/
def slotOf (q : QueueHead) : Nat := (q.ring + 64 * (q.widx % q.size)) % 2 ^ 64

section
variable {u : State} {n : Nat} {g : Group} {d : Nat} {hdr : Word64} {pkt loc : Nat} {blk : Bool}
  (good : (loadAt u (some n) loc 128).2.bad = false) {q : QueueHead} (head : queueHead (loadAt u (some n) loc 128).2.bytes = q)
include good head

theorem claimQueue_of_malformed (malformed : sizeOk q.size = false) :
    claimQueue u n g d hdr pkt blk loc = trapAt (loadAt u (some n) loc 128).1 n 0x32 0 := by
  simp only [claimQueue, good, head, malformed, Bool.not_false, Bool.false_eq_true, if_true, if_false]

section
variable (legal : sizeOk q.size = true)
include legal

theorem claimQueue_of_full (full : q.size ≤ (q.widx + 2 ^ 64 - q.ridx) % 2 ^ 64) : claimQueue u n g d hdr pkt blk loc =
    (loadAt u (some n) loc 128).1.putGroup n
      (if blk then { g with wait := .qputFull d hdr pkt } else advance 2 (writeS64 g d (BitVec.allOnes 64))) := by
  simp only [claimQueue, good, head, legal, Bool.not_true, Bool.false_eq_true, if_false, if_pos full]
  exact (apply_ite _ _ _ _).symm

/-- R268: the slot is translated, and then claimed at the header. -/
theorem claimQueue_of_room (room : ¬ q.size ≤ (q.widx + 2 ^ 64 - q.ridx) % 2 ^ 64) {v : State} {p : Phys}
    (translated : engTranslate (loadAt u (some n) loc 128).1 (groupWho u n g) (slotOf q) true = (v, .ok p)) :
    claimQueue u n g d hdr pkt blk loc =
      let c := storeAt (dropPlace (dropOwnLine v n loc) n p) (some n) loc (leBytes 8 (q.widx + 1))
      writePacket (c.1.upGroup n fun g => { g with chz := max g.chz c.2, wait := .none }) n g d q.widx (slotOf q) pkt := by
  unfold slotOf at *
  simp only [claimQueue, good, head, legal, Bool.not_true, Bool.false_eq_true, if_false, if_neg room, translated]
  rfl

end
end

/-! ### The packet and its valid bit (R268) -/

/-- The group takes its index, and goes on. -/
def indexTaken (d widx c : Nat) (g : Group) : Group :=
  { advance 2 { writeS64 g d (BitVec.ofNat 64 widx) with chz := max (writeS64 g d (BitVec.ofNat 64 widx)).chz c } with wait := .none }

section
variable {s : State} {n : Nat} {g : Group} (hg : tblGet s.groups n = some g) (d w : Nat) (slot : Word64) (hdr0 : Word)
include hg

theorem finishQput_waits (early : releaseMet s g .dev s.fresh = false) :
    finishQput s n d slot w hdr0 = s.putGroup n { g with wait := .qputValid d slot w hdr0 } := by
  simp only [finishQput, hg, early, Bool.false_eq_true, if_false]

theorem finishQput_ends (met : releaseMet s g .dev s.fresh = true) {v : State} {c : Nat}
    (written : engWriteNum s (groupWho s n g) slot.toNat 4 (hdr0 ||| 0x80000000).toNat = (v, .ok c)) :
    finishQput s n d slot w hdr0 = v.upGroup n (indexTaken d w c) := by
  simp only [finishQput, hg, met, if_true, written]
  rfl

/-- The release of a packet in its slot is looked at again. -/
theorem groupWaitMet_qputValid (waits : g.wait = .qputValid d slot w hdr0) (alive : g.ended = false) (runs : g.stopped = false) :
    exec (.groupWaitMet n) s = .next (finishQput s n d slot w hdr0) := by
  have looks : (g.ended || halted s g || looksAtTurn s g) = false := by simp [alive, halted, runs, looksAtTurn, waits, longWait]
  show execGroupWaitMet n s = _
  simp only [execGroupWaitMet, hg, looks, lookAgain, waits, Bool.false_eq_true, if_false]

end

theorem writePacket_writes {s v : State} {n : Nat} {g : Group} {slot pkt c : Nat} {head : Word}
    (good : (stashRead s (some n) g.team pkt 64).2.bad = false)
    (first : BitVec.ofNat 32 (bytesNum (stashRead s (some n) g.team pkt 64).2.bytes 0 4 % 2 ^ 31) = head)
    (written : engWrite (stashRead s (some n) g.team pkt 64).1 (groupWho s n g) slot
      (leBytes 4 head.toNat ++ (stashRead s (some n) g.team pkt 64).2.bytes.drop 4) = (v, .ok c)) (d w : Nat) :
    writePacket s n g d w slot pkt =
      finishQput (v.upGroup n fun g => { g with chz := max g.chz c }) n d (BitVec.ofNat 64 slot) w head := by
  simp only [writePacket, good, first, written, Bool.false_eq_true, if_false]
  rfl

end Sys2Proof.Laws.Queueing

namespace Sys2Proof
open Machine Laws.Waiting Laws.Queueing

/-- Settles O42: SCHNEXT by its cursor, QPUT by its header, its claim and its release. -/
theorem schedulesAndQueues : Obligations.SchedulesAndQueues := by
  intro s g hs
  refine ⟨fun d t r ht hr => ?schedule, ?queue⟩
  case schedule =>
    intro give set cur
    exact ⟨schnext_of_exhausted hs ht hr d, fun scheduled more u x read => schnext_of_entry hs ht hr d rfl scheduled more read⟩
  case queue =>
    intro valid
    refine ⟨fun d slot widx head v c waits alive runs met written => ?_, fun fresh drained still d q pkt blk u p loc => ?_⟩
    · rw [groupWaitMet_qputValid hs d widx slot head waits alive runs, finishQput_ends hs d widx slot head met written]
      rfl
    · intro hdr from_ below line inside aligned translated target attr r good widx ridx size slot legal full
      have place := homePlace_of_mem below translated target attr
      rw [execQput_eq hs fresh drained still, tryQput_of_home hs place inside aligned line]
      have sized : sizeOk size = true ↔ legal := sizeOk_iff size
      refine ⟨fun bad => ?_, fun ok isFull => ?_, fun ok room v v2 v3 p2 c2 c3 e slotted => ?_⟩
      · rw [claimQueue_of_malformed good rfl (Bool.eq_false_iff.2 (sized.not.2 bad))]
      · rw [claimQueue_of_full good rfl (sized.2 ok) isFull]
      · intro claimed held packet whole head written done he
        have wide : (BitVec.ofNat 64 slot).toNat = slot := by
          rw [BitVec.toNat_ofNat]
          exact Nat.mod_mod _ _
        have claims : claimQueue u s.cur g d.toNat hdr from_ blk loc =
            finishQput done s.cur d.toNat (BitVec.ofNat 64 slot) widx head := by
          rw [claimQueue_of_room good rfl (sized.2 ok) room slotted]
          exact writePacket_writes whole rfl written _ _
        rw [claims]
        refine ⟨fun early => by rw [finishQput_waits he _ _ _ _ early], fun met last => ?_⟩
        rw [finishQput_ends he d.toNat widx (BitVec.ofNat 64 slot) head met (by rwa [wide])]
        rfl

end Sys2Proof

/-! ## Copies begin (R248 to R259) -/

namespace Sys2Proof.Laws.Copying
open Machine

/-! ### A copy joins the mover (R255, R257) -/

/-- The copy c of group n as it begins in u: with .resume at CPOFF, with .rel behind the stores that are not acknowledged. -/
def begun (u : State) (n : Nat) (i : Instr) (rel res : Bool) (cpoff : Word64) (c : Copy) : Copy :=
  let at_ : Nat := if res then min cpoff.toNat c.total else 0
  { c with
    uid := u.fresh, words := wordsOf i, start := at_, offset := at_, lowered := at_
    relOps := if rel then (tblGet (drainWcb u n).groups n).elim [] unacked else [] }

theorem startCopy_eq {u : State} {n : Nat} (cur : u.cur = n) (i : Instr) (rel res : Bool) (cpoff : Word64) (c : Copy) :
    startCopy u i rel res cpoff c =
      (let v : State := if rel then drainWcb u n else u
      { v with fresh := v.fresh + 1 }.upGroup n fun g =>
        { g with copies := g.copies ++ [begun u n i rel res cpoff c], wait := .probe u.fresh }) := by
  subst cur
  have same (v : State) (f f' : Group → Group) (agree : ∀ g, tblGet v.groups u.cur = some g → f g = f' g) :
      v.bump.upGroup u.cur f = v.bump.upGroup u.cur f' := by
    unfold State.upGroup
    cases hg : tblGet v.groups u.cur with
    | none => rw [tblUp_of_none (by simpa using hg), tblUp_of_none (by simpa using hg)]
    | some g => rw [tblUp_of_some (by simpa using hg), tblUp_of_some (by simpa using hg), agree g hg]
  cases rel with
  | false => rfl
  | true => exact same (drainWcb u u.cur) _ _ fun g hg => by simp [begun, hg]

/-! ### CPY (R249 to R251) -/

theorem twBits_eq {tw : Nat} (some_ : tw ≠ 0) (small : tw < 5) : twBits tw = [0, 4, 8, 16, 32].getD tw 0 := by
  have stored : 1 ≤ tw := Nat.one_le_iff_ne_zero.2 some_
  interval_cases tw <;> rfl

theorem cpyAlign_eq_nil {g : Group} {c : Copy} (sa : c.sa % 4 = 0) (da : c.da % 4 = 0) (sstr : c.sstr % 4 = 0) (dstr : c.dstr % 4 = 0) :
    cpyAlign g c = [] := by
  simp [cpyAlign, sa, da, sstr, dstr]

theorem copyBarFaults_eq_nil {s : State} {g : Group} {baron : Bool} {a : Word} (h : baron = true → barrierFaults s g a false = []) :
    copyBarFaults s g baron a = [] := by
  unfold copyBarFaults
  split_ifs with on
  · exact h on
  · rfl

theorem cpyShapeOk_iff (c : Copy) : cpyShapeOk c = true ↔ c.rowb % 4 = 0 ∧ 4 ≤ c.rowb ∧ c.rowb ≤ 2 ^ 24 ∧ 1 ≤ c.nrow ∧ c.nrow ≤ 2 ^ 16 ∧
    c.rowb ≤ c.sstr ∧ (if c.tw = 0 then c.rowb ≤ c.dstr else c.nrow * twBits c.tw / 8 ≤ c.dstr ∧ c.nrow * twBits c.tw % 32 = 0) := by
  unfold cpyShapeOk
  split_ifs <;> simp [and_assoc]

/-- The copy that CPY asks for. -/
def cpyCopy (s : State) (g : Group) (dsta srca shape str bar : BitVec 7) (baron : Bool) (tw : BitVec 3) : Copy :=
  let rowb := (lo32 (usrc64 s g 2 shape)).toNat
  let nrow := (hi32 (usrc64 s g 2 shape)).toNat
  { uid := 0, words := 0, kind := 0, da := (usrc64 s g 0 dsta).toNat, sa := (usrc64 s g 1 srca).toNat, rowb := rowb, nrow := nrow
    sstr := if str = 104 then rowb else (lo32 (usrc64 s g 4 str)).toNat
    dstr := if str = 104 then (if tw = 0 then rowb else nrow * twBits tw.toNat / 8) else (hi32 (usrc64 s g 4 str)).toNat
    tw := tw.toNat, bar := if baron then some (usrc s g tInt 6 bar).toNat else none }

theorem setWidth_toNat (x : Word) : (x.setWidth 64).toNat = x.toNat := by
  rw [BitVec.toNat_setWidth]
  omega

theorem lo32_setWidth (x : Word) : lo32 (x.setWidth 64) = x := by
  apply BitVec.eq_of_toNat_eq
  simp only [lo32, BitVec.truncate_eq_setWidth, BitVec.toNat_setWidth]
  omega

theorem hi32_toNat (x : Word64) : (hi32 x).toNat = (x >>> 32).toNat := by
  have small : (x >>> 32).toNat < 2 ^ 32 := by
    rw [BitVec.toNat_ushiftRight, Nat.shiftRight_eq_div_pow]
    omega
  rw [hi32, BitVec.truncate_eq_setWidth, BitVec.toNat_setWidth, Nat.mod_eq_of_lt small]

theorem shape_room_ite {α : Type} (ok : Bool) (g : Group) (a b : α) :
    (if !ok || !groupRoom g then a else b) = if ok = true ∧ g.openCopies.length < 64 then b else a := by
  unfold groupRoom
  cases ok <;> by_cases room : g.openCopies.length < 64 <;> simp [room]

/-- R250: CPY whose addresses and strides are multiples of 4. -/
theorem cpy_of_aligned {s : State} {g : Group} (hs : Selected s g) (fresh : g.captured = none) (dsta srca shape str bar : BitVec 7)
    (baron rel res : Bool) (tw : BitVec 3) (barred : copyBarFaults s g baron (usrc s g tInt 6 bar) = [])
    (aligned : cpyAlign g (cpyCopy s g dsta srca shape str bar baron tw) = []) : exec (.cpy dsta srca shape str bar baron rel res tw) s = .next (
      if cpyShapeOk (cpyCopy s g dsta srca shape str bar baron tw) = true ∧ g.openCopies.length < 64 then
        startCopy s (.cpy dsta srca shape str bar baron rel res tw) rel res g.cpoff (cpyCopy s g dsta srca shape str bar baron tw)
      else trapAt s s.cur 0x30 0) := by
  refine (onGroup_of_some hs _).trans (congrArg _ ?_)
  have operands_ : operands g [usrc64 s g 0 dsta, usrc64 s g 1 srca, usrc64 s g 2 shape, usrc64 s g 4 str, (usrc s g tInt 6 bar).setWidth 64,
      g.cpoff] = [usrc64 s g 0 dsta, usrc64 s g 1 srca, usrc64 s g 2 shape, usrc64 s g 4 str, (usrc s g tInt 6 bar).setWidth 64, g.cpoff] := by
    rw [operands, fresh]
    rfl
  rw [operands_]
  unfold cpyCopy at aligned ⊢
  simp only [List.getD_cons_zero, List.getD_cons_succ, lo32_setWidth, barred, aligned, List.append_nil]
  exact shape_room_ite _ g _ _

/-! ### CPYT (R252, R253) -/

theorem rank_of_fetchDesc {s u : State} {w : Who} {table ndesc i : Nat} {d : Desc} (fetched : fetchDesc s w table ndesc i = (u, .ok d)) :
    d.rank ≤ 4 := by
  have ofBytes {bs : List Byte} (read : readDesc bs = some d) : d.rank ≤ 4 := by
    unfold readDesc at read
    simp only [Option.ite_none_right_eq_some, Option.some.injEq] at read
    obtain ⟨_, rfl⟩ := read
    simp only [bits]
    omega
  unfold fetchDesc at fetched
  extract_lets toDesc key at fetched
  have ofDesc {bs : List Byte} (read : toDesc bs = .ok d) : d.rank ≤ 4 := by
    simp only [toDesc] at read
    split at read
    next e known => exact ofBytes (known.trans (congrArg some (Except.ok.inj read)))
    next => exact nomatch read
  split at fetched
  · exact nomatch (Prod.ext_iff.1 fetched).2
  split at fetched
  · exact ofDesc (Prod.ext_iff.1 fetched).2
  split at fetched
  · exact nomatch (Prod.ext_iff.1 fetched).2
  · exact ofDesc (Prod.ext_iff.1 fetched).2

/-- Register k of the coordinates that start at code c (R168): a lane of a vector register, or a uniform register. -/
def coordAt (s : State) (g : Group) (coord : BitVec 7) (l k : Nat) : Word :=
  if coord.toNat < 48 then readV s.draws 0 g (coord.toNat + k) l else readS s.draws 0 g (coord.toNat - 64 + k)

theorem coordsOf_eq_some {s : State} {g : Group} {coord : BitVec 7} {rank l : Nat} {cs : List Nat} :
    coordsOf s g coord rank l = some cs ↔ coord.toNat + rank ≤ (if coord.toNat < 48 then 48 else 96) ∧
      cs = (List.range rank).map fun k => (coordAt s g coord l k).toNat := by
  unfold coordsOf coordAt
  simp only
  split_ifs <;> simp_all [eq_comm]

/-- The coordinates that CPYT captures are those that it reads for its descriptor's rank. -/
theorem tileValues_coords {s : State} {g : Group} {coord : BitVec 7} {rank : Nat} {cs : List Nat} (small : rank ≤ 4)
    (read : coordsOf s g coord rank 0 = some cs) (desc buf ext bar : BitVec 7) :
    (((tileValues s g desc coord buf ext bar).drop 4).take rank).map (·.toNat) = cs := by
  obtain ⟨room, rfl⟩ := coordsOf_eq_some.1 read
  have each (k : Nat) (below : k < rank) : ((coordsOf s g coord (k + 1) 0).bind fun cs => cs[k]?).elim 0 (BitVec.ofNat 64) =
      BitVec.ofNat 64 (coordAt s g coord 0 k).toNat := by
    rw [coordsOf_eq_some.2 ⟨by omega, rfl⟩]
    simp
  have captured : (tileValues s g desc coord buf ext bar).drop 4 =
      ((List.range 4).map fun k => ((coordsOf s g coord (k + 1) 0).bind fun cs => cs[k]?).elim 0 (BitVec.ofNat 64)) ++ [g.cpoff] := rfl
  rw [captured, List.take_append_of_le_length (by simpa using small), ← List.map_take, List.take_range, Nat.min_eq_left small, List.map_map]
  refine List.map_congr_left fun k hk => (congrArg BitVec.toNat (each k (List.mem_range.1 hk))).trans ?_
  rw [BitVec.toNat_ofNat]
  omega

/-- Who fetches the descriptors and the shards of a group's tiles. -/
abbrev tileWho (s : State) (g : Group) : Who := engineWho (siteOf s g) (ctxOf s g) (some s.cur)

/-- The descriptor table of a group's launch. -/
abbrev descTable (s : State) (g : Group) : Nat := (((gridOf s g).map (·.launch)).map (·.desc.toNat)).getD 0

/-- The number of descriptors in the table. -/
abbrev descCount (s : State) (g : Group) : Nat := (((gridOf s g).map (·.launch)).map (·.ndesc)).getD 0

/-- The copy that CPYT asks for, at coordinates cs of the descriptor that stands in the die's cache in u. -/
def tileCopy (s u : State) (g : Group) (kind : Nat) (cs : List Nat) (desc buf ext bar : BitVec 7) (baron tr clip : Bool) : Copy :=
  { uid := 0, words := 0, kind := kind, buf := (usrc64 s g 4 buf).toNat, e0 := (lo32 (usrc64 s g 2 ext)).toNat
    e1 := (hi32 (usrc64 s g 2 ext)).toNat, coords := cs
    descBytes := cachedDesc u (tileWho s g) (descTable s g) (usrc s g tInt 5 desc).toNat, desc := (usrc s g tInt 5 desc).toNat
    transpose := tr, clip := clip, bar := if baron then some (usrc s g tInt 6 bar).toNat else none }

/-- R252, R253: a tile of a descriptor that is fetched, in shards that the shard table names, within the limits. -/
theorem copyTile_begins {s u v : State} {g : Group} (hs : Selected s g) (fresh : g.captured = none) (i : Instr) (kind : Nat)
    (desc coord buf ext bar : BitVec 7) (baron rel res tr clip : Bool) (barred : copyBarFaults s g baron (usrc s g tInt 6 bar) = [])
    (aligned : (usrc64 s g 4 buf).toNat % 4 = 0) {d : Desc} {cs : List Nat} {sh : List (Nat × Nat × Nat)} {c : Copy}
    (hc : c = tileCopy s u g kind cs desc buf ext bar baron tr clip)
    (fetched : fetchDesc s (tileWho s g) (descTable s g) (descCount s g) (usrc s g tInt 5 desc).toNat = (u, .ok d))
    (read : coordsOf s g coord d.rank 0 = some cs) (again : (coordsOf u g coord d.rank 0).isSome)
    (inside : clip = true ∨ tileInside c d = true) (shards : tileShards u (tileWho s g) d (shardsOf c d) = (v, .ok sh))
    (fine : tileFaults g { c with shards := sh } d = []) (ok : tileOk c d = true) (room : g.openCopies.length < 64) :
    copyTile s i kind desc coord buf ext bar baron rel res tr clip = .next (startCopy v i rel res g.cpoff { c with shards := sh }) := by
  refine (onGroup_of_some hs _).trans (congrArg _ ?_)
  have vals : operands g (tileValues s g desc coord buf ext bar) = tileValues s g desc coord buf ext bar := by
    rw [operands, fresh]
    rfl
  have buffer : (tileValues s g desc coord buf ext bar).getD 0 0 = usrc64 s g 4 buf := rfl
  have extent : (tileValues s g desc coord buf ext bar).getD 1 0 = usrc64 s g 2 ext := rfl
  have barrier : lo32 ((tileValues s g desc coord buf ext bar).getD 2 0) = usrc s g tInt 6 bar := lo32_setWidth _
  have number : ((tileValues s g desc coord buf ext bar).getD 3 0).toNat = (usrc s g tInt 5 desc).toNat := setWidth_toNat _
  have offset : (tileValues s g desc coord buf ext bar).getD 8 0 = g.cpoff := rfl
  have coords := tileValues_coords (rank_of_fetchDesc fetched) read desc buf ext bar
  obtain ⟨cs', again⟩ := Option.isSome_iff_exists.1 again
  have within_ : (!clip && !tileInside c d) = false := by
    rcases inside with h | h <;> simp [h]
  have withShards : { c with shards := sh } = { tileCopy s u g kind cs desc buf ext bar baron tr clip with shards := sh } := by rw [hc]
  rw [withShards] at fine ⊢
  simp only [vals, buffer, extent, barrier, number, offset, coords, fetched, again, barred, aligned, tileCopy] at hc fine ⊢
  simp only [← hc, within_, shards, fine, List.append_nil, Bool.false_eq_true, if_false, not_true, ne_eq, elseTrap]
  exact (shape_room_ite _ g _ _).trans (if_pos ⟨ok, room⟩)

end Sys2Proof.Laws.Copying

namespace Sys2Proof
open Machine Laws.Copying

/-- Settles O38: CPY by its shape, CPYT by its descriptor and its shards, CMIT, and a probe that passes. -/
theorem copiesBegin : Obligations.CopiesBegin := by
  intro s g hs fresh begins
  refine ⟨?cpy, ?cpyt, fun room => ?cmit, fun c c2 u going waits found probed => ?probe⟩
  case cpy =>
    intro dsta srca shape str bar baron rel res tw rowb nrow st dense bits c aligned legal barOk small_ barred isAligned
    have width : ¬ tw = 0 → twBits tw.toNat = bits := fun some_ => twBits_eq (fun zero => some_ (BitVec.eq_of_toNat_eq zero)) small_
    have rows : (hi32 (usrc64 s g 2 shape)).toNat = nrow := hi32_toNat _
    have sstr : (if str = 104 then rowb else (lo32 st).toNat) = c.sstr := by
      simp only [c, dense, decide_eq_true_eq]
      rfl
    have dstr : (if str = 104 then (if tw = 0 then rowb else nrow * twBits tw.toNat / 8) else (hi32 st).toNat) = c.dstr := by
      simp only [c, dense, decide_eq_true_eq, hi32_toNat]
      by_cases some_ : tw = 0
      · simp only [if_pos some_]
      · simp only [if_neg some_, width some_]
    have asked : cpyCopy s g dsta srca shape str bar baron tw = c := by
      have parts : cpyCopy s g dsta srca shape str bar baron tw = { c with
          sstr := if str = 104 then rowb else (lo32 st).toNat
          dstr := if str = 104 then (if tw = 0 then rowb else nrow * twBits tw.toNat / 8) else (hi32 st).toNat } := by
        unfold cpyCopy
        rw [rows]
        rfl
      rw [parts, sstr, dstr]
    have shape_ : cpyShapeOk c = true ↔ legal := by
      rw [cpyShapeOk_iff]
      by_cases some_ : tw = 0
      · subst some_
        exact Iff.rfl
      · have stored : c.tw ≠ 0 := fun zero => some_ (BitVec.eq_of_toNat_eq zero)
        simp only [legal, if_neg some_, if_neg stored, ← width some_]
        exact Iff.rfl
    have faultless : cpyAlign g c = [] := cpyAlign_eq_nil isAligned.1 isAligned.2.1 isAligned.2.2.1 isAligned.2.2.2
    have run := cpy_of_aligned hs fresh dsta srca shape str bar baron rel res tw (copyBarFaults_eq_nil barred) (asked ▸ faultless)
    rw [asked] at run
    refine ⟨fun ⟨shaped, room⟩ => ?_, fun bad => ?_⟩
    · rw [if_pos ⟨shape_.2 shaped, room⟩, startCopy_eq rfl] at run
      exact run
    · rw [if_neg fun h => bad (shape_.1 h.1)] at run
      exact run
  case cpyt =>
    intro desc coord buf ext bar baron rel res tr clip u v d cs sh w launch table n b c barred aligned fetched read again inside shards cur
      fine ok room
    have asked (kind : Nat) : { c with kind := kind } = tileCopy s u g kind cs desc buf ext bar baron tr clip := by
      unfold tileCopy
      rw [hi32_toNat]
      rfl
    have run (i : Instr) (kind : Nat) : copyTile s i kind desc coord buf ext bar baron rel res tr clip = _ :=
      copyTile_begins hs fresh i kind desc coord buf ext bar baron rel res tr clip (copyBarFaults_eq_nil barred) aligned (asked kind) fetched
        read again inside shards fine ok room
    refine ⟨?_, ?_⟩
    · exact (run (.cpytLoad desc coord buf ext bar baron rel res tr clip) 1).trans (congrArg _ (startCopy_eq cur _ _ _ _ _))
    · exact (run (.cpytStore desc coord buf ext bar baron rel res tr clip) 2).trans (congrArg _ (startCopy_eq cur _ _ _ _ _))
  case cmit =>
    intro o
    refine (onGroup_of_some hs _).trans (congrArg _ ?_)
    rw [counterFull_eq_false room]
    rfl
  case probe =>
    show execCopyProbeEnd s.cur s = _
    have selected : tblGet s.groups s.cur = some g := hs
    simp only [execCopyProbeEnd, selected, waits, found, going, probed]
    rfl

end Sys2Proof

/-! ## Teams and contexts (R359 to R371) -/

namespace Sys2Proof.Laws.Contexts
open Machine

/-! ### Grids (R356, R362) -/

section
variable {s : State} {grid : Nat} {g : Grid} (hg : tblGet s.grids grid = some g)
include hg

theorem teamPlace_of_may (core : Nat) (may : s.phase = .running ∧ ctxHeld s (gridSite s g) g.ctx = false ∧ chosenGrid s (gridSite s g) = some grid)
    {v : State} (placed : placeNext s grid g core = some v) :
    exec (.teamPlace grid core) s = .next (v.upDie (gridSite s g) fun d => { d with lastPlace := tblSet d.lastPlace (gridPrio s g) g.queue }) := by
  obtain ⟨running, free, chosen⟩ := may
  show execTeamPlace grid core s = _
  simp [execTeamPlace, hg, running, free, chosen, placed]

theorem teamPlace_of_not_may (core : Nat)
    (mayNot : ¬ (s.phase = .running ∧ ctxHeld s (gridSite s g) g.ctx = false ∧ chosenGrid s (gridSite s g) = some grid)) :
    exec (.teamPlace grid core) s = .next s := by
  have refused : s.phase ≠ .running ∨ ctxHeld s (gridSite s g) g.ctx = true ∨ chosenGrid s (gridSite s g) ≠ some grid := by
    rwa [not_and_or, not_and_or, Bool.not_eq_false] at mayNot
  show execTeamPlace grid core s = _
  simp only [execTeamPlace, hg, if_pos refused]

/-- R362: the last team of the grid has left, and its chunks are delivered. -/
theorem gridComplete_ends (left : ∀ e ∈ s.teams, e.2.grid ≠ grid) (all : g.launch.teams ≤ g.endedTeams.length) (delivered : g.openChunks = 0)
    (quiet : ∀ e ∈ s.contribs, e.2.grid ≠ grid) : exec (.gridComplete grid) s = .next (endGrid s grid g) := by
  have none_ : gridTeams s grid = [] := by simpa [gridTeams] using left
  have done : gridDone s grid g = true := by simpa [gridDone, none_, all, delivered] using quiet
  show execGridComplete grid s = _
  simp only [execGridComplete, none_, List.foldl_nil, hg, done, if_true]

end

/-! ### Contexts (R363 to R371) -/

section
variable {s : State} {c : Nat}

theorem preemptSave_saves (asked : s.stopping.contains c = true) (sound : s.discarding.contains c = false)
    (ready : ∀ e ∈ s.teams, e.2.ctx = c → teamReady s e.2 = true) {v : State}
    (saved : saveTeams (s.teams.filter fun e => e.2.ctx == c) s = .ok v) : exec (.preemptSave c) s =
      .next (setCtxFlags { leaveCursors v ((s.teams.filter fun e => e.2.ctx == c).map (·.2)) with stopping := v.stopping.filter (· != c) } c
        (ctxFlags v (ctxSite v) c / 16 * 16 + 8 + ctxFlags v (ctxSite v) c % 8)) := by
  have every : (s.teams.filter fun e => e.2.ctx == c).all (fun e => teamReady s e.2) = true := by
    rw [List.all_eq_true]
    intro e he
    obtain ⟨resident, own⟩ := List.mem_filter.1 he
    exact ready e resident (beq_iff_eq.1 own)
  show execPreemptSave c s = _
  simp only [execPreemptSave, asked, sound, every, saved, Bool.not_true, Bool.or_self, Bool.false_eq_true, if_true, if_false]

/-- R363: a context in error whose grids and teams have left is done with. -/
theorem contextErrorStop_ends (failed : s.discarding.contains c = true) {v : State} (hv : v = dropGrids (discardTeams (stopGroups s c) c) c)
    (noGrid : ∀ e ∈ v.grids, e.2.ctx ≠ c) (noTeam : ∀ e ∈ v.teams, e.2.ctx ≠ c) : exec (.contextErrorStop c) s =
      .next { v with discarding := v.discarding.filter (· != c), restoring := v.restoring.filter (· != c) } := by
  have grids : (v.grids.any fun e => e.2.ctx == c) = false := List.any_eq_false.2 fun e he => beq_iff_eq.not.2 (noGrid e he)
  have teams : (v.teams.any fun e => e.2.ctx == c) = false := List.any_eq_false.2 fun e he => beq_iff_eq.not.2 (noTeam e he)
  show execContextErrorStop c s = _
  simp only [execContextErrorStop, failed, ← hv, grids, teams, Bool.not_true, Bool.or_self, Bool.false_eq_true, if_false]

section
variable (may : restorable s c = true)
include may

theorem restore_brings {n : Nat} {g : Grid} (next : (s.grids.find? fun e => e.2.ctx == c && e.2.saved != []) = some (n, g)) {v : State}
    (back : backFirst { s with restoring := if s.restoring.contains c then s.restoring else c :: s.restoring } n g = .ok v) :
    exec (.restore c) s = .next v := by
  show execRestore c s = _
  simp only [execRestore, may, next, back, Bool.not_true, Bool.false_eq_true, if_false]

theorem restore_ends (none_ : ∀ e ∈ s.grids, e.2.ctx = c → e.2.saved = []) : exec (.restore c) s =
    .next (setCtxFlags { s with restoring := s.restoring.filter (· != c) } c
      (ctxFlags s (ctxSite s) c / 16 * 16 + ctxFlags s (ctxSite s) c % 8)) := by
  have found : (s.grids.find? fun e => e.2.ctx == c && e.2.saved != []) = none := by
    rw [List.find?_eq_none]
    intro e he saved
    rw [Bool.and_eq_true, beq_iff_eq, bne_iff_ne] at saved
    exact saved.2 (none_ e he saved.1)
  show execRestore c s = _
  simp only [execRestore, may, found, Bool.not_true, Bool.false_eq_true, if_false]

end
end

/-! ### Waits for a queue and for a word (R268, R269) -/

/-- A write of uniform registers leaves the group's place and its completion times. -/
@[simp] theorem writeS64_fields (g : Group) (r : Nat) (x : Word64) :
    (writeS64 g r x).pc = g.pc ∧ (writeS64 g r x).hdr = g.hdr ∧ (writeS64 g r x).idx = g.idx ∧ (writeS64 g r x).entered = g.entered ∧
      (writeS64 g r x).clauses = g.clauses ∧ (writeS64 g r x).chz = g.chz := by
  rw [writeS64_frame]
  simp only [and_self]

section
variable {s : State} {n : Nat} {g : Group} (hg : tblGet s.groups n = some g)
include hg

theorem qputBlockRetry_tries (turn : waitsTurn s n = false) {d pkt : Nat} {hdr : Word64} (waits : g.wait = .qputFull d hdr pkt) :
    exec (.qputBlockRetry n) s = .next (tryQput s n d hdr pkt true) := by
  show execQputBlockRetry n s = _
  simp only [execQputBlockRetry, hg, Option.map_some, waits, turn, Bool.false_eq_true, if_false]

section
variable {d dl k : Nat} {a cmp : Word64} (waits : g.wait = .waita d a cmp dl k)
include waits

theorem waitaWake_reads (turn : waitsTurn s n = false) : exec (.waitaWake n) s = .next (tryWaita s n d a cmp dl) := by
  show execWaitaWake n s = _
  simp only [execWaitaWake, hg, Option.map_some, waits, turn, Bool.false_eq_true, if_false]

theorem waitaDeadline_eq : exec (.waitaDeadline n) s = .next (if dl ≤ s.clock / 4 ∧ waitsTurn s n = false then endWaita s n d cmp k else s) := by
  show execWaitaDeadline n s = _
  simp only [execWaitaDeadline, hg, Option.map_some, waits, ticks, Bool.and_eq_true, Bool.not_eq_true']
  exact congrArg _ (if_congr (and_congr_left' decide_eq_true_iff) rfl rfl)

end

/-- The group that leaves WAITA with the value v, read with completion time k. -/
theorem endWaita_ends (d : Nat) (v : Word64) (k : Nat) : ∃ g', endWaita s n d v k = s.putGroup n g' ∧ g'.wait = .none ∧ g'.chz = max g.chz k ∧
    AtNext 1 g g' ∧ UniformTakes g g' (fun r => if r = d then some (lo32 v) else if r = d + 1 then some (hi32 v) else none) := by
  have taken := uniformTakes_writeS64 { g with readC := max g.readC k } d v
  have place : AtNext 1 g (advance 1 (raiseChz k (writeS64 { g with readC := max g.readC k } d v))) := by
    apply atNext_advance <;> simp [raiseChz]
  have swap : (fun r => if r = d then some (lo32 v) else if r = d + 1 then some (hi32 v) else none) =
      fun r => if r = d + 1 then some (v.extractLsb' 32 32) else if r = d then some (v.extractLsb' 0 32) else none := by
    funext r
    rw [lo32_eq, hi32_eq]
    split_ifs with low high
    · omega
    all_goals rfl
  refine ⟨_, State.upGroup_of_some hg _, rfl, by simp [raiseChz], place, ?_⟩
  rw [swap]
  unfold UniformTakes
  simp only [advance_fields]
  exact taken

end

end Sys2Proof.Laws.Contexts

namespace Sys2Proof
open Machine Laws.Contexts

/-- Settles O57: each event of teams, contexts and long waits under its condition. -/
theorem teamsAndContextsMove : Obligations.TeamsAndContextsMove := by
  intro s
  refine ⟨fun grid core g hg => ⟨teamPlace_of_not_may hg core, fun may v => teamPlace_of_may hg core may⟩,
    fun grid g hg left all delivered quiet => ?complete, fun c => ⟨fun asked => ?request, fun asked sound ready => ?save, fun failed => ?error,
      fun may => ⟨fun n g v next => restore_brings may next, restore_ends may⟩⟩, fun n g hg => ⟨fun turn d hdr pkt => qputBlockRetry_tries hg turn,
        fun d a cmp dl k waits => ⟨waitaWake_reads hg waits, ?early, ?late⟩⟩⟩
  case complete => exact gridComplete_ends hg left all delivered quiet
  case request => exact congrArg Host.Outcome.next (if_pos asked)
  case save => exact fun v => preemptSave_saves asked sound ready
  case error => exact contextErrorStop_ends failed rfl
  case early =>
    intro early
    rw [waitaDeadline_eq hg waits, if_neg]
    rintro ⟨past, turn⟩
    rcases early with before | waiting
    · omega
    · simp [turn] at waiting
  case late =>
    intro past turn
    rw [waitaDeadline_eq hg waits, if_pos ⟨past, turn⟩]
    obtain ⟨g', ends, rest⟩ := endWaita_ends hg d cmp k
    exact ⟨g', congrArg _ ends, rest⟩

end Sys2Proof

/-! ## Every step keeps memory canonical (R312, R318)

Few functions of the model write memory, and all of them do it through `writeBytes`, `writeNum` or a filter, each of which
keeps the canonical form. Each function that hands a state on has one lemma here, in the order of the model's own
files: `mem_f` where it leaves memory as it is, `canonical_f` where something it calls may write. The lemma of a function
cites the lemmas of the functions it calls, up to the meaning of an instruction, the events of the schedule and `step`.

`grind` splits on the branches of the function and closes each by the lemma of the callee. It works without its linear arithmetic, which no
goal here needs: the search for the instances of ordered algebra on `State` would cost more than all the rest. -/

namespace Sys2Proof.Laws.Canonicity

open Machine

set_option Elab.async false

variable {s u : State}

/-- The memory of a state is in canonical form. -/
abbrev Canonical (s : State) : Prop := Memory.wf s.mem = true

theorem mem_foldl {α : Type} (f : State → α → State) (l : List α) (s : State) (hf : ∀ s a, (f s a).mem = s.mem) :
    (l.foldl f s).mem = s.mem :=
  List.foldlRecOn (motive := fun t => t.mem = s.mem) l f rfl fun t ht a _ => (hf t a).trans ht

theorem mem_foldl_fst {α β : Type} (f : State × β → α → State × β) (l : List α) (r : State × β) (hf : ∀ r a, (f r a).1.mem = r.1.mem) :
    (l.foldl f r).1.mem = r.1.mem :=
  List.foldlRecOn (motive := fun t => t.1.mem = r.1.mem) l f rfl fun t ht a _ => (hf t a).trans ht

theorem canonical_foldl {α : Type} (f : State → α → State) (l : List α) {s : State} (h : Canonical s)
    (hf : ∀ s a, Canonical s → Canonical (f s a)) : Canonical (l.foldl f s) :=
  List.foldlRecOn (motive := Canonical) l f h fun s hs a _ => hf s a hs

theorem canonical_foldl_fst {α β : Type} (f : State × β → α → State × β) (l : List α) {r : State × β} (h : Canonical r.1)
    (hf : ∀ r a, Canonical r.1 → Canonical (f r a).1) : Canonical (l.foldl f r).1 :=
  List.foldlRecOn (motive := fun r : State × β => Canonical r.1) l f h fun r hr a _ => hf r a hr

theorem canonical_onGroup {s u : State} {f : Group → State} (hf : ∀ g, Canonical (f g)) (e : onGroup s f = .next u) : Canonical u := by
  unfold onGroup at e
  split at e
  · cases e
    exact hf _
  · cases e

theorem canonical_ite {c : Prop} [Decidable c] {s t : State} (hs : Canonical s) (ht : Canonical t) : Canonical (if c then s else t) := by
  split_ifs
  · exact hs
  · exact ht

theorem except_bind_eq_ok {ε α β : Type} {x : Except ε α} {f : α → Except ε β} {b : β} :
    x.bind f = .ok b ↔ ∃ a, x = .ok a ∧ f a = .ok b := by
  cases x <;> simp [Except.bind]

theorem except_map_eq_ok {ε α β : Type} {x : Except ε α} {f : α → β} {b : β} : x.map f = .ok b ↔ ∃ a, x = .ok a ∧ f a = b := by
  cases x <;> simp [Except.map]

/-! ### Registers, context errors, traps, the end of a group -/

@[simp] theorem mem_putGroup (n g) : (s.putGroup n g).mem = s.mem := rfl

@[simp] theorem mem_upGroup (n f) : (s.upGroup n f).mem = s.mem := rfl

@[simp] theorem mem_upTeam (n f) : (s.upTeam n f).mem = s.mem := rfl

@[simp] theorem mem_upCore (n f) : (s.upCore n f).mem = s.mem := rfl

@[simp] theorem mem_upDie (n f) : (s.upDie n f).mem = s.mem := rfl

@[simp] theorem mem_stall : (stall s).mem = s.mem := by
  grind -linarith [stall, mem_putGroup]

@[simp] theorem mem_writeHAs (n landing r x) : (writeHAs s n landing r x).mem = s.mem := by
  grind -linarith [writeHAs, mem_upTeam]

@[simp] theorem mem_writeH (n r x) : (writeH s n r x).mem = s.mem := by
  grind -linarith [writeH, mem_writeHAs]

@[simp] theorem mem_settleH (n t) : (settleH s n t).mem = s.mem := by
  grind -linarith [settleH, mem_upTeam]

@[simp] theorem mem_writeU (n d x) : (writeU s n d x).mem = s.mem := by
  grind -linarith [writeU, mem_upGroup, mem_writeH]

@[simp] theorem mem_bump : s.bump.mem = s.mem := rfl

theorem canonical_contextError (site c kind code running) (h : Canonical s) : Canonical (contextError s site c kind code running) := by
  grind -linarith [contextError, memory_wf_writeBytes, writeNum]

theorem canonical_logPending (n) (h : Canonical s) : Canonical (logPending s n) := by
  grind -linarith [logPending, canonical_contextError, mem_putGroup]

@[simp] theorem mem_histUpdate (g) : (histUpdate s g).mem = s.mem := by
  grind -linarith [histUpdate, mem_upDie]

theorem canonical_endGroup (n) (h : Canonical s) : Canonical (endGroup s n) := by
  grind -linarith [endGroup, mem_histUpdate, mem_putGroup, canonical_logPending, mem_upTeam]

theorem canonical_doubleFault (n code) (h : Canonical s) : Canonical (doubleFault s n code) := by
  grind -linarith [doubleFault, canonical_endGroup, canonical_contextError]

theorem canonical_trapWord (n word info idx) (h : Canonical s) : Canonical (trapWord s n word info idx) := by
  grind -linarith [trapWord, mem_putGroup, canonical_doubleFault]

theorem canonical_trapAt (n code info) (h : Canonical s) : Canonical (trapAt s n code info) := by
  grind -linarith [trapAt, canonical_trapWord]

theorem canonical_trapAfter (n code info) (h : Canonical s) : Canonical (trapAfter s n code info) := by
  grind -linarith [trapAfter, canonical_trapWord]

theorem canonical_raiseReported (n c) (h : Canonical s) : Canonical (raiseReported s n c) := by
  grind -linarith [raiseReported, mem_putGroup, canonical_trapWord]

/-! ### Rotations and visits -/

@[simp] theorem mem_startRotation (core part access) : (startRotation core part access s).mem = s.mem := by
  grind -linarith [startRotation, mem_upCore]

theorem canonical_execRotationStart {core part access} (h : Canonical s) (e : execRotationStart core part access s = .next u) :
    Canonical u := by
  grind -linarith [execRotationStart, mem_startRotation]

@[simp] theorem mem_turnBarrels (core) : (turnBarrels s core).mem = s.mem := by
  grind -linarith [turnBarrels, mem_startRotation, mem_foldl]

@[simp] theorem mem_beginVisits : (beginVisits s).mem = s.mem := by
  grind -linarith [beginVisits, mem_turnBarrels, mem_foldl]

@[simp] theorem mem_noteServed (v) : (noteServed v s).mem = s.mem := by
  grind -linarith [noteServed, mem_upCore]

/-! ### Operands -/

theorem canonical_withFeeds (g cs) {k : State} (h : Canonical s) (hk : Canonical k) : Canonical (withFeeds s g cs k) := by
  grind -linarith [withFeeds, mem_stall, canonical_trapAt]

/-! ### The memory system -/

@[simp] theorem mem_clearUnits (loc n) : (clearUnits s loc n).mem = s.mem := rfl

@[simp] theorem mem_lack (x) : (lack s x).mem = s.mem := rfl

@[simp] theorem mem_needLine (line isWrite) : (needLine s line isWrite).mem = s.mem := by
  grind -linarith [needLine, mem_lack]

theorem canonical_fillBound (team slot b k) (h : Canonical s) : Canonical (fillBound s team slot b k) := by
  grind -linarith [fillBound, mem_needLine, memory_wf_writeBytes]

theorem canonical_touchGlobal (loc) (h : Canonical s) : Canonical (touchGlobal s loc) := by
  grind -linarith [touchGlobal, canonical_fillBound]

theorem canonical_touchStash (team off) (h : Canonical s) : Canonical (touchStash s team off).1 := by
  grind -linarith [touchStash, canonical_fillBound]

@[simp] theorem mem_dirtyOwner (loc) : (dirtyOwner s loc).mem = s.mem := rfl

@[simp] theorem mem_conflict (who line isWrite) : (conflict s who line isWrite).mem = s.mem := rfl

theorem canonical_writeHere (loc bs) (h : Canonical s) : Canonical (writeHere s loc bs).1 := by
  grind -linarith [writeHere, mem_clearUnits, mem_dirtyOwner, memory_wf_writeBytes]

theorem canonical_setDirty (block v) (h : Canonical s) : Canonical (setDirty s block v) := by
  grind -linarith [setDirty, canonical_writeHere, mem_needLine]

theorem canonical_writeBack (line) (h : Canonical s) : Canonical (writeBack s line) := by
  grind -linarith [writeBack, canonical_setDirty]

theorem canonical_keepHbm (line) (h : Canonical s) : Canonical (keepHbm s line) := by
  grind -linarith [keepHbm, canonical_writeBack]

theorem canonical_performWrite (loc bs) (h : Canonical s) : Canonical (performWrite s loc bs).1 := by
  grind -linarith [performWrite, canonical_writeHere, canonical_keepHbm]

theorem canonical_storePiece (who loc bs) (h : Canonical s) : Canonical (storePiece s who loc bs).1 := by
  grind -linarith [storePiece, canonical_performWrite, mem_conflict, canonical_touchGlobal, mem_needLine]

theorem canonical_storeAt (who loc bs) (h : Canonical s) : Canonical (storeAt s who loc bs).1 := by
  grind -linarith [storeAt, canonical_storePiece, canonical_foldl_fst]

theorem canonical_storeNum (who loc n v) (h : Canonical s) : Canonical (storeNum s who loc n v) := by
  grind -linarith [storeNum, canonical_storeAt]

theorem canonical_loadAt (who loc n) (h : Canonical s) : Canonical (loadAt s who loc n).1 := by
  grind -linarith [loadAt, mem_conflict, canonical_touchGlobal, mem_needLine]

theorem canonical_loadNum (loc n) (h : Canonical s) : Canonical (loadNum s loc n).1 := by
  grind -linarith [loadNum, canonical_loadAt]

theorem canonical_nameRead (site n) (h : Canonical s) : Canonical (nameRead s site n).1 := by
  grind -linarith [nameRead, canonical_loadNum]

@[simp] theorem mem_cacheName (tray n ev) : (cacheName s tray n ev).mem = s.mem := rfl

theorem canonical_nameEntry (w n) (h : Canonical s) : Canonical (nameEntry s w n).1 := by
  grind -linarith [nameEntry, canonical_nameRead, mem_cacheName]

theorem canonical_resolveName (w n) (h : Canonical s) : Canonical (resolveName s w n).1 := by
  grind -linarith [resolveName, canonical_nameEntry]

theorem canonical_resolveLoc (w n a) (h : Canonical s) : Canonical (resolveLoc s w n a).1 := by
  grind -linarith [resolveLoc, canonical_resolveName]

theorem canonical_walkFrom (w va ls e) (h : Canonical s) : Canonical (walkFrom s w va ls e).1 := by
  induction ls generalizing s e with
  | nil => exact h
  | cons lvl rest ih => grind -linarith [walkFrom, canonical_loadNum, canonical_resolveLoc]

theorem canonical_walk (w va) (h : Canonical s) : Canonical (walk s w va).1 := by
  grind -linarith [walk, canonical_walkFrom]

@[simp] theorem mem_tlbFill (w asid va l) : (tlbFill s w asid va l).mem = s.mem := by
  grind -linarith [tlbFill, mem_upDie]

theorem canonical_setAccessed (l) (h : Canonical s) : Canonical (setAccessed s l) := by
  grind -linarith [setAccessed, canonical_loadNum, canonical_storeAt]

theorem canonical_leafOf (w va) (h : Canonical s) : Canonical (leafOf s w va).1 := by
  grind -linarith [leafOf, mem_tlbFill, canonical_walkFrom, canonical_walk, canonical_setAccessed]

theorem canonical_interleaveEntry (w va b) (h : Canonical s) : Canonical (interleaveEntry s w va b).1 := by
  grind -linarith [interleaveEntry, canonical_loadNum, mem_upDie]

theorem canonical_leafTarget (w pte lvl va) (h : Canonical s) : Canonical (leafTarget s w pte lvl va).1 := by
  grind -linarith [leafTarget, canonical_interleaveEntry, canonical_resolveName, canonical_resolveLoc]

theorem canonical_translate (w va isWrite) (h : Canonical s) : Canonical (translate s w va isWrite).1 := by
  grind -linarith [Machine.translate, canonical_leafOf, canonical_leafTarget]

theorem canonical_replicaRead (who site p loc n) (h : Canonical s) : Canonical (replicaRead s who site p loc n).1 := by
  grind -linarith [replicaRead, canonical_loadAt, mem_upDie]

@[simp] theorem mem_l1Drop (core pa) : (l1Drop s core pa).mem = s.mem := rfl

@[simp] theorem mem_trayDrop (core asid va pa) : (trayDrop s core asid va pa).mem = s.mem := rfl

@[simp] theorem mem_l1Fill (site core asid va loc writable bytes ctime) : (l1Fill s site core asid va loc writable bytes ctime).mem = s.mem := rfl

theorem canonical_l1Store (core asid va loc bs update c) (h : Canonical s) : Canonical (l1Store s core asid va loc bs update c) := by
  grind -linarith [l1Store, mem_trayDrop, mem_upCore, mem_l1Drop]

theorem canonical_l1Load (w core asid va n p) (h : Canonical s) : Canonical (l1Load s w core asid va n p).1 := by
  grind -linarith [l1Load, canonical_replicaRead, canonical_loadAt, mem_l1Fill]

@[simp] theorem mem_trySend (r) : (trySend s r).mem = s.mem := by
  grind -linarith [trySend]

@[simp] theorem mem_fabSend (asid n uid lane peer fa kind size data keep) :
    (fabSend s asid n uid lane peer fa kind size data keep).mem = s.mem := by
  grind -linarith [fabSend, mem_trySend]

@[simp] theorem mem_laneSend (n uid lane peer fa kind size data) : (laneSend s n uid lane peer fa kind size data).mem = s.mem := by
  grind -linarith [laneSend, mem_fabSend]

@[simp] theorem mem_peerAsk (w peer fa kind size data) : (peerAsk s w peer fa kind size data).1.mem = s.mem := by
  grind -linarith [peerAsk, mem_lack]

@[simp] theorem mem_askFor (x) : (askFor s x).mem = s.mem := by
  unfold askFor
  split <;> grind -linarith [mem_fabSend]

theorem canonical_atOnce {s t : State} (h : Canonical s) (ht : Canonical t) : Canonical (atOnce s t) := by
  unfold atOnce
  split_ifs
  · exact ht
  · exact canonical_foldl _ _ h fun s x hs => by rw [Canonical, mem_askFor]; exact hs

@[simp] theorem mem_notYet {t : State} : (notYet s t).mem = s.mem := rfl

theorem canonical_homeLoad (w n p) (h : Canonical s) : Canonical (homeLoad s w n p).1 := by
  grind -linarith [homeLoad, mem_peerAsk, canonical_replicaRead, canonical_loadAt]

theorem canonical_engTranslate (w va isWrite) (h : Canonical s) : Canonical (engTranslate s w va isWrite).1 := by
  grind -linarith [engTranslate, canonical_translate]

theorem canonical_probeRange (w va n isWrite) (h : Canonical s) : Canonical (probeRange s w va n isWrite).1 := by
  grind -linarith [probeRange, canonical_engTranslate, canonical_foldl_fst]

theorem canonical_engRead (w va n) (h : Canonical s) : Canonical (engRead s w va n).1 := by
  grind -linarith [engRead, canonical_engTranslate, canonical_homeLoad, canonical_foldl_fst]

theorem canonical_engWrite (w va bs) (h : Canonical s) : Canonical (engWrite s w va bs).1 := by
  refine canonical_foldl_fst _ _ h fun r p hr => ?_
  split
  · exact hr
  · grind -linarith [canonical_engTranslate, mem_peerAsk, canonical_storeAt]

theorem canonical_engReadNum (w va n) (h : Canonical s) : Canonical (engReadNum s w va n).1 := by
  grind -linarith [engReadNum, canonical_engRead]

theorem canonical_engWriteNum (w va n v) (h : Canonical s) : Canonical (engWriteNum s w va n v).1 := by
  grind -linarith [engWriteNum, canonical_engWrite]

theorem canonical_engAdd (w va k) (h : Canonical s) : Canonical (engAdd s w va k).1 := by
  grind -linarith [engAdd, canonical_engTranslate, mem_peerAsk, canonical_loadAt, canonical_storeAt]

theorem canonical_enterStash (who team off isWrite) (h : Canonical s) : Canonical (enterStash s who team off isWrite) := by
  grind -linarith [enterStash, mem_conflict, canonical_touchStash, mem_needLine]

theorem canonical_stashRead (who team off n) (h : Canonical s) : Canonical (stashRead s who team off n).1 := by
  grind -linarith [stashRead, canonical_enterStash, canonical_touchStash, canonical_foldl]

theorem canonical_stashWrite (who team off bs) (h : Canonical s) : Canonical (stashWrite s who team off bs).1 := by
  grind -linarith [stashWrite, canonical_enterStash, canonical_touchStash, mem_clearUnits, mem_dirtyOwner, canonical_foldl_fst,
    memory_wf_writeBytes]

@[simp] theorem mem_noteClash (w slot) : (noteClash s w slot).mem = s.mem := by
  unfold noteClash
  split <;> grind -linarith [mem_upGroup]

theorem canonical_genRead (w team a n) (h : Canonical s) : Canonical (genRead s w team a n).1 := by
  grind -linarith [genRead, canonical_stashRead, mem_noteClash, canonical_engRead]

theorem canonical_genWrite (w team a bs) (h : Canonical s) : Canonical (genWrite s w team a bs).1 := by
  grind -linarith [genWrite, canonical_stashWrite, mem_noteClash, canonical_engWrite]

/-! ### Faults -/

theorem canonical_claimFault (f) (h : Canonical s) : Canonical (claimFault s f) := by
  unfold claimFault
  split <;> grind -linarith [mem_needLine, canonical_storeNum, canonical_storeAt]

theorem canonical_parkAt (r) (h : Canonical s) : Canonical (parkAt s r) := by
  grind -linarith [parkAt, canonical_claimFault]

theorem canonical_parkWhole (n va isWrite cause level pte mask vals) (h : Canonical s) :
    Canonical (parkWhole s n va isWrite cause level pte mask vals) := by
  grind -linarith [parkWhole, mem_upGroup, canonical_parkAt]

theorem canonical_wholeFault (n isWrite mask f vals) (h : Canonical s) : Canonical (wholeFault s n isWrite mask f vals) := by
  unfold wholeFault
  split <;> grind -linarith [canonical_parkWhole, canonical_trapAt]

theorem canonical_fetchWord (n g a) (h : Canonical s) : Canonical (fetchWord s n g a).1 := by
  grind -linarith [fetchWord, canonical_engReadNum, canonical_wholeFault, canonical_trapAt]

/-! ### Addresses and descriptors -/

theorem canonical_fetchDesc (w table ndesc i) (h : Canonical s) : Canonical (fetchDesc s w table ndesc i).1 := by
  grind -linarith [fetchDesc, canonical_engRead, mem_upDie]

theorem canonical_fetchShard (w stab k) (h : Canonical s) : Canonical (fetchShard s w stab k).1 := by
  grind -linarith [fetchShard, canonical_engReadNum, mem_upDie]

theorem canonical_resolveCoord (w d c) (h : Canonical s) : Canonical (resolveCoord s w d c).1 := by
  grind -linarith [resolveCoord, canonical_fetchShard]

/-! ### Loads and stores as they perform -/

theorem canonical_storeKey (n key bs) (h : Canonical s) : Canonical (storeKey s n key bs).1 := by
  grind -linarith [storeKey, mem_laneSend, canonical_stashWrite, canonical_storeAt]

theorem canonical_sendLine (n x) (h : Canonical s) : Canonical (sendLine s n x).1 := by
  grind -linarith [sendLine, canonical_storeKey, canonical_foldl_fst]

@[simp] theorem mem_raiseLine (n line c) : (raiseLine s n line c).mem = s.mem := rfl

theorem canonical_sendWcb (n line) (h : Canonical s) : Canonical (sendWcb s n line) := by
  grind -linarith [sendWcb, mem_putGroup, canonical_sendLine, mem_raiseLine, mem_l1Drop]

theorem canonical_drainWcb (n) (h : Canonical s) : Canonical (drainWcb s n) := by
  grind -linarith [drainWcb, canonical_sendWcb, canonical_foldl]

theorem canonical_laneWho (n g l) (h : Canonical s) : Canonical (laneWho s n g l).1 := by
  grind -linarith [laneWho, canonical_resolveName]

theorem canonical_passAddr (n g o k l a isWrite) (h : Canonical s) : Canonical (passAddr s n g o k l a isWrite).1 := by
  grind -linarith [passAddr, canonical_laneWho, canonical_translate]

theorem canonical_passLane (n g o k l) (h : Canonical s) : Canonical (passLane s n g o k l).1 := by
  unfold passLane
  split <;> grind -linarith [canonical_passAddr]

@[simp] theorem mem_upOperation (n uid f) : (State.upOperation s n uid f).mem = s.mem := rfl

@[simp] theorem mem_landRead (n uid regs l ws got) : (landRead s n uid regs l ws got).mem = s.mem := rfl

@[simp] theorem mem_landWrite (n uid line c) : (landWrite s n uid line c).mem = s.mem := rfl

@[simp] theorem mem_bindConflict (n uid team off) : (bindConflict s n uid team off).mem = s.mem := by
  grind -linarith [bindConflict, mem_upOperation]

@[simp] theorem mem_noteTier2 (n uid loc) : (noteTier2 s n uid loc).mem = s.mem := by
  grind -linarith [noteTier2, mem_upOperation]

@[simp] theorem mem_txJoin (n loc isWrite) : (txJoin s n loc isWrite).mem = s.mem := rfl

@[simp] theorem mem_txPut (n uid loc bs) : (txPut s n uid loc bs).mem = s.mem := rfl

theorem canonical_readGlobal (n g o l size p) (h : Canonical s) : Canonical (readGlobal s n g o l size p).1 := by
  grind -linarith [readGlobal, canonical_sendWcb, canonical_homeLoad, canonical_l1Load]

theorem canonical_loadLane (n uid size signed uni dst p) (h : Canonical s) : Canonical (loadLane s n uid size signed uni dst p) := by
  unfold loadLane
  (repeat' split) <;> grind -linarith [mem_landRead, canonical_stashRead, mem_bindConflict, canonical_sendWcb, canonical_loadAt, mem_upGroup,
    mem_laneSend,
    mem_upOperation, mem_txJoin, canonical_readGlobal, mem_noteTier2]

theorem canonical_constLane (n uid size signed uni dst p) (h : Canonical s) : Canonical (constLane s n uid size signed uni dst p) := by
  grind -linarith [constLane, canonical_homeLoad, mem_upCore, mem_landRead, canonical_loadLane]

theorem canonical_storeGlobal (n uid g o va loc bs) (h : Canonical s) : Canonical (storeGlobal s n uid g o va loc bs) := by
  grind -linarith [storeGlobal, canonical_l1Store, mem_upGroup, mem_landWrite, canonical_sendWcb, canonical_storeAt]

theorem canonical_storeStash (n uid team off bs) (h : Canonical s) : Canonical (storeStash s n uid team off bs) := by
  grind -linarith [storeStash, canonical_stashWrite, mem_bindConflict, mem_upOperation, mem_landWrite]

@[simp] theorem mem_bufferBytes (n key bs) : (bufferBytes s n key bs).mem = s.mem := rfl

@[simp] theorem mem_dropOthers (n g va loc) : (dropOthers s n g va loc).mem = s.mem := by
  grind -linarith [dropOthers, mem_trayDrop]

theorem canonical_storeMem (n uid g o l loc) (h : Canonical s) : Canonical (storeMem s n uid g o l loc) := by
  grind -linarith [storeMem, mem_txPut, mem_dropOthers, mem_bufferBytes, canonical_storeGlobal, canonical_foldl]

theorem canonical_storeLane (n uid p) (h : Canonical s) : Canonical (storeLane s n uid p) := by
  unfold storeLane
  split <;> grind -linarith [mem_bufferBytes, canonical_storeStash, mem_upGroup, mem_laneSend, mem_noteTier2, mem_txJoin, canonical_storeMem,
    canonical_foldl]

/-! ### Atomics, landing barriers, multicasts and flagged stores -/

@[simp] theorem mem_dropOwnLine (n loc) : (dropOwnLine s n loc).mem = s.mem := by
  grind -linarith [dropOwnLine, mem_l1Drop]

@[simp] theorem mem_landAtomic (n uid dst size rets fl got) : (landAtomic s n uid dst size rets fl got).mem = s.mem := by
  unfold landAtomic
  split <;> grind -linarith [mem_landRead, mem_upGroup, mem_foldl]

theorem canonical_atomPlace (n uid op ty dst ps) (h : Canonical s) : Canonical (atomPlace s n uid op ty dst ps) := by
  unfold atomPlace
  split <;> grind -linarith [canonical_stashRead, mem_bindConflict, mem_landAtomic, canonical_storeStash, canonical_loadAt, mem_dropOwnLine,
    canonical_sendWcb, mem_noteTier2, canonical_storeAt, mem_landWrite, mem_upOperation, mem_laneSend]

theorem canonical_atomPerform (n uid op ty dst ps) (h : Canonical s) : Canonical (atomPerform s n uid op ty dst ps) := by
  grind -linarith [atomPerform, canonical_atomPlace, canonical_foldl]

theorem canonical_updateWord (n uid loc size v) (h : Canonical s) : Canonical (updateWord s n uid loc size v) := by
  grind -linarith [updateWord, canonical_storeAt, mem_landWrite]

theorem canonical_atom2Lane (n uid dcas w64 dst p) (h : Canonical s) : Canonical (atom2Lane s n uid dcas w64 dst p) := by
  grind -linarith [atom2Lane, mem_dropOwnLine, canonical_sendWcb, canonical_loadAt, mem_landRead, canonical_updateWord]

theorem canonical_readBarrier (who team off) (h : Canonical s) : Canonical (readBarrier s who team off).1 := by
  grind -linarith [readBarrier, canonical_stashRead]

theorem canonical_writeBarrier (who team off b) (h : Canonical s) : Canonical (writeBarrier s who team off b) := by
  grind -linarith [writeBarrier, canonical_stashWrite]

theorem canonical_lowerPend (team off n err) (h : Canonical s) : Canonical (lowerPend s team off n err) := by
  grind -linarith [lowerPend, canonical_readBarrier, canonical_writeBarrier]

@[simp] theorem mem_multicastError (n uid failed) : (multicastError s n uid failed).mem = s.mem := by
  grind -linarith [multicastError, mem_upOperation]

theorem canonical_mcluMember (n uid team rstep ls k) (h : Canonical s) : Canonical (mcluMember s n uid team rstep ls k) := by
  grind -linarith [mcluMember, mem_multicastError, canonical_storeStash, canonical_foldl]

theorem canonical_mdieLane (n g k l) (h : Canonical s) : Canonical (mdieLane s n g k l).1 := by
  grind -linarith [mdieLane, canonical_resolveName, canonical_translate, canonical_leafOf]

theorem canonical_mdieLanes (n g k ls) (h : Canonical s) : Canonical (mdieLanes s n g k ls).1 := by
  induction ls generalizing s with
  | nil => exact h
  | cons l ls ih => grind -linarith [mdieLanes, canonical_mdieLane]

theorem canonical_mdiePerform (n uid ls ks) (h : Canonical s) : Canonical (mdiePerform s n uid ls ks).1 := by
  induction ks generalizing s with
  | nil => exact h
  | cons k ks ih =>
    grind -linarith [mdiePerform, canonical_mdieLanes, mem_dropOwnLine, mem_landWrite, canonical_sendWcb, canonical_storeAt, canonical_foldl]

theorem canonical_flaggedLane (n uid p) (h : Canonical s) : Canonical (flaggedLane s n uid p) := by
  grind -linarith [flaggedLane, mem_upOperation, canonical_storeLane]

/-! ### Texture and ray operations -/

theorem canonical_texPiece (n uid g va size) (h : Canonical s) : Canonical (texPiece s n uid g va size).1 := by
  grind -linarith [texPiece, canonical_sendWcb, canonical_translate, canonical_l1Load, mem_noteTier2, mem_laneSend]

theorem canonical_texRead (n uid va size) (h : Canonical s) : Canonical (texRead s n uid va size).1 := by
  grind -linarith [texRead, canonical_texPiece, canonical_foldl_fst]

@[simp] theorem mem_landWords (n uid dst lane ws got) : (landWords s n uid dst lane ws got).mem = s.mem := rfl

theorem canonical_texelLane (n uid dst t l a) (h : Canonical s) : Canonical (texelLane s n uid dst t l a).1 := by
  grind -linarith [texelLane, canonical_texRead, mem_landWords]

theorem canonical_gfxLane (n uid k l) (h : Canonical s) : Canonical (gfxLane s n uid k l).1 := by
  unfold gfxLane
  split <;> grind -linarith [canonical_texRead, mem_landWords, canonical_texelLane]

/-! ### The course of a memory operation -/

theorem canonical_passAll (n g o k ls) (h : Canonical s) : Canonical (passAll s n g o k ls).1 := by
  induction ls generalizing s with
  | nil => exact h
  | cons l ls ih => grind -linarith [passAll, canonical_passLane]

theorem canonical_ifPerforming (n uid) (f : State → Passed → State) (p) (h : Canonical s)
    (hf : ∀ s p, Canonical s → Canonical (f s p)) : Canonical (ifPerforming n uid f s p) := by
  unfold ifPerforming
  split_ifs
  · exact hf s p h
  · exact h

theorem canonical_performKind (n uid k ps) (h : Canonical s) : Canonical (performKind s n uid k ps) := by
  unfold performKind
  split <;> grind -linarith [canonical_ifPerforming, canonical_loadLane, canonical_constLane, canonical_storeLane, canonical_atomPerform,
    canonical_atom2Lane, canonical_flaggedLane, canonical_foldl]

@[simp] theorem mem_takeOff (n uid k ps) : (takeOff s n uid k ps).mem = s.mem := by
  unfold takeOff
  split <;> grind -linarith [mem_upOperation, mem_dropOwnLine, mem_foldl]

theorem canonical_laneLands (n uid lane) (h : Canonical s) : Canonical (laneLands s n uid lane) := by
  grind -linarith [laneLands, canonical_performKind, mem_upOperation]

theorem canonical_gfxLanes (n uid k ls) (h : Canonical s) : Canonical (gfxLanes s n uid k ls).1 := by
  induction ls generalizing s with
  | nil => exact h
  | cons l ls ih => grind -linarith [gfxLanes, canonical_gfxLane]

theorem canonical_mcluPerform (n uid mask bar ls) (h : Canonical s) : Canonical (mcluPerform s n uid mask bar ls) := by
  grind -linarith [mcluPerform, canonical_mcluMember, mem_upOperation, canonical_foldl]

theorem canonical_runLanes (n uid) (h : Canonical s) : Canonical (runLanes s n uid).1 := by
  unfold runLanes
  split <;> grind -linarith [canonical_mdiePerform, mem_upOperation, mem_multicastError, canonical_mcluPerform, canonical_gfxLanes,
    canonical_passAll,
    canonical_performKind, mem_takeOff]

@[simp] theorem mem_completeOp (n uid) : (completeOp s n uid).mem = s.mem := rfl

@[simp] theorem mem_finishAccess (n uid) : (finishAccess s n uid).mem = s.mem := by
  grind -linarith [finishAccess, mem_upGroup, mem_completeOp]

@[simp] theorem mem_abandonOp (n uid) : (abandonOp s n uid).mem = s.mem := by
  grind -linarith [abandonOp, mem_completeOp, mem_upOperation]

theorem canonical_parkMemory (n uid x cause level pte) (h : Canonical s) : Canonical (parkMemory s n uid x cause level pte) := by
  grind -linarith [parkMemory, mem_putGroup, mem_upGroup, canonical_parkAt]

theorem canonical_afterRun (n uid stops) (h : Canonical s) : Canonical (afterRun s n uid stops) := by
  unfold afterRun
  split <;> grind -linarith [canonical_trapAt, mem_abandonOp, canonical_parkMemory, mem_finishAccess, mem_upGroup]

theorem canonical_runOp (n uid) (h : Canonical s) : Canonical (runOp s n uid) := by
  grind -linarith [runOp, mem_putGroup, canonical_runLanes, canonical_afterRun]

theorem canonical_beginAccess (n uid) (h : Canonical s) : Canonical (beginAccess s n uid) := by
  grind -linarith [beginAccess, canonical_runOp, mem_putGroup]

theorem canonical_beginOp (n uid) (h : Canonical s) : Canonical (beginOp s n uid) := by
  grind -linarith [beginOp, canonical_drainWcb, canonical_beginAccess, mem_putGroup]

theorem canonical_startMem (g i o trap lanes dests) (h : Canonical s) : Canonical (startMem s g i o trap lanes dests) := by
  unfold startMem
  split <;> grind -linarith [mem_stall, canonical_trapAt, canonical_beginOp, mem_putGroup, mem_bump]

@[simp] theorem mem_landReg (n r w) : (landReg s n r w).mem = s.mem := by
  unfold landReg
  split <;> grind -linarith [mem_upGroup, mem_writeHAs]

@[simp] theorem mem_landOne (n o r w) : (landOne s n o r w).mem = s.mem := by
  grind -linarith [landOne, mem_landReg]

theorem canonical_retireOp (n o) (h : Canonical s) : Canonical (retireOp s n o) := by
  grind -linarith [retireOp, mem_upGroup, mem_landOne, canonical_contextError, mem_putGroup, canonical_foldl]

/-! ### Memory instructions -/

theorem canonical_accessAt (g i o ls size glob stash raw win data dests) (h : Canonical s) :
    Canonical (accessAt s g i o ls size glob stash raw win data dests) := by
  grind -linarith [accessAt, canonical_startMem]

theorem canonical_genericAccess {i o gd d b off uni store stash size} (h : Canonical s)
    (e : genericAccess s i o gd d b off uni store stash size = .next u) : Canonical u := by
  grind -linarith [genericAccess, canonical_accessAt, onGroup]

theorem canonical_stashAccess {i o gd d b off uni store size} (h : Canonical s)
    (e : stashAccess s i o gd d b off uni store size = .next u) : Canonical u := by
  grind -linarith [stashAccess, canonical_accessAt, onGroup]

theorem canonical_prefLane (n g lvl a) (h : Canonical s) : Canonical (prefLane s n g lvl a) := by
  grind -linarith [prefLane, canonical_translate, canonical_l1Load]

theorem canonical_execPref {lvl g b offset} (h : Canonical s) (e : execPref lvl g b offset s = .next u) : Canonical u := by
  grind -linarith [execPref, mem_upGroup, canonical_prefLane, onGroup, canonical_foldl]

theorem canonical_tensorLane (w d size clipping l c data) (h : Canonical s) : Canonical (tensorLane s w d size clipping l c data).1 := by
  grind -linarith [tensorLane, canonical_resolveCoord]

theorem canonical_tensorLanes (g w d coord size clipping data ls) (h : Canonical s) :
    Canonical (tensorLanes s g w d coord size clipping data ls).1 := by
  induction ls generalizing s with
  | nil => exact h
  | cons l ls ih => grind -linarith [tensorLanes, canonical_tensorLane]

theorem canonical_tensorAccess {i gd d coord desc t clipping store} (h : Canonical s)
    (e : tensorAccess s i gd d coord desc t clipping store = .next u) : Canonical u := by
  unfold tensorAccess at e
  refine canonical_onGroup (fun g => ?_) e
  (repeat' split) <;> grind -linarith [mem_stall, canonical_startMem, canonical_fetchDesc, canonical_trapAt, canonical_wholeFault,
    canonical_tensorLanes]

theorem canonical_execAtom {aop t m} (h : Canonical s) (e : execAtom aop t m s = .next u) : Canonical u := by
  grind -linarith [execAtom, canonical_accessAt, onGroup]

theorem canonical_execRed {aop t m} (h : Canonical s) (e : execRed aop t m s = .next u) : Canonical u := by
  grind -linarith [execRed, canonical_accessAt, onGroup]

theorem canonical_execAtoms {aop t m} (h : Canonical s) (e : execAtoms aop t m s = .next u) : Canonical u := by
  grind -linarith [execAtoms, canonical_accessAt, onGroup]

theorem canonical_atom2 {i gd d b1 b2 w64 count results} (h : Canonical s) (e : atom2 s i gd d b1 b2 w64 count results = .next u) :
    Canonical u := by
  grind -linarith [atom2, canonical_startMem, onGroup]

theorem canonical_execStm {g d b mask t mdie order scope bar bars} (h : Canonical s)
    (e : execStm g d b mask t mdie order scope bar bars s = .next u) : Canonical u := by
  grind -linarith [execStm, canonical_startMem, onGroup]

theorem canonical_execStf {g d b flag t order scope} (h : Canonical s) (e : execStf g d b flag t order scope s = .next u) :
    Canonical u := by
  grind -linarith [execStf, canonical_startMem, onGroup]

/-! ### Fences, transactions, bound lines -/

@[simp] theorem mem_tryFence (n order scope xp) : (tryFence s n order scope xp).mem = s.mem := by
  grind -linarith [tryFence, mem_putGroup]

theorem canonical_execFence {_g order scope xp} (h : Canonical s) (e : execFence _g order scope xp s = .next u) : Canonical u := by
  grind -linarith [execFence, mem_tryFence, canonical_drainWcb, onGroup]

theorem canonical_execTxbegin {d} (h : Canonical s) (e : execTxbegin d s = .next u) : Canonical u := by
  grind -linarith [execTxbegin, mem_putGroup, onGroup]

theorem canonical_commitTx (n g t) (h : Canonical s) : Canonical (commitTx s n g t) := by
  grind -linarith [commitTx, mem_putGroup, canonical_sendLine, mem_dropOwnLine, mem_upGroup, canonical_foldl, canonical_foldl_fst]

theorem canonical_tryTxend (n) (h : Canonical s) : Canonical (tryTxend s n) := by
  grind -linarith [tryTxend, mem_putGroup, mem_upGroup, canonical_commitTx]

theorem canonical_execTxend (h : Canonical s) (e : execTxend s = .next u) : Canonical u := by
  grind -linarith [execTxend, canonical_tryTxend, onGroup]

theorem canonical_execTxabort {code} (h : Canonical s) (e : execTxabort code s = .next u) : Canonical u := by
  grind -linarith [execTxabort, mem_putGroup, onGroup]

theorem canonical_recallLine (line) (h : Canonical s) : Canonical (recallLine s line).1 := by
  grind -linarith [recallLine, canonical_performWrite, mem_needLine]

theorem canonical_flushLine (line) (h : Canonical s) : Canonical (flushLine s line).1 := by
  grind -linarith [flushLine, canonical_recallLine]

theorem canonical_writeBackSlot (team slot release) (h : Canonical s) : Canonical (writeBackSlot s team slot release).1 := by
  grind -linarith [writeBackSlot, canonical_recallLine, canonical_flushLine, mem_upTeam, canonical_foldl_fst]

theorem canonical_unbindAll (team) (h : Canonical s) : Canonical (unbindAll s team).1 := by
  grind -linarith [unbindAll, canonical_writeBackSlot, canonical_foldl_fst]

theorem canonical_bindLines (w lane gaddr k) (h : Canonical s) : Canonical (bindLines s w lane gaddr k).1 := by
  induction k with
  | zero => exact h
  | succ k ih => grind -linarith [bindLines, canonical_translate]

@[simp] theorem mem_afterWriteBack (n c) : (afterWriteBack s n c).mem = s.mem := rfl

theorem canonical_execSbind {slot gaddr soff len} (h : Canonical s) (e : execSbind slot gaddr soff len s = .next u) : Canonical u := by
  grind -linarith [execSbind, canonical_trapAt, mem_stall, canonical_bindLines, canonical_wholeFault, canonical_writeBackSlot, mem_upTeam,
    mem_afterWriteBack, onGroup]

theorem canonical_execSunbind {slot} (h : Canonical s) (e : execSunbind slot s = .next u) : Canonical u := by
  grind -linarith [execSunbind, mem_stall, canonical_writeBackSlot, mem_afterWriteBack, onGroup]

theorem canonical_execSflush {slot} (h : Canonical s) (e : execSflush slot s = .next u) : Canonical u := by
  grind -linarith [execSflush, mem_stall, canonical_writeBackSlot, mem_afterWriteBack, onGroup]

theorem canonical_execBindFirstTouch {team slot line} (h : Canonical s) (e : execBindFirstTouch team slot line s = .next u) : Canonical u := by
  grind -linarith [execBindFirstTouch, canonical_fillBound]

theorem canonical_execBindRecall {line} (h : Canonical s) (e : execBindRecall line s = .next u) : Canonical u := by
  grind -linarith [execBindRecall, canonical_recallLine]

theorem canonical_execTxAbort {g cause} (h : Canonical s) (e : execTxAbort g cause s = .next u) : Canonical u := by
  grind -linarith [execTxAbort, mem_putGroup]

/-! ### The end of a team -/

@[simp] theorem mem_fireContributions (n t) : (fireContributions s n t).mem = s.mem := by
  grind -linarith [fireContributions, mem_foldl]

theorem canonical_freeTeam (n t) (h : Canonical s) : Canonical (freeTeam s n t) := by
  grind -linarith [freeTeam, memory_wf_filter]

theorem canonical_settleTeam (n) (h : Canonical s) : Canonical (settleTeam s n) := by
  grind -linarith [settleTeam, canonical_unbindAll, mem_fireContributions, mem_upTeam, canonical_freeTeam]

theorem canonical_exitGroup (n) (h : Canonical s) : Canonical (exitGroup s n) := by
  grind -linarith [exitGroup, canonical_settleTeam, canonical_endGroup, canonical_drainWcb]

theorem canonical_execExit (h : Canonical s) (e : execExit s = .next u) : Canonical u := by
  grind -linarith [execExit, canonical_exitGroup, onGroup]

/-! ### Barriers -/

theorem canonical_barrierState (n b) (h : Canonical s) : Canonical (barrierState s n b) := by
  grind -linarith [barrierState, canonical_trapAt]

theorem canonical_execBinit {b count quota} (h : Canonical s) (e : execBinit b count quota s = .next u) : Canonical u := by
  grind -linarith [execBinit, canonical_trapAt, mem_stall, canonical_barrierState, mem_upGroup, canonical_writeBarrier, onGroup]

theorem canonical_execBexp {b n} (h : Canonical s) (e : execBexp b n s = .next u) : Canonical u := by
  grind -linarith [execBexp, canonical_trapAt, mem_stall, canonical_readBarrier, mem_upGroup, canonical_writeBarrier, onGroup]

theorem canonical_arriveBarv (n d a bytes) (h : Canonical s) : Canonical (arriveBarv s n d a bytes) := by
  grind -linarith [arriveBarv, mem_upGroup, mem_writeU, canonical_readBarrier, canonical_barrierState, canonical_writeBarrier]

theorem canonical_tryBarv (n d a bytes) (h : Canonical s) : Canonical (tryBarv s n d a bytes) := by
  grind -linarith [tryBarv, canonical_arriveBarv, mem_putGroup]

theorem canonical_execBarv {d b n} (h : Canonical s) (e : execBarv d b n s = .next u) : Canonical u := by
  grind -linarith [execBarv, canonical_trapAt, canonical_tryBarv, canonical_drainWcb, onGroup]

@[simp] theorem mem_leaveWait (n scope xp) : (leaveWait s n scope xp).mem = s.mem := rfl

theorem canonical_tryBwait (n d a gen) (h : Canonical s) : Canonical (tryBwait s n d a gen) := by
  unfold tryBwait
  split
  · exact h
  · split
    · exact h
    · apply canonical_ite
      · rw [Canonical, mem_leaveWait, mem_writeU, mem_upGroup]
        exact canonical_readBarrier _ _ _ h
      · exact h

theorem canonical_execBwait {d b n} (h : Canonical s) (e : execBwait d b n s = .next u) : Canonical u := by
  grind -linarith [execBwait, canonical_trapAt, mem_stall, canonical_tryBwait, onGroup]

@[simp] theorem mem_setArrived (cluster id ns team) : (setArrived s cluster id ns team).mem = s.mem := rfl

@[simp] theorem mem_openBarrier (team cluster id) : (openBarrier s team cluster id).mem = s.mem := by
  grind -linarith [openBarrier, mem_setArrived, mem_leaveWait, mem_foldl]

@[simp] theorem mem_arriveBar (n cluster id) : (arriveBar s n cluster id).mem = s.mem := by
  grind -linarith [arriveBar, mem_putGroup, mem_setArrived, mem_openBarrier]

theorem canonical_execBart {id} (h : Canonical s) (e : execBart id s = .next u) : Canonical u := by
  grind -linarith [execBart, mem_arriveBar, canonical_drainWcb, onGroup]

theorem canonical_execBarc {id} (h : Canonical s) (e : execBarc id s = .next u) : Canonical u := by
  grind -linarith [execBarc, mem_arriveBar, canonical_drainWcb, onGroup]

theorem canonical_tryWaitc (n cs) (h : Canonical s) : Canonical (tryWaitc s n cs) := by
  grind -linarith [tryWaitc, canonical_raiseReported, mem_putGroup]

theorem canonical_execWaitc {id1 t1 id2 t2} (h : Canonical s) (e : execWaitc id1 t1 id2 t2 s = .next u) : Canonical u := by
  grind -linarith [execWaitc, canonical_tryWaitc, onGroup]

/-! ### Event records, windows, the loss of a site -/

theorem canonical_recordEvent (ev) (h : Canonical s) : Canonical (recordEvent s ev) := by
  grind -linarith [recordEvent, mem_needLine, canonical_storeNum, canonical_storeAt]

theorem canonical_recordCrossing (ev) (h : Canonical s) : Canonical (recordCrossing s ev) := by
  grind -linarith [recordCrossing, canonical_recordEvent]

@[simp] theorem mem_countEvent (k n) : (countEvent s k n).1.mem = s.mem := rfl

theorem canonical_unitEvent (k n ev) (h : Canonical s) : Canonical (unitEvent s k n ev) := by
  grind -linarith [unitEvent, mem_countEvent, canonical_recordCrossing]

theorem canonical_shadowEvent (core) (h : Canonical s) : Canonical (shadowEvent s core) := by
  grind -linarith [shadowEvent, mem_countEvent, canonical_recordCrossing, mem_upCore]

theorem canonical_adderEvent (site) (h : Canonical s) : Canonical (adderEvent s site) := by
  grind -linarith [adderEvent, mem_countEvent, canonical_recordCrossing]

theorem canonical_scrubLine (line corrected) (h : Canonical s) : Canonical (scrubLine s line corrected) := by
  grind -linarith [scrubLine, canonical_unitEvent, canonical_recordEvent, canonical_recordCrossing]

theorem canonical_flitReplay (site edge m failed) (h : Canonical s) : Canonical (flitReplay s site edge m failed) := by
  grind -linarith [flitReplay, mem_countEvent, canonical_recordCrossing]

@[simp] theorem mem_heartbeat (site) : (heartbeat s site).mem = s.mem := by
  grind -linarith [heartbeat, mem_upDie, mem_foldl]

theorem canonical_dropSite (site) (h : Canonical s) : Canonical (dropSite s site) := by
  grind -linarith [dropSite, canonical_contextError, canonical_foldl]

@[simp] theorem mem_failOps (site) : (failOps s site).mem = s.mem := rfl

theorem canonical_regionStatus (entry ctx site st block) (h : Canonical s) : Canonical (regionStatus s entry ctx site st block) := by
  grind -linarith [regionStatus, canonical_engReadNum, canonical_engWrite, canonical_engWriteNum]

theorem canonical_failHeld (site) (h : Canonical s) : Canonical (failHeld s site) := by
  grind -linarith [failHeld, canonical_regionStatus, canonical_foldl]

theorem canonical_loseSite (site) (h : Canonical s) : Canonical (loseSite s site) := by
  grind -linarith [loseSite, canonical_dropSite, mem_failOps, canonical_recordEvent, canonical_failHeld]

theorem canonical_execPatrolScrub {line corrected} (h : Canonical s) (e : execPatrolScrub line corrected s = .next u) : Canonical u := by
  grind -linarith [execPatrolScrub, canonical_scrubLine]

theorem canonical_execFlitCrcReplay {site edge module failed} (h : Canonical s) (e : execFlitCrcReplay site edge module failed s = .next u) :
    Canonical u := by
  grind -linarith [execFlitCrcReplay, canonical_flitReplay]

theorem canonical_execOscillatorLockLoss {site osc} (h : Canonical s) (e : execOscillatorLockLoss site osc s = .next u) : Canonical u := by
  grind -linarith [execOscillatorLockLoss, canonical_unitEvent]

theorem canonical_execHeartbeatSend {site} (h : Canonical s) (e : execHeartbeatSend site s = .next u) : Canonical u := by
  grind -linarith [execHeartbeatSend, mem_heartbeat]

/-! ### Emissions and frames -/

theorem canonical_loadFrame (w base f) (h : Canonical s) : Canonical (loadFrame s w base f).1 := by
  grind -linarith [loadFrame, canonical_engRead]

@[simp] theorem mem_noteEmitted (site ctx seqid route) : (noteEmitted s site ctx seqid route).mem = s.mem := rfl

theorem canonical_sendMarks (site ctx seqid n uid sink) (h : Canonical s) : Canonical (sendMarks site ctx seqid n uid s sink) := by
  grind -linarith [sendMarks, canonical_loadFrame, canonical_foldl]

theorem canonical_closeMarks (site ctx seqid n uid) (h : Canonical s) : Canonical (closeMarks s site ctx seqid n uid) := by
  grind -linarith [closeMarks, mem_upDie, canonical_sendMarks, canonical_foldl]

/-! ### Texture and ray instructions, generators -/

theorem canonical_texture {i gd d tex kind data ctr} (h : Canonical s) (e : texture s i gd d tex kind data ctr = .next u) :
    Canonical u := by
  grind -linarith [texture, canonical_startMem, onGroup]

theorem canonical_rayTest {i gd d addr align k kind data} (h : Canonical s) (e : rayTest s i gd d addr align k kind data = .next u) :
    Canonical u := by
  grind -linarith [rayTest, canonical_startMem, onGroup]

theorem canonical_execRng {g d k c} (h : Canonical s) (e : execRng g d k c s = .next u) : Canonical u := by
  grind -linarith [execRng, mem_putGroup, onGroup]

/-! ### Sequences -/

@[simp] theorem mem_journal (site n op r) : (journal s site n op r).mem = s.mem := rfl

@[simp] theorem mem_upSlot (team k f) : (State.upSlot s team k f).mem = s.mem := rfl

theorem canonical_seqTrap (k) (h : Canonical s) : Canonical (seqTrap s k) := by
  grind -linarith [seqTrap, canonical_trapAt]

@[simp] theorem mem_seqOp (g i len need slot) : (seqOp s g i len need slot).mem = s.mem := rfl

@[simp] theorem mem_lowerSeq (n uid) : (lowerSeq s n uid).mem = s.mem := rfl

theorem canonical_openSlot (g i gd k v replay) (h : Canonical s) : Canonical (openSlot s g i gd k v replay) := by
  grind -linarith [openSlot, mem_stall, mem_seqOp, canonical_seqTrap, mem_upTeam, mem_journal, canonical_foldl]

theorem canonical_execSopen {g slot v} (h : Canonical s) (e : execSopen g slot v s = .next u) : Canonical u := by
  grind -linarith [execSopen, canonical_openSlot, onGroup]

theorem canonical_execSopenReplay {g slot v} (h : Canonical s) (e : execSopenReplay g slot v s = .next u) : Canonical u := by
  grind -linarith [execSopenReplay, canonical_openSlot, onGroup]

theorem canonical_execSopenFetch {g slot d} (h : Canonical s) (e : execSopenFetch g slot d s = .next u) : Canonical u := by
  grind -linarith [execSopenFetch, mem_stall, mem_seqOp, canonical_seqTrap, mem_upOperation, onGroup]

theorem canonical_execRngSeq {g d k n} (h : Canonical s) (e : execRngSeq g d k n s = .next u) : Canonical u := by
  grind -linarith [execRngSeq, mem_putGroup, canonical_seqTrap, mem_stall, mem_upSlot, onGroup]

theorem canonical_routeFault (w rs) (h : Canonical s) : Canonical (routeFault s w rs).1 := by
  induction rs generalizing s with
  | nil => exact h
  | cons r rs ih => grind -linarith [routeFault, canonical_resolveName]

@[simp] theorem mem_emitLane (n uid k rel g route payload l) : (emitLane n uid k rel g route payload l s).mem = s.mem := by
  grind -linarith [emitLane, mem_noteEmitted, mem_journal, mem_upSlot]

theorem canonical_execSemit {g slot cnt p route rel} (h : Canonical s) (e : execSemit g slot cnt p route rel s = .next u) :
    Canonical u := by
  unfold execSemit at e
  refine canonical_onGroup (fun g => ?_) e
  (repeat' split) <;> grind -linarith [mem_stall, mem_seqOp, canonical_seqTrap, canonical_trapAt, canonical_routeFault, mem_emitLane,
    canonical_foldl]

theorem canonical_execSmark {g slot p} (h : Canonical s) (e : execSmark g slot p s = .next u) : Canonical u := by
  grind -linarith [execSmark, mem_stall, mem_seqOp, canonical_seqTrap, mem_journal, onGroup, canonical_foldl]

@[simp] theorem mem_endLookups (n x) : (endLookups n x s).mem = s.mem := by
  grind -linarith [endLookups, mem_lowerSeq, mem_foldl]

theorem canonical_execSclose {slot} (h : Canonical s) (e : execSclose slot s = .next u) : Canonical u := by
  grind -linarith [execSclose, mem_stall, canonical_seqTrap, mem_upTeam, mem_endLookups, mem_seqOp, mem_journal, canonical_closeMarks, onGroup,
    canonical_foldl]

/-! ### The emission journal -/

@[simp] theorem mem_takePartner (site) : (takePartner s site).mem = s.mem := rfl

theorem canonical_execPartnerLost {site} (h : Canonical s) (e : execPartnerLost site s = .next u) : Canonical u := by
  grind -linarith [execPartnerLost, mem_takePartner]

theorem canonical_execPartnerResendDone {site} (h : Canonical s) (e : execPartnerResendDone site s = .next u) : Canonical u := by
  grind -linarith [execPartnerResendDone, mem_upDie]

theorem canonical_execContactLogRecordArrive {site rec} (h : Canonical s) (e : execContactLogRecordArrive site rec s = .next u) :
    Canonical u := by
  grind -linarith [execContactLogRecordArrive, mem_upDie]

@[simp] theorem mem_freeRecords (site p k r) : (freeRecords s site p k r).mem = s.mem := rfl

theorem canonical_execJournalRecordAck {site rec} (h : Canonical s) (e : execJournalRecordAck site rec s = .next u) : Canonical u := by
  grind -linarith [execJournalRecordAck, mem_lowerSeq, mem_upDie, mem_freeRecords]

@[simp] theorem mem_endEmission (em ev err) : (endEmission s em ev err).mem = s.mem := rfl

@[simp] theorem mem_requeue (em ev) : (requeue s em ev).mem = s.mem := rfl

@[simp] theorem mem_dedupArrive (em ev k x) : (dedupArrive s em ev k x).mem = s.mem := by
  grind -linarith [dedupArrive, mem_requeue, mem_endEmission]

theorem canonical_execSinkEmissionArrive {em} (h : Canonical s) (e : execSinkEmissionArrive em s = .next u) : Canonical u := by
  grind -linarith [execSinkEmissionArrive, canonical_resolveName, mem_endEmission, mem_requeue, mem_dedupArrive]

theorem canonical_execRingSinkDeliver {em} (h : Canonical s) (e : execRingSinkDeliver em s = .next u) : Canonical u := by
  unfold execRingSinkDeliver at e
  injection e with e
  subst e
  (repeat' split) <;> grind -linarith [canonical_resolveName, mem_endEmission, canonical_engReadNum, canonical_engWriteNum, canonical_engWrite]

theorem canonical_lookupFrom (w image seqid token n i) (h : Canonical s) :
    Canonical (lookupFrom w image seqid token n i s).1 := by
  induction n generalizing i s with
  | zero => exact h
  | succ n ih => grind -linarith [lookupFrom, canonical_engRead]

theorem canonical_lookupRecord (w image seqid token) (h : Canonical s) : Canonical (lookupRecord s w image seqid token).1 := by
  grind -linarith [lookupRecord, canonical_engRead, canonical_lookupFrom]

theorem canonical_execForcedRecordFetch {g slot lane} (h : Canonical s) (e : execForcedRecordFetch g slot lane s = .next u) : Canonical u := by
  grind -linarith [execForcedRecordFetch, canonical_lookupRecord, mem_upSlot, mem_lowerSeq]

/-! ### Dispatch and issue -/

theorem canonical_raiseAtHeader {n g hd} (h : Canonical s) (e : raiseAtHeader s n g hd = some u) : Canonical u := by
  unfold raiseAtHeader at e
  split_ifs at e
  obtain ⟨c, -, rfl⟩ := Option.map_eq_some_iff.mp e
  exact canonical_raiseReported n c h

theorem canonical_handlerUnusable (n g) (h : Canonical s) : Canonical (handlerUnusable s n g) := by
  grind -linarith [handlerUnusable, canonical_endGroup, canonical_contextError]

theorem canonical_fetchHeader (n g) (h : Canonical s) : Canonical (fetchHeader s n g).1 := by
  grind -linarith [fetchHeader, canonical_engReadNum, canonical_handlerUnusable, canonical_parkWhole, canonical_fetchWord, canonical_trapAt]

theorem canonical_execClauseDispatch (h : Canonical s) (e : execClauseDispatch s = .next u) : Canonical u := by
  grind -linarith [execClauseDispatch, mem_putGroup, canonical_fetchHeader, mem_upGroup, onGroup]

@[simp] theorem mem_endTurn (n) : (endTurn s n).mem = s.mem := by
  grind -linarith [endTurn, mem_upGroup]

@[simp] theorem mem_letIssue (n g i cls) : (letIssue s n g i cls).1.mem = s.mem := by
  unfold letIssue
  split <;> grind -linarith [mem_putGroup, mem_endTurn]

theorem canonical_fetchSecond (n g len) (h : Canonical s) : Canonical (fetchSecond s n g len).1 := by
  grind -linarith [fetchSecond, canonical_fetchWord]

theorem canonical_issueWord (n g hh) (h : Canonical s) : Canonical (issueWord s n g hh).1 := by
  unfold issueWord
  split <;> grind -linarith [canonical_fetchWord, canonical_trapAt, canonical_fetchSecond, mem_letIssue]

theorem canonical_visitWord (v g hh) (h : Canonical s) : Canonical (visitWord s v g hh).state := by
  grind -linarith [visitWord, canonical_raiseAtHeader, canonical_issueWord]

theorem canonical_lookAt (v) (h : Canonical s) : Canonical (lookAt s v).state := by
  unfold lookAt
  split <;> grind -linarith [mem_putGroup, mem_endTurn, canonical_visitWord]

/-! ### Shapes of vector instructions -/

theorem canonical_vec32 {words gd d srcs f} (h : Canonical s) (e : vec32 s words gd d srcs f = .next u) : Canonical u := by
  grind -linarith [vec32, canonical_withFeeds, mem_putGroup, onGroup]

theorem canonical_vec64 {words gd d srcs f} (h : Canonical s) (e : vec64 s words gd d srcs f = .next u) : Canonical u := by
  grind -linarith [vec64, canonical_withFeeds, mem_putGroup, onGroup]

theorem canonical_short2 {gd d t a b f} (h : Canonical s) (e : short2 s gd d t a b f = .next u) : Canonical u := by
  grind -linarith [short2, canonical_vec32]

theorem canonical_short1 {gd d t a f} (h : Canonical s) (e : short1 s gd d t a f = .next u) : Canonical u := by
  grind -linarith [short1, canonical_vec32]

theorem canonical_vecSfu {words gd d srcs f} (h : Canonical s) (e : vecSfu s words gd d srcs f = .next u) : Canonical u := by
  grind -linarith [vecSfu, canonical_withFeeds, mem_putGroup, onGroup]

theorem canonical_long1 {o t f} (h : Canonical s) (e : long1 s o t f = .next u) : Canonical u := by
  grind -linarith [long1, canonical_vec32]

theorem canonical_long2 {o t f} (h : Canonical s) (e : long2 s o t f = .next u) : Canonical u := by
  grind -linarith [long2, canonical_vec32]

theorem canonical_long3 {o ta tc f} (h : Canonical s) (e : long3 s o ta tc f = .next u) : Canonical u := by
  grind -linarith [long3, canonical_vec32]

/-! ### Integer instructions -/

theorem canonical_execSel {w64 pneg pr o} (h : Canonical s) (e : execSel w64 pneg pr o s = .next u) : Canonical u := by
  grind -linarith [execSel, canonical_vec64, canonical_vec32]

/-! ### Floating-point instructions -/

theorem canonical_shortSfu {g d a f} (h : Canonical s) (e : shortSfu s g d a f = .next u) : Canonical u := by
  grind -linarith [shortSfu, canonical_vecSfu]

theorem canonical_longSfu {o f} (h : Canonical s) (e : longSfu s o f = .next u) : Canonical u := by
  grind -linarith [longSfu, canonical_vecSfu]

theorem canonical_execDot4 {t rm sat o} (h : Canonical s) (e : execDot4 t rm sat o s = .next u) : Canonical u := by
  grind -linarith [execDot4, canonical_long3]

theorem canonical_execDot8 {t rm sat o} (h : Canonical s) (e : execDot8 t rm sat o s = .next u) : Canonical u := by
  grind -linarith [execDot8, canonical_long3]

/-! ### Across lanes, masks -/

theorem canonical_execXlane {w64 o} (h : Canonical s) (e : execXlane w64 o s = .next u) : Canonical u := by
  grind -linarith [execXlane, canonical_vec64, canonical_long1]

theorem canonical_execXlaneIdx {w64 ifill o} (h : Canonical s) (e : execXlaneIdx w64 ifill o s = .next u) : Canonical u := by
  grind -linarith [execXlaneIdx, canonical_vec64, canonical_vec32]

theorem canonical_redInstr {t o f} (h : Canonical s) (e : redInstr s t o f = .next u) : Canonical u := by
  grind -linarith [redInstr, canonical_vec32, canonical_vec64]

theorem canonical_wholeMask {d srcs f} (h : Canonical s) (e : wholeMask s d srcs f = .next u) : Canonical u := by
  grind -linarith [wholeMask, canonical_withFeeds, mem_putGroup, onGroup]

theorem canonical_execPmov {d a} (h : Canonical s) (e : execPmov d a s = .next u) : Canonical u := by
  grind -linarith [execPmov, mem_putGroup, onGroup]

theorem canonical_execExset {a} (h : Canonical s) (e : execExset a s = .next u) : Canonical u := by
  grind -linarith [execExset, mem_putGroup, onGroup]

theorem canonical_execExsetAnd {d} (h : Canonical s) (e : execExsetAnd d s = .next u) : Canonical u := by
  grind -linarith [execExsetAnd, mem_putGroup, onGroup]

theorem canonical_execExsetAndn {d} (h : Canonical s) (e : execExsetAndn d s = .next u) : Canonical u := by
  grind -linarith [execExsetAndn, mem_putGroup, onGroup]

theorem canonical_execExget {d} (h : Canonical s) (e : execExget d s = .next u) : Canonical u := by
  grind -linarith [execExget, mem_putGroup, onGroup]

/-! ### Uniform instructions and control -/

theorem canonical_uni32 {words d f} (h : Canonical s) (e : uni32 s words d f = .next u) : Canonical u := by
  grind -linarith [uni32, mem_upGroup, mem_writeU, onGroup]

theorem canonical_uni64 {words d f} (h : Canonical s) (e : uni64 s words d f = .next u) : Canonical u := by
  grind -linarith [uni64, mem_putGroup, onGroup]

theorem canonical_uniOp {words d a b f} (h : Canonical s) (e : uniOp s words d a b f = .next u) : Canonical u := by
  grind -linarith [uniOp, canonical_uni32]

theorem canonical_uniImm {d a imm f} (h : Canonical s) (e : uniImm s d a imm f = .next u) : Canonical u := by
  grind -linarith [uniImm, canonical_uni32]

theorem canonical_execUcmp {cmp t _g d a b} (h : Canonical s) (e : execUcmp cmp t _g d a b s = .next u) : Canonical u := by
  grind -linarith [execUcmp, mem_putGroup, canonical_uni32, onGroup]

theorem canonical_execUsel {w64 pneg pr _g d a b} (h : Canonical s) (e : execUsel w64 pneg pr _g d a b s = .next u) : Canonical u := by
  grind -linarith [execUsel, canonical_uni64, canonical_uni32]

theorem canonical_execUlane {first w64 g d a b} (h : Canonical s) (e : execUlane first w64 g d a b s = .next u) : Canonical u := by
  grind -linarith [execUlane, canonical_uni64, canonical_uni32]

theorem canonical_execBr {p c unanimous off} (h : Canonical s) (e : execBr p c unanimous off s = .next u) : Canonical u := by
  grind -linarith [execBr, canonical_trapAt, mem_putGroup, onGroup]

theorem canonical_execCall {l off} (h : Canonical s) (e : execCall l off s = .next u) : Canonical u := by
  grind -linarith [execCall, mem_putGroup, onGroup]

theorem canonical_jumpTo {a} (h : Canonical s) (e : jumpTo a s = .next u) : Canonical u := by
  grind -linarith [jumpTo, canonical_trapAt, mem_putGroup, onGroup]

theorem canonical_execLoop {n off} (h : Canonical s) (e : execLoop n off s = .next u) : Canonical u := by
  grind -linarith [execLoop, mem_putGroup, onGroup]

theorem canonical_execNop {_g} (h : Canonical s) (e : execNop _g s = .next u) : Canonical u := by
  grind -linarith [execNop, mem_putGroup, onGroup]

theorem canonical_execMovsr {g d a} (h : Canonical s) (e : execMovsr g d a s = .next u) : Canonical u := by
  grind -linarith [execMovsr, canonical_vec32, canonical_uni64, canonical_uni32]

theorem canonical_execMovsrClr {_g d} (h : Canonical s) (e : execMovsrClr _g d s = .next u) : Canonical u := by
  grind -linarith [execMovsrClr, mem_upGroup, mem_writeU, onGroup]

/-! ### Traps by instruction, control registers, diagnostic arrays -/

theorem canonical_execTrap {g code} (h : Canonical s) (e : execTrap g code s = .next u) : Canonical u := by
  grind -linarith [execTrap, mem_putGroup, canonical_trapAfter, onGroup]

theorem canonical_execBkpt {g code} (h : Canonical s) (e : execBkpt g code s = .next u) : Canonical u := by
  grind -linarith [execBkpt, mem_putGroup, canonical_trapAfter, onGroup]

theorem canonical_execTret (h : Canonical s) (e : execTret s = .next u) : Canonical u := by
  unfold execTret at e
  refine canonical_onGroup (fun g => ?_) e
  (repeat' split) <;> grind -linarith [canonical_trapAt, canonical_fetchWord, mem_upGroup]

@[simp] theorem mem_csrWrite (g n x) : (csrWrite s g n x).mem = s.mem := by
  unfold csrWrite
  split <;> grind -linarith [mem_upDie, mem_upCore]

theorem canonical_execCsrr {d n} (h : Canonical s) (e : execCsrr d n s = .next u) : Canonical u := by
  grind -linarith [execCsrr, canonical_trapAt, mem_putGroup, mem_upGroup, mem_writeU, onGroup]

theorem canonical_execCsrw {src n} (h : Canonical s) (e : execCsrw src n s = .next u) : Canonical u := by
  grind -linarith [execCsrw, canonical_trapAt, mem_upGroup, mem_csrWrite, onGroup]

@[simp] theorem mem_takeRows (core) : (takeRows s core).mem = s.mem := rfl

theorem canonical_execDiagrd {d row arr word} (h : Canonical s) (e : execDiagrd d row arr word s = .next u) : Canonical u := by
  grind -linarith [execDiagrd, canonical_trapAt, mem_putGroup, onGroup]

theorem canonical_scrambleCore (site core) (h : Canonical s) : Canonical (scrambleCore s site core) := by
  grind -linarith [scrambleCore, canonical_foldl, memory_wf_writeBytes]

theorem canonical_execDiagwr {row src arr word} (h : Canonical s) (e : execDiagwr row src arr word s = .next u) : Canonical u := by
  grind -linarith [execDiagwr, canonical_trapAt, mem_upCore, canonical_scrambleCore, mem_upGroup, onGroup]

/-! ### Boot and power -/

@[simp] theorem mem_putFlash (a bs) : (putFlash s a bs).mem = s.mem := rfl

@[simp] theorem mem_advanceLog : (advanceLog s).mem = s.mem := by
  grind -linarith [advanceLog, mem_putFlash]

theorem canonical_bootCore (v core) (h : Canonical s) : Canonical (bootCore s v core) := by
  grind -linarith [bootCore, mem_upCore, memory_wf_writeBytes, writeNum]

theorem canonical_bootLive (map v powered live) (h : Canonical s) : Canonical (bootLive s map v powered live) := by
  grind -linarith [bootLive, canonical_bootCore, canonical_recordCrossing, canonical_recordEvent, canonical_foldl, memory_wf_writeBytes]

theorem canonical_execPowerOn (h : Canonical s) (e : execPowerOn s = .next u) : Canonical u := by
  grind -linarith [execPowerOn, canonical_bootLive]

theorem canonical_powerCycle (s : State) : Canonical (powerCycle s) := rfl

theorem canonical_execPowerLoss (e : execPowerLoss s = .next u) : Canonical u := by
  grind -linarith [execPowerLoss, canonical_powerCycle]

theorem canonical_execSafelightCandidateWrite {isMap bytes} (h : Canonical s) (e : execSafelightCandidateWrite isMap bytes s = .next u) :
    Canonical u := by
  grind -linarith [execSafelightCandidateWrite, canonical_powerCycle, mem_putFlash]

theorem canonical_execSpdmNegotiateAlgorithms {port asym hash} (h : Canonical s) (e : execSpdmNegotiateAlgorithms port asym hash s = .next u) :
    Canonical u := by
  grind -linarith [execSpdmNegotiateAlgorithms]

theorem canonical_execSpdmGetMeasurements {port index} (h : Canonical s) (e : execSpdmGetMeasurements port index s = .next u) : Canonical u := by
  grind -linarith [execSpdmGetMeasurements]

/-! ### The matrix engine -/

@[simp] theorem mem_upQuartet (team k f) : (State.upQuartet s team k f).mem = s.mem := rfl

@[simp] theorem mem_upMembers (team k f) : (State.upMembers s team k f).mem = s.mem := by
  grind -linarith [State.upMembers, mem_upGroup, mem_foldl]

theorem canonical_trapMembers (team k c) (h : Canonical s) : Canonical (trapMembers s team k c) := by
  grind -linarith [trapMembers, canonical_trapAt, mem_upGroup, canonical_foldl]

theorem canonical_probeAll (w rs) (h : Canonical s) : Canonical (probeAll s w rs).1 := by
  grind -linarith [probeAll, canonical_probeRange, canonical_foldl_fst]

theorem canonical_sendName (w q o) (h : Canonical s) : Canonical (sendName s w q o).1 := by
  grind -linarith [sendName, canonical_resolveName]

theorem canonical_checkRecord (w team o) (h : Canonical s) : Canonical (checkRecord s w team o).1 := by
  grind -linarith [checkRecord, canonical_genRead]

theorem canonical_checkMtx (team k o) (h : Canonical s) : Canonical (checkMtx s team k o).1 := by
  unfold checkMtx
  split <;> grind -linarith [canonical_sendName, canonical_probeAll, canonical_checkRecord]

theorem canonical_mxRead (w team a n) (h : Canonical s) : Canonical (mxRead s w team a n).1 := by
  grind -linarith [mxRead, canonical_genRead]

theorem canonical_mxWrites (w team ws) (h : Canonical s) : Canonical (mxWrites s w team ws).1 := by
  grind -linarith [mxWrites, canonical_genWrite, canonical_foldl_fst]

theorem canonical_mxStashRead (w team off n) (h : Canonical s) : Canonical (mxStashRead s w team off n).1 := by
  grind -linarith [mxStashRead, canonical_stashRead, mem_noteClash]

theorem canonical_biasValues (w team off) (h : Canonical s) : Canonical (biasValues s w team off).1 := by
  grind -linarith [biasValues, canonical_mxStashRead]

theorem canonical_epiTile (w team acc tile ty rm act on o) (h : Canonical s) : Canonical (epiTile s w team acc tile ty rm act on o).1 := by
  grind -linarith [epiTile, canonical_biasValues]

theorem canonical_storeTile (w team o size xs c bad) (h : Canonical s) : Canonical (storeTile s w team o size xs c bad).1 := by
  grind -linarith [storeTile, canonical_mxWrites]

theorem canonical_sendTile (w team k o x size xs bad) (h : Canonical s) : Canonical (sendTile s w team k o x size xs bad).1 := by
  grind -linarith [sendTile, canonical_resolveName, canonical_probeRange, canonical_mxWrites]

@[simp] theorem mem_streamTile (team k t o b size xs bad) : (streamTile s team k t o b size xs bad).1.mem = s.mem := by
  grind -linarith [streamTile]

@[simp] theorem mem_putTile (team tile acc err) : (putTile s team tile acc err).mem = s.mem := rfl

theorem canonical_performAccld (w team t o tile ty) (h : Canonical s) : Canonical (performAccld s w team t o tile ty).1 := by
  grind -linarith [performAccld, canonical_mxRead, mem_putTile, canonical_foldl_fst]

theorem canonical_performMxsave (w team k q o stopped) (h : Canonical s) : Canonical (performMxsave s w team k q o stopped).1 := by
  unfold performMxsave
  split <;> grind -linarith [canonical_mxWrites, mem_upQuartet, mem_upMembers]

theorem canonical_performMtx (team k t q o) (h : Canonical s) : Canonical (performMtx s team k t q o).1 := by
  grind -linarith [performMtx, mem_upTeam, mem_upQuartet, canonical_performAccld, canonical_storeTile, canonical_epiTile, canonical_sendTile,
    mem_streamTile,
    mem_putTile, mem_noteClash, canonical_stashWrite, canonical_mxStashRead, canonical_performMxsave, canonical_foldl_fst]

@[simp] theorem mem_noteDone (team k uid d) : (noteDone s team k uid d).mem = s.mem := by
  grind -linarith [noteDone, mem_upMembers]

theorem canonical_drainQuartet (team k fuel) (h : Canonical s) : Canonical (drainQuartet team k fuel s) := by
  induction fuel generalizing s with
  | zero => exact h
  | succ fuel ih =>
    unfold drainQuartet
    (repeat' split) <;> grind -linarith [canonical_performMtx, mem_upQuartet, mem_noteDone, canonical_performMxsave]

theorem canonical_drainQuartets (team) (h : Canonical s) : Canonical (drainQuartets s team) := by
  grind -linarith [drainQuartets, canonical_drainQuartet, canonical_foldl]

theorem canonical_drainTeam (team) (h : Canonical s) : Canonical (drainTeam s team) := by
  grind -linarith [drainTeam, canonical_drainQuartets]

@[simp] theorem mem_countMembers (team k uid i len words) : (countMembers s team k uid i len words).mem = s.mem := by
  grind -linarith [countMembers, mem_upMembers]

theorem canonical_acceptMtx (team k i o) (h : Canonical s) : Canonical (acceptMtx s team k i o) := by
  grind -linarith [acceptMtx, mem_countMembers, mem_upQuartet, canonical_drainTeam]

theorem canonical_endCheck (team k i uid r) (h : Canonical s) : Canonical (endCheck s team k i uid r) := by
  unfold endCheck
  split <;> grind -linarith [mem_upQuartet, canonical_trapMembers, canonical_parkAt, mem_countMembers, mem_noteDone, canonical_acceptMtx]

theorem canonical_runCheck (team k o) (h : Canonical s) : Canonical (runCheck s team k o) := by
  grind -linarith [runCheck, canonical_checkMtx, canonical_endCheck]

theorem canonical_meet (team k) (h : Canonical s) : Canonical (meet s team k) := by
  grind -linarith [meet, canonical_trapMembers, mem_upQuartet, mem_upMembers, mem_bump, canonical_runCheck]

theorem canonical_arriveMtx {i} (h : Canonical s) (e : arriveMtx i s = .next u) : Canonical u := by
  unfold arriveMtx at e
  refine canonical_onGroup (fun g => ?_) e
  (repeat' split) <;> grind -linarith [canonical_trapAt, mem_upQuartet, canonical_meet, mem_upGroup]

theorem canonical_retryMeet (n g) (h : Canonical s) : Canonical (retryMeet s n g) := by
  grind -linarith [retryMeet, mem_upQuartet, canonical_trapAt, mem_upGroup, canonical_meet]

theorem canonical_execMatrixCheckEnd {team quartet} (h : Canonical s) (e : execMatrixCheckEnd team quartet s = .next u) : Canonical u := by
  grind -linarith [execMatrixCheckEnd, canonical_runCheck]

theorem canonical_imageOf (w team o) (h : Canonical s) : Canonical (imageOf s w team o).1 := by
  grind -linarith [imageOf, canonical_mxStashRead]

theorem canonical_compareSpare (team tile t ok) (h : Canonical s) : Canonical (compareSpare s team tile t ok) := by
  grind -linarith [compareSpare, mem_upCore, canonical_shadowEvent, mem_upTeam]

theorem canonical_finishMma (team k o) (h : Canonical s) : Canonical (finishMma s team k o) := by
  grind -linarith [finishMma, mem_upQuartet, canonical_drainTeam, mem_upMembers]

theorem canonical_execMmaPassEnd {team quartet spareOk} (h : Canonical s) (e : execMmaPassEnd team quartet spareOk s = .next u) :
    Canonical u := by
  grind -linarith [execMmaPassEnd, canonical_imageOf, mem_upTeam, mem_upMembers, canonical_compareSpare, mem_upQuartet, canonical_finishMma,
    canonical_drainTeam]

theorem canonical_execMmaFeedTake {team quartet} (h : Canonical s) (e : execMmaFeedTake team quartet s = .next u) : Canonical u := by
  grind -linarith [execMmaFeedTake, canonical_finishMma, mem_upMembers, canonical_drainTeam, mem_upQuartet]

theorem canonical_execSendFlagUpdate {send} (h : Canonical s) (e : execSendFlagUpdate send s = .next u) : Canonical u := by
  unfold execSendFlagUpdate at e
  injection e with e
  subst e
  (repeat' split) <;> grind -linarith [canonical_resolveName, mem_noteDone, canonical_engAdd]

/-! ### Copies -/

theorem canonical_moverWho (n uid g die) (h : Canonical s) : Canonical (moverWho s n uid g die).1 := by
  unfold moverWho
  split <;> grind -linarith [canonical_resolveName]

theorem canonical_copyPhys (n g c die write va) (h : Canonical s) : Canonical (copyPhys s n g c die write va).1 := by
  grind -linarith [copyPhys, canonical_moverWho, canonical_engTranslate, mem_upGroup]

theorem canonical_copyRead (n g c die a k) (h : Canonical s) : Canonical (copyRead s n g c die a k).1 := by
  unfold copyRead
  split <;> grind -linarith [canonical_copyPhys, canonical_homeLoad, canonical_stashRead, mem_noteClash, canonical_foldl_fst]

theorem canonical_copyWrite (n g c pos die a bs) (h : Canonical s) : Canonical (copyWrite s n g c pos die a bs).1 := by
  unfold copyWrite
  split <;> grind -linarith [canonical_copyPhys, mem_fabSend, canonical_storeAt, canonical_stashWrite, mem_noteClash, canonical_foldl_fst]

theorem canonical_readHalf (n g c a) (h : Canonical s) : Canonical (readHalf s n g c a).1 := by
  unfold readHalf
  split <;> grind -linarith [canonical_copyRead]

theorem canonical_moveHalf (n g c hh) (h : Canonical s) : Canonical (moveHalf s n g c hh).1 := by
  grind -linarith [moveHalf, canonical_readHalf, canonical_copyRead, canonical_copyWrite]

theorem canonical_moveByte (n g c p) (h : Canonical s) : Canonical (moveByte s n g c p).1 := by
  grind -linarith [moveByte, canonical_moveHalf]

theorem canonical_moveBytes (n g c p k) (h : Canonical s) : Canonical (moveBytes s n g c p k).1 := by
  induction k with
  | zero => exact h
  | succ k ih => grind -linarith [moveBytes, canonical_moveByte]

theorem canonical_moveRun (n g c p k) (h : Canonical s) : Canonical (moveRun s n g c p k).1 := by
  grind -linarith [moveRun, canonical_copyRead, canonical_copyWrite]

theorem canonical_moveStep (n g c p k) (h : Canonical s) : Canonical (moveStep s n g c p k).1 := by
  grind -linarith [moveStep, canonical_moveRun, canonical_moveBytes]

theorem canonical_lowerFor (g bar k err) (h : Canonical s) : Canonical (lowerFor s g bar k err) := by
  unfold lowerFor
  split <;> grind -linarith [canonical_lowerPend]

@[simp] theorem mem_stopCopy (n uid bound) : (stopCopy s n uid bound).mem = s.mem := by
  grind -linarith [stopCopy, mem_upGroup]

theorem canonical_dropEnded (n uid) (h : Canonical s) : Canonical (dropEnded s n uid) := by
  grind -linarith [dropEnded, mem_putGroup, canonical_settleTeam, canonical_contextError, canonical_foldl]

theorem canonical_attributeBytes (n uid) (h : Canonical s) : Canonical (attributeBytes s n uid) := by
  grind -linarith [attributeBytes, mem_upGroup, canonical_lowerFor]

theorem canonical_moveCopy (n uid k) (h : Canonical s) : Canonical (moveCopy s n uid k) := by
  grind -linarith [moveCopy, canonical_moveStep, mem_upGroup, mem_stopCopy]

theorem canonical_lowerMulticast (n uid o) (h : Canonical s) : Canonical (lowerMulticast s n uid o) := by
  grind -linarith [lowerMulticast, canonical_lowerPend, mem_upOperation, canonical_foldl]

theorem canonical_execBarrierPendLower {g copy bytes} (h : Canonical s) (e : execBarrierPendLower g copy bytes s = .next u) : Canonical u := by
  grind -linarith [execBarrierPendLower, canonical_lowerMulticast, canonical_dropEnded, canonical_moveCopy, canonical_attributeBytes]

theorem canonical_execCopyErrorStop {g copy _cause} (h : Canonical s) (e : execCopyErrorStop g copy _cause s = .next u) : Canonical u := by
  grind -linarith [execCopyErrorStop, mem_stopCopy]

theorem canonical_probePiece (g r w) {x : Probed} (va) (h : Canonical x.s) : Canonical (probePiece g r w x va).s := by
  grind -linarith [probePiece, canonical_engTranslate]

theorem canonical_probeOne (n uid g) {x : Probed} (r) (h : Canonical x.s) : Canonical (probeOne n uid g x r).s := by
  have pieces (w : Who) (l : List (Nat × Nat)) {y : Probed} (hy : Canonical y.s) :
      Canonical (l.foldl (fun x p => probePiece g r w x p.1) y).s :=
    List.foldlRecOn (motive := fun y : Probed => Canonical y.s) l _ hy fun y hy p _ => canonical_probePiece g r w p.1 hy
  unfold probeOne
  dsimp only
  split_ifs
  · split
    · grind -linarith [canonical_moverWho]
    · apply pieces
      grind -linarith [canonical_moverWho]
  · exact h

theorem canonical_probeCopy (n g c) (h : Canonical s) : Canonical (probeCopy s n g c).s :=
  List.foldlRecOn (motive := fun y : Probed => Canonical y.s) _ _ h fun _ hy r _ => canonical_probeOne n c.uid g r hy

theorem canonical_tileShards (w d ks) (h : Canonical s) : Canonical (tileShards s w d ks).1 := by
  grind -linarith [tileShards, canonical_fetchShard, canonical_foldl_fst]

theorem canonical_failCopy (n uid x) (h : Canonical s) : Canonical (failCopy s n uid x) := by
  grind -linarith [failCopy, canonical_trapAt, mem_upGroup]

theorem canonical_parkCopy (n uid die isWrite va cause level pte) (h : Canonical s) :
    Canonical (parkCopy s n uid die isWrite va cause level pte) := by
  grind -linarith [parkCopy, mem_upGroup, canonical_parkAt]

theorem canonical_judgeProbe (n) {x : Probed} (h : Canonical x.s) : Canonical (judgeProbe n x) := by
  grind -linarith [judgeProbe, canonical_failCopy, canonical_parkCopy, mem_upGroup]

theorem canonical_execCopyProbeEnd {g} (h : Canonical s) (e : execCopyProbeEnd g s = .next u) : Canonical u := by
  grind -linarith [execCopyProbeEnd, canonical_judgeProbe, canonical_probeCopy]

theorem canonical_startCopy (i rel res cpoff c) (h : Canonical s) : Canonical (startCopy s i rel res cpoff c) := by
  grind -linarith [startCopy, canonical_drainWcb, mem_upGroup, mem_bump]

theorem canonical_execCpy {dsta srca shape str bar baron rel res tw} (h : Canonical s)
    (e : execCpy dsta srca shape str bar baron rel res tw s = .next u) : Canonical u := by
  grind -linarith [execCpy, canonical_trapAt, canonical_startCopy, onGroup]

theorem canonical_elseTrap (fs) {t : State} (h : Canonical s) (ht : Canonical t) : Canonical (elseTrap s fs t) := by
  grind -linarith [elseTrap, canonical_trapAt]

theorem canonical_tileFails (g pre vals f) (h : Canonical s) : Canonical (tileFails s g pre vals f) := by
  unfold tileFails
  split <;> grind -linarith [canonical_elseTrap, canonical_trapAt, canonical_wholeFault]

theorem canonical_copyTile {i kind desc coord buf ext bar baron rel res tr clip} (h : Canonical s)
    (e : copyTile s i kind desc coord buf ext bar baron rel res tr clip = .next u) : Canonical u := by
  unfold copyTile at e
  refine canonical_onGroup (fun g => ?_) e
  (repeat' split) <;> grind -linarith [canonical_fetchDesc, canonical_tileFails, canonical_tileShards, canonical_elseTrap, canonical_trapAt,
    canonical_startCopy]

theorem canonical_execCmit (h : Canonical s) (e : execCmit s = .next u) : Canonical u := by
  grind -linarith [execCmit, mem_stall, mem_putGroup, mem_bump, onGroup]

theorem canonical_retireCopies (n o) (h : Canonical s) : Canonical (retireCopies s n o) := by
  grind -linarith [retireCopies, mem_putGroup, canonical_retireOp, canonical_contextError, canonical_foldl]

/-! ### The host, peer panels and the memory-side cache -/

theorem canonical_execNameCacheMiss {tray name} (h : Canonical s) (e : execNameCacheMiss tray name s = .next u) : Canonical u := by
  grind -linarith [execNameCacheMiss, canonical_nameRead, mem_cacheName]

theorem canonical_execMscWriteback {line} (h : Canonical s) (e : execMscWriteback line s = .next u) : Canonical u := by
  grind -linarith [execMscWriteback, canonical_writeBack]

theorem canonical_drainBlock (block) (h : Canonical s) : Canonical (drainBlock s block) := by
  grind -linarith [drainBlock, canonical_regionStatus, canonical_engWrite]

theorem canonical_finishDrain (pkt d) (h : Canonical s) : Canonical (finishDrain s pkt d) := by
  grind -linarith [finishDrain, canonical_engAdd]

theorem canonical_finishDrains (h : Canonical s) : Canonical (finishDrains s) := by
  grind -linarith [finishDrains, canonical_finishDrain, canonical_foldl]

theorem canonical_execRinseDrain {block} (h : Canonical s) (e : execRinseDrain block s = .next u) : Canonical u := by
  grind -linarith [execRinseDrain, canonical_finishDrains, canonical_drainBlock]

theorem canonical_execHostPortTraining {port up} (h : Canonical s) (e : execHostPortTraining port up s = .next u) : Canonical u := by
  grind -linarith [execHostPortTraining]

@[simp] theorem mem_holdLine (line alone) : (holdLine s line alone).mem = s.mem := rfl

@[simp] theorem mem_hostWrite (kind loc bs) : (hostWrite s kind loc bs).mem = s.mem := rfl

@[simp] theorem mem_unheld (line) : (unheld s line).mem = s.mem := rfl

theorem canonical_hostLoad (loc n) (h : Canonical s) : Canonical (hostLoad s loc n).1 := by
  grind -linarith [hostLoad, canonical_loadAt, mem_unheld]

theorem canonical_execHostAccess {kind off data} (h : Canonical s) (e : execHostAccess kind off data s = .next u) : Canonical u := by
  grind -linarith [execHostAccess, canonical_hostLoad, mem_holdLine, mem_hostWrite, canonical_foldl]

theorem canonical_hostPerform (hh) (h : Canonical s) : Canonical (hostPerform s hh) := by
  grind -linarith [hostPerform, canonical_hostLoad, canonical_performWrite, mem_conflict, canonical_touchGlobal, mem_unheld]

theorem canonical_execHostWritePerform {req} (h : Canonical s) (e : execHostWritePerform req s = .next u) : Canonical u := by
  grind -linarith [execHostWritePerform, canonical_hostPerform]

theorem canonical_execBirspArrive {line dirty} (h : Canonical s) (e : execBirspArrive line dirty s = .next u) : Canonical u := by
  grind -linarith [execBirspArrive, mem_unheld, canonical_performWrite, mem_conflict, canonical_touchGlobal]

@[simp] theorem mem_sendWaiting (peer) : (sendWaiting s peer).mem = s.mem := by
  grind -linarith [sendWaiting, mem_trySend, mem_foldl]

@[simp] theorem mem_answered (n uid ls) : (answered s n uid ls).mem = s.mem := rfl

@[simp] theorem mem_nextCas (q l) : (nextCas s q l).mem = s.mem := by
  grind -linarith [nextCas, mem_laneSend]

@[simp] theorem mem_landAnswer (q g o data) : (landAnswer s q g o data).mem = s.mem := by
  grind -linarith [landAnswer, mem_upOperation, mem_landRead, mem_answered, mem_landAtomic, mem_nextCas, mem_foldl]

@[simp] theorem mem_failAnswer (q g o) : (failAnswer s q g o).mem = s.mem := by
  grind -linarith [failAnswer, mem_landRead, mem_answered, mem_upOperation, mem_nextCas, mem_foldl]

theorem canonical_endCommit (n refused) (h : Canonical s) : Canonical (endCommit s n refused) := by
  grind -linarith [endCommit, mem_upGroup, canonical_contextError, mem_putGroup, canonical_settleTeam]

theorem canonical_answerTo (q data refused) (h : Canonical s) : Canonical (answerTo s q data refused) := by
  grind -linarith [answerTo, canonical_endCommit, mem_failAnswer, mem_landAnswer, mem_stopCopy, mem_upGroup]

theorem canonical_endRequest (req q rtt data refused) (h : Canonical s) : Canonical (endRequest s req q rtt data refused) := by
  unfold endRequest
  split <;> grind -linarith [mem_sendWaiting, canonical_answerTo]

theorem canonical_refuseOwn {req} (h : Canonical s) (e : refuseOwn req s = .next u) : Canonical u := by
  grind -linarith [refuseOwn, canonical_endRequest]

theorem canonical_execFabricAck {req rtt data refused} (h : Canonical s) (e : execFabricAck req rtt data refused s = .next u) :
    Canonical u := by
  grind -linarith [execFabricAck, canonical_endRequest]

theorem canonical_execFabricTimeout {req} (h : Canonical s) (e : execFabricTimeout req s = .next u) : Canonical u := by
  grind -linarith [execFabricTimeout, canonical_endRequest]

theorem canonical_execRotorMatching (h : Canonical s) (e : execRotorMatching s = .next u) : Canonical u := by
  grind -linarith [execRotorMatching]

theorem canonical_fabPlaces (w va n isWrite) (h : Canonical s) : Canonical (fabPlaces s w va n isWrite).1 := by
  grind -linarith [fabPlaces, canonical_engTranslate, canonical_foldl_fst]

theorem canonical_readPlaces (ps) (h : Canonical s) : Canonical (readPlaces s ps).1 := by
  grind -linarith [readPlaces, canonical_loadAt, canonical_foldl_fst]

theorem canonical_writePlaces (ps bs) (h : Canonical s) : Canonical (writePlaces s ps bs).1 := by
  grind -linarith [writePlaces, canonical_storeAt, canonical_foldl_fst]

theorem canonical_fabPerform (x) (h : Canonical s) : Canonical (fabPerform s x) := by
  grind -linarith [fabPerform, canonical_fabPlaces, canonical_readPlaces, canonical_writePlaces]

theorem canonical_fabTry (x) (h : Canonical s) : Canonical (fabTry s x) := by
  grind -linarith [fabTry, canonical_fabPerform]

theorem canonical_fabRelease (k fuel) (h : Canonical s) : Canonical (fabRelease k fuel s) := by
  induction fuel generalizing s with
  | zero => exact h
  | succ fuel ih => grind -linarith [fabRelease, canonical_fabTry]

theorem canonical_execFabricRequestArrive {panel asid fa seq kind data} (h : Canonical s)
    (e : execFabricRequestArrive panel asid fa seq kind data s = .next u) : Canonical u := by
  grind -linarith [execFabricRequestArrive, canonical_atOnce, canonical_fabTry, canonical_fabRelease]

@[simp] theorem mem_sendAcks : (sendAcks s).mem = s.mem := rfl

/-! ### Schedules, queues and watched words -/

theorem canonical_windowTrap (n g a) (h : Canonical s) : Canonical (windowTrap s n g a) := by
  grind -linarith [windowTrap, canonical_trapAt]

theorem canonical_onceFault (n g isWrite a f vals) (h : Canonical s) : Canonical (onceFault s n g isWrite a f vals) := by
  unfold onceFault
  split <;> grind -linarith [canonical_trapAt, canonical_wholeFault]

@[simp] theorem mem_bumpCursor (grid set cur) : (bumpCursor s grid set cur).mem = s.mem := rfl

theorem canonical_execSchnext {d} (h : Canonical s) (e : execSchnext d s = .next u) : Canonical u := by
  unfold execSchnext at e
  refine canonical_onGroup (fun g => ?_) e
  (repeat' split) <;> grind -linarith [mem_upGroup, mem_writeU, canonical_engReadNum, mem_bumpCursor, canonical_onceFault]

theorem canonical_finishQput (n d slot w hdr0) (h : Canonical s) : Canonical (finishQput s n d slot w hdr0) := by
  grind -linarith [finishQput, canonical_engWriteNum, mem_upGroup, canonical_onceFault, mem_putGroup]

theorem canonical_writePacket (n g d w slot pkt) (h : Canonical s) : Canonical (writePacket s n g d w slot pkt) := by
  grind -linarith [writePacket, canonical_stashRead, canonical_trapAt, canonical_engWrite, canonical_onceFault, canonical_finishQput, mem_upGroup]

@[simp] theorem mem_dropPlace (n p) : (dropPlace s n p).mem = s.mem := by
  grind -linarith [dropPlace, mem_dropOwnLine]

theorem canonical_claimQueue (n g d hdr pkt blk loc) (h : Canonical s) : Canonical (claimQueue s n g d hdr pkt blk loc) := by
  grind -linarith [claimQueue, canonical_loadAt, canonical_trapAt, mem_putGroup, canonical_engTranslate, canonical_onceFault, canonical_storeAt,
    mem_dropPlace, mem_dropOwnLine, canonical_writePacket, mem_upGroup]

theorem canonical_homePlace (w a isWrite) (h : Canonical s) : Canonical (homePlace s w a isWrite).1 := by
  grind -linarith [homePlace, canonical_engTranslate]

theorem canonical_tryQput (n d hdr pkt blk) (h : Canonical s) : Canonical (tryQput s n d hdr pkt blk) := by
  grind -linarith [tryQput, canonical_homePlace, canonical_windowTrap, canonical_trapAt, canonical_onceFault, canonical_claimQueue]

theorem canonical_execQput {d q pkt blk} (h : Canonical s) (e : execQput d q pkt blk s = .next u) : Canonical u := by
  grind -linarith [execQput, mem_stall, canonical_finishQput, canonical_tryQput, canonical_drainWcb, onGroup]

theorem canonical_execQputBlockRetry {g} (h : Canonical s) (e : execQputBlockRetry g s = .next u) : Canonical u := by
  grind -linarith [execQputBlockRetry, canonical_tryQput]

@[simp] theorem mem_endWaita (n d v c) : (endWaita s n d v c).mem = s.mem := rfl

theorem canonical_tryWaita (n d a cmp deadline) (h : Canonical s) : Canonical (tryWaita s n d a cmp deadline) := by
  grind -linarith [tryWaita, canonical_homePlace, canonical_windowTrap, canonical_trapAt, canonical_onceFault, canonical_loadAt, canonical_sendWcb,
    mem_upGroup, mem_endWaita]

theorem canonical_execWaita {d a r} (h : Canonical s) (e : execWaita d a r s = .next u) : Canonical u := by
  grind -linarith [execWaita, mem_stall, canonical_tryWaita, onGroup]

theorem canonical_execWaitaWake {g} (h : Canonical s) (e : execWaitaWake g s = .next u) : Canonical u := by
  grind -linarith [execWaitaWake, canonical_tryWaita]

theorem canonical_execWaitaDeadline {g} (h : Canonical s) (e : execWaitaDeadline g s = .next u) : Canonical u := by
  grind -linarith [execWaitaDeadline, mem_endWaita]

/-! ### Packets -/

@[simp] theorem mem_looks (loc) : (looks s loc).mem = s.mem := by
  grind -linarith [looks, mem_needLine]

@[simp] theorem mem_viewRing (site q e loc) : (viewRing s site q e loc).1.mem = s.mem := by
  unfold viewRing
  dsimp only
  split
  · exact mem_looks _
  · rfl

@[simp] theorem mem_viewQueue (site q) : (viewQueue s site q).1.mem = s.mem := by
  grind -linarith [viewQueue, mem_looks, mem_viewRing]

@[simp] theorem mem_noteAble (site) : (noteAble s site).mem = s.mem := rfl

theorem canonical_writeStatus (w hdr x) (h : Canonical s) : Canonical (writeStatus s w hdr x) := by
  grind -linarith [writeStatus, canonical_engTranslate, canonical_storeAt, mem_peerAsk, canonical_foldl_fst]

theorem canonical_queueError (site q ctx hdr num slot code) (h : Canonical s) : Canonical (queueError s site q ctx hdr num slot code) := by
  grind -linarith [queueError, canonical_contextError, canonical_writeStatus]

theorem canonical_failWith {code} (e : failWith s code = .ok u) : Canonical u := by
  grind -linarith [failWith]

@[simp] theorem mem_finishPacket (pkt c) : (finishPacket s pkt c).mem = s.mem := rfl

theorem canonical_takePacket (p) (h : Canonical s) : Canonical (takePacket s p) := by
  grind -linarith [takePacket, canonical_storeNum]

theorem canonical_enterPacket (site q p) (h : Canonical s) : Canonical (enterPacket s site q p) := by
  grind -linarith [enterPacket, canonical_storeNum, mem_upDie]

theorem canonical_queuePages (site ctx hdr slotVa) (h : Canonical s) : Canonical (queuePages s site ctx hdr slotVa) := by
  grind -linarith [queuePages, canonical_engTranslate]

theorem canonical_beginPacket (q kind) {run : State → Job → Except PktFail State} (h : Canonical s)
    (hr : ∀ s j u, Canonical s → run s j = .ok u → Canonical u) : Canonical (beginPacket s q kind run) := by
  unfold beginPacket
  (repeat' split) <;> grind -linarith [mem_viewQueue, canonical_queueError, canonical_takePacket, canonical_queuePages, canonical_enterPacket]

theorem canonical_packetEvent {q kind} {run : State → Job → Except PktFail State} (h : Canonical s)
    (hr : ∀ s j u, Canonical s → run s j = .ok u → Canonical u) (e : packetEvent s q kind run = .next u) : Canonical u := by
  cases e
  exact canonical_ite (canonical_beginPacket q kind h hr) h

theorem canonical_runCopy {j} (h : Canonical s) (e : runCopy s j = .ok u) : Canonical u := by
  grind -linarith [runCopy, canonical_probeRange, failWith, canonical_engRead, canonical_engWrite, mem_finishPacket]

theorem canonical_runSignal {j} (h : Canonical s) (e : runSignal s j = .ok u) : Canonical u := by
  grind -linarith [runSignal, canonical_engAdd, canonical_engWriteNum, failWith, mem_finishPacket]

theorem canonical_runBind {j} (h : Canonical s) (e : runBind s j = .ok u) : Canonical u := by
  grind -linarith [runBind, failWith, canonical_storeNum, mem_finishPacket]

theorem canonical_runTdset {j} (h : Canonical s) (e : runTdset s j = .ok u) : Canonical u := by
  grind -linarith [runTdset, canonical_engRead, failWith, canonical_engWrite, mem_finishPacket]

theorem canonical_readWaitmem {j} (h : Canonical s) (e : readWaitmem s j = .ok u) : Canonical u := by
  grind -linarith [readWaitmem, canonical_engTranslate, failWith, canonical_loadAt, mem_finishPacket]

theorem canonical_failPacket (pkt p code) (h : Canonical s) : Canonical (failPacket s pkt p code) := by
  grind -linarith [failPacket, canonical_storeNum, canonical_queueError]

theorem canonical_execWaitmemMonitorWake {pkt} (h : Canonical s) (e : execWaitmemMonitorWake pkt s = .next u) : Canonical u := by
  grind -linarith [execWaitmemMonitorWake, canonical_readWaitmem, canonical_failPacket]

@[simp] theorem mem_shootDown (va n asid) : (shootDown s va n asid).mem = s.mem := rfl

theorem canonical_runTlbinv {j} (h : Canonical s) (e : runTlbinv s j = .ok u) : Canonical u := by
  grind -linarith [runTlbinv, mem_finishPacket, mem_shootDown]

theorem canonical_completePacket (pkt p) (h : Canonical s) : Canonical (completePacket s pkt p) := by
  grind -linarith [completePacket, canonical_engAdd, canonical_failPacket]

theorem canonical_execPacketComplete {pkt} (h : Canonical s) (e : execPacketComplete pkt s = .next u) : Canonical u := by
  grind -linarith [execPacketComplete, canonical_completePacket]

theorem canonical_regionBlocks (w r) (h : Canonical s) : Canonical (regionBlocks s w r).1 := by
  grind -linarith [regionBlocks, canonical_engTranslate, canonical_foldl_fst]

theorem canonical_markBlock (j r i block) (h : Canonical s) : Canonical (markBlock s j r i block) := by
  grind -linarith [markBlock, canonical_writeBack, canonical_drainBlock, canonical_setDirty, canonical_foldl]

theorem canonical_readRegions (w list k) (h : Canonical s) : Canonical (readRegions s w list k).1 := by
  induction k with
  | zero => exact h
  | succ k ih => grind -linarith [readRegions, canonical_engRead]

theorem canonical_allBlocks (w rs) (h : Canonical s) : Canonical (allBlocks s w rs).1 := by
  induction rs generalizing s with
  | nil => exact h
  | cons r rs ih => grind -linarith [allBlocks, canonical_regionBlocks]

theorem canonical_runCkpt {j} (h : Canonical s) (e : runCkpt s j = .ok u) : Canonical u := by
  grind -linarith [runCkpt, canonical_readRegions, failWith, canonical_allBlocks, canonical_markBlock, mem_finishPacket, canonical_foldl]

/-! ### Raster sinks -/

@[simp] theorem mem_upSink (k f) : (State.upSink s k f).mem = s.mem := rfl

theorem canonical_drawWrite (w) {x : State × Nat} (va bs) (h : Canonical x.1) : Canonical (drawWrite w x va bs).1 := by
  grind -linarith [drawWrite, canonical_engWrite]

theorem canonical_clearRegion (d w) {x : State × Nat} (r) (h : Canonical x.1) : Canonical (clearRegion d w x r).1 := by
  grind -linarith [clearRegion, canonical_drawWrite, canonical_foldl_fst]

theorem canonical_beginFrame {k f x} (h : Canonical s) (e : beginFrame s k f x = .ok u) : Canonical u := by
  grind -linarith [beginFrame, canonical_loadFrame, canonical_clearRegion, mem_upSink, canonical_foldl_fst]

@[simp] theorem mem_refuseEmission (em ev) : (refuseEmission s em ev).mem = s.mem := rfl

@[simp] theorem mem_acceptPrim (em ev k x ds) : (acceptPrim s em ev k x ds).mem = s.mem := by
  grind -linarith [acceptPrim, mem_refuseEmission, mem_endEmission]

@[simp] theorem mem_holdItem (k mark n) : (holdItem s k mark n).mem = s.mem := rfl

theorem canonical_packetArrives (em ev k x) (h : Canonical s) : Canonical (packetArrives s em ev k x) := by
  grind -linarith [packetArrives, mem_refuseEmission, mem_endEmission, mem_acceptPrim, mem_holdItem, canonical_beginFrame]

@[simp] theorem mem_handleMark (k seqid) : (handleMark s k seqid).mem = s.mem := rfl

@[simp] theorem mem_refuseMark (m) : (refuseMark s m).mem = s.mem := rfl

theorem canonical_markArrives (wm m k x) (h : Canonical s) : Canonical (markArrives s wm m k x) := by
  unfold markArrives
  refine canonical_ite ?_ (canonical_ite ?_ (canonical_ite ?_ ?_))
  · rwa [Canonical, mem_handleMark]
  · rwa [Canonical, mem_holdItem]
  · split
    · rwa [Canonical, mem_refuseMark]
    · exact h
    · next begun =>
      rw [Canonical, mem_handleMark]
      exact canonical_beginFrame (s := { s with watermarks := tblErase s.watermarks wm }) h begun
  · rwa [Canonical, mem_refuseMark]

theorem canonical_execRasterPacketArrive {em} (h : Canonical s) (e : execRasterPacketArrive em s = .next u) : Canonical u := by
  grind -linarith [execRasterPacketArrive, canonical_resolveName, mem_endEmission, mem_refuseEmission, canonical_packetArrives]

theorem canonical_execRasterWatermarkArrive {wm} (h : Canonical s) (e : execRasterWatermarkArrive wm s = .next u) : Canonical u := by
  grind -linarith [execRasterWatermarkArrive, mem_refuseMark, canonical_markArrives]

theorem canonical_applySample (d w z id) {x : State × Nat} (ev) (h : Canonical x.1) : Canonical (applySample d w z id x ev).1 := by
  grind -linarith [applySample, canonical_engReadNum, canonical_drawWrite]

theorem canonical_drawPixel (d w t id) {x : State × Nat} (px py) (h : Canonical x.1) : Canonical (drawPixel d w t id x px py).1 := by
  grind -linarith [drawPixel, canonical_applySample, canonical_foldl_fst]

theorem canonical_drawRegion (d w t id) {x : State × Nat} (r) (h : Canonical x.1) : Canonical (drawRegion d w t id x r).1 := by
  grind -linarith [drawRegion, canonical_drawPixel, canonical_foldl_fst]

theorem canonical_appendBin (d w ws) {x : State × Nat} (r) (h : Canonical x.1) : Canonical (appendBin d w ws x r).1 := by
  grind -linarith [appendBin, canonical_engReadNum, canonical_drawWrite]

theorem canonical_drawPrim (x p) (h : Canonical s) : Canonical (drawPrim s x p).1 := by
  grind -linarith [drawPrim, canonical_appendBin, canonical_drawRegion, canonical_foldl_fst]

theorem canonical_execRasterisePacket {sink} (h : Canonical s) (e : execRasterisePacket sink s = .next u) : Canonical u := by
  grind -linarith [execRasterisePacket, canonical_drawPrim, mem_upSink]

theorem canonical_retake (k item) (h : Canonical s) : Canonical (retake k s item) := by
  grind -linarith [retake, canonical_markArrives, canonical_packetArrives]

theorem canonical_retakeAll (k) (h : Canonical s) : Canonical (retakeAll s k) := by
  grind -linarith [retakeAll, canonical_retake, mem_upSink, canonical_foldl]

theorem canonical_execFrameComplete {sink} (h : Canonical s) (e : execFrameComplete sink s = .next u) : Canonical u := by
  grind -linarith [execFrameComplete, canonical_engAdd, canonical_retakeAll, mem_upSink]

theorem canonical_restartSink {k f x} (h : Canonical s) {u c} (e : restartSink s k f x = some (u, c)) :
    Canonical u := by
  unfold restartSink at e
  dsimp only at e
  split at e
  · next begun =>
    cases e
    have drawn : Canonical _ := canonical_beginFrame (by exact h) begun
    exact canonical_retakeAll _ drawn
  · cases e

/-! ### Journal packets -/

theorem canonical_jctlEvent {q op} {run : State → Job → Except PktFail State} (h : Canonical s)
    (hr : ∀ s j u, Canonical s → run s j = .ok u → Canonical u) (e : jctlEvent s q op run = .next u) : Canonical u := by
  unfold jctlEvent at e
  split_ifs at e
  · exact canonical_packetEvent h hr e
  · cases e
    exact h

theorem canonical_runExport {j} (h : Canonical s) (e : runExport s j = .ok u) : Canonical u := by
  grind -linarith [runExport, failWith, canonical_engReadNum, canonical_engWrite, mem_finishPacket]

theorem canonical_runRestart {j} (h : Canonical s) (e : runRestart s j = .ok u) : Canonical u := by
  grind -linarith [runRestart, canonical_restartSink, failWith, mem_finishPacket]

theorem canonical_runForget {j} (h : Canonical s) (e : runForget s j = .ok u) : Canonical u := by
  grind -linarith [runForget, failWith, mem_finishPacket]

/-! ### Collectives -/

@[simp] theorem mem_putChunk (grid b c f) : (putChunk s grid b c f).mem = s.mem := by
  grind -linarith [putChunk]

theorem canonical_collStatus (w cdesc c) (h : Canonical s) : Canonical (collStatus s w cdesc c) := by
  grind -linarith [collStatus, canonical_engReadNum, canonical_engWriteNum]

theorem canonical_failChunk (grid b c ev) (h : Canonical s) : Canonical (failChunk s grid b c ev) := by
  grind -linarith [failChunk, canonical_collStatus, mem_putChunk, canonical_contextError, mem_noteDone, canonical_foldl]

theorem canonical_writeResults (g c rs) (h : Canonical s) : Canonical (writeResults s g c rs).1 := by
  grind -linarith [writeResults, canonical_engWrite, canonical_foldl_fst]

theorem canonical_resolveChunk (grid b k site retried agrees) (h : Canonical s) : Canonical (resolveChunk s grid b k site retried agrees) := by
  grind -linarith [resolveChunk, canonical_failChunk, canonical_adderEvent, canonical_writeResults, mem_putChunk]

@[simp] theorem mem_takeContribution (x bs) : (takeContribution s x bs).mem = s.mem := by
  grind -linarith [takeContribution, mem_putChunk, mem_noteDone]

theorem canonical_execCollectiveContribution {contrib site retried agrees} (h : Canonical s)
    (e : execCollectiveContribution contrib site retried agrees s = .next u) : Canonical u := by
  unfold execCollectiveContribution at e
  injection e with e
  subst e
  (repeat' split) <;> grind -linarith [canonical_failChunk, canonical_resolveChunk, mem_takeContribution, canonical_engRead]

theorem canonical_execChunkResultAck {chunk} (h : Canonical s) (e : execChunkResultAck chunk s = .next u) : Canonical u := by
  grind -linarith [execChunkResultAck, canonical_engAdd]

theorem canonical_failBinding (grid b) (h : Canonical s) : Canonical (failBinding grid b s) := by
  grind -linarith [failBinding, canonical_failChunk, canonical_foldl]

theorem canonical_loseWhole (site) (h : Canonical s) : Canonical (loseWhole s site) := by
  grind -linarith [loseWhole, canonical_loseSite, canonical_failBinding, canonical_foldl]

theorem canonical_execSiteLostTimeout {site} (h : Canonical s) (e : execSiteLostTimeout site s = .next u) : Canonical u := by
  grind -linarith [execSiteLostTimeout, canonical_loseWhole]

theorem canonical_execSiteLostDeclared {site} (h : Canonical s) (e : execSiteLostDeclared site s = .next u) : Canonical u := by
  grind -linarith [execSiteLostDeclared, canonical_loseWhole]

/-! ### Feed programs -/

theorem canonical_constRead (g w va) (h : Canonical s) : Canonical (constRead s g w va).1 := by
  grind -linarith [constRead, canonical_engTranslate, canonical_homeLoad, mem_upCore]

theorem canonical_scanProgram (g w prog qmask fuel i depth) (h : Canonical s) :
    Canonical (scanProgram g w prog qmask fuel i depth s).1 := by
  induction fuel generalizing i depth s with
  | zero => exact h
  | succ fuel ih => grind -linarith [scanProgram, canonical_constRead]

@[simp] theorem mem_stopFeed (n) : (stopFeed s n).mem = s.mem := rfl

theorem canonical_execFstop (h : Canonical s) (e : execFstop s = .next u) : Canonical u := by
  grind -linarith [execFstop, mem_upGroup, mem_stopFeed, onGroup]

theorem canonical_execFeed {prog args na qmask} (h : Canonical s) (e : execFeed prog args na qmask s = .next u) : Canonical u := by
  grind -linarith [execFeed, mem_stopFeed, canonical_trapAt, canonical_scanProgram, canonical_wholeFault, mem_upGroup, onGroup]

@[simp] theorem mem_upFeed (n f) : (State.upFeed s n f).mem = s.mem := rfl

theorem canonical_feedReads (w team size signed ls) (h : Canonical s) : Canonical (feedReads w team size signed ls s).1 := by
  induction ls generalizing s with
  | nil => exact h
  | cons l ls ih => grind -linarith [feedReads, canonical_genRead]

@[simp] theorem mem_failFeed (n) : (failFeed s n).mem = s.mem := rfl

theorem canonical_feedLoad (n g q size signed addrs copy) (h : Canonical s) : Canonical (feedLoad s n g q size signed addrs copy) := by
  grind -linarith [feedLoad, mem_failFeed, canonical_feedReads, mem_upFeed, canonical_parkAt]

theorem canonical_feedFld (n g f q t an am gsh off) (h : Canonical s) : Canonical (feedFld s n g f q t an am gsh off) := by
  grind -linarith [feedFld, canonical_feedLoad]

theorem canonical_feedFlds (n g f q t an off) (h : Canonical s) : Canonical (feedFlds s n g f q t an off) := by
  grind -linarith [feedFlds, canonical_feedLoad]

theorem canonical_onFeed {s u : State} {k : Nat → Group → Feed → State} (h : Canonical s) (hk : ∀ n g f, Canonical (k n g f))
    (e : onFeed s k = .next u) : Canonical u := by
  unfold onFeed at e
  (repeat' split at e) <;> cases e
  · exact h
  · exact hk _ _ _

theorem canonical_serveWord (n g f) (h : Canonical s) : Canonical (serveWord s n g f) := by
  unfold serveWord
  cases decodeFeed (f.words.getD f.place.pos 0).toNat with
  | error => exact h
  | ok i =>
    cases i with
    | fld => exact canonical_feedFld _ _ _ _ _ _ _ _ _ h
    | flds => exact canonical_feedFlds _ _ _ _ _ _ _ h
    | _ => exact h

@[simp] theorem mem_noteFed (n) : (noteFed s n).mem = s.mem := by
  grind -linarith [noteFed, mem_upCore]

@[simp] theorem mem_moveFeed (n) : (moveFeed s n).1.mem = s.mem := by
  grind -linarith [moveFeed, mem_noteFed]

theorem canonical_execFennelServe {g} (h : Canonical s) (e : execFennelServe g s = .next u) : Canonical u := by
  grind -linarith [execFennelServe, canonical_serveWord, mem_noteFed]

theorem canonical_execFeedLoadReturn {g queue} (h : Canonical s) (e : execFeedLoadReturn g queue s = .next u) : Canonical u := by
  grind -linarith [execFeedLoadReturn, mem_upFeed]

/-! ### Launches -/

theorem canonical_readColls (w cs) (h : Canonical s) : Canonical (readColls s w cs).1 := by
  induction cs generalizing s with
  | nil => exact h
  | cons c cs ih =>
    obtain ⟨i, c⟩ := c
    unfold readColls
    (repeat' split) <;> grind -linarith [canonical_engTranslate, canonical_engRead]

@[simp] theorem mem_putSink (x) : (putSink s x).mem = s.mem := by
  grind -linarith [putSink]

@[simp] theorem mem_configSink (ctx k bs) : (configSink ctx k bs s).mem = s.mem := by
  grind -linarith [configSink, mem_putSink, mem_foldl]

theorem canonical_loadSinks (w table) (h : Canonical s) : Canonical (loadSinks s w table).1 := by
  grind -linarith [loadSinks, canonical_engRead, mem_configSink, canonical_foldl]

@[simp] theorem mem_widthOn (l site) : (widthOn s l site).1.mem = s.mem := by
  grind -linarith [widthOn, mem_upDie]

theorem canonical_placeTeam (grid g t site name core width slots) (h : Canonical s) :
    Canonical (placeTeam s grid g t site name core width slots) := by
  grind -linarith [placeTeam, mem_takeRows]

theorem canonical_placeAll {grid g site name ts cores} (h : Canonical s) (e : placeAll grid g site name ts cores s = some u) :
    Canonical u := by
  induction ts generalizing cores s with
  | nil => grind -linarith [placeAll]
  | cons t ts ih => grind -linarith [placeAll, canonical_placeTeam, mem_widthOn]

theorem canonical_placeNext {grid g core} (h : Canonical s) (e : placeNext s grid g core = some u) : Canonical u := by
  unfold placeNext at e
  dsimp only at e
  split at e
  · cases e
  · split at e
    · cases e
    · obtain ⟨s1, e1, rfl⟩ := Option.map_eq_some_iff.mp e
      have placed : Canonical s1 := canonical_placeAll h e1
      exact placed

theorem canonical_execTeamPlace {grid core} (h : Canonical s) (e : execTeamPlace grid core s = .next u) : Canonical u := by
  grind -linarith [execTeamPlace, canonical_placeNext, mem_upDie]

theorem canonical_runLaunch {j} (h : Canonical s) (e : runLaunch s j = .ok u) : Canonical u := by
  unfold runLaunch at e
  dsimp only at e
  (repeat' split at e) <;> grind -linarith [canonical_engRead, failWith, canonical_readColls, canonical_loadSinks]

@[simp] theorem mem_endGrid (grid g) : (endGrid s grid g).mem = s.mem := rfl

theorem canonical_execGridComplete {grid} (h : Canonical s) (e : execGridComplete grid s = .next u) : Canonical u := by
  grind -linarith [execGridComplete, canonical_settleTeam, mem_endGrid, canonical_foldl]

/-! ### What has begun goes on -/

theorem canonical_execSfuResult {g} (h : Canonical s) (e : execSfuResult g s = .next u) : Canonical u := by
  grind -linarith [execSfuResult, mem_upGroup]

theorem canonical_lookAgain (n g) (h : Canonical s) : Canonical (lookAgain s n g) := by
  grind -linarith [lookAgain, canonical_beginAccess, mem_putGroup, mem_tryFence, canonical_tryTxend, mem_openBarrier, mem_arriveBar,
    canonical_tryBarv,
    canonical_tryBwait, mem_leaveWait, canonical_tryWaitc, canonical_finishQput, canonical_retryMeet]

theorem canonical_execGroupWaitMet {g} (h : Canonical s) (e : execGroupWaitMet g s = .next u) : Canonical u := by
  grind -linarith [execGroupWaitMet, canonical_lookAgain]

theorem canonical_execTranslationComplete {g} (h : Canonical s) (e : execTranslationComplete g s = .next u) : Canonical u := by
  grind -linarith [execTranslationComplete, canonical_runOp]

theorem canonical_execFaultQueueRetry {f} (h : Canonical s) (e : execFaultQueueRetry f s = .next u) : Canonical u := by
  grind -linarith [execFaultQueueRetry, canonical_claimFault]

@[simp] theorem mem_upCheck (g f) : (upCheck s g f).mem = s.mem := rfl

@[simp] theorem mem_resolveFault (f r g) : (resolveFault s f r g).mem = s.mem := by
  grind -linarith [resolveFault, mem_putGroup, mem_upFeed, mem_upGroup, mem_upCheck]

theorem canonical_refuseFault (f r g) (h : Canonical s) : Canonical (refuseFault s f r g) := by
  grind -linarith [refuseFault, canonical_trapAt, mem_abandonOp, canonical_handlerUnusable, mem_putGroup, mem_upFeed, mem_failFeed,
    canonical_failCopy,
    canonical_trapMembers, mem_upCheck]

theorem canonical_execFaultResponse {f} (h : Canonical s) (e : execFaultResponse f s = .next u) : Canonical u := by
  grind -linarith [execFaultResponse, mem_resolveFault, canonical_refuseFault]

theorem canonical_afterRetire (n) (h : Canonical s) : Canonical (afterRetire s n) := by
  grind -linarith [afterRetire, canonical_settleTeam]

theorem canonical_retireOldest (n g o) (h : Canonical s) : Canonical (retireOldest s n g o) := by
  grind -linarith [retireOldest, canonical_afterRetire, canonical_retireCopies, canonical_retireOp]

theorem canonical_execOperationRetire {g c} (h : Canonical s) (e : execOperationRetire g c s = .next u) : Canonical u := by
  grind -linarith [execOperationRetire, canonical_retireOldest]

theorem canonical_execWriteAcknowledge {g op} (h : Canonical s) (e : execWriteAcknowledge g op s = .next u) : Canonical u := by
  grind -linarith [execWriteAcknowledge, mem_completeOp]

theorem canonical_stfFlag (n g o) (h : Canonical s) : Canonical (stfFlag s n g o) := by
  grind -linarith [stfFlag, mem_laneSend, mem_upOperation, canonical_loadAt, canonical_storeAt, mem_dropOwnLine, mem_landWrite]

theorem canonical_execStfFlagUpdate {g op} (h : Canonical s) (e : execStfFlagUpdate g op s = .next u) : Canonical u := by
  grind -linarith [execStfFlagUpdate, canonical_stfFlag]

theorem canonical_execTier2Timeout {g op} (h : Canonical s) (e : execTier2Timeout g op s = .next u) : Canonical u := by
  grind -linarith [execTier2Timeout, mem_upOperation]

theorem canonical_drainKilled (n g line) (h : Canonical s) : Canonical (drainKilled s n g line) := by
  grind -linarith [drainKilled, canonical_sendLine, mem_putGroup, canonical_settleTeam, mem_upGroup]

theorem canonical_execWcbTimeout {g line} (h : Canonical s) (e : execWcbTimeout g line s = .next u) : Canonical u := by
  grind -linarith [execWcbTimeout, canonical_settleTeam, canonical_sendWcb, canonical_drainKilled]

theorem canonical_execL1LeaseExpiry {core line} (h : Canonical s) (e : execL1LeaseExpiry core line s = .next u) : Canonical u := by
  grind -linarith [execL1LeaseExpiry, mem_upCore]

theorem canonical_commitStores (n g) (h : Canonical s) : Canonical (commitStores s n g).1 := by
  grind -linarith [commitStores, canonical_sendLine, mem_upGroup, canonical_foldl_fst]

theorem canonical_lookAtTurn (n g) (h : Canonical s) : Canonical (lookAtTurn s n g) := by
  grind -linarith [lookAtTurn, mem_endWaita, canonical_tryWaita, canonical_tryQput, canonical_lookAgain]

theorem canonical_takeTurn (grid n g) (h : Canonical s) : Canonical (takeTurn s grid n g) := by
  grind -linarith [takeTurn, canonical_commitStores, mem_upGroup, canonical_lookAtTurn, mem_endTurn]

theorem canonical_execOrderedCommitPhase {grid} (h : Canonical s) (e : execOrderedCommitPhase grid s = .next u) : Canonical u := by
  grind -linarith [execOrderedCommitPhase, canonical_takeTurn]

theorem canonical_execOrderedRoundStart {grid} (h : Canonical s) (e : execOrderedRoundStart grid s = .next u) : Canonical u := by
  grind -linarith [execOrderedRoundStart]

/-! ### Pre-emption -/

@[simp] theorem mem_stopGroups (c) : (stopGroups s c).mem = s.mem := by
  grind -linarith [stopGroups, mem_upGroup, mem_foldl]

@[simp] theorem mem_cancelParked (n uid rec) : (cancelParked s n uid rec).mem = s.mem := by
  grind -linarith [cancelParked, mem_upGroup, mem_abandonOp]

@[simp] theorem mem_cancelWhole (n) : (cancelWhole s n).mem = s.mem := rfl

@[simp] theorem mem_cancelCheck (team k) : (cancelCheck s team k).mem = s.mem := by
  grind -linarith [cancelCheck, mem_upMembers, mem_upQuartet]

@[simp] theorem mem_cancelProbe (n uid) : (cancelProbe s n uid).mem = s.mem := by
  grind -linarith [cancelProbe, mem_upGroup]

theorem canonical_settleStop (n) (h : Canonical s) : Canonical (settleStop s n) := by
  grind -linarith [settleStop, canonical_drainWcb, mem_putGroup, mem_cancelParked, mem_cancelWhole, mem_upGroup, mem_upQuartet, mem_cancelCheck,
    mem_cancelProbe]

theorem canonical_settleGroups (c) (h : Canonical s) : Canonical (settleGroups s c) := by
  grind -linarith [settleGroups, canonical_settleStop, canonical_foldl]

@[simp] theorem mem_haltQuartet (team k) : (haltQuartet s team k).mem = s.mem := by
  grind -linarith [haltQuartet, mem_upQuartet]

theorem canonical_haltQuartets (c) (h : Canonical s) : Canonical (haltQuartets s c) := by
  grind -linarith [haltQuartets, canonical_drainTeam, mem_haltQuartet, canonical_foldl]

theorem canonical_setCtxFlags (c v) (h : Canonical s) : Canonical (setCtxFlags s c v) := by
  grind -linarith [setCtxFlags, canonical_storeNum]

theorem canonical_execPreemptRequest {ctx} (h : Canonical s) (e : execPreemptRequest ctx s = .next u) : Canonical u := by
  grind -linarith [execPreemptRequest, canonical_haltQuartets, canonical_settleGroups, mem_stopGroups]

theorem canonical_moveExcess (c) (h : Canonical s) : Canonical (moveExcess s c) := by
  grind -linarith [moveExcess, canonical_moveCopy, canonical_foldl]

@[simp] theorem mem_beforeSave (t) : (beforeSave s t).mem = s.mem := by
  grind -linarith [beforeSave, mem_upGroup, mem_foldl]

theorem canonical_saveTeam {n t} (h : Canonical s) (e : saveTeam s n t = .ok u) : Canonical u := by
  grind -linarith [saveTeam, mem_beforeSave, canonical_unbindAll, canonical_engWrite, canonical_freeTeam]

theorem canonical_saveTeams {ts} (h : Canonical s) (e : saveTeams ts s = .ok u) : Canonical u := by
  induction ts generalizing s with
  | nil =>
    cases e
    exact h
  | cons t ts ih =>
    obtain ⟨s1, saved, rest⟩ := except_bind_eq_ok.mp e
    exact ih (canonical_saveTeam h saved) rest

@[simp] theorem mem_leaveCursors (ts) : (leaveCursors s ts).mem = s.mem := by
  grind -linarith [leaveCursors, mem_foldl]

theorem canonical_execPreemptSave {ctx} (h : Canonical s) (e : execPreemptSave ctx s = .next u) : Canonical u := by
  grind -linarith [execPreemptSave, canonical_saveTeams, mem_notYet, canonical_setCtxFlags, mem_leaveCursors, canonical_moveExcess]

theorem canonical_discardGroup (n) (h : Canonical s) : Canonical (discardGroup s n) := by
  grind -linarith [discardGroup, canonical_settleStop, mem_upGroup, canonical_drainWcb, canonical_endGroup]

theorem canonical_discardTeam (n t) (h : Canonical s) : Canonical (discardTeam s n t) := by
  grind -linarith [discardTeam, canonical_discardGroup, canonical_settleTeam, mem_upTeam, canonical_unbindAll, canonical_foldl]

theorem canonical_discardTeams (c) (h : Canonical s) : Canonical (discardTeams s c) := by
  grind -linarith [discardTeams, canonical_discardTeam, canonical_foldl]

@[simp] theorem mem_dropGrid (grid g) : (dropGrid s grid g).mem = s.mem := rfl

@[simp] theorem mem_dropGrids (c) : (dropGrids s c).mem = s.mem := by
  grind -linarith [dropGrids, mem_dropGrid, mem_foldl]

theorem canonical_execContextErrorStop {ctx} (h : Canonical s) (e : execContextErrorStop ctx s = .next u) : Canonical u := by
  grind -linarith [execContextErrorStop, mem_dropGrids, canonical_discardTeams, mem_stopGroups]

/-! ### Restores -/

theorem canonical_withTensor {w l c} (h : Canonical s) {x} (e : withTensor s w l c = .ok x) : Canonical x.1 := by
  grind -linarith [withTensor, canonical_fetchDesc, canonical_tileShards]

theorem canonical_getCopies {w l bs n} (h : Canonical s) {x} (e : getCopies w l bs n s = .ok x) : Canonical x.1 := by
  induction n generalizing x with
  | zero =>
    cases e
    exact h
  | succ n ih =>
    obtain ⟨y, got, next⟩ := except_bind_eq_ok.mp e
    have before : Canonical y.1 := ih got
    dsimp only at next
    split at next
    · cases next
    · obtain ⟨z, tensor, rfl⟩ := except_map_eq_ok.mp next
      exact canonical_withTensor (s := y.1.bump) before tensor

theorem canonical_feedBack (n bs off) (h : Canonical s) : Canonical (feedBack s n bs off) := by
  grind -linarith [feedBack, canonical_scanProgram, mem_upGroup]

@[simp] theorem mem_parkBack (n bs off) : (parkBack s n bs off).mem = s.mem := by
  grind -linarith [parkBack, mem_putGroup, mem_bump]

theorem canonical_bindsBack {w team bs k} (h : Canonical s) (e : bindsBack w team bs k s = .ok u) : Canonical u := by
  induction k generalizing u with
  | zero =>
    cases e
    exact h
  | succ k ih =>
    obtain ⟨s1, bound, next⟩ := except_bind_eq_ok.mp e
    grind -linarith [ih bound, mem_upTeam, canonical_bindLines]

@[simp] theorem mem_cursorBack (grid t cursor) : (cursorBack s grid t cursor).mem = s.mem := rfl

@[simp] theorem mem_quartetBack (n l bs groups k) : (quartetBack n l bs groups s k).mem = s.mem := by
  grind -linarith [quartetBack, mem_upQuartet, mem_bump, mem_upMembers]

@[simp] theorem mem_dropAsid (t) : (dropAsid s t).mem = s.mem := rfl

theorem canonical_teamBlock (n l bs) (h : Canonical s) : Canonical (teamBlock s n l bs) := by
  grind -linarith [teamBlock, mem_upTeam, memory_wf_writeBytes]

theorem canonical_teamBack {n g bs} (h : Canonical s) (e : teamBack s n g bs = .ok u) : Canonical u := by
  unfold teamBack at e
  split at e
  · cases e
  · obtain ⟨s2, bound, next⟩ := except_bind_eq_ok.mp e
    obtain ⟨x, copies, rfl⟩ := except_map_eq_ok.mp next
    have placed : Canonical s2 := canonical_bindsBack
      (canonical_foldl _ _ (canonical_teamBlock n _ bs (by rwa [Canonical, mem_dropAsid])) fun s k hs => by rwa [Canonical, mem_upGroup]) bound
    have copied : Canonical x.1 := canonical_getCopies placed copies
    rw [Canonical, mem_cursorBack]
    refine canonical_foldl _ _ (canonical_foldl _ _ (canonical_foldl _ _ copied ?_) ?_) ?_
    · exact fun s k hs => by rwa [Canonical, mem_quartetBack]
    · exact fun s k hs => by rwa [Canonical, mem_upGroup]
    · exact fun s k hs => canonical_ite (by rw [Canonical, mem_parkBack]; exact canonical_feedBack _ _ _ hs) (canonical_feedBack _ _ _ hs)

theorem canonical_siteName (die site own) (h : Canonical s) : Canonical (siteName s die site own).1 := by
  grind -linarith [siteName, canonical_nameRead, canonical_foldl_fst]

theorem canonical_backAll {grid g site name ts cores} (h : Canonical s) (e : backAll grid g site name ts cores s = .ok u) :
    Canonical u := by
  induction ts generalizing cores s with
  | nil =>
    cases e
    exact h
  | cons t ts ih =>
    obtain ⟨t, w⟩ := t
    unfold backAll at e
    split at e
    · cases e
    · dsimp only at e
      split at e
      · obtain ⟨s2, back, rest⟩ := except_bind_eq_ok.mp e
        refine ih (canonical_teamBack (canonical_placeTeam _ _ _ _ _ _ _ _ ?_) back) rest
        grind -linarith [canonical_engRead]
      · cases e

theorem canonical_backOn {grid g name core} (h : Canonical s) (e : backOn s grid g name core = .ok u) : Canonical u := by
  unfold backOn at e
  split at e
  · dsimp only at e
    split at e
    · cases e
    · obtain ⟨s1, back, rfl⟩ := except_map_eq_ok.mp e
      have placed : Canonical s1 := canonical_backAll (canonical_siteName _ _ _ h) back
      exact placed
  · cases e

theorem canonical_backFirst {grid g} (h : Canonical s) (e : backFirst s grid g = .ok u) : Canonical u := by
  have found : ∀ u, backFirst s grid g = .ok u → Canonical u :=
    List.foldlRecOn (motive := fun r : Except State State => ∀ u, r = .ok u → Canonical u) _ _ nofun fun r hr p _ u e => by
      split at e
      · exact hr u e
      · split_ifs at e
        exact canonical_backOn h e
  exact found u e

theorem canonical_execRestore {ctx} (h : Canonical s) (e : execRestore ctx s = .next u) : Canonical u := by
  unfold execRestore at e
  injection e with e
  subst e
  refine canonical_ite h ?_
  split
  · split
    · next back =>
      refine canonical_backFirst ?_ back
      exact h
    · rwa [Canonical, mem_notYet]
  · exact canonical_setCtxFlags _ _ h

/-! ### The clock -/

@[simp] theorem mem_heartbeats : (heartbeats s).mem = s.mem := by
  grind -linarith [heartbeats, mem_heartbeat, mem_foldl]

@[simp] theorem mem_settleAll : (settleAll s).mem = s.mem := by
  grind -linarith [settleAll, mem_settleH, mem_foldl]

@[simp] theorem mem_noteQueues : (noteQueues s).mem = s.mem := by
  grind -linarith [noteQueues, mem_noteAble, mem_foldl]

@[simp] theorem mem_newClock : (newClock s).mem = s.mem := by
  grind -linarith [newClock, mem_settleAll, mem_beginVisits, mem_noteQueues, mem_heartbeats, mem_advanceLog, mem_sendAcks]

@[simp] theorem mem_draw : (draw s).mem = s.mem := rfl

@[simp] theorem mem_setLate (g on) : (setLate s g on).mem = s.mem := rfl

/-! ### Every instruction, feed word and event -/

theorem canonical_finishedPacket {p r} (h : Canonical s) (e : (.ok (finishPacket s p r) : Except PktFail State) = .ok u) : Canonical u := by
  cases e
  rwa [Canonical, mem_finishPacket]

theorem canonical_exec (i) (h : Canonical s) (e : exec i s = .next u) : Canonical u := by
  cases i with
  | iadd g d a b => exact canonical_short2 h (show execIadd g d a b s = _ from e)
  | isub g d a b => exact canonical_short2 h (show execIsub g d a b s = _ from e)
  | imul g d a b => exact canonical_short2 h (show execImul g d a b s = _ from e)
  | imin g d a b => exact canonical_short2 h (show execImin g d a b s = _ from e)
  | imax g d a b => exact canonical_short2 h (show execImax g d a b s = _ from e)
  | and g d a b => exact canonical_short2 h (show execAnd g d a b s = _ from e)
  | or g d a b => exact canonical_short2 h (show execOr g d a b s = _ from e)
  | xor g d a b => exact canonical_short2 h (show execXor g d a b s = _ from e)
  | andn g d a b => exact canonical_short2 h (show execAndn g d a b s = _ from e)
  | shl g d a b => exact canonical_short2 h (show execShl g d a b s = _ from e)
  | shr g d a b => exact canonical_short2 h (show execShr g d a b s = _ from e)
  | sar g d a b => exact canonical_short2 h (show execSar g d a b s = _ from e)
  | mov g d a => exact canonical_short1 h (show execMov g d a s = _ from e)
  | iabs g d a => exact canonical_short1 h (show execIabs g d a s = _ from e)
  | not g d a => exact canonical_short1 h (show execNot g d a s = _ from e)
  | popc g d a => exact canonical_short1 h (show execPopc g d a s = _ from e)
  | clz g d a => exact canonical_short1 h (show execClz g d a s = _ from e)
  | brev g d a => exact canonical_short1 h (show execBrev g d a s = _ from e)
  | fadd g d a b => exact canonical_short2 h (show execFadd g d a b s = _ from e)
  | fsub g d a b => exact canonical_short2 h (show execFsub g d a b s = _ from e)
  | fmul g d a b => exact canonical_short2 h (show execFmul g d a b s = _ from e)
  | fmin g d a b => exact canonical_short2 h (show execFmin g d a b s = _ from e)
  | fmax g d a b => exact canonical_short2 h (show execFmax g d a b s = _ from e)
  | frcp g d a => exact canonical_shortSfu h (show execFrcp g d a s = _ from e)
  | frsq g d a => exact canonical_shortSfu h (show execFrsq g d a s = _ from e)
  | fsqrt g d a => exact canonical_shortSfu h (show execFsqrt g d a s = _ from e)
  | fexp2 g d a => exact canonical_shortSfu h (show execFexp2 g d a s = _ from e)
  | flog2 g d a => exact canonical_shortSfu h (show execFlog2 g d a s = _ from e)
  | fsin g d a => exact canonical_shortSfu h (show execFsin g d a s = _ from e)
  | fcos g d a => exact canonical_shortSfu h (show execFcos g d a s = _ from e)
  | fclass g d a => exact canonical_short1 h (show execFclass g d a s = _ from e)
  | hadd2 g d a b => exact canonical_short2 h (show execHadd2 g d a b s = _ from e)
  | hmul2 g d a b => exact canonical_short2 h (show execHmul2 g d a b s = _ from e)
  | uadd g d a b => exact canonical_uniOp h (show execUadd g d a b s = _ from e)
  | usub g d a b => exact canonical_uniOp h (show execUsub g d a b s = _ from e)
  | uand g d a b => exact canonical_uniOp h (show execUand g d a b s = _ from e)
  | umov g d a => exact canonical_uni32 h (show execUmov g d a s = _ from e)
  | exset => exact canonical_execExset h e
  | exsetAnd => exact canonical_execExsetAnd h e
  | exsetAndn => exact canonical_execExsetAndn h e
  | exget => exact canonical_execExget h e
  | pmov => exact canonical_execPmov h e
  | movsr => exact canonical_execMovsr h e
  | movsrClr g d => exact canonical_execMovsrClr h (show execMovsrClr g d s = _ from e)
  | br => exact canonical_execBr h e
  | call => exact canonical_execCall h e
  | loop => exact canonical_execLoop h e
  | nop g => exact canonical_execNop h (show execNop g s = _ from e)
  | ret a => exact canonical_jumpTo h (show execRet a s = _ from e)
  | exit => exact canonical_execExit h e
  | jmpx a => exact canonical_jumpTo h (show execJmpx a s = _ from e)
  | ld g d b off => exact canonical_genericAccess h (show execLd g d b off s = _ from e)
  | st g d b off => exact canonical_genericAccess h (show execSt g d b off s = _ from e)
  | lds g d b off => exact canonical_stashAccess h (show execLds g d b off s = _ from e)
  | sts g d b off => exact canonical_stashAccess h (show execSts g d b off s = _ from e)
  | ldc g d b off => exact canonical_genericAccess h (show execLdc g d b off s = _ from e)
  | fence g order scope xp => exact canonical_execFence h (show execFence g order scope xp s = _ from e)
  | txbegin => exact canonical_execTxbegin h e
  | txend => exact canonical_execTxend h e
  | txabort => exact canonical_execTxabort h e
  | accz m => exact canonical_arriveMtx h (show execAccz m s = _ from e)
  | setrt n a => exact canonical_arriveMtx h (show execSetrt n a s = _ from e)
  | cmit => exact canonical_execCmit h e
  | waitc => exact canonical_execWaitc h e
  | fstop => exact canonical_execFstop h e
  | barv => exact canonical_execBarv h e
  | bexp => exact canonical_execBexp h e
  | bwait => exact canonical_execBwait h e
  | bart => exact canonical_execBart h e
  | barc => exact canonical_execBarc h e
  | schnext => exact canonical_execSchnext h e
  | waita => exact canonical_execWaita h e
  | rng => exact canonical_execRng h e
  | rngSeq => exact canonical_execRngSeq h e
  | smark => exact canonical_execSmark h e
  | sclose => exact canonical_execSclose h e
  | trap => exact canonical_execTrap h e
  | tret => exact canonical_execTret h e
  | bkpt => exact canonical_execBkpt h e
  | csrr => exact canonical_execCsrr h e
  | csrw => exact canonical_execCsrw h e
  | iaddLong t sat o => exact canonical_long2 h (show execIaddLong t sat o s = _ from e)
  | isubLong t sat o => exact canonical_long2 h (show execIsubLong t sat o s = _ from e)
  | imulLong t sat o => exact canonical_long2 h (show execImulLong t sat o s = _ from e)
  | imulh t o => exact canonical_long2 h (show execImulh t o s = _ from e)
  | iminLong t o => exact canonical_long2 h (show execIminLong t o s = _ from e)
  | imaxLong t o => exact canonical_long2 h (show execImaxLong t o s = _ from e)
  | iabsLong sat o => exact canonical_long1 h (show execIabsLong sat o s = _ from e)
  | imad t sat o => exact canonical_long3 h (show execImad t sat o s = _ from e)
  | andLong o => exact canonical_long2 h (show execAndLong o s = _ from e)
  | orLong o => exact canonical_long2 h (show execOrLong o s = _ from e)
  | xorLong o => exact canonical_long2 h (show execXorLong o s = _ from e)
  | andnLong o => exact canonical_long2 h (show execAndnLong o s = _ from e)
  | notLong o => exact canonical_long1 h (show execNotLong o s = _ from e)
  | shlLong o => exact canonical_long2 h (show execShlLong o s = _ from e)
  | shrLong o => exact canonical_long2 h (show execShrLong o s = _ from e)
  | sarLong o => exact canonical_long2 h (show execSarLong o s = _ from e)
  | rot o => exact canonical_long2 h (show execRot o s = _ from e)
  | bfe sx o => exact canonical_long2 h (show execBfe sx o s = _ from e)
  | bfi o => exact canonical_long3 h (show execBfi o s = _ from e)
  | popcLong o => exact canonical_long1 h (show execPopcLong o s = _ from e)
  | clzLong o => exact canonical_long1 h (show execClzLong o s = _ from e)
  | brevLong o => exact canonical_long1 h (show execBrevLong o s = _ from e)
  | icmp cmp t o => exact canonical_vec32 h (show execIcmp cmp t o s = _ from e)
  | sel => exact canonical_execSel h e
  | movi g d imm => exact canonical_vec32 h (show execMovi g d imm s = _ from e)
  | iadd64 o => exact canonical_vec64 h (show execIadd64 o s = _ from e)
  | isub64 o => exact canonical_vec64 h (show execIsub64 o s = _ from e)
  | imul64 o => exact canonical_vec64 h (show execImul64 o s = _ from e)
  | shl64 o => exact canonical_vec64 h (show execShl64 o s = _ from e)
  | shr64 sx o => exact canonical_vec64 h (show execShr64 sx o s = _ from e)
  | faddLong rm o => exact canonical_long2 h (show execFaddLong rm o s = _ from e)
  | fsubLong rm o => exact canonical_long2 h (show execFsubLong rm o s = _ from e)
  | fmulLong rm o => exact canonical_long2 h (show execFmulLong rm o s = _ from e)
  | ffma rm o => exact canonical_long3 h (show execFfma rm o s = _ from e)
  | fminLong o => exact canonical_long2 h (show execFminLong o s = _ from e)
  | fmaxLong o => exact canonical_long2 h (show execFmaxLong o s = _ from e)
  | fcmp cmp t o => exact canonical_long2 h (show execFcmp cmp t o s = _ from e)
  | frcpLong rm o => exact canonical_longSfu h (show execFrcpLong rm o s = _ from e)
  | frsqLong rm o => exact canonical_longSfu h (show execFrsqLong rm o s = _ from e)
  | fsqrtLong rm o => exact canonical_longSfu h (show execFsqrtLong rm o s = _ from e)
  | fexp2Long rm o => exact canonical_longSfu h (show execFexp2Long rm o s = _ from e)
  | flog2Long rm o => exact canonical_longSfu h (show execFlog2Long rm o s = _ from e)
  | fsinLong rm o => exact canonical_longSfu h (show execFsinLong rm o s = _ from e)
  | fcosLong rm o => exact canonical_longSfu h (show execFcosLong rm o s = _ from e)
  | frint rm o => exact canonical_long1 h (show execFrint rm o s = _ from e)
  | fclassLong o => exact canonical_long1 h (show execFclassLong o s = _ from e)
  | fldexp rm o => exact canonical_vec32 h (show execFldexp rm o s = _ from e)
  | cvt pair rm o => exact canonical_long1 h (show execCvt pair rm o s = _ from e)
  | hadd2Long bf rm o => exact canonical_long2 h (show execHadd2Long bf rm o s = _ from e)
  | hmul2Long bf rm o => exact canonical_long2 h (show execHmul2Long bf rm o s = _ from e)
  | hfma2 bf rm o => exact canonical_long3 h (show execHfma2 bf rm o s = _ from e)
  | dot4 => exact canonical_execDot4 h e
  | dot8 => exact canonical_execDot8 h e
  | xlane => exact canonical_execXlane h e
  | xlaneIdx => exact canonical_execXlaneIdx h e
  | redx rop t o => exact canonical_redInstr h (show execRedx rop t o s = _ from e)
  | scanx rop excl t o => exact canonical_redInstr h (show execScanx rop excl t o s = _ from e)
  | ballot o => exact canonical_wholeMask h (show execBallot o s = _ from e)
  | vote vk o => exact canonical_wholeMask h (show execVote vk o s = _ from e)
  | matchx w64 o => exact canonical_vec64 h (show execMatchx w64 o s = _ from e)
  | elect o => exact canonical_wholeMask h (show execElect o s = _ from e)
  | plop d pc pb pa table => exact canonical_wholeMask h (show execPlop d pc pb pa table s = _ from e)
  | uaddLong g d a b => exact canonical_uniOp h (show execUaddLong g d a b s = _ from e)
  | usubLong g d a b => exact canonical_uniOp h (show execUsubLong g d a b s = _ from e)
  | umul g d a b => exact canonical_uniOp h (show execUmul g d a b s = _ from e)
  | uandLong g d a b => exact canonical_uniOp h (show execUandLong g d a b s = _ from e)
  | uor g d a b => exact canonical_uniOp h (show execUor g d a b s = _ from e)
  | uxor g d a b => exact canonical_uniOp h (show execUxor g d a b s = _ from e)
  | ushl g d a b => exact canonical_uniOp h (show execUshl g d a b s = _ from e)
  | ushr sx g d a b => exact canonical_uniOp h (show execUshr sx g d a b s = _ from e)
  | umovLong g d a => exact canonical_uni32 h (show execUmovLong g d a s = _ from e)
  | uaddImm g d a imm => exact canonical_uniImm h (show execUaddImm g d a imm s = _ from e)
  | usubImm g d a imm => exact canonical_uniImm h (show execUsubImm g d a imm s = _ from e)
  | umulImm g d a imm => exact canonical_uniImm h (show execUmulImm g d a imm s = _ from e)
  | uandImm g d a imm => exact canonical_uniImm h (show execUandImm g d a imm s = _ from e)
  | uorImm g d a imm => exact canonical_uniImm h (show execUorImm g d a imm s = _ from e)
  | uxorImm g d a imm => exact canonical_uniImm h (show execUxorImm g d a imm s = _ from e)
  | ushlImm g d a imm => exact canonical_uniImm h (show execUshlImm g d a imm s = _ from e)
  | ushrImm sx g d a imm => exact canonical_uniImm h (show execUshrImm sx g d a imm s = _ from e)
  | umovImm g d imm => exact canonical_uni32 h (show execUmovImm g d imm s = _ from e)
  | umovi g d imm => exact canonical_uni32 h (show execUmovi g d imm s = _ from e)
  | ucmp cmp t g d a b => exact canonical_execUcmp h (show execUcmp cmp t g d a b s = _ from e)
  | usel w64 pneg pr g d a b => exact canonical_execUsel h (show execUsel w64 pneg pr g d a b s = _ from e)
  | uadd64 g d a b => exact canonical_uni64 h (show execUadd64 g d a b s = _ from e)
  | ulane => exact canonical_execUlane h e
  | ldLong t uni m => exact canonical_genericAccess h (show execLdLong t uni m s = _ from e)
  | stLong t uni m => exact canonical_genericAccess h (show execStLong t uni m s = _ from e)
  | ldsLong t uni m => exact canonical_stashAccess h (show execLdsLong t uni m s = _ from e)
  | stsLong t uni m => exact canonical_stashAccess h (show execStsLong t uni m s = _ from e)
  | ldcLong t uni m => exact canonical_genericAccess h (show execLdcLong t uni m s = _ from e)
  | ldt g d coord desc t order scope cache nt clip =>
    exact canonical_tensorAccess h (show execLdt g d coord desc t order scope cache nt clip s = _ from e)
  | stt g d coord desc t order scope cache nt clip =>
    exact canonical_tensorAccess h (show execStt g d coord desc t order scope cache nt clip s = _ from e)
  | pref => exact canonical_execPref h e
  | atom => exact canonical_execAtom h e
  | red => exact canonical_execRed h e
  | atoms => exact canonical_execAtoms h e
  | atom2Dcas g d b1 b2 w64 order scope => exact canonical_atom2 h (show execAtom2Dcas g d b1 b2 w64 order scope s = _ from e)
  | atom2Amov g d b1 b2 w64 order scope => exact canonical_atom2 h (show execAtom2Amov g d b1 b2 w64 order scope s = _ from e)
  | stm => exact canonical_execStm h e
  | stf => exact canonical_execStf h e
  | sbind => exact canonical_execSbind h e
  | sunbind => exact canonical_execSunbind h e
  | sflush => exact canonical_execSflush h e
  | mma tile areg sreg fmt r ns hf bs => exact canonical_arriveMtx h (show execMma tile areg sreg fmt r ns hf bs s = _ from e)
  | mmaLong tile aq sq fmt ns hf nt bs bstr ks => exact canonical_arriveMtx h (show execMmaLong tile aq sq fmt ns hf nt bs bstr ks s = _ from e)
  | accld tile t addr str => exact canonical_arriveMtx h (show execAccld tile t addr str s = _ from e)
  | accst tile t addr str rm => exact canonical_arriveMtx h (show execAccst tile t addr str rm s = _ from e)
  | accepi tile t addr str rm act alpha bias biason =>
    exact canonical_arriveMtx h (show execAccepi tile t addr str rm act alpha bias biason s = _ from e)
  | accepiSend tile t rm act rte alpha bias biason =>
    exact canonical_arriveMtx h (show execAccepiSend tile t rm act rte alpha bias biason s = _ from e)
  | mxsave addr => exact canonical_arriveMtx h (show execMxsave addr s = _ from e)
  | mxres addr => exact canonical_arriveMtx h (show execMxres addr s = _ from e)
  | hadt tile src n dir => exact canonical_arriveMtx h (show execHadt tile src n dir s = _ from e)
  | qblk tile fmt rm tr u => exact canonical_arriveMtx h (show execQblk tile fmt rm tr u s = _ from e)
  | dqblk tile fmt tr u => exact canonical_arriveMtx h (show execDqblk tile fmt tr u s = _ from e)
  | feed => exact canonical_execFeed h e
  | cpy => exact canonical_execCpy h e
  | cpytLoad desc coord buf ext bar baron rel res tr clip =>
    exact canonical_copyTile h (show execCpytLoad desc coord buf ext bar baron rel res tr clip s = _ from e)
  | cpytStore desc coord buf ext bar baron rel res tr clip =>
    exact canonical_copyTile h (show execCpytStore desc coord buf ext bar baron rel res tr clip s = _ from e)
  | qput => exact canonical_execQput h e
  | binit => exact canonical_execBinit h e
  | texs g d coord tex key ctr => exact canonical_texture h (show execTexs g d coord tex key ctr s = _ from e)
  | texf g d coord tex => exact canonical_texture h (show execTexf g d coord tex s = _ from e)
  | texq g d coord tex => exact canonical_texture h (show execTexq g d coord tex s = _ from e)
  | rtbox g d ray addr => exact canonical_rayTest h (show execRtbox g d ray addr s = _ from e)
  | rttri g d ray addr minf cull => exact canonical_rayTest h (show execRttri g d ray addr minf cull s = _ from e)
  | sopen => exact canonical_execSopen h e
  | sopenReplay => exact canonical_execSopenReplay h e
  | sopenFetch => exact canonical_execSopenFetch h e
  | semit => exact canonical_execSemit h e
  | diagrd => exact canonical_execDiagrd h e
  | diagwr => exact canonical_execDiagwr h e
  | fld q t n m gsh off => exact canonical_onFeed h (fun _ _ _ => canonical_feedFld _ _ _ _ _ _ _ _ _ h) (show execFld q t n m gsh off s = _ from e)
  | flds q t n off => exact canonical_onFeed h (fun _ _ _ => canonical_feedFlds _ _ _ _ _ _ _ h) (show execFlds q t n off s = _ from e)
  | floop count => exact canonical_onFeed h (fun _ _ _ => by exact h) (show execFloop count s = _ from e)
  | floopReg n => exact canonical_onFeed h (fun _ _ _ => by exact h) (show execFloopReg n s = _ from e)
  | fstep n imm => exact canonical_onFeed h (fun _ _ _ => by exact h) (show execFstep n imm s = _ from e)
  | fstepReg n m => exact canonical_onFeed h (fun _ _ _ => by exact h) (show execFstepReg n m s = _ from e)
  | fend => exact canonical_onFeed h (fun _ _ _ => by exact h) (show execFend s = _ from e)
  | fsync => exact canonical_onFeed h (fun _ _ _ => by exact h) (show execFsync s = _ from e)
  | clauseDispatch => exact canonical_execClauseDispatch h e
  | rotationStart => exact canonical_execRotationStart h e
  | sfuResult => exact canonical_execSfuResult h e
  | groupWaitMet => exact canonical_execGroupWaitMet h e
  | translationComplete => exact canonical_execTranslationComplete h e
  | faultQueueRetry => exact canonical_execFaultQueueRetry h e
  | faultResponse => exact canonical_execFaultResponse h e
  | operationRetire => exact canonical_execOperationRetire h e
  | writeAcknowledge => exact canonical_execWriteAcknowledge h e
  | wcbTimeout => exact canonical_execWcbTimeout h e
  | l1LeaseExpiry => exact canonical_execL1LeaseExpiry h e
  | bindFirstTouch => exact canonical_execBindFirstTouch h e
  | bindRecall => exact canonical_execBindRecall h e
  | txAbort => exact canonical_execTxAbort h e
  | orderedCommitPhase => exact canonical_execOrderedCommitPhase h e
  | orderedRoundStart => exact canonical_execOrderedRoundStart h e
  | matrixCheckEnd => exact canonical_execMatrixCheckEnd h e
  | mmaPassEnd => exact canonical_execMmaPassEnd h e
  | mmaFeedTake => exact canonical_execMmaFeedTake h e
  | fennelServe => exact canonical_execFennelServe h e
  | feedLoadReturn => exact canonical_execFeedLoadReturn h e
  | copyProbeEnd => exact canonical_execCopyProbeEnd h e
  | copyErrorStop g copy cause => exact canonical_execCopyErrorStop h (show execCopyErrorStop g copy cause s = _ from e)
  | barrierPendLower => exact canonical_execBarrierPendLower h e
  | stfFlagUpdate => exact canonical_execStfFlagUpdate h e
  | sendFlagUpdate => exact canonical_execSendFlagUpdate h e
  | waitaWake => exact canonical_execWaitaWake h e
  | waitaDeadline => exact canonical_execWaitaDeadline h e
  | qputBlockRetry => exact canonical_execQputBlockRetry h e
  | teamPlace => exact canonical_execTeamPlace h e
  | gridComplete => exact canonical_execGridComplete h e
  | contextErrorStop => exact canonical_execContextErrorStop h e
  | preemptRequest => exact canonical_execPreemptRequest h e
  | preemptSave => exact canonical_execPreemptSave h e
  | restore => exact canonical_execRestore h e
  | nopad queue => exact canonical_packetEvent h (fun _ _ _ h e => canonical_finishedPacket h e) (show execNopad queue s = _ from e)
  | launch queue => exact canonical_packetEvent h (fun _ _ _ h e => canonical_runLaunch h e) (show execLaunch queue s = _ from e)
  | copy queue => exact canonical_packetEvent h (fun _ _ _ h e => canonical_runCopy h e) (show execCopy queue s = _ from e)
  | waitmem queue => exact canonical_packetEvent h (fun _ _ _ h e => canonical_readWaitmem h e) (show execWaitmem queue s = _ from e)
  | signal queue => exact canonical_packetEvent h (fun _ _ _ h e => canonical_runSignal h e) (show execSignal queue s = _ from e)
  | bind queue => exact canonical_packetEvent h (fun _ _ _ h e => canonical_runBind h e) (show execBind queue s = _ from e)
  | ckpt queue => exact canonical_packetEvent h (fun _ _ _ h e => canonical_runCkpt h e) (show execCkpt queue s = _ from e)
  | jctlExport queue => exact canonical_jctlEvent h (fun _ _ _ h e => canonical_runExport h e) (show execJctlExport queue s = _ from e)
  | jctlRestart queue => exact canonical_jctlEvent h (fun _ _ _ h e => canonical_runRestart h e) (show execJctlRestart queue s = _ from e)
  | jctlForget queue => exact canonical_jctlEvent h (fun _ _ _ h e => canonical_runForget h e) (show execJctlForget queue s = _ from e)
  | tdset queue => exact canonical_packetEvent h (fun _ _ _ h e => canonical_runTdset h e) (show execTdset queue s = _ from e)
  | tlbinv queue => exact canonical_packetEvent h (fun _ _ _ h e => canonical_runTlbinv h e) (show execTlbinv queue s = _ from e)
  | packetComplete => exact canonical_execPacketComplete h e
  | nameCacheMiss => exact canonical_execNameCacheMiss h e
  | mscWriteback => exact canonical_execMscWriteback h e
  | rinseDrain => exact canonical_execRinseDrain h e
  | patrolScrub => exact canonical_execPatrolScrub h e
  | flitCrcReplay => exact canonical_execFlitCrcReplay h e
  | oscillatorLockLoss => exact canonical_execOscillatorLockLoss h e
  | heartbeatSend => exact canonical_execHeartbeatSend h e
  | siteLostTimeout => exact canonical_execSiteLostTimeout h e
  | siteLostDeclared => exact canonical_execSiteLostDeclared h e
  | fabricRequestArrive => exact canonical_execFabricRequestArrive h e
  | fabricAck => exact canonical_execFabricAck h e
  | fabricTimeout => exact canonical_execFabricTimeout h e
  | rotorMatching => exact canonical_execRotorMatching h e
  | hostAccess => exact canonical_execHostAccess h e
  | hostWritePerform => exact canonical_execHostWritePerform h e
  | birspArrive => exact canonical_execBirspArrive h e
  | tier2Timeout => exact canonical_execTier2Timeout h e
  | collectiveContribution => exact canonical_execCollectiveContribution h e
  | chunkResultAck => exact canonical_execChunkResultAck h e
  | rasterPacketArrive => exact canonical_execRasterPacketArrive h e
  | rasterWatermarkArrive => exact canonical_execRasterWatermarkArrive h e
  | rasterisePacket => exact canonical_execRasterisePacket h e
  | frameComplete => exact canonical_execFrameComplete h e
  | contactLogRecordArrive => exact canonical_execContactLogRecordArrive h e
  | journalRecordAck => exact canonical_execJournalRecordAck h e
  | sinkEmissionArrive => exact canonical_execSinkEmissionArrive h e
  | ringSinkDeliver => exact canonical_execRingSinkDeliver h e
  | forcedRecordFetch => exact canonical_execForcedRecordFetch h e
  | partnerLost => exact canonical_execPartnerLost h e
  | partnerResendDone => exact canonical_execPartnerResendDone h e
  | powerOn => exact canonical_execPowerOn h e
  | safelightCandidateWrite => exact canonical_execSafelightCandidateWrite h e
  | spdmNegotiateAlgorithms => exact canonical_execSpdmNegotiateAlgorithms h e
  | spdmGetMeasurements => exact canonical_execSpdmGetMeasurements h e
  | waitmemMonitorWake => exact canonical_execWaitmemMonitorWake h e
  | powerLoss => exact canonical_execPowerLoss e
  | hostPortTraining => exact canonical_execHostPortTraining h e

/-! ### The next move, and the step -/

/-- An event keeps the canonical form. -/
def Keeps (e : Event1) : Prop := ∀ {s u : State}, Canonical s → e s = .next u → Canonical u

theorem keeps_groupEvents (n g) : ∀ e ∈ groupEvents n g, Keeps e := by
  simp only [groupEvents, List.forall_mem_append, List.forall_mem_cons, List.forall_mem_map, List.forall_mem_flatMap]
  exact ⟨⟨⟨⟨⟨⟨⟨canonical_execSfuResult, canonical_execTranslationComplete, canonical_execCopyProbeEnd, canonical_execFennelServe,
      canonical_execWaitaWake, canonical_execWaitaDeadline, canonical_execQputBlockRetry, nofun⟩,
    fun _ _ => canonical_execFeedLoadReturn⟩,
    fun _ _ => canonical_execOperationRetire⟩,
    fun _ _ => ⟨canonical_execWriteAcknowledge, canonical_execStfFlagUpdate, canonical_execTier2Timeout, canonical_execBarrierPendLower, nofun⟩⟩,
    fun _ _ _ _ s u h e => by cases e; exact canonical_laneLands _ _ _ h⟩,
    fun _ _ => canonical_execBarrierPendLower⟩,
    ⟨fun _ _ => canonical_execWcbTimeout, fun _ _ => canonical_execWcbTimeout⟩⟩

theorem keeps_teamEvents (n t) : ∀ e ∈ teamEvents n t, Keeps e := by
  simp only [teamEvents, List.forall_mem_append, List.forall_mem_cons, List.forall_mem_map, List.forall_mem_flatMap]
  exact ⟨fun _ _ => ⟨canonical_execMatrixCheckEnd, canonical_execMmaFeedTake, canonical_execMmaPassEnd, nofun⟩,
    fun _ _ _ _ => canonical_execForcedRecordFetch⟩

theorem keeps_queueEvents (q) : ∀ e ∈ queueEvents q, Keeps e := by
  simp only [queueEvents, List.forall_mem_cons]
  exact ⟨canonical_exec (.nopad q), canonical_exec (.launch q), canonical_exec (.copy q), canonical_exec (.waitmem q), canonical_exec (.signal q),
    canonical_exec (.bind q), canonical_exec (.ckpt q), canonical_exec (.jctlExport q), canonical_exec (.jctlRestart q),
    canonical_exec (.jctlForget q), canonical_exec (.tdset q), canonical_exec (.tlbinv q), nofun⟩

theorem keeps_dieEvents (s site d) : ∀ e ∈ dieEvents s site d, Keeps e := by
  simp only [dieEvents, List.forall_mem_append, List.forall_mem_cons, List.forall_mem_flatMap]
  refine ⟨⟨⟨⟨canonical_execSiteLostTimeout, canonical_execPartnerLost, canonical_execPartnerResendDone, nofun⟩,
    fun _ _ => ⟨canonical_execContactLogRecordArrive, canonical_execJournalRecordAck, nofun⟩⟩, ?_⟩, ?_⟩
  · cases chosenQueue (noteAble s site) site with
    | none => nofun
    | some q => exact keeps_queueEvents q
  · intro e he
    obtain ⟨q, -, made⟩ := List.mem_filterMap.mp he
    have queued : e = execNopad q := by grind -linarith
    rw [queued]
    intro _ _ h answered
    exact canonical_exec (.nopad q) h answered

theorem keeps_gridEvents (s n g) : ∀ e ∈ gridEvents s n g, Keeps e := by
  simp only [gridEvents, List.forall_mem_append, List.forall_mem_cons]
  refine ⟨⟨canonical_execGridComplete, canonical_execOrderedCommitPhase, canonical_execOrderedRoundStart, nofun⟩, fun e he => ?_⟩
  obtain ⟨core, -, rfl⟩ := Option.map_eq_some_iff.mp (Option.mem_toList.mp he)
  exact canonical_execTeamPlace

theorem keeps_ctxEvents (c) : ∀ e ∈ ctxEvents c, Keeps e := by
  simp only [ctxEvents, List.forall_mem_cons]
  exact ⟨canonical_execContextErrorStop, canonical_execPreemptRequest, canonical_execPreemptSave, canonical_execRestore, nofun⟩

theorem keeps_travelEvents (s) : ∀ e ∈ travelEvents s, Keeps e := by
  simp only [travelEvents, List.forall_mem_append, List.forall_mem_cons, List.forall_mem_map, List.forall_mem_flatMap]
  exact ⟨⟨⟨⟨⟨fun _ _ => ⟨canonical_execSinkEmissionArrive, canonical_execRingSinkDeliver, canonical_execRasterPacketArrive, nofun⟩,
    fun _ _ => canonical_execRasterWatermarkArrive⟩,
    fun _ _ => ⟨canonical_execRasterisePacket, canonical_execFrameComplete, nofun⟩⟩,
    fun _ _ => canonical_execCollectiveContribution⟩,
    fun _ _ => canonical_execChunkResultAck⟩,
    fun _ _ => canonical_execSendFlagUpdate⟩

theorem keeps_otherEvents (s) : ∀ e ∈ otherEvents s, Keeps e := by
  simp only [otherEvents, List.forall_mem_append, List.forall_mem_cons, List.forall_mem_map, List.forall_mem_flatMap]
  exact ⟨⟨⟨⟨⟨fun _ _ => ⟨canonical_execFaultQueueRetry, canonical_execFaultResponse, nofun⟩,
    fun _ _ => ⟨canonical_execPacketComplete, canonical_execWaitmemMonitorWake, nofun⟩⟩,
    fun _ _ => canonical_execRinseDrain⟩,
    fun _ _ => canonical_execHostWritePerform⟩,
    fun _ _ => ⟨canonical_exec (.fabricTimeout _), canonical_refuseOwn, nofun⟩⟩,
    fun x _ s u h e => by cases e; exact canonical_fabTry x h⟩

theorem keeps_ownEvents (s) : ∀ e ∈ ownEvents s, Keeps e := by
  simp only [ownEvents, List.forall_mem_append, List.forall_mem_flatMap]
  exact ⟨⟨⟨⟨⟨⟨fun _ _ => keeps_groupEvents _ _, fun _ _ => keeps_teamEvents _ _⟩, fun _ _ => keeps_gridEvents _ _ _⟩, keeps_travelEvents s⟩,
    keeps_otherEvents s⟩, fun _ _ => keeps_ctxEvents _⟩, fun _ _ => keeps_dieEvents _ _ _⟩

theorem canonical_happens {ev : Event1} (h : Canonical s) (keeps : Keeps ev) (e : happens s ev = some u) : Canonical u := by
  unfold happens at e
  split at e
  · next t answered =>
    dsimp only at e
    split_ifs at e
    cases e
    exact canonical_atOnce h (keeps h answered)
  · cases e

theorem canonical_internalEvent (h : Canonical s) (e : internalEvent s = some u) : Canonical u := by
  obtain ⟨ev, listed, happened⟩ := List.exists_of_findSome?_eq_some e
  refine canonical_happens h (keeps_ownEvents s ev ?_) happened
  rcases List.mem_append.mp listed with late | early
  · exact List.mem_of_mem_drop late
  · exact List.mem_of_mem_take early

/-- Both states of a move have a canonical memory: the one that stands where the move lacks something, and the one in which it executes. -/
def CanonicalMove (m : Move) : Prop := Canonical m.base ∧ Canonical m.state

theorem canonicalMove_visitMove (v rest) (h : Canonical s) : CanonicalMove (visitMove s v rest) :=
  ⟨h, canonical_lookAt (s := { s with visits := rest }) v h⟩

theorem canonicalMove_firstVisit {m : Move} (h : Canonical s) (hm : CanonicalMove m) : CanonicalMove (firstVisit s m) := by
  unfold firstVisit
  split
  · exact canonicalMove_visitMove _ _ h
  · exact hm

theorem canonicalMove_newClock (h : Canonical s) : CanonicalMove (.still s (newClock s)) := ⟨h, by rwa [Canonical, Move.still, mem_newClock]⟩

theorem canonicalMove_askedMove (a rest) (h : Canonical s) : CanonicalMove (askedMove s a rest) := by
  have h1 : Canonical { s with agenda := rest } := h
  cases a with
  | visit k =>
    unfold askedMove
    dsimp only
    split
    · exact canonicalMove_visitMove _ _ h1
    · exact canonicalMove_newClock h1
  | late g on => exact ⟨h1, h1⟩
  | feed n => exact canonicalMove_firstVisit h ⟨h1, by rwa [Canonical, mem_moveFeed]⟩
  | event i => exact canonicalMove_firstVisit h ⟨h1, h1⟩
  | lane g op lane => exact canonicalMove_firstVisit h ⟨h1, canonical_laneLands g op lane h1⟩

theorem canonicalMove_nextMove (h : Canonical s) : CanonicalMove (nextMove s) := by
  have drawn : Canonical (draw s) := h
  unfold nextMove
  dsimp only
  split
  · exact canonicalMove_askedMove _ _ drawn
  · split_ifs
    · exact ⟨drawn, drawn⟩
    · exact canonicalMove_firstVisit drawn (canonicalMove_newClock drawn)
    · refine canonicalMove_firstVisit drawn ?_
      split
      · next happened => exact ⟨drawn, canonical_internalEvent drawn happened⟩
      · exact canonicalMove_newClock drawn

@[simp] theorem mem_afterVisit (m) (t : State) : (afterVisit m t).mem = t.mem := by
  unfold afterVisit
  split
  · rfl
  · rfl
  · split_ifs
    · exact mem_noteServed _
    · rfl

theorem canonical_finishMove {m r} (hm : CanonicalMove m) (hr : ∀ t, r = .next t → Canonical t) (e : finishMove m r = .next u) :
    Canonical u := by
  cases r with
  | next t =>
    cases e
    exact canonical_atOnce hm.1 (by rw [Canonical, mem_afterVisit]; exact hr t rfl)
  | fault => cases e
  | refused => cases e

theorem canonical_step (h : Canonical s) (e : step s = .next u) : Canonical u := by
  have move : CanonicalMove (nextMove s) := canonicalMove_nextMove h
  refine canonical_finishMove move (fun t made => ?_) e
  split at made
  · cases made
    exact move.2
  · exact canonical_exec _ move.2 made

end Sys2Proof.Laws.Canonicity

namespace Sys2Proof

open Machine Laws.Canonicity

/-- Settles O9: the lemma of each function of the model, from the writes to memory up to the step. -/
theorem stepKeepsMemoryCanonical : Obligations.StepKeepsMemoryCanonical := by
  unfold Obligations.StepKeepsMemoryCanonical
  intro s t h e
  exact canonical_step h e

end Sys2Proof

/-! ## Writes at a line's home (R312, R318) -/

namespace Sys2Proof.Laws.HomeWrites

open Machine

/-- What the memory system may change as it performs a write: the bytes, the owners of bound lines, the memory-side cache, the errors in
storage, the completion times of lines and what the step lacks. -/
def Rewrites (s u : State) : Prop :=
  ∃ mem owners hbmOld ueUnits lineC needs,
    u = { s with mem := mem, owners := owners, hbmOld := hbmOld, ueUnits := ueUnits, lineC := lineC, needs := needs }

section
variable {s u v : State}

theorem Rewrites.refl (s : State) : Rewrites s s := ⟨_, _, _, _, _, _, rfl⟩

theorem Rewrites.trans (h : Rewrites s u) (h' : Rewrites u v) : Rewrites s v := by
  obtain ⟨_, _, _, _, _, _, rfl⟩ := h
  obtain ⟨_, _, _, _, _, _, rfl⟩ := h'
  exact ⟨_, _, _, _, _, _, rfl⟩

theorem rewrites_needLine (line : Nat) (w : Bool) : Rewrites s (needLine s line w) := by
  unfold needLine
  split
  · exact ⟨_, _, _, _, _, _, rfl⟩
  · split_ifs
    · exact ⟨_, _, _, _, _, _, rfl⟩
    · exact .refl s
  · exact .refl s

theorem rewrites_writeHere (loc : Nat) (bs : List Byte) : Rewrites s (writeHere s loc bs).1 := by
  unfold writeHere
  dsimp only
  split_ifs <;> exact ⟨_, _, _, _, _, _, rfl⟩

theorem rewrites_setDirty (block : Nat) (v : Bool) : Rewrites s (setDirty s block v) := by
  unfold setDirty
  split
  · exact (rewrites_needLine _ _).trans (rewrites_writeHere _ _)
  · exact .refl s

theorem rewrites_writeBack (line : Nat) : Rewrites s (writeBack s line) := by
  have erased : Rewrites s { s with hbmOld := tblErase s.hbmOld line } := ⟨_, _, _, _, _, _, rfl⟩
  unfold writeBack
  split_ifs
  · exact .refl s
  · exact erased
  · exact erased.trans (rewrites_setDirty _ _)

theorem rewrites_keepHbm (line : Nat) : Rewrites s (keepHbm s line) := by
  unfold keepHbm
  split_ifs
  · exact .refl s
  · cases victimOf s line with
    | none => exact ⟨_, _, _, _, _, _, rfl⟩
    | some v => exact (rewrites_writeBack v).trans ⟨_, _, _, _, _, _, rfl⟩

theorem rewrites_performWrite (loc : Nat) (bs : List Byte) : Rewrites s (performWrite s loc bs).1 := by
  unfold performWrite
  split_ifs
  · exact (rewrites_keepHbm _).trans (rewrites_writeHere _ _)
  · exact rewrites_writeHere _ _

end

/-! ### A write at a home moves no line -/

section
variable {s : State}

/-- The place of a byte depends on the owners alone. -/
theorem locate_of_owners {u : State} (h : u.owners = s.owners) (l : Nat) : locate u l = locate s l := by simp only [locate, h]

@[simp] theorem locate_needLine (line : Nat) (w : Bool) (l : Nat) : locate (needLine s line w) l = locate s l :=
  locate_of_owners (Laws.Recalls.needLine_fields s line w).2.2 l

/-- That a line is written since its fill leaves it where it is. -/
theorem locate_dirtyOwner (loc l : Nat) : locate (dirtyOwner s loc) l = locate s l := by
  simp only [locate, dirtyOwner, tblGet_tblUp]
  split_ifs
  · cases tblGet s.owners (lineOf l) <;> rfl
  · rfl

theorem locate_writeHere (loc : Nat) (bs : List Byte) (l : Nat) : locate (writeHere s loc bs).1 l = locate s l := by
  unfold writeHere
  dsimp only
  split_ifs
  · exact locate_of_owners rfl l
  · exact locate_dirtyOwner loc l

theorem locate_setDirty (block : Nat) (v : Bool) (l : Nat) : locate (setDirty s block v) l = locate s l := by
  unfold setDirty
  split
  · simp only [locate_writeHere, locate_needLine]
  · rfl

theorem locate_writeBack (line l : Nat) : locate (writeBack s line) l = locate s l := by
  unfold writeBack
  split_ifs
  · rfl
  · exact locate_of_owners rfl l
  · exact (locate_setDirty _ _ l).trans (locate_of_owners rfl l)

theorem locate_keepHbm (line l : Nat) : locate (keepHbm s line) l = locate s l := by
  unfold keepHbm
  split_ifs
  · rfl
  · cases victimOf s line with
    | none => exact locate_of_owners rfl l
    | some v => exact (locate_of_owners rfl l).trans (locate_writeBack v l)

/-! ### The bytes, the time and the frame of a write -/

theorem mem_writeHere (loc : Nat) (bs : List Byte) : (writeHere s loc bs).1.mem = writeBytes s.mem (locate s loc) bs := by
  unfold writeHere
  dsimp only
  split_ifs <;> rfl

/-- The memory-side cache changes a byte of memory only where it writes a line back to make room. -/
theorem mem_keepHbm {line : Nat} (h : victimOf s line = none ∨ isHbm (128 * line) = false) : (keepHbm s line).mem = s.mem := by
  unfold keepHbm
  split_ifs with skipped
  · rfl
  · rcases h with room | other
    · rw [room]
    · exact absurd (by simp [other]) skipped

/-- The state in which a write at a line's home stores its bytes. -/
def madeRoom (s : State) (loc : Nat) : State := if locate s loc = loc then keepHbm s (lineOf loc) else s

theorem performWrite_eq (loc : Nat) (bs : List Byte) : performWrite s loc bs = writeHere (madeRoom s loc) loc bs := rfl

theorem rewrites_madeRoom (loc : Nat) : Rewrites s (madeRoom s loc) := by
  unfold madeRoom
  split_ifs
  · exact rewrites_keepHbm _
  · exact .refl s

theorem locate_madeRoom (loc l : Nat) : locate (madeRoom s loc) l = locate s l := by
  unfold madeRoom
  split_ifs
  · exact locate_keepHbm _ l
  · rfl

theorem mem_madeRoom {loc : Nat} (h : victimOf s (lineOf loc) = none ∨ locate s loc ≠ loc ∨ isHbm (128 * lineOf loc) = false) :
    (madeRoom s loc).mem = s.mem := by
  unfold madeRoom
  split_ifs with home
  · exact mem_keepHbm (h.imp_right fun bound => bound.resolve_left fun away => away home)
  · rfl

theorem mem_performWrite (loc : Nat) (bs : List Byte) :
    (performWrite s loc bs).1.mem = writeBytes (madeRoom s loc).mem (locate s loc) bs := by
  rw [performWrite_eq, mem_writeHere, locate_madeRoom]

theorem completion_performWrite (loc : Nat) (bs : List Byte) :
    (performWrite s loc bs).2 = max (ticks s) ((tblGet s.leases (lineOf loc)).getD 0) := by
  obtain ⟨_, _, _, _, _, _, room⟩ := rewrites_madeRoom (s := s) loc
  rw [performWrite_eq, room]
  rfl

theorem lineC_performWrite (loc : Nat) (bs : List Byte) :
    tblGet (performWrite s loc bs).1.lineC (lineOf loc) = some (performWrite s loc bs).2 :=
  Laws.Clearing.tblGet_tblSet_self _ _ _

end

end Sys2Proof.Laws.HomeWrites

namespace Sys2Proof

open Machine Laws.HomeWrites

/-- Settles O10: the memory-side cache makes room without moving a line, and the bytes are then written where the line is held. -/
theorem performedWriteLands : Obligations.PerformedWriteLands := by
  unfold Obligations.PerformedWriteLands
  intro s loc bs
  dsimp only
  obtain ⟨_, _, _, _, _, _, frame⟩ := rewrites_performWrite (s := s) loc bs
  refine ⟨?_, fun a room outside => ?_, completion_performWrite loc bs, lineC_performWrite loc bs, ?_, ?_, ?_⟩
  · rw [mem_performWrite, readBytes_writeBytes]
  · rw [mem_performWrite, mem_madeRoom room]
    rcases outside with below | above
    · exact readByte_writeBytes_of_lt bs _ _ a below
    · exact readByte_writeBytes_of_ge bs _ _ a above
  · rw [frame]
  · rw [frame]
  · rw [frame]

end Sys2Proof

/-! ## The host, peer panels and the outside world (R334, R383, R392, R419 to R424, R449 to R457) -/

namespace Sys2Proof.Laws.Package

open Machine Laws.HomeWrites Laws.Canonicity

/-! ### What an access at a home leaves unchanged -/

section
variable {s u v : State}

/-- What an access to memory may change: what a write at a home may, and the groups whose transactions it aborts. -/
def Accesses (s u : State) : Prop := ∃ groups, Rewrites { s with groups := groups } u

theorem Accesses.of_rewrites (h : Rewrites s u) : Accesses s u := ⟨s.groups, h⟩

theorem Accesses.trans (h : Accesses s u) (h' : Accesses u v) : Accesses s v := by
  obtain ⟨_, _, _, _, _, _, _, rfl⟩ := h
  obtain ⟨_, _, _, _, _, _, _, rfl⟩ := h'
  exact ⟨_, _, _, _, _, _, _, rfl⟩

theorem rewrites_fillBound (team slot : Nat) (b : BindSlot) (k : Nat) : Rewrites s (fillBound s team slot b k) := by
  unfold fillBound
  split
  · exact .refl s
  · split_ifs
    · exact .refl s
    · exact (rewrites_needLine _ _).trans ⟨_, _, _, _, _, _, rfl⟩

theorem rewrites_touchGlobal (loc : Nat) : Rewrites s (touchGlobal s loc) := by
  unfold touchGlobal
  split_ifs
  · exact .refl s
  · split
    · exact rewrites_fillBound _ _ _ _
    · exact .refl s

theorem accesses_conflict (who : Option Nat) (line : Nat) (w : Bool) : Accesses s (conflict s who line w) := ⟨_, .refl _⟩

/-- The state before a line's bytes are read or written: the line is filled, and the transactions that hold it have aborted. -/
theorem accesses_enter (who : Option Nat) (line loc : Nat) (w : Bool) : Accesses s (conflict (touchGlobal s loc) who line w) :=
  (Accesses.of_rewrites (rewrites_touchGlobal loc)).trans (accesses_conflict who line w)

theorem accesses_write (who : Option Nat) (line loc place : Nat) (w : Bool) (bs : List Byte) :
    Accesses s (performWrite (conflict (touchGlobal s loc) who line w) place bs).1 :=
  (accesses_enter who line loc w).trans (.of_rewrites (rewrites_performWrite place bs))

theorem accesses_loadAt (who : Option Nat) (loc n : Nat) : Accesses s (loadAt s who loc n).1 :=
  (Accesses.of_rewrites (rewrites_needLine _ _)).trans (accesses_enter who _ loc false)

/-- What the host's accesses build on stays through any access to memory. -/
theorem Accesses.fields (h : Accesses s u) : u.clock = s.clock ∧ u.snoops = s.snoops ∧ u.hostHolds = s.hostHolds := by
  obtain ⟨_, _, _, _, _, _, _, rfl⟩ := h
  exact ⟨rfl, rfl, rfl⟩

end

/-! ### Name caches, the memory-side cache, errors (R383, R392, R449 to R457) -/

section
variable {s : State}

theorem nameCacheMiss_of_held {tray : Nat} {name : BitVec 6} {t : Tray} (ht : tblGet s.trays tray = some t)
    (held : ∃ e ∈ t.names, e.1 = name.toNat) : exec (.nameCacheMiss tray name) s = .next s := by
  show execNameCacheMiss tray name s = _
  have hit : t.names.any (fun e => e.1 == name.toNat) = true := by simpa using held
  simp only [execNameCacheMiss, ht, Option.map_some, hit, Option.getD_some, if_true]

theorem nameCacheMiss_of_missing {tray : Nat} {name : BitVec 6} {t : Tray} (ht : tblGet s.trays tray = some t)
    (missing : ∀ e ∈ t.names, e.1 ≠ name.toNat) :
    exec (.nameCacheMiss tray name) s =
      .next (cacheName (nameRead s (tray / 3) name.toNat).1 tray name.toNat (nameRead s (tray / 3) name.toNat).2) := by
  show execNameCacheMiss tray name s = _
  have miss : t.names.any (fun e => e.1 == name.toNat) = false := by simpa using missing
  simp only [execNameCacheMiss, ht, Option.map_some, miss, Option.getD_some, Bool.false_eq_true, if_false]

theorem mscWriteback_of_dirty {line : Nat} (free : tblGet s.held (line / 32) = none) (dirty : (tblGet s.hbmOld line).isSome)
    (tracked : inDirtyTable s (128 * line) = false) :
    exec (.mscWriteback line) s = .next (setDirty { s with hbmOld := tblErase s.hbmOld line } (line / 32) true) := by
  show execMscWriteback line s = _
  simp [execMscWriteback, writeBack, free, Option.isNone_eq_false_iff.mpr dirty, tracked]

theorem patrolScrub_eq {line : Nat} (hbm : isHbm (128 * line) = true) (live : (liveSites s).contains (locSite (128 * line)) = true) :
    exec (.patrolScrub line true) s = .next (unitEvent s .hbmRow (128 * line / 1024)
      { kind := 1, unit := 1, site := locSite (128 * line), addr := locAddr (128 * line) / 1024 * 1024 }) ∧
    let site : Nat := locSite (128 * line)
    let addr : Nat := locAddr (128 * line)
    let marked : State := { s with ueUnits := (unitsOf (128 * line) 128).foldl (fun l u => if l.contains u then l else u :: l) s.ueUnits }
    exec (.patrolScrub line false) s = .next (unitEvent
      (recordCrossing (recordEvent marked { kind := 2, unit := 2, site := site, addr := addr })
        { kind := 1, unit := 2, site := site, addr := addr / 2 ^ 21 * 2 ^ 21 })
      .slice (32 * site + Config.sliceOf line % 32) { kind := 1, unit := 3, site := site, index := Config.sliceOf line % 32 }) := by
  constructor
  · show execPatrolScrub line true s = _
    simp only [execPatrolScrub, scrubLine, hbm, live, Bool.not_true, Bool.or_self, Bool.false_eq_true, if_false, if_true]
  · show execPatrolScrub line false s = _
    simp only [execPatrolScrub, scrubLine, hbm, live, Bool.not_true, Bool.or_self, Bool.false_eq_true, if_false]

theorem siteEvents_of_live {site : Nat} (live : (liveSites s).contains site = true) :
    (∀ edge m failed, exec (.flitCrcReplay site edge m failed) s = .next (flitReplay s site edge m failed)) ∧
    (∀ osc, osc < 4 → exec (.oscillatorLockLoss site osc) s =
      .next (unitEvent s .oscillator (4 * site + osc) { kind := 1, unit := 8, site := site, index := osc })) ∧
    exec (.heartbeatSend site) s = .next ((liveNeighbours s site).foldl (fun s n => s.upDie n fun d =>
      { d with heard := tblSet d.heard site (s.clock / 4) }) s) ∧
    exec (.siteLostTimeout site) s = .next (if silent s site then loseWhole s site else s) ∧
    exec (.siteLostDeclared site) s = .next (loseWhole s site) := by
  refine ⟨fun edge m failed => ?_, fun osc small => ?_, ?_, ?_, ?_⟩
  · show execFlitCrcReplay site edge m failed s = _
    rw [execFlitCrcReplay, if_pos live]
  · show execOscillatorLockLoss site osc s = _
    simp only [execOscillatorLockLoss, live, small, decide_true, Bool.and_self, if_true]
  · show execHeartbeatSend site s = _
    rw [execHeartbeatSend, if_pos live]
    rfl
  · show execSiteLostTimeout site s = _
    simp only [execSiteLostTimeout, live, Bool.true_and]
  · show execSiteLostDeclared site s = _
    rw [execSiteLostDeclared, if_pos live]

end

/-! ### The host (R334, R424) -/

section
variable {s : State}

/-- The home takes a read or a write of any length. -/
theorem hostTakes_of_le {kind : Nat} (h : kind ≤ 1) (loc : Nat) (data : List Byte) : hostTakes kind loc data = true := by
  simp [hostTakes, h]

section
variable {off loc l2 : Nat} {data : List Byte} (running : s.phase = .running) (first : hdmLoc s off = some loc)
  (last : hdmLoc s (off + data.length - 1) = some l2)
include running first last

theorem hostAccess_refused {kind : BitVec 3} (refuses : hostTakes kind.toNat loc data = false) :
    exec (.hostAccess kind off data) s = .next { s with outputs := s.outputs ++ [.hostUnsupported] } := by
  show execHostAccess kind off data s = _
  simp only [execHostAccess, running, if_true, first, last, refuses, Bool.not_false]

theorem hostAccess_write : exec (.hostAccess 1 off data) s = .next ((pieces loc data).foldl (fun s p => hostWrite s 1 p.1 p.2) s) := by
  have takes : hostTakes (1 : BitVec 3).toNat loc data = true := hostTakes_of_le (by decide) loc data
  have notRead : (1 : BitVec 3) ≠ 0 := by decide
  show execHostAccess 1 off data s = _
  simp only [execHostAccess, running, if_true, first, last, takes, Bool.not_true, Bool.false_eq_true, if_false, if_neg notRead]

theorem hostAccess_atomic {kind : BitVec 3} (atomic : 2 ≤ kind.toNat) (takes : hostTakes kind.toNat loc data = true) :
    exec (.hostAccess kind off data) s = .next (hostWrite s kind.toNat loc data) := by
  have notRead : kind ≠ 0 := by rintro rfl; exact absurd atomic (by decide)
  have notWrite : kind ≠ 1 := by rintro rfl; exact absurd atomic (by decide)
  show execHostAccess kind off data s = _
  simp only [execHostAccess, running, if_true, first, last, takes, Bool.not_true, Bool.false_eq_true, if_false, if_neg notRead,
    if_neg notWrite]

theorem hostAccess_read (good : (hostLoad s loc data.length).2.bad = false) :
    ∃ u : State, exec (.hostAccess 0 off data) s = .next u ∧
      u.outputs.getLast? = some (.hostData (hostLoad s loc data.length).2.bytes) ∧ u.mem = (hostLoad s loc data.length).1.mem := by
  have takes : hostTakes (0 : BitVec 3).toNat loc data = true := hostTakes_of_le (by decide) loc data
  have bytes : hostBytes s (hostLoad s loc data.length).2 = (hostLoad s loc data.length).2.bytes := by
    rw [hostBytes, good, if_neg Bool.false_ne_true]
  refine ⟨_, show execHostAccess 0 off data s = _ by
    simp only [execHostAccess, running, if_true, first, last, takes, Bool.not_true, Bool.false_eq_true, if_false]; rfl, ?_, ?_⟩
  · rw [List.getLast?_concat, bytes]
  · exact mem_foldl _ _ _ fun s p => mem_holdLine _ _

end

theorem hostWritePerform_waits {n : Nat} {h : HostWrite} (asked : tblGet s.hostWrites n = some h)
    (early : s.clock / 4 < (tblGet s.leases (lineOf h.addr)).getD 0 + 2) : exec (.hostWritePerform n) s = .next s := by
  have waits : passes s ((tblGet s.leases (lineOf h.addr)).getD 0) = false := decide_eq_false (Nat.not_le.mpr early)
  show execHostWritePerform n s = _
  simp only [execHostWritePerform, asked, waits, Bool.false_eq_true, if_false]

theorem hostWritePerform_performs {n : Nat} {h : HostWrite} (asked : tblGet s.hostWrites n = some h)
    (past : (tblGet s.leases (lineOf h.addr)).getD 0 + 2 ≤ s.clock / 4) :
    exec (.hostWritePerform n) s = .next { hostPerform s h with hostWrites := tblErase s.hostWrites n } := by
  have ready : passes s ((tblGet s.leases (lineOf h.addr)).getD 0) = true := decide_eq_true past
  show execHostWritePerform n s = _
  simp only [execHostWritePerform, asked, ready, if_true]

theorem clock_hostLoad (loc n : Nat) : (hostLoad s loc n).1.clock = s.clock :=
  (accesses_loadAt (s := unheld s (lineOf loc)) none loc n).fields.1

/-- A host's write or atomic leaves its line shared, completed at this tick, and answers the host. -/
theorem hostPerform_fields (h : HostWrite) :
    tblGet (hostPerform s h).hostHolds (lineOf h.addr) = some .shared ∧
    tblGet (hostPerform s h).lineC (lineOf h.addr) = some (s.clock / 4) ∧
    (hostPerform s h).outputs.getLast? =
      some (if h.kind = 1 then .hostDone else .hostData (hostBytes s (hostLoad s h.addr (fabSize h.kind h.bytes)).2)) := by
  have clock (v : State) (bs : List Byte) (kept : v.clock = s.clock) :
      (performWrite (conflict (touchGlobal (unheld v (lineOf h.addr)) h.addr) none (lineOf h.addr) true) h.addr bs).1.clock = s.clock :=
    (accesses_write (s := unheld v (lineOf h.addr)) none (lineOf h.addr) h.addr h.addr true bs).fields.1.trans kept
  refine ⟨?_, ?_, ?_⟩
  · simp [hostPerform]
  · simp only [hostPerform, tblGet_tblSet, if_true, ticks]
    rw [clock]
    split_ifs
    · rfl
    · exact clock_hostLoad _ _
  · simp [hostPerform]

theorem birspArrive_unasked {line : Nat} (dirty : List Byte) (h : s.snoops.contains line = false) :
    exec (.birspArrive line dirty) s = .next s := by
  show execBirspArrive line dirty s = _
  simp only [execBirspArrive, h, Bool.not_false, if_true]

/-- R334: the host gives a line up. -/
theorem birspArrive_asked {line : Nat} (dirty : List Byte) (h : s.snoops.contains line = true) :
    ∃ u : State, exec (.birspArrive line dirty) s = .next u ∧ u.snoops.contains line = false ∧ tblGet u.hostHolds line = none ∧
      (dirty = [] → u.mem = s.mem) := by
  let given : State := { unheld s line with snoops := s.snoops.filter (· != line) }
  have ended : given.snoops.contains line = false := by simp [given]
  have free : tblGet given.hostHolds line = none := by simp [given, unheld]
  have answered : exec (.birspArrive line dirty) s = .next (if dirty = [] then given
      else (performWrite (conflict (touchGlobal given (128 * line)) none line true) (128 * line) (dirty.take 128)).1) := by
    show execBirspArrive line dirty s = _
    simp only [execBirspArrive, h, Bool.not_true, Bool.false_eq_true, if_false, given]
  by_cases clean : dirty = []
  · rw [if_pos clean] at answered
    exact ⟨given, answered, ended, free, fun _ => rfl⟩
  · rw [if_neg clean] at answered
    obtain ⟨-, snoops, holds⟩ := (accesses_write (s := given) none line (128 * line) (128 * line) true (dirty.take 128)).fields
    exact ⟨_, answered, by rw [snoops, ended], by rw [holds, free], fun no => absurd no clean⟩

end

/-! ### Peer panels (R419 to R422) -/

section
variable {s : State} {panel asid fa seq : Nat} {kind : BitVec 8} {data : List Byte}

/-- A step that changes nothing and lacks nothing, while no answer of a peer is kept. -/
theorem atOnce_self {t : State} (complete : t.needs = []) (unkept : t.fabGot = []) : atOnce t t = t := by
  have same : { t with fabGot := t.fabGot.filter fun x => !x.used } = t := by
    rw [unkept, List.filter_nil, ← unkept]
  rw [atOnce, if_pos complete, same]

/-- A request with RLX 1 is performed as it arrives. -/
theorem fabricRequestArrive_of_rlx (rlx : fa / 2 ^ 41 % 2 = 1)
    (fresh : s.fabIn.contains { panel := panel, asid := asid, fa := fa, seq := seq, kind := kind.toNat, data := data } = false) :
    let x : FabIn := { panel := panel, asid := asid, fa := fa, seq := seq, kind := kind.toNat, data := data }
    exec (.fabricRequestArrive panel asid fa seq kind data) s = .next (atOnce { s with fabIn := s.fabIn ++ [x] } (fabPerform s x)) := by
  intro x
  have now : (fa / 2 ^ 41 % 2 == 1) = true := beq_iff_eq.mpr rlx
  have absent : x ∉ s.fabIn := fun listed => Bool.false_ne_true (fresh.symm.trans (List.contains_iff_mem.mpr listed))
  have removed : (s.fabIn ++ [x]).erase x = s.fabIn := by simp [List.erase_append_right _ absent]
  have listed : (s.fabIn ++ [x]).contains x = true := by simp
  have tried : fabTry { s with fabIn := s.fabIn ++ [x] } x = fabPerform s x := by
    simp only [fabTry, fabTurn, listed, removed, x, now, Bool.true_or, Bool.and_self, if_true, if_pos rlx]
  show execFabricRequestArrive panel asid fa seq kind data s = _
  rw [← tried]
  simp only [execFabricRequestArrive, now, Bool.not_true, Bool.false_and, Bool.false_eq_true, if_false, if_true, x]

/-- A request that has been performed before is dropped. -/
theorem fabricRequestArrive_of_past (ordered : fa / 2 ^ 41 % 2 = 0) (past : seq < (tblGet s.fabNext (panel * 65536 + asid)).getD 0) :
    exec (.fabricRequestArrive panel asid fa seq kind data) s = .next s := by
  show execFabricRequestArrive panel asid fa seq kind data s = _
  rw [execFabricRequestArrive, ordered]
  exact if_pos (decide_eq_true past)

/-- A stream that lacks its next request goes no further. -/
theorem fabRelease_of_lacking {k : Nat} (lacks : ∀ y ∈ s.fabIn, ¬ (streamKey y.panel y.asid = k ∧ y.seq = (tblGet s.fabNext k).getD 0))
    (fuel : Nat) : fabRelease k fuel s = s := by
  cases fuel with
  | zero => rfl
  | succ fuel =>
    have stuck : (s.fabIn.find? fun x => x.fa / 2 ^ 41 % 2 == 0 && streamKey x.panel x.asid == k && fabTurn s x) = none := by
      refine List.find?_eq_none.mpr fun y listed turn => lacks y listed ?_
      simp only [fabTurn, Bool.and_eq_true, Bool.or_eq_true, beq_iff_eq] at turn
      obtain ⟨⟨ordered, key⟩, rlx | next⟩ := turn
      · omega
      · exact ⟨key, key ▸ next⟩
    simp only [fabRelease, stuck]

/-- A request ahead of its stream waits for its predecessors. -/
theorem fabricRequestArrive_of_ahead (ordered : fa / 2 ^ 41 % 2 = 0) (complete : s.needs = []) (unkept : s.fabGot = [])
    (ahead : (tblGet s.fabNext (panel * 65536 + asid)).getD 0 < seq)
    (lacks : ∀ y ∈ s.fabIn, ¬ (y.panel * 65536 + y.asid = panel * 65536 + asid ∧ y.seq = (tblGet s.fabNext (panel * 65536 + asid)).getD 0)) :
    exec (.fabricRequestArrive panel asid fa seq kind data) s = .next { s with
      fabIn := s.fabIn ++ [{ panel := panel, asid := asid, fa := fa, seq := seq, kind := kind.toNat, data := data }] } := by
  let kept : State := { s with
    fabIn := s.fabIn ++ [{ panel := panel, asid := asid, fa := fa, seq := seq, kind := kind.toNat, data := data }] }
  have waits (fuel : Nat) : fabRelease (streamKey panel asid) fuel kept = kept := by
    refine fabRelease_of_lacking (fun y listed => ?_) fuel
    rcases List.mem_append.mp listed with before | new
    · exact lacks y before
    · rw [List.mem_singleton.mp new]
      exact fun next => absurd next.2 (Nat.ne_of_gt ahead)
  have later : ¬ seq < (tblGet s.fabNext (streamKey panel asid)).getD 0 := Nat.not_lt.mpr ahead.le
  show execFabricRequestArrive panel asid fa seq kind data s = .next kept
  simp only [execFabricRequestArrive, ordered, later, decide_false, Bool.and_false, Bool.false_eq_true, if_false]
  rw [if_neg (by decide)]
  exact congrArg _ ((congrArg _ (waits _)).trans (atOnce_self complete unkept))

/-- The end of a request of our own that has left. -/
theorem fabricEnds {n : Nat} {r : FabReq} (asked : tblGet s.fabOut n = some r) (sent : r.sent = true) :
    (∀ t data refused, exec (.fabricAck n t data refused) s = .next (endRequest s n r (some t) data refused)) ∧
    (r.tick + 768000 ≤ s.clock / 4 → exec (.fabricTimeout n) s = .next (endRequest s n r none [] true)) ∧
    (s.clock / 4 < r.tick + 768000 → exec (.fabricTimeout n) s = .next s) := by
  refine ⟨fun t data refused => ?_, fun late => ?_, fun early => ?_⟩
  · show execFabricAck n t data refused s = _
    simp only [execFabricAck, asked, sent, if_true]
  · show execFabricTimeout n s = _
    simp only [execFabricTimeout, asked, sent, ticks, late, decide_true, Bool.and_self, if_true]
  · show execFabricTimeout n s = _
    simp only [execFabricTimeout, asked, ticks, Nat.not_le.mpr early, decide_false, Bool.and_false, Bool.false_eq_true, if_false]

theorem hostPortTraining_eq :
    exec (.hostPortTraining 0 false) s = .next { s with ports := s.ports.filter (· != 0) } ∧
    ∃ u : State, exec (.hostPortTraining 2 true) s = .next u ∧ u.ports.contains 2 = true ∧
      (u.ports.contains 0 = true ↔ s.ports.contains 0 = true) :=
  ⟨rfl, _, rfl, by simp, by simp⟩

end

end Sys2Proof.Laws.Package

namespace Sys2Proof

open Machine Laws.Package

/-- Settles O58: each event under its condition, from the lemmas of the memory system, the errors, the host and the fabric. -/
theorem packageEvents : Obligations.PackageEvents := by
  unfold Obligations.PackageEvents
  intro s
  refine ⟨fun tray name t ht => ⟨nameCacheMiss_of_held ht, nameCacheMiss_of_missing ht⟩,
    fun line free dirty tracked => mscWriteback_of_dirty free dirty tracked, fun block => rfl,
    fun line hbm live => patrolScrub_eq hbm live, fun site live => siteEvents_of_live live,
    ?hostAccess, ?hostWrites, ?snoops, ?requests, fun n r asked sent => fabricEnds asked sent, rfl, hostPortTraining_eq⟩
  case hostAccess =>
    intro off data loc l2 running first last
    exact ⟨hostAccess_write running first last, hostAccess_read running first last,
      fun kind atomic => ⟨hostAccess_atomic running first last atomic, hostAccess_refused running first last⟩⟩
  case hostWrites =>
    intro n h asked
    refine ⟨hostWritePerform_waits asked, fun past => ⟨_, hostWritePerform_performs asked past, ?_⟩⟩
    obtain ⟨shared, completed, answer⟩ := hostPerform_fields (s := s) h
    refine ⟨by simp, shared, completed, fun write => ?_, fun atomic => ?_⟩
    · exact answer.trans (by rw [if_pos write])
    · exact answer.trans (by rw [if_neg atomic])
  case snoops => exact fun line dirty => ⟨birspArrive_unasked dirty, birspArrive_asked dirty⟩
  case requests =>
    intro panel asid fa seq kind data complete
    exact ⟨fabricRequestArrive_of_rlx, fabricRequestArrive_of_past,
      fun ordered ahead unkept lacks => fabricRequestArrive_of_ahead ordered complete unkept ahead lacks⟩

end Sys2Proof

/-! ## Work queues (R344 to R357, R384, R440, R455) -/

namespace Sys2Proof.Laws.Packets

open Machine Laws.Fencing

/-! ### The beginning of a packet (R351 to R354) -/

/-- Queue q is the one that its die's engine takes in a package that runs, and p its next packet. -/
structure Begins (s s1 : State) (q site : Nat) (p : NextPacket) : Prop where
  running : s.phase = .running
  serving : servingSite s q = some site
  ready : viewQueue s site q = (s1, .ready p)
  chosen : chosenQueue s site = some q

/-- The address of a queue's header in its table entry. -/
def headerOf (s : State) (site q : Nat) : Nat := ((queueEntry s site q).map (·.hdr)).getD 0

/-- The state in which the engine has read packet p and written its first word to 0. -/
def afterTake (s s1 : State) (q site : Nat) (p : NextPacket) : State :=
  takePacket (queuePages s1 site p.ctx (headerOf s site q) p.slotVa) p

/-- The state in which the effect of packet p starts. -/
def entered (s s1 : State) (q site : Nat) (p : NextPacket) : State := enterPacket (afterTake s s1 q site p) site q p

/-- What the effect of packet p works with. -/
def jobOf (s s1 : State) (q site : Nat) (p : NextPacket) : Job :=
  { pkt := (afterTake s s1 q site p).fresh, site := site, ctx := p.ctx, queue := q, at_ := p.num, bytes := p.bytes }

section
variable {s s1 : State} {q site kind : Nat} {p : NextPacket} {run : State → Job → Except PktFail State} (begins : Begins s s1 q site p)
include begins

/-- An event of a kind takes the next packet where it is of that kind, or of none of R353. -/
theorem packetEvent_of_begins (fits : packetKind (bytesNum p.bytes 0 4) = kind ∨ 10 ≤ packetKind (bytesNum p.bytes 0 4)) :
    let taken := afterTake s s1 q site p
    let rejected (c : Nat) : State := queueError taken site q p.ctx (headerOf s site q) p.num (headSlot s p.head p.num) c
    packetEvent s q kind run = .next (match rejectCode s site p with
      | some c => rejected c
      | none =>
        match run (entered s s1 q site p) (jobOf s s1 q site p) with
        | .ok v => v
        | .error f => if f.needs = [] then rejected f.code else { s with needs := f.needs }) := by
  obtain ⟨running, serving, ready, chosen⟩ := begins
  have taken : ¬ (chosenQueue s site ≠ some q || packetKind (bytesNum p.bytes 0 4) ≠ kind && packetKind (bytesNum p.bytes 0 4) < 10) := by
    simp only [chosen, ne_eq, not_true_eq_false, decide_false, Bool.false_or, Bool.and_eq_true, decide_eq_true_eq]
    omega
  simp only [packetEvent, if_pos running, beginPacket, serving, ready]
  exact congrArg _ (if_neg taken)

theorem packetEvent_of_rejected {c : Nat} (rejected : rejectCode s site p = some c)
    (fits : packetKind (bytesNum p.bytes 0 4) = kind ∨ 10 ≤ packetKind (bytesNum p.bytes 0 4)) :
    packetEvent s q kind run =
      .next (queueError (afterTake s s1 q site p) site q p.ctx (headerOf s site q) p.num (headSlot s p.head p.num) c) := by
  rw [packetEvent_of_begins begins fits, rejected]

theorem packetEvent_of_ok {v : State} (legal : rejectCode s site p = none) (fits : packetKind (bytesNum p.bytes 0 4) = kind)
    (ran : run (entered s s1 q site p) (jobOf s s1 q site p) = .ok v) : packetEvent s q kind run = .next v := by
  rw [packetEvent_of_begins begins (.inl fits), legal, ran]

/-- The JCTL event that acts on a packet: the one of its operation, and each of them where it has none. -/
theorem jctlNext_of_begins (op : Nat) : jctlNext s q op = true ↔ packetKind (bytesNum p.bytes 0 4) ≠ 7 ∨
    bytesNum p.bytes 16 4 = op ∨ 2 < bytesNum p.bytes 16 4 := by
  simp only [jctlNext, begins.serving, Option.map_some, begins.ready, Bool.or_eq_true, bne_iff_ne, beq_iff_eq, decide_eq_true_eq, or_assoc]

theorem jctlEvent_of_rejected {c op : Nat} (rejected : rejectCode s site p = some c) (jctl : packetKind (bytesNum p.bytes 0 4) = 7)
    (fits : bytesNum p.bytes 16 4 = op ∨ 2 < bytesNum p.bytes 16 4) :
    jctlEvent s q op run =
      .next (queueError (afterTake s s1 q site p) site q p.ctx (headerOf s site q) p.num (headSlot s p.head p.num) c) :=
  (if_pos ((jctlNext_of_begins begins op).mpr (.inr fits))).trans (packetEvent_of_rejected begins rejected (.inl jctl))

theorem jctlEvent_of_ok {v : State} {op : Nat} (legal : rejectCode s site p = none) (jctl : packetKind (bytesNum p.bytes 0 4) = 7)
    (asked : bytesNum p.bytes 16 4 = op) (ran : run (entered s s1 q site p) (jobOf s s1 q site p) = .ok v) :
    jctlEvent s q op run = .next v :=
  (if_pos ((jctlNext_of_begins begins op).mpr (.inr (.inl asked)))).trans (packetEvent_of_ok begins legal jctl ran)

theorem jctlEvent_of_other {op : Nat} (jctl : packetKind (bytesNum p.bytes 0 4) = 7) (known : bytesNum p.bytes 16 4 < 3)
    (other : op ≠ bytesNum p.bytes 16 4) : jctlEvent s q op run = .next s := by
  refine if_neg fun acts => ?_
  have := (jctlNext_of_begins begins op).mp acts
  omega

end

/-- The instructions of the three operations are JCTL events. -/
theorem jctlEvent_of_lt {op : Nat} (known : op < 3) (s : State) (q : Nat) : ∃ run,
    exec (if op = 0 then .jctlExport q else if op = 1 then .jctlRestart q else .jctlForget q) s = jctlEvent s q op run := by
  match op, known with
  | 0, _ => exact ⟨runExport, rfl⟩
  | 1, _ => exact ⟨runRestart, rfl⟩
  | 2, _ => exact ⟨runForget, rfl⟩

/-! ### What the kinds do (R353, R384) -/

section
variable {s v v1 v2 v3 v4 : State} {j : Job} {bs : List Byte} {c : Nat}

/-- A copy whose ranges are disjoint writes what it read. -/
theorem copied_of_disjoint {src dst n : Nat} {other : Nat → Byte} (disjoint : ∀ i < n, ¬ (src ≤ dst + i ∧ dst + i < src + n))
    (len : bs.length = n) :
    ((List.range n).map fun i => if decide (src ≤ dst + i) && decide (dst + i < src + n) then other (dst + i) else bs.getD i 0) = bs := by
  subst len
  refine List.ext_getElem (by simp) fun i inRange stored => ?_
  have outside : ¬ (decide (src ≤ dst + i) && decide (dst + i < src + bs.length)) = true := by
    simpa only [Bool.and_eq_true, decide_eq_true_eq] using disjoint i stored
  rw [List.getElem_map, List.getElem_range, if_neg outside, List.getD_eq_getElem _ _ stored]

theorem runCopy_of_disjoint (source : probeRange s j.who (j.num 24 8) (j.num 32 8) false = (v1, none))
    (target : probeRange v1 j.who (j.num 16 8) (j.num 32 8) true = (v2, none))
    (read : engRead v2 j.who (j.num 24 8) (j.num 32 8) = (v3, .ok bs))
    (disjoint : ∀ i < j.num 32 8, ¬ (j.num 24 8 ≤ j.num 16 8 + i ∧ j.num 16 8 + i < j.num 24 8 + j.num 32 8))
    (len : bs.length = j.num 32 8) (written : engWrite v3 j.who (j.num 16 8) bs = (v4, .ok c)) :
    runCopy s j = .ok (finishPacket v4 j.pkt c) := by
  simp only [runCopy, source, target, read, copied_of_disjoint disjoint len, written]

theorem runSignal_of_add {x : Nat} (adds : j.num 32 1 = 1) (added : engAdd s j.who (j.num 16 8) (j.num 24 8) = (v, .ok (x, c))) :
    runSignal s j = .ok (finishPacket v j.pkt c) := by
  simp only [runSignal, if_pos adds, added, Except.map]

theorem runSignal_of_store (stores : j.num 32 1 = 0) (written : engWriteNum s j.who (j.num 16 8) 8 (j.num 24 8) = (v, .ok c)) :
    runSignal s j = .ok (finishPacket v j.pkt c) := by
  simp only [runSignal, stores, if_neg Nat.zero_ne_one, written]

theorem runBind_of_block {b : Nat} (block : nameBlock s j.site = some b) :
    let v := storeNum s none (b + 8 * j.num 16 1) 8 (j.num 24 8)
    runBind s j = .ok (finishPacket { v with
      trays := v.trays.map fun e => (e.1, { e.2 with names := e.2.names.filter fun n => n.1 != j.num 16 1 }) } j.pkt 0) := by
  simp only [runBind, block]

theorem runTdset_of_ok (read : engRead s j.who (j.num 32 8) (64 * j.num 28 4) = (v1, .ok bs))
    (written : engWrite v1 j.who (j.num 16 8 + 64 * j.num 24 4) bs = (v2, .ok c)) :
    runTdset s j = .ok (finishPacket { v2 with
      dies := v2.dies.map fun e => (e.1, dropDescs (asidOf v2 j.site j.ctx) (j.num 16 8 + 64 * j.num 24 4)
        (j.num 16 8 + 64 * j.num 24 4 + 64 * j.num 28 4) e.2) } j.pkt c) := by
  simp only [runTdset, read, written]

end

/-! ### WAITMEM (R353, R357) -/

/-- The condition that COND names between the word that is read and the packet's value. -/
def Met (cond x value : Nat) : Prop :=
  match cond with
  | 0 => x = value
  | 1 => x ≠ value
  | 2 => value ≤ x
  | _ => x < value

theorem condHolds_iff (cond x value : Nat) : condHolds cond x value = true ↔ Met cond x value := by
  match cond with
  | 0 => exact beq_iff_eq
  | 1 => exact bne_iff_ne
  | 2 => exact decide_eq_true_iff
  | n + 3 => exact decide_eq_true_iff

/-- The watched word lies in memory, on a LOCAL or INTERLEAVE page, and reads without an error. -/
theorem readWaitmem_of_read {s v : State} {j : Job} {t : Phys} {loc : Nat} (page : engTranslate s j.who (j.num 16 8) false = (v, .ok t))
    (memory : t.target = .mem loc) (plain : t.attr ≤ 1) (good : (loadAt v none loc 8).2.bad = false) :
    let r := loadAt v none loc 8
    (Met (j.num 32 1) (leNat r.2.bytes) (j.num 24 8) → readWaitmem s j = .ok (finishPacket r.1 j.pkt r.2.ctime)) ∧
    (¬ Met (j.num 32 1) (leNat r.2.bytes) (j.num 24 8) → readWaitmem s j = .ok r.1) := by
  intro r
  obtain ⟨attr, target, asid, vblock, writable⟩ := t
  obtain rfl : target = .mem loc := memory
  have answer : readWaitmem s j =
      if condHolds (j.num 32 1) (leNat r.2.bytes) (j.num 24 8) then .ok (finishPacket r.1 j.pkt r.2.ctime) else .ok r.1 := by
    simp only [readWaitmem, page, if_neg (Nat.not_lt.mpr plain), good, Bool.false_eq_true, if_false, r]
  rw [answer]
  exact ⟨fun met => if_pos ((condHolds_iff ..).mpr met), fun unmet => if_neg (mt (condHolds_iff ..).mp unmet)⟩

/-- The wake reads the word again for a WAITMEM that is not done. -/
theorem waitmemMonitorWake_of_ok {s v : State} {n : Nat} {k : Packet} (open_ : tblGet s.packets n = some k) (waits : k.kind = 3)
    (unfinished : k.finished = false)
    (read : readWaitmem s { pkt := n, site := k.site, ctx := k.ctx, queue := k.queue, at_ := k.num, bytes := k.body } = .ok v) :
    exec (.waitmemMonitorWake n) s = .next v := by
  show execWaitmemMonitorWake n s = _
  simp only [execWaitmemMonitorWake, open_, waits, unfinished, and_self, if_true, read]

/-! ### Completion (R355) -/

section
variable {s : State} {n : Nat} {k : Packet} (open_ : tblGet s.packets n = some k)
include open_

theorem packetComplete_waits (early : k.finished = false ∨ s.clock / 4 < k.ctime + 2) : exec (.packetComplete n) s = .next s := by
  have waits : ¬ (k.finished && passes s k.ctime) = true := by
    rw [Bool.and_eq_true, passes_iff]
    rintro ⟨finished, past⟩
    rcases early with unfinished | before
    · exact Bool.false_ne_true (unfinished.symm.trans finished)
    · omega
  show execPacketComplete n s = _
  simp only [execPacketComplete, open_, Bool.eq_false_iff.mpr waits, Bool.false_and, Bool.false_eq_true, if_false]

theorem packetComplete_completes (finished : k.finished = true) (past : k.ctime + 2 ≤ s.clock / 4) (noShootdown : k.kind ≠ 9) :
    exec (.packetComplete n) s = .next (completePacket s n k) := by
  show execPacketComplete n s = _
  simp only [execPacketComplete, open_, finished, passes_iff.mpr past, beq_false_of_ne noShootdown, Bool.false_and, Bool.not_false,
    Bool.and_self, if_true]

end

theorem completePacket_of_no_word {s : State} {k : Packet} (n : Nat) (none_ : k.caddr = 0) :
    completePacket s n k = { s with packets := tblErase s.packets n } := by
  simp only [completePacket, none_, decide_true, Bool.true_or, if_true]

theorem completePacket_of_word {s v : State} {k : Packet} {n : Nat} {x : Nat × Nat} (word : k.caddr ≠ 0)
    (sound : ctxFlags s k.site k.ctx / 16 % 2 = 0) (kept : s.discarding.contains k.ctx = false)
    (added : engAdd { s with packets := tblErase s.packets n } (packetWho k.site k.ctx k.queue k.num) k.caddr.toNat 1 = (v, .ok x)) :
    completePacket s n k = v := by
  have raises : ¬ (decide (k.caddr = 0) || ctxFlags s k.site k.ctx / 16 % 2 == 1 || s.discarding.contains k.ctx) = true := by
    rw [decide_eq_false word, sound, kept]
    exact Bool.false_ne_true
  exact (if_neg raises).trans (by rw [added])

end Sys2Proof.Laws.Packets

namespace Sys2Proof

open Machine Laws.Packets

/-- Settles O56: a chosen queue's packet begins or is rejected, each kind's effect, and the completion of a packet that is done. -/
theorem packetsRun : Obligations.PacketsRun := by
  intro s s1 q site p running serving ready chosen kind hdr taken u j who done f jctl
  have begins : Begins s s1 q site p := ⟨running, serving, ready, chosen⟩
  refine ⟨fun i kinds c rejected => ?rejects, fun legal => ?runs, fun n k open_ =>
    ⟨packetComplete_waits open_, fun finished past noShootdown => ⟨fun none_ => ?noWord, fun word sound kept v x added => ?word⟩,
      fun waits unfinished v => waitmemMonitorWake_of_ok open_ waits unfinished⟩⟩
  case rejects =>
    rcases kinds with ⟨fits, rfl⟩ | ⟨fits, rfl⟩ | ⟨fits, rfl⟩ | ⟨fits, rfl⟩ | ⟨fits, rfl⟩ | ⟨fits, rfl⟩ | ⟨fits, rfl⟩ | ⟨fits, rfl⟩ |
      ⟨fits, rfl⟩ | ⟨unknown, rfl⟩ | ⟨fits, op, known, asked, rfl⟩
    iterate 9 exact packetEvent_of_rejected begins rejected (.inl fits)
    · exact packetEvent_of_rejected begins rejected (.inr unknown)
    · obtain ⟨run, acts⟩ := jctlEvent_of_lt known s q
      exact acts.trans (jctlEvent_of_rejected begins rejected fits asked)
  case runs =>
    refine ⟨fun fits => packetEvent_of_ok begins legal fits rfl, fun fits v => packetEvent_of_ok begins legal fits,
      fun fits v1 v2 v3 v4 bs c source target read disjoint len written =>
        packetEvent_of_ok begins legal fits (runCopy_of_disjoint (j := j) source target read disjoint len written),
      fun fits v t loc page memory plain good => ?waitmem,
      fun fits adds v x c added => packetEvent_of_ok begins legal fits (runSignal_of_add (j := j) adds added),
      fun fits stores v c written => packetEvent_of_ok begins legal fits (runSignal_of_store (j := j) stores written),
      fun fits b block => packetEvent_of_ok begins legal fits (runBind_of_block (j := j) block),
      fun fits v => packetEvent_of_ok begins legal fits, fun fits known => ?jctl,
      fun fits v1 v2 bs c read written => packetEvent_of_ok begins legal fits (runTdset_of_ok (j := j) read written),
      fun fits => packetEvent_of_ok begins legal fits rfl⟩
    case waitmem =>
      obtain ⟨met, unmet⟩ := readWaitmem_of_read (j := j) page memory plain good
      exact ⟨fun holds => packetEvent_of_ok begins legal fits (met holds), fun fails => packetEvent_of_ok begins legal fits (unmet fails)⟩
    case jctl =>
      refine ⟨fun v => jctlEvent_of_ok begins legal fits, fun v => jctlEvent_of_ok begins legal fits,
        fun v => jctlEvent_of_ok begins legal fits, fun op below other => ?_⟩
      obtain ⟨run, acts⟩ := jctlEvent_of_lt below s q
      exact acts.trans (jctlEvent_of_other begins fits known other)
  case noWord => exact (packetComplete_completes open_ finished past noShootdown).trans (congrArg _ (completePacket_of_no_word n none_))
  case word => exact (packetComplete_completes open_ finished past noShootdown).trans (congrArg _ (completePacket_of_word word sound kept added))

end Sys2Proof

/-! ## Records, emissions, frames and collectives (R402 to R418, R433 to R446) -/

namespace Sys2Proof.Laws.Deliveries

open Machine Laws.Fencing Laws.HomeWrites Laws.Package

/-! ### The journal (R433 to R436) -/

section
variable {s : State} {site : Nat} {d : Die} (hd : tblGet s.dies site = some d)
include hd

section
variable {n p : Nat} {r : ShadowRec} (partner : d.fixer.partner = some p) (shadowed : tblGet d.fixer.shadow n = some r)
include partner shadowed

/-- R433, R434: the record stands in the contact log of the partner, and the shadow holds it as arrived. -/
theorem contactLogRecordArrive_of_room {d2 : Die} (apart : p ≠ site) (hp : tblGet s.dies p = some d2)
    (live : (liveSites s).contains p = true) (room : d2.log.length < contactLogSize) (steady : d.fixer.resending = false)
    (inside : inShadow d.fixer.shadow n r = true) (waits : r.arrived = false) :
    ∃ (u : State) (e e2 : Die), exec (.contactLogRecordArrive site n) s = .next u ∧ tblGet u.dies site = some e ∧
      tblGet u.dies p = some e2 ∧ e2.log = d2.log ++ [r.record] ∧ tblGet e.fixer.shadow n = some { r with arrived := true } ∧
      u.mem = s.mem := by
  let logged : State := s.upDie p fun q => { q with log := q.log ++ [r.record] }
  have own : tblGet logged.dies site = some d := by simp [logged, State.upDie, apart, hd]
  have other : tblGet logged.dies p = some { d2 with log := d2.log ++ [r.record] } := by simp [logged, State.upDie, hp]
  have performed : exec (.contactLogRecordArrive site n) s = .next (logged.upDie site fun d =>
      { d with fixer := { d.fixer with shadow := tblUp d.fixer.shadow n fun r => { r with arrived := true } } }) := by
    show execContactLogRecordArrive site n s = _
    simp only [execContactLogRecordArrive, hd, partner, shadowed, hp, live, room, steady, inside, waits, decide_true, Bool.and_self,
      Bool.not_true, Bool.or_self, Bool.false_and, Bool.false_eq_true, if_false, logged]
  refine ⟨_, { d with fixer := { d.fixer with shadow := tblUp d.fixer.shadow n fun r => { r with arrived := true } } },
    { d2 with log := d2.log ++ [r.record] }, performed, ?_, ?_, rfl, ?_, rfl⟩
  · simp [State.upDie, own]
  · simp [State.upDie, apart.symm, other]
  · simp [shadowed]

/-- R434: the acknowledgement of a record that opens or emits lowers its operation and frees its emission; it frees no record. -/
theorem journalRecordAck_of_kind_lt (arrived : r.arrived = true) (unacked : r.acked = false) (kind : r.record.kind < 2) {v : State}
    (hv : v = (if r.op = 0 then s else lowerSeq s r.group r.op).upDie site fun d =>
      { d with fixer := { d.fixer with shadow := tblUp d.fixer.shadow n fun r => { r with acked := true, op := 0 } } }) :
    exec (.journalRecordAck site n) s = .next { v with emissions := v.emissions.map fun e =>
      if e.2.rnum = n ∧ e.2.site = site then (e.1, { e.2 with recordAcked := true }) else e } := by
  subst hv
  have unordered : decide (2 ≤ r.record.kind) = false := decide_eq_false (Nat.not_le.mpr kind)
  show execJournalRecordAck site n s = _
  simp only [execJournalRecordAck, hd, partner, shadowed, arrived, unacked, unordered, kind, decide_true, Bool.not_true, Bool.or_self,
    Bool.false_and, Bool.true_or, Bool.false_eq_true, if_false, if_true]

end

theorem partnerLost_of_lost {p : Nat} (partner : d.fixer.partner = some p) (lost : d.lost.getLsbD p = true)
    (live : (liveSites s).contains site = true) : exec (.partnerLost site) s = .next (takePartner s site) := by
  show execPartnerLost site s = _
  simp only [execPartnerLost, hd, partner, lost, live, Bool.and_self, if_true]

theorem partnerResendDone_of_acked (resending : d.fixer.resending = true) (acked : ∀ e ∈ d.fixer.shadow, e.2.acked = true) :
    exec (.partnerResendDone site) s = .next (s.upDie site fun d => { d with fixer := { d.fixer with resending := false } }) := by
  have every : (d.fixer.shadow.all fun e => e.2.acked) = true := List.all_eq_true.mpr acked
  show execPartnerResendDone site s = _
  simp only [execPartnerResendDone, hd, resending, every, Bool.and_self, if_true]

end

/-! ### An emission on its way to its sink (R244, R403, R439) -/

section
variable {s u : State} {n : Nat} {e : Emission} (he : tblGet s.emissions n = some e)
include he

theorem sinkEmissionArrive_of_held (held : maySend s n e = false) : exec (.sinkEmissionArrive n) s = .next s := by
  show execSinkEmissionArrive n s = _
  simp only [execSinkEmissionArrive, he, held, Bool.not_false, if_true]

section
variable {b : NameBind} (named : resolveName s (engineWho e.site e.ctx) (emName e) = (u, .ok b))
include named

section
variable (may : maySend s n e = true)
include may

theorem sinkEmissionArrive_of_no_sink (none_ : findSink u (emName e) e.ctx (emSink e) = none) :
    exec (.sinkEmissionArrive n) s = .next (endEmission u n e (some { code := 0x2A, info := small (emName e) })) := by
  show execSinkEmissionArrive n s = _
  simp only [execSinkEmissionArrive, he, may, named, none_, Bool.not_true, Bool.false_eq_true, if_false]

theorem sinkEmissionArrive_of_sink {k : Nat} {x : Sink} (found : findSink u (emName e) e.ctx (emSink e) = some (k, x)) :
    exec (.sinkEmissionArrive n) s = .next (if x.raster then requeue u n { e with sent := true } else dedupArrive u n e k x) := by
  show execSinkEmissionArrive n s = _
  simp only [execSinkEmissionArrive, he, may, named, found, Bool.not_true, Bool.false_eq_true, if_false]

end

/-- R403: emissions of one sequence reach their raster sink in token order. -/
theorem rasterPacketArrive_of_first (sent : e.sent = true) (onWay : e.atSink = false)
    (first : ∀ y ∈ s.emissions, y.1 < n → ¬ (y.2.sent = true ∧ y.2.atSink = false ∧ y.2.record.seqid = e.record.seqid ∧ y.2.ctx = e.ctx ∧
      emName y.2 = emName e ∧ emSink y.2 = emSink e)) {k : Nat} {x : Sink}
    (found : findSink u (emName e) e.ctx (emSink e) = some (k, x)) (raster : x.raster = true) :
    exec (.rasterPacketArrive n) s = .next (packetArrives u n e k x) := by
  have noneBefore : (s.emissions.any fun y => decide (y.1 < n) && y.2.sent && !y.2.atSink && y.2.record.seqid == e.record.seqid &&
      y.2.ctx == e.ctx && emName y.2 == emName e && emSink y.2 == emSink e) = false := by
    refine List.any_eq_false.mpr fun y listed before => ?_
    simp only [Bool.and_eq_true, decide_eq_true_eq, Bool.not_eq_true', beq_iff_eq] at before
    obtain ⟨⟨⟨⟨⟨⟨earlier, sent⟩, onWay⟩, seqid⟩, ctx⟩, name⟩, sink⟩ := before
    exact first y listed earlier ⟨sent, onWay, seqid, ctx, name, sink⟩
  show execRasterPacketArrive n s = _
  simp only [execRasterPacketArrive, he, sent, onWay, noneBefore, named, found, raster, Bool.not_true, Bool.or_self, Bool.false_eq_true,
    if_false, if_true]

end
end

/-! ### Ring sinks (R438) -/

/-- Emission n is the oldest that ring sink x has accepted, and its die name resolves to b. -/
structure HeadsRing (s u : State) (n : Nat) (e : Emission) (k : Nat) (x : Sink) (b : NameBind) : Prop where
  emission : tblGet s.emissions n = some e
  sink : findSink s (emName e) e.ctx (emSink e) = some (k, x)
  ring : x.raster = false
  accepted : e.atSink = true
  oldest : ∀ y ∈ s.emissions, y.1 < n → ¬ (y.2.atSink = true ∧ emName y.2 = emName e ∧ emSink y.2 = emSink e ∧ y.2.ctx = e.ctx)
  named : resolveName s (engineWho e.site e.ctx) (emName e) = (u, .ok b)

/-- The address of an emission's ring in its sink. -/
def ringAt (x : Sink) (e : Emission) : Nat := x.base.toNat + emName e * (128 + 64 * x.slots)

section
variable {s u v : State} {n k wi : Nat} {e : Emission} {x : Sink} {b : NameBind} (heads : HeadsRing s u n e k x b)
  (index : engReadNum u (engineWho b.site e.ctx) (ringAt x e) 8 = (v, .ok wi))
include heads

/-- The test of the model that `HeadsRing.oldest` passes. -/
theorem HeadsRing.first_eq_true : (s.emissions.all fun y =>
    decide (n ≤ y.1) || !(y.2.atSink && emName y.2 == emName e && emSink y.2 == emSink e && y.2.ctx == e.ctx)) = true := by
  refine List.all_eq_true.mpr fun y listed => ?_
  rcases Nat.lt_or_ge y.1 n with before | after
  · have other := heads.oldest y listed before
    simpa only [Bool.or_eq_true, decide_eq_true_eq, Nat.not_le.mpr before, false_or, Bool.not_eq_true', ← Bool.not_eq_true,
      Bool.and_eq_true, beq_iff_eq, and_assoc] using other
  · rw [decide_eq_true after, Bool.true_or]

include index

/-- A slot that is written waits until its write is visible; then the write index moves on, as a release. -/
theorem ringSinkDeliver_of_written (written : e.written = true) :
    exec (.ringSinkDeliver n) s = .next (if e.relChz.getD 0 + 2 ≤ v.clock / 4
      then endEmission (engWriteNum v (engineWho b.site e.ctx) (ringAt x e) 8 (wi + 1)).1 n e none else v) := by
  have first := heads.first_eq_true
  obtain ⟨emission, sink, ring, accepted, -, named⟩ := heads
  unfold ringAt at index ⊢
  show execRingSinkDeliver n s = _
  simp only [execRingSinkDeliver, emission, sink, ring, accepted, first, named, index, written, passes_iff, Bool.not_true, Bool.or_self,
    Bool.false_eq_true, if_false, if_true]

section
variable {v2 : State} {ri : Nat} (unwritten : e.written = false)
  (readIndex : engReadNum v (engineWho b.site e.ctx) (ringAt x e + 64) 8 = (v2, .ok ri))
include unwritten readIndex

theorem ringSinkDeliver_of_full (full : x.slots ≤ wi - ri) : exec (.ringSinkDeliver n) s = .next v2 := by
  have first := heads.first_eq_true
  obtain ⟨emission, sink, ring, accepted, -, named⟩ := heads
  unfold ringAt at index readIndex
  show execRingSinkDeliver n s = _
  simp only [execRingSinkDeliver, emission, sink, ring, accepted, first, named, index, readIndex, unwritten, full, Bool.not_true,
    Bool.or_self, Bool.false_eq_true, if_false, if_true]

theorem ringSinkDeliver_of_room (room : wi - ri < x.slots) {v3 : State} {c : Nat}
    (wrote : engWrite v2 (engineWho b.site e.ctx) (ringAt x e + 128 + 64 * (wi % x.slots)) (slotBytes e) = (v3, .ok c)) :
    exec (.ringSinkDeliver n) s =
      .next { v3 with emissions := tblSet v3.emissions n { e with written := true, relChz := some c } } := by
  have first := heads.first_eq_true
  obtain ⟨emission, sink, ring, accepted, -, named⟩ := heads
  unfold ringAt at index readIndex wrote
  show execRingSinkDeliver n s = _
  simp only [execRingSinkDeliver, emission, sink, ring, accepted, first, named, index, readIndex, wrote, unwritten,
    Nat.not_le.mpr room, Bool.not_true, Bool.or_self, Bool.false_eq_true, if_false]

end
end

/-! ### Replay (R245, R441) -/

theorem forcedRecordFetch_of_pending {s : State} {n slot l : Nat} {g : Group} {gr : Grid} {x : SeqSlot} {e : SeqLane}
    (hg : tblGet s.groups n = some g) (grid : gridOf s g = some gr) (hx : seqSlot s g slot = some x)
    (he : tblGet x.lanes l = some e) (pending : e.pending = true) {r : State × Option (List Byte)}
    (looked : lookupRecord s (engineWho (siteOf s g) (ctxOf s g)) gr.launch.seqlog.toNat e.seqid e.next.toNat = r) :
    exec (.forcedRecordFetch n slot l) s = .next (if e.opener = 0 then r.1.upSlot g.team slot (upLane l (forceLane r.2))
      else lowerSeq (r.1.upSlot g.team slot (upLane l (forceLane r.2))) n e.opener) := by
  show execForcedRecordFetch n slot l s = _
  simp only [execForcedRecordFetch, hg, grid, hx, Option.bind_some, he, pending, Option.map_some, Option.getD_some, looked,
    Bool.not_true, Bool.false_eq_true, if_false]

/-! ### Drawing leaves the sinks (R406 to R408)

Rasterising a packet reads and writes memory through its die's engine alone, so the sinks stay as they are: each function that such an
access goes through is met once. -/

section
variable {s u : State}

theorem sinks_of_accesses (h : Accesses s u) : u.sinks = s.sinks := by
  obtain ⟨_, _, _, _, _, _, _, rfl⟩ := h
  rfl

/-- The state of an answer r that is known to be (u, x). -/
theorem sinks_of_eq {β : Type} {r : State × β} {x : β} (answer : r = (u, x)) (kept : r.1.sinks = s.sinks) : u.sinks = s.sinks := by
  rwa [answer] at kept

theorem sinks_foldl_fst {α β : Type} (f : State × β → α → State × β) (l : List α) (r : State × β)
    (hf : ∀ r a, (f r a).1.sinks = r.1.sinks) : (l.foldl f r).1.sinks = r.1.sinks :=
  List.foldlRecOn (motive := fun t => t.1.sinks = r.1.sinks) l f rfl fun t ht a _ => (hf t a).trans ht

@[simp] theorem sinks_upDie (n : Nat) (f : Die → Die) : (s.upDie n f).sinks = s.sinks := rfl

theorem sinks_storePiece (who : Option Nat) (loc : Nat) (bs : List Byte) : (storePiece s who loc bs).1.sinks = s.sinks :=
  sinks_of_accesses ((Accesses.of_rewrites (rewrites_needLine _ true)).trans (accesses_write who _ loc loc true bs))

@[simp] theorem sinks_storeAt (who : Option Nat) (loc : Nat) (bs : List Byte) : (storeAt s who loc bs).1.sinks = s.sinks :=
  sinks_foldl_fst _ _ _ fun _ p => sinks_storePiece who p.1 p.2

@[simp] theorem sinks_loadAt (who : Option Nat) (loc n : Nat) : (loadAt s who loc n).1.sinks = s.sinks :=
  sinks_of_accesses (accesses_loadAt who loc n)

@[simp] theorem sinks_loadNum (loc n : Nat) : (loadNum s loc n).1.sinks = s.sinks := sinks_loadAt none loc n

@[simp] theorem sinks_nameRead (site n : Nat) : (nameRead s site n).1.sinks = s.sinks := by
  unfold nameRead
  split <;> simp

theorem sinks_nameEntry (w : Who) (n : Nat) : (nameEntry s w n).1.sinks = s.sinks := by
  unfold nameEntry
  split
  · exact sinks_nameRead _ _
  · split
    · rfl
    · simp [cacheName]

@[simp] theorem sinks_resolveName (w : Who) (n : Nat) : (resolveName s w n).1.sinks = s.sinks := sinks_nameEntry w n

@[simp] theorem sinks_resolveLoc (w : Who) (n a : Nat) : (resolveLoc s w n a).1.sinks = s.sinks := sinks_resolveName w n

@[simp] theorem sinks_walkFrom (w : Who) (va : Nat) (levels : List Nat) (e : Nat) : (walkFrom s w va levels e).1.sinks = s.sinks := by
  induction levels generalizing s e with
  | nil => rfl
  | cons lvl rest ih =>
    unfold walkFrom
    split
    · next failed => exact sinks_of_eq failed (sinks_resolveLoc _ _ _)
    · next resolved =>
      have kept := sinks_of_eq resolved (sinks_resolveLoc _ _ _)
      dsimp only
      split_ifs <;> simp [ih, kept]

@[simp] theorem sinks_walk (w : Who) (va : Nat) : (walk s w va).1.sinks = s.sinks := by
  unfold walk
  dsimp only
  split_ifs <;> simp

@[simp] theorem sinks_tlbFill (w : Who) (asid va : Nat) (l : Leaf) : (tlbFill s w asid va l).sinks = s.sinks := by
  unfold tlbFill
  cases w.tray <;> rfl

@[simp] theorem sinks_setAccessed (l : Leaf) : (setAccessed s l).sinks = s.sinks := by
  unfold setAccessed
  split_ifs <;> simp

theorem sinks_leafOf (w : Who) (va : Nat) : (leafOf s w va).1.sinks = s.sinks := by
  unfold leafOf
  dsimp only
  split
  · rfl
  · split
    · exact sinks_tlbFill _ _ _ _
    · split
      · next failed =>
        refine sinks_of_eq failed ?_
        split <;> simp
      · next walked =>
        rw [sinks_tlbFill, sinks_setAccessed]
        refine sinks_of_eq walked ?_
        split <;> simp

@[simp] theorem sinks_interleaveEntry (w : Who) (va b : Nat) : (interleaveEntry s w va b).1.sinks = s.sinks := by
  unfold interleaveEntry
  dsimp only
  split
  · rfl
  · split
    · split_ifs <;> simp
    · rfl

theorem sinks_leafTarget (w : Who) (pte lvl va : Nat) : (leafTarget s w pte lvl va).1.sinks = s.sinks := by
  unfold leafTarget
  dsimp only
  split
  · split_ifs
    · exact sinks_interleaveEntry _ _ _
    · split
      · next failed => exact (sinks_of_eq failed (sinks_resolveName _ _)).trans (sinks_interleaveEntry _ _ _)
      · next named =>
        have kept := (sinks_of_eq named (sinks_resolveName _ _)).trans (sinks_interleaveEntry _ _ _)
        split <;> exact kept
  · rfl
  · rfl
  · rfl
  · split <;> next resolved => exact sinks_of_eq resolved (sinks_resolveLoc _ _ _)

theorem sinks_translate (w : Who) (va : Nat) (isWrite : Bool) : (Machine.translate s w va isWrite).1.sinks = s.sinks := by
  unfold Machine.translate
  split
  · next failed => exact sinks_of_eq failed (sinks_leafOf _ _)
  · next found =>
    have kept := sinks_of_eq found (sinks_leafOf _ _)
    split_ifs
    · exact kept
    · exact kept
    · exact (sinks_leafTarget _ _ _ _).trans kept

theorem sinks_engTranslate (w : Who) (va : Nat) (isWrite : Bool) : (engTranslate s w va isWrite).1.sinks = s.sinks := by
  unfold engTranslate
  split_ifs
  · split <;> next translated => exact sinks_of_eq translated (sinks_translate _ _ _)
  · rfl

@[simp] theorem sinks_peerAsk (w : Who) (peer fa kind size : Nat) (data : List Byte) :
    (peerAsk s w peer fa kind size data).1.sinks = s.sinks := by
  unfold peerAsk
  split
  · rfl
  · dsimp only
    split_ifs <;> rfl

@[simp] theorem sinks_replicaRead (who : Option Nat) (site : Nat) (p : Phys) (loc n : Nat) :
    (replicaRead s who site p loc n).1.sinks = s.sinks := by
  unfold replicaRead
  dsimp only
  split <;> simp

@[simp] theorem sinks_homeLoad (w : Who) (n : Nat) (p : Phys) : (homeLoad s w n p).1.sinks = s.sinks := by
  unfold homeLoad
  split
  · exact sinks_peerAsk _ _ _ _ _ _
  · split_ifs <;> simp

theorem sinks_engRead (w : Who) (va n : Nat) : (engRead s w va n).1.sinks = s.sinks := by
  refine sinks_foldl_fst _ _ _ fun r p => ?_
  split
  · rfl
  · split
    · next failed => exact sinks_of_eq failed (sinks_engTranslate _ _ _)
    · next translated =>
      have kept := sinks_of_eq translated (sinks_engTranslate _ _ _)
      dsimp only
      split_ifs <;> simp [kept]

theorem sinks_engWrite (w : Who) (va : Nat) (bs : List Byte) : (engWrite s w va bs).1.sinks = s.sinks := by
  refine sinks_foldl_fst _ _ _ fun r p => ?_
  split
  · rfl
  · split
    · next failed => exact sinks_of_eq failed (sinks_engTranslate _ _ _)
    · next translated =>
      have kept := sinks_of_eq translated (sinks_engTranslate _ _ _)
      split <;> simp [kept]

theorem sinks_engReadNum (w : Who) (va n : Nat) : (engReadNum s w va n).1.sinks = s.sinks := sinks_engRead w va n

@[simp] theorem sinks_drawWrite (w : Who) (x : State × Nat) (va : Nat) (bs : List Byte) : (drawWrite w x va bs).1.sinks = x.1.sinks := by
  unfold drawWrite
  split <;> next ended => exact sinks_of_eq ended (sinks_engWrite _ _ _)

theorem sinks_applySample (d : Frame) (w : Who) (z : Word) (id : Nat) (x : State × Nat) (e : Nat) :
    (applySample d w z id x e).1.sinks = x.1.sinks := by
  unfold applySample
  split
  · next failed => exact sinks_of_eq failed (sinks_engReadNum _ _ _)
  · next depth =>
    have kept := sinks_of_eq depth (sinks_engReadNum _ _ _)
    split
    · next failed => exact (sinks_of_eq failed (sinks_engReadNum _ _ _)).trans kept
    · next stored =>
      have kept := (sinks_of_eq stored (sinks_engReadNum _ _ _)).trans kept
      split_ifs <;> simp [kept]

theorem sinks_drawPixel (d : Frame) (w : Who) (t : Tri) (id : Nat) (x : State × Nat) (px py : Nat) :
    (drawPixel d w t id x px py).1.sinks = x.1.sinks := by
  refine sinks_foldl_fst _ _ _ fun r k => ?_
  dsimp only
  split_ifs
  · exact sinks_applySample _ _ _ _ _ _
  · rfl

theorem sinks_drawRegion (d : Frame) (w : Who) (t : Tri) (id : Nat) (x : State × Nat) (r : Nat) :
    (drawRegion d w t id x r).1.sinks = x.1.sinks :=
  sinks_foldl_fst _ _ _ fun _ _ => sinks_foldl_fst _ _ _ fun _ _ => sinks_drawPixel _ _ _ _ _ _ _

theorem sinks_appendBin (d : Frame) (w : Who) (ws : List Word) (x : State × Nat) (r : Nat) :
    (appendBin d w ws x r).1.sinks = x.1.sinks := by
  unfold appendBin
  split_ifs
  · rfl
  · split
    · next failed => exact sinks_of_eq failed (sinks_engReadNum _ _ _)
    · next counted =>
      have kept := sinks_of_eq counted (sinks_engReadNum _ _ _)
      dsimp only
      split_ifs <;> simp [kept]

theorem sinks_drawPrim (x : Sink) (p : Prim) : (drawPrim s x p).1.sinks = s.sinks := by
  unfold drawPrim
  dsimp only
  split_ifs
  · rfl
  · split
    · rfl
    · exact (sinks_foldl_fst _ _ _ fun _ _ => sinks_appendBin _ _ _ _ _).trans
        (sinks_foldl_fst _ _ _ fun _ _ => sinks_drawRegion _ _ _ _ _ _)

end

/-! ### Frames (R402 to R409) -/

section
variable {s : State} {n : Nat}

/-- R402: a watermark comes after every emission of its sequence to its die. -/
theorem rasterWatermarkArrive_of_last {m : Watermark} {k : Nat} {x : Sink} (hm : tblGet s.watermarks n = some m)
    (found : markSink s m = some (k, x)) (raster : x.raster = true) (free : x.frame.held.contains (true, n) = false)
    (last : ∀ y ∈ s.emissions, ¬ (y.2.atSink = false ∧ y.2.record.seqid = m.seqid ∧ y.2.ctx = m.ctx ∧ emName y.2 = m.die ∧
      emSink y.2 = m.sink)) : exec (.rasterWatermarkArrive n) s = .next (markArrives s n m k x) := by
  have noneLeft : (s.emissions.any fun y => !y.2.atSink && y.2.record.seqid == m.seqid && y.2.ctx == m.ctx && emName y.2 == m.die &&
      emSink y.2 == m.sink) = false := by
    refine List.any_eq_false.mpr fun y listed before => last y listed ?_
    simpa only [Bool.and_eq_true, Bool.not_eq_true', beq_iff_eq, and_assoc] using before
  show execRasterWatermarkArrive n s = _
  simp only [execRasterWatermarkArrive, hm, found, raster, free, noneLeft, Bool.not_true, Bool.or_self, Bool.false_eq_true, if_false]

section
variable {x : Sink} (hx : tblGet s.sinks n = some x)
include hx

/-- The sink that the drawing leaves is the one that it began with. -/
theorem rasterisePacket_of_passed {p : Prim} {rest : List Prim} (passed : x.frame.pass = p :: rest) :
    exec (.rasterisePacket n) s = .next ((drawPrim s x p).1.upSink n fun y =>
      { y with frame := { y.frame with pass := rest, ctime := max y.frame.ctime (drawPrim s y p).2 } }) := by
  have kept : tblGet (drawPrim s x p).1.sinks n = some x := by rw [sinks_drawPrim, hx]
  show execRasterisePacket n s = _
  simp only [execRasterisePacket, hx, passed, State.upSink, tblUp_of_some kept]

theorem frameComplete_of_done (done : frameDone s x.frame = true) : exec (.frameComplete n) s = .next (retakeAll
    ((engAdd s (sinkWho s x) (readFrame x.frame.desc).done 1).1.upSink n fun x => { x with frame := { x.frame with drawing := false } }) n) := by
  show execFrameComplete n s = _
  simp only [execFrameComplete, hx, done, if_true]

end
end

/-! ### Collectives (R414 to R416) -/

section
variable {s : State} {n : Nat} {g : Grid} {c : Coll}

theorem collectiveContribution_of_bytes {x : Contrib} (hx : tblGet s.contribs n = some x)
    (bound : collOf s x.grid x.binding = some (g, c)) (ready : contribReady s x g = true) (present : lostName s g c = none)
    {bs : List Byte} (bytes : x.bytes = some bs) (site : Nat) (retried agrees : Bool) :
    exec (.collectiveContribution n site retried agrees) s =
      .next (resolveChunk (takeContribution { s with contribs := tblErase s.contribs n } x bs) x.grid x.binding x.chunk site retried
        agrees) := by
  show execCollectiveContribution n site retried agrees s = _
  simp only [execCollectiveContribution, hx, bound, ready, present, bytes, Bool.not_true, Bool.false_eq_true, if_false]

/-- R416: DONE rises once the chunk's completion time has passed. -/
theorem chunkResultAck_of_passed {x : Chunk} (hx : tblGet s.chunks n = some x) (bound : collOf s x.grid x.binding = some (g, c))
    (written : x.written = true) (unacked : x.acked = false) (past : x.ctime + 2 ≤ s.clock / 4) {v : State}
    (raised : (engAdd s { engineWho (gridSite s g) g.ctx with op := some (0, 2 ^ 113 + n) } c.done.toNat 1).1 = v) :
    exec (.chunkResultAck n) s = .next { v with
      chunks := tblSet v.chunks n { x with acked := true, inputs := [] }
      grids := tblUp v.grids x.grid fun g => { g with openChunks := g.openChunks - 1 } } := by
  have passed : passes s x.ctime = true := passes_iff.mpr past
  show execChunkResultAck n s = _
  simp only [execChunkResultAck, hx, bound, written, unacked, passed, raised, Bool.not_true, Bool.or_self, Bool.false_eq_true, if_false]

end

end Sys2Proof.Laws.Deliveries

namespace Sys2Proof

open Machine Laws.Deliveries

/-- Settles O59: each event of the journal, the sinks and the collective engine under its condition. -/
theorem sinksAndCollectivesGoOn : Obligations.SinksAndCollectivesGoOn := by
  unfold Obligations.SinksAndCollectivesGoOn
  intro s
  refine ⟨?journal, fun site d hd => ⟨fun p => partnerLost_of_lost hd, partnerResendDone_of_acked hd⟩, fun n e he => ⟨?held, ?send, ?ring, ?packet⟩,
    fun n g gr slot l x e hg grid hx hl pending => ⟨_, forcedRecordFetch_of_pending hg grid hx hl pending rfl, rfl⟩,
    fun n m k x hm found raster free last => rasterWatermarkArrive_of_last hm found raster free last,
    fun n x hx => ⟨fun p rest => rasterisePacket_of_passed hx, frameComplete_of_done hx⟩,
    fun n x g c site retried agrees bs hx bound ready present bytes =>
      collectiveContribution_of_bytes hx bound ready present bytes site retried agrees,
    fun n x g c hx bound written unacked past => chunkResultAck_of_passed hx bound written unacked past rfl⟩
  case journal =>
    intro site n d d2 p r hd partner apart hp live room shadowed steady inside
    exact ⟨contactLogRecordArrive_of_room hd partner shadowed apart hp live room steady inside,
      fun arrived unacked kind => journalRecordAck_of_kind_lt hd partner shadowed arrived unacked kind rfl⟩
  case held => exact sinkEmissionArrive_of_held he
  case send =>
    intro may u b named
    refine ⟨sinkEmissionArrive_of_no_sink he named may, fun k x found => ?_⟩
    have arrives := sinkEmissionArrive_of_sink he named may found
    exact ⟨fun raster => arrives.trans (congrArg _ (if_pos raster)),
      fun ring => arrives.trans (congrArg _ (if_neg (Bool.not_eq_true _ ▸ ring)))⟩
  case ring =>
    intro k x u b found ring accepted oldest named w ringVa v wi index
    have heads : HeadsRing s u n e k x b := ⟨he, found, ring, accepted, oldest, named⟩
    refine ⟨fun written => ?_, fun unwritten v2 ri readIndex => ⟨ringSinkDeliver_of_full heads index unwritten readIndex,
      fun room v3 c => ringSinkDeliver_of_room heads index unwritten readIndex room⟩⟩
    have delivers := ringSinkDeliver_of_written heads index written
    exact ⟨fun past => delivers.trans (congrArg _ (if_pos past)),
      fun early => delivers.trans (congrArg _ (if_neg (Nat.not_le.mpr early)))⟩
  case packet =>
    exact fun sent onWay first u b k x named found raster => rasterPacketArrive_of_first he named sent onWay first found raster

end Sys2Proof

namespace Sys2Proof.Machine

/-- Settles O8: memory after reset lists nothing, so it is canonical and every byte of it reads 0. -/
theorem resetMemoryCanonical : Obligations.ResetMemoryCanonical := by
  unfold Obligations.ResetMemoryCanonical
  have empty : State.reset.mem = [] := rfl
  exact ⟨memory_wf_reset, fun a => by rw [empty]; exact cellGet_nil a⟩

end Sys2Proof.Machine

namespace Sys2Proof.Laws.Boot

open Machine

variable {s : State}

/-! ### Boot (R462) -/

theorem powerOn_of_booted (booted : s.phase ≠ .unbooted) : exec .powerOn s = .next s := by
  show execPowerOn s = _
  rw [execPowerOn, if_pos booted]

/-- R462, R468: a boot without a verified image and map ends in Safelight. -/
theorem powerOn_of_unverified (off : s.phase = .unbooted)
    (refused : ¬ (imageOk (flashImage s) = true ∧ dodgeOk (imageKey (flashImage s)) (flashMap s) = true)) :
    exec .powerOn s = .next { s with phase := .safelight } := by
  have failed : imageOk (flashImage s) = false ∨ dodgeOk (imageKey (flashImage s)) (flashMap s) = false := by
    simpa only [not_and_or, Bool.not_eq_true] using refused
  show execPowerOn s = _
  simp only [execPowerOn, off, ne_eq, not_true_eq_false, if_false, failed, if_true]

/-- R462 to R464: a verified boot runs with the live sites among those that the dodge map leaves powered. -/
theorem powerOn_of_verified (off : s.phase = .unbooted) (image : imageOk (flashImage s) = true)
    (map : dodgeOk (imageKey (flashImage s)) (flashMap s) = true) {powered live : List Nat}
    (hpowered : ((List.range 48).filter fun k => mapOut (flashMap s) / 2 ^ k % 2 = 0) = powered)
    (hlive : bootSites s (flashMap s) (readLog s) (heardSites (powered.filter fun k => bootFails s k 0 = false)) = live) :
    exec .powerOn s = .next (if live = [] then s else bootLive s (flashMap s) (readLog s) powered live) := by
  have passed : (fun k => !bootFails s k 0) = fun k => decide (bootFails s k 0 = false) := by
    funext k; cases bootFails s k 0 <;> rfl
  have left : ((List.range 48).filter fun k => mapOut (flashMap s) / 2 ^ k % 2 == 0) = powered := hpowered
  show execPowerOn s = _
  simp only [execPowerOn, off, image, map, ne_eq, not_true_eq_false, Bool.true_eq_false, or_self, if_false, left, passed, hlive]

/-! ### Safelight (R468) -/

theorem safelightCandidateWrite_of_refused (safelight : s.phase = .safelight) {isMap : Bool} {bytes : List Byte}
    (bad : candidateOk s isMap bytes = false) :
    exec (.safelightCandidateWrite isMap bytes) s = .next { s with outputs := s.outputs ++ [.candidateRefused] } := by
  show execSafelightCandidateWrite isMap bytes s = _
  simp only [execSafelightCandidateWrite, safelight, bad, ne_eq, not_true_eq_false, if_false, Bool.false_eq_true]

theorem safelightCandidateWrite_of_verified (safelight : s.phase = .safelight) {isMap : Bool} {bytes : List Byte}
    (good : candidateOk s isMap bytes = true) :
    exec (.safelightCandidateWrite isMap bytes) s =
      .next (powerCycle { putFlash s (if isMap then mapOffset else 0) bytes with outputs := s.outputs ++ [.candidateWritten] }) := by
  show execSafelightCandidateWrite isMap bytes s = _
  simp only [execSafelightCandidateWrite, safelight, good, ne_eq, not_true_eq_false, if_false, if_true]

/-! ### SPDM (R469) -/

section

variable {port : Nat} {asym hash : List Word} (opened : spdmOpen s port = true)
include opened

theorem spdmNegotiateAlgorithms_of_both (both : algAsym ∈ asym ∧ algHash ∈ hash) :
    exec (.spdmNegotiateAlgorithms port asym hash) s = .next { s with outputs := s.outputs ++ [.spdmAlgorithms algAsym algHash] } := by
  have offered : (asym.contains algAsym && hash.contains algHash) = true := by simpa using both
  show execSpdmNegotiateAlgorithms port asym hash s = _
  simp only [execSpdmNegotiateAlgorithms, opened, offered, Bool.not_true, Bool.false_eq_true, if_false, if_true]

theorem spdmNegotiateAlgorithms_of_missing (missing : ¬ (algAsym ∈ asym ∧ algHash ∈ hash)) :
    exec (.spdmNegotiateAlgorithms port asym hash) s =
      .next { s with outputs := s.outputs ++ [.spdmUnsupported], spdmClosed := port :: s.spdmClosed } := by
  have offered : (asym.contains algAsym && hash.contains algHash) = false := by simpa using missing
  show execSpdmNegotiateAlgorithms port asym hash s = _
  simp only [execSpdmNegotiateAlgorithms, opened, offered, Bool.not_true, Bool.false_eq_true, if_false]

theorem spdmGetMeasurements_of_some {k : Nat} {m : List Byte} (found : measurement s k = some m) :
    exec (.spdmGetMeasurements port k) s = .next { s with outputs := s.outputs ++ [.spdmMeasurement k m (Config.mldsaSign m)] } := by
  show execSpdmGetMeasurements port k s = _
  simp only [execSpdmGetMeasurements, found, opened, if_true]

end

/-! ### The march test (R472, R473) -/

/-- R473: the fields of the status word do not overlap, so its value is their sum. -/
theorem toNat_statusOf {m : Marched} (entries : m.ent ≤ 256) (bank : m.ovbank < 256) :
    (statusOf m).toNat = (if m.retire then 2 ^ 31 else 0) + m.ent * 2 ^ 16 + m.ovbank * 2 ^ 8 := by
  rw [statusOf, BitVec.toNat_ofNat]
  apply Nat.mod_eq_of_lt
  split <;> omega

/-- R473: each field of the status word, from the word's value. -/
theorem statusOf_fields {m : Marched} (entries : m.ent ≤ 256) (bank : m.ovbank < 256) {x : Nat} (hx : (statusOf m).toNat = x) :
    (2 ^ 31 ≤ x ↔ m.retire = true) ∧ x / 2 ^ 16 % 2 ^ 9 = m.ent ∧ x / 2 ^ 8 % 2 ^ 8 = m.ovbank ∧ x % 2 ^ 8 = 0 ∧ x / 2 ^ 25 % 2 ^ 6 = 0 := by
  rw [toNat_statusOf entries bank] at hx
  cases hr : m.retire <;> simp only [hr, Bool.false_eq_true, if_false, if_true, iff_false, iff_true] at hx ⊢ <;> omega

/-- While the table has room, each row takes one entry, and what the test has found stands. -/
theorem foldl_marchEntry_of_room (arr : Nat) : ∀ (xs : List (Nat × Nat)) (m : Marched), m.ent + xs.length ≤ 256 →
    let m' := xs.foldl (marchEntry arr) m
    m'.ent = m.ent + xs.length ∧ m'.retire = m.retire ∧ m'.ovbank = m.ovbank
  | [], _, _ => ⟨rfl, rfl, rfl⟩
  | x :: xs, m, room => by
    rw [List.length_cons] at room
    have taken : marchEntry arr m x = { m with repair := cellSet m.repair m.ent (entryOf arr x.1 x.2), ent := m.ent + 1 } :=
      if_neg (by omega)
    obtain ⟨ent, retire, ovbank⟩ := foldl_marchEntry_of_room arr xs (marchEntry arr m x) (by rw [taken]; show m.ent + 1 + _ ≤ _; omega)
    rw [taken] at ent retire ovbank
    rw [List.foldl_cons, List.length_cons, taken]
    exact ⟨ent.trans (Nat.succ_add_eq_add_succ m.ent xs.length), retire, ovbank⟩

/-- A bank within its spares offers one entry for each failing row. -/
theorem length_reverse_pairs {α : Type} (rows : List α) :
    ((List.range rows.length).reverse.filterMap fun i => (rows[i]?).map fun r => (r, i)).length = rows.length := by
  rw [List.length_filterMap_eq_countP, List.countP_eq_length.mpr, List.length_reverse, List.length_range]
  intro i hi
  simpa using hi

section

variable {draws core arr bank : Nat} {bad : List (Nat × Nat)} {m : Marched}

/-- R472: a bank that lacks spares gets no entry, and is the one that OVBANK names. -/
theorem marchBank_of_lacking (lacking : spareCount arr < (failingRows draws core bad arr bank).length) :
    let m' := marchBank draws core bad arr m bank
    m'.retire = true ∧ m'.ovbank = 64 * arr + bank ∧ m'.ent = m.ent ∧ m'.repair = m.repair := by
  rw [marchBank, if_pos lacking]
  exact ⟨rfl, rfl, rfl, rfl⟩

/-- R472: a bank within its spares gets an entry for each failing row, while the table has room. -/
theorem marchBank_of_spared (spared : (failingRows draws core bad arr bank).length ≤ spareCount arr)
    (room : m.ent + (failingRows draws core bad arr bank).length ≤ 256) :
    let m' := marchBank draws core bad arr m bank
    m'.ent = m.ent + (failingRows draws core bad arr bank).length ∧ m'.retire = m.retire ∧ m'.ovbank = m.ovbank := by
  rw [marchBank, if_neg (Nat.not_lt.mpr spared)]
  have entries := length_reverse_pairs (failingRows draws core bad arr bank)
  have filled := foldl_marchEntry_of_room arr _ m (entries.symm ▸ room)
  rwa [entries] at filled

end

end Sys2Proof.Laws.Boot

namespace Sys2Proof

open Machine Laws.Boot

/-- Settles O60: boot by what the flash holds, Safelight by its candidate, SPDM by what is offered, and the march test bank by bank. That memory
lists nothing after a loss of power is the choice of log entries 1 and 77. -/
theorem packagePowersUp : Obligations.PackagePowersUp := by
  unfold Obligations.PackagePowersUp
  refine ⟨fun s => ⟨powerOn_of_booted, fun off => ⟨powerOn_of_unverified off, fun ⟨image, map⟩ => powerOn_of_verified off image map rfl rfl⟩,
    ?loss, fun isMap bytes safelight => ⟨safelightCandidateWrite_of_refused safelight, fun good => ?written⟩,
    fun port opened => ⟨fun asym hash => ⟨spdmNegotiateAlgorithms_of_both opened, spdmNegotiateAlgorithms_of_missing opened⟩,
      fun k m => spdmGetMeasurements_of_some opened⟩⟩,
    fun m entries bank => statusOf_fields entries bank rfl, fun draws core bad arr bank m => ⟨marchBank_of_lacking, marchBank_of_spared⟩⟩
  case loss => exact ⟨powerCycle s, rfl, rfl, rfl, rfl, rfl, rfl, rfl, rfl, rfl⟩
  case written => exact ⟨_, safelightCandidateWrite_of_verified safelight good, rfl, rfl, rfl⟩

end Sys2Proof
